-- ==== Sys2Proof/Word.lean ====
section
/-! DEFINITION. The word types of the Calanrix C7 (R3, R4, R95, R129) and their plainest helpers. -/

namespace Sys2Proof

/-- One byte of memory (R4). -/
abbrev Byte := BitVec 8

/-- A 64-bit register, CSR or table word (R95, R181). -/
abbrev Word := BitVec 64

/-- A 48-bit address register (R260). -/
abbrev AWord := BitVec 48

/-- A 1024-bit vector register (R129). -/
abbrev VWord := BitVec 1024

/-- A 32-bit word: a control-core instruction, an f32 pattern, a loop count. -/
abbrev Half := BitVec 32

end Sys2Proof
end

