-- ==== Sys2Proof/Syntax.lean ====
section
/-! DEFINITION. The instructions and events of the Calanrix C7: one constructor of `Instr` for each row of the
opcode table. Slot operations carry the fields of their 48-bit word (R63, R68 to R74), control-core instructions the
fields of their 32-bit word (R76, R78, R181), and events the operands that name what they act on. -/

namespace Sys2Proof

/-! ### Slots, widths and guards (R61 to R64) -/

/-- The two scalar slots. -/
inductive SSlot | sa | sb
deriving DecidableEq, Repr

/-- The three vector slots. -/
inductive VSlot | va | vb | vc
deriving DecidableEq, Repr

/-- The two memory slots. -/
inductive MSlot | ma | mb
deriving DecidableEq, Repr

/-- The ten slots of a bundle, in the order of R61. -/
inductive Slot | sa | sb | va | vb | vc | fs | ma | mb | xf | lp
deriving DecidableEq, Repr

/-- The width of a vector slot: header codes 1, 2 and 3 (R62). -/
inductive Width | w256 | w512 | w1024
deriving DecidableEq, Repr

/-- The guard of a slot word: polarity, register and bit (R63). -/
structure Guard where
  pol : Bool
  reg : BitVec 5
  bit : BitVec 6
deriving DecidableEq, Repr

/-! ### Formats of the slot words -/

/-- Format S3 (R68): two sources and a destination. -/
structure FS3 where
  sl : SSlot
  g : Guard
  d : BitVec 4
  a : BitVec 4
  b : BitVec 4
deriving DecidableEq, Repr

/-- Format S2 (R68): one source. -/
structure FS2 where
  sl : SSlot
  g : Guard
  d : BitVec 4
  a : BitVec 4
deriving DecidableEq, Repr

/-- Format SF (R68, R109): a bit field at `pos` of length `len1 + 1`. -/
structure FSF where
  sl : SSlot
  g : Guard
  d : BitVec 4
  a : BitVec 4
  pos : BitVec 6
  len1 : BitVec 6
deriving DecidableEq, Repr

/-- Format SI (R68): a signed 20-bit immediate. -/
structure FSI where
  sl : SSlot
  g : Guard
  d : BitVec 4
  a : BitVec 4
  imm : BitVec 20
deriving DecidableEq, Repr

/-- Format SL (R68, R110): a 24-bit constant. -/
structure FSL where
  sl : SSlot
  g : Guard
  d : BitVec 4
  imm : BitVec 24
deriving DecidableEq, Repr

/-- Format CP (R68) in a scalar slot: a copy from register `src` of file code `file` (R67). -/
structure FCP where
  sl : SSlot
  g : Guard
  d : BitVec 4
  src : BitVec 4
  file : BitVec 4
deriving DecidableEq, Repr

/-- Format SW (R68, R166): stream register `n` from scalar register `a`. -/
structure FSW where
  sl : SSlot
  g : Guard
  n : BitVec 4
  a : BitVec 4
deriving DecidableEq, Repr

/-- Format BJ (R68, R115): a branch by a bundle offset. -/
structure FBJ where
  g : Guard
  variant : BitVec 2
  off : BitVec 26
deriving DecidableEq, Repr

/-- Format BI (R68, R115): a branch to the address in `sb[a]`. -/
structure FBI where
  g : Guard
  variant : BitVec 2
  a : BitVec 4
deriving DecidableEq, Repr

/-- LOOP of R69. -/
structure FLoop where
  g : Guard
  level : BitVec 2
  len1 : BitVec 10
  count : BitVec 16
deriving DecidableEq, Repr

/-- LOOPR of R69. -/
structure FLoopR where
  g : Guard
  level : BitVec 2
  len1 : BitVec 10
  sb : BitVec 4
deriving DecidableEq, Repr

/-- LSTRI of R69. -/
structure FLstrI where
  g : Guard
  level : BitVec 2
  sel : BitVec 5
  stride : BitVec 21
deriving DecidableEq, Repr

/-- LSTR of R69. -/
structure FLstr where
  g : Guard
  level : BitVec 2
  sel : BitVec 5
  sb : BitVec 4
deriving DecidableEq, Repr

/-- Format V (R70), with the width of its slot from the bundle header. -/
structure FV where
  sl : VSlot
  w : Width
  g : Guard
  d : BitVec 4
  a : BitVec 4
  b : BitVec 4
  c : BitVec 4
  type : BitVec 5
  rnd : BitVec 3
  aux : BitVec 4
deriving DecidableEq, Repr

/-- Format VX (R70): VCVT. -/
structure FVX where
  sl : VSlot
  w : Width
  g : Guard
  d : BitVec 4
  a : BitVec 4
  stype : BitVec 5
  dtype : BitVec 5
  rnd : BitVec 3
  half : Bool
deriving DecidableEq, Repr

/-- Format VI (R70): VINS. -/
structure FVI where
  sl : VSlot
  w : Width
  g : Guard
  d : BitVec 4
  idx : BitVec 7
  s : BitVec 4
  isSb : Bool
  type : BitVec 5
deriving DecidableEq, Repr

/-- Format VE (R70): VEXT. -/
structure FVE where
  sl : VSlot
  w : Width
  g : Guard
  d : BitVec 4
  a : BitVec 4
  idx : BitVec 7
  type : BitVec 5
deriving DecidableEq, Repr

/-- Format VB (R70): VBCST. -/
structure FVB where
  sl : VSlot
  w : Width
  g : Guard
  d : BitVec 4
  s : BitVec 4
  isSb : Bool
  type : BitVec 5
deriving DecidableEq, Repr

/-- Format CP in a vector slot (R70): VCPX. -/
structure FVCP where
  sl : VSlot
  w : Width
  g : Guard
  d : BitVec 4
  src : BitVec 4
  file : BitVec 4
deriving DecidableEq, Repr

/-- The FS format (R71): source files 0 va, 1 vb, 2 vc, 3 fs. -/
structure FFS where
  g : Guard
  d : BitVec 3
  src : BitVec 4
  file : BitVec 2
deriving DecidableEq, Repr

/-- Format M (R73). -/
structure FM where
  sl : MSlot
  g : Guard
  dreg : BitVec 4
  dfile : BitVec 3
  areg : BitVec 4
  size : BitVec 3
  ofs : BitVec 14
deriving DecidableEq, Repr

/-- SLD (R264): the operation field names a stream register. -/
structure FSld where
  sl : MSlot
  g : Guard
  dreg : BitVec 4
  dfile : BitVec 3
  areg : BitVec 4
  size : BitVec 3
  st : BitVec 4
deriving DecidableEq, Repr

/-- LDT (R265): the operation field names the tag register and a 10-bit offset. -/
structure FLdt where
  sl : MSlot
  g : Guard
  dreg : BitVec 4
  dfile : BitVec 3
  areg : BitVec 4
  size : BitVec 3
  t : BitVec 4
  ofs : BitVec 10
deriving DecidableEq, Repr

/-- AMO (R267). -/
structure FAmo where
  sl : MSlot
  g : Guard
  dreg : BitVec 4
  dfile : BitVec 3
  areg : BitVec 4
  size : BitVec 3
  op : BitVec 4
  cmp : BitVec 4
  ofs : BitVec 6
deriving DecidableEq, Repr

/-- REL (R268). -/
structure FRel where
  sl : MSlot
  g : Guard
  scope : BitVec 4
deriving DecidableEq, Repr

/-- MCPX (R262): format CP in a memory slot. -/
structure FMCP where
  sl : MSlot
  g : Guard
  d : BitVec 4
  src : BitVec 4
  file : BitVec 4
deriving DecidableEq, Repr

/-- MADDI (R262). -/
structure FMadd where
  sl : MSlot
  g : Guard
  d : BitVec 4
  a : BitVec 4
  imm : BitVec 20
deriving DecidableEq, Repr

/-- MLI (R262). -/
structure FMli where
  sl : MSlot
  g : Guard
  d : BitVec 4
  imm : BitVec 24
deriving DecidableEq, Repr

/-- SEND and RECV (R363): a data register, a stream and a size. -/
structure FXD where
  g : Guard
  dreg : BitVec 4
  dfile : BitVec 3
  x : BitVec 3
  size : BitVec 3
deriving DecidableEq, Repr

/-- RLD (R363), with its offset; RST has the FL bit as well. -/
structure FXO where
  g : Guard
  dreg : BitVec 4
  dfile : BitVec 3
  x : BitVec 3
  size : BitVec 3
  fl : Bool
  ofs : BitVec 14
deriving DecidableEq, Repr

/-- RAMO (R363); its SIZE is 3. -/
structure FXA where
  g : Guard
  dreg : BitVec 4
  dfile : BitVec 3
  x : BitVec 3
  op : BitVec 4
  cmp : BitVec 4
  ofs : BitVec 6
deriving DecidableEq, Repr

/-- FLUSH (R363). -/
structure FXF where
  g : Guard
  x : BitVec 3
deriving DecidableEq, Repr

/-- ACKW (R363, R369). -/
structure FXW where
  g : Guard
  x : BitVec 3
  n : BitVec 10
deriving DecidableEq, Repr

/-! ### Formats of the control core -/

/-- rd, rs1 and rs2 of a macro-instruction or cal.ovly (R76, R78). -/
structure FR3 where
  rd : BitVec 5
  rs1 : BitVec 5
  rs2 : BitVec 5
deriving DecidableEq, Repr

/-- The conditions of the RISC-V branches (RV64I). -/
inductive BrCond | eq | ne | lt | ge | ltu | geu
deriving DecidableEq, Repr

/-- The register-register and register-immediate operations of RV64I and M; the `w` flag of the instruction selects
the 32-bit forms. -/
inductive AluOp
  | add | sub | sll | slt | sltu | xor | srl | sra | or | and
  | mul | mulh | mulhsu | mulhu | div | divu | rem | remu
deriving DecidableEq, Repr

/-- The CSR access kinds of Zicsr. -/
inductive CsrKind | rw | rs | rc
deriving DecidableEq, Repr

/-- One RV64I, M or Zicsr instruction that has no row of its own (R181); compressed forms expand to these. -/
inductive RvOp
  | lui (rd : BitVec 5) (imm : Word)
  | auipc (rd : BitVec 5) (imm : Word)
  | jal (rd : BitVec 5) (off : Word)
  | jalr (rd rs1 : BitVec 5) (off : Word)
  | branch (c : BrCond) (rs1 rs2 : BitVec 5) (off : Word)
  | alui (op : AluOp) (w : Bool) (rd rs1 : BitVec 5) (imm : Word)
  | alu (op : AluOp) (w : Bool) (rd rs1 rs2 : BitVec 5)
  | csr (k : CsrKind) (isImm : Bool) (rd : BitVec 5) (src : BitVec 5) (n : BitVec 12)
  | ebreak
  /-- an encoding that R79 or R181 makes an illegal instruction, with its bits -/
  | illegal (w : BitVec 32)
deriving DecidableEq, Repr

/-- A control-core instruction without a row of its own; `c` is true for a 16-bit encoding. -/
structure RvInstr where
  op : RvOp
  c : Bool
deriving DecidableEq, Repr

/-- The atomic operations of RV64A (with LR and SC apart). -/
inductive RvAmo | swap | add | xor | and | or | min | max | minu | maxu
deriving DecidableEq, Repr

/-- A load, store or AMO of the control core (R278): `sz` is log2 of the bytes. -/
inductive RvMem
  | load (rd rs1 : BitVec 5) (off : Word) (sz : BitVec 2) (unsigned : Bool)
  | store (rs1 rs2 : BitVec 5) (off : Word) (sz : BitVec 2)
  | amo (op : RvAmo) (rd rs1 rs2 : BitVec 5) (sz : BitVec 2)
deriving DecidableEq, Repr

/-- A load, store or AMO with the length of its encoding. -/
structure RvMemInstr where
  op : RvMem
  c : Bool
deriving DecidableEq, Repr

/-! ### Operands of the events -/

/-- The functions with a ready bit (R395), DRLOCK apart. -/
inductive Func
  | link (n : Nat) | fe (n : Nat) | die (n : Nat) | stack (n : Nat) | hwa | hwb | eth
deriving DecidableEq, Repr

/-- The engines with an issue queue (R20). -/
inductive Eng | mx | px | ce | cx | weir
deriving DecidableEq, Repr

/-- A sequencer: an engine kind, and for CX the die and for Weir the unit with the sequencer index (R20). -/
structure Seqr where
  eng : Eng
  unit : Nat
  idx : Nat
deriving DecidableEq, Repr

/-- A part of a remote access as it reaches its target (R365): kind 0 load, 1 store, 2 atomic; `ofs` is the part's place
in the requester's data; a Timed request is due at basin count `due` (R366). -/
structure RemoteReq where
  kind : Nat
  srcModule : Nat
  srcCore : Nat
  stream : Nat
  slot : Nat
  ofs : Nat
  part : Nat
  ia : Nat
  bytes : Nat
  data : VWord
  op : BitVec 4
  cmp : Word
  fl : Bool
  timed : Bool
  due : Nat
  /-- of an atomic: whether its launch checks for overlap in mixed size, and the bundle, slot and address of it (R287) -/
  ovldbg : Bool
  pc : BitVec 32
  bslot : Nat
  va : BitVec 64
deriving DecidableEq, Repr

/-- A transfer on a fabric stream or for a collective plan step (R356, R364, R336). -/
structure Flit where
  route : Nat
  srcModule : Nat
  srcCore : Nat
  dstCore : Nat
  /-- destination stream, or the CX sequencer for a plan transfer -/
  stream : Nat
  /-- sequence number carried -/
  seq : BitVec 16
  bytes : Nat
  data : VWord
  poisoned : Bool
  depSC : Nat
  timed : Bool
  /-- the remote access that the transfer carries, if it is no SEND (R365) -/
  req : Option RemoteReq
  /-- plan number, plan step number and bytes of a collective transfer (R336) -/
  plan : Option (Nat × Nat × List Byte)
deriving DecidableEq, Repr

/-- A transfer that a fabric switch places on an output link (R359): the flit, its input port and its link-entry
basin count. -/
structure PortFlit where
  flit : Flit
  port : Nat
  link : Nat
  at_ : Nat
  flits : Nat
  /-- the domain of this module that sent it, and the number of its run (R403) -/
  dom : Option Nat
  run : Nat
deriving DecidableEq, Repr

/-- A basin-abort notice (R57). -/
structure Notice where
  /-- the module that the notice is for, and the outgoing links that its path still takes -/
  target : Nat
  path : List Nat
  timetable : Nat
  run : Nat
  replays : Nat
  /-- 4 launch replay, 5 kill, as RESP of R58 -/
  resp : Nat
  ba : Nat
  cause : BitVec 8
  subcause : BitVec 8
deriving DecidableEq, Repr

/-- What Headwater writes into a table (R382, R339, R377, R385). -/
inductive TableWrite
  /-- create queue `q` with the eight words of R339 -/
  | queueRecord (q : Nat) (words : List Word)
  /-- a timetable slot of R382: RES and the record's IA -/
  | timetableSlot (part i : Nat) (w : Word)
  /-- bytes of a record in a partition's memory: a timetable, plan, codebook or parameter record -/
  | memory (part ia : Nat) (bytes : List Byte)
  /-- a page-table entry at a stack physical address -/
  | pageEntry (stack pa : Nat) (w : Word)
  /-- a route entry of R385 -/
  | route (part i : Nat) (w0 w1 : Word)
  /-- an entry of the port's memory-region table (R374); `doorbells` marks the doorbell window of its partition (R341) -/
  | region (i : Nat) (valid : Bool) (key : BitVec 16) (part base len : Nat) (rd wr at_ doorbells : Bool)
  /-- free 64 KiB frames added to a partition's shadow pool (R304) -/
  | shadowFrame (part stack frame : Nat)
  /-- bytes of the walk store of a stack (R379) -/
  | walkStore (stack ofs : Nat) (bytes : List Byte)
  /-- the core monitor's regions 14 and 15 of a core's instruction scratchpad (R251) -/
  | monitor (core ofs : Nat) (bytes : List Byte)
  /-- the descriptor of monitor region 14 or 15 -/
  | monitorRegion (core r : Nat) (base : BitVec 32)
  /-- the errata that a core's loaded profile-5 image lists (R89) -/
  | imageErrata (core : Nat) (errata : BitVec 3)
  /-- a receive buffer posted to a queue pair (R373) -/
  | recvBuffer (qp part ia len : Nat)
  /-- a queue pair set up by firmware (R373) -/
  | queuePair (qp part : Nat) (retry : Nat)
deriving DecidableEq, Repr

/-- A CSR or device register that REGISTER_WRITE or a device-region access names (R6, R386, R387, R391, R392, R394,
R395, R397, R254). -/
inductive RegTarget
  | csr (n : BitVec 12)
  | partTable (p word : Nat)
  | boundary (die : Nat)
  | drreqB
  | drreqN
  | drrej
  | drstat
  | ready (word : Nat)
  | perfsnap (core n : Nat)
  | mgreq
  | mgstat
  | res (die n word : Nat)
  | ecc (stack : Nat) (cls : Nat)
  | pageErr (stack entry : Nat)
  | pgovf (stack : Nat)
  | fec (link : Nat) (unc : Bool)
  | nocerr (die : Nat)
  | lost (part : Nat)
  | audofs (core : Nat)
  | audskip (core : Nat)
  | auddone (die : Nat)
  | audmis (die : Nat)
  | pcsel (core n : Nat)
  | pc (core n : Nat)
  | isl (n : Nat)
  | key (part which word : Nat)
  | driften (core : Nat)
  | audcnt (core : Nat)
  | audfail (die : Nat)
  /-- the watchdog counter of a stage of a hardware slot (R392) -/
  | wdc (slot stage : Nat)
deriving DecidableEq, Repr

/-- A frame at the Ethernet port (R372): which checks it passes, and the transport it carries. -/
structure EthFrame where
  fcsOk : Bool
  length : Nat
  vlanTags : Nat
  ipOk : Bool
  fragment : Bool
  udp4791 : Bool
  icrcOk : Bool
  ce : Bool
  qp : Nat
  pause : Bool
deriving DecidableEq, Repr

/-! ### Instructions and events -/

/-- One constructor for each row of the opcode table, in the table's order. -/
inductive Instr
  -- module events
  | moduleReset
  | functionReady (f : Func)
  | readyBitFall (f : Func)
  | linkLatencyLoss (link : Nat)
  | driftLock (ref : Word)
  | lockLoss (pherr : BitVec 16)
  | holdCycles
  | drreq (v : Word)
  -- host queues
  | dataDoorbell (q : Nat) (rkey : BitVec 32) (v : Word)
  | controlDoorbell (q : Nat) (rkey : BitVec 32) (v : Word)
  | queueMapping (part : Nat)
  | dispatch (fe : Nat)
  | ageingQuantum (part : Nat)
  | launch (fe : Nat)
  | copy (fe : Nat)
  | barrier (fe : Nat)
  | signal (fe : Nat)
  | fence (fe : Nat)
  | barrierCompletion (q idx : Nat)
  | copyCompletion (q idx : Nat)
  | fenceCompletion (q idx : Nat)
  -- domain life
  | domainStart (dom : Nat)
  | ccEntryStart (dom gang : Nat)
  | coreFinished
  | launchRetirement (dom : Nat)
  | tidleExpiry (q : Nat)
  | tholdExpiry (q : Nat)
  | watchdogStage1 (q idx : Nat)
  | watchdogStage2 (q idx : Nat)
  | watchdogStage3 (dom : Nat)
  | faultQueueConsume (part n : Nat)
  | preemptionRequest (dom : Nat)
  | freeze (dom : Nat)
  | resumeOrder (dom : Nat)
  | resume (dom : Nat)
  | eviction (dom ia : Nat)
  | restore (dom : Nat)
  | lateReply (core slot : Nat) (data : VWord)
  | kill (dom : Nat) (status : BitVec 8)
  | launchReplay (dom : Nat)
  | basinAbortNotice (n : Notice)
  | basinReplayDispatch (dom : Nat)
  -- bundle engine steps
  | bundleStep
  | registerLanding
  | scratchpadAccess
  | p5MicroStep
  | beTrap
  | ccInterruptEntry
  | ccWaitEnd
  -- memory side
  | homeSliceCycle (die slice : Nat)
  | firstLevelEviction (line : Nat)
  | pageWalk (id : Nat)
  | walkLate (id : Nat)
  | shootDown (stack part lo hi : Nat)
  | shadowCopy (binding sector : Nat)
  | patrolScrub (stack sector : Nat)
  -- engines
  | macroStart (q : Seqr)
  | tileStepStart (e : Eng)
  | tileStepCommit (e : Eng)
  | chunkCommit (q : Seqr)
  | cxSendStep (q : Seqr)
  | cxReceiveStep (q : Seqr)
  | entryComplete (q : Seqr)
  | macroStop (q : Seqr)
  | entryReissue (q : Seqr)
  | entryFlush (q : Seqr)
  | ceRefetch
  | auditRecomputation (die : Nat)
  -- fabric
  | flitArrival (f : Flit)
  | switchForward (io : Nat) (xs : List PortFlit)
  | ackSend (srcModule srcCore stream : Nat) (flush : Bool)
  | ackArrival (core stream count : Nat)
  | replyArrival (core slot : Nat) (data : VWord) (poisoned : Bool)
  | elasticSendTimeout
  | ethernetFrameReceive (f : EthFrame)
  | rdmaWrite (qp : Nat) (rkey : BitVec 32) (addr : Nat) (data : List Byte)
  | rdmaRead (qp : Nat) (rkey : BitVec 32) (addr len : Nat)
  | rdmaSend (qp : Nat) (data : List Byte)
  | atomicFetchAdd (qp : Nat) (rkey : BitVec 32) (addr : Nat) (x : Word)
  | atomicCompareSwap (qp : Nat) (rkey : BitVec 32) (addr : Nat) (cmp x : Word)
  | cnpReceive (qp : Nat)
  | rateIncrease (qp : Nat)
  | ackTimeout (qp : Nat)
  -- firmware
  | headwaterTakeover
  | liveUpdate (format : Nat)
  | merge (qmask : BitVec 4)
  | split (qmask : BitVec 4)
  | frequencyRequest (isl : Nat) (freq : BitVec 4)
  | beirq
  | registerWrite (r : RegTarget) (v : Word)
  -- control core
  | ccLoadStore (m : RvMemInstr)
  | lr (rd rs1 : BitVec 5) (sz : BitVec 2)
  | sc (rd rs1 rs2 : BitVec 5) (sz : BitVec 2)
  | ccFence
  | fenceI
  | wfi
  | mret
  | ecall
  | mmat (o : FR3)
  | mconv (o : FR3)
  | mattn (o : FR3)
  | msort (o : FR3)
  | mgath (o : FR3)
  | mscat (o : FR3)
  | mcopy (o : FR3)
  | mfill (o : FR3)
  | movly (o : FR3)
  | msel (o : FR3)
  | mtopk (o : FR3)
  | mcoll (o : FR3)
  | calBestart (rs1 rs2 : BitVec 5)
  | calBestartResume (rs1 rs2 : BitVec 5)
  | calWaitEng (e : BitVec 7) (rs1 : BitVec 5)
  | calWaitRng (rs1 rs2 : BitVec 5)
  | calWaitSc (rs1 : BitVec 5)
  | calPrgrd (e : BitVec 7) (rd rs1 : BitVec 5)
  | calPrgwr (e : BitVec 7) (rs1 rs2 : BitVec 5)
  | calRngwr (n : BitVec 7) (rs1 rs2 : BitVec 5)
  | calRel (scope : BitVec 7)
  | calAcq (scope : BitVec 7)
  | calOvly (o : FR3)
  | calDrift (rs1 rs2 : BitVec 5)
  -- bundle slots: NOP and the scalar forms
  | nop (sl : Slot) (g : Guard)
  | add (f : FS3)
  | sub (f : FS3)
  | and (f : FS3)
  | or (f : FS3)
  | xor (f : FS3)
  | sll (f : FS3)
  | srl (f : FS3)
  | sra (f : FS3)
  | slt (f : FS3)
  | sltu (f : FS3)
  | min (f : FS3)
  | max (f : FS3)
  | minu (f : FS3)
  | maxu (f : FS3)
  | mul (f : FS3)
  | mulh (f : FS3)
  | mulhu (f : FS3)
  | div (f : FS3)
  | divu (f : FS3)
  | rem (f : FS3)
  | remu (f : FS3)
  | clz (f : FS2)
  | ctz (f : FS2)
  | popc (f : FS2)
  | bext (f : FSF)
  | bins (f : FSF)
  | addi (f : FSI)
  | andi (f : FSI)
  | ori (f : FSI)
  | xori (f : FSI)
  | slli (f : FSI)
  | srli (f : FSI)
  | srai (f : FSI)
  | slti (f : FSI)
  | lil (f : FSL)
  | lih (f : FSL)
  | lit (f : FSL)
  | cpx (f : FCP)
  | stwr (f : FSW)
  | br (f : FBJ)
  | call (f : FBJ)
  | bri (f : FBI)
  | calli (f : FBI)
  | ret (g : Guard)
  | halt (g : Guard)
  | trap (g : Guard) (code : BitVec 16)
  -- the loop slot
  | loop (f : FLoop)
  | loopr (f : FLoopR)
  | lstri (f : FLstrI)
  | lstr (f : FLstr)
  -- the vector slots
  | vadd (f : FV)
  | vsub (f : FV)
  | vmul (f : FV)
  | vfma (f : FV)
  | vfms (f : FV)
  | vfnma (f : FV)
  | vmin (f : FV)
  | vmax (f : FV)
  | vclamp (f : FV)
  | vabs (f : FV)
  | vneg (f : FV)
  | vand (f : FV)
  | vor (f : FV)
  | vxor (f : FV)
  | vandn (f : FV)
  | vsll (f : FV)
  | vsrl (f : FV)
  | vsra (f : FV)
  | vadds (f : FV)
  | vsubs (f : FV)
  | vcmp (f : FV)
  | vsel (f : FV)
  | vperm (f : FV)
  | vshfl (f : FV)
  | vred (f : FV)
  | vscan (f : FV)
  | vdot (f : FV)
  | vcvt (f : FVX)
  | vins (f : FVI)
  | vext (f : FVE)
  | vbcst (f : FVB)
  | vcpx (f : FVCP)
  | p5dot4 (f : FV)
  | p5hmul (f : FV)
  -- the special-function slot
  | exp2 (f : FFS)
  | log2 (f : FFS)
  | rcp (f : FFS)
  | rsqrt (f : FFS)
  | sqrt (f : FFS)
  | tanh (f : FFS)
  | sigmoid (f : FFS)
  | erf (f : FFS)
  | sinpi (f : FFS)
  | cospi (f : FFS)
  -- the memory slots
  | lds (f : FM)
  | sts (f : FM)
  | lda (f : FM)
  | sta (f : FM)
  | ldl (f : FM)
  | stl (f : FM)
  | sld (f : FSld)
  | ldt (f : FLdt)
  | stag (f : FM)
  | amo (f : FAmo)
  | rel (f : FRel)
  | mcpx (f : FMCP)
  | maddi (f : FMadd)
  | mli (f : FMli)
  -- the fabric slot
  | send (f : FXD)
  | recv (f : FXD)
  | rld (f : FXO)
  | rst (f : FXO)
  | ramo (f : FXA)
  | flush (f : FXF)
  | ackw (f : FXW)
  -- rows that stand last in the table
  | controlCoreInstruction (i : RvInstr)
  | frozenInspection (dom : Nat)
  | headwaterTableWrite (w : TableWrite)
  | launchClearFinished
deriving DecidableEq, Repr

end Sys2Proof
end

