-- ==== Sys2Proof/Machine/Legal.lean ====
section
/-! DEFINITION. The forms of the slot words (R68 to R74): which opcode and format each slot operation has, and the
static rules that make a word of the form legal (R70, R75, R137, R153, R269, R363). -/

namespace Sys2Proof

/-- The formats of a slot word with their operand fields. `notSlot` stands for an instruction that is no slot word. -/
inductive Form
  | notSlot
  | nop (slot : Slot) (g : Guard)
  | s3 (f : FS3) | s2 (f : FS2) | sf (f : FSF) | si (f : FSI) | slc (f : FSL) | cp (f : FCP) | sw (f : FSW)
  | bj (f : FBJ) | bi (f : FBI) | bare (g : Guard) | tc (g : Guard) (code : BitVec 16)
  | loop (f : FLoop) | loopr (f : FLoopR) | lstri (f : FLstrI) | lstr (f : FLstr)
  | v (f : FV) | vx (f : FVX) | vi (f : FVI) | ve (f : FVE) | vb (f : FVB) | vcp (f : FVCP)
  | fs (f : FFS)
  | m (f : FM) | sld (f : FSld) | ldt (f : FLdt) | amo (f : FAmo) | rel (f : FRel) | mcp (f : FMCP)
  | madd (f : FMadd) | mli (f : FMli)
  | xd (f : FXD) | xo (f : FXO) | xa (f : FXA) | xf (f : FXF) | xw (f : FXW)
deriving DecidableEq, Repr

/-- The major opcode within the slot class and the format of a slot operation (R68 to R74). -/
def Instr.form (i : Instr) : BitVec 8 × Form :=
  match i with
  | .nop k g => (0x00, .nop k g)
  | .add f => (0x01, .s3 f)
  | .sub f => (0x02, .s3 f)
  | .and f => (0x03, .s3 f)
  | .or f => (0x04, .s3 f)
  | .xor f => (0x05, .s3 f)
  | .sll f => (0x06, .s3 f)
  | .srl f => (0x07, .s3 f)
  | .sra f => (0x08, .s3 f)
  | .slt f => (0x09, .s3 f)
  | .sltu f => (0x0A, .s3 f)
  | .min f => (0x0B, .s3 f)
  | .max f => (0x0C, .s3 f)
  | .minu f => (0x0D, .s3 f)
  | .maxu f => (0x0E, .s3 f)
  | .mul f => (0x0F, .s3 f)
  | .mulh f => (0x10, .s3 f)
  | .mulhu f => (0x11, .s3 f)
  | .div f => (0x12, .s3 f)
  | .divu f => (0x13, .s3 f)
  | .rem f => (0x14, .s3 f)
  | .remu f => (0x15, .s3 f)
  | .clz f => (0x16, .s2 f)
  | .ctz f => (0x17, .s2 f)
  | .popc f => (0x18, .s2 f)
  | .bext f => (0x19, .sf f)
  | .bins f => (0x1A, .sf f)
  | .addi f => (0x20, .si f)
  | .andi f => (0x21, .si f)
  | .ori f => (0x22, .si f)
  | .xori f => (0x23, .si f)
  | .slli f => (0x24, .si f)
  | .srli f => (0x25, .si f)
  | .srai f => (0x26, .si f)
  | .slti f => (0x27, .si f)
  | .lil f => (0x28, .slc f)
  | .lih f => (0x29, .slc f)
  | .lit f => (0x2A, .slc f)
  | .cpx f => (0x30, .cp f)
  | .stwr f => (0x31, .sw f)
  | .br f => (0x38, .bj f)
  | .call f => (0x39, .bj f)
  | .bri f => (0x3A, .bi f)
  | .calli f => (0x3B, .bi f)
  | .ret g => (0x3C, .bare g)
  | .halt g => (0x3E, .bare g)
  | .trap g code => (0x3F, .tc g code)
  | .loop f => (0x01, .loop f)
  | .loopr f => (0x02, .loopr f)
  | .lstri f => (0x03, .lstri f)
  | .lstr f => (0x04, .lstr f)
  | .vadd f => (0x01, .v f)
  | .vsub f => (0x02, .v f)
  | .vmul f => (0x03, .v f)
  | .vfma f => (0x04, .v f)
  | .vfms f => (0x05, .v f)
  | .vfnma f => (0x06, .v f)
  | .vmin f => (0x07, .v f)
  | .vmax f => (0x08, .v f)
  | .vabs f => (0x09, .v f)
  | .vneg f => (0x0A, .v f)
  | .vand f => (0x0B, .v f)
  | .vor f => (0x0C, .v f)
  | .vxor f => (0x0D, .v f)
  | .vandn f => (0x0E, .v f)
  | .vsll f => (0x0F, .v f)
  | .vsrl f => (0x10, .v f)
  | .vsra f => (0x11, .v f)
  | .vadds f => (0x12, .v f)
  | .vsubs f => (0x13, .v f)
  | .vclamp f => (0x14, .v f)
  | .vcmp f => (0x15, .v f)
  | .vsel f => (0x16, .v f)
  | .vperm f => (0x17, .v f)
  | .vshfl f => (0x18, .v f)
  | .vred f => (0x19, .v f)
  | .vscan f => (0x1A, .v f)
  | .vdot f => (0x1B, .v f)
  | .vcvt f => (0x1C, .vx f)
  | .vins f => (0x1D, .vi f)
  | .vext f => (0x1E, .ve f)
  | .vbcst f => (0x1F, .vb f)
  | .vcpx f => (0x20, .vcp f)
  | .p5dot4 f => (0x30, .v f)
  | .p5hmul f => (0x31, .v f)
  | .exp2 f => (0x01, .fs f)
  | .log2 f => (0x02, .fs f)
  | .rcp f => (0x03, .fs f)
  | .rsqrt f => (0x04, .fs f)
  | .sqrt f => (0x05, .fs f)
  | .tanh f => (0x06, .fs f)
  | .sigmoid f => (0x07, .fs f)
  | .erf f => (0x08, .fs f)
  | .sinpi f => (0x09, .fs f)
  | .cospi f => (0x0A, .fs f)
  | .lds f => (0x01, .m f)
  | .sts f => (0x02, .m f)
  | .lda f => (0x03, .m f)
  | .sta f => (0x04, .m f)
  | .ldl f => (0x05, .m f)
  | .stl f => (0x06, .m f)
  | .sld f => (0x07, .sld f)
  | .ldt f => (0x08, .ldt f)
  | .stag f => (0x09, .m f)
  | .amo f => (0x0A, .amo f)
  | .rel f => (0x0B, .rel f)
  | .mcpx f => (0x0C, .mcp f)
  | .maddi f => (0x0D, .madd f)
  | .mli f => (0x0E, .mli f)
  | .send f => (0x01, .xd f)
  | .recv f => (0x02, .xd f)
  | .rld f => (0x03, .xo f)
  | .rst f => (0x04, .xo f)
  | .ramo f => (0x05, .xa f)
  | .flush f => (0x06, .xf f)
  | .ackw f => (0x07, .xw f)
  | _ => (0x00, .notSlot)

def SSlot.toSlot : SSlot → Slot
  | .sa => .sa
  | .sb => .sb

def VSlot.toSlot : VSlot → Slot
  | .va => .va
  | .vb => .vb
  | .vc => .vc

def MSlot.toSlot : MSlot → Slot
  | .ma => .ma
  | .mb => .mb

/-- The number k of a slot (R61). -/
def Slot.rank : Slot → Nat
  | .sa => 0
  | .sb => 1
  | .va => 2
  | .vb => 3
  | .vc => 4
  | .fs => 5
  | .ma => 6
  | .mb => 7
  | .xf => 8
  | .lp => 9

/-- The code of a slot's own file (R61, R67). -/
def Slot.file : Slot → Nat
  | .sa => 0
  | .sb => 1
  | .va => 6
  | .vb => 7
  | .vc => 8
  | .fs => 9
  | .ma => 2
  | .mb => 3
  | .xf => 4
  | .lp => 5

/-- The slot a form belongs to; branches, HALT and TRAP are in SB (R68). -/
def Form.slot : Form → Slot
  | .notSlot => .sa
  | .nop k _ => k
  | .s3 f => SSlot.toSlot f.sl
  | .s2 f => SSlot.toSlot f.sl
  | .sf f => SSlot.toSlot f.sl
  | .si f => SSlot.toSlot f.sl
  | .slc f => SSlot.toSlot f.sl
  | .cp f => SSlot.toSlot f.sl
  | .sw f => SSlot.toSlot f.sl
  | .bj _ => .sb
  | .bi _ => .sb
  | .bare _ => .sb
  | .tc _ _ => .sb
  | .loop _ => .lp
  | .loopr _ => .lp
  | .lstri _ => .lp
  | .lstr _ => .lp
  | .v f => VSlot.toSlot f.sl
  | .vx f => VSlot.toSlot f.sl
  | .vi f => VSlot.toSlot f.sl
  | .ve f => VSlot.toSlot f.sl
  | .vb f => VSlot.toSlot f.sl
  | .vcp f => VSlot.toSlot f.sl
  | .fs _ => .fs
  | .m f => MSlot.toSlot f.sl
  | .sld f => MSlot.toSlot f.sl
  | .ldt f => MSlot.toSlot f.sl
  | .amo f => MSlot.toSlot f.sl
  | .rel f => MSlot.toSlot f.sl
  | .mcp f => MSlot.toSlot f.sl
  | .madd f => MSlot.toSlot f.sl
  | .mli f => MSlot.toSlot f.sl
  | .xd _ => .xf
  | .xo _ => .xf
  | .xa _ => .xf
  | .xf _ => .xf
  | .xw _ => .xf

/-- The guard of a form (R63). -/
def Form.guard : Form → Guard
  | .notSlot => ⟨false, 0, 0⟩
  | .nop _ g => g
  | .s3 f => f.g
  | .s2 f => f.g
  | .sf f => f.g
  | .si f => f.g
  | .slc f => f.g
  | .cp f => f.g
  | .sw f => f.g
  | .bj f => f.g
  | .bi f => f.g
  | .bare g => g
  | .tc g _ => g
  | .loop f => f.g
  | .loopr f => f.g
  | .lstri f => f.g
  | .lstr f => f.g
  | .v f => f.g
  | .vx f => f.g
  | .vi f => f.g
  | .ve f => f.g
  | .vb f => f.g
  | .vcp f => f.g
  | .fs f => f.g
  | .m f => f.g
  | .sld f => f.g
  | .ldt f => f.g
  | .amo f => f.g
  | .rel f => f.g
  | .mcp f => f.g
  | .madd f => f.g
  | .mli f => f.g
  | .xd f => f.g
  | .xo f => f.g
  | .xa f => f.g
  | .xf f => f.g
  | .xw f => f.g

/-- The width of a vector form; none for the others (R62, R131). -/
def Form.width : Form → Option Width
  | .v f => Option.some f.w
  | .vx f => Option.some f.w
  | .vi f => Option.some f.w
  | .ve f => Option.some f.w
  | .vb f => Option.some f.w
  | .vcp f => Option.some f.w
  | _ => Option.none

/-- Bits of a slot width (R62). -/
def Width.bits : Width → Nat
  | .w256 => 256
  | .w512 => 512
  | .w1024 => 1024

/-! ### Element types (R70, R135) -/

/-- TYPE codes 0 to 7. -/
def isIntType (t : Nat) : Bool := t ≤ 7

/-- TYPE codes 8 to 10. -/
def isFloatType (t : Nat) : Bool := 8 ≤ t && t ≤ 10

/-- TYPE codes 0 to 10. -/
def isPlainType (t : Nat) : Bool := t ≤ 10

/-- TYPE codes 16 to 31. -/
def isStreamType (t : Nat) : Bool := 16 ≤ t && t ≤ 31

/-- ESize(T) (R135). -/
def esize (t : Nat) : Nat :=
  match t with
  | 0 => 8
  | 1 => 16
  | 2 => 32
  | 3 => 64
  | 4 => 8
  | 5 => 16
  | 6 => 32
  | 7 => 64
  | 8 => 32
  | 9 => 16
  | 10 => 16
  | _ => 8

/-- The number of elements of a V form. -/
def FV.n (f : FV) : Nat := f.w.bits / esize f.type.toNat

/-- The index of a vector slot's generator and holding registers. -/
def VSlot.index : VSlot → Nat
  | .va => 0
  | .vb => 1
  | .vc => 2

/-- Registers that a CPX or MCPX source accepts in a file (R111): all of 0 to 15, or 0 to 7 in xf and fs. -/
def cpSourceOk (file src : Nat) : Bool := file ≤ 10 && (src ≤ 7 || (file != 4 && file != 9))

/-- A V form's fields: RND 0 unless the form rounds, AUX within the form's list, unused register fields zero (R70,
R137). -/
def vFieldsOk (f : FV) (types : Nat → Bool) (useB useC rounds : Bool) (aux : Nat → Bool) : Bool :=
  let t := f.type.toNat
  types t && aux f.aux.toNat && (useB || f.b == 0) && (useC || f.c == 0) &&
    (if rounds && !isIntType t then f.rnd.toNat ≤ 4 else f.rnd == 0)

/-- No AUX is listed for the form. -/
def noAux (a : Nat) : Bool := a == 0

/-- VSHFL patterns that use b (R149). -/
def shflUsesB (p : Nat) : Bool := 2 ≤ p && p ≤ 5

/-- The rule of VRED and VSCAN (R150): AUX 0 to 5, with AND, OR and XOR on integer types only. -/
def redOk (f : FV) : Bool :=
  vFieldsOk f isPlainType false false true (fun a => a ≤ 5) && (f.aux.toNat ≤ 2 || isIntType f.type.toNat)

/-- The pairs of types that VCVT accepts, with its half and RND rules (R153). -/
def vcvtOk (f : FVX) : Bool :=
  let s := f.stype.toNat
  let d := f.dtype.toNat
  let es := esize s
  let ed := esize d
  let ok (t : Nat) : Bool := isPlainType t || isStreamType t
  ok s && ok d && s != d && !(isStreamType s && isStreamType d) && !(isStreamType s && isIntType d) &&
    !(isIntType s && isStreamType d) && (es == ed || es == 2 * ed || ed == 2 * es) && (es != ed || !f.half) &&
    (if isIntType s && isIntType d then f.rnd == 0 else f.rnd.toNat ≤ 4)

/-- An element index lies below the element count of the slot's width (R70). -/
def idxOk (w : Width) (t idx : Nat) : Bool := idx < w.bits / esize t

/-! ### Data files and sizes of the memory and fabric forms (R73, R74, R261, R269, R363) -/

/-- The file code of R67 for a 3-bit data file. -/
def dfileCode (d : BitVec 3) : Nat :=
  match d.toNat with
  | 0 => 6
  | 1 => 7
  | 2 => 8
  | 3 => 0
  | 4 => 1
  | 5 => 9
  | _ => 15

/-- Bytes(SIZE). -/
def sizeBytes (z : BitVec 3) : Nat :=
  match z.toNat with
  | 0 => 1
  | 1 => 2
  | 2 => 4
  | 3 => 8
  | 4 => 32
  | 5 => 64
  | _ => 128

/-- The data operand of a load: va, vb, vc, sa or sb, no wider than the register. -/
def loadDataOk (dfile size : BitVec 3) : Bool :=
  dfile.toNat ≤ 4 && size.toNat ≤ 6 && (dfile.toNat ≤ 2 || size.toNat ≤ 3)

/-- The data operand of a store: any data file, an fs number of at most 7, no wider than the register. -/
def storeDataOk (dreg : BitVec 4) (dfile size : BitVec 3) : Bool :=
  dfile.toNat ≤ 5 && size.toNat ≤ 6 && (dfile.toNat ≤ 2 || dfile.toNat == 5 || size.toNat ≤ 3) &&
    (dfile.toNat != 5 || dreg.toNat ≤ 7)

/-- The data operand of LDA and STA. -/
def accDataOk (dfile size : BitVec 3) : Bool := dfile.toNat ≤ 2 && 2 ≤ size.toNat && size.toNat ≤ 6

/-- The operation and compare field of an atomic (R73, R267). -/
def amoOpOk (op cmp : BitVec 4) : Bool := op.toNat ≤ 7 && (op.toNat == 7 || cmp == 0)

/-- A scalar data file. -/
def scalarFile (dfile : BitVec 3) : Bool := dfile.toNat == 3 || dfile.toNat == 4

/-- SIZE 3 to 6, and 3 alone with a scalar data file (R363). -/
def xfSizeOk (dfile size : BitVec 3) : Bool :=
  3 ≤ size.toNat && size.toNat ≤ 6 && (!scalarFile dfile || size.toNat == 3)

/-- The rules of a slot operation beyond its fields' widths. A word of the form that breaks one is an illegal
instruction (R75). -/
def slotLegal (i : Instr) : Bool :=
  match i with
  | .bext f => f.pos.toNat + f.len1.toNat + 1 ≤ 64
  | .bins f => f.pos.toNat + f.len1.toNat + 1 ≤ 64
  | .slli f => f.imm.toNat < 64
  | .srli f => f.imm.toNat < 64
  | .srai f => f.imm.toNat < 64
  | .lit f => f.imm.toNat < 2 ^ 16
  | .cpx f => cpSourceOk f.file.toNat f.src.toNat
  | .br f => f.variant.toNat ≤ 2
  | .call f => f.variant.toNat ≤ 2
  | .bri f => f.variant.toNat ≤ 2
  | .calli f => f.variant.toNat ≤ 2
  | .vadd f => vFieldsOk f isPlainType true false true noAux
  | .vsub f => vFieldsOk f isPlainType true false true noAux
  | .vmul f => vFieldsOk f isPlainType true false true noAux
  | .vfma f => vFieldsOk f isFloatType true true true noAux
  | .vfms f => vFieldsOk f isFloatType true true true noAux
  | .vfnma f => vFieldsOk f isFloatType true true true noAux
  | .vmin f => vFieldsOk f isPlainType true false false noAux
  | .vmax f => vFieldsOk f isPlainType true false false noAux
  | .vclamp f => vFieldsOk f isPlainType true true false noAux
  | .vabs f => vFieldsOk f isPlainType false false false noAux
  | .vneg f => vFieldsOk f isPlainType false false false noAux
  | .vand f => vFieldsOk f isPlainType true false false noAux
  | .vor f => vFieldsOk f isPlainType true false false noAux
  | .vxor f => vFieldsOk f isPlainType true false false noAux
  | .vandn f => vFieldsOk f isPlainType true false false noAux
  | .vsll f => vFieldsOk f isIntType true false false noAux
  | .vsrl f => vFieldsOk f isIntType true false false noAux
  | .vsra f => vFieldsOk f isIntType true false false noAux
  | .vadds f => vFieldsOk f isIntType true false false noAux
  | .vsubs f => vFieldsOk f isIntType true false false noAux
  | .vcmp f => vFieldsOk f isPlainType true false false (fun a => a ≤ 6) && (f.aux.toNat != 6 || isFloatType f.type.toNat)
  | .vsel f => vFieldsOk f isPlainType true true false noAux
  | .vperm f => vFieldsOk f isPlainType true false false noAux
  | .vshfl f => vFieldsOk f isPlainType (shflUsesB f.aux.toNat) false false (fun a => a ≤ 8)
  | .vred f => redOk f
  | .vscan f => redOk f
  | .vdot f => vFieldsOk f isStreamType true true true noAux
  | .vcvt f => vcvtOk f
  | .vins f => isPlainType f.type.toNat && idxOk f.w f.type.toNat f.idx.toNat
  | .vext f => isPlainType f.type.toNat && idxOk f.w f.type.toNat f.idx.toNat
  | .vbcst f => isPlainType f.type.toNat
  | .vcpx f => 6 ≤ f.file.toNat && f.file.toNat ≤ 9 && (f.file.toNat != 9 || f.src.toNat ≤ 7)
  | .p5dot4 f => vFieldsOk f (fun t => t == 2) true true false noAux
  | .p5hmul f => vFieldsOk f (fun t => t == 10) true false false noAux
  | .exp2 f => f.file.toNat != 3 || f.src.toNat ≤ 7
  | .log2 f => f.file.toNat != 3 || f.src.toNat ≤ 7
  | .rcp f => f.file.toNat != 3 || f.src.toNat ≤ 7
  | .rsqrt f => f.file.toNat != 3 || f.src.toNat ≤ 7
  | .sqrt f => f.file.toNat != 3 || f.src.toNat ≤ 7
  | .tanh f => f.file.toNat != 3 || f.src.toNat ≤ 7
  | .sigmoid f => f.file.toNat != 3 || f.src.toNat ≤ 7
  | .erf f => f.file.toNat != 3 || f.src.toNat ≤ 7
  | .sinpi f => f.file.toNat != 3 || f.src.toNat ≤ 7
  | .cospi f => f.file.toNat != 3 || f.src.toNat ≤ 7
  | .lds f => loadDataOk f.dfile f.size
  | .sts f => storeDataOk f.dreg f.dfile f.size
  | .lda f => accDataOk f.dfile f.size
  | .sta f => accDataOk f.dfile f.size
  | .ldl f => loadDataOk f.dfile f.size
  | .stl f => storeDataOk f.dreg f.dfile f.size
  | .sld f => loadDataOk f.dfile f.size
  | .ldt f => loadDataOk f.dfile f.size
  | .stag f => scalarFile f.dfile && f.size == 1
  | .amo f => scalarFile f.dfile && (f.size == 2 || f.size == 3) && amoOpOk f.op f.cmp
  | .rel f => f.scope.toNat ≤ 5
  | .mcpx f => cpSourceOk f.file.toNat f.src.toNat
  | .send f => storeDataOk f.dreg f.dfile f.size && xfSizeOk f.dfile f.size
  | .recv f => loadDataOk f.dfile f.size && xfSizeOk f.dfile f.size
  | .rld f => loadDataOk f.dfile f.size && xfSizeOk f.dfile f.size && !f.fl
  | .rst f => storeDataOk f.dreg f.dfile f.size && xfSizeOk f.dfile f.size
  | .ramo f => scalarFile f.dfile && amoOpOk f.op f.cmp
  | .ackw f => f.n != 0
  | _ => true

/-- The rules of R79 on engine and scope codes, and on the range-register number. -/
def ccLegal (i : Instr) : Bool :=
  match i with
  | .calWaitEng e _ => 1 ≤ e.toNat && e.toNat ≤ 6
  | .calPrgrd e _ _ => 2 ≤ e.toNat && e.toNat ≤ 6
  | .calPrgwr e _ _ => 2 ≤ e.toNat && e.toNat ≤ 6
  | .calRngwr n _ _ => n.toNat ≤ 15
  | .calRel sc => sc.toNat ≤ 5
  | .calAcq sc => sc.toNat ≤ 5
  | _ => true

end Sys2Proof
end

