-- ==== Sys2Proof/WellFormed.lean ====
section
/-! DEFINITION. Well-formed instructions: a slot operation keeps the rules of its form, a control-core instruction
those of R79, and an event names units that the module has (R9, R10). -/

namespace Sys2Proof

/-- The units of R9 and R14, by count. -/
def linkOk (n : Nat) : Bool := n < 32
def feOk (n : Nat) : Bool := n < 16
def dieOk (n : Nat) : Bool := n < 8
def partOk (n : Nat) : Bool := n < 4
def coreOk (n : Nat) : Bool := n < 4096
def queueOk (n : Nat) : Bool := n < 131072
def streamNoOk (n : Nat) : Bool := n < 8

/-- A sequencer that exists (R20). -/
def Seqr.ok (q : Seqr) : Bool :=
  match q.eng with
  | .cx => q.unit < 8 && q.idx < 16
  | .weir => q.unit < 8 && q.idx < 8
  | _ => q.idx == 0

/-- A function with a ready bit that exists (R395). -/
def Func.ok : Func → Bool
  | .link n => linkOk n
  | .fe n => feOk n
  | .die n => dieOk n
  | .stack n => dieOk n
  | .hwa => true
  | .hwb => true
  | .eth => true

/-- The units that an event names exist (R9, R10). -/
def unitsOk (i : Instr) : Bool :=
  match i with
  | .functionReady f => f.ok
  | .readyBitFall f => f.ok
  | .linkLatencyLoss n => linkOk n
  | .dataDoorbell q _ _ => queueOk q
  | .controlDoorbell q _ _ => queueOk q
  | .queueMapping p => partOk p
  | .dispatch n => feOk n
  | .ageingQuantum p => partOk p
  | .launch n => feOk n
  | .copy n => feOk n
  | .barrier n => feOk n
  | .signal n => feOk n
  | .fence n => feOk n
  | .faultQueueConsume p _ => partOk p
  | .lateReply c _ _ => coreOk c
  | .homeSliceCycle d sl => dieOk d && sl < 48
  | .shootDown st p _ _ => dieOk st && partOk p
  | .patrolScrub st n => dieOk st && n < 2 ^ 30
  | .macroStart q => q.ok
  | .chunkCommit q => q.ok
  | .cxSendStep q => q.ok
  | .cxReceiveStep q => q.ok
  | .entryComplete q => q.ok
  | .macroStop q => q.ok
  | .entryReissue q => q.ok
  | .entryFlush q => q.ok
  | .auditRecomputation d => dieOk d
  | .flitArrival f => coreOk f.dstCore
  | .switchForward io xs => io < 2 && xs.all fun x => x.link / 16 == io && x.port ≤ 16
  | .ackArrival c x _ => coreOk c && streamNoOk x
  | .replyArrival c _ _ _ => coreOk c
  | .frequencyRequest n _ => n < 256
  | _ => true

/-- A well-formed instruction. -/
def WellFormed (i : Instr) : Bool := slotLegal i && ccLegal i && unitsOk i

end Sys2Proof
end

