-- ==== Sys2Proof/Decode.lean ====
section
/-! DEFINITION. Decoding of slot words (R61 to R75), of control-core instructions (R76 to R79, and RV64IMAC with Zicsr
and Zifencei, R181), and the encoder of slot words and of the extension. -/

namespace Sys2Proof

/-- Why a word is no instruction: every case is an illegal instruction (R75, R79, R181). -/
inductive Reject
  /-- an opcode, or a combination of opcode fields, that no table assigns, or a field marked zero that is not -/
  | unassigned
  /-- a field value that the form reserves or refuses -/
  | reservedValue
deriving DecidableEq, Repr

/-! ### Fields of a slot word (R63) -/

/-- Bits `[lo + len − 1 : lo]`. -/
def fld (w : BitVec 48) (lo len : Nat) : BitVec len := w.extractLsb' lo len

def opcOf (w : BitVec 48) : BitVec 8 := fld w 28 8

def guardOf (w : BitVec 48) : Guard := ⟨w.getLsbD 47, fld w 42 5, fld w 36 6⟩

/-- A value, where a test holds. -/
def keepIf {α : Type} (p : Bool) (x : α) : Option α := if p then some x else none

def pS3 (sl : SSlot) (w : BitVec 48) : Option FS3 :=
  keepIf (fld w 0 16 == 0) { sl, g := guardOf w, d := fld w 24 4, a := fld w 20 4, b := fld w 16 4 }

def pS2 (sl : SSlot) (w : BitVec 48) : Option FS2 :=
  keepIf (fld w 0 20 == 0) { sl, g := guardOf w, d := fld w 24 4, a := fld w 20 4 }

def pSF (sl : SSlot) (w : BitVec 48) : Option FSF :=
  keepIf (fld w 0 8 == 0) { sl, g := guardOf w, d := fld w 24 4, a := fld w 20 4, pos := fld w 14 6, len1 := fld w 8 6 }

def pSI (sl : SSlot) (w : BitVec 48) : Option FSI :=
  some { sl, g := guardOf w, d := fld w 24 4, a := fld w 20 4, imm := fld w 0 20 }

def pSL (sl : SSlot) (w : BitVec 48) : Option FSL := some { sl, g := guardOf w, d := fld w 24 4, imm := fld w 0 24 }

def pCP (sl : SSlot) (w : BitVec 48) : Option FCP :=
  keepIf (fld w 0 16 == 0) { sl, g := guardOf w, d := fld w 24 4, src := fld w 20 4, file := fld w 16 4 }

def pSW (sl : SSlot) (w : BitVec 48) : Option FSW :=
  keepIf (fld w 0 20 == 0) { sl, g := guardOf w, n := fld w 24 4, a := fld w 20 4 }

def pBJ (w : BitVec 48) : Option FBJ := some { g := guardOf w, variant := fld w 26 2, off := fld w 0 26 }

def pBI (w : BitVec 48) : Option FBI :=
  keepIf (fld w 0 20 == 0 && fld w 24 2 == 0) { g := guardOf w, variant := fld w 26 2, a := fld w 20 4 }

def pBare (w : BitVec 48) : Option Guard := keepIf (fld w 0 28 == 0) (guardOf w)

def pTC (w : BitVec 48) : Option (Guard × BitVec 16) := keepIf (fld w 16 12 == 0) (guardOf w, fld w 0 16)

def pLoop (w : BitVec 48) : Option FLoop :=
  some { g := guardOf w, level := fld w 26 2, len1 := fld w 16 10, count := fld w 0 16 }

def pLoopR (w : BitVec 48) : Option FLoopR :=
  keepIf (fld w 0 12 == 0) { g := guardOf w, level := fld w 26 2, len1 := fld w 16 10, sb := fld w 12 4 }

def pLstrI (w : BitVec 48) : Option FLstrI :=
  some { g := guardOf w, level := fld w 26 2, sel := fld w 21 5, stride := fld w 0 21 }

def pLstr (w : BitVec 48) : Option FLstr :=
  keepIf (fld w 0 16 == 0 && fld w 20 1 == 0) { g := guardOf w, level := fld w 26 2, sel := fld w 21 5, sb := fld w 16 4 }

def pV (sl : VSlot) (wd : Width) (w : BitVec 48) : Option FV :=
  some { sl, w := wd, g := guardOf w, d := fld w 24 4, a := fld w 20 4, b := fld w 16 4, c := fld w 12 4
         type := fld w 7 5, rnd := fld w 4 3, aux := fld w 0 4 }

def pVX (sl : VSlot) (wd : Width) (w : BitVec 48) : Option FVX :=
  keepIf (fld w 12 3 == 0 && fld w 1 3 == 0)
    { sl, w := wd, g := guardOf w, d := fld w 24 4, a := fld w 20 4, stype := fld w 15 5, dtype := fld w 7 5
      rnd := fld w 4 3, half := w.getLsbD 0 }

def pVI (sl : VSlot) (wd : Width) (w : BitVec 48) : Option FVI :=
  keepIf (fld w 0 7 == 0)
    { sl, w := wd, g := guardOf w, d := fld w 24 4, idx := fld w 17 7, s := fld w 13 4, isSb := w.getLsbD 12
      type := fld w 7 5 }

def pVE (sl : VSlot) (wd : Width) (w : BitVec 48) : Option FVE :=
  keepIf (fld w 0 7 == 0 && fld w 12 1 == 0)
    { sl, w := wd, g := guardOf w, d := fld w 24 4, a := fld w 20 4, idx := fld w 13 7, type := fld w 7 5 }

def pVB (sl : VSlot) (wd : Width) (w : BitVec 48) : Option FVB :=
  keepIf (fld w 0 7 == 0 && fld w 13 3 == 0 && fld w 20 4 == 0)
    { sl, w := wd, g := guardOf w, d := fld w 24 4, s := fld w 16 4, isSb := w.getLsbD 12, type := fld w 7 5 }

def pVCP (sl : VSlot) (wd : Width) (w : BitVec 48) : Option FVCP :=
  keepIf (fld w 0 16 == 0) { sl, w := wd, g := guardOf w, d := fld w 24 4, src := fld w 20 4, file := fld w 16 4 }

def pFS (w : BitVec 48) : Option FFS :=
  keepIf (fld w 0 19 == 0) { g := guardOf w, d := fld w 25 3, src := fld w 21 4, file := fld w 19 2 }

def pM (sl : MSlot) (w : BitVec 48) : Option FM :=
  some { sl, g := guardOf w, dreg := fld w 24 4, dfile := fld w 21 3, areg := fld w 17 4, size := fld w 14 3
         ofs := fld w 0 14 }

def pSld (sl : MSlot) (w : BitVec 48) : Option FSld :=
  keepIf (fld w 0 10 == 0)
    { sl, g := guardOf w, dreg := fld w 24 4, dfile := fld w 21 3, areg := fld w 17 4, size := fld w 14 3
      st := fld w 10 4 }

def pLdt (sl : MSlot) (w : BitVec 48) : Option FLdt :=
  some { sl, g := guardOf w, dreg := fld w 24 4, dfile := fld w 21 3, areg := fld w 17 4, size := fld w 14 3
         t := fld w 10 4, ofs := fld w 0 10 }

def pAmo (sl : MSlot) (w : BitVec 48) : Option FAmo :=
  some { sl, g := guardOf w, dreg := fld w 24 4, dfile := fld w 21 3, areg := fld w 17 4, size := fld w 14 3
         op := fld w 10 4, cmp := fld w 6 4, ofs := fld w 0 6 }

def pRel (sl : MSlot) (w : BitVec 48) : Option FRel := keepIf (fld w 4 24 == 0) { sl, g := guardOf w, scope := fld w 0 4 }

def pMCP (sl : MSlot) (w : BitVec 48) : Option FMCP :=
  keepIf (fld w 0 16 == 0) { sl, g := guardOf w, d := fld w 24 4, src := fld w 20 4, file := fld w 16 4 }

def pMadd (sl : MSlot) (w : BitVec 48) : Option FMadd :=
  some { sl, g := guardOf w, d := fld w 24 4, a := fld w 20 4, imm := fld w 0 20 }

def pMli (sl : MSlot) (w : BitVec 48) : Option FMli := some { sl, g := guardOf w, d := fld w 24 4, imm := fld w 0 24 }

def pXD (w : BitVec 48) : Option FXD :=
  keepIf (fld w 0 15 == 0)
    { g := guardOf w, dreg := fld w 24 4, dfile := fld w 21 3, x := fld w 18 3, size := fld w 15 3 }

def pXO (w : BitVec 48) : Option FXO :=
  some { g := guardOf w, dreg := fld w 24 4, dfile := fld w 21 3, x := fld w 18 3, size := fld w 15 3
         fl := w.getLsbD 14, ofs := fld w 0 14 }

def pXA (w : BitVec 48) : Option FXA :=
  keepIf (fld w 15 3 == 3 && fld w 14 1 == 0)
    { g := guardOf w, dreg := fld w 24 4, dfile := fld w 21 3, x := fld w 18 3, op := fld w 10 4, cmp := fld w 6 4
      ofs := fld w 0 6 }

def pXF (w : BitVec 48) : Option FXF := keepIf (fld w 0 18 == 0 && fld w 21 7 == 0) { g := guardOf w, x := fld w 18 3 }

def pXW (w : BitVec 48) : Option FXW :=
  keepIf (fld w 10 8 == 0 && fld w 21 7 == 0) { g := guardOf w, x := fld w 18 3, n := fld w 0 10 }

/-! ### The opcode tables (R68 to R75) -/

/-- Scalar forms that either scalar slot accepts (R68). -/
def decodeScalar (sl : SSlot) (w : BitVec 48) : Option Instr :=
  match (opcOf w).toNat with
  | 0x01 => (pS3 sl w).map .add
  | 0x02 => (pS3 sl w).map .sub
  | 0x03 => (pS3 sl w).map .and
  | 0x04 => (pS3 sl w).map .or
  | 0x05 => (pS3 sl w).map .xor
  | 0x06 => (pS3 sl w).map .sll
  | 0x07 => (pS3 sl w).map .srl
  | 0x08 => (pS3 sl w).map .sra
  | 0x09 => (pS3 sl w).map .slt
  | 0x0A => (pS3 sl w).map .sltu
  | 0x0B => (pS3 sl w).map .min
  | 0x0C => (pS3 sl w).map .max
  | 0x0D => (pS3 sl w).map .minu
  | 0x0E => (pS3 sl w).map .maxu
  | 0x0F => (pS3 sl w).map .mul
  | 0x10 => (pS3 sl w).map .mulh
  | 0x11 => (pS3 sl w).map .mulhu
  | 0x12 => (pS3 sl w).map .div
  | 0x13 => (pS3 sl w).map .divu
  | 0x14 => (pS3 sl w).map .rem
  | 0x15 => (pS3 sl w).map .remu
  | 0x16 => (pS2 sl w).map .clz
  | 0x17 => (pS2 sl w).map .ctz
  | 0x18 => (pS2 sl w).map .popc
  | 0x19 => (pSF sl w).map .bext
  | 0x1A => (pSF sl w).map .bins
  | 0x20 => (pSI sl w).map .addi
  | 0x21 => (pSI sl w).map .andi
  | 0x22 => (pSI sl w).map .ori
  | 0x23 => (pSI sl w).map .xori
  | 0x24 => (pSI sl w).map .slli
  | 0x25 => (pSI sl w).map .srli
  | 0x26 => (pSI sl w).map .srai
  | 0x27 => (pSI sl w).map .slti
  | 0x28 => (pSL sl w).map .lil
  | 0x29 => (pSL sl w).map .lih
  | 0x2A => (pSL sl w).map .lit
  | 0x30 => (pCP sl w).map .cpx
  | 0x31 => (pSW sl w).map .stwr
  | _ => none

/-- The control-flow forms of slot SB (R68). -/
def decodeBranch (w : BitVec 48) : Option Instr :=
  match (opcOf w).toNat with
  | 0x38 => (pBJ w).map .br
  | 0x39 => (pBJ w).map .call
  | 0x3A => (pBI w).map .bri
  | 0x3B => (pBI w).map .calli
  | 0x3C => (pBare w).map .ret
  | 0x3E => (pBare w).map .halt
  | 0x3F => (pTC w).map fun p => .trap p.1 p.2
  | _ => none

/-- Slot LP (R69). -/
def decodeLoop (w : BitVec 48) : Option Instr :=
  match (opcOf w).toNat with
  | 0x01 => (pLoop w).map .loop
  | 0x02 => (pLoopR w).map .loopr
  | 0x03 => (pLstrI w).map .lstri
  | 0x04 => (pLstr w).map .lstr
  | _ => none

/-- Slots VA, VB and VC (R70, R72). -/
def decodeVector (sl : VSlot) (wd : Width) (w : BitVec 48) : Option Instr :=
  match (opcOf w).toNat with
  | 0x01 => (pV sl wd w).map .vadd
  | 0x02 => (pV sl wd w).map .vsub
  | 0x03 => (pV sl wd w).map .vmul
  | 0x04 => (pV sl wd w).map .vfma
  | 0x05 => (pV sl wd w).map .vfms
  | 0x06 => (pV sl wd w).map .vfnma
  | 0x07 => (pV sl wd w).map .vmin
  | 0x08 => (pV sl wd w).map .vmax
  | 0x09 => (pV sl wd w).map .vabs
  | 0x0A => (pV sl wd w).map .vneg
  | 0x0B => (pV sl wd w).map .vand
  | 0x0C => (pV sl wd w).map .vor
  | 0x0D => (pV sl wd w).map .vxor
  | 0x0E => (pV sl wd w).map .vandn
  | 0x0F => (pV sl wd w).map .vsll
  | 0x10 => (pV sl wd w).map .vsrl
  | 0x11 => (pV sl wd w).map .vsra
  | 0x12 => (pV sl wd w).map .vadds
  | 0x13 => (pV sl wd w).map .vsubs
  | 0x14 => (pV sl wd w).map .vclamp
  | 0x15 => (pV sl wd w).map .vcmp
  | 0x16 => (pV sl wd w).map .vsel
  | 0x17 => (pV sl wd w).map .vperm
  | 0x18 => (pV sl wd w).map .vshfl
  | 0x19 => (pV sl wd w).map .vred
  | 0x1A => (pV sl wd w).map .vscan
  | 0x1B => (pV sl wd w).map .vdot
  | 0x1C => (pVX sl wd w).map .vcvt
  | 0x1D => (pVI sl wd w).map .vins
  | 0x1E => (pVE sl wd w).map .vext
  | 0x1F => (pVB sl wd w).map .vbcst
  | 0x20 => (pVCP sl wd w).map .vcpx
  | 0x30 => (pV sl wd w).map .p5dot4
  | 0x31 => (pV sl wd w).map .p5hmul
  | _ => none

/-- Slot FS (R71). -/
def decodeFs (w : BitVec 48) : Option Instr :=
  match (opcOf w).toNat with
  | 0x01 => (pFS w).map .exp2
  | 0x02 => (pFS w).map .log2
  | 0x03 => (pFS w).map .rcp
  | 0x04 => (pFS w).map .rsqrt
  | 0x05 => (pFS w).map .sqrt
  | 0x06 => (pFS w).map .tanh
  | 0x07 => (pFS w).map .sigmoid
  | 0x08 => (pFS w).map .erf
  | 0x09 => (pFS w).map .sinpi
  | 0x0A => (pFS w).map .cospi
  | _ => none

/-- Slots MA and MB (R73). -/
def decodeMemory (sl : MSlot) (w : BitVec 48) : Option Instr :=
  match (opcOf w).toNat with
  | 0x01 => (pM sl w).map .lds
  | 0x02 => (pM sl w).map .sts
  | 0x03 => (pM sl w).map .lda
  | 0x04 => (pM sl w).map .sta
  | 0x05 => (pM sl w).map .ldl
  | 0x06 => (pM sl w).map .stl
  | 0x07 => (pSld sl w).map .sld
  | 0x08 => (pLdt sl w).map .ldt
  | 0x09 => (pM sl w).map .stag
  | 0x0A => (pAmo sl w).map .amo
  | 0x0B => (pRel sl w).map .rel
  | 0x0C => (pMCP sl w).map .mcpx
  | 0x0D => (pMadd sl w).map .maddi
  | 0x0E => (pMli sl w).map .mli
  | _ => none

/-- Slot XF (R74). -/
def decodeFabric (w : BitVec 48) : Option Instr :=
  match (opcOf w).toNat with
  | 0x01 => (pXD w).map .send
  | 0x02 => (pXD w).map .recv
  | 0x03 => (pXO w).map .rld
  | 0x04 => (pXO w).map .rst
  | 0x05 => (pXA w).map .ramo
  | 0x06 => (pXF w).map .flush
  | 0x07 => (pXW w).map .ackw
  | _ => none

/-- A width for a vector slot; a slot that is off has none (R62). -/
def widthOf (code : Nat) : Option Width :=
  match code with
  | 1 => some .w256
  | 2 => some .w512
  | 3 => some .w1024
  | _ => none

/-- The operation of a slot word by its class, before the form's own rules. A word with OPC 0 and zero bits [27:0] is
NOP (R63). -/
def parseSlot (sl : Slot) (wd : Width) (w : BitVec 48) : Option Instr :=
  if opcOf w = 0 then keepIf (fld w 0 28 == 0) (.nop sl (guardOf w))
  else
    match sl with
    | .sa => decodeScalar .sa w
    | .sb => (decodeScalar .sb w).orElse fun _ => decodeBranch w
    | .va => decodeVector .va wd w
    | .vb => decodeVector .vb wd w
    | .vc => decodeVector .vc wd w
    | .fs => decodeFs w
    | .ma => decodeMemory .ma w
    | .mb => decodeMemory .mb w
    | .xf => decodeFabric w
    | .lp => decodeLoop w

/-- Decode the word of slot `sl`; `wd` is the slot's width where it is a vector slot. -/
def decodeSlot (sl : Slot) (wd : Width) (w : BitVec 48) : Except Reject Instr :=
  match parseSlot sl wd w with
  | none => .error .unassigned
  | some i => if slotLegal i then .ok i else .error .reservedValue

/-! ### The control core: RV64IMAC, Zicsr, Zifencei (R181) -/

/-- Bits `[lo + len − 1 : lo]` of a 32-bit word. -/
def fld32 (w : BitVec 32) (lo len : Nat) : BitVec len := w.extractLsb' lo len

/-- Bits of a word as a number. -/
def num32 (w : BitVec 32) (lo len : Nat) : Nat := (fld32 w lo len).toNat

/-- A number of `n` bits sign-extended to a register's width. -/
def sx (v n : Nat) : Word := (BitVec.ofNat n v).signExtend 64

/-- The immediates of the base formats. -/
def immI (w : BitVec 32) : Word := (fld32 w 20 12).signExtend 64
def immS (w : BitVec 32) : Word := (fld32 w 25 7 ++ fld32 w 7 5).signExtend 64
def immB (w : BitVec 32) : Word := (fld32 w 31 1 ++ fld32 w 7 1 ++ fld32 w 25 6 ++ fld32 w 8 4 ++ (0 : BitVec 1)).signExtend 64
def immU (w : BitVec 32) : Word := (fld32 w 12 20 ++ (0 : BitVec 12)).signExtend 64
def immJ (w : BitVec 32) : Word :=
  (fld32 w 31 1 ++ fld32 w 12 8 ++ fld32 w 20 1 ++ fld32 w 21 10 ++ (0 : BitVec 1)).signExtend 64

/-- The condition of a branch's funct3. -/
def brCond (f3 : Nat) : Option BrCond :=
  match f3 with
  | 0 => some .eq
  | 1 => some .ne
  | 4 => some .lt
  | 5 => some .ge
  | 6 => some .ltu
  | 7 => some .geu
  | _ => none

/-- The register-register operations of OP and OP-32, by funct7 and funct3. -/
def aluOp (f7 f3 : Nat) : Option AluOp :=
  match f7, f3 with
  | 0x00, 0 => some .add
  | 0x20, 0 => some .sub
  | 0x00, 1 => some .sll
  | 0x00, 2 => some .slt
  | 0x00, 3 => some .sltu
  | 0x00, 4 => some .xor
  | 0x00, 5 => some .srl
  | 0x20, 5 => some .sra
  | 0x00, 6 => some .or
  | 0x00, 7 => some .and
  | 0x01, 0 => some .mul
  | 0x01, 1 => some .mulh
  | 0x01, 2 => some .mulhsu
  | 0x01, 3 => some .mulhu
  | 0x01, 4 => some .div
  | 0x01, 5 => some .divu
  | 0x01, 6 => some .rem
  | 0x01, 7 => some .remu
  | _, _ => none

/-- Whether an operation has a 32-bit form. -/
def aluHasW (op : AluOp) : Bool :=
  match op with
  | .add => true
  | .sub => true
  | .sll => true
  | .srl => true
  | .sra => true
  | .mul => true
  | .div => true
  | .divu => true
  | .rem => true
  | .remu => true
  | _ => false

/-- The atomic operations of RV64A, by funct5. -/
def rvAmo (f5 : Nat) : Option RvAmo :=
  match f5 with
  | 0x01 => some .swap
  | 0x00 => some .add
  | 0x04 => some .xor
  | 0x0C => some .and
  | 0x08 => some .or
  | 0x10 => some .min
  | 0x14 => some .max
  | 0x18 => some .minu
  | 0x1C => some .maxu
  | _ => none

/-- A control-core instruction without a row of its own, from a 32-bit or 16-bit encoding. -/
def rv (c : Bool) (op : RvOp) : Instr := .controlCoreInstruction ⟨op, c⟩

/-- A load or store with its encoding's length. -/
def rvMem (c : Bool) (op : RvMem) : Instr := .ccLoadStore ⟨op, c⟩

/-- OP-IMM and OP-IMM-32. -/
def decodeOpImm (w : BitVec 32) (is32 : Bool) : Option Instr :=
  let rd := fld32 w 7 5
  let rs1 := fld32 w 15 5
  let sh (bits : Nat) : Word := BitVec.ofNat 64 (num32 w 20 bits)
  let alui (op : AluOp) (imm : Word) : Instr := rv false (.alui op is32 rd rs1 imm)
  match num32 w 12 3, is32 with
  | 0, _ => some (alui .add (immI w))
  | 1, false => keepIf (num32 w 26 6 == 0) (alui .sll (sh 6))
  | 5, false =>
    if num32 w 26 6 = 0 then some (alui .srl (sh 6)) else keepIf (num32 w 26 6 == 0x10) (alui .sra (sh 6))
  | 2, false => some (alui .slt (immI w))
  | 3, false => some (alui .sltu (immI w))
  | 4, false => some (alui .xor (immI w))
  | 6, false => some (alui .or (immI w))
  | 7, false => some (alui .and (immI w))
  | 1, true => keepIf (num32 w 25 7 == 0) (alui .sll (sh 5))
  | 5, true =>
    if num32 w 25 7 = 0 then some (alui .srl (sh 5)) else keepIf (num32 w 25 7 == 0x20) (alui .sra (sh 5))
  | _, _ => none

/-- LR, SC and the AMOs. -/
def decodeAmo (w : BitVec 32) : Option Instr :=
  let rd := fld32 w 7 5
  let rs1 := fld32 w 15 5
  let rs2 := fld32 w 20 5
  let f3 := num32 w 12 3
  if f3 = 2 ∨ f3 = 3 then
    let sz : BitVec 2 := BitVec.ofNat 2 f3
    match num32 w 27 5 with
    | 0x02 => keepIf (rs2 == 0) (.lr rd rs1 sz)
    | 0x03 => some (.sc rd rs1 rs2 sz)
    | f5 => (rvAmo f5).map fun op => rvMem false (.amo op rd rs1 rs2 sz)
  else none

/-- SYSTEM: ECALL, EBREAK, MRET, WFI and the CSR instructions. -/
def decodeSystem (w : BitVec 32) : Option Instr :=
  let rd := fld32 w 7 5
  let rs1 := fld32 w 15 5
  let n := fld32 w 20 12
  match num32 w 12 3 with
  | 0 =>
    match w.toNat with
    | 0x00000073 => some .ecall
    | 0x00100073 => some (rv false .ebreak)
    | 0x30200073 => some .mret
    | 0x10500073 => some .wfi
    | _ => none
  | 1 => some (rv false (.csr .rw false rd rs1 n))
  | 2 => some (rv false (.csr .rs false rd rs1 n))
  | 3 => some (rv false (.csr .rc false rd rs1 n))
  | 5 => some (rv false (.csr .rw true rd rs1 n))
  | 6 => some (rv false (.csr .rs true rd rs1 n))
  | 7 => some (rv false (.csr .rc true rd rs1 n))
  | _ => none

/-- The macro-instruction of a funct7 (R76). -/
def macroOf (f7 : Nat) (o : FR3) : Option Instr :=
  match f7 with
  | 0x01 => some (.mmat o)
  | 0x02 => some (.mconv o)
  | 0x03 => some (.mattn o)
  | 0x08 => some (.msort o)
  | 0x09 => some (.mgath o)
  | 0x0A => some (.mscat o)
  | 0x10 => some (.mcopy o)
  | 0x11 => some (.mfill o)
  | 0x12 => some (.movly o)
  | 0x18 => some (.msel o)
  | 0x19 => some (.mtopk o)
  | 0x20 => some (.mcoll o)
  | _ => none

/-- The extension in custom-0 to custom-3 (R76, R78, R79). The two forms of bundle-engine start share one encoding;
rs1's value tells them apart when the instruction runs (R190). -/
def decodeExt (w : BitVec 32) : Option Instr :=
  let rd := fld32 w 7 5
  let rs1 := fld32 w 15 5
  let rs2 := fld32 w 20 5
  let f7 := fld32 w 25 7
  match num32 w 0 7, num32 w 12 3 with
  | 0x0B, 0 => macroOf f7.toNat ⟨rd, rs1, rs2⟩
  | 0x0B, 1 => keepIf (f7 == 0 && rd == 0) (.calBestart rs1 rs2)
  | 0x2B, 0 => keepIf (rd == 0 && rs2 == 0) (.calWaitEng f7 rs1)
  | 0x2B, 1 => keepIf (f7 == 0 && rd == 0) (.calWaitRng rs1 rs2)
  | 0x2B, 2 => keepIf (f7 == 0 && rd == 0 && rs2 == 0) (.calWaitSc rs1)
  | 0x2B, 4 => keepIf (rs2 == 0) (.calPrgrd f7 rd rs1)
  | 0x2B, 5 => keepIf (rd == 0) (.calPrgwr f7 rs1 rs2)
  | 0x5B, 0 => keepIf (rd == 0) (.calRngwr f7 rs1 rs2)
  | 0x5B, 1 => keepIf (rd == 0 && rs1 == 0 && rs2 == 0) (.calRel f7)
  | 0x5B, 2 => keepIf (rd == 0 && rs1 == 0 && rs2 == 0) (.calAcq f7)
  | 0x5B, 3 => keepIf (f7 == 0) (.calOvly ⟨rd, rs1, rs2⟩)
  | 0x7B, 0 => keepIf (f7 == 0 && rd == 0) (.calDrift rs1 rs2)
  | _, _ => none

/-- A 32-bit control-core word. -/
def parseCC32 (w : BitVec 32) : Option Instr :=
  let rd := fld32 w 7 5
  let rs1 := fld32 w 15 5
  let rs2 := fld32 w 20 5
  let f3 := num32 w 12 3
  match num32 w 0 7 with
  | 0x37 => some (rv false (.lui rd (immU w)))
  | 0x17 => some (rv false (.auipc rd (immU w)))
  | 0x6F => some (rv false (.jal rd (immJ w)))
  | 0x67 => keepIf (f3 == 0) (rv false (.jalr rd rs1 (immI w)))
  | 0x63 => (brCond f3).map fun c => rv false (.branch c rs1 rs2 (immB w))
  | 0x03 => keepIf (f3 != 7) (rvMem false (.load rd rs1 (immI w) (BitVec.ofNat 2 f3) (decide (4 ≤ f3))))
  | 0x23 => keepIf (decide (f3 ≤ 3)) (rvMem false (.store rs1 rs2 (immS w) (BitVec.ofNat 2 f3)))
  | 0x13 => decodeOpImm w false
  | 0x1B => decodeOpImm w true
  | 0x33 => (aluOp (num32 w 25 7) f3).map fun op => rv false (.alu op false rd rs1 rs2)
  | 0x3B => (aluOp (num32 w 25 7) f3).bind fun op => keepIf (aluHasW op) (rv false (.alu op true rd rs1 rs2))
  | 0x0F => if f3 = 0 then some .ccFence else keepIf (f3 == 1) .fenceI
  | 0x2F => decodeAmo w
  | 0x73 => decodeSystem w
  | 0x0B => decodeExt w
  | 0x2B => decodeExt w
  | 0x5B => decodeExt w
  | 0x7B => decodeExt w
  | _ => none

/-- Decode a 32-bit control-core word. -/
def decodeCC32 (w : BitVec 32) : Except Reject Instr :=
  match parseCC32 w with
  | none => .error .unassigned
  | some i => if ccLegal i then .ok i else .error .reservedValue

/-! #### Compressed instructions -/

/-- The registers x8 to x15 of the compressed formats. -/
def creg (w lo : Nat) : BitVec 5 := BitVec.ofNat 5 (8 + w / 2 ^ lo % 8)

/-- Bits of a 16-bit word moved to a place of an immediate. -/
def cb (w lo len pos : Nat) : Nat := w / 2 ^ lo % 2 ^ len * 2 ^ pos

/-- Quadrant 0. -/
def decodeC0 (w : Nat) : Option Instr :=
  let imm4 := cb w 11 2 4 + cb w 7 4 6 + cb w 6 1 2 + cb w 5 1 3
  let immW := cb w 10 3 3 + cb w 6 1 2 + cb w 5 1 6
  let immD := cb w 10 3 3 + cb w 5 2 6
  match w / 2 ^ 13 with
  | 0 => keepIf (imm4 != 0) (rv true (.alui .add false (creg w 2) 2 (BitVec.ofNat 64 imm4)))
  | 2 => some (rvMem true (.load (creg w 2) (creg w 7) (BitVec.ofNat 64 immW) 2 false))
  | 3 => some (rvMem true (.load (creg w 2) (creg w 7) (BitVec.ofNat 64 immD) 3 false))
  | 6 => some (rvMem true (.store (creg w 7) (creg w 2) (BitVec.ofNat 64 immW) 2))
  | 7 => some (rvMem true (.store (creg w 7) (creg w 2) (BitVec.ofNat 64 immD) 3))
  | _ => none

/-- The arithmetic group of quadrant 1. -/
def decodeC1Alu (w : Nat) : Option Instr :=
  let r := creg w 7
  let r2 := creg w 2
  let sh : Word := BitVec.ofNat 64 (cb w 12 1 5 + cb w 2 5 0)
  let alu (op : AluOp) (is32 : Bool) : Option Instr := some (rv true (.alu op is32 r r r2))
  match w / 2 ^ 10 % 4 with
  | 0 => some (rv true (.alui .srl false r r sh))
  | 1 => some (rv true (.alui .sra false r r sh))
  | 2 => some (rv true (.alui .and false r r (sx (cb w 12 1 5 + cb w 2 5 0) 6)))
  | _ =>
    match w / 2 ^ 12 % 2, w / 2 ^ 5 % 4 with
    | 0, 0 => alu .sub false
    | 0, 1 => alu .xor false
    | 0, 2 => alu .or false
    | 0, _ => alu .and false
    | _, 0 => alu .sub true
    | _, 1 => alu .add true
    | _, _ => none

/-- Quadrant 1. -/
def decodeC1 (w : Nat) : Option Instr :=
  let rd : BitVec 5 := BitVec.ofNat 5 (w / 2 ^ 7)
  let imm6 := sx (cb w 12 1 5 + cb w 2 5 0) 6
  let joff := sx (cb w 12 1 11 + cb w 11 1 4 + cb w 9 2 8 + cb w 8 1 10 + cb w 7 1 6 + cb w 6 1 7 + cb w 3 3 1 + cb w 2 1 5) 12
  let boff := sx (cb w 12 1 8 + cb w 10 2 3 + cb w 5 2 6 + cb w 3 2 1 + cb w 2 1 5) 9
  let imm16 := sx (cb w 12 1 9 + cb w 6 1 4 + cb w 5 1 6 + cb w 3 2 7 + cb w 2 1 5) 10
  match w / 2 ^ 13 with
  | 0 => some (rv true (.alui .add false rd rd imm6))
  | 1 => keepIf (rd != 0) (rv true (.alui .add true rd rd imm6))
  | 2 => some (rv true (.alui .add false rd 0 imm6))
  | 3 =>
    if rd = 2 then keepIf (imm16 != 0) (rv true (.alui .add false 2 2 imm16))
    else keepIf (imm6 != 0) (rv true (.lui rd (imm6 <<< 12)))
  | 4 => decodeC1Alu w
  | 5 => some (rv true (.jal 0 joff))
  | 6 => some (rv true (.branch .eq (creg w 7) 0 boff))
  | 7 => some (rv true (.branch .ne (creg w 7) 0 boff))
  | _ => none

/-- Quadrant 2. -/
def decodeC2 (w : Nat) : Option Instr :=
  let rd : BitVec 5 := BitVec.ofNat 5 (w / 2 ^ 7)
  let rs2 : BitVec 5 := BitVec.ofNat 5 (w / 2 ^ 2)
  let sh : Word := BitVec.ofNat 64 (cb w 12 1 5 + cb w 2 5 0)
  match w / 2 ^ 13 with
  | 0 => some (rv true (.alui .sll false rd rd sh))
  | 2 => keepIf (rd != 0) (rvMem true (.load rd 2 (BitVec.ofNat 64 (cb w 12 1 5 + cb w 4 3 2 + cb w 2 2 6)) 2 false))
  | 3 => keepIf (rd != 0) (rvMem true (.load rd 2 (BitVec.ofNat 64 (cb w 12 1 5 + cb w 5 2 3 + cb w 2 3 6)) 3 false))
  | 4 =>
    if w / 2 ^ 12 % 2 = 0 then
      if rs2 = 0 then keepIf (rd != 0) (rv true (.jalr 0 rd 0)) else some (rv true (.alu .add false rd 0 rs2))
    else if rs2 = 0 then
      (if rd = 0 then some (rv true .ebreak) else some (rv true (.jalr 1 rd 0)))
    else some (rv true (.alu .add false rd rd rs2))
  | 6 => some (rvMem true (.store 2 rs2 (BitVec.ofNat 64 (cb w 9 4 2 + cb w 7 2 6)) 2))
  | 7 => some (rvMem true (.store 2 rs2 (BitVec.ofNat 64 (cb w 10 3 3 + cb w 7 3 6)) 3))
  | _ => none

/-- A 16-bit control-core word. -/
def parseCC16 (w : BitVec 16) : Option Instr :=
  match w.toNat % 4 with
  | 0 => decodeC0 w.toNat
  | 1 => decodeC1 w.toNat
  | 2 => decodeC2 w.toNat
  | _ => none

def decodeCC16 (w : BitVec 16) : Except Reject Instr :=
  match parseCC16 w with
  | none => .error .unassigned
  | some i => .ok i

/-- Whether a control-core instruction that begins with these low bits has 32 bits. -/
def isCC32 (lo : Nat) : Bool := lo % 4 == 3

/-- Decode the bytes of a control-core instruction, first byte first: the instruction and its length in bytes, or why
the bytes are none. -/
def decodeCC (bs : List Byte) : Except Reject (Instr × Nat) :=
  match bs with
  | b0 :: b1 :: rest =>
    if isCC32 b0.toNat then
      match rest with
      | b2 :: b3 :: _ => (decodeCC32 (b3 ++ b2 ++ b1 ++ b0)).map fun i => (i, 4)
      | _ => .error .unassigned
    else (decodeCC16 (b1 ++ b0)).map fun i => (i, 2)
  | _ => .error .unassigned

/-- The instruction of a row of the opcode table: a control-core word of 32 bits, in the module's byte order (R4). -/
def decodeTableWord (nbits w : Nat) : Option Instr :=
  let n := max nbits 32 / 8
  let bs := (List.range n).map fun i => BitVec.ofNat 8 (w / 2 ^ (8 * i))
  match decodeCC bs with
  | .ok (i, _) => some i
  | .error _ => none

/-! ### The encoder -/

/-- The 28 operand bits of a form (R68 to R74). -/
def Form.operandBits : Form → BitVec 28
  | .notSlot => 0
  | .nop _ _ => 0
  | .s3 f => f.d ++ f.a ++ f.b ++ (0 : BitVec 16)
  | .s2 f => f.d ++ f.a ++ (0 : BitVec 20)
  | .sf f => f.d ++ f.a ++ f.pos ++ f.len1 ++ (0 : BitVec 8)
  | .si f => f.d ++ f.a ++ f.imm
  | .slc f => f.d ++ f.imm
  | .cp f => f.d ++ f.src ++ f.file ++ (0 : BitVec 16)
  | .sw f => f.n ++ f.a ++ (0 : BitVec 20)
  | .bj f => f.variant ++ f.off
  | .bi f => f.variant ++ (0 : BitVec 2) ++ f.a ++ (0 : BitVec 20)
  | .bare _ => 0
  | .tc _ code => (0 : BitVec 12) ++ code
  | .loop f => f.level ++ f.len1 ++ f.count
  | .loopr f => f.level ++ f.len1 ++ f.sb ++ (0 : BitVec 12)
  | .lstri f => f.level ++ f.sel ++ f.stride
  | .lstr f => f.level ++ f.sel ++ (0 : BitVec 1) ++ f.sb ++ (0 : BitVec 16)
  | .v f => f.d ++ f.a ++ f.b ++ f.c ++ f.type ++ f.rnd ++ f.aux
  | .vx f => f.d ++ f.a ++ f.stype ++ (0 : BitVec 3) ++ f.dtype ++ f.rnd ++ (0 : BitVec 3) ++ BitVec.ofBool f.half
  | .vi f => f.d ++ f.idx ++ f.s ++ BitVec.ofBool f.isSb ++ f.type ++ (0 : BitVec 7)
  | .ve f => f.d ++ f.a ++ f.idx ++ (0 : BitVec 1) ++ f.type ++ (0 : BitVec 7)
  | .vb f => f.d ++ (0 : BitVec 4) ++ f.s ++ (0 : BitVec 3) ++ BitVec.ofBool f.isSb ++ f.type ++ (0 : BitVec 7)
  | .vcp f => f.d ++ f.src ++ f.file ++ (0 : BitVec 16)
  | .fs f => f.d ++ f.src ++ f.file ++ (0 : BitVec 19)
  | .m f => f.dreg ++ f.dfile ++ f.areg ++ f.size ++ f.ofs
  | .sld f => f.dreg ++ f.dfile ++ f.areg ++ f.size ++ f.st ++ (0 : BitVec 10)
  | .ldt f => f.dreg ++ f.dfile ++ f.areg ++ f.size ++ f.t ++ f.ofs
  | .amo f => f.dreg ++ f.dfile ++ f.areg ++ f.size ++ f.op ++ f.cmp ++ f.ofs
  | .rel f => (0 : BitVec 24) ++ f.scope
  | .mcp f => f.d ++ f.src ++ f.file ++ (0 : BitVec 16)
  | .madd f => f.d ++ f.a ++ f.imm
  | .mli f => f.d ++ f.imm
  | .xd f => f.dreg ++ f.dfile ++ f.x ++ f.size ++ (0 : BitVec 15)
  | .xo f => f.dreg ++ f.dfile ++ f.x ++ f.size ++ BitVec.ofBool f.fl ++ f.ofs
  | .xa f => f.dreg ++ f.dfile ++ f.x ++ (3 : BitVec 3) ++ (0 : BitVec 1) ++ f.op ++ f.cmp ++ f.ofs
  | .xf f => (0 : BitVec 7) ++ f.x ++ (0 : BitVec 18)
  | .xw f => (0 : BitVec 7) ++ f.x ++ (0 : BitVec 8) ++ f.n

/-- A slot word: guard, opcode and operand bits (R63). -/
def slotWord (g : Guard) (opc : BitVec 8) (bits : BitVec 28) : BitVec 48 :=
  BitVec.ofBool g.pol ++ g.reg ++ g.bit ++ opc ++ bits

/-- The word of a slot operation. -/
def encodeSlot (i : Instr) : BitVec 48 := slotWord i.form.2.guard i.form.1 i.form.2.operandBits

/-- An R-type word (R78). -/
def rWord (f7 : BitVec 7) (rs2 rs1 : BitVec 5) (f3 : BitVec 3) (rd : BitVec 5) (opc : BitVec 7) : BitVec 32 :=
  f7 ++ rs2 ++ rs1 ++ f3 ++ rd ++ opc

/-- The word of an extension instruction (R76, R78); none for the others. -/
def encodeExt (i : Instr) : Option (BitVec 32) :=
  let m (f7 : BitVec 7) (o : FR3) : Option (BitVec 32) := some (rWord f7 o.rs2 o.rs1 0 o.rd 0x0B)
  match i with
  | .mmat o => m 0x01 o
  | .mconv o => m 0x02 o
  | .mattn o => m 0x03 o
  | .msort o => m 0x08 o
  | .mgath o => m 0x09 o
  | .mscat o => m 0x0A o
  | .mcopy o => m 0x10 o
  | .mfill o => m 0x11 o
  | .movly o => m 0x12 o
  | .msel o => m 0x18 o
  | .mtopk o => m 0x19 o
  | .mcoll o => m 0x20 o
  | .calBestart rs1 rs2 => some (rWord 0 rs2 rs1 1 0 0x0B)
  | .calWaitEng e rs1 => some (rWord e 0 rs1 0 0 0x2B)
  | .calWaitRng rs1 rs2 => some (rWord 0 rs2 rs1 1 0 0x2B)
  | .calWaitSc rs1 => some (rWord 0 0 rs1 2 0 0x2B)
  | .calPrgrd e rd rs1 => some (rWord e 0 rs1 4 rd 0x2B)
  | .calPrgwr e rs1 rs2 => some (rWord e rs2 rs1 5 0 0x2B)
  | .calRngwr n rs1 rs2 => some (rWord n rs2 rs1 0 0 0x5B)
  | .calRel sc => some (rWord sc 0 0 1 0 0x5B)
  | .calAcq sc => some (rWord sc 0 0 2 0 0x5B)
  | .calOvly o => some (rWord 0 o.rs2 o.rs1 3 o.rd 0x5B)
  | .calDrift rs1 rs2 => some (rWord 0 rs2 rs1 0 0 0x7B)
  | _ => none

end Sys2Proof
end

