-- ==== Sys2Proof/Config.lean ====
section
/-! DEFINITION. What the specification leaves open: opaque constants without a body, so that nothing in Lean can
evaluate them or prove a value of them. A free value is one of these applied to the counter State.freeCount (log 4). -/

namespace Sys2Proof.Config

/-- Unspecified values (R2): the bits that R286, R326 and R344 leave open, drawn at State.freeCount. -/
opaque freeBits : Nat → VWord

/-- The store-buffer map BMAP of OUTST while REMAIN is not zero (R211: its bits are implementation-defined). -/
opaque freeBmap : Nat → BitVec 8

/-- The cycles from the issue of a Timed access to the report of its fault, which R52 and R259 bound by 256, drawn at
State.freeCount. -/
opaque reportDelay : Nat → BitVec 9

/-- The register that a device-region offset selects (R244): the specification gives the registers but not their
addresses. -/
opaque deviceAt : Nat → Option RegTarget

end Sys2Proof.Config
end

