-- ==== Sys2Proof/Machine/State.lean ====
section
/-! DEFINITION. The state of one Calanrix C7 module as plain data: everything the specification gives the module,
the state after module reset, and the reasons a step can stop. Large stores and tables are sparse lists in one
form: keys strictly rising. A store of bytes also lists no byte equal to what an unlisted address reads as. -/

namespace Sys2Proof.Machine

/-- A sparse table: keys strictly rising. -/
abbrev Sparse (α : Type) := List (Nat × α)

/-! ### The bundle engine (R95 to R160) -/

/-- One entry of the next-PC queue (R113): the set ENDS as four bits, level 0 in bit 0. -/
structure NpqEntry where
  addr : Half
  annul : Bool
  ends : BitVec 4
deriving DecidableEq, Repr, Inhabited

/-- The register files of the slots (R95, R129, R162, R260, R362). -/
structure BeRegs where
  sa : Vector Word 16
  sb : Vector Word 16
  va : Vector VWord 16
  vb : Vector VWord 16
  vc : Vector VWord 16
  fs : Vector VWord 8
  /-- mha0, mha1, mhb0, mhb1, mhc0, mhc1 -/
  mh : Vector VWord 6
  ma : Vector AWord 16
  mb : Vector AWord 16
  st : Vector Word 16
  /-- xf0 to xf7: the fabric state registers of R362, as they read -/
  xf : Vector Word 8
deriving DecidableEq, Repr

/-- One level of the loop registers (R119), with its 32 stride registers. -/
structure LoopLevel where
  act : Bool
  lc : Half
  li : Half
  lb : Half
  le : Half
  str : Vector AWord 32
deriving DecidableEq, Repr

/-- A result in flight to a register (R37, R98, R203): `len` bits of `data` go to bits `lo` upwards of register `reg`
of file code `file` (R67; 16 names the stride registers, `reg` being 32 × level + k). `src` names the access that still
has to supply the data. `rank` is the issuing slot's place in the order of R61. -/
structure Landing where
  file : Nat
  reg : Nat
  lo : Nat
  len : Nat
  data : VWord
  due : Nat
  issue : Nat
  rank : Nat
  flags : BitVec 6
  flagSlot : Nat
  src : Option Nat
deriving DecidableEq, Repr, Inhabited

/-- The kinds of scratchpad, accumulator and tag-store accesses in flight (R256). -/
inductive SpKind
  | load | tagLoad | store | tagStore | accLoad | accStore | codebook | combine
deriving DecidableEq, Repr, Inhabited

/-- A scratchpad, accumulator, tag or codebook access in flight: it samples or performs at `due`; `rank` is its place in
the order of R247. For a memory slot `id` is the access a landing waits for; for an engine `id` is the issue number and
`pc` the step. `keep` holds the bits that a store of at most eight bytes leaves as they are. -/
structure SpAccess where
  kind : SpKind
  addr : Nat
  bytes : List Byte
  len : Nat
  tag : BitVec 16
  due : Nat
  issue : Nat
  rank : Nat
  id : Nat
  pc : Half
  poison : Bool
  keep : Word
deriving DecidableEq, Repr, Inhabited

/-- The activity of a bundle engine (R113, R118, R124, R127, R157). -/
inductive BeState
  | idle
  /-- started: the first step executes at SC `at_` (R190) -/
  | awaiting (at_ : Nat)
  | running
  /-- inside a micro-sequence of `m` steps (R157) -/
  | micro (m : Nat)
  /-- an Elastic trap is waiting for the landings of earlier bundles (R127) -/
  | trapping
  /-- stopped by a trap; it counts as idle -/
  | trapped
deriving DecidableEq, Repr

/-- An event, as it is reported (R46, R58, R60 body 0x01). -/
structure Ev where
  cause : BitVec 8
  subcause : BitVec 8
  engine : Nat
  slot : Nat
  pc : Word
  faddr : Word
  tcode : BitVec 16
  issue : Half
  tengine : Nat
  duesc : Word
  body : Nat
  /-- words 4 to 7 of the record where the body is not 0x01 -/
  words : List Word
deriving DecidableEq, Repr, Inhabited

/-- A micro-sequence in progress (R157, R159). -/
structure Micro where
  slots : BitVec 3
  index : Nat
  pc : Half
  ops : List Instr
  /-- started by the resume form of bundle-engine start (R160) -/
  resumed : Bool
deriving DecidableEq, Repr

/-- The bundle engine of a core. -/
structure Be where
  regs : BeRegs
  loops : Vector LoopLevel 4
  state : BeState
  npq : Vector NpqEntry 3
  epc : Vector Word 3
  mstep : Word
  micro : Option Micro
  vflags : Word
  /-- the flags that landed at SC `flagSC`, which a clear in that cycle leaves set (R140) -/
  flagSC : Nat
  flagNew : Word
  /-- header widths and address of the bundle at hand; redirect of the step (R113) -/
  pc : Half
  taken : Option Half
  skip : Option Half
  annulTwo : Bool
  halted : Bool
  /-- the events of a trap in progress and of those detected after issue that wait for the bundle boundary (R127), each
  with its detection SC -/
  trapEv : List (Ev × Nat)
  /-- a BE interrupt or TRAP that is pending (R125, R127), with the SC at which it became pending -/
  pend14 : Option (Ev × Nat)
  landings : List Landing
  accesses : List SpAccess
  nextId : Nat
  /-- cycles the head bundle's SEND has been blocked (R364) -/
  sendWait : Nat
  /-- the SC of the latest Elastic REL: it covers the accesses issued at or before it (R268) -/
  relIds : List Nat
deriving DecidableEq, Repr

/-! ### The control core (R181 to R201) -/

/-- A line of the first-level cache (R252): its bytes with one valid and one dirty bit each. -/
structure L1Line where
  data : BitVec 1024
  valid : BitVec 128
  dirty : BitVec 128
  /-- the poisoned 64-bit words (R299) -/
  bad : BitVec 16 := 0
deriving DecidableEq, Repr, Inhabited

/-- What a stalled control core waits for. -/
inductive CcState
  /-- before the gang's START, or after the launch: no instruction runs -/
  | stopped
  | running
  | waitEng (e : Nat) (m : Half)
  /-- the range, and the SC at which the wait began -/
  | waitRng (base len sc : Nat)
  | waitSc (sc : Word)
  /-- a release executed at SC `sc` (R194) -/
  | waitRel (scope sc : Nat)
  /-- a cal.ovly waits for its entry `m` (R195) -/
  | waitOvly (m : Half)
  | waitFenceI
  | waitWfi
  /-- launch end requested (R41) -/
  | ending
  | finished
  /-- stalled at an instruction by a Timed 0x0A or 0x0B (R47) -/
  | stalled
deriving DecidableEq, Repr

/-- The privilege modes of R181. -/
inductive Mode | u | m
deriving DecidableEq, Repr

/-- The control core of a core. -/
structure Cc where
  x : Vector Word 32
  pc : Word
  mode : Mode
  state : CcState
  -- standard CSRs (R184)
  mstatus : Word
  mepc : Word
  mcause : Word
  mtval : Word
  mscratch : Word
  mie : Word
  mip : Word
  /-- mcycle less the SC, so that it runs with the SC (R184) -/
  cycleOfs : Word
  minstret : Word
  -- custom CSRs (R197 to R201)
  fpctl : Word
  srga : Half
  srgb : Half
  srgc : Half
  srgm : Half
  srge : Half
  rank : Word
  gsize : Word
  ggeo : Word
  calctl : Word
  tcause : Word
  faddr : Word
  fcoord : Word
  fsc : Word
  drifts : Word
  snapidx : Word
  -- issue counters (R188)
  cnt : Vector Half 5
  /-- the 128-byte line of the LR reservation, with the bytes' version (R182) -/
  resv : Option Nat
  /-- program status of the launch end (R187) -/
  pstat : BitVec 16
  /-- frozen inspection: the pc, mode and activity to return to (R186) -/
  inspect : Option (Word × Mode × CcState)
  /-- the entry for which an interrupted cal.ovly still waits, and the pc and mode whose return goes on waiting (R195) -/
  ovly : Option (Half × Word × Mode)
  /-- pending exceptions' records for interrupts 16 to 18: the event and its SC, with FCOORD -/
  pendMacro : List (Ev × Nat × Word)
  monMem : Sparse Byte
  /-- poisoned 64-bit words of the monitor data memory (R299) -/
  monBad : List Nat
  l1 : Sparse L1Line
deriving DecidableEq, Repr

/-! ### Engines (R20, R206 to R239, R312 to R338) -/

/-- A range register (R242). -/
structure Rng where
  w0 : Word
  w1 : Word
deriving DecidableEq, Repr, Inhabited

/-- An issue-queue entry (R189, R239): the form's funct7, the copied block, the translations at acceptance, the start SC,
the issue number, the target sequencer and the basin count at which it came to the queue's head. -/
structure QEntry where
  form : Nat
  block : List Word
  rng : Vector Rng 16
  start : Word
  issue : Half
  seqr : Nat
  headAt : Nat
deriving DecidableEq, Repr

/-- The progress registers of a sequencer (R209 to R211, R313). -/
structure Prog where
  cause : BitVec 8
  state : BitVec 3
  resumed : Bool
  flags : BitVec 6
  issue : Half
  steps : Half
  lidx : Vector (BitVec 16) 6
  whalf : Bool
  slot : BitVec 4
  nexttag : BitVec 16
  par : Bool
  pass : BitVec 16
  chunk : BitVec 16
  hsel : BitVec 16
  total : Half
  count : Half
deriving DecidableEq, Repr

/-- A tile step or chunk in flight (R232, R238, R325, R334): its number on the core, its start SC, what its samples gave
by sample number, and the memory reads that it awaits. Sample 99 lists the reads that met poison. `stage` counts the
points of the step that have passed. -/
structure StepState where
  issue : Half
  n : Nat
  t0 : Nat
  samples : Sparse (List Nat)
  /-- memory requests in the order of their use, with their bytes once they have come -/
  reads : List (Nat × Option (List Byte))
  stage : Nat
  flags : BitVec 6
deriving DecidableEq, Repr, Inhabited

/-- An entry that a sequencer runs: its start SC, the steps or chunks started, committed and in all, and for a copy the
state of SRGE before the draws of each committed chunk (R53, R327). -/
structure ActiveEntry where
  entry : QEntry
  startSC : Nat
  started : Nat
  committed : Nat
  total : Nat
  draws : List Half
deriving DecidableEq, Repr

/-- A sequencer with the entries it holds and its pipeline state (R206, R207, R238). -/
structure SeqState where
  prog : Prog
  /-- the core whose entry is held -/
  core : Nat
  /-- oldest first; the progress registers describe the youngest -/
  active : List ActiveEntry
  steps : List StepState
  /-- the earliest SC at which the period allows a further start, and the SC of the last write -/
  nextFree : Nat
  lastWrite : Nat
  /-- Weir: the running list of (pattern, index) pairs; NANSEEN -/
  list : List (Half × Half)
  nanSeen : Bool
  /-- a macro stop that waits for OUTST to reach zero (R234, R315) -/
  stopEv : Option Ev
  /-- the poisoned scratchpad byte of a phase cancellation (R237) -/
  refetchAt : Option Nat
deriving DecidableEq, Repr

/-- An entry of the range scoreboard (R208, R223). -/
structure SbEntry where
  eng : Nat
  issue : Half
  space : Nat
  rd : Bool
  wr : Bool
  base : Nat
  len : Nat
  accept : Nat
deriving DecidableEq, Repr

/-- An MCOPY kept by the refetch table (R327): the generator's state before each chunk's draws, and whether the buffer has
been refetched (R56). -/
structure Refetch where
  block : List Word
  rng : Vector Rng 16
  base : Nat
  len : Nat
  draws : List Half
  redone : Bool
deriving DecidableEq, Repr

/-- A refetch under way (R237, R327): for the matrix engine or the other consumer, the copy as it runs again, and the state
that the copy engine's sequencer goes back to. -/
structure Redo where
  mx : Bool
  act : ActiveEntry
  was : BitVec 3
deriving DecidableEq, Repr

/-- A stationary latch (R214). -/
structure Latch where
  bytes : Sparse Byte
  scales : Sparse Byte
  phase : Nat
deriving DecidableEq, Repr, Inhabited

/-- The engines and private stores of a core. -/
structure Engines where
  mxq : List QEntry
  pxq : List QEntry
  ceq : List QEntry
  cxq : List QEntry
  weirq : List QEntry
  mx : SeqState
  px : SeqState
  ce : SeqState
  sboard : List SbEntry
  refetch : List Refetch
  redo : Option Redo
  /-- an error of the matrix engine's arithmetic to come: the bits it turns in the next step's first result (R309) -/
  mxUpset : Half
  latches : Vector Latch 4
  /-- physical accumulator bytes, half 0 then half 1 (R212) -/
  accum : Sparse Byte
  codebook : Sparse Half
  spad : Sparse Byte
  /-- poisoned 64-bit words of the scratchpad (R295) -/
  spadPoison : List Nat
  tags : Sparse (BitVec 16)
  ispad : Sparse Byte
  regions : Vector Word 16
deriving DecidableEq, Repr

/-- An audit image (R308): the core and its launch, AUDCNT and the issue number of the step, its form, operand block and
FZ, the elements of A and B, scales and prior accumulator that its samples gave, and the matrix engine's result. -/
structure AuditImage where
  core : Nat
  dom : Option Nat
  audcnt : Half
  issue : Half
  form : Nat
  block : List Word
  fz : Bool
  inputs : Sparse (List Nat)
  result : List Half
deriving DecidableEq, Repr, Inhabited

/-- A stream descriptor (R361). -/
structure Stream where
  w0 : Word
  w1 : Word
  w2 : Word
deriving DecidableEq, Repr, Inhabited

/-- A transfer held by a stream or for a plan, with its arrival SC (R364); a receive step of a plan that has taken it and
not yet committed, as the entry's issue number and the step (R313, R315). -/
structure Held where
  flit : Flit
  arr : Nat
  takenBy : Option (Half × Nat)
deriving DecidableEq, Repr

/-- The fabric interface of a core (R361 to R370). -/
structure Fabric where
  streams : Vector Stream 8
  rx : Vector (Option Held) 8
  landing : Sparse VWord
  landingValid : BitVec 256
  /-- landing-area slots in use: the slot, its stream, destination landing id and parts awaited -/
  loads : List (Nat × Nat × Nat × Nat)
  /-- route and offset of the load of a slot (R203) -/
  loadAt : Sparse (Nat × Nat)
  /-- the copy engine's remote stores not yet acknowledged, oldest first: issue number, chunk and bytes (R211, R324) -/
  ceStores : List (Half × Nat × Nat)
  /-- arrived transfers held for receive steps of collective plans (R313, R338) -/
  plan : List Held
deriving DecidableEq, Repr

/-- The record of highest priority that a core's events of basin count `at_` have written (R49): its priority, the
partition and number of the record, and whether another event had set the response before. -/
structure EvHead where
  at_ : Nat
  prio : Nat
  part : Nat
  num : BitVec 16
  secondary : Bool
deriving DecidableEq, Repr

/-- One core of the module (R9, R10, R20). -/
structure Core where
  be : Be
  cc : Cc
  eng : Engines
  fab : Fabric
  rng : Vector Rng 16
  fenced : Bool
  /-- errata of R89 that the core's profile-5 image lists: bit 0 0x0005_0003, bit 1 0x0005_0011, bit 2 0x0005_0024 -/
  errata : BitVec 3
  /-- the domain the core belongs to, if any (R16) -/
  dom : Option Nat
  /-- the clear between launches is in progress (R30) -/
  clearing : Bool
  audcnt : Half
  audofs : BitVec 20
  audskip : Half
  /-- the audit staging area (R308) -/
  staging : Option AuditImage
  /-- the record that heads the core's events of a cycle (R49) -/
  evHead : Option EvHead
  pc : Vector (BitVec 48) 8
  pcsel : Vector (BitVec 9) 8
  perfsnap : Vector (BitVec 48) 8
deriving DecidableEq, Repr

/-! ### Memory-side requests (R271 to R276) -/

/-- Where a memory-side translation stands (R52, R257, R378, R381). -/
inductive Xlat
  | waiting
  /-- a stack physical address with the leaf it came from and the page size code of R379 -/
  | ok (pa : Nat) (leaf : Word) (size : Nat)
  | fault (sub : Nat) (level : Nat)
  | classX
deriving DecidableEq, Repr

/-- The kinds of access that a home slice serves. -/
inductive ReqKind
  | load | store | atomic | rel | combine
deriving DecidableEq, Repr, Inhabited

/-- A request on its way to, or held at, its home slice (R256, R272). -/
structure LongReq where
  id : Nat
  core : Nat
  dom : Option Nat
  part : Nat
  timed : Bool
  kind : ReqKind
  va : Nat
  ia : Nat
  bytes : Nat
  data : VWord
  /-- the bytes that a store writes, and the bits of them that it leaves as they are -/
  mask : BitVec 128
  keep : VWord
  op : BitVec 4
  cmp : Word
  /-- SC at which it samples or performs, issue SC, place in the order of R272, issuing slot -/
  due : Nat
  issue : Nat
  rank : Nat
  slot : Nat
  pc : Half
  /-- engine code of R58, and the issue number of an engine entry, whose step is then `pc` -/
  engine : Nat
  entry : Half
  xlat : Xlat
  poison : Bool
deriving DecidableEq, Repr

/-- A strong access that performed at a home slice (R286): basin count, address, bytes. -/
structure StrongRec where
  at_ : Nat
  stack : Nat
  l : Nat
  bytes : Nat
deriving DecidableEq, Repr

/-- A block of 64 KiB bound to a launch's shadow frame (R303): the copied map, one bit per sector. -/
structure Binding where
  part : Nat
  stack : Nat
  block : Nat
  dom : Nat
  frame : Nat
  copied : BitVec 1024
deriving DecidableEq, Repr

/-- A cached leaf result (R380), pinned by the listed domains (R381). -/
structure TlbEntry where
  stack : Nat
  part : Nat
  block : Nat
  leaf : Word
  size : Nat
  pins : List Nat
deriving DecidableEq, Repr

/-- An entry of a page error table (R393). -/
structure PageErr where
  block : Nat
  c : BitVec 16
  m : BitVec 16
deriving DecidableEq, Repr, Inhabited

/-! ### Domains, queues and front ends -/

/-- The phases of a domain (R16, R37 to R44). -/
inductive Phase | armed | running | frozen | evicted | ended
deriving DecidableEq, Repr

/-- A timing domain (R16, R17). -/
structure Domain where
  part : Nat
  fe : Nat
  queue : Nat
  cmdidx : Half
  timetable : Nat
  cmd : List Word
  /-- basin count at the dispatch of its LAUNCH -/
  dispAt : Nat
  params : List Byte
  timed : Bool
  wrmode : BitVec 2
  ovldbg : Bool
  basin : Bool
  /-- (core, gang), in core-list order -/
  cores : List (Nat × Nat)
  /-- START and entry address of each gang -/
  gangs : List (Word × Word)
  b0 : Nat
  h : Nat
  phase : Phase
  /-- freeze point F, and the basin count at which the domain froze -/
  fpt : Option Nat
  frozenAt : Nat
  resumeAt : Option Nat
  /-- the strongest response so far, as RESP of R58, its event and its partition status -/
  resp : Option (Nat × Nat)
  saveIA : Option Nat
  replays : Nat
  unsafe_ : Bool
  mdeliv : Bool
  stage1Done : Bool
  killAt : Option Nat
  /-- the run's replay on other modules (R57): least Ba seen -/
  replayBa : Option Nat
  leases : List Word
  linkLeases : List Word
  seqLeases : List Word
  /-- the blocks of L that the launch pins, as stack × 2^31 + block (R381) -/
  pins : List Nat
  /-- residency registers allocated to the launch, by die × 8 + n (R254) -/
  resRegs : List Nat
  /-- the cores of an evicted domain, as its save area holds them (R40, R205) -/
  saved : List (Nat × Core)
  /-- events detected after the freeze, handled at the resume: landing SC, core and event (R50) -/
  later : List (Nat × Nat × Ev)
  /-- the memory-side requests of an evicted domain (R275) -/
  heldReqs : List LongReq
deriving DecidableEq, Repr

/-- A command in execution (R343, R344). -/
structure Cmd where
  idx : Half
  words : List Word
  at_ : Nat
  dom : Option Nat
  written : Nat
  failed : Option (BitVec 8)
deriving DecidableEq, Repr, Inhabited

/-- A completion record created and not yet sent (R350, R351), less its PHASE bit. -/
structure CRec where
  words : List Word
  at_ : Nat
deriving DecidableEq, Repr, Inhabited

/-- A queue record (R339): its eight words. -/
structure QRec where
  w : Vector Word 8
deriving DecidableEq, Repr, Inhabited

/-- A hardware slot (R345 to R347). -/
structure HwSlot where
  queue : Option Nat
  rec_ : QRec
  level : Nat
  readyAt : Option Nat
  lastDispatch : Nat
  execs : List Cmd
  held : List CRec
  wdc1 : Half
  wdc2 : Half
  wdc3 : Half
deriving DecidableEq, Repr

/-- A front end's dispatcher (R347, R348): the slot and command at hand. -/
structure Disp where
  slot : Nat
  cmd : Cmd
deriving DecidableEq, Repr

/-- A fault record of the current cycle (R353): the front end that writes it, its number in the order of detection, and its
words, with SEQ zero. -/
structure FaultRec where
  fe : Nat
  num : BitVec 16
  words : List Nat
deriving DecidableEq, Repr, Inhabited

/-- A partition's state beside its table (R345, R353, R386): doorbell map, fault ring, quiesce. -/
structure Part where
  words : Vector Word 16
  pending : List Nat
  fqHead : Nat
  fqCount : Nat
  /-- the fault records of basin count `batchAt`, in the order of their front ends, and how many of them stand in the ring
  (R353) -/
  batchAt : Nat
  batch : List FaultRec
  batchOut : Nat
  seq : BitVec 16
  lost : Half
  quiesced : Bool
  shadow : List (Nat × Nat)
  keys : Vector (BitVec 256) 2
deriving DecidableEq, Repr

/-- An entry of the memory-region table (R374). -/
structure Region where
  valid : Bool
  key : BitVec 16
  part : Nat
  base : Nat
  len : Nat
  rd : Bool
  wr : Bool
  at_ : Bool
  /-- the partition's doorbell window (R341) -/
  doorbells : Bool
deriving DecidableEq, Repr, Inhabited

/-- The host side of a COPY in execution (R344): its queue pair and command, whether it reads the host, and the bytes whose
data or acknowledgement is still to come. -/
structure HostCopy where
  qp : Nat
  queue : Nat
  idx : Half
  read : Bool
  left : Nat
deriving DecidableEq, Repr, Inhabited

/-- A queue pair (R373, R375): sending rate in Mb/s, retries left, posted buffers, last CNP sent and received. -/
structure QueuePair where
  valid : Bool
  part : Nat
  rate : Nat
  retry : Nat
  bufs : List (Nat × Nat)
  lastCnpSent : Option Nat
  lastCnpRecv : Option Nat
deriving DecidableEq, Repr, Inhabited

/-- A drift request accepted and not yet carried out (R391); the core that asked, if one did (R200). -/
structure DriftReq where
  b : Nat
  n : Nat
  core : Option Nat
deriving DecidableEq, Repr

/-- What leaves the module, for the outside world to see. -/
inductive OutMsg
  /-- a completion record, written by RDMA to a host address (R350) -/
  | completion (q qp rkey addr : Nat) (words : List Word)
  | flit (f : Flit)
  /-- a basin-abort notice on link `link` (R57) -/
  | notice (link : Nat) (n : Notice)
  /-- event 0x09 of a transfer that another module sent, with its record body (R359) -/
  | collision (module core : Nat) (words : List Word)
  | marker (route core stream : Nat)
  | ack (module core stream count : Nat)
  | reply (module core slot : Nat) (data : VWord) (poisoned : Bool)
  | rdmaAck (qp : Nat)
  | rdmaData (qp : Nat) (bytes : List Byte)
  | rdmaOld (qp : Nat) (old : Word)
  | nak (qp : Nat) (operational : Bool)
  | doorbellNak (q : Nat)
  | rnrNak (qp : Nat)
  | cnp (qp : Nat)
  /-- a firmware order on a domain is refused with a status (R39, R317) -/
  | orderRefused (dom : Nat) (status : Word)
  | retransmit (qp : Nat)
  | hostRead (qp rkey addr len : Nat)
  | hostWrite (qp rkey addr : Nat) (bytes : List Byte)
  | hostAtomic (qp rkey addr : Nat) (cas : Bool) (x cmp : Word)
deriving DecidableEq, Repr

/-- A place where an error of the hardware's own is detected (R299, R300); `dom` is the launch whose access or transfer
meets it. `two` marks an error of two bits where one is corrected. -/
inductive Upset where
  | scratchpad (core addr : Nat) (two : Bool)
  | accumulator (core addr : Nat) (working : Bool)
  | l2Data (stack pa : Nat) (two : Bool)
  | firstLevel (core ia : Nat) (two : Bool)
  | monitor (core addr : Nat) (two : Bool)
  | ispad (core : Nat) (two : Bool)
  | tagStore (core : Nat) (two : Bool)
  | l2Tags (dom : Nat) (two : Bool)
  /-- a register file, or a stationary latch -/
  | registers (core : Nat)
  /-- bits turned in the matrix engine's next result, and in the audit engine's next two signatures (R309, R310) -/
  | matrix (core : Nat) (bits : Half)
  | auditEngine (die : Nat) (first second : Word)
  /-- progress registers, issue queues or the snapshot -/
  | control (core : Nat)
  | walkStore (dom : Nat)
  | shadowPool (dom : Nat)
  /-- the integrity tag's sector of a sector key is uncorrectable -/
  | tagSector (key : Nat)
  | noc (die : Nat) (dom : Option Nat)
  /-- a block of a link that its forward error correction corrects, or cannot (R356) -/
  | fec (link : Nat) (lost : Bool)
deriving DecidableEq, Repr

/-- Whose turn it is: an event or instruction of a core's context, the control core of a core, the check that a Timed
arrival met its RECV (R364), or the layout of the cycle. -/
inductive Turn
  | op (core : Nat) (i : Instr)
  | cc (core : Nat)
  | unmatched (core stream : Nat)
  /-- part of a slice's cycle (R272): 0 the reads, 1 the Timed writes, 2 the Elastic requests of the cores below `below`,
  3 the rest -/
  | slice (die slice phase below : Nat)
  /-- the memory side reports a fault of core `core`, whose domain was `dom` in its run number `replays` (R52) -/
  | report (core : Nat) (dom : Option Nat) (replays : Nat) (e : Ev)
  /-- a basin-abort notice goes out once no lease holds its link (R57) -/
  | notice (n : Notice)
  /-- an error of the hardware is detected (R299) -/
  | upset (u : Upset)
  /-- the host answers a COPY's RDMA READ on a queue pair with bytes, or acknowledges `n` bytes of its RDMA WRITEs (R344) -/
  | hostData (qp : Nat) (bytes : List Byte)
  | hostAck (qp n : Nat)
  /-- the cycle's turns are laid out from here on -/
  | plan
deriving DecidableEq, Repr

/-- A turn due at a basin count, or at an SC of domain `clock`. -/
structure Due where
  clock : Option Nat
  at_ : Nat
  turn : Turn
deriving DecidableEq, Repr

/-- Counters of the drift unit (R391). -/
structure Drift where
  lock : Bool
  holds : Half
  pherr : BitVec 16
  reqs : List DriftReq
  reqB : Word
  rej : Bool
deriving DecidableEq, Repr

/-- The ready bits of R395. -/
structure Ready where
  link : BitVec 32
  fe : BitVec 16
  die : BitVec 8
  stack : BitVec 8
  hwa : Bool
  hwb : Bool
  eth : Bool
  drlock : Bool
deriving DecidableEq, Repr

/-- An island register (R397). -/
structure Island where
  ref : Bool
  freq : BitVec 4
deriving DecidableEq, Repr, Inhabited

/-- What a copy of Headwater's state table says (R388): the four partition tables, the slots and their queues, the domains
that have not ended with their save areas, the fenced cores, pins and leases by domain, the merge state and the islands. -/
structure TableBody where
  parts : List (List Word)
  slots : List (Nat × Nat)
  doms : List (Nat × Phase × Option Nat)
  fenced : List Nat
  pins : List (Nat × List Nat)
  leases : List (Nat × List Word)
  mgDone : Bool
  mgStatus : BitVec 8
  islands : Sparse Island
deriving DecidableEq, Repr

/-- A copy of the state table: its VERSION and body. -/
structure TableCopy where
  version : BitVec 48
  body : TableBody
deriving DecidableEq, Repr

/-- Headwater (R354, R355, R387, R388, R402). `silentAt` is the basin count at which the active complex's heartbeat
stopped; `copyB` says that copy B of the state table is the one written last. -/
structure Headwater where
  activeB : Bool
  heartbeat : Bool
  silentAt : Nat
  version : BitVec 48
  copyB : Bool
  tableA : TableCopy
  tableB : TableCopy
  mgDone : Bool
  mgStatus : BitVec 8
  updating : Bool
deriving DecidableEq, Repr

/-- Error counters of a stack (R392, R393). -/
structure StackErr where
  c : Half
  m : Half
  h : Half
  x : Half
  pgovf : Half
deriving DecidableEq, Repr, Inhabited

/-- Audit state of a die (R309, R310, R392). -/
structure AuditDie where
  done : Half
  mis : Half
  fail : Bool
  /-- errors of the audit engine to come: bits turned in the signatures of the next image's two recomputations -/
  glitch : Word × Word
  /-- the audit buffer: at most 64 images (R308) -/
  images : List AuditImage
deriving DecidableEq, Repr, Inhabited

/-- A line that an L2 set holds: its number in stack physical memory, the residency register that retains it, and which
of its two sectors are there (R253, R254). -/
structure L2Line where
  line : Nat
  cls : Option Nat
  have_ : BitVec 2
deriving DecidableEq, Repr

/-- The memory side of the module. -/
structure Mem where
  /-- stack physical memory: key stack × 2^36 + PA (R240); an unlisted byte reads `0` -/
  hbm : Sparse Byte
  /-- check words, as the difference from Check(data) under the code that `lay` gives, by sector key (R288); an unlisted
  sector's is valid -/
  check : Sparse Word
  /-- the code under which a sector's check word was made (R291); unlisted: that of layout 0 -/
  lay : Sparse Nat
  /-- the integrity tags of encrypted sectors (R296), and the sectors whose tag cannot be read (R297) -/
  tags : Sparse Word
  lostTags : List Nat
  /-- the lines of an L2 set, the latest used first, by (stack × 48 + slice) × 2048 + set (R253, R254) -/
  l2 : Sparse (List L2Line)
  tlb : List TlbEntry
  walkStore : Sparse Byte
  bindings : List Binding
  strong : List StrongRec
  reqs : List LongReq
  /-- engine loads that have sampled and not yet delivered (R238) -/
  sampled : List LongReq
  nextReq : Nat
  /-- residency registers by die × 8 + n, and the slice counters by (die × 48 + slice) × 8 + n (R254) -/
  res : Sparse Rng
  resCnt : Sparse Byte
  pageErr : Sparse PageErr
  err : Sparse StackErr
  leaseUse : Sparse Nat
deriving DecidableEq, Repr

/-- The fabric, the port and the front ends of the module. -/
structure Io where
  slots : Sparse HwSlot
  disps : Sparse Disp
  regions : Sparse Region
  qps : Sparse QueuePair
  feccor : Sparse Half
  fecunc : Sparse Half
  nocerr : Sparse Half
  ethDrop : Nat
  /-- arriving store parts of remote streams not yet acknowledged: (module, core, stream) and count (R368) -/
  unacked : List (Nat × Nat × Nat × Nat)
  endedRuns : List (Nat × Nat × Nat)
  /-- the host sides of the COPYs in execution, in the order in which they were posted -/
  copies : List HostCopy
  /-- transfers that the module's cores put on their first links in this cycle (R359) -/
  inject : List PortFlit
  out : List OutMsg
deriving DecidableEq, Repr

/-- One Calanrix C7 module. -/
structure State where
  /-- the basin count (R389) -/
  basin : Nat
  drift : Drift
  ready : Ready
  islands : Sparse Island
  hw : Headwater
  parts : Vector Part 4
  boundary : Vector (BitVec 10) 8
  cores : Sparse Core
  doms : List (Nat × Domain)
  nextDom : Nat
  mem : Mem
  io : Io
  /-- shared sequencers: CX at die × 16 + n, Weir at 128 + unit × 8 + n (R20) -/
  seqs : Sparse SeqState
  audit : Sparse AuditDie
  moduleId : Nat
  /-- the model's own: the turns of this cycle, turns due later, the core whose turn it is, the free-value counter -/
  agenda : List Turn
  calendar : List Due
  cur : Nat
  freeCount : Nat
deriving DecidableEq, Repr

/-! ### The state after reset -/

/-- The register files after reset (R95, R129, R162, R260, R362: all zero). -/
def BeRegs.reset : BeRegs :=
  { sa := Vector.replicate 16 0, sb := Vector.replicate 16 0, va := Vector.replicate 16 0, vb := Vector.replicate 16 0
    vc := Vector.replicate 16 0, fs := Vector.replicate 8 0, mh := Vector.replicate 6 0, ma := Vector.replicate 16 0
    mb := Vector.replicate 16 0, st := Vector.replicate 16 0, xf := Vector.replicate 8 0 }

/-- A loop level after reset (R119). -/
def LoopLevel.reset : LoopLevel :=
  { act := false, lc := 0, li := 0, lb := 0, le := 0, str := Vector.replicate 32 0 }

/-- A bundle engine after reset: idle, every register zero (R95 to R159). DESIGN CHOICE (log 2): the next-PC queue,
for which the specification states no reset value, holds zeros. -/
def Be.reset : Be :=
  { regs := .reset, loops := Vector.replicate 4 .reset, state := .idle, npq := Vector.replicate 3 ⟨0, false, 0⟩
    epc := Vector.replicate 3 0, mstep := 0, micro := none, vflags := 0, flagSC := 0, flagNew := 0, pc := 0, taken := none, skip := none
    annulTwo := false, halted := false, trapEv := [], pend14 := none, landings := [], accesses := [], nextId := 0
    sendWait := 0, relIds := [] }

/-- A control core after reset. DESIGN CHOICE (log 2): M mode, every register without a stated value zero. -/
def Cc.reset : Cc :=
  { x := Vector.replicate 32 0, pc := 0, mode := .m, state := .stopped, mstatus := 0, mepc := 0, mcause := 0, mtval := 0
    mscratch := 0, mie := 0, mip := 0, cycleOfs := 0, minstret := 0, fpctl := 0, srga := 0, srgb := 0, srgc := 0
    srgm := 0, srge := 0, rank := 0, gsize := 0, ggeo := 0, calctl := 0, tcause := 0, faddr := 0, fcoord := 0, fsc := 0
    drifts := 0, snapidx := 0, cnt := Vector.replicate 5 0, resv := none, pstat := 0, inspect := none, ovly := none, pendMacro := []
    monMem := [], monBad := [], l1 := [] }

/-- Progress registers after reset (R209, R313: every field zero). -/
def Prog.reset : Prog :=
  { cause := 0, state := 0, resumed := false, flags := 0, issue := 0, steps := 0, lidx := Vector.replicate 6 0
    whalf := false, slot := 0, nexttag := 0, par := false, pass := 0, chunk := 0, hsel := 0, total := 0
    count := 0 }

/-- A sequencer after reset: idle. -/
def SeqState.reset : SeqState :=
  { prog := .reset, core := 0, active := [], steps := [], nextFree := 0, lastWrite := 0
    list := [], nanSeen := false, stopEv := none, refetchAt := none }

/-- The engines of a core after reset: empty queues, zero stores (R175, R214, R250, R251). -/
def Engines.reset : Engines :=
  { mxq := [], pxq := [], ceq := [], cxq := [], weirq := [], mx := .reset, px := .reset, ce := .reset, sboard := []
    refetch := [], redo := none, mxUpset := 0, latches := Vector.replicate 4 ⟨[], [], 0⟩, accum := [], codebook := [], spad := [], spadPoison := []
    tags := [], ispad := [], regions := Vector.replicate 16 0 }

/-- The fabric interface of a core after reset. -/
def Fabric.reset : Fabric :=
  { streams := Vector.replicate 8 ⟨0, 0, 0⟩, rx := Vector.replicate 8 none, landing := [], landingValid := 0, loads := []
    loadAt := [], ceStores := [], plan := [] }

/-- A core after module reset; a core not listed in State is this one. -/
def Core.reset : Core :=
  { be := .reset, cc := .reset, eng := .reset, fab := .reset, rng := Vector.replicate 16 ⟨0, 0⟩, fenced := false
    errata := 0, dom := none, clearing := false, audcnt := 0, audofs := 0, audskip := 0, staging := none, evHead := none, pc := Vector.replicate 8 0
    pcsel := Vector.replicate 8 0, perfsnap := Vector.replicate 8 0 }

/-- A queue record after reset (R339): TIDLE 2, THOLD 20, every other field 0. -/
def QRec.reset : QRec := ⟨(Vector.replicate 8 0).set 7 0x214⟩

/-- A free hardware slot. -/
def HwSlot.reset : HwSlot :=
  { queue := none, rec_ := .reset, level := 0, readyAt := none, lastDispatch := 0, execs := [], held := []
    wdc1 := 0, wdc2 := 0, wdc3 := 0 }

/-- Word 0 of a partition table after reset (R386): RLIM 2, AUDK 12, AGEQ 50, every other field 0. -/
def partWord0Reset : Word := 0x0000000000460320

/-- A partition after reset (R386): SFPOL 1 beside word 0. -/
def Part.reset : Part :=
  { words := ((Vector.replicate 16 0).set 0 partWord0Reset).set 6 0x0000000100000000, pending := [], fqHead := 0
    fqCount := 0, batchAt := 0, batch := [], batchOut := 0, seq := 0, lost := 0, quiesced := false, shadow := [], keys := Vector.replicate 2 0 }

/-- The memory side after reset: nothing listed. -/
def Mem.reset : Mem :=
  { hbm := [], check := [], lay := [], tags := [], lostTags := [], l2 := [], tlb := [], walkStore := [], bindings := [], strong := [], reqs := [], sampled := [], nextReq := 0
    res := [], resCnt := [], pageErr := [], err := [], leaseUse := [] }

/-- Fabric, port and front ends after reset. -/
def Io.reset : Io :=
  { slots := [], disps := [], regions := [], qps := [], feccor := [], fecunc := [], nocerr := [], ethDrop := 0
    unacked := [], endedRuns := [], copies := [], inject := [], out := [] }

/-- The state table of a module after reset: its partition tables, and no more. -/
def TableCopy.reset : TableCopy :=
  { version := 0
    body := { parts := List.replicate 4 Part.reset.words.toList, slots := [], doms := [], fenced := [], pins := [], leases := []
              mgDone := true, mgStatus := 0, islands := [] } }

/-- The module right after module reset (R389, R395, R402): basin count 0, LOCK 0, no ready bit set, MGSTAT.DONE 1.
DESIGN CHOICE (log 2): Headwater A is the complex taken as active. -/
def State.reset : State :=
  { basin := 0
    drift := { lock := false, holds := 0, pherr := 0, reqs := [], reqB := 0, rej := false }
    ready := { link := 0, fe := 0, die := 0, stack := 0, hwa := false, hwb := false, eth := false, drlock := false }
    islands := []
    hw := { activeB := false, heartbeat := false, silentAt := 0, version := 0, copyB := false, tableA := .reset, tableB := .reset, mgDone := true, mgStatus := 0, updating := false }
    parts := Vector.replicate 4 .reset
    boundary := Vector.replicate 8 0x3FF
    cores := [], doms := [], nextDom := 0, mem := .reset, io := .reset, seqs := [], audit := [], moduleId := 0
    agenda := [], calendar := [], cur := 0, freeCount := 0 }

/-! ### How a step can stop -/

/-- Faults of the model. The specification turns every fault of the part into an event with a response that State
holds, so a step stops here only where the machine has nothing to act on. -/
inductive Fault where
  /-- raised by a turn that names a core, front end or unit the module does not have (R9); safe -/
  | noSuchUnit
deriving DecidableEq, Repr

/-- Refusals of the model. -/
inductive Refusal where
  /-- an instruction whose meaning is not written; safe -/
  | notModelled (mnemonic : String)
deriving DecidableEq, Repr

end Sys2Proof.Machine
end

