-- ==== Sys2Proof/Machine/Num.lean ====
section
/-! DEFINITION. Number formats and rounding (R136, R164 to R172, R176 to R180): exact values as a sign, a natural
magnitude and a power of two; decoding, exact sums and products, and the one rounding at the end. -/

namespace Sys2Proof.Machine

/-- The six sticky flags SAT, NV, DZ, OF, UF, NX in bits 5 to 0 (R139). -/
abbrev FlagSet := BitVec 6

def flagNX : FlagSet := 0x01
def flagUF : FlagSet := 0x02
def flagOF : FlagSet := 0x04
def flagDZ : FlagSet := 0x08
def flagNV : FlagSet := 0x10
def flagSAT : FlagSet := 0x20

/-- An exact value (R136): NaN, an infinity, or (−1)^neg × mag × 2^exp; a zero keeps its sign. -/
inductive FVal
  | nan
  | inf (neg : Bool)
  | fin (neg : Bool) (mag : Nat) (exp : Int)
deriving DecidableEq, Repr, Inhabited

/-- A rounding mode with the random word that SR uses (R70, R176 to R178). -/
inductive Rnd | rne | rz | ru | rd | sr
deriving DecidableEq, Repr

/-- The rounding mode of an RND code; codes 5 to 7 are reserved and never reach a meaning. -/
def rndOf (c : BitVec 3) : Rnd :=
  match c.toNat with
  | 0 => .rne
  | 1 => .rz
  | 2 => .ru
  | 3 => .rd
  | _ => .sr

/-- A wide float format (R168): exponent bits, significand bits, bias. -/
structure FFmt where
  ebits : Nat
  mbits : Nat
  bias : Int
deriving DecidableEq, Repr

def fmtF32 : FFmt := ⟨8, 23, 127⟩
def fmtBF16 : FFmt := ⟨8, 7, 127⟩
def fmtF16 : FFmt := ⟨5, 10, 15⟩

/-- The number of bits of a magnitude; 0 for 0. -/
def bitLen (n : Nat) : Nat := if n = 0 then 0 else n.log2 + 1

/-- The generated NaN of a format (R136): 0x7FC0_0000, 0x7FC0, 0x7E00. -/
def qnan (t : FFmt) : Nat := (2 ^ t.ebits - 1) * 2 ^ t.mbits + 2 ^ (t.mbits - 1)

/-- The exponent of the last place of a subnormal of a format. -/
def fmtEmin (t : FFmt) : Int := 1 - t.bias - t.mbits

/-- The exact value of a pattern (R168, R169 for the finite codes). -/
def decodeF (t : FFmt) (p : Nat) : FVal :=
  let m := p % 2 ^ t.mbits
  let e := p / 2 ^ t.mbits % 2 ^ t.ebits
  let neg := p / 2 ^ (t.mbits + t.ebits) % 2 == 1
  if e = 2 ^ t.ebits - 1 then (if m = 0 then .inf neg else .nan)
  else if e = 0 then .fin neg m (fmtEmin t)
  else .fin neg (2 ^ t.mbits + m) (fmtEmin t + e - 1)

/-- The sign bit of a pattern's place in a format. -/
def signBit (t : FFmt) (neg : Bool) : Nat := if neg then 2 ^ (t.mbits + t.ebits) else 0

/-- Number of zero bits below the lowest 1, looked for in `fuel` places. -/
def trailing : Nat → Nat → Nat
  | 0, _ => 0
  | k + 1, n => if n % 2 = 1 then 0 else trailing k (n / 2) + 1

/-- Whether the magnitude is rounded up: `n0` the kept part, `rem` out of 2^shift the discarded part (R176, R178). -/
def roundUp (m : Rnd) (neg : Bool) (r : Nat) (n0 rem shift : Nat) : Bool :=
  match m with
  | .rne => rem * 2 > 2 ^ shift || (rem * 2 == 2 ^ shift && n0 % 2 == 1)
  | .rz => false
  | .ru => !neg && rem != 0
  | .rd => neg && rem != 0
  | .sr =>
    if rem = 0 then false
    else
      let d := shift - trailing shift rem
      if d ≤ 16 then rem / 2 ^ (shift - d) + r / 2 ^ (16 - d) ≥ 2 ^ d
      else rem * 2 ^ 16 / 2 ^ shift + r ≥ 2 ^ 16

/-- Round a magnitude to `prec` bits with no exponent below `emin` and none forbidden above: the rounded integer, its
exponent, and whether it differs from the exact value (R176). -/
def roundMag (prec : Nat) (emin : Int) (m : Rnd) (r : Nat) (neg : Bool) (mag : Nat) (e : Int) : Nat × Int × Bool :=
  let q := max (e + bitLen mag - prec) emin
  if q ≤ e then (mag * 2 ^ (e - q).toNat, q, false)
  else
    let shift := (q - e).toNat
    let n0 := mag / 2 ^ shift
    let rem := mag % 2 ^ shift
    (n0 + (if roundUp m neg r n0 rem shift then 1 else 0), q, rem != 0)

/-- The largest finite pattern of a format, without its sign. -/
def maxFinite (t : FFmt) : Nat := (2 ^ t.ebits - 1) * 2 ^ t.mbits - 1

/-- The pattern, without sign, of `n × 2^q` where `n` has at most mbits + 2 bits and q is at least emin; it may lie
beyond the largest finite pattern. -/
def packMag (mbits : Nat) (emin : Int) (n : Nat) (q : Int) : Nat :=
  let prec := mbits + 1
  if n < 2 ^ mbits then n
  else if n = 2 ^ prec then ((q - emin).toNat + 2) * 2 ^ mbits
  else ((q - emin).toNat + 1) * 2 ^ mbits + (n - 2 ^ mbits)

/-- RoundF of R136: the delivered pattern and the flags. `fz` is FPCTL.FZ, `r` the random word of SR. -/
def roundF (t : FFmt) (fz : Bool) (m : Rnd) (r : Nat) (v : FVal) : Nat × FlagSet :=
  match v with
  | .nan => (qnan t, 0)
  | .inf neg => (signBit t neg + (2 ^ t.ebits - 1) * 2 ^ t.mbits, 0)
  | .fin neg mag e =>
    if mag = 0 then (signBit t neg, 0)
    else if fz && decide (e + bitLen mag ≤ -126) then (signBit t neg, flagUF ||| flagNX)
    else
      let (n, q, inexact) := roundMag (t.mbits + 1) (fmtEmin t) m r neg mag e
      let p := packMag t.mbits (fmtEmin t) n q
      if p > maxFinite t then
        let toInf := match m with
          | .rne => true
          | .sr => true
          | .rz => false
          | .ru => !neg
          | .rd => neg
        (signBit t neg + (if toInf then maxFinite t + 1 else maxFinite t), flagOF ||| flagNX)
      else
        (signBit t neg + p,
          (if inexact then flagNX else 0) |||
            (if inexact && decide (e + bitLen mag ≤ 1 - t.bias) then flagUF else 0))

/-! ### Exact sums and products -/

/-- The signed integer of a finite value scaled by 2^−e0, for e0 at or below its exponent. -/
def scaledInt (neg : Bool) (mag : Nat) (e e0 : Int) : Int :=
  let n : Int := mag * 2 ^ (e - e0).toNat
  if neg then -n else n

/-- Exact sum (R136): the value and whether ∞ − ∞ made it invalid; `rd` is true under RD. -/
def fAdd (rd : Bool) (x y : FVal) : FVal × Bool :=
  match x, y with
  | .nan, _ => (.nan, false)
  | _, .nan => (.nan, false)
  | .inf a, .inf b => if a = b then (.inf a, false) else (.nan, true)
  | .inf a, .fin .. => (.inf a, false)
  | .fin .., .inf b => (.inf b, false)
  | .fin na ma ea, .fin nb mb eb =>
    let e0 := min ea eb
    let s := scaledInt na ma ea e0 + scaledInt nb mb eb e0
    if s = 0 then (.fin (if na = nb then na else rd) 0 0, false)
    else (.fin (decide (s < 0)) s.natAbs e0, false)

/-- Negation. -/
def fNeg : FVal → FVal
  | .nan => .nan
  | .inf a => .inf (!a)
  | .fin a m e => .fin (!a) m e

/-- Exact product (R136, R141): the value and whether 0 × ∞ made it invalid. -/
def fMul (x y : FVal) : FVal × Bool :=
  match x, y with
  | .nan, _ => (.nan, false)
  | _, .nan => (.nan, false)
  | .inf a, .inf b => (.inf (a != b), false)
  | .inf a, .fin b m _ => if m = 0 then (.nan, true) else (.inf (a != b), false)
  | .fin a m _, .inf b => if m = 0 then (.nan, true) else (.inf (a != b), false)
  | .fin a ma ea, .fin b mb eb => (.fin (a != b) (ma * mb) (ea + eb), false)

/-- Exact a × b + c with the invalid flag of R141. -/
def fFma (rd : Bool) (a b c : FVal) : FVal × Bool :=
  let (p, i1) := fMul a b
  let (s, i2) := fAdd rd p c
  (s, i1 || i2)

/-- Exact sum of products, each with its own invalid flag, from a first value (R152, R180). -/
def fSum (rd : Bool) (s : FVal) (inv : Bool) : List (FVal × Bool) → FVal × Bool
  | [] => (s, inv)
  | (p, i) :: ps =>
    let (s', i') := fAdd rd s p
    fSum rd s' (inv || i || i') ps

/-- Whether infinities of both signs stand among the terms of a sum. -/
def infClash (vs : List FVal) : Bool := vs.any (· == .inf false) && vs.any (· == .inf true)

/-- A first value plus exact products (R152, R180): NaN and the invalid flag for a product of 0 and ∞ or for infinities
of both signs, whatever else stands in the sum. -/
def fDot (rd : Bool) (c : FVal) (ps : List (FVal × Bool)) : FVal × Bool :=
  let inv := ps.any (·.2) || infClash (c :: ps.map (·.1))
  (if inv then .nan else (fSum rd c false ps).1, inv)

/-- Comparison of values, NaN apart: true when x < y, with −0 equal to +0. -/
def fLt (x y : FVal) : Bool :=
  match x, y with
  | .nan, _ => false
  | _, .nan => false
  | .inf a, .inf b => a && !b
  | .inf a, .fin .. => a
  | .fin .., .inf b => !b
  | .fin na ma ea, .fin nb mb eb =>
    let e0 := min ea eb
    decide (scaledInt na ma ea e0 < scaledInt nb mb eb e0)

/-- Equality of values, NaN apart, with −0 equal to +0. -/
def fEq (x y : FVal) : Bool :=
  match x, y with
  | .nan, _ => false
  | _, .nan => false
  | .inf a, .inf b => a == b
  | .inf _, .fin .. => false
  | .fin .., .inf _ => false
  | .fin na ma ea, .fin nb mb eb =>
    let e0 := min ea eb
    decide (scaledInt na ma ea e0 = scaledInt nb mb eb e0)

/-- Whether a value is NaN. -/
def FVal.isNan : FVal → Bool
  | .nan => true
  | _ => false

/-- Whether a value carries a minus sign. -/
def FVal.neg : FVal → Bool
  | .nan => false
  | .inf a => a
  | .fin a _ _ => a

/-- The order of VMIN and VMAX (R142): as by value, with −0 below +0. -/
def fLtZ (x y : FVal) : Bool := fLt x y || (fEq x y && x.neg && !y.neg)

/-- A value times 2^k. -/
def fScale (k : Int) : FVal → FVal
  | .nan => .nan
  | .inf a => .inf a
  | .fin a m e => .fin a m (e + k)

/-- The value of an integer. -/
def fOfInt (n : Int) : FVal := .fin (decide (n < 0)) n.natAbs 0

/-- A quotient of finite values with a sticky last bit, so that one rounding of it is the rounding of the exact
quotient (R228: O / l). The divisor is not zero. -/
def fDiv (x y : FVal) : FVal :=
  match x, y with
  | .nan, _ => .nan
  | _, .nan => .nan
  | .inf _, .inf _ => .nan
  | .inf a, .fin b _ _ => .inf (a != b)
  | .fin a _ _, .inf b => .fin (a != b) 0 0
  | .fin a ma ea, .fin b mb eb =>
    if mb = 0 then (if ma = 0 then .nan else .inf (a != b))
    else
      let k := bitLen mb + 128
      let q := ma * 2 ^ k / mb
      let sticky := if ma * 2 ^ k % mb = 0 then 0 else 1
      .fin (a != b) (q * 2 + sticky) (ea - eb - k - 1)

/-- A finite value rounded to an integer under a mode (R153): the integer and whether it was inexact. -/
def roundInt (m : Rnd) (r : Nat) (neg : Bool) (mag : Nat) (e : Int) : Int × Bool :=
  if e ≥ 0 then (scaledInt neg mag e 0, false)
  else
    let shift := (-e).toNat
    let n0 := mag / 2 ^ shift
    let rem := mag % 2 ^ shift
    let n : Int := n0 + (if roundUp m neg r n0 rem shift then 1 else 0)
    (if neg then -n else n, rem != 0)

/-! ### Narrow kinds (R164, R169 to R172) -/

/-- KIND codes 1 to 6 of R164. -/
inductive Kind | e4m3 | e5m2 | e3m2 | e2m3 | e2m1 | int4
deriving DecidableEq, Repr

/-- The narrow kind of a KIND code. -/
def kindOf (k : Nat) : Option Kind :=
  match k with
  | 1 => some .e4m3
  | 2 => some .e5m2
  | 3 => some .e3m2
  | 4 => some .e2m3
  | 5 => some .e2m1
  | 6 => some .int4
  | _ => none

/-- Exponent bits, significand bits and bias of a float kind; INT4 has none. -/
def kindFmt : Kind → FFmt
  | .e4m3 => ⟨4, 3, 7⟩
  | .e5m2 => ⟨5, 2, 15⟩
  | .e3m2 => ⟨3, 2, 3⟩
  | .e2m3 => ⟨2, 3, 1⟩
  | .e2m1 => ⟨2, 1, 1⟩
  | .int4 => ⟨0, 3, 0⟩

/-- The bits of an element of a kind (R169, R172). -/
def kindBits : Kind → Nat
  | .e4m3 => 8
  | .e5m2 => 8
  | .e3m2 => 6
  | .e2m3 => 6
  | .e2m1 => 4
  | .int4 => 4

/-- Whether a kind has NaN codes. -/
def kindHasNan : Kind → Bool
  | .e4m3 => true
  | .e5m2 => true
  | _ => false

/-- KindValue (R169 to R172): the exact value of a code. -/
def kindValue (k : Kind) (p : Nat) : FVal :=
  match k with
  | .int4 => let n := p % 16; fOfInt (if n ≥ 8 then (n : Int) - 16 else n)
  | .e5m2 => decodeF (kindFmt .e5m2) (p % 256)
  | _ =>
    let t := kindFmt k
    let p := p % 2 ^ kindBits k
    let m := p % 2 ^ t.mbits
    let e := p / 2 ^ t.mbits % 2 ^ t.ebits
    let neg := p / 2 ^ (t.mbits + t.ebits) % 2 == 1
    if (k == .e4m3) && e == 15 && m == 7 then .nan
    else if e = 0 then .fin neg m (fmtEmin t)
    else .fin neg (2 ^ t.mbits + m) (fmtEmin t + e - 1)

/-- The largest finite code of a float kind, without sign (R169). -/
def kindMax : Kind → Nat
  | .e4m3 => 0x7E
  | .e5m2 => 0x7B
  | .e3m2 => 0x1F
  | .e2m3 => 0x1F
  | .e2m1 => 0x7
  | .int4 => 7

/-- The NaN code of a kind with the source's sign, or +0 with NV where the kind has none (R153, R169). -/
def kindNan (k : Kind) (neg : Bool) : Nat × FlagSet :=
  match k with
  | .e4m3 => (if neg then 0xFF else 0x7F, 0)
  | .e5m2 => (if neg then 0xFF else 0x7F, 0)
  | _ => (0, flagNV)

/-- Conversion of a value to a narrow kind under a block scale exponent `s` (none for a scale of 0xFF): R153, with FZ
tested on the value before the division by the scale (R179). -/
def toKind (k : Kind) (fz : Bool) (m : Rnd) (r : Nat) (s : Option Int) (v : FVal) : Nat × FlagSet :=
  match s with
  | none => kindNan k v.neg
  | some s =>
    match k, v with
    | .int4, .nan => (0, flagNV)
    | .int4, .inf neg => (if neg then 8 else 7, flagOF)
    | .int4, .fin neg mag e =>
      if mag = 0 then (0, 0)
      else if fz && decide (e + bitLen mag ≤ -126) then (0, flagUF ||| flagNX)
      else
        let (n, inexact) := roundInt m r neg mag (e - s)
        if n < -8 then (8, flagOF ||| flagNX)
        else if n > 7 then (7, flagOF ||| flagNX)
        else ((n % 16).toNat, if inexact then flagNX else 0)
    | k, .nan => kindNan k false
    | k, .inf neg =>
      let sg := if neg then 2 ^ (kindBits k - 1) else 0
      if k = .e5m2 then (sg + 0x7C, 0) else (sg + kindMax k, flagOF)
    | k, .fin neg mag e =>
      let t := kindFmt k
      let sg := if neg then 2 ^ (kindBits k - 1) else 0
      if mag = 0 then (sg, 0)
      else if fz && decide (e + bitLen mag ≤ -126) then (sg, flagUF ||| flagNX)
      else
        let (n, q, inexact) := roundMag (t.mbits + 1) (fmtEmin t) m r neg mag (e - s)
        let p := packMag t.mbits (fmtEmin t) n q
        if p > kindMax k then (sg + kindMax k, flagOF ||| flagNX)
        else
          (sg + p, (if inexact then flagNX else 0) |||
            (if inexact && decide (e - s + bitLen mag ≤ 1 - t.bias) then flagUF else 0))

/-! ### Stochastic rounding (R177) -/

/-- One draw of a generator (R177): the new state and the 16-bit random word. -/
def srDraw (g : Half) : Half × Nat :=
  let g := if g = 0 then 0x9E3779B9 else g
  let g := g ^^^ (g <<< 13)
  let g := g ^^^ (g >>> 17)
  let g := g ^^^ (g <<< 5)
  (g, (g >>> 16).toNat)

end Sys2Proof.Machine
end

