-- ==== Sys2Proof/Machine/Ops.lean ====
section
/-! DEFINITION. The named operations over state: sparse tables, bytes, cores, time, register files, results in flight,
and taking a trap of the control core with the return from it. -/

namespace Sys2Proof.Machine

/-! ### Sparse tables -/

/-- The entry at key `k`. -/
def sget {α : Type} : Sparse α → Nat → Option α
  | [], _ => none
  | (j, v) :: t, k => if j = k then some v else sget t k

/-- Set the entry at key `k`, keeping the keys rising. -/
def sinsert {α : Type} : Sparse α → Nat → α → Sparse α
  | [], k, v => [(k, v)]
  | (j, w) :: t, k, v =>
    if k < j then (k, v) :: (j, w) :: t
    else if k = j then (k, v) :: t
    else (j, w) :: sinsert t k v

/-- Remove the entry at key `k`. -/
def serase {α : Type} : Sparse α → Nat → Sparse α
  | [], _ => []
  | (j, w) :: t, k => if j = k then t else (j, w) :: serase t k

/-- Write `v` at key `k` of a table whose unlisted keys read `d`: writing `d` removes the entry. -/
def sput {α : Type} [DecidableEq α] (d : α) (l : Sparse α) (k : Nat) (v : α) : Sparse α :=
  if v = d then serase l k else sinsert l k v

/-- Keys strictly rising from `lo` on, and no entry equal to `d`. -/
def swfFrom {α : Type} [DecidableEq α] (d : α) : Nat → Sparse α → Bool
  | _, [] => true
  | lo, (j, v) :: t => decide (lo ≤ j) && decide (v ≠ d) && swfFrom d (j + 1) t

/-- The canonical form of a sparse table whose unlisted keys read `d`. -/
def swf {α : Type} [DecidableEq α] (d : α) (l : Sparse α) : Bool := swfFrom d 0 l

/-- The canonical form of a byte store: every store of bytes here reads `0` where it lists nothing. -/
def Memory.wf (m : Sparse Byte) : Bool := swf 0 m

/-! ### Bytes -/

/-- One byte of a store; an unlisted byte reads `0` (log 3). -/
def byteAt (m : Sparse Byte) (a : Nat) : Byte := (sget m a).getD 0

/-- Write one byte. -/
def setByte (m : Sparse Byte) (a : Nat) (b : Byte) : Sparse Byte := sput 0 m a b

/-- `n` bytes from address `a` upwards. -/
def readBytes (m : Sparse Byte) (a : Nat) : Nat → List Byte
  | 0 => []
  | n + 1 => byteAt m a :: readBytes m (a + 1) n

/-- Store bytes from address `a` upwards. -/
def writeBytes (m : Sparse Byte) (a : Nat) : List Byte → Sparse Byte
  | [] => m
  | b :: bs => writeBytes (setByte m a b) (a + 1) bs

/-- Store the bytes of `bs` whose mask bit is 1. -/
def writeMasked (m : Sparse Byte) (a : Nat) (mask : Nat) : List Byte → Sparse Byte
  | [] => m
  | b :: bs => writeMasked (if mask % 2 = 1 then setByte m a b else m) (a + 1) (mask / 2) bs

/-- The number held by bytes, byte 0 least significant (R4). -/
def bytesVal : List Byte → Nat
  | [] => 0
  | b :: bs => b.toNat + 256 * bytesVal bs

/-- `n` bytes of a number, byte 0 least significant (R4). -/
def bytesOf (v : Nat) : Nat → List Byte
  | 0 => []
  | n + 1 => BitVec.ofNat 8 v :: bytesOf (v / 256) n

/-- A number read from `n` bytes at `a`. -/
def readNat (m : Sparse Byte) (a n : Nat) : Nat := bytesVal (readBytes m a n)

/-- A list cut or padded with zeros to `n` bytes. -/
def fitBytes (bs : List Byte) (n : Nat) : List Byte := (bs ++ List.replicate n 0).take n

/-- Bits `[lo + len − 1 : lo]` of a number. -/
def bitsOf (v lo len : Nat) : Nat := v / 2 ^ lo % 2 ^ len

/-- Bit `i` of a number. -/
def bitOf (v i : Nat) : Bool := v / 2 ^ i % 2 == 1

/-- 1 or 0. -/
def natOfBool (b : Bool) : Nat := if b then 1 else 0

/-- The two's-complement integer of an `n`-bit pattern. -/
def sext (v n : Nat) : Int := if bitOf (v % 2 ^ n) (n - 1) then (v % 2 ^ n : Nat) - (2 ^ n : Nat) else (v % 2 ^ n : Nat)

/-- An integer reduced modulo 2^n. -/
def wrapInt (v : Int) (n : Nat) : Nat := (v % (2 ^ n : Nat)).toNat

/-- `old` with bits `[lo + len − 1 : lo]` taken from the low bits of `data` (R131). -/
def putBits (old : VWord) (lo len : Nat) (data : VWord) : VWord :=
  let m : VWord := BitVec.ofNat 1024 (2 ^ len - 1) <<< lo
  (old &&& ~~~m) ||| ((data <<< lo) &&& m)

/-- Insert `x` before the first element that does not precede it. -/
def insertBy {α : Type} (before : α → α → Bool) (x : α) : List α → List α
  | [] => [x]
  | y :: t => if before y x then y :: insertBy before x t else x :: y :: t

/-- A stable sort: elements of which neither precedes keep their order. -/
def sortBy {α : Type} (before : α → α → Bool) : List α → List α
  | [] => []
  | x :: t => insertBy before x (sortBy before t)

/-! ### Cores and domains -/

/-- Core `c`; a core not listed is as module reset leaves it (R10). -/
def State.core (s : State) (c : Nat) : Core := (sget s.cores c).getD Core.reset

def State.setCore (s : State) (c : Nat) (k : Core) : State := { s with cores := sinsert s.cores c k }

def State.modCore (s : State) (c : Nat) (f : Core → Core) : State := s.setCore c (f (s.core c))

def State.modBe (s : State) (c : Nat) (f : Be → Be) : State := s.modCore c fun k => { k with be := f k.be }

def State.modCc (s : State) (c : Nat) (f : Cc → Cc) : State := s.modCore c fun k => { k with cc := f k.cc }

def State.modEng (s : State) (c : Nat) (f : Engines → Engines) : State := s.modCore c fun k => { k with eng := f k.eng }

def State.modFab (s : State) (c : Nat) (f : Fabric → Fabric) : State := s.modCore c fun k => { k with fab := f k.fab }

/-- A live, frozen, evicted or ended domain. -/
def State.dom (s : State) (d : Nat) : Option Domain := sget s.doms d

def State.setDom (s : State) (d : Nat) (v : Domain) : State := { s with doms := sinsert s.doms d v }

def State.modDom (s : State) (d : Nat) (f : Domain → Domain) : State :=
  match s.dom d with
  | some v => s.setDom d (f v)
  | none => s

/-- The domain that core `c` belongs to (R16). -/
def State.domOf (s : State) (c : Nat) : Option Domain := (s.core c).dom.bind s.dom

/-- The domain's SC (R17): b − B0 − H, standing still while it is frozen or evicted. -/
def Domain.sc (d : Domain) (basin : Nat) : Nat :=
  match d.phase with
  | .frozen => d.frozenAt - d.b0 - d.h
  | .evicted => d.frozenAt - d.b0 - d.h
  | _ => basin - d.b0 - d.h

/-- The SC that core `c` sees; with no domain it is the basin count (DESIGN CHOICE, log 6). -/
def State.sc (s : State) (c : Nat) : Nat :=
  match s.domOf c with
  | some d => d.sc s.basin
  | none => s.basin

/-- Whether the core's domain runs Timed: CALCTL.DISC (R198). -/
def State.timed (s : State) (c : Nat) : Bool := (s.core c).cc.calctl.getLsbD 3

/-- The window-read mode of the core: CALCTL.WRMODE (R99). -/
def State.wrmode (s : State) (c : Nat) : Nat := (s.core c).cc.calctl.toNat % 4

/-- FPCTL.FZ (R197). -/
def State.fz (s : State) (c : Nat) : Bool := (s.core c).cc.fpctl.getLsbD 0

/-- Whether core `c` runs now: it has no domain, or its domain is running. -/
def State.live (s : State) (c : Nat) : Bool :=
  match s.domOf c with
  | some d => d.phase == .running
  | none => true

/-- The die of a core (R10). -/
def dieOf (c : Nat) : Nat := c / 512

/-- The partition that owns a compute die (R14, R386): the lowest with V set and the die in DMASK. -/
def State.partOfDie (s : State) (die : Nat) : Option Nat :=
  (List.range 4).find? fun p =>
    match s.parts[p]? with
    | some t => let w := (t.words[0]?.getD 0).toNat; bitOf w 63 && bitOf w (24 + die)
    | none => false

/-- The partition that owns a front end (R14, R386). -/
def State.partOfFe (s : State) (fe : Nat) : Option Nat :=
  (List.range 4).find? fun p =>
    match s.parts[p]? with
    | some t => let w := (t.words[0]?.getD 0).toNat; bitOf w 63 && bitOf w (32 + fe)
    | none => false

/-- Partition `p`; there are four. -/
def State.part (s : State) (p : Nat) : Part := s.parts[p]?.getD Part.reset

def State.modPart (s : State) (p : Nat) (f : Part → Part) : State :=
  { s with parts := s.parts.setIfInBounds p (f (s.part p)) }

/-- Word `i` of partition table `p`, as a number. -/
def State.partWord (s : State) (p i : Nat) : Nat := ((s.part p).words[i]?.getD 0).toNat

/-- The number of the partition whose live table is `p`: the lowest quarter, save that two halves are 0 and 1 (R14). -/
def State.partNo (s : State) (p : Nat) : Nat :=
  let valid := (List.range 4).filter fun q => bitOf (s.partWord q 0) 63
  if valid.all (fun q => bitsOf (s.partWord q 0) 61 2 == 1) && valid.length == 2 then p / 2 else p

/-- The partition of core `c`: its domain's, or its die's. -/
def State.partOf (s : State) (c : Nat) : Nat :=
  match s.domOf c with
  | some d => d.part
  | none => (s.partOfDie (dieOf c)).getD 0

/-! ### Register files (R67, R95, R111) -/

/-- Loop-register source `n` of CPX (R111). -/
def lpRead (loops : Vector LoopLevel 4) (n : Nat) : Nat :=
  let l := loops[n % 4]?.getD LoopLevel.reset
  match n / 4 with
  | 0 => natOfBool l.act * 2 ^ 32 + l.lc.toNat
  | 1 => l.li.toNat
  | 2 => l.lb.toNat
  | _ => l.le.toNat

/-- Register `r` of the file with code `f` of R67, zero-extended; sa0 reads zero. Codes 11 and 16 are the model's own
for the holding registers and the stride registers. -/
def Be.read (b : Be) (f r : Nat) : VWord :=
  match f with
  | 0 => if r = 0 then 0 else ((b.regs.sa[r]?).getD 0).setWidth 1024
  | 1 => ((b.regs.sb[r]?).getD 0).setWidth 1024
  | 2 => ((b.regs.ma[r]?).getD 0).setWidth 1024
  | 3 => ((b.regs.mb[r]?).getD 0).setWidth 1024
  | 4 => ((b.regs.xf[r]?).getD 0).setWidth 1024
  | 5 => BitVec.ofNat 1024 (lpRead b.loops r)
  | 6 => (b.regs.va[r]?).getD 0
  | 7 => (b.regs.vb[r]?).getD 0
  | 8 => (b.regs.vc[r]?).getD 0
  | 9 => (b.regs.fs[r]?).getD 0
  | 10 => ((b.regs.st[r]?).getD 0).setWidth 1024
  | 11 => (b.regs.mh[r]?).getD 0
  | 16 => (((b.loops[r / 32]?).getD LoopLevel.reset).str[r % 32]?.getD 0).setWidth 1024
  | _ => 0

/-- Write a whole register of a file; a write to sa0 is discarded (R95). -/
def Be.write (b : Be) (f r : Nat) (v : VWord) : Be :=
  match f with
  | 0 => if r = 0 then b else { b with regs := { b.regs with sa := b.regs.sa.setIfInBounds r (v.setWidth 64) } }
  | 1 => { b with regs := { b.regs with sb := b.regs.sb.setIfInBounds r (v.setWidth 64) } }
  | 2 => { b with regs := { b.regs with ma := b.regs.ma.setIfInBounds r (v.setWidth 48) } }
  | 3 => { b with regs := { b.regs with mb := b.regs.mb.setIfInBounds r (v.setWidth 48) } }
  | 4 => { b with regs := { b.regs with xf := b.regs.xf.setIfInBounds r (v.setWidth 64) } }
  | 6 => { b with regs := { b.regs with va := b.regs.va.setIfInBounds r v } }
  | 7 => { b with regs := { b.regs with vb := b.regs.vb.setIfInBounds r v } }
  | 8 => { b with regs := { b.regs with vc := b.regs.vc.setIfInBounds r v } }
  | 9 => { b with regs := { b.regs with fs := b.regs.fs.setIfInBounds r v } }
  | 10 => { b with regs := { b.regs with st := b.regs.st.setIfInBounds r (v.setWidth 64) } }
  | 11 => { b with regs := { b.regs with mh := b.regs.mh.setIfInBounds r v } }
  | 16 =>
    let l := (b.loops[r / 32]?).getD LoopLevel.reset
    { b with loops := b.loops.setIfInBounds (r / 32) { l with str := l.str.setIfInBounds (r % 32) (v.setWidth 48) } }
  | _ => b

/-- A scalar or address register as a number. -/
def Be.readNat (b : Be) (f r : Nat) : Nat := (b.read f r).toNat

/-- The width in bits of a register of a file (R67). -/
def fileBits (f : Nat) : Nat :=
  match f with
  | 0 => 64
  | 1 => 64
  | 2 => 48
  | 3 => 48
  | 4 => 64
  | 5 => 64
  | 10 => 64
  | 16 => 48
  | _ => 1024

/-! ### Results in flight (R66, R98, R140) -/

/-- Whether landing `a` is the later one under R66: by issue SC, then by slot. -/
def Landing.later (a b : Landing) : Bool := b.issue < a.issue || (a.issue == b.issue && b.rank < a.rank)

/-- Whether a landing is discarded by another that lands with it in the same register (R66, R132). -/
def Landing.beaten (ls : List Landing) (l : Landing) : Bool :=
  ls.any fun k => k.file == l.file && k.reg == l.reg && k.later l

/-- The flags of a landing, in its slot's byte of VFLAGS (R139, R140). -/
def Landing.flagWord (l : Landing) : Word := (l.flags.setWidth 64) <<< (8 * l.flagSlot)

/-- Write a landing's bits to its register (R131). -/
def Be.writeLanding (b : Be) (l : Landing) : Be := b.write l.file l.reg (putBits (b.read l.file l.reg) l.lo l.len l.data)

/-- Whether a write window over register `r` of file `f` covers SC `sc` (R98). A load whose data has not come yet keeps
its window open (R257). -/
def Be.inWindow (b : Be) (sc f r : Nat) : Bool :=
  b.landings.any fun l => l.file == f && l.reg == r && l.issue < sc && (sc < l.due || l.src.isSome)

/-- Whether results of the bundle engine are still to land (R124). -/
def Be.pendingResults (b : Be) : Bool := !b.landings.isEmpty

/-- The bundle engine counts as idle: idle, halted or stopped by a trap, with no result to land (R124, R127). -/
def Be.isIdle (b : Be) : Bool := (b.state == .idle || b.state == .trapped) && b.landings.isEmpty

/-- A result of slot `rank` to bits `lo` upwards of a register, landing after `lat` SC. -/
def State.land (s : State) (rank file reg lo len : Nat) (data : VWord) (lat : Nat) (flags : FlagSet := 0) : State :=
  let c := s.cur
  let sc := s.sc c
  s.modBe c fun b =>
    { b with landings := b.landings ++
        [{ file, reg, lo, len, data, due := sc + lat, issue := sc, rank, flags, flagSlot := rank - 2, src := none }] }

/-- Land a 64-bit result in a scalar register (R104); nothing lands in sa0, and it opens no window (R95). -/
def State.landScalar (s : State) (rank file reg : Nat) (v : Word) (lat : Nat) : State :=
  if file = 0 ∧ reg = 0 then s else s.land rank file reg 0 64 (v.setWidth 1024) lat

/-! ### The control core (R181 to R187) -/

/-- Register x[r]; x0 reads zero. -/
def Cc.xr (k : Cc) (r : BitVec 5) : Word := if r = 0 then 0 else (k.x[r.toNat]?).getD 0

/-- Write x[r]; a write to x0 is discarded. -/
def Cc.setX (k : Cc) (r : BitVec 5) (v : Word) : Cc := if r = 0 then k else { k with x := k.x.setIfInBounds r.toNat v }

/-- The base of the monitor region: mtvec, in direct mode (R184, R251). -/
def mtvecOf (k : Core) : Word := ((k.eng.regions[14]?).getD 0).setWidth 32 |>.setWidth 64

/-- mstatus with the fields of R184 alone: MIE 3, MPIE 7, MPP 12:11, MPRV 17, TW 21. -/
def mstatusMask : Word := 0x0000000000221888

/-- The code of a mode in MPP. -/
def modeBits : Mode → Word
  | .u => 0
  | .m => 0x1800

/-- mstatus after a trap from `m`: MPIE takes MIE, MIE is cleared, MPP holds the mode. -/
def trapStatus (st : Word) (md : Mode) : Word :=
  (st &&& 0x0000000000220000) ||| (if st.getLsbD 3 then 0x80 else 0) ||| modeBits md

/-- The detail registers of an event that a trap writes together (R199): TCAUSE, FADDR, FCOORD and FSC. -/
structure TrapInfo where
  tcause : Word
  faddr : Word
  fcoord : Word
  fsc : Word
deriving DecidableEq, Repr

/-- TCAUSE of an event (R199). -/
def tcauseOf (e : Ev) : Word :=
  BitVec.ofNat 64 (e.tcode.toNat * 2 ^ 48 + e.cause.toNat * 2 ^ 40 + e.subcause.toNat * 2 ^ 32 + e.engine * 2 ^ 28
    + e.slot * 2 ^ 24)

/-- Taking a trap of the control core: mepc saves the pc, mcause and mtval name the cause, mstatus is pushed, the mode
becomes M and the pc the base of the monitor region (R181, R184, R185). A trap ends an LR reservation (R182) and a
wait (R191); the wait of a cal.ovly, whose entry is issued once, goes on at the return (R195; log 43). Where the trap carries an event, TCAUSE, FADDR, FCOORD and FSC are written together (R199). -/
def Core.takeTrap (k : Core) (cause tval : Word) (info : Option TrapInfo) : Core :=
  let cc := k.cc
  let cc := { cc with
    mepc := cc.pc, mcause := cause, mtval := tval, mstatus := trapStatus cc.mstatus cc.mode, mode := .m
    pc := mtvecOf k, resv := none, state := .running
    ovly := match cc.state with
      | .waitOvly m => some (m, cc.pc, cc.mode)
      | _ => cc.ovly }
  let cc := match info with
    | some i => { cc with tcause := i.tcause, faddr := i.faddr, fcoord := i.fcoord, fsc := i.fsc }
    | none => cc
  { k with cc }

/-- The activity to which a return to `pc` in mode `md` comes back: the wait of a cal.ovly interrupted there, or else
execution (R195). -/
def Cc.returnState (k : Cc) (pc : Word) (md : Mode) : CcState :=
  match k.ovly with
  | some (m, p, d) => if p = pc ∧ d = md then .waitOvly m else .running
  | none => .running

/-- MRET (R184): the pc and the mode come back from mepc and MPP; MIE takes MPIE, MPIE is set, MPP becomes U, and MPRV
is cleared on a return to U mode. -/
def Core.mretCore (k : Core) : Core :=
  let st := k.cc.mstatus
  let toM := st.getLsbD 11 && st.getLsbD 12
  let md : Mode := if toM then .m else .u
  let state := k.cc.returnState k.cc.mepc md
  let st' : Word := (if st.getLsbD 7 then 0x8 else 0) ||| 0x80 ||| (st &&& 0x200000) |||
    (if toM then st &&& 0x20000 else 0)
  { k with cc := { k.cc with
      pc := k.cc.mepc, mode := md, mstatus := st', state, ovly := if state = .running then k.cc.ovly else none } }

/-- Queue a turn at the front of this cycle's agenda. -/
def State.soon (s : State) (t : Turn) : State := { s with agenda := t :: s.agenda }

/-- Queue a turn for basin count `b`. -/
def State.schedule (s : State) (b : Nat) (t : Turn) : State :=
  { s with calendar := s.calendar ++ [{ clock := none, at_ := b, turn := t }] }

/-- Send a message out of the module. -/
def State.emit (s : State) (m : OutMsg) : State := { s with io := { s.io with out := s.io.out ++ [m] } }

end Sys2Proof.Machine
end

