-- ==== Sys2Proof/Machine/Codes.lean ====
section
/-! DEFINITION. The sector codes (R288 to R293) and the CRCs (R309, R388). A sector's stored check word is held as its
difference from Check(data); the codes are linear, so that difference is the remainder from which a sector decodes. -/

namespace Sys2Proof.Machine

/-! ### Binary fields -/

/-- Multiplication in GF(2^m) by shift and add: `poly` is the primitive polynomial with its top bit. -/
def gfMulAux (poly mbits : Nat) : Nat → Nat → Nat → Nat
  | 0, _, _ => 0
  | k + 1, a, b =>
    let a2 := a * 2
    let a2 := if bitOf a2 mbits then a2 ^^^ poly else a2
    (if b % 2 = 1 then a else 0) ^^^ gfMulAux poly mbits k a2 (b / 2)

/-- A binary field: its primitive polynomial and its degree. -/
structure Gf where
  poly : Nat
  m : Nat
deriving DecidableEq, Repr

/-- GF(2^8) of the Reed–Solomon code and GF(2^9) of the critical code (R289). -/
def gf8 : Gf := ⟨0x11D, 8⟩
def gf9 : Gf := ⟨0x211, 9⟩

def Gf.mul (g : Gf) (a b : Nat) : Nat := gfMulAux g.poly g.m g.m a b

/-- a^n by squaring over the bits of n, at most `fuel` of them. -/
def Gf.powAux (g : Gf) : Nat → Nat → Nat → Nat
  | 0, _, _ => 1
  | k + 1, a, n => g.mul (if n % 2 = 1 then a else 1) (g.powAux k (g.mul a a) (n / 2))

def Gf.pow (g : Gf) (a n : Nat) : Nat := g.powAux 10 a n

/-- α^n; the multiplicative group has 2^m − 1 elements. -/
def Gf.alpha (g : Gf) (n : Nat) : Nat := g.pow 2 (n % (2 ^ g.m - 1))

def Gf.inv (g : Gf) (a : Nat) : Nat := g.pow a (2 ^ g.m - 2)

/-- Value of a polynomial, lowest coefficient first. -/
def Gf.eval (g : Gf) (x : Nat) : List Nat → Nat
  | [] => 0
  | c :: cs => c ^^^ g.mul x (g.eval x cs)

/-- Product of polynomials. -/
def Gf.polyMul (g : Gf) : List Nat → List Nat → List Nat
  | [], _ => []
  | a :: as, b =>
    let r := 0 :: g.polyMul as b
    let h := b.map (g.mul a)
    (List.range (max r.length h.length)).map fun i => (r[i]?.getD 0) ^^^ (h[i]?.getD 0)

/-- State of Berlekamp–Massey: connection polynomial, previous one, length, gap, previous discrepancy. -/
structure Bm where
  c : List Nat
  b : List Nat
  l : Nat
  gap : Nat
  d : Nat
deriving DecidableEq, Repr

/-- One step of Berlekamp–Massey for syndrome number `n` of `S`. -/
def bmStep (g : Gf) (S : List Nat) (st : Bm) (n : Nat) : Bm :=
  let disc := (List.range (st.l + 1)).foldl (fun a i => a ^^^ g.mul (st.c[i]?.getD 0) (S[n - i]?.getD 0)) 0
  if disc = 0 then { st with gap := st.gap + 1 }
  else
    let coef := g.mul disc (g.inv st.d)
    let sh := List.replicate st.gap 0 ++ st.b.map (g.mul coef)
    let c' := (List.range (max st.c.length sh.length)).map fun i => (st.c[i]?.getD 0) ^^^ (sh[i]?.getD 0)
    if 2 * st.l ≤ n then { c := c', b := st.c, l := n + 1 - st.l, gap := 1, d := disc }
    else { st with c := c', gap := st.gap + 1 }

/-- The error locator of a list of syndromes, with its degree. -/
def locator (g : Gf) (S : List Nat) : List Nat × Nat :=
  let st := (List.range S.length).foldl (bmStep g S) { c := [1], b := [1], l := 0, gap := 1, d := 1 }
  (st.c, st.l)

/-- Positions below `n` at which a locator vanishes. -/
def locatorRoots (g : Gf) (n : Nat) (c : List Nat) : List Nat :=
  (List.range n).filter fun i => g.eval (g.alpha ((2 ^ g.m - 1) - i % (2 ^ g.m - 1))) c = 0

/-! ### Decoding (R289, R292) -/

/-- Reed–Solomon: the errors as (symbol, value) pairs, symbol j below 8 being check symbol j and 8 + j data byte j;
none where the remainder is uncorrectable. -/
def rsDecode (delta : Nat) : Option (List (Nat × Nat)) :=
  if delta = 0 then some []
  else
    let g := gf8
    let syms := (List.range 8).map fun i => bitsOf delta (8 * i) 8
    let S := (List.range 8).map fun j => g.eval (g.alpha j) syms
    let loc := locator g S
    let c := loc.1
    let l := loc.2
    let pos := locatorRoots g 72 c
    if l > 4 ∨ pos.length ≠ l then none
    else
      let om := (g.polyMul S c).take 8
      let der := (List.range (c.length - 1)).map fun i => if i % 2 = 0 then c.getD (i + 1) 0 else 0
      some (pos.map fun i =>
        let x := g.alpha i
        let xi := g.inv x
        (i, g.mul x (g.mul (g.eval xi om) (g.inv (g.eval xi der)))))

/-- The critical code: the positions in error, below 28 check bits and 28 + j critical bit j; none where uncorrectable. -/
def bchDecode (rem ncrit : Nat) : Option (List Nat) :=
  if rem = 0 then some []
  else
    let g := gf9
    let bits := (List.range 28).map fun i => natOfBool (bitOf rem i)
    let S := (List.range 6).map fun j => g.eval (g.alpha (j + 1)) bits
    let par := bits.foldl (· ^^^ ·) 0
    let (c, l) := locator g S
    let pos := locatorRoots g (28 + ncrit) c
    if l > 3 ∨ pos.length ≠ l ∨ l % 2 ≠ par then none else some pos

/-- The classes of a bit of an element (R290). -/
inductive BitClass | critical | middle | low
deriving DecidableEq, Repr

/-- Class of bit `b` of an element whose critical bits start at `c` and middle bits at `m`. -/
def classAt (c mid b : Nat) : BitClass := if c ≤ b then .critical else if mid ≤ b then .middle else .low

/-- The class of page bit `p` under a layout (R290). -/
def bitClass (layout p : Nat) : BitClass :=
  match layout with
  | 1 => classAt 23 13 (p % 32)
  | 2 => classAt 7 3 (p % 16)
  | 3 => classAt 10 4 (p % 16)
  | 4 => classAt 3 1 (p % 8)
  | 5 => classAt 2 1 (p % 8)
  | 6 => classAt 2 1 (p % 6)
  | 7 => classAt 3 1 (p % 6)
  | 8 => classAt 1 0 (p % 4)
  | 9 => if p % 16 = 0 then .critical else classAt 8 1 (p % 16)
  | 10 => classAt 5 2 (p % 8)
  | _ => .critical

/-- The sector bits of one class, in increasing order; `p0` is the page bit of the sector's bit 0. -/
def classBits (layout p0 : Nat) (k : BitClass) : List Nat :=
  (List.range 512).filter fun n => bitClass layout (p0 + n) == k

/-- The severity of a sector (R292). -/
inductive Severity | clean | c | m | h | x
deriving DecidableEq, Repr

/-- What decoding a sector gives: its class, the data bits to flip, the failing parity groups, and the count of
corrected bits or symbols. -/
structure Decoded where
  sev : Severity
  flips : List Nat
  pgrp : Nat
  corr : Nat
deriving DecidableEq, Repr

/-- The poison pattern of R292. -/
def poisonDelta : Word := 0xA5A5A5A5A5A5A5A5

/-- Decoding of a sector from the difference of its check word (R292). In layouts 1 to 10 a flip of middle data bits
shows as a failing parity group; a correction of critical bits leaves the parity bits as they are. -/
def decodeSector (layout p0 : Nat) (delta : Word) : Decoded :=
  if delta = 0 then ⟨.clean, [], 0, 0⟩
  else if delta = poisonDelta then ⟨.h, [], 0, 0⟩
  else if layout = 0 then
    match rsDecode delta.toNat with
    | none => ⟨.h, [], 0, 0⟩
    | some es =>
      let flips := es.flatMap fun e =>
        if e.1 < 8 then [] else (List.range 8).filterMap fun b => if bitOf e.2 b then some (8 * (e.1 - 8) + b) else none
      ⟨.c, flips, 0, es.length⟩
  else
    let crit := classBits layout p0 .critical
    match bchDecode (delta.toNat % 2 ^ 28) crit.length with
    | none => ⟨.h, [], 0, 0⟩
    | some ps =>
      let pg := bitsOf delta.toNat 28 36
      let flips := ps.filterMap fun i => if i < 28 then none else crit[i - 28]?
      ⟨if pg ≠ 0 then .m else .c, flips, pg, ps.length⟩

/-- The difference of the check word that a sector keeps after the rewrite of R293: clean code, the stored parity
differences kept; poison for class H. -/
def rewriteDelta (layout : Nat) (delta : Word) (d : Decoded) : Word :=
  match d.sev with
  | .h => poisonDelta
  | .m => if layout = 0 then 0 else BitVec.ofNat 64 (bitsOf delta.toNat 28 36 * 2 ^ 28)
  | _ => 0

/-- The parity groups whose every middle bit lies in the bytes that `mask` writes (R293). -/
def groupsReplaced (layout p0 mask : Nat) : Nat :=
  let mid := (classBits layout p0 .middle).zipIdx
  (List.range 36).foldl
    (fun a j => if (mid.filter fun x => x.2 % 36 == j).all (fun x => bitOf mask (x.1 / 8)) then a ||| 2 ^ j else a) 0

/-! ### Check words (R288, R289) -/

/-- The generator of the Reed–Solomon code below x^8, times α^k for k = 0 to 7: coefficient i in bits 8i to 8i + 7. -/
def rsTaps : List Nat :=
  [0xFF0B5136EFADC818, 0xE316A26CC3478D30, 0xDB2C59D89B8E0760, 0xAB58B2AD2B010EC0, 0x4BB0794756021C9D,
    0x967DF28EAC043827, 0x31FAF9014508704E, 0x62E9EF028A10E09C]

/-- The remainder of x^8 · data by the generator, the highest data byte first. -/
def rsCheck (data : Nat) : Nat :=
  (List.range 64).foldl
    (fun st j =>
      let fb := st / 2 ^ 56 ^^^ bitsOf data (8 * (63 - j)) 8
      rsTaps.zipIdx.foldl (fun a t => if bitOf fb t.2 then a ^^^ t.1 else a) (st * 256 % 2 ^ 64))
    0

/-- The generator of the critical code below x^28. -/
def bchGen : Nat := 0x7A37D8B

/-- The remainder of x^28 · bits by the generator of the critical code, the highest bit first. -/
def bchCheck (bits : List Bool) : Nat :=
  bits.reverse.foldl (fun st b => (st * 2 % 2 ^ 28) ^^^ (if bitOf st 27 ^^ b then bchGen else 0)) 0

/-- The 36 parity bits of the middle bits. -/
def parityBits (bits : List Bool) : Nat :=
  bits.zipIdx.foldl (fun a b => if b.1 then a ^^^ 2 ^ (b.2 % 36) else a) 0

/-- The check word of a sector's 512 data bits under a layout (R288). -/
def checkOf (layout p0 data : Nat) : Word :=
  if layout = 0 then BitVec.ofNat 64 (rsCheck data)
  else
    let bitsIn (k : BitClass) : List Bool := (classBits layout p0 k).map (bitOf data)
    BitVec.ofNat 64 (bchCheck (bitsIn .critical) + parityBits (bitsIn .middle) * 2 ^ 28)

/-- The code under which a sector's check word was made: its layout, and for the packed layouts the element bit at which
the sector starts. -/
def codeKey (layout p0 : Nat) : Nat := if layout = 6 ∨ layout = 7 then layout + 16 * (p0 % 6) else layout

/-- The check word of data under the code of a key. -/
def checkUnder (key data : Nat) : Word := checkOf (key % 16) (key / 16) data

/-! ### CRCs -/

/-- One byte into a CRC of `n` bits, most significant bit first (R309). -/
def crcByte (n poly crc : Nat) (b : Byte) : Nat :=
  (List.range 8).foldl
    (fun c _ => if bitOf c (n - 1) then (c * 2 % 2 ^ n) ^^^ poly else c * 2 % 2 ^ n) (crc ^^^ (b.toNat * 2 ^ (n - 8)))

/-- CRC-64 of R309 over bytes. -/
def crc64 (bs : List Byte) : Nat := bs.foldl (crcByte 64 0x42F0E1EBA9EA3693) 0

end Sys2Proof.Machine
end

