-- ==== Sys2Proof/Machine/Crypto.lean ====
section
/-! DEFINITION. The ciphers of R296: AES-256, its XTS mode on a 64-byte sector, and the truncated GMAC tag. Blocks and keys
are lists of bytes in the order of the standards (FIPS-197, IEEE 1619, SP 800-38D; PRESUMED, log 102). -/

namespace Sys2Proof.Machine

/-! ### AES-256 -/

/-- The substitution table, 32 entries a word, the lowest first. -/
def aesSub : List Nat :=
  [0xC072A49CAFA2D4ADF04759FA7DC982CA76ABD7FE2B670130C56F6BF27B777C63,
    0x75B227EBE28012079A059618C323C7041531D871F1E5A534CCF73F362693FDB7,
    0xCF584C4A39BECB6A5BB1FC20ED00D153842FE329B3D63B52A05A6E1B1A2C8309,
    0xD2F3FF1021DAB6BCF5389D928F40A351A89F3C507F02F94585334D43FBAAEFD0,
    0xDB0B5EDE14B8EE4688902A22DC4F816073195D643D7EA7C41744975FEC130CCD,
    0x08AE7A65EAF4566CA94ED58D6D37C8E779E4959162ACD3C25C2406490A3A32E0,
    0x9E1DC186B95735610EF6034866B53E708A8BBD4B1F74DDE8C6B4A61C2E2578BA,
    0x16BB54B00F2D99416842E6BF0D89A18CDF2855CEE9871E9B948ED9691198F8E1]

/-- The inverse substitution table. -/
def aesInv : List Nat :=
  [0xCBE9DEC444438E3487FF2F9B8239E37CFBD7F3819EA340BF38A53630D56A0952,
    0x25D18B6D49A25B76B224D92866A12E084EC3FA420B954CEE3D23C2A632947B54,
    0x849D8DA75746155EDAB9EDFD5048706C92B6655DCC5CA4D41698688664F6F872,
    0x6B8A130103BDAFC1020F3FCA8F1E2CD00645B3B80558E4F70AD3BC8C00ABD890,
    0x6EDF751CE837F9E28535ADE72274AC9673E6B4F0CECFF297EADC674F4111913A,
    0xF45ACD78FEC0DB9A2079D2C64B3E56FC1BBE18AA0E62B76F89C5291D711AF147,
    0xEF9CC9939F7AE52D0D4AB519A97F51605FEC8027591012B131C7078833A8DD1F,
    0x7D0C2155631469E126D677BA7E042B17619953833CBBEBC8B0F52AAE4D3BE0A0]

/-- The entry of a substitution table. -/
def aesBox (t : List Nat) (b : Nat) : Nat := bitsOf (t.getD (b / 32) 0) (8 * (b % 32)) 8

/-- The field of AES. -/
def gfAes : Gf := ⟨0x11B, 8⟩

/-- The exclusive or of two lists of bytes. -/
def xorBytes (a b : List Nat) : List Nat := List.zipWith (· ^^^ ·) a b

/-- The next word of the key schedule after the words `ws`, the latest first. -/
def aesNextWord (ws : List (List Nat)) : List Nat :=
  let i := ws.length
  let t := ws.headD []
  let t :=
    if i % 8 = 0 then xorBytes (((t.drop 1) ++ t.take 1).map (aesBox aesSub)) [gfAes.pow 2 (i / 8 - 1), 0, 0, 0]
    else if i % 8 = 4 then t.map (aesBox aesSub)
    else t
  xorBytes (ws.getD 7 []) t

/-- The fifteen round keys of a 32-byte key. -/
def aesKeys (key : List Nat) : List (List Nat) :=
  let first := ((List.range 8).map fun i => (key.drop (4 * i)).take 4).reverse
  let ws := ((List.range 52).foldl (fun ws _ => aesNextWord ws :: ws) first).reverse
  (List.range 15).map fun r => ((ws.drop (4 * r)).take 4).flatten

/-- Rows shifted left by their number, or right with `inv`; byte r + 4c stands in row r, column c. -/
def aesRows (inv : Bool) (b : List Nat) : List Nat :=
  (List.range 16).map fun i =>
    let r := i % 4
    let c := i / 4
    b.getD (r + 4 * ((if inv then c + 4 - r else c + r) % 4)) 0

/-- Columns times the polynomial with coefficients `m`, lowest first. -/
def aesColumns (m : List Nat) (b : List Nat) : List Nat :=
  (List.range 16).map fun i =>
    (List.range 4).foldl (fun a k => a ^^^ gfAes.mul (m.getD ((i + 4 - k) % 4) 0) (b.getD (i / 4 * 4 + k) 0)) 0

/-- Encryption of a block under round keys. -/
def aesEncrypt (ks : List (List Nat)) (b : List Nat) : List Nat :=
  let x := ((List.range 13).foldl
    (fun x r => xorBytes (aesColumns [2, 1, 1, 3] (aesRows false (x.map (aesBox aesSub)))) (ks.getD (r + 1) []))
    (xorBytes b (ks.getD 0 [])))
  xorBytes (aesRows false (x.map (aesBox aesSub))) (ks.getD 14 [])

/-- Decryption of a block under round keys. -/
def aesDecrypt (ks : List (List Nat)) (b : List Nat) : List Nat :=
  let x := ((List.range 13).foldl
    (fun x r => aesColumns [14, 9, 13, 11] (xorBytes ((aesRows true x).map (aesBox aesInv)) (ks.getD (13 - r) [])))
    (xorBytes b (ks.getD 14 [])))
  xorBytes ((aesRows true x).map (aesBox aesInv)) (ks.getD 0 [])

/-- `n` bytes of a number, lowest first, as numbers. -/
def natBytes (v n : Nat) : List Nat := (List.range n).map fun i => bitsOf v (8 * i) 8

/-- A number from bytes, lowest first. -/
def natOfBytes (bs : List Nat) : Nat := bs.foldr (fun b a => b + 256 * a) 0

/-! ### XTS over one sector (R296) -/

/-- The tweaks of the blocks of a data unit: each the one before times x. -/
def xtsTweaks : Nat → Nat → List (List Nat)
  | 0, _ => []
  | k + 1, t =>
    natBytes t 16 :: xtsTweaks k ((t * 2 % 2 ^ 128) ^^^ (if bitOf t 127 then 0x87 else 0))

/-- A sector through the cipher `f` of its data key, under tweak number `unit`. -/
def xtsSector (f : List Nat → List Nat) (tweakKey : List Nat) (unit : Nat) (data : List Nat) : List Nat :=
  let t := natOfBytes (aesEncrypt (aesKeys tweakKey) (natBytes unit 16))
  (xtsTweaks 4 t).zipIdx.flatMap fun e => xorBytes (f (xorBytes ((data.drop (16 * e.2)).take 16) e.1)) e.1

/-! ### GMAC over one sector (R296) -/

/-- A number from bytes, highest first. -/
def natOfBytesBe (bs : List Nat) : Nat := bs.foldl (fun a b => 256 * a + b) 0

/-- Multiplication in the field of GCM: bit 127 of a number is the coefficient of x^0. -/
def ghashMul (x y : Nat) : Nat :=
  ((List.range 128).foldl
    (fun (a : Nat × Nat) i =>
      ((if bitOf x (127 - i) then a.1 ^^^ a.2 else a.1), a.2 / 2 ^^^ (if bitOf a.2 0 then 0xE1 * 2 ^ 120 else 0)))
    (0, y)).1

/-- The full GMAC of whole blocks `data` with a 12-byte IV. -/
def gmac (key iv data : List Nat) : List Nat :=
  let ks := aesKeys key
  let h := natOfBytesBe (aesEncrypt ks (List.replicate 16 0))
  let blocks := (List.range (data.length / 16)).map fun i => natOfBytesBe ((data.drop (16 * i)).take 16)
  let y := (blocks ++ [8 * data.length * 2 ^ 64]).foldl (fun y b => ghashMul (y ^^^ b) h) 0
  xorBytes ((natBytes y 16).reverse) (aesEncrypt ks (iv ++ [0, 0, 0, 1]))

/-! ### A partition's sector (R296) -/

/-- The bytes of a key register, its byte 0 first. -/
def keyBytes (k : BitVec 256) : List Nat := natBytes k.toNat 32

/-- A sector encrypted, or with `inv` decrypted: the tweak is IA[49:6]. The partition's first key is the data key and its
second the tweak key (DESIGN CHOICE, log 102). -/
def sectorCipher (inv : Bool) (k0 k1 : BitVec 256) (ia data : Nat) : Nat :=
  let ks := aesKeys (keyBytes k0)
  natOfBytes (xtsSector (if inv then aesDecrypt ks else aesEncrypt ks) (keyBytes k1) (ia % 2 ^ 50 / 64) (natBytes data 64))

/-- The tag of a sector's ciphertext: the first 64 bits of its GMAC under the second key, with the IV of IA[49:6]. -/
def sectorTag (k1 : BitVec 256) (ia cipher : Nat) : Word :=
  BitVec.ofNat 64 (natOfBytes ((gmac (keyBytes k1) (natBytes (ia % 2 ^ 50 / 64) 12) (natBytes cipher 64)).take 8))

end Sys2Proof.Machine
end

