-- ==== Sys2Proof/Machine/Rv.lean ====
section
/-! DEFINITION. The integer operations of RV64I, M and A (R181), and the run of a walk routine on a walker (R379). -/

namespace Sys2Proof.Machine

/-- The 64-bit operations of RV64I and M. -/
def alu64 (op : AluOp) (a b : Word) : Word :=
  match op with
  | .add => a + b
  | .sub => a - b
  | .sll => a <<< (b.toNat % 64)
  | .slt => if a.toInt < b.toInt then 1 else 0
  | .sltu => if a.toNat < b.toNat then 1 else 0
  | .xor => a ^^^ b
  | .srl => a >>> (b.toNat % 64)
  | .sra => a.sshiftRight (b.toNat % 64)
  | .or => a ||| b
  | .and => a &&& b
  | .mul => a * b
  | .mulh => BitVec.ofInt 64 (a.toInt * b.toInt / 2 ^ 64)
  | .mulhsu => BitVec.ofInt 64 (a.toInt * (b.toNat : Int) / 2 ^ 64)
  | .mulhu => BitVec.ofNat 64 (a.toNat * b.toNat / 2 ^ 64)
  | .div => if b = 0 then BitVec.allOnes 64 else BitVec.ofInt 64 (a.toInt.tdiv b.toInt)
  | .divu => if b = 0 then BitVec.allOnes 64 else BitVec.ofNat 64 (a.toNat / b.toNat)
  | .rem => if b = 0 then a else BitVec.ofInt 64 (a.toInt.tmod b.toInt)
  | .remu => if b = 0 then a else BitVec.ofNat 64 (a.toNat % b.toNat)

/-- The 32-bit operations: on the low words, the result sign-extended. -/
def alu32 (op : AluOp) (a b : Word) : Word :=
  let x : Half := a.setWidth 32
  let y : Half := b.setWidth 32
  let r : Half :=
    match op with
    | .add => x + y
    | .sub => x - y
    | .sll => x <<< (y.toNat % 32)
    | .srl => x >>> (y.toNat % 32)
    | .sra => x.sshiftRight (y.toNat % 32)
    | .mul => x * y
    | .div => if y = 0 then BitVec.allOnes 32 else BitVec.ofInt 32 (x.toInt.tdiv y.toInt)
    | .divu => if y = 0 then BitVec.allOnes 32 else BitVec.ofNat 32 (x.toNat / y.toNat)
    | .rem => if y = 0 then x else BitVec.ofInt 32 (x.toInt.tmod y.toInt)
    | .remu => if y = 0 then x else BitVec.ofNat 32 (x.toNat % y.toNat)
    | _ => x
  r.signExtend 64

def rvAlu (op : AluOp) (is32 : Bool) (a b : Word) : Word := if is32 then alu32 op a b else alu64 op a b

/-- A branch condition. -/
def rvCond (c : BrCond) (a b : Word) : Bool :=
  match c with
  | .eq => a == b
  | .ne => a != b
  | .lt => decide (a.toInt < b.toInt)
  | .ge => decide (b.toInt ≤ a.toInt)
  | .ltu => decide (a.toNat < b.toNat)
  | .geu => decide (b.toNat ≤ a.toNat)

/-- A loaded number of 2^sz bytes as a register's value. -/
def rvExtend (v : Nat) (sz : Nat) (unsigned : Bool) : Word :=
  if unsigned then BitVec.ofNat 64 v else BitVec.ofInt 64 (sext v (8 * 2 ^ sz))

/-- The new memory value of an AMO on `n` bytes (RV64A). -/
def rvAmoValue (op : RvAmo) (n : Nat) (m x : Nat) : Nat :=
  let w := 8 * n
  match op with
  | .swap => x % 2 ^ w
  | .add => (m + x) % 2 ^ w
  | .xor => (m ^^^ x) % 2 ^ w
  | .and => (m &&& x) % 2 ^ w
  | .or => (m ||| x) % 2 ^ w
  | .min => if sext m w ≤ sext x w then m % 2 ^ w else x % 2 ^ w
  | .max => if sext x w ≤ sext m w then m % 2 ^ w else x % 2 ^ w
  | .minu => min (m % 2 ^ w) (x % 2 ^ w)
  | .maxu => max (m % 2 ^ w) (x % 2 ^ w)

/-! ### Walk routines (R379) -/

/-- The registers of a walker. -/
structure Walker where
  x : Vector Word 32
  pc : Nat
deriving DecidableEq, Repr

def Walker.xr (k : Walker) (r : BitVec 5) : Word := if r = 0 then 0 else (k.x[r.toNat]?).getD 0

def Walker.setX (k : Walker) (r : BitVec 5) (v : Word) : Walker :=
  if r = 0 then k else { k with x := k.x.setIfInBounds r.toNat v }

/-- Where a walk routine begins in the 32 KiB walk store: sixteen equal parts (PRESUMED, log 12). -/
def routineBase (r : Nat) : Nat := r * 0x800

/-- Run a walk routine for at most `fuel` instructions: the values of a0 and a1 at ECALL, or none where the access
becomes class X: a store, an exception or too many instructions (R379). A walker is an RV64I core, so M, A, C and CSR
instructions are exceptions; its loads read stack physical memory. -/
def runRoutine (store hbm : Sparse Byte) (stack : Nat) : Nat → Walker → Option (Word × Word)
  | 0, _ => none
  | fuel + 1, k =>
    if k.pc % 4 ≠ 0 ∨ k.pc ≥ 0x8000 then none
    else
      let next (k : Walker) : Option (Word × Word) := runRoutine store hbm stack fuel { k with pc := k.pc + 4 }
      let jump (k : Walker) (pc : Word) : Option (Word × Word) := runRoutine store hbm stack fuel { k with pc := pc.toNat }
      let pcw : Word := BitVec.ofNat 64 k.pc
      match parseCC32 (BitVec.ofNat 32 (readNat store k.pc 4)) with
      | some .ecall => some (k.xr 10, k.xr 11)
      | some .ccFence => next k
      | some (.ccLoadStore ⟨.load rd rs1 off sz u, false⟩) =>
        let a := (k.xr rs1 + off).toNat
        if a % 2 ^ sz.toNat ≠ 0 ∨ a ≥ 2 ^ 36 then none
        else next (k.setX rd (rvExtend (readNat hbm (stack * 2 ^ 36 + a) (2 ^ sz.toNat)) sz.toNat u))
      | some (.controlCoreInstruction ⟨op, false⟩) =>
        match op with
        | .lui rd imm => next (k.setX rd imm)
        | .auipc rd imm => next (k.setX rd (pcw + imm))
        | .jal rd off => jump (k.setX rd (pcw + 4)) (pcw + off)
        | .jalr rd rs1 off => jump (k.setX rd (pcw + 4)) ((k.xr rs1 + off) &&& ~~~1)
        | .branch c a b off => if rvCond c (k.xr a) (k.xr b) then jump k (pcw + off) else next k
        | .alui op is32 rd rs1 imm => next (k.setX rd (rvAlu op is32 (k.xr rs1) imm))
        | .alu op is32 rd rs1 rs2 =>
          match op with
          | .mul => none
          | .mulh => none
          | .mulhsu => none
          | .mulhu => none
          | .div => none
          | .divu => none
          | .rem => none
          | .remu => none
          | _ => next (k.setX rd (rvAlu op is32 (k.xr rs1) (k.xr rs2)))
        | _ => none
      | _ => none

/-- Start a walk routine with the registers of R379. -/
def walkRoutine (store hbm : Sparse Byte) (stack r L kind root part : Nat) : Option (Word × Word) :=
  let z : Vector Word 32 := Vector.replicate 32 0
  let k : Walker := { x := z, pc := routineBase r }
  let k := (((k.setX 10 (BitVec.ofNat 64 L)).setX 11 (BitVec.ofNat 64 kind)).setX 12 (BitVec.ofNat 64 root)).setX 13
    (BitVec.ofNat 64 part)
  runRoutine store hbm stack 512 k

end Sys2Proof.Machine
end

