-- ==== Sys2Proof/Machine/Memory.lean ====
section
/-! DEFINITION. Address translation (R240 to R245, R376 to R381), sectors with their codes, tags and shadow frames
(R288 to R297, R303), and reads and writes of partition memory at its home slice. -/

namespace Sys2Proof.Machine

/-! ### Virtual to intermediate addresses (R240 to R244) -/

/-- Bits [63:57] of a 64-bit VA all equal bit 56 (R240). -/
def canonicalVA (va : Nat) : Bool := va / 2 ^ 56 % 2 ^ 8 == 0 || va / 2 ^ 56 % 2 ^ 8 == 255

/-- A range register from its two words; the reserved bits of word 0 ignore writes and read zero (R6, R242). -/
def rngOf (w0 w1 : Word) : Rng := ⟨w0 &&& 0xE1FFFFFFFFFF0000, w1⟩

/-- Fields of a range register (R242). -/
def Rng.v (r : Rng) : Bool := r.w0.getLsbD 63
def Rng.rd (r : Rng) : Bool := r.w0.getLsbD 62
def Rng.wr (r : Rng) : Bool := r.w0.getLsbD 61
def Rng.vbase (r : Rng) : Nat := bitsOf r.w0.toNat 16 41
def Rng.len (r : Rng) : Nat := bitsOf r.w1.toNat 34 30
def Rng.iabase (r : Rng) : Nat := bitsOf r.w1.toNat 0 34

/-- Whether a range register maps the `n` bytes at 57-bit address `va` (R243). -/
def Rng.maps (r : Rng) (va n : Nat) : Bool :=
  r.v && r.vbase * 2 ^ 16 ≤ va && va + n ≤ (r.vbase + r.len + 1) * 2 ^ 16

/-- The region of an intermediate address (R244). -/
def iaRegion (ia : Nat) : Nat := ia / 2 ^ 48 % 4

/-- Who asks for a translation: which regions admit the access (R244). -/
inductive Asker
  /-- memory-slot forms and engine descriptors -/
  | plain
  /-- XF forms of KIND 1, which must yield the remote region (R365) -/
  | fabric
  /-- engine forms that may name the remote region -/
  | engine
  /-- a control-core load or store; true in M mode with 4 or 8 bytes -/
  | cc (device : Bool)
deriving DecidableEq, Repr

def Asker.admits (a : Asker) (region : Nat) : Bool :=
  match a with
  | .plain => region == 0
  | .fabric => region == 2
  | .engine => region == 0 || region == 2
  | .cc d => region == 0 || (region == 3 && d)

/-- Translate of R243: an intermediate address, or the SUBCAUSE of a range fault. `va` is a 64-bit form. -/
def translate (rng : Vector Rng 16) (a : Asker) (va n : Nat) (rd wr : Bool) : Except Nat Nat :=
  if !canonicalVA va then .error 5
  else if va % n ≠ 0 then .error 4
  else
    let va := va % 2 ^ 57
    match rng.toList.find? (fun r => r.maps va n) with
    | none => .error 1
    | some r =>
      if (rd && !r.rd) || (wr && !r.wr) then .error 2
      else
        let ia := r.iabase * 2 ^ 16 + (va - r.vbase * 2 ^ 16)
        if ia + n > 2 ^ 50 ∨ !a.admits (iaRegion ia) then .error 2 else .ok ia

/-! ### The home of an address (R245) -/

/-- The stacks of a partition's interleave set, in increasing number (R386 SMASK). -/
def State.stacksOf (s : State) (p : Nat) : List Nat := (List.range 8).filter fun n => bitOf (s.partWord p 0) (48 + n)

/-- Stack and stack-local offset of a memory address (R245). -/
def State.home (s : State) (p ia : Nat) : Nat × Nat :=
  let stk := s.stacksOf p
  let g := ia % 2 ^ 48 / 4096
  let n := max stk.length 1
  (stk.getD (g % n) 0, g / n * 4096 + ia % 4096)

/-- The home slice on the stack's die (R245). -/
def sliceOf (L : Nat) : Nat := L / 256 % 48

/-- The frequency code of an island (R397). -/
def State.islandFreq (s : State) (n : Nat) : Nat :=
  match sget s.islands n with
  | some i => i.freq.toNat
  | none => 0

/-- Whether a memory address has its home behind an island whose clock is stopped, which refuses the access (R398). -/
def State.homeStopped (s : State) (p ia : Nat) : Bool :=
  let h := s.home p ia
  let sl := sliceOf h.2
  s.islandFreq (30 * h.1 + 16 + sl / 6) == 4 || s.islandFreq (30 * h.1 + 24 + sl / 12) == 4

/-- Translate for an asker of partition `p`, with the refusal of a stopped island (R243, R398). -/
def State.translateFor (s : State) (p : Nat) (rng : Vector Rng 16) (a : Asker) (va n : Nat) (rd wr : Bool) : Except Nat Nat :=
  match translate rng a va n rd wr with
  | .ok ia => if iaRegion ia == 0 && s.homeStopped p ia then .error 2 else .ok ia
  | .error sub => .error sub

/-! ### Page tables (R376, R377) -/

/-- Index of an offset at a level, and the bytes of a table of that level (R376). -/
def walkIndex (level L : Nat) : Nat :=
  match level with
  | 0 => bitsOf L 36 11
  | 1 => bitsOf L 26 10
  | 2 => bitsOf L 21 5
  | _ => bitsOf L 16 5

def tableBytes (level : Nat) : Nat :=
  match level with
  | 0 => 16384
  | 1 => 8192
  | _ => 256

/-- log2 of the bytes that a leaf of a level maps, and the size code of R379. -/
def pageBits (level : Nat) : Nat :=
  match level with
  | 1 => 26
  | 2 => 21
  | _ => 16

def sizeCode (level : Nat) : Nat := 3 - level

/-- The rules that make a leaf class X: a reserved bit, a misaligned FRAME, an encrypted page with a layout other than
0 (R377), or a reserved layout code (DESIGN CHOICE, log 13). -/
def leafBad (w bits : Nat) : Bool :=
  bitsOf w 36 18 != 0 || bitsOf w 0 16 != 0 || bitsOf w 16 20 * 2 ^ 16 % 2 ^ bits != 0 ||
    (bitOf w 59 && bitsOf w 54 4 != 0) || bitsOf w 54 4 > 10

/-- What a walk gives. -/
inductive Walk
  | leaf (w : Nat) (size : Nat)
  | notPresent (level : Nat)
  | classX
deriving DecidableEq, Repr

/-- The difference of a sector's stored check word from that of its data under a layout, `p0` being the page bit of its
bit 0: a sector whose check word was made under another code is read with the wrong one (R291). -/
def Mem.delta (m : Mem) (k layout p0 : Nat) : Word :=
  let d := (sget m.check k).getD 0
  let made := (sget m.lay k).getD 0
  if made = codeKey layout p0 then d
  else
    let v := bytesVal (readBytes m.hbm (64 * k) 64)
    d ^^^ checkUnder made v ^^^ checkOf layout p0 v

/-- Flip one bit of a sector in memory. -/
def flipBit (m : Sparse Byte) (a n : Nat) : Sparse Byte :=
  setByte m (a + n / 8) (byteAt m (a + n / 8) ^^^ BitVec.ofNat 8 (2 ^ (n % 8)))

/-- An entry of a page table as the walker reads it through its sector's code, layout 0; none where the sector is
uncorrectable (R292, R300). -/
def Mem.tableWord (m : Mem) (stack pa : Nat) : Option Nat :=
  let a := stack * 2 ^ 36 + pa
  let d := decodeSector 0 0 (m.delta (a / 64) 0 0)
  if d.sev == .h then none else some (readNat (d.flips.foldl (fun h n => flipBit h (a / 64 * 64) n) m.hbm) a 8)

/-- Walk the levels from `level`; `left` levels remain (R376, R377). -/
def walkFrom (m : Mem) (stack L : Nat) : Nat → Nat → Nat → Walk
  | 0, _, _ => .classX
  | left + 1, level, table =>
    match m.tableWord stack (table + 8 * walkIndex level L) with
    | none => .classX
    | some w =>
    if !bitOf w 63 then .notPresent level
    else if bitOf w 62 then
      if level = 0 ∨ leafBad w (pageBits level) then .classX else .leaf w (sizeCode level)
    else if level = 3 ∨ bitsOf w 54 8 ≠ 0 ∨ bitsOf w 36 18 ≠ 0 then .classX
    else
      let nxt := bitsOf w 8 28 * 256
      if nxt % tableBytes (level + 1) ≠ 0 then .classX else walkFrom m stack L left (level + 1) nxt

/-- The addresses of the table entries that a walk reads, level by level. -/
def walkPath (m : Mem) (stack L : Nat) : Nat → Nat → Nat → List Nat
  | 0, _, _ => []
  | left + 1, level, table =>
    let a := table + 8 * walkIndex level L
    a :: (match m.tableWord stack a with
      | none => []
      | some w =>
        if !bitOf w 63 || bitOf w 62 || level == 3 then [] else walkPath m stack L left (level + 1) (bitsOf w 8 28 * 256))

/-- A walk of stack `stack` for partition `p` (R376, R379): routine 0 walks the format of R376, any other routine runs
from the walk store. -/
def State.walk (s : State) (p stack L : Nat) (rd wr : Bool) : Walk :=
  let root := s.partWord p (8 + stack)
  let r := bitsOf root 60 4
  let rootPa := bitsOf root 14 22 * 2 ^ 14
  if r = 0 then walkFrom s.mem stack L 4 0 rootPa
  else
    let store := s.mem.walkStore.filterMap fun e => if e.1 / 32768 = stack then some (e.1 % 32768, e.2) else none
    match walkRoutine store s.mem.hbm stack r L (natOfBool rd + 2 * natOfBool wr) rootPa (s.partNo p) with
    | none => .classX
    | some (a0, a1) =>
      if a0 = 0 then .notPresent 3
      else if a1.toNat > 2 ∨ !bitOf a0.toNat 63 ∨ !bitOf a0.toNat 62 ∨ leafBad a0.toNat (16 + 5 * a1.toNat) then .classX
      else .leaf a0.toNat a1.toNat

/-- The stack physical address under a leaf (R377). -/
def leafPa (w size L : Nat) : Nat := bitsOf w 16 20 * 2 ^ 16 + L % 2 ^ (16 + 5 * size)

/-- The permission check on a leaf (R377, R379). -/
def leafXlat (w size L : Nat) (rd wr : Bool) : Xlat :=
  if (rd && !bitOf w 61) || (wr && !bitOf w 60) then .fault 2 (3 - size) else .ok (leafPa w size L) (BitVec.ofNat 64 w) size

/-- A cached leaf result of a block (R380). -/
def State.cachedLeaf (s : State) (p stack L : Nat) : Option TlbEntry :=
  s.mem.tlb.find? fun t => t.stack == stack && t.part == p && t.block == L / 65536

/-- The memory side's translation of an access (R377 to R381): the translation cache, or else a walk. A stack whose
ready bit is 0 makes the access class X (R396). -/
def State.translateHome (s : State) (p ia : Nat) (rd wr : Bool) : Xlat :=
  let (stack, L) := s.home p ia
  if !s.ready.stack.getLsbD stack then .classX
  else
    match s.cachedLeaf p stack L with
    | some t => leafXlat t.leaf.toNat t.size L rd wr
    | none =>
      match s.walk p stack L rd wr with
      | .leaf w size => leafXlat w size L rd wr
      | .notPresent l => .fault 1 l
      | .classX => .classX

/-- Keep a walk's result in the translation cache, which holds 4096 per stack (R380): the oldest result that no domain
pins makes room. -/
def State.cacheLeaf (s : State) (p stack L : Nat) (w : Nat) (size : Nat) : State :=
  let keep := s.mem.tlb.filter fun t => !(t.stack == stack && t.part == p && t.block == L / 65536)
  let full := (keep.filter fun t => t.stack == stack).length ≥ 4096
  let keep := if full then keep.eraseP (fun t => t.stack == stack && t.pins.isEmpty) else keep
  { s with mem := { s.mem with
      tlb := keep ++ [{ stack, part := p, block := L / 65536, leaf := BitVec.ofNat 64 w, size, pins := [] }] } }

/-! ### Shadow bindings (R303) -/

/-- The binding of a launch over the block of an offset. -/
def State.bindingOf (s : State) (dom : Option Nat) (p stack L : Nat) : Option Binding :=
  s.mem.bindings.find? fun b => b.part == p && b.stack == stack && b.block == L / 65536 && some b.dom == dom

/-- The binding of any launch over a block. -/
def State.boundBy (s : State) (p stack L : Nat) : Option Binding :=
  s.mem.bindings.find? fun b => b.part == p && b.stack == stack && b.block == L / 65536

/-- The sector number of an offset in its 64 KiB block. -/
def sectorIn (L : Nat) : Nat := L % 65536 / 64

/-- The address in a shadow frame. -/
def framePa (b : Binding) (L : Nat) : Nat := b.frame * 65536 + L % 65536

/-- Where a write goes is settled when the write is translated (R303, R304): a versioned page's block is bound to the
launch, or the SUBCAUSE of a shadow-pool exhaustion is given. -/
def State.bindForWrite (s : State) (dom : Option Nat) (p ia : Nat) (x : Xlat) : Except Nat State :=
  match x, dom with
  | .ok _ leaf _, some d =>
    if !leaf.getLsbD 58 then .ok s
    else
      let (stack, L) := s.home p ia
      match s.boundBy p stack L with
      | some b => if b.dom = d then .ok s else .error 2
      | none =>
        match (s.part p).shadow.find? (fun f => f.1 == stack) with
        | none => .error 1
        | some f =>
          let s := s.modPart p fun t => { t with shadow := t.shadow.erase f }
          .ok { s with mem := { s.mem with bindings := s.mem.bindings ++
            [{ part := p, stack, block := L / 65536, dom := d, frame := f.2, copied := 0 }] } }
  | _, _ => .ok s

/-! ### Sectors (R288 to R297) -/

/-- What a sector read at its home slice found: the fields of body 0x03 (R298); `source` is SOURCE. -/
structure SectorInfo where
  sev : Severity
  source : Nat := 0
  tagst : Nat
  layout : Nat
  ia : Nat
  pa : Nat
  pgrp : Nat
  corr : Nat
deriving DecidableEq, Repr

/-- The key of the sector of a physical address. -/
def sectorKey (stack pa : Nat) : Nat := (stack * 2 ^ 36 + pa) / 64

/-- A saturating 32-bit increment (R392). -/
def satInc (h : Half) : Half := if h = BitVec.allOnes 32 then h else h + 1

/-- A saturating 16-bit increment (R393). -/
def satInc16 (h : BitVec 16) : BitVec 16 := if h = BitVec.allOnes 16 then h else h + 1

/-- Count a decode in the stack's counters and its page error table (R392, R393). -/
def State.countDecode (s : State) (stack block : Nat) (sev : Severity) : State :=
  if sev == .clean then s
  else
    let e := (sget s.mem.err stack).getD ⟨0, 0, 0, 0, 0⟩
    let e := match sev with
      | .c => { e with c := satInc e.c }
      | .m => { e with m := satInc e.m }
      | .h => { e with h := satInc e.h }
      | .x => { e with x := satInc e.x }
      | .clean => e
    let bump (p : PageErr) : PageErr := if sev == .c then { p with c := satInc16 p.c } else { p with m := satInc16 p.m }
    let base := stack * 256
    let mine := s.mem.pageErr.filter fun t => base ≤ t.1 && t.1 < base + 256
    let (e, tab) :=
      if sev != .c && sev != .m then (e, s.mem.pageErr)
      else
        match mine.find? (fun t => t.2.block == block) with
        | some t => (e, sinsert s.mem.pageErr t.1 (bump t.2))
        | none =>
          match (List.range 256).find? (fun i => (sget s.mem.pageErr (base + i)).isNone) with
          | some i => (e, sinsert s.mem.pageErr (base + i) (bump ⟨block, 0, 0⟩))
          | none => ({ e with pgovf := satInc e.pgovf }, s.mem.pageErr)
    { s with mem := { s.mem with err := sinsert s.mem.err stack e, pageErr := tab } }

/-- Decode the sector at a physical address, rewrite it by R293 and count it: the new state and what was found. `p0` is
the page bit of the sector's bit 0. A sector that the L2 slice holds is not read from the stack: nothing is counted or
rewritten then (R253, R292). -/
def State.decodeAt (s : State) (stack pa layout p0 block : Nat) (held : Bool := false) : State × Decoded :=
  let k := sectorKey stack pa
  let delta := s.mem.delta k layout p0
  let d := decodeSector layout p0 delta
  if d.sev == .clean || held then (s, d)
  else
    let hbm := d.flips.foldl (fun m n => flipBit m (k * 64) n) s.mem.hbm
    let s := { s with mem := { s.mem with
      hbm, check := sput 0 s.mem.check k (rewriteDelta layout delta d), lay := sput 0 s.mem.lay k (codeKey layout p0) } }
    (s.countDecode stack block d.sev, d)

/-- The walk that a translation outside the translation cache makes decodes the table sectors it reads (R292). -/
def State.noteWalk (s : State) (p ia : Nat) : State :=
  let (stack, L) := s.home p ia
  let root := s.partWord p (8 + stack)
  if !s.ready.stack.getLsbD stack || (s.cachedLeaf p stack L).isSome || bitsOf root 60 4 != 0 then s
  else
    (walkPath s.mem stack L 4 0 (bitsOf root 14 22 * 2 ^ 14)).foldl
      (fun s a => (s.decodeAt stack (a / 64 * 64) 0 0 (a / 65536)).1) s

/-- The memory side's translation of an access at work: the table sectors that it reads are decoded. -/
def State.translateNow (s : State) (p ia : Nat) (rd wr : Bool) : State × Xlat :=
  (s.noteWalk p ia, s.translateHome p ia rd wr)

/-! ### L2 slices (R253, R254) -/

/-- The fields of a residency register. -/
def resV (r : Rng) : Bool := r.w0.getLsbD 63
def resWays (r : Rng) : Nat := bitsOf r.w0.toNat 56 4

/-- Register RES`n` of a die. -/
def State.resReg (s : State) (die n : Nat) : Rng := (sget s.mem.res (8 * die + n)).getD ⟨0, 0⟩

/-- Whether a residency register holds address `ia` in its range (R254). -/
def resCovers (r : Rng) (ia : Nat) : Bool :=
  let base := bitsOf r.w0.toNat 12 36 * 4096
  r.w0.getLsbD 63 && decide (base ≤ ia % 2 ^ 48) && decide (ia % 2 ^ 48 < base + bitsOf r.w1.toNat 0 36 * 4096)

/-- The slice's counter for a register, read before its increment. -/
def State.resCount (s : State) (die L n : Nat) : Nat := ((sget s.mem.resCnt ((48 * die + sliceOf L) * 8 + n)).getD 0).toNat

/-- The register in whose retained class an access now allocates: the lowest-numbered one that covers it and samples
it. -/
def State.resClass (s : State) (p ia : Nat) : Option Nat :=
  let (die, L) := s.home p ia
  (List.range 8).find? fun n =>
    resCovers (s.resReg die n) ia && s.resCount die L n % 2 ^ bitsOf (s.resReg die n).w0.toNat 60 3 == 0

/-- Count one access at its home slice for every residency register of the die that covers it (R254). -/
def State.countRes (s : State) (p ia : Nat) : State :=
  let (die, L) := s.home p ia
  (List.range 8).foldl
    (fun s n =>
      let k := (48 * die + sliceOf L) * 8 + n
      if resCovers (s.resReg die n) ia then
        { s with mem := { s.mem with resCnt := sput 0 s.mem.resCnt k ((sget s.mem.resCnt k).getD 0 + 1) } }
      else s)
    s

/-- The set of a line: 16-way, 2048 sets in each of the 48 slices of a die. The specification gives no set index; the
model takes the slice's lines in increasing L (DESIGN CHOICE, log 103). -/
def l2Set (stack L : Nat) : Nat := (48 * stack + sliceOf L) * 2048 + (2 * (L / 12288) + L / 128 % 2) % 2048

/-- The class of a line now: that of a register still in force. -/
def State.liveClass (s : State) (die : Nat) (l : L2Line) : Option Nat :=
  l.cls.bind fun n => if resV (s.resReg die n) then some n else none

/-- The ways of a class in every set: those that its register reserves, or those that no register does. -/
def State.classWays (s : State) (die : Nat) (cls : Option Nat) : Nat :=
  match cls with
  | some n => resWays (s.resReg die n)
  | none =>
    16 - ((List.range 8).map fun n => if resV (s.resReg die n) then resWays (s.resReg die n) else 0).foldl (· + ·) 0

/-- Whether the L2 slice of an offset holds the sector at a physical address. -/
def State.l2Holds (s : State) (stack L pa : Nat) : Bool :=
  ((sget s.mem.l2 (l2Set stack L)).getD []).any fun l => l.line == pa / 128 && l.have_.getLsbD (pa / 64 % 2)

/-- The lines of a set less the least recently used one of a class that has no way left. -/
def State.l2Room (s : State) (die : Nat) (cls : Option Nat) (ls : List L2Line) : List L2Line :=
  if (ls.filter fun l => s.liveClass die l == cls).length < s.classWays die cls then ls
  else (ls.reverse.eraseP fun l => s.liveClass die l == cls).reverse

/-- A sector's line is allocated, or becomes the latest used of its set (R254); an access that is sampled for a register
takes it into that register's class. -/
def State.l2Keep (s : State) (stack L pa : Nat) (cls : Option Nat) : State :=
  let key := l2Set stack L
  let set := (sget s.mem.l2 key).getD []
  let old := set.find? fun l => l.line == pa / 128
  let cls := cls.or (old.bind fun l => s.liveClass stack l)
  let rest := s.l2Room stack cls (set.filter fun l => l.line != pa / 128)
  let have_ := ((old.map fun l => l.have_).getD 0) ||| BitVec.ofNat 2 (2 ^ (pa / 64 % 2))
  { s with mem := { s.mem with l2 := sput [] s.mem.l2 key (⟨pa / 128, cls, have_⟩ :: rest) } }

/-- The page bit of a sector's bit 0: bits counted from the page's first byte (R290). -/
def pageBit0 (L size : Nat) : Nat := L % 2 ^ (16 + 5 * size) / 64 * 512

/-- A piece of an access within one sector: its offset in the access and its length. -/
structure Piece where
  ofs : Nat
  len : Nat
deriving DecidableEq, Repr

/-- The pieces of the `n` bytes at `ia`, one a sector (R255); `fuel` bounds their number. -/
def pieces (ia n : Nat) : Nat → Nat → List Piece
  | 0, _ => []
  | fuel + 1, ofs =>
    if ofs ≥ n then []
    else
      let len := min (64 - (ia + ofs) % 64) (n - ofs)
      ⟨ofs, len⟩ :: pieces ia n fuel (ofs + len)

def piecesOf (ia n : Nat) : List Piece := pieces ia n (n / 64 + 2) 0

/-- What a read of memory gives: its bytes, and one entry a sector that was not clean. -/
structure MemRead where
  bytes : List Byte
  found : List (Piece × SectorInfo)
deriving DecidableEq, Repr

/-- A free value of 1024 bits (R2). -/
def State.drawFree (s : State) : State × VWord := ({ s with freeCount := s.freeCount + 1 }, Config.freeBits s.freeCount)

/-- TAGST of an encrypted sector at stack physical address `pa`, and whether its tag cannot be read: the tag is evaluated
over the ciphertext as decoded, unless its media is class H (R297). -/
def State.tagState (s : State) (p ia stack pa : Nat) (sev : Severity) : Nat × Bool :=
  let k := sectorKey stack pa
  if sev == .h || sev == .x then (3, false)
  else if s.mem.lostTags.contains k then (3, true)
  else
    let v := bytesVal (readBytes s.mem.hbm (64 * k) 64)
    (if (sget s.mem.tags k).getD 0 = sectorTag (((s.part p).keys[1]?).getD 0) ia v then 1 else 2, false)

/-- The 64 plain bytes of the encrypted sector at stack physical address `pa` (R296). -/
def State.plainSector (s : State) (p ia stack pa : Nat) : List Byte :=
  let ks := (s.part p).keys
  bytesOf (sectorCipher true ((ks[0]?).getD 0) ((ks[1]?).getD 0) ia
    (bytesVal (readBytes s.mem.hbm (64 * sectorKey stack pa) 64))) 64

/-- Read one piece of an access whose first byte translates to `pa`. A launch reads its shadow frame where the sector
is copied there (R303). No plaintext of an encrypted sector leaves the slice before its tag has passed: a free value
stands in its place (R297). `cls` is the class in which the access allocates. The unit named is L2 for a sector that the slice holds
(R298). -/
def State.readPiece (s : State) (dom : Option Nat) (p ia pa : Nat) (leaf : Word) (size : Nat) (cls : Option Nat)
    (q : Piece) : State × List Byte × SectorInfo :=
  let layout := bitsOf leaf.toNat 54 4
  let (stack, L) := s.home p (ia + q.ofs)
  let at_ := match s.bindingOf dom p stack L with
    | some b => if b.copied.getLsbD (sectorIn L) then framePa b L else pa + q.ofs
    | none => pa + q.ofs
  let hit := s.l2Holds stack L at_
  let (s, d) := s.decodeAt stack (at_ / 64 * 64) layout (pageBit0 L size) (L / 65536) hit
  let s := s.l2Keep stack L at_ cls
  let info : SectorInfo :=
    { sev := d.sev, source := natOfBool hit, tagst := 0, layout, ia := (ia + q.ofs) / 64 * 64
      pa := if hit then 0 else at_ / 64 * 64, pgrp := d.pgrp, corr := d.corr }
  if !leaf.getLsbD 59 then (s, readBytes s.mem.hbm (stack * 2 ^ 36 + at_) q.len, info)
  else
    let (tagst, lost) := s.tagState p info.ia stack at_ d.sev
    let info := if lost then { info with sev := .x, source := 10, tagst, pa := 0 } else { info with tagst }
    if tagst = 1 then (s, ((s.plainSector p info.ia stack at_).drop (at_ % 64)).take q.len, info)
    else
      let (s, v) := s.drawFree
      (s, bytesOf v.toNat q.len, info)

/-- Read pieces in order. -/
def State.readPieces (s : State) (dom : Option Nat) (p ia pa : Nat) (leaf : Word) (size : Nat) (cls : Option Nat) :
    List Piece → State × MemRead
  | [] => (s, ⟨[], []⟩)
  | q :: qs =>
    let (s, bs, info) := s.readPiece dom p ia pa leaf size cls q
    let (s, r) := s.readPieces dom p ia pa leaf size cls qs
    (s, ⟨bs ++ r.bytes, if info.sev == .clean && info.tagst ≤ 1 then r.found else (q, info) :: r.found⟩)

/-- Read `n` bytes of partition memory at a translated address, in the class `cls` and uncounted: the reading half of an
access that also writes. -/
def State.memReadAs (s : State) (dom : Option Nat) (p ia n : Nat) (x : Xlat) (cls : Option Nat) : State × MemRead :=
  match x with
  | .ok pa leaf size => s.readPieces dom p ia pa leaf size cls (piecesOf ia n)
  | _ => (s, ⟨List.replicate n 0, []⟩)

/-- Read `n` bytes of partition memory at a translated address: one access at its home slice. -/
def State.memRead (s : State) (dom : Option Nat) (p ia n : Nat) (x : Xlat) : State × MemRead :=
  (s.countRes p ia).memReadAs dom p ia n x (s.resClass p ia)

/-- Copy the sector at one stack physical address to another, with its check word and tag as they stand. -/
def State.copySector (s : State) (stack src dst : Nat) : State :=
  let a := stack * 2 ^ 36 + src / 64 * 64
  let b := stack * 2 ^ 36 + dst / 64 * 64
  let lost := s.mem.lostTags.filter (· != b / 64)
  { s with mem := { s.mem with
      hbm := writeBytes s.mem.hbm b (readBytes s.mem.hbm a 64)
      check := sput 0 s.mem.check (b / 64) ((sget s.mem.check (a / 64)).getD 0)
      lay := sput 0 s.mem.lay (b / 64) ((sget s.mem.lay (a / 64)).getD 0)
      tags := sput 0 s.mem.tags (b / 64) ((sget s.mem.tags (a / 64)).getD 0)
      lostTags := if s.mem.lostTags.contains (a / 64) then lost ++ [b / 64] else lost } }

/-- Read the original sector of a shadow block through its code and copy it to the frame (R292, R293, R303). -/
def State.fillShadow (s : State) (stack src dst layout p0 block : Nat) : State :=
  (s.decodeAt stack (src / 64 * 64) layout p0 block).1.copySector stack src dst

/-- Store 64 bytes in an encrypted sector: the ciphertext, and its tag unless the tag's sector cannot be written. -/
def State.putCipher (s : State) (p ia stack pa : Nat) (bytes : List Byte) : State :=
  let k := sectorKey stack pa
  let ks := (s.part p).keys
  let v := sectorCipher false ((ks[0]?).getD 0) ((ks[1]?).getD 0) ia (bytesVal bytes)
  { s with mem := { s.mem with
      hbm := writeBytes s.mem.hbm (64 * k) (bytesOf v 64)
      tags := if s.mem.lostTags.contains k then s.mem.tags else sput 0 s.mem.tags k (sectorTag ((ks[1]?).getD 0) ia v) } }

/-- `old` with the bytes of `mask` from offset `ofs` on replaced. -/
def mergeBytes (old : List Byte) (ofs mask : Nat) (bs : List Byte) : List Byte :=
  old.zipIdx.map fun b => if b.2 < ofs || !bitOf mask (b.2 - ofs) then b.1 else bs.getD (b.2 - ofs) 0

/-- Write one piece: `mask` bit i for byte i of the access. A full sector replaces its check word; a partial write
merges into the decoded sector (R255, R293). In a shadow frame the sector is first filled from the original and its
copied bit is set (R303). `poison` poisons the sector (R295). A partial write of an encrypted sector reads it first, and
writes nothing where its tag does not pass (R297). -/
def State.writePiece (s : State) (dom : Option Nat) (p ia pa : Nat) (leaf : Word) (size : Nat) (cls : Option Nat)
    (bytes : List Byte) (mask : Nat) (poison : Bool) (q : Piece) : State :=
  let layout := bitsOf leaf.toNat 54 4
  let (stack, L) := s.home p (ia + q.ofs)
  let orig := pa + q.ofs
  let p0 := pageBit0 L size
  let bs := (bytes.drop q.ofs).take q.len
  let m := bitsOf mask q.ofs q.len
  if m = 0 then s
  else
    let full := q.len = 64 ∧ m = 2 ^ 64 - 1
    let (s, target) := match s.bindingOf dom p stack L with
      | none => (s, orig)
      | some b =>
        let fpa := framePa b L
        let bit := sectorIn L
        let s := if b.copied.getLsbD bit || decide full then s else s.fillShadow stack orig fpa layout p0 (L / 65536)
        let b' := { b with copied := b.copied ||| ((1 : BitVec 1024) <<< bit) }
        ({ s with mem := { s.mem with bindings := s.mem.bindings.map fun k => if k = b then b' else k } }, fpa)
    let k := sectorKey stack target
    let s' := s
    let s := if full then { s with mem := { s.mem with check := sput 0 s.mem.check k 0 } }
      else
        let (s, d) := s.decodeAt stack (target / 64 * 64) layout p0 (L / 65536) (s.l2Holds stack L target)
        let rest := if d.sev == .m then
            let smask := bitsOf m 0 q.len * 2 ^ (target % 64)
            BitVec.ofNat 64 ((d.pgrp &&& ((2 ^ 36 - 1) ^^^ groupsReplaced layout p0 smask)) * 2 ^ 28)
          else s.mem.delta k layout p0
        { s with mem := { s.mem with check := sput 0 s.mem.check k rest } }
    let s := { s with mem := { s.mem with
      check := if poison then sput 0 s.mem.check k poisonDelta else s.mem.check
      lay := sput 0 s.mem.lay k (codeKey layout p0) } }
    if !leaf.getLsbD 59 then
      { s with mem := { s.mem with hbm := writeMasked s.mem.hbm (stack * 2 ^ 36 + target) m bs } }.l2Keep stack L target cls
    else
      let sia := (ia + q.ofs) / 64 * 64
      let sev := if sget s.mem.check k = some poisonDelta then Severity.h else .clean
      let passes := full ∨ (s.tagState p sia stack target sev).1 ≠ 2 ∧ !s.mem.lostTags.contains k
      if passes then
        let old := if full then List.replicate 64 (0 : Byte) else s.plainSector p sia stack target
        (s.putCipher p sia stack target (mergeBytes old (target % 64) m bs)).l2Keep stack L target cls
      else s'

/-- A launch's write to a page that is not versioned makes its replay unsafe (R53, R54). -/
def State.noteWrite (s : State) (dom : Option Nat) (leaf : Word) : State :=
  match dom with
  | some id => if leaf.getLsbD 58 then s else s.modDom id fun d => { d with unsafe_ := true }
  | none => s

/-- The same of a store whose bytes the first-level cache holds. -/
def State.noteXlat (s : State) (dom : Option Nat) (x : Xlat) : State :=
  match x with
  | .ok _ leaf _ => s.noteWrite dom leaf
  | _ => s

/-- A mask of `n` ones. -/
def maskOf (n : Nat) : Nat := 2 ^ n - 1

/-- What stops a masked write of `n` bytes at one of its sectors: a partial write of an encrypted sector reads it, and its
tag does not match or cannot be read (R296, R297). -/
def State.tagStop (s : State) (dom : Option Nat) (p ia n mask : Nat) (x : Xlat) : Option SectorInfo :=
  match x with
  | .ok pa leaf size =>
    if !leaf.getLsbD 59 then none
    else
      (piecesOf ia n).findSome? fun q =>
        let m := bitsOf mask q.ofs q.len
        if m = 0 ∨ (q.len = 64 ∧ m = maskOf 64) then none
        else
          let i := (s.readPiece dom p ia pa leaf size none q).2.2
          if i.sev == .x || i.tagst == 2 then some i else none
  | _ => none

/-- Write bytes of partition memory at a translated address, those whose mask bit is 1, in the class `cls` and uncounted:
the writing half of an access that also reads. -/
def State.memWriteAs (s : State) (dom : Option Nat) (p ia : Nat) (bytes : List Byte) (mask : Nat) (x : Xlat)
    (cls : Option Nat) (poison : Bool := false) : State :=
  match x with
  | .ok pa leaf size =>
    (piecesOf ia bytes.length).foldl (fun s q => s.writePiece dom p ia pa leaf size cls bytes mask poison q)
      (s.noteWrite dom leaf)
  | _ => s

/-- Write bytes of partition memory at a translated address: one access at its home slice. -/
def State.memWrite (s : State) (dom : Option Nat) (p ia : Nat) (bytes : List Byte) (mask : Nat) (x : Xlat)
    (poison : Bool := false) : State :=
  (s.countRes p ia).memWriteAs dom p ia bytes mask x (s.resClass p ia) poison

/-- A line's reservation ends when another agent writes one of its bytes (R182): the reservations of the cores other
than `by_` on any of the `n` bytes at `ia` of partition `p`. -/
def State.breakReservations (s : State) (by_ : Option Nat) (p ia n : Nat) : State :=
  { s with cores := s.cores.map fun e =>
      match e.2.cc.resv with
      | some r =>
        if some e.1 ≠ by_ ∧ s.partOf e.1 = p ∧ r * 128 < ia + n ∧ ia < r * 128 + 128 then
          (e.1, { e.2 with cc := { e.2.cc with resv := none } })
        else e
      | none => e }

/-- Front-end and firmware access to partition memory by IA: `n` bytes, zero where the address does not translate. -/
def State.iaBytes (s : State) (p ia n : Nat) : List Byte :=
  (piecesOf ia n).flatMap fun q =>
    let x := s.translateHome p (ia + q.ofs) true false
    (s.memRead none p (ia + q.ofs) q.len x).2.bytes

/-- A front end's read of partition memory at work: the state after it, with what its sectors were, table sectors included
(R292, R293). The bytes are those of `iaBytes`. -/
def State.iaRead (s : State) (p ia n : Nat) : State × List (Piece × SectorInfo) :=
  (piecesOf ia n).foldl
    (fun (a : State × List (Piece × SectorInfo)) q =>
      let (s, x) := a.1.translateNow p (ia + q.ofs) true false
      let (s, r) := s.memRead none p (ia + q.ofs) q.len x
      (s, a.2 ++ r.found.map fun f => (⟨q.ofs + f.1.ofs, f.1.len⟩, f.2)))
    (s, [])

/-- Whether a front end's read of a structure of the machine meets an uncorrectable sector (R300). -/
def State.iaBroken (s : State) (p ia n : Nat) : Bool :=
  (s.iaRead p ia n).2.any fun f => f.2.sev == .h || f.2.sev == .x || f.2.tagst == 2

/-- An 8-byte word of partition memory. -/
def State.iaWord (s : State) (p ia : Nat) : Nat := bytesVal (s.iaBytes p ia 8)

/-- Store bytes by IA for a front end or Headwater; false where an address does not translate. -/
def State.iaStore (s : State) (p ia : Nat) (bytes : List Byte) : State × Bool :=
  (piecesOf ia bytes.length).foldl
    (fun a q =>
      let s := a.1
      match s.translateNow p (ia + q.ofs) false true with
      | (s, .ok pa leaf size) =>
        if (s.tagStop none p (ia + q.ofs) q.len (maskOf q.len) (.ok pa leaf size)).isSome then (s, false)
        else
          let s := s.memWrite none p (ia + q.ofs) ((bytes.drop q.ofs).take q.len) (maskOf q.len) (.ok pa leaf size)
          (s.breakReservations none p (ia + q.ofs) q.len, a.2)
      | (s, _) => (s, false))
    (s, true)

end Sys2Proof.Machine
end

