-- ==== Sys2Proof/Machine/Routes.lean ====
section
/-! DEFINITION. The route latency table and the resident collective plans, as their readers take them from memory
(R385). -/

namespace Sys2Proof.Machine

/-! ### Routes -/

/-- An entry of the route latency table: `links` holds the outgoing link of each hop. -/
structure Route where
  v : Bool
  bylor : Bool
  hops : Nat
  links : List Nat
  l : Nat
  lb : Nat
  dmod : Nat
  ddie : Nat
deriving DecidableEq, Repr

/-- The outgoing link of hop 0. -/
def Route.link0 (r : Route) : Nat := r.links.headD 0

/-- Route `i` of partition `p`. -/
def State.route (s : State) (p i : Nat) : Route :=
  let base := s.partWord p 5 % 2 ^ 50 + 16 * i
  let w0 := s.iaWord p base
  let w1 := s.iaWord p (base + 8)
  let hops := bitsOf w0 60 2 + 1
  { v := bitOf w0 63, bylor := bitOf w0 62, hops, links := (List.range hops).map fun k => bitsOf w0 (55 - 5 * k) 5
    l := bitsOf w0 20 20, lb := bitsOf w0 0 20, dmod := bitsOf w1 55 9, ddie := bitsOf w1 52 3 }

/-- The first valid route of partition `p` whose path ends on module `m` (R57). -/
def State.routeToModule (s : State) (p m : Nat) : Option Nat :=
  (List.range 4096).find? fun i => let r := s.route p i; r.v && r.bylor && r.dmod == m

/-- The die whose boundary register bit a route needs (R386): its destination die, or its first link's I/O die. -/
def Route.boundaryBit (r : Route) : Nat := if r.bylor then 8 + r.link0 / 16 else r.ddie

/-- Whether the boundary register of core `c`'s die admits die `n`, a compute die or 8 and 9 for the I/O dies (R386). -/
def State.admitsDie (s : State) (c n : Nat) : Bool := ((s.boundary[dieOf c]?).getD 0).getLsbD n

/-- Whether the boundary register of core `c`'s die admits a route. -/
def State.boundaryOk (s : State) (c : Nat) (r : Route) : Bool := s.admitsDie c r.boundaryBit

/-- Whether the boundary register admits an engine access of core `c` to address `ia`: to the die of its home, or to the
I/O die of a remote access's route (R386). -/
def State.reaches (s : State) (c p ia : Nat) : Bool :=
  if iaRegion ia = 0 then s.admitsDie c (s.home p ia).1
  else if iaRegion ia = 2 then s.boundaryOk c (s.route p ((s.routeToModule p (bitsOf ia 39 9)).getD 0))
  else true

/-! ### Collective plans -/

/-- One step of a rank's plan (R385). -/
structure PlanStep where
  recv : Bool
  combine : Bool
  fromD : Bool
  route : Nat
  pmod : Nat
  pcore : Nat
  delta : Nat
  stepno : Nat
  ofs : Nat
  count : Nat
deriving DecidableEq, Repr, Inhabited

def planStep (w0 w1 : Nat) : PlanStep :=
  { recv := bitOf w0 63, combine := bitOf w0 62, fromD := bitOf w0 61, route := bitsOf w0 49 12, pmod := bitsOf w0 40 9
    pcore := bitsOf w0 28 12, delta := bitsOf w0 0 28, stepno := bitsOf w1 48 16, ofs := bitsOf w1 24 24, count := bitsOf w1 0 24 }

/-- A rank of a plan: its module and core, the number of its steps and the index of the first. -/
structure PlanRank where
  module : Nat
  core : Nat
  nstep : Nat
  first : Nat
deriving DecidableEq, Repr

def planRank (w : Nat) : PlanRank := ⟨bitsOf w 55 9, bitsOf w 43 12, bitsOf w 24 19, bitsOf w 0 24⟩

/-- The address of the record of plan `i` of partition `p`, where the slot is resident. -/
def State.planRecord (s : State) (p i : Nat) : Option Nat :=
  let slot := s.iaWord p (s.partWord p 4 % 2 ^ 50 + 8 * i)
  if bitOf slot 63 then some (slot % 2 ^ 50) else none

/-- The rank table of the plan whose record stands at `a`. -/
def State.planRanks (s : State) (p a : Nat) : List PlanRank :=
  (List.range (bitsOf (s.iaWord p a) 0 12 + 1)).map fun r => planRank (s.iaWord p (a + 0x40 + 8 * r))

/-- The steps of a rank of the plan whose record stands at `a`. -/
def State.rankSteps (s : State) (p a : Nat) (r : PlanRank) : List PlanStep :=
  let base := a + 0x40 + 8 * (bitsOf (s.iaWord p a) 0 12 + 1)
  (List.range r.nstep).map fun k =>
    let q := base + 16 * (r.first + k)
    planStep (s.iaWord p q) (s.iaWord p (q + 8))

/-- The header of plan `i` of a partition and the steps of core `c`'s rank; none where the slot is empty or the core has
no rank. -/
def State.plan (s : State) (p i c : Nat) : Option (Nat × List PlanStep) :=
  match s.planRecord p i with
  | none => none
  | some a =>
    match (s.planRanks p a).find? fun r => r.module == s.moduleId && r.core == c with
    | none => none
    | some r => some (s.iaWord p a, s.rankSteps p a r)

/-- The records of the plans of a launch on cores `cs`: the resident plans whose rank tables name one of them (DEDUCED,
log 90). -/
def State.plansOf (s : State) (p : Nat) (cs : List Nat) : List Nat :=
  ((List.range 4096).filterMap (s.planRecord p)).filter fun a =>
    (s.planRanks p a).any fun r => r.module == s.moduleId && cs.contains r.core

/-- The modules that the rank tables of a launch's plans name (R57). -/
def State.planModules (s : State) (p : Nat) (cs : List Nat) : List Nat :=
  (s.plansOf p cs).flatMap fun a => (s.planRanks p a).map (·.module)

/-- The routes of the steps that the plans of a launch give its own cores, those that send (R396). -/
def State.planRoutes (s : State) (p : Nat) (cs : List Nat) : List Nat :=
  (s.plansOf p cs).flatMap fun a =>
    (((s.planRanks p a).filter fun r => r.module == s.moduleId && cs.contains r.core).flatMap (s.rankSteps p a)).filterMap
      fun st => if st.recv then none else some st.route

end Sys2Proof.Machine
end

