-- ==== Sys2Proof/Machine/Events.lean ====
section
/-! DEFINITION. Events: the responses and their strength (R45 to R51, R54 to R57, R403), fault records (R58 to R60,
R353), and the traps of the control core and the bundle engine that events take. -/

namespace Sys2Proof.Machine

/-! ### Responses -/

/-- Strength of a RESP code under R45: quarantine, then kill, launch replay, phase cancellation, freeze, macro stop,
trap. -/
def respStrength (r : Nat) : Nat :=
  match r with
  | 0 => 0
  | 1 => 1
  | 2 => 2
  | 3 => 3
  | 4 => 4
  | 6 => 4
  | 5 => 5
  | 8 => 5
  | _ => 6

/-- An event of the control core itself, which is a trap in both disciplines (R47): ENGINE 0 and no target engine. -/
def Ev.ccOwn (e : Ev) : Bool := e.engine == 0 && e.tengine == 0

/-- An event raised by an engine of macro-instructions: MX to Weir. -/
def Ev.byEngine (e : Ev) : Bool := 2 ≤ e.engine && e.engine ≤ 6

/-- The response of R46 as a RESP code of R58. `sfpol` is the partition's SFPOL. -/
def respOf (timed sfpol : Bool) (e : Ev) : Nat :=
  match e.cause.toNat with
  | 0x0F => 7
  | 0x0E => 5
  | 0x10 => if e.subcause = 3 then 4 else 6
  | 0x0D => 4
  | 0x0C => 4
  | 0x11 =>
    match e.subcause.toNat with
    | 1 => 2
    | 2 => 5
    | _ => 8
  | 0x12 => 2
  | 0x13 => 0
  | 0x14 => 0
  | 0x08 => if timed then (if sfpol then 4 else 5) else if e.byEngine then 1 else 0
  | 0x09 => if timed then 4 else 0
  | 0x06 => if e.ccOwn then 0 else if timed then 2 else if e.byEngine then 1 else 0
  | 0x0B => if timed then 2 else if e.byEngine then 1 else 0
  | 0x0A => if timed then 5 else 0
  | 0x03 => if timed then 5 else 0
  | 0x01 => if timed then 5 else 0
  | 0x07 => if e.ccOwn then 0 else if timed then 5 else if e.byEngine then 1 else 0
  | _ => if e.ccOwn then 0 else if timed then 5 else 0

/-- Whether the Timed response of an event is, or begins with, a freeze (R46, R52). -/
def freezesFirst (e : Ev) : Bool :=
  match e.cause.toNat with
  | 0x01 => true
  | 0x02 => !e.ccOwn
  | 0x03 => true
  | 0x04 => !e.ccOwn
  | 0x05 => !e.ccOwn
  | 0x06 => !e.ccOwn
  | 0x07 => true
  | 0x08 => true
  | 0x09 => true
  | 0x0A => true
  | 0x0B => true
  | 0x12 => true
  | 0x11 => e.subcause == 1
  | _ => false

/-- The priority of an event (R46); 1 is highest. -/
def evPrio (cause : BitVec 8) : Nat :=
  match cause.toNat with
  | 0x0F => 1
  | 0x0E => 2
  | 0x10 => 3
  | 0x0D => 4
  | 0x0C => 4
  | 0x11 => 5
  | 0x08 => 6
  | 0x01 => 7
  | 0x02 => 8
  | 0x04 => 9
  | 0x05 => 10
  | 0x07 => 11
  | 0x03 => 12
  | 0x06 => 13
  | 0x0A => 14
  | 0x09 => 15
  | 0x0B => 16
  | 0x13 => 17
  | 0x12 => 18
  | _ => 19

/-- The event to report among several of one core in one cycle (R49): the highest priority, then the first in the order
given. -/
def firstEvent : List Ev → Option Ev
  | [] => none
  | e :: es =>
    match firstEvent es with
    | none => some e
    | some f => if evPrio f.cause < evPrio e.cause then some f else some e

/-! ### Fault records -/

/-- Words 4 to 7 of a record: body 0x01, or the words that the event carries (R60). -/
def recordBody (e : Ev) (micro : Nat) : List Nat :=
  if e.body = 1 then
    [e.pc.toNat,
      e.issue.toNat * 2 ^ 32 + e.slot * 2 ^ 28 + e.tengine * 2 ^ 24 + micro * 2 ^ 16 + e.tcode.toNat,
      e.faddr.toNat, e.duesc.toNat]
  else (List.range 4).map fun i => (e.words.getD i 0).toNat

/-- The eight words of a fault record (R58). SEQ is the ring's to give. The event of a stopped entry (bodies 2 and 4) carries its detection SC and
basin count in `duesc` and `pc`, because its record is written once the stop is complete (R234, R315). -/
def recordWords (s : State) (p core : Nat) (dom : Option Domain) (e : Ev) (resp : Nat) (secondary : Bool) : List Nat :=
  let timed := match dom with
    | some d => d.timed
    | none => s.timed core
  let stopped := e.body == 2 || e.body == 4
  let sc := if stopped then e.duesc.toNat else match dom with
    | some d => d.sc s.basin
    | none => s.sc core
  let basin := if stopped then e.pc.toNat else s.basin
  let core' := if e.engine ≥ 8 then 0 else core
  let w0 := e.cause.toNat * 2 ^ 40 + e.subcause.toNat * 2 ^ 32 + resp * 2 ^ 28 + e.engine * 2 ^ 24
    + core' * 2 ^ 12 + s.partNo p * 2 ^ 10 + natOfBool timed * 2 ^ 9 + natOfBool secondary * 2 ^ 8 + e.body
  let w3 := match dom with
    | some d => d.queue * 2 ^ 47 + d.timetable * 2 ^ 35 + d.cmdidx.toNat
    | none => 0
  let micro := match (s.core core).be.micro with
    | some u => if e.engine = 1 then u.index else 0
    | none => 0
  [w0, sc, basin, w3] ++ recordBody e micro

/-- The front end that writes a record (R353): the one that dispatched the launch. A record of no launch goes with those of
front end 0 (DESIGN CHOICE, log 108). -/
def recordFe (dom : Option Domain) : Nat := (dom.map (·.fe)).getD 0

/-- A record in its place among those of its cycle: after those of its front end and of lower ones (R353). -/
def insertRec (r : FaultRec) : List FaultRec → List FaultRec
  | [] => [r]
  | x :: xs => if x.fe ≤ r.fe then x :: insertRec r xs else r :: x :: xs

/-- Store records from place `pos` behind the head of the ring of partition `p`, with SEQ counting from `seq`, and the
count of those that stand then: a full ring, or memory that does not translate, takes no more (R353). -/
def State.storeRecords (s : State) (p : Nat) (pos : Nat) (seq : BitVec 16) : List FaultRec → State × Nat
  | [] => (s, 0)
  | r :: rs =>
    let size := 2 ^ (8 + s.partWord p 0 % 16)
    let a := s.partWord p 2 % 2 ^ 50 + 64 * (((s.part p).fqHead + pos) % size)
    let ws := match r.words with
      | w :: ws => (seq.toNat * 2 ^ 48 + w) :: ws
      | [] => []
    if size ≤ pos then (s, 0)
    else
      let (s', ok) := s.iaStore p a (ws.flatMap fun w => bytesOf w 8)
      if !ok then (s, 0)
      else
        let (s', n) := s'.storeRecords p (pos + 1) (seq + 1) rs
        (s', n + 1)

/-- Lay the records `rs` of this cycle, `new` of them not laid before, in the ring of partition `p`: they stand in the
order of their front ends, each with the SEQ of its place; those that find no room are lost and LOST counts them (R353). -/
def State.layRecords (s : State) (p : Nat) (rs : List FaultRec) (new : Nat) : State :=
  let t := s.part p
  let out := if t.batchAt = s.basin then t.batchOut else 0
  let seq := t.seq + BitVec.ofNat 16 new
  let (s, n) := s.storeRecords p (t.fqCount - out) (seq - BitVec.ofNat 16 rs.length) rs
  s.modPart p fun t =>
    { t with seq, fqCount := t.fqCount - out + n, lost := t.lost + BitVec.ofNat 32 (out + new - n), batchAt := s.basin
             batch := rs, batchOut := n }

/-- The records of this cycle in the ring of partition `p`. -/
def State.cycleRecords (s : State) (p : Nat) : List FaultRec :=
  if (s.part p).batchAt = s.basin then (s.part p).batch else []

/-- Write one fault record (R353). -/
def State.writeRecord (s : State) (p core : Nat) (dom : Option Domain) (e : Ev) (resp : Nat) (secondary : Bool) : State :=
  let r : FaultRec := ⟨recordFe dom, (s.part p).seq, recordWords s p core dom e resp secondary⟩
  s.layRecords p (insertRec r (s.cycleRecords p)) 1

/-- Set SECONDARY in record `num` of this cycle (R49). -/
def State.markSecondary (s : State) (p : Nat) (num : BitVec 16) : State :=
  let mark (r : FaultRec) : FaultRec :=
    if r.num = num then { r with words := r.words.modify 0 (· ||| 0x100) } else r
  s.layRecords p ((s.cycleRecords p).map mark) 0

/-- SECONDARY of an event of a core, with `before` whether another event has set its domain's response: of the events that
a core detects in one cycle, the one of highest priority heads them and the others have SECONDARY set, the record of one
that loses that place too (R49). Events 0x12 and 0x14 and those of a front end or Headwater have no such rank. -/
def State.headRecord (s : State) (core part : Nat) (e : Ev) (before : Bool) : State × Bool :=
  let put (s : State) (sec : Bool) : State :=
    s.modCore core fun k => { k with evHead := some ⟨s.basin, evPrio e.cause, part, (s.part part).seq, sec⟩ }
  if e.engine ≥ 9 ∨ e.cause = 0x12 ∨ e.cause = 0x14 then (s, before)
  else
    match (s.core core).evHead with
    | none => (put s before, before)
    | some h =>
      if h.at_ ≠ s.basin then (put s before, before)
      else if h.prio ≤ evPrio e.cause then (s, true)
      else
        (put (s.markSecondary h.part h.num) h.secondary, h.secondary)

/-! ### Applying a response -/

/-- The other modules of a launch: those that its stream descriptors name as PEER and that the rank tables of its
collective plans name (R57, R361, R385). -/
def State.peerModules (s : State) (d : Domain) : List Nat :=
  let peers := d.cores.flatMap fun ck =>
    (s.core ck.1).fab.streams.toList.filterMap fun x =>
      let w := x.w0.toNat
      if bitOf w 63 ∧ bitsOf w 61 2 = 1 then some (bitsOf w 40 9) else none
  ((peers ++ s.planModules d.part (d.cores.map (·.1))).filter (· != s.moduleId)).eraseDups

/-- Send the notices of a basin domain's kill or replay, each on the first valid route to its module; a module that no
valid route reaches gets none (R57). -/
def State.sendNotices (s : State) (d : Domain) (resp : Nat) (cause sub : BitVec 8) : State :=
  if !d.basin then s
  else
    (s.peerModules d).foldl
      (fun s m =>
        match s.routeToModule d.part m with
        | none => s
        | some i => s.soon (.notice
            { target := m, path := (s.route d.part i).links, timetable := d.timetable, run := d.b0, replays := d.replays
              resp := if resp == 4 || resp == 6 then 4 else 5, ba := s.basin, cause, subcause := sub }))
      s

/-- RESP after the conversions of R54, R55 and R57. -/
def State.effectiveResp (s : State) (d : Domain) (e : Ev) : Nat :=
  let sfpol := bitOf (s.partWord d.part 6) 32
  let r := respOf d.timed sfpol e
  let r := if d.basin && d.timed && r == 2 then 4 else r
  let rlim := bitsOf (s.partWord d.part 0) 21 3
  if (r == 4 || r == 6) && (d.unsafe_ || d.replays ≥ rlim) then (if r == 4 then 5 else 8) else r

/-- The completion status of a response that ends a launch (R350). -/
def respStatus (resp : Nat) (cause : BitVec 8) : BitVec 8 :=
  if resp == 7 then 16 else if cause == 0x11 then 8 else 10

/-- Join a response to the strongest so far (R45, R50). -/
def joinResp (old : Option (Nat × Nat)) (resp status : Nat) : Option (Nat × Nat) :=
  match old with
  | some (r, st) => if respStrength r < respStrength resp then some (resp, status) else some (r, st)
  | none => some (resp, status)

/-- Quarantine (R45): every domain of the partition is killed and QUAR is set. -/
def State.quarantine (s : State) (p : Nat) : State :=
  let s := s.modPart p fun t =>
    { t with words := t.words.setIfInBounds 0 (((t.words[0]?).getD 0) ||| 0x1000000000000000) }
  let ds := s.doms.filter fun e => e.2.part == p && e.2.phase != .ended
  { s with agenda := ds.map (fun e => Turn.op 0 (.kill e.1 16)) ++ s.agenda }

/-- Apply a response to domain `id`, from core `core`: a freeze point 256 SC ahead (R37), or an end of the launch at
once, as for a domain that is frozen already; a fence in addition. A response weaker than the one that waits for the
freeze point is joined to it and not carried out (R45, R50). -/
def State.applyResp (s : State) (id : Nat) (d : Domain) (core : Nat) (e : Ev) (resp : Nat) : State :=
  let s := if resp == 6 || (resp == 8 && e.cause == 0x10) then s.modCore core fun k => { k with fenced := true } else s
  let st := respStatus resp e.cause
  let strongest := joinResp d.resp resp st.toNat
  let outdone := match d.resp with
    | some (r, _) => decide (respStrength resp < respStrength r)
    | none => false
  if resp == 7 then (s.sendNotices d 5 e.cause e.subcause).quarantine d.part
  else if resp ≤ 1 || resp == 3 then s
  else if resp == 2 || (d.timed && !d.basin && freezesFirst e && d.phase != .frozen) then
    s.modDom id fun d => { d with fpt := some (d.fpt.getD (d.sc s.basin + 256)), resp := strongest }
  else if outdone then s
  else
    let s := s.modDom id fun d => { d with resp := strongest }
    let s := s.sendNotices d resp e.cause e.subcause
    if resp == 4 || resp == 6 then s.soon (.op core (.launchReplay id)) else s.soon (.op core (.kill id st))

/-- An event of partition `p` that no domain has: its record, and the quarantine of an integrity violation (R46). -/
def State.raiseNone (s : State) (p core : Nat) (e : Ev) : State :=
  let r := respOf (s.timed core) false e
  let s := s.writeRecord p core none e r false
  if r = 7 then s.quarantine p else s

/-- An event of a domain, or of a run of it, that has ended: the record alone, with SECONDARY set, and the quarantine of an
integrity violation (R403). -/
def State.recordEnded (s : State) (core : Nat) (d : Domain) (e : Ev) : State :=
  let r := respOf d.timed (bitOf (s.partWord d.part 6) 32) e
  let s := s.writeRecord d.part core (some d) e r true
  if r == 7 then s.quarantine d.part else s

/-- An event of a live domain: its record, and its response (R46, R49). RESP of a record is the response of its own
event after the conversions of R54 to R57, also where a stronger one waits already (DESIGN CHOICE, log 91). -/
def State.raiseLive (s : State) (id core : Nat) (d : Domain) (e : Ev) : State :=
  let r := s.effectiveResp d e
  let (s, secondary) := s.headRecord core d.part e d.resp.isSome
  (s.writeRecord d.part core (some d) e r secondary).applyResp id d core e r

/-- An event of core `c` whose response is `resp`, which another rule than R46 gives (R234, R237, R315, R327). -/
def State.raiseAs (s : State) (c : Nat) (e : Ev) (resp : Nat) : State :=
  match (s.core c).dom, s.domOf c with
  | some id, some d =>
    let (s, secondary) := s.headRecord c d.part e d.resp.isSome
    (s.writeRecord d.part c (some d) e resp secondary).applyResp id d c e resp
  | _, _ => s.writeRecord (s.partOf c) c none e resp false

/-- Whether an event waits for the resume of its domain: one of its engines or transfers, detected after the freeze
(R50). A translation that faults or a full shadow pool is what the resume itself awaits (R204), and a BE interrupt is
recorded at once (R46). -/
def Domain.defers (d : Domain) (e : Ev) : Bool :=
  (d.phase == .frozen || d.phase == .evicted) && decide (1 ≤ e.engine ∧ e.engine ≤ 8)
    && !(e.cause == 0x06 || e.cause == 0x0B || e.cause == 0x14)

/-- An event of domain `id` detected on core `core`, on a result that lands at SC `land`: its record, and its response
(R46). For a domain that has ended, the record alone, with SECONDARY set, and the quarantine of an integrity violation
(R403). -/
def State.raiseDomAt (s : State) (id core land : Nat) (e : Ev) : State :=
  match s.dom id with
  | none => s.raiseNone (s.partOf core) core e
  | some d =>
    if d.phase == .ended then s.recordEnded core d e
    else if d.defers e then s.setDom id { d with later := d.later ++ [(land, core, e)] }
    else s.raiseLive id core d e

/-- An event of domain `id` detected on core `core`. -/
def State.raiseDom (s : State) (id core : Nat) (e : Ev) : State :=
  s.raiseDomAt id core (((s.dom id).map fun d => d.sc s.basin).getD 0) e

/-- An event of core `c`. -/
def State.raise (s : State) (c : Nat) (e : Ev) : State :=
  match (s.core c).dom with
  | some id => s.raiseDom id c e
  | none => s.raiseNone (s.partOf c) c e

/-- An event of core `c` on a result that lands at SC `land`. -/
def State.raiseAt (s : State) (c land : Nat) (e : Ev) : State :=
  match (s.core c).dom with
  | some id => s.raiseDomAt id c land e
  | none => s.raiseNone (s.partOf c) c e

/-- A fault that the memory side reports later than it met it: the event of the domain's run that issued the access. -/
def State.reported (s : State) (c : Nat) (dom : Option Nat) (replays : Nat) (e : Ev) : State :=
  match dom with
  | none => s.raiseNone (s.partOf c) c e
  | some id =>
    match s.dom id with
    | none => s.raiseNone (s.partOf c) c e
    | some d => if d.replays = replays then s.raiseDom id c e else s.recordEnded c d e

/-- A fault of a Timed access issued now: the memory side reports it within 256 cycles, at a cycle that the specification
leaves open (R52, R259; log 4). -/
def State.raiseLate (s : State) (c : Nat) (e : Ev) : State :=
  let n := min (Config.reportDelay s.freeCount).toNat 256
  let s := { s with freeCount := s.freeCount + 1 }
  if n = 0 then s.raise c e
  else
    let run := (s.domOf c).map (·.replays)
    { s with calendar := s.calendar ++ [⟨none, s.basin + n, .report c (s.core c).dom (run.getD 0) e⟩] }

/-- A fault of a memory access of core `c`: in Timed the memory side reports it, in Elastic it is an event at once. -/
def State.raiseMem (s : State) (c : Nat) (e : Ev) : State := if s.timed c then s.raiseLate c e else s.raise c e

/-- The response that an event of core `c` would take now. -/
def State.respNow (s : State) (c : Nat) (e : Ev) : Nat :=
  match s.domOf c with
  | some d => s.effectiveResp d e
  | none => respOf (s.timed c) false e

/-! ### Performance counters (R394) -/

/-- Whether a select register counts event `ev`: EN and EV (R394). -/
def pcSelects (ev : Nat) (sel : BitVec 9) : Bool := bitOf sel.toNat 8 && bitsOf sel.toNat 0 8 == ev

/-- Advance the performance counters of core `c` that count event `ev` by `n`. -/
def State.count (s : State) (c ev n : Nat) : State :=
  let k := s.core c
  if k.pcsel.toList.any (pcSelects ev) then
    s.setCore c { k with
      pc := Vector.zipWith (fun v sel => if pcSelects ev sel then v + BitVec.ofNat 48 n else v) k.pc k.pcsel }
  else s

/-! ### Building events -/

/-- An event of the bundle engine of the core whose turn it is, by slot `k` (R58, R60). -/
def State.beEv (s : State) (cause sub k : Nat) (faddr : Nat := 0) : Ev :=
  { cause := BitVec.ofNat 8 cause, subcause := BitVec.ofNat 8 sub, engine := 1, slot := k
    pc := ((s.core s.cur).be.pc).setWidth 64, faddr := BitVec.ofNat 64 faddr, tcode := 0, issue := 0, tengine := 0
    duesc := 0, body := 1, words := [] }

/-- An event of the control core of the core whose turn it is. -/
def State.ccEv (s : State) (cause sub : Nat) (faddr : Nat := 0) (tengine : Nat := 0) : Ev :=
  { cause := BitVec.ofNat 8 cause, subcause := BitVec.ofNat 8 sub, engine := 0, slot := 15
    pc := (s.core s.cur).cc.pc, faddr := BitVec.ofNat 64 faddr, tcode := 0, issue := 0, tengine
    duesc := 0, body := 1, words := [] }

/-- The detail that a trap writes (R199): TCAUSE, FADDR, FCOORD and FSC. -/
def State.infoOf (s : State) (c : Nat) (e : Ev) (fcoord : Nat := 0) : TrapInfo :=
  { tcause := tcauseOf e, faddr := e.faddr, fcoord := BitVec.ofNat 64 fcoord, fsc := BitVec.ofNat 64 (s.sc c) }

/-- Take an exception of the control core of the current core, with its event and its fault record (R47, R185). -/
def State.ccTrap (s : State) (cause tval : Nat) (e : Ev) : State :=
  let c := s.cur
  let info := s.infoOf c e
  (s.raise c e).modCore c fun k => k.takeTrap (BitVec.ofNat 64 cause) (BitVec.ofNat 64 tval) (some info)

/-- An illegal instruction of the control core (R79, R181): code 0x02, mcause 2. mtval takes `w`, the word of an illegal
encoding, or else zero (DESIGN CHOICE, log 24). -/
def State.ccIllegal (s : State) (w : Nat := 0) : State := (s.count s.cur 5 1).ccTrap 2 w (s.ccEv 0x02 0)

/-- mcause of interrupt `n`. -/
def interruptCause (n : Nat) : Word := BitVec.ofNat 64 (2 ^ 63 + n)

/-- A bundle-engine event whose response is a trap: the engine stops issue and takes the trap once every earlier result
has landed (R127). -/
def State.beTrapStart (s : State) (c : Nat) (e : Ev) : State :=
  let sc := s.sc c
  s.modBe c fun b => { b with state := .trapping, trapEv := b.trapEv ++ [(e, sc)] }

/-- An event of the bundle engine detected after issue (R127): in Elastic it traps at the boundary that follows, or at
once if the engine issues nothing. -/
def State.beLate (s : State) (c : Nat) (e : Ev) : State :=
  let r := s.respNow c e
  let sc := s.sc c
  let s := s.raise c e
  if r = 0 ∧ !s.timed c then
    s.modBe c fun b =>
      { b with trapEv := b.trapEv ++ [(e, sc)], state := if b.state == .idle || b.state == .trapped then .trapping else b.state }
  else s

/-- An event of the bundle engine of core `c`: the record and response, and in Elastic the trap. -/
def State.beRaise (s : State) (c : Nat) (e : Ev) : State :=
  let r := s.respNow c e
  let s := s.raise c e
  if r = 0 ∧ !s.timed c then s.beTrapStart c e else s

/-- A BE interrupt or TRAP becomes pending (R125, R127): a TRAP is discarded while another is pending, and so is either
kind while one of the other is pending (DESIGN CHOICE, log 92). In Timed the event is recorded at once and interrupt 16
pends until launch end. -/
def State.pendBe (s : State) (c : Nat) (e : Ev) : State :=
  if (s.core c).be.pend14.isSome then s
  else
    let sc := s.sc c
    let s := s.modBe c fun b => { b with pend14 := some (e, sc) }
    if s.timed c then (s.raise c e).modCc c fun k => { k with mip := k.mip ||| 0x10000 } else s

end Sys2Proof.Machine
end

