-- ==== Sys2Proof/Machine/Operands.lean ====
section
/-! DEFINITION. The operands of slot operations: guards (R63, R64), the registers that a form reads under the
window-read mode (R101, R134, R165), cross-reads (R65, R102), effective addresses (R241, R261) and the stream-register
checks (R164). -/

namespace Sys2Proof.Machine

/-- The register that a guard tests: (file, number) (R63). -/
def guardReg (g : Guard) : Nat × Nat := if g.reg.toNat < 16 then (0, g.reg.toNat) else (1, g.reg.toNat - 16)

/-- Whether a guard holds (R63). -/
def guardHolds (b : Be) (g : Guard) : Bool :=
  ((b.read (guardReg g).1 (guardReg g).2).getLsbD g.bit.toNat) == g.pol

/-! ### Stream registers (R162 to R165) -/

/-- The fields of a stream register's word. -/
structure StreamReg where
  adv : Nat
  sofb : Nat
  sofa : Nat
  sstr : Nat
  scb : Nat
  sca : Nat
  blk : Nat
  kind : Nat
deriving DecidableEq, Repr

/-- The layout of R162. -/
def streamReg (w : Nat) : StreamReg :=
  { adv := bitsOf w 48 16, sofb := bitsOf w 41 7, sofa := bitsOf w 34 7, sstr := bitsOf w 30 4, scb := bitsOf w 26 4
    sca := bitsOf w 22 4, blk := bitsOf w 4 4, kind := bitsOf w 0 4 }

/-- Block size B of a BLK code (R164). -/
def blkSize (b : Nat) : Nat :=
  match b with
  | 1 => 32
  | 2 => 16
  | _ => 64

/-- The checks of R164 for elements `lo` to `hi − 1`: a kind, a BLK code of 0 to 3, and every scale byte index in 0 to
127. `useB` is true where operand b is scaled too. -/
def streamOk (S : StreamReg) (hi : Nat) (useB : Bool) : Bool :=
  1 ≤ S.kind && S.kind ≤ 6 && S.blk ≤ 3 &&
    (S.blk == 0 ||
      (let q := (hi - 1) / blkSize S.blk
       S.sofa + q * S.sstr ≤ 127 && (!useB || S.sofb + q * S.sstr ≤ 127)))

/-- The stream register that TYPE `t` names. -/
def Be.stream (b : Be) (t : Nat) : StreamReg := streamReg (b.readNat 10 (t - 16))

/-- Elements that a VCVT reads or writes on its narrow side: the highest index plus 1 (R153). -/
def vcvtHi (f : FVX) : Nat :=
  let es := esize f.stype.toNat
  let ed := esize f.dtype.toNat
  let n := f.w.bits / max es ed
  let narrowE := if isStreamType f.stype.toNat then es else ed
  if narrowE < max es ed ∧ f.half then 2 * n else n

/-- Whether a form is an illegal instruction at issue because of the stream register it names (R152, R153, R164). -/
def streamIllegal (b : Be) (i : Instr) : Bool :=
  match i with
  | .vdot f => !streamOk (b.stream f.type.toNat) (f.w.bits / 8) true
  | .vcvt f =>
    if isStreamType f.stype.toNat then !streamOk (b.stream f.stype.toNat) (vcvtHi f) false
    else if isStreamType f.dtype.toNat then !streamOk (b.stream f.dtype.toNat) (vcvtHi f) false
    else false
  | _ => false

/-! ### Register reads under the window-read mode -/

/-- The stream register and scale registers that a narrow form of file `own` reads. -/
def narrowReads (b : Be) (own t : Nat) (useB : Bool) : List (Nat × Nat) :=
  let S := b.stream t
  (10, t - 16) :: (if S.blk == 0 then [] else (own, S.sca) :: (if useB then [(own, S.scb)] else []))

/-- Whether a V form uses b and c. -/
def vUsesB (i : Instr) : Bool :=
  match i with
  | .vabs _ => false
  | .vneg _ => false
  | .vred _ => false
  | .vscan _ => false
  | .vshfl f => shflUsesB f.aux.toNat
  | _ => true

def vUsesC (i : Instr) : Bool :=
  match i with
  | .vfma _ => true
  | .vfms _ => true
  | .vfnma _ => true
  | .vclamp _ => true
  | .vsel _ => true
  | .vdot _ => true
  | .p5dot4 _ => true
  | _ => false

/-- Whether the data register of an M or X form is a source. -/
def dataIsSource (i : Instr) : Bool :=
  match i with
  | .sts _ => true
  | .sta _ => true
  | .stl _ => true
  | .stag _ => true
  | .send _ => true
  | .rst _ => true
  | _ => false

/-- The file code of an FS source (R71). -/
def fsFile (f : BitVec 2) : Nat := 6 + f.toNat

/-- The registers, as (file, number), that an operation reads as operands, its guard apart (R97, R101, R134). -/
def operandReads (b : Be) (i : Instr) : List (Nat × Nat) :=
  match i.form.2 with
  | .s3 f => let o := (SSlot.toSlot f.sl).file; [(o, f.a.toNat), (o, f.b.toNat)]
  | .s2 f => [((SSlot.toSlot f.sl).file, f.a.toNat)]
  | .sf f =>
    let o := (SSlot.toSlot f.sl).file
    match i with
    | .bins _ => [(o, f.a.toNat), (o, f.d.toNat)]
    | _ => [(o, f.a.toNat)]
  | .si f => [((SSlot.toSlot f.sl).file, f.a.toNat)]
  | .slc f =>
    match i with
    | .lil _ => []
    | _ => [((SSlot.toSlot f.sl).file, f.d.toNat)]
  | .cp f => [(f.file.toNat, f.src.toNat)]
  | .sw f => [((SSlot.toSlot f.sl).file, f.a.toNat)]
  | .bi f => [(1, f.a.toNat)]
  | .bare _ =>
    match i with
    | .ret _ => [(1, 15)]
    | _ => []
  | .loopr f => [(1, f.sb.toNat)]
  | .lstr f => [(1, f.sb.toNat)]
  | .v f =>
    let o := (VSlot.toSlot f.sl).file
    (o, f.a.toNat) :: ((if vUsesB i then [(o, f.b.toNat)] else []) ++ (if vUsesC i then [(o, f.c.toNat)] else []) ++
      (if isStreamType f.type.toNat then narrowReads b o f.type.toNat true else []))
  | .vx f =>
    let o := (VSlot.toSlot f.sl).file
    (o, f.a.toNat) ::
      (if isStreamType f.stype.toNat then narrowReads b o f.stype.toNat false
       else if isStreamType f.dtype.toNat then narrowReads b o f.dtype.toNat false else [])
  | .vi f => [(if f.isSb then 1 else 0, f.s.toNat)]
  | .ve f => [((VSlot.toSlot f.sl).file, f.a.toNat)]
  | .vb f => [(if f.isSb then 1 else 0, f.s.toNat)]
  | .vcp f => [(f.file.toNat, f.src.toNat)]
  | .fs f => [(fsFile f.file, f.src.toNat)]
  | .m f => ((MSlot.toSlot f.sl).file, f.areg.toNat) :: (if dataIsSource i then [(dfileCode f.dfile, f.dreg.toNat)] else [])
  | .sld f => [((MSlot.toSlot f.sl).file, f.areg.toNat), (10, f.st.toNat)]
  | .ldt f => [((MSlot.toSlot f.sl).file, f.areg.toNat), (1, f.t.toNat)]
  | .amo f =>
    [((MSlot.toSlot f.sl).file, f.areg.toNat), (dfileCode f.dfile, f.dreg.toNat)] ++
      (if f.op == 7 then [(dfileCode f.dfile, f.cmp.toNat)] else [])
  | .mcp f => [(f.file.toNat, f.src.toNat)]
  | .madd f => [((MSlot.toSlot f.sl).file, f.a.toNat)]
  | .xd f => if dataIsSource i then [(dfileCode f.dfile, f.dreg.toNat)] else []
  | .xo f => if dataIsSource i then [(dfileCode f.dfile, f.dreg.toNat)] else []
  | .xa f => (dfileCode f.dfile, f.dreg.toNat) :: (if f.op == 7 then [(dfileCode f.dfile, f.cmp.toNat)] else [])
  | _ => []

/-- Every register that an operation reads under the window-read mode: its guard and its operands (R64, R101). -/
def slotReads (b : Be) (i : Instr) : List (Nat × Nat) := guardReg i.form.2.guard :: operandReads b i

/-- The registers that an operation writes, as (file, number) (R67): its own destination, the registers of a scratchpad,
memory or fabric load, the address register that SLD advances, the link of a call, and a stream or address register. -/
def slotWrites (i : Instr) : List (Nat × Nat) :=
  let own (sl : Slot) (d : Nat) : List (Nat × Nat) := [(sl.file, d)]
  match i.form.2 with
  | .s3 f => own f.sl.toSlot f.d.toNat
  | .s2 f => own f.sl.toSlot f.d.toNat
  | .sf f => own f.sl.toSlot f.d.toNat
  | .si f => own f.sl.toSlot f.d.toNat
  | .slc f => own f.sl.toSlot f.d.toNat
  | .cp f => own f.sl.toSlot f.d.toNat
  | .sw f => [(10, f.n.toNat)]
  | .bj _ => match i with
    | .call _ => [(1, 15)]
    | _ => []
  | .bi _ => match i with
    | .calli _ => [(1, 15)]
    | _ => []
  | .v f => own f.sl.toSlot f.d.toNat
  | .vx f => own f.sl.toSlot f.d.toNat
  | .vi f => own f.sl.toSlot f.d.toNat
  | .ve f => own f.sl.toSlot f.d.toNat
  | .vb f => own f.sl.toSlot f.d.toNat
  | .vcp f => own f.sl.toSlot f.d.toNat
  | .fs f => [(9, f.d.toNat)]
  | .m f => if dataIsSource i then [] else [(dfileCode f.dfile, f.dreg.toNat)]
  | .sld f => [(dfileCode f.dfile, f.dreg.toNat), (f.sl.toSlot.file, f.areg.toNat)]
  | .ldt f => [(dfileCode f.dfile, f.dreg.toNat)]
  | .amo f => [(dfileCode f.dfile, f.dreg.toNat)]
  | .mcp f => own f.sl.toSlot f.d.toNat
  | .madd f => own f.sl.toSlot f.d.toNat
  | .mli f => own f.sl.toSlot f.d.toNat
  | .xd f => if dataIsSource i then [] else [(dfileCode f.dfile, f.dreg.toNat)]
  | .xo f => if dataIsSource i then [] else [(dfileCode f.dfile, f.dreg.toNat)]
  | .xa f => [(dfileCode f.dfile, f.dreg.toNat)]
  | _ => []

/-- Whether an operation reads a register inside a write window at SC `sc` (R98). -/
def windowRead (b : Be) (sc : Nat) (i : Instr) : Bool := (slotReads b i).any fun r => b.inWindow sc r.1 r.2

/-- The files that an operation reads through their cross-read port, one entry per operand (R65 rule 5, R102, R134,
R261, R265, R267, R363). -/
def crossReads (i : Instr) : List Nat :=
  let other (own f : Nat) : List Nat := if f = own then [] else [f]
  match i.form.2 with
  | .cp f => other (SSlot.toSlot f.sl).file f.file.toNat
  | .loopr _ => [1]
  | .lstr _ => [1]
  | .vi f => [if f.isSb then 1 else 0]
  | .vb f => [if f.isSb then 1 else 0]
  | .vcp f => other (VSlot.toSlot f.sl).file f.file.toNat
  | .fs f => other 9 (fsFile f.file)
  | .m f => if dataIsSource i then [dfileCode f.dfile] else []
  | .ldt _ => [1]
  | .amo f => [dfileCode f.dfile]
  | .mcp f => other (MSlot.toSlot f.sl).file f.file.toNat
  | .xd f => if dataIsSource i then [dfileCode f.dfile] else []
  | .xo f => if dataIsSource i then [dfileCode f.dfile] else []
  | .xa f => [dfileCode f.dfile]
  | _ => []

/-! ### Effective addresses (R241, R261) -/

/-- (register + offset × bytes) mod 2^48, the offset being a signed integer. -/
def eaOf (reg : Nat) (ofs : Int) (bytes : Nat) : Nat := wrapInt ((reg : Int) + ofs * bytes) 48

/-- EA of a memory-slot form of any format that computes one (R261, R264, R265, R267). -/
def slotEA (b : Be) (i : Instr) : Nat :=
  match i.form.2 with
  | .m f => eaOf (b.readNat (MSlot.toSlot f.sl).file f.areg.toNat) f.ofs.toInt (sizeBytes f.size)
  | .sld f => eaOf (b.readNat (MSlot.toSlot f.sl).file f.areg.toNat) 0 (sizeBytes f.size)
  | .ldt f => eaOf (b.readNat (MSlot.toSlot f.sl).file f.areg.toNat) f.ofs.toInt (sizeBytes f.size)
  | .amo f => eaOf (b.readNat (MSlot.toSlot f.sl).file f.areg.toNat) f.ofs.toInt (sizeBytes f.size)
  | _ => 0

/-- Bytes(SIZE) of a memory-slot or fabric form. -/
def slotBytes (i : Instr) : Nat :=
  match i.form.2 with
  | .m f => sizeBytes f.size
  | .sld f => sizeBytes f.size
  | .ldt f => sizeBytes f.size
  | .amo f => sizeBytes f.size
  | .xd f => sizeBytes f.size
  | .xo f => sizeBytes f.size
  | .xa _ => 8
  | _ => 1

/-- The virtual address of an EA: SignExtend(EA, 48), as a 64-bit pattern (R241). -/
def vaOfEA (ea : Nat) : Nat := wrapInt (sext ea 48) 64

/-- A CPX or MCPX source's value (R111, R262). -/
def cpValue (b : Be) (file src : Nat) : Nat := (b.readNat file src) % 2 ^ 64

end Sys2Proof.Machine
end

