-- ==== Sys2Proof/Machine/MemIssue.lean ====
section
/-! DEFINITION. The issue of memory-slot forms (R256 to R268): the faults that an access meets at issue, and the
accesses and landings that it starts. -/

namespace Sys2Proof.Machine

/-- The file and number of a form's data register. -/
def dataReg (dfile : BitVec 3) (dreg : BitVec 4) : Nat × Nat := (dfileCode dfile, dreg.toNat)

/-- Whether an operation is a long-class access of a memory slot, and whether it reads and writes (R256). -/
def longKind (i : Instr) : Option (Bool × Bool) :=
  match i with
  | .ldl _ => some (true, false)
  | .stl _ => some (false, true)
  | .amo _ => some (true, true)
  | _ => none

/-- The bytes a private store holds: the scratchpad's 1 MiB, or the accumulator's logical 128 KiB (R246, R249). -/
def storeLimit (i : Instr) : Option Nat :=
  match i with
  | .lds _ => some (2 ^ 20)
  | .sts _ => some (2 ^ 20)
  | .sld _ => some (2 ^ 20)
  | .ldt _ => some (2 ^ 20)
  | .stag _ => some (2 ^ 20)
  | .lda _ => some (2 ^ 17)
  | .sta _ => some (2 ^ 17)
  | _ => none

/-- The translation of a long-class access of core `s.cur` through its range registers (R241, R243). -/
def State.longIA (s : State) (i : Instr) : Except Nat Nat :=
  let k := s.core s.cur
  match longKind i with
  | none => .error 1
  | some (rd, wr) => s.translateFor (s.partOf s.cur) k.rng .plain (vaOfEA (slotEA k.be i)) (slotBytes i) rd wr

/-- Whether a 128-byte store, for one, needs one or more leases is settled at the home slice; here is the lease of a
pseudo-channel of a domain, in sectors a window (R259, R384). -/
def leaseOf (d : Domain) (stack pc : Nat) : Nat :=
  match d.leases.find? (fun w => bitsOf w.toNat 61 3 == stack && bitsOf w.toNat 53 8 == pc) with
  | some w => bitsOf w.toNat 0 8
  | none => 0

/-- The pseudo-channel of a stack physical address (R245). -/
def pseudoChannel (pa : Nat) : Nat := pa / 256 % 160

/-- The key of a domain's lease count: domain, stack, pseudo-channel and window (R259). -/
def leaseKey (dom stack pc win : Nat) : Nat := ((win * 2 ^ 20 + dom) * 8 + stack) * 256 + pc

/-- Count the sectors of a Timed access due at SC `due` against the lease of its pseudo-channel: the new state, or none
where the lease is exceeded (R259). `one` counts the access once whatever it touches. -/
def State.takeLease (s : State) (id : Nat) (d : Domain) (p ia n due : Nat) (pa : Nat) (one : Bool) : Option State :=
  let (stack, _) := s.home p ia
  let pcn := pseudoChannel pa
  let need := if one then 1 else (piecesOf ia n).length
  let k := leaseKey id stack pcn (due / 1024)
  let used := (sget s.mem.leaseUse k).getD 0
  if used + need > leaseOf d stack pcn then none
  else some { s with mem := { s.mem with leaseUse := sinsert s.mem.leaseUse k (used + need) } }

/-- The body 0x06 of a translation fault (R378). -/
def State.xlatWords (s : State) (p va ia level pages : Nat) : List Word :=
  let (stack, L) := s.home p ia
  [BitVec.ofNat 64 (va % 2 ^ 57), BitVec.ofNat 64 ia,
    BitVec.ofNat 64 (stack * 2 ^ 61 + level * 2 ^ 59 + L % 2 ^ 47), BitVec.ofNat 64 (pages * 2 ^ 32)]

/-- The body 0x09 of a shadow-pool exhaustion (R60). -/
def State.shadowWords (s : State) (p va ia : Nat) (dom : Nat) (sub : Nat) : List Word :=
  let (stack, L) := s.home p ia
  let free := (s.part p).shadow.length
  let held := (s.mem.bindings.filter fun b => b.dom == dom).length
  let holder := match s.boundBy p stack L with
    | some b => if sub = 2 then s.dom b.dom else none
    | none => none
  [BitVec.ofNat 64 (va % 2 ^ 57), BitVec.ofNat 64 ia, BitVec.ofNat 64 (free * 2 ^ 32 + held),
    match holder with
    | some d => BitVec.ofNat 64 (d.queue * 2 ^ 47 + d.timetable * 2 ^ 35 + d.cmdidx.toNat)
    | none => 0]

/-- Why a translated access cannot go on: an event with its body. -/
def State.xlatEvent (s : State) (e : Ev) (p va ia : Nat) (x : Xlat) : Option Ev :=
  match x with
  | .fault sub level =>
    some { e with cause := 0x06, subcause := BitVec.ofNat 8 sub, body := 6, words := s.xlatWords p va ia level 1 }
  | .classX =>
    some { e with cause := 0x0E, subcause := 0, body := 3
                  words := [BitVec.ofNat 64 (4 * 2 ^ 60 + 3 * 2 ^ 58 + ia % 2 ^ 50 / 64 * 64), 0, BitVec.ofNat 64 (8 * 2 ^ 48),
                    BitVec.ofNat 64 (va % 2 ^ 57)] }
  | _ => none

/-- The faults of a memory-slot operation at issue, for an operation whose guard holds (R243, R246, R249, R257, R261):
misalignment, bounds, range faults, and in Elastic the translation that the memory side confirms before the bundle
executes. -/
def memEvents (s : State) (i : Instr) : List Ev :=
  let c := s.cur
  let k := s.core c
  let slot := i.form.2.slot.rank
  let ea := slotEA k.be i
  let n := slotBytes i
  match storeLimit i with
  | some lim =>
    if ea % n ≠ 0 then [s.beEv 0x05 4 slot ea]
    else if ea ≥ lim then [s.beEv 0x05 3 slot ea]
    else []
  | none =>
    match longKind i with
    | none => []
    | some (rd, wr) =>
      let va := vaOfEA ea
      if ea % n ≠ 0 then [s.beEv 0x05 4 slot va]
      else
        match s.longIA i with
        | .error sub => [s.beEv 0x05 sub slot va]
        | .ok ia =>
          let p := s.partOf c
          let mine (r : LongReq) : Bool := r.core == c && r.dom == k.dom && r.engine == 1 && r.slot == slot
          if s.mem.reqs.countP mine + s.mem.sampled.countP mine ≥ 1024 then [s.beEv 0x08 3 slot va]
          else if s.timed c then []
          else
            let x := s.translateHome p ia rd wr
            match s.xlatEvent (s.beEv 0x06 0 slot va) p va ia x with
            | some e => [e]
            | none =>
              if wr then
                match s.bindForWrite k.dom p ia x with
                | .error sub =>
                  [{ s.beEv 0x0B sub slot va with body := 9, words := s.shadowWords p va ia (k.dom.getD 0) sub }]
                | .ok _ => []
              else []

/-! ### Effects -/

/-- A fresh id for an access. -/
def State.freshId (s : State) : State × Nat :=
  let c := s.cur
  let id := (s.core c).be.nextId
  (s.modBe c fun b => { b with nextId := id + 1 }, id)

/-- Start a scratchpad, accumulator or tag access that samples or performs at +2 (R256). -/
def State.spIssue (s : State) (kind : SpKind) (slot addr : Nat) (bytes : List Byte) (len : Nat) (tag : BitVec 16)
    (id : Nat) : State :=
  let c := s.cur
  let sc := s.sc c
  s.modBe c fun b => { b with accesses := b.accesses ++
    [{ kind, addr, bytes, len, tag, due := sc + 2, issue := sc, rank := slot, id, pc := b.pc, poison := false, keep := 0 }] }

/-- LoadInto of R261: a landing that waits for access `id`. A scalar register takes the bytes zero-extended; a vector
register keeps its other bits. -/
def State.loadLanding (s : State) (slot : Nat) (r : Nat × Nat) (n lat id : Nat) : State :=
  if r = (0, 0) then s
  else
    let c := s.cur
    let sc := s.sc c
    let len := if r.1 ≤ 1 then 64 else 8 * n
    s.modBe c fun b => { b with landings := b.landings ++
      [{ file := r.1, reg := r.2, lo := 0, len, data := 0, due := sc + lat, issue := sc, rank := slot, flags := 0
         flagSlot := 4, src := some id }] }

/-- The effect of a load from a private store, landing after `lat`. -/
def effLoad (kind : SpKind) (i : Instr) (r : Nat × Nat) (tag : BitVec 16) (lat : Nat) (s : State) : State :=
  let slot := i.form.2.slot.rank
  let ea := slotEA (s.core s.cur).be i
  let (s, id) := s.freshId
  (s.spIssue kind slot ea [] (slotBytes i) tag id).loadLanding slot r (slotBytes i) lat id

/-- StoreData (R261): the low bytes of the data register, read at issue. -/
def storeData (b : Be) (r : Nat × Nat) (n : Nat) : List Byte := bytesOf (b.readNat r.1 r.2) n

/-- The effect of a store to a private store. -/
def effStore (kind : SpKind) (i : Instr) (r : Nat × Nat) (s : State) : State :=
  let b := (s.core s.cur).be
  let (s, id) := s.freshId
  s.spIssue kind i.form.2.slot.rank (slotEA b i) (storeData b r (slotBytes i)) (slotBytes i) 0 id

/-- A long-class request of the current core, due 512 SC after issue (R256). In Timed it is translated now, and a fault
or a lease overrun is reported while the request stays held (R52, R258, R259). -/
def State.longIssue (s : State) (i : Instr) (kind : ReqKind) (data : VWord) (op : BitVec 4) (cmp : Word) (id : Nat) : State :=
  let c := s.cur
  let k := s.core c
  let slot := i.form.2.slot.rank
  let n := slotBytes i
  let va := vaOfEA (slotEA k.be i)
  match s.longIA i with
  | .error _ => s
  | .ok ia =>
    let p := s.partOf c
    let sc := s.sc c
    let rd := kind != .store
    let wr := kind != .load
    let (s, x) := s.translateNow p ia rd wr
    let s := s.count c 6 1
    let req : LongReq :=
      { id, core := c, dom := k.dom, part := p, timed := s.timed c, kind, va, ia, bytes := n, data
        mask := BitVec.ofNat 128 (maskOf n), keep := 0, op, cmp, due := sc + 512, issue := sc, rank := slot, slot, pc := k.be.pc
        engine := 1, entry := 0, xlat := x, poison := false }
    let push (s : State) (r : LongReq) : State := { s with mem := { s.mem with reqs := s.mem.reqs ++ [r] } }
    let e := s.beEv 0x06 0 slot va
    match s.xlatEvent e p va ia x with
    | some ev => (push s req).raiseMem c ev
    | none =>
      match (if wr then s.bindForWrite k.dom p ia x else .ok s) with
      | .error sub =>
        (push s { req with xlat := .fault 0 0 }).raiseMem c
          { e with cause := 0x0B, subcause := BitVec.ofNat 8 sub, body := 9
                   words := s.shadowWords p va ia (k.dom.getD 0) sub }
      | .ok s =>
        match x, k.dom, s.domOf c with
        | .ok pa _ _, some did, some d =>
          if d.timed then
            match s.takeLease did d p ia n (sc + 512) pa (kind == .atomic) with
            | some s => push s req
            | none => s.raiseLate c { e with cause := 0x08, subcause := 3, body := 1, words := [], duesc := BitVec.ofNat 64 (sc + 512) }
          else push s req
        | _, _, _ => push s req

def effLds (f : FM) (s : State) : State := effLoad .load (.lds f) (dataReg f.dfile f.dreg) 0 6 s

def effSts (f : FM) (s : State) : State := effStore .store (.sts f) (dataReg f.dfile f.dreg) s

def effLda (f : FM) (s : State) : State := effLoad .accLoad (.lda f) (dataReg f.dfile f.dreg) 0 4 s

def effSta (f : FM) (s : State) : State := effStore .accStore (.sta f) (dataReg f.dfile f.dreg) s

/-- LDL: sampled at +512, landing at +1024 (R263). -/
def effLdl (f : FM) (s : State) : State :=
  let (s, id) := s.freshId
  (s.longIssue (.ldl f) .load 0 0 0 id).loadLanding (MSlot.toSlot f.sl).rank (dataReg f.dfile f.dreg) (sizeBytes f.size)
    1024 id

/-- STL: performs at +512 (R263). -/
def effStl (f : FM) (s : State) : State :=
  let r := dataReg f.dfile f.dreg
  let data := (s.core s.cur).be.read r.1 r.2
  let (s, id) := s.freshId
  s.longIssue (.stl f) .store data 0 0 id

/-- SLD: an LDS at the address register, which then advances by ADV of the stream register (R264). -/
def effSld (f : FSld) (s : State) : State :=
  let slot := MSlot.toSlot f.sl
  let b := (s.core s.cur).be
  let ea := slotEA b (.sld f)
  let adv := sext (streamReg (b.readNat 10 f.st.toNat)).adv 16
  let s := effLoad .load (.sld f) (dataReg f.dfile f.dreg) 0 6 s
  s.land slot.rank slot.file f.areg.toNat 0 48 (BitVec.ofNat 1024 (wrapInt ((ea : Int) + adv) 48)) 1

/-- LDT: an LDS whose granule's tag is compared at the sample SC with sbT[15:0] read at issue (R265). -/
def effLdt (f : FLdt) (s : State) : State :=
  let tag := BitVec.ofNat 16 ((s.core s.cur).be.readNat 1 f.t.toNat)
  effLoad .tagLoad (.ldt f) (dataReg f.dfile f.dreg) tag 6 s

/-- STAG: the tag of the granule takes the low 16 bits of DREG at +2 (R266). -/
def effStag (f : FM) (s : State) : State :=
  let b := (s.core s.cur).be
  let r := dataReg f.dfile f.dreg
  let (s, id) := s.freshId
  s.spIssue .tagStore (MSlot.toSlot f.sl).rank (slotEA b (.stag f)) [] 2 (BitVec.ofNat 16 (b.readNat r.1 r.2)) id

/-- AMO: one indivisible access at +512, the old value landing at +1024 (R267). -/
def effAmo (f : FAmo) (s : State) : State :=
  let b := (s.core s.cur).be
  let file := dfileCode f.dfile
  let data := b.read file f.dreg.toNat
  let cmp := (b.read file f.cmp.toNat).setWidth 64
  let (s, id) := s.freshId
  (s.longIssue (.amo f) .atomic data f.op cmp id).loadLanding (MSlot.toSlot f.sl).rank (file, f.dreg.toNat)
    (sizeBytes f.size) 1024 id

/-- REL: it covers every STL and AMO of the core's memory slots issued in its bundle or earlier (R268): in Elastic, the
accesses that later bundles' memory slots wait for. In Timed it performs at +512 and orders nothing (R274). -/
def effRel (_f : FRel) (s : State) : State :=
  let c := s.cur
  let sc := s.sc c
  if s.timed c then s else s.modBe c fun b => { b with relIds := [sc] }

/-- MCPX: bits [47:0] of the source, latency 2 (R262). -/
def effMcpx (f : FMCP) (s : State) : State :=
  let slot := MSlot.toSlot f.sl
  s.land slot.rank slot.file f.d.toNat 0 48
    (BitVec.ofNat 1024 (cpValue (s.core s.cur).be f.file.toNat f.src.toNat % 2 ^ 48)) 2

/-- MADDI: (a + signed immediate) mod 2^48, latency 1 (R262). -/
def effMaddi (f : FMadd) (s : State) : State :=
  let slot := MSlot.toSlot f.sl
  let a := (s.core s.cur).be.readNat slot.file f.a.toNat
  s.land slot.rank slot.file f.d.toNat 0 48 (BitVec.ofNat 1024 (wrapInt ((a : Int) + f.imm.toInt) 48)) 1

/-- MLI: the immediate zero-extended, latency 1 (R262). -/
def effMli (f : FMli) (s : State) : State :=
  let slot := MSlot.toSlot f.sl
  s.land slot.rank slot.file f.d.toNat 0 48 (f.imm.setWidth 1024) 1

/-! ### Stalls -/

/-- The space (R223), first byte, bytes, and whether a memory-slot operation reads and writes them. -/
def memSpan (s : State) (i : Instr) : Option (Nat × Nat × Nat × Bool × Bool) :=
  let ea := slotEA (s.core s.cur).be i
  let n := slotBytes i
  match i with
  | .lds _ => some (0, ea, n, true, false)
  | .sld _ => some (0, ea, n, true, false)
  | .ldt _ => some (0, ea, n, true, false)
  | .sts _ => some (0, ea, n, false, true)
  | .lda _ => some (1, ea, n, true, false)
  | .sta _ => some (1, ea, n, false, true)
  | _ =>
    match longKind i with
    | some (rd, wr) => some (2, vaOfEA ea % 2 ^ 57, n, rd, wr)
    | none => none

/-- Whether a range of the scoreboard conflicts with an access: they overlap and one of them writes (R26). -/
def SbEntry.conflicts (e : SbEntry) (space base len : Nat) (rd wr : Bool) : Bool :=
  e.space == space && decide (e.base < base + len) && decide (base < e.base + e.len) && ((e.wr && (rd || wr)) || (e.rd && wr))

/-- Whether an Elastic access of a memory slot waits for an entry of the range scoreboard (R26, R208, R213). -/
def scoreboardHazard (s : State) (i : Instr) : Bool :=
  match memSpan s i with
  | some (space, base, len, rd, wr) =>
    !s.timed s.cur && (s.core s.cur).eng.sboard.any fun e => e.conflicts space base len rd wr
  | none => false

/-- Whether an Elastic REL still holds this operation's access back (R268): an STL or AMO issued at or before the REL's
SC has not performed, and the REL was in an earlier bundle. -/
def relStall (s : State) (i : Instr) : Bool :=
  let c := s.cur
  let sc := s.sc c
  let k := s.core c
  !s.timed c && ((storeLimit i).isSome || (longKind i).isSome) && k.be.relIds.any fun t =>
    t < sc && s.mem.reqs.any (fun r => r.core == c && r.dom == k.dom && r.engine == 1 && r.kind != .load && r.issue ≤ t)

/-- Whether a memory-slot operation stalls its bundle in Elastic. -/
def memStall (s : State) (i : Instr) : Bool := relStall s i || scoreboardHazard s i

end Sys2Proof.Machine
end

