-- ==== Sys2Proof/Machine/FabricIssue.lean ====
section
/-! DEFINITION. The issue of fabric forms (R361 to R369): stream descriptors and state registers, routes, the faults and
stalls that a form meets at issue, and the transfers that it starts. -/

namespace Sys2Proof.Machine

/-! ### Stream descriptors, state registers and routes -/

/-- Fields of a stream descriptor (R361). -/
def Stream.v (x : Stream) : Bool := x.w0.getLsbD 63
def Stream.kind (x : Stream) : Nat := bitsOf x.w0.toNat 61 2
def Stream.route (x : Stream) : Nat := bitsOf x.w0.toNat 49 12
def Stream.peer (x : Stream) : Nat := bitsOf x.w0.toNat 40 9
def Stream.pcore (x : Stream) : Nat := bitsOf x.w0.toNat 28 12
def Stream.pstream (x : Stream) : Nat := bitsOf x.w0.toNat 25 3
def Stream.stripes (x : Stream) : Nat := 2 ^ bitsOf x.w0.toNat 22 3
def Stream.stripe (x : Stream) : Nat := 64 * 2 ^ bitsOf x.w0.toNat 19 3
def Stream.qpn (x : Stream) : Nat := bitsOf x.w2.toNat 40 24
def Stream.rkey (x : Stream) : Nat := bitsOf x.w2.toNat 0 32

/-- The fields of a state register (R362). -/
structure XfReg where
  txseq : Nat
  rxseq : Nat
  out : Nat
  rlds : Nat
deriving DecidableEq, Repr

def xfOf (w : Word) : XfReg :=
  { txseq := bitsOf w.toNat 48 16, rxseq := bitsOf w.toNat 32 16, out := bitsOf w.toNat 8 10, rlds := bitsOf w.toNat 0 8 }

def XfReg.word (r : XfReg) : Word :=
  BitVec.ofNat 64 (r.txseq % 2 ^ 16 * 2 ^ 48 + r.rxseq % 2 ^ 16 * 2 ^ 32 + r.out % 2 ^ 10 * 2 ^ 8 + r.rlds % 2 ^ 8)

/-- The state register of stream `x` of core `c`. -/
def State.xf (s : State) (c x : Nat) : XfReg := xfOf (((s.core c).be.regs.xf[x]?).getD 0)

def State.setXf (s : State) (c x : Nat) (r : XfReg) : State :=
  s.modBe c fun b => { b with regs := { b.regs with xf := b.regs.xf.setIfInBounds x r.word } }

/-- The stream of core `c`. -/
def State.stream (s : State) (c x : Nat) : Stream := ((s.core c).fab.streams[x]?).getD ⟨0, 0, 0⟩

/-- Whether SC `sc` lies in an outgoing lease of the domain on a link (R384). -/
def linkLeased (d : Domain) (link sc : Nat) : Bool :=
  d.linkLeases.any fun w =>
    let w := w.toNat
    let n := bitsOf w 53 5
    bitsOf w 59 5 == link && !bitOf w 58 && decide (wrapInt ((sc : Int) - (bitsOf w 24 24 : Nat)) n < bitsOf w 0 24)

/-- A Timed transfer of one flit on a route at SC `sc`: a Bylor route needs a lease on its first link (R384). -/
def State.leaseOk (s : State) (c : Nat) (r : Route) : Bool :=
  match s.domOf c with
  | some d => !d.timed || !r.bylor || linkLeased d r.link0 (s.sc c)
  | none => true

/-! ### Remote addresses (R365) -/

/-- One part of a remote access. -/
structure RemPart where
  module : Nat
  route : Nat
  ofs : Nat
  peerOfs : Nat
  bytes : Nat
deriving DecidableEq, Repr

/-- Part(o) of R365. -/
def remPart (x : Stream) (m0 o place bytes : Nat) : RemPart :=
  let k := o / x.stripe % x.stripes
  { module := m0 + k, route := x.route + k, ofs := place
    peerOfs := o / (x.stripe * x.stripes) * x.stripe + o % x.stripe, bytes }

/-- The parts of an access of `n` bytes at region-2 address `ia` (R365). -/
def remParts (x : Stream) (ia n : Nat) : List RemPart :=
  let m0 := bitsOf ia 39 9
  let o := ia % 2 ^ 39
  if o / x.stripe = (o + n - 1) / x.stripe then [remPart x m0 o 0 n]
  else [remPart x m0 o 0 64, remPart x m0 (o + 64) 64 64]

/-- The stream, operand width and offset of a fabric form. -/
def xfStream (i : Instr) : Nat :=
  match i.form.2 with
  | .xd f => f.x.toNat
  | .xo f => f.x.toNat
  | .xa f => f.x.toNat
  | .xf f => f.x.toNat
  | .xw f => f.x.toNat
  | _ => 0

def xfOffset (i : Instr) : Int :=
  match i.form.2 with
  | .xo f => f.ofs.toInt
  | .xa f => f.ofs.toInt
  | _ => 0

/-- The virtual address of a remote form: RBASE + offset × bytes (R365). -/
def xfVa (x : Stream) (i : Instr) : Nat := wrapInt ((x.w1.toNat : Int) + xfOffset i * slotBytes i) 64

/-- Whether a remote form reads and writes. -/
def xfAccess (i : Instr) : Option (Bool × Bool) :=
  match i with
  | .rld _ => some (true, false)
  | .rst _ => some (false, true)
  | .ramo _ => some (true, true)
  | _ => none

/-- The parts of a remote form on a KIND 1 stream, or the SUBCAUSE of its range fault (R365). -/
def State.xfParts (s : State) (i : Instr) : Except Nat (List RemPart) :=
  let c := s.cur
  let x := s.stream c (xfStream i)
  match xfAccess i with
  | none => .ok []
  | some (rd, wr) =>
    match translate (s.core c).rng .fabric (xfVa x i) (slotBytes i) rd wr with
    | .error sub => .error sub
    | .ok ia =>
      let ps := remParts x ia (slotBytes i)
      if ps.any (fun q => q.module > 511 || q.route > 4095) then .error 2 else .ok ps

/-! ### Faults and stalls at issue -/

/-- The body 0x05 of a fabric event (R371). -/
def State.fabricWords (s : State) (route stream wport lport link seq depSC dueSC : Nat) : List Word :=
  [BitVec.ofNat 64 (route * 2 ^ 52 + stream * 2 ^ 49 + s.moduleId * 2 ^ 40 + wport * 2 ^ 35 + lport * 2 ^ 30
      + link * 2 ^ 25 + seq),
    BitVec.ofNat 64 depSC, BitVec.ofNat 64 dueSC, 0]

/-- A schedule fault with SUBCAUSE 4 of an XF form (R364, R371). -/
def State.arrivalEv (s : State) (route x seq depSC : Nat) : Ev :=
  { s.beEv 0x08 4 8 with
    body := 5
    duesc := BitVec.ofNat 64 (s.sc s.cur)
    words := s.fabricWords route x 31 31 31 seq depSC (s.sc s.cur) }

/-- The transfer that a RECV takes: in Timed the one that arrives at this SC (R364). -/
def State.recvHeld (s : State) (c x : Nat) : Option Held :=
  match ((s.core c).fab.rx[x]?).getD none with
  | some h => if s.timed c && h.arr != s.sc c then none else some h
  | none => none

/-- Landing-area slots that are free (R367). -/
def freeLanding (k : Core) : Option Nat := (List.range 256).find? fun i => !k.fab.loads.any (fun l => l.1 == i)

/-- The faults of a fabric form at issue (R363 to R369, R384, R386), for a form whose guard holds. -/
def fabricEvents (s : State) (i : Instr) : List Ev :=
  let c := s.cur
  let k := s.core c
  let xn := xfStream i
  let x := s.stream c xn
  let timed := s.timed c
  let p := s.partOf c
  let r := s.xf c xn
  let range (sub : Nat) (fa : Nat) : List Ev := [s.beEv 0x05 sub 8 fa]
  let late : List Ev := [{ s.beEv 0x08 3 8 with duesc := BitVec.ofNat 64 (s.sc c) }]
  let remote (extra : Bool) : List Ev :=
    if x.kind = 0 then range 2 0
    else if x.kind = 2 then
      (match i with
       | .ramo f => if f.op == 0 || f.op == 7 then (if timed && extra then late else []) else range 2 0
       | _ => if timed && extra then late else [])
    else
      match s.xfParts i with
      | .error sub => range sub (xfVa x i)
      | .ok ps =>
        if ps.any (fun q => !s.boundaryOk c (s.route p q.route)) then range 2 (xfVa x i)
        else if timed && (extra || ps.any (fun q => !s.leaseOk c (s.route p q.route))) then late
        else []
  match xfAccess i, i.form.2 with
  | none, .xd _ =>
    if !x.v then range 1 0
    else if x.kind = 2 then range 2 0
    else
      match i with
      | .send _ =>
        let rt := s.route p x.route
        if !s.boundaryOk c rt then range 2 0
        else if timed && !s.leaseOk c rt then late
        else if !timed && k.be.sendWait ≥ 4096 then
          [{ s.beEv 0x09 0 8 with
             body := 5, words := s.fabricWords x.route xn 31 31 31 r.txseq (s.sc c) (s.sc c + rt.l) }]
        else []
      | _ =>
        match s.recvHeld c xn with
        | none => if timed then [s.arrivalEv x.route xn r.rxseq 0] else []
        | some h => if h.flit.seq.toNat ≠ r.rxseq then [s.arrivalEv h.flit.route xn h.flit.seq.toNat h.flit.depSC] else []
  | none, .xf _ => if !x.v then range 1 0 else []
  | none, .xw f =>
    if !x.v then range 1 0 else if timed && decide (f.n.toNat ≤ r.out) then late else []
  | some (true, _), _ =>
    if !x.v then range 1 0 else remote (decide (k.fab.loads.length ≥ 256) || decide (r.rlds ≥ 255))
  | some (false, _), _ =>
    if !x.v then range 1 0
    else
      let n := match s.xfParts i with
        | .ok ps => max ps.length 1
        | .error _ => 1
      remote (decide (r.out + n > 1023))
  | _, _ => []

/-- Whether a transfer for a stream is still on its way within the module. -/
def State.flitDue (s : State) (core x : Nat) : Bool :=
  s.calendar.any fun d =>
    match d.turn with
    | .op _ (.flitArrival f) => f.req.isNone && f.dstCore == core && f.stream == x
    | _ => false

/-- Whether an Elastic fabric form stalls its bundle (R364, R367, R369). A peer stream on another module is taken to be
empty (log 14). -/
def fabricStall (s : State) (i : Instr) : Bool :=
  let c := s.cur
  let k := s.core c
  let xn := xfStream i
  let x := s.stream c xn
  let r := s.xf c xn
  if s.timed c then false
  else
    match i with
    | .send _ =>
      x.kind == 0 && ((((s.core x.pcore).fab.rx[x.pstream]?).getD none).isSome || s.flitDue x.pcore x.pstream)
    | .recv _ => (s.recvHeld c xn).isNone
    | .rld _ => (freeLanding k).isNone || decide (r.rlds ≥ 255)
    | .ramo _ => (freeLanding k).isNone || decide (r.rlds ≥ 255)
    | .rst _ =>
      let n := match s.xfParts i with
        | .ok ps => max ps.length 1
        | .error _ => 1
      decide (r.out + n > 1023)
    | .ackw f => decide (f.n.toNat ≤ r.out)
    | _ => false

/-! ### Effects -/

/-- Deliver a transfer to a core of this module after the route's latency: at an SC of the sender's domain when the
receiver shares it, else at a basin count. A route that is not usable loses the transfer (R396). -/
def State.deliver (s : State) (c : Nat) (f : Flit) (r : Route) : State :=
  if !r.v then s
  else
    let same := f.req.isNone && (s.core c).dom == (s.core f.dstCore).dom && (s.core c).dom.isSome
    let due : Due := if same then ⟨(s.core c).dom, s.sc c + r.l, .op f.dstCore (.flitArrival f)⟩
      else ⟨none, s.basin + r.l, .op f.dstCore (.flitArrival f)⟩
    { s with calendar := s.calendar ++ [due] }

/-- Put a transfer on its route: into the fabric switch of its first link, through the port of the die's network (R359),
or to a core of this module. -/
def State.inject (s : State) (c : Nat) (f : Flit) (r : Route) : State :=
  if r.bylor then
    if r.v then
      { s with io := { s.io with inject := s.io.inject ++ [⟨f, 17, r.link0, s.basin, max 1 ((f.bytes + 127) / 128), (s.core c).dom,
        ((s.domOf c).map (·.replays)).getD 0⟩] } }
    else s
  else s.deliver c f r

/-- Writes that leave a launch's own domains make it unsafe to replay (R53, R54): a transfer to a core of another
domain, or a remote or host write. -/
def State.markUnsafe (s : State) (c : Nat) : State :=
  match (s.core c).dom with
  | some id => s.modDom id fun d => { d with unsafe_ := true }
  | none => s

/-- A transfer or write to another module leaves the launch's domains unless the launch runs a basin timetable, whose
domains on the other modules it reaches (R18, R53). -/
def State.markOutside (s : State) (c : Nat) : State :=
  match s.domOf c with
  | some d => if d.basin then s else s.markUnsafe c
  | none => s

/-- SEND: one flit on ROUTE to the peer's stream, carrying TXSEQ, which advances (R364). -/
def effSend (f : FXD) (s : State) : State :=
  let c := s.cur
  let xn := f.x.toNat
  let x := s.stream c xn
  let r := s.xf c xn
  let rt := s.route (s.partOf c) x.route
  let reg := dataReg f.dfile f.dreg
  let n := sizeBytes f.size
  let fl : Flit :=
    { route := x.route, srcModule := s.moduleId, srcCore := c, dstCore := x.pcore, stream := x.pstream
      seq := BitVec.ofNat 16 r.txseq, bytes := n
      data := BitVec.ofNat 1024 (((s.core c).be.readNat reg.1 reg.2) % 2 ^ (8 * n)), poisoned := false, depSC := s.sc c
      timed := s.timed c, req := none, plan := none }
  let s := s.setXf c xn { r with txseq := r.txseq + 1 }
  let s := s.modBe c fun b => { b with sendWait := 0 }
  if x.kind = 0 then
    let s := if (s.core x.pcore).dom == (s.core c).dom then s else s.markUnsafe c
    s.deliver c fl rt
  else
    (s.markOutside c).inject c fl rt

/-- RECV: the held transfer is taken, RXSEQ advances, and its low bytes land at +2, zeros where it is shorter (R364).
Poisoned payload is event 0x0D on the receiver (R295). -/
def effRecv (f : FXD) (s : State) : State :=
  let c := s.cur
  let xn := f.x.toNat
  let r := s.xf c xn
  match s.recvHeld c xn with
  | none => s
  | some h =>
    let n := sizeBytes f.size
    let reg := dataReg f.dfile f.dreg
    let data := h.flit.data.toNat % 2 ^ (8 * h.flit.bytes) % 2 ^ (8 * n)
    let s := s.modFab c fun k => { k with rx := k.rx.setIfInBounds xn none }
    let s := if h.flit.poisoned then s else s.setXf c xn { r with rxseq := r.rxseq + 1 }
    let s := if reg = (0, 0) ∨ h.flit.poisoned then s
      else s.land 8 reg.1 reg.2 0 (if reg.1 ≤ 1 then 64 else 8 * n) (BitVec.ofNat 1024 data) 2
    if h.flit.poisoned then
      s.raise c { s.beEv 0x0D 0 8 with body := 3, words := [BitVec.ofNat 64 (3 * 2 ^ 60), 0, BitVec.ofNat 64 (7 * 2 ^ 48), 0] }
    else s

/-- The remote requests of a form, sent on their routes or, on a KIND 2 stream, as an RDMA operation (R365). `slot` is
the landing-area slot of a load. -/
def State.sendRemote (s : State) (i : Instr) (kind slot : Nat) (data : VWord) (op : BitVec 4) (cmp : Word) (fl : Bool) :
    State × List RemPart :=
  let c := s.cur
  let xn := xfStream i
  let x := s.stream c xn
  let n := slotBytes i
  if x.kind = 2 then
    let va := xfVa x i
    let m : OutMsg := match kind with
      | 0 => .hostRead x.qpn x.rkey va n
      | 1 => .hostWrite x.qpn x.rkey va (bytesOf data.toNat n)
      | _ => .hostAtomic x.qpn x.rkey va (op == 7) (data.setWidth 64) cmp
    (s.emit m, [⟨0, 0, 0, 0, n⟩])
  else
    match s.xfParts i with
    | .error _ => (s, [])
    | .ok ps =>
      let p := s.partOf c
      let timed := s.timed c
      (ps.foldl
        (fun s q =>
          let rt := s.route p q.route
          s.inject c
            { route := q.route, srcModule := s.moduleId, srcCore := c, dstCore := 0, stream := xn, seq := 0, bytes := q.bytes
              data := 0, poisoned := false, depSC := s.sc c, timed, plan := none
              req := some
                { kind, srcModule := s.moduleId, srcCore := c, stream := xn, slot, ofs := q.ofs, part := p, ia := q.peerOfs
                  bytes := q.bytes, data := BitVec.ofNat 1024 (bitsOf data.toNat (8 * q.ofs) (8 * q.bytes)), op, cmp, fl
                  timed, due := s.basin + rt.l + 512, ovldbg := (s.core c).cc.calctl.getLsbD 7, pc := (s.core c).be.pc, bslot := 8
                  va := BitVec.ofNat 64 (xfVa x i % 2 ^ 57) } } rt)
        s, ps)

/-- The latest L + LB over the parts of a load (R366). -/
def State.roundTrip (s : State) (c : Nat) (ps : List RemPart) : Nat :=
  ps.foldl (fun a q => let r := s.route (s.partOf c) q.route; max a (r.l + r.lb)) 0

/-- A remote load or atomic: a landing-area slot is taken, RLDS rises, and the result lands at t + 514 + L + LB or, in
Elastic, no earlier (R366, R367). Its landing carries 16 + x as flag slot, for RLDS to fall when it lands. -/
def State.remoteLoad (s : State) (i : Instr) (kind : Nat) (reg : Nat × Nat) (data : VWord) (op : BitVec 4) (cmp : Word) : State :=
  let c := s.cur
  let xn := xfStream i
  let r := s.xf c xn
  let slot := (freeLanding (s.core c)).getD 0
  let (s, ps) := s.sendRemote i kind slot data op cmp false
  let (s, id) := s.freshId
  let s := s.setXf c xn { r with rlds := r.rlds + 1 }
  let to_ := if (s.stream c xn).kind = 2 then (0, xfVa (s.stream c xn) i)
    else ((ps.head?).map fun q => (q.route, q.peerOfs)).getD (0, 0)
  let s := s.modFab c fun k =>
    { k with
      loads := k.loads ++ [(slot, xn, id, ps.length)], landing := serase k.landing slot
      loadAt := sinsert k.loadAt slot to_ }
  let s := s.loadLanding 8 reg (slotBytes i) (514 + s.roundTrip c ps) id
  s.modBe c fun b => { b with landings := b.landings.map fun l => if l.src = some id then { l with flagSlot := 16 + xn } else l }

/-- RLD (R365, R366). -/
def effRld (f : FXO) (s : State) : State := s.remoteLoad (.rld f) 0 (dataReg f.dfile f.dreg) 0 0 0

/-- RAMO: the data and compare registers are read at issue; only a host atomic or a remote one leaves the launch's
domains (R53, R365). -/
def effRamo (f : FXA) (s : State) : State :=
  let b := (s.core s.cur).be
  let file := dfileCode f.dfile
  let s' := s.remoteLoad (.ramo f) 2 (file, f.dreg.toNat) (b.read file f.dreg.toNat) f.op
    ((b.read file f.cmp.toNat).setWidth 64)
  s'.markOutside s.cur

/-- RST: OUT rises by the number of parts (R366). -/
def effRst (f : FXO) (s : State) : State :=
  let c := s.cur
  let xn := f.x.toNat
  let r := s.xf c xn
  let reg := dataReg f.dfile f.dreg
  let (s, ps) := s.sendRemote (.rst f) 1 0 ((s.core c).be.read reg.1 reg.2) 0 0 f.fl
  (s.setXf c xn { r with out := r.out + ps.length }).markOutside c

/-- A marker of stream `xn` on route `i` (R368): to this module's own fabric interface, or out of the module. -/
def State.sendMarker (s : State) (c xn i : Nat) : State :=
  let r := s.route (s.partOf c) i
  if r.dmod = s.moduleId then s.schedule (s.basin + max 1 r.l) (.op c (.ackSend s.moduleId c xn true))
  else s.emit (.marker i c xn)

/-- FLUSH: a marker on each of the stream's routes; on a KIND 2 stream the queue pair's acknowledgement is asked for
(R368). -/
def effFlush (f : FXF) (s : State) : State :=
  let c := s.cur
  let xn := f.x.toNat
  let x := s.stream c xn
  if x.kind = 2 then s.emit (.marker 0 c xn)
  else (List.range x.stripes).foldl (fun s k => s.sendMarker c xn (x.route + k)) s

/-- ACKW changes no state (R369). -/
def effAckw (_f : FXW) (s : State) : State := s

end Sys2Proof.Machine
end

