-- ==== Sys2Proof/Machine/Slot.lean ====
section
/-! DEFINITION. What every slot operation shares: the events and stalls that it meets at issue (R64, R65, R98 to R101,
R164, R243), and the run of one operation. -/

namespace Sys2Proof.Machine

/-- Whether the guard of an operation holds on the current core. -/
def State.guardOn (s : State) (i : Instr) : Bool := guardHolds (s.core s.cur).be i.form.2.guard

/-- Whether the operation reads a register inside a window. -/
def State.readsWindow (s : State) (i : Instr) : Bool := windowRead (s.core s.cur).be (s.sc s.cur) i

/-- The events of one slot operation at issue: the illegal instruction of a stream register (R164) and the window-read
trap (R99), both whatever its guard holds; and, where the guard holds, the faults of its access. -/
def slotEvents (s : State) (i : Instr) : List Ev :=
  let c := s.cur
  let k := i.form.2.slot.rank
  (if streamIllegal (s.core c).be i then [s.beEv 0x02 0 k] else []) ++
    (if s.wrmode c = 1 ∧ s.readsWindow i then [s.beEv 0x03 0 k] else []) ++
    (if s.guardOn i then memEvents s i ++ fabricEvents s i else [])

/-- Whether the operation holds its bundle back in this cycle: a window read under WAIT (R99), an Elastic REL (R268),
or an Elastic fabric form (R364, R367, R369). -/
def slotStall (s : State) (i : Instr) : Bool :=
  (s.wrmode s.cur == 2 && s.readsWindow i) || (s.guardOn i && (memStall s i || fabricStall s i))

/-- One slot operation at its SC: `eff` is what it does when its guard holds, `off` what it does when the guard fails
(nothing, but for the queue rule of a .nt branch, R116). An operation that stalls does nothing yet, and one that raises
an event does nothing but raise it. -/
def runSlot (i : Instr) (eff off : State → State) (s : State) : Host.Outcome State Fault Refusal :=
  if s.wrmode s.cur = 2 ∧ s.readsWindow i then .next s
  else
    match firstEvent (slotEvents s i) with
    | some e => .next (s.beRaise s.cur e)
    | none => if slotStall s i then .next s else .next (if s.guardOn i then eff s else off s)

end Sys2Proof.Machine
end

