-- ==== Sys2Proof/Machine/FabricSlot.lean ====
section
/-! DEFINITION. The fabric-slot instructions (R361 to R369): each runs its effect at issue. -/

namespace Sys2Proof.Machine

def execSend (f : FXD) (s : State) : Host.Outcome State Fault Refusal := runSlot (.send f) (effSend f) id s

def execRecv (f : FXD) (s : State) : Host.Outcome State Fault Refusal := runSlot (.recv f) (effRecv f) id s

def execRld (f : FXO) (s : State) : Host.Outcome State Fault Refusal := runSlot (.rld f) (effRld f) id s

def execRst (f : FXO) (s : State) : Host.Outcome State Fault Refusal := runSlot (.rst f) (effRst f) id s

def execRamo (f : FXA) (s : State) : Host.Outcome State Fault Refusal := runSlot (.ramo f) (effRamo f) id s

def execFlush (f : FXF) (s : State) : Host.Outcome State Fault Refusal := runSlot (.flush f) (effFlush f) id s

def execAckw (f : FXW) (s : State) : Host.Outcome State Fault Refusal := runSlot (.ackw f) (effAckw f) id s

end Sys2Proof.Machine
end

