-- ==== Sys2Proof/Machine/Store.lean ====
section
/-! DEFINITION. The private stores of a core: the scratchpad with its poison (R246, R295), the accumulator buffer's
halves (R212, R213), the tag store (R250) and the bundles of the instruction scratchpad (R251). -/

namespace Sys2Proof.Machine

/-! ### Scratchpad -/

/-- The 64-bit words that the `n` bytes at `a` touch. -/
def wordsOf (a n : Nat) : List Nat := if n = 0 then [] else (List.range ((a + n - 1) / 8 - a / 8 + 1)).map (· + a / 8)

/-- The first poisoned word of the `n` bytes at `a`, as its byte address (R295, R298). -/
def Engines.spadPoisoned (k : Engines) (a n : Nat) : Option Nat :=
  ((wordsOf a n).find? fun w => k.spadPoison.contains w).map (· * 8)

/-- Whether the `n` bytes at `a` cover word `w` whole. -/
def coversWord (a n w : Nat) : Bool := a ≤ 8 * w && 8 * w + 8 ≤ a + n

/-- Store bytes in the scratchpad: a word written whole loses its poison, a partial write leaves it (R295). -/
def Engines.spadStore (k : Engines) (a : Nat) (bs : List Byte) : Engines :=
  { k with
    spad := writeBytes k.spad a bs
    spadPoison := k.spadPoison.filter fun w => !coversWord a bs.length w }

/-- Store bytes that carry poison: the words they touch become poisoned (R295). -/
def Engines.spadStorePoison (k : Engines) (a : Nat) (bs : List Byte) : Engines :=
  { k with
    spad := writeBytes k.spad a bs
    spadPoison := k.spadPoison ++ (wordsOf a bs.length).filter fun w => !k.spadPoison.contains w }

/-! ### Accumulator buffer -/

/-- The half that holds the committed copy of slot `b` (R211). -/
def Engines.half (k : Engines) (b : Nat) : Nat := natOfBool (k.mx.prog.hsel.getLsbD b)

/-- Physical byte of offset `o` in slot `b` of half `h` (R212). -/
def accPhys (h b o : Nat) : Nat := h * 0x20000 + b * 0x2000 + o

/-- Physical byte of a logical accumulator address: its slot's committed half (R212). -/
def Engines.accAddr (k : Engines) (a : Nat) : Nat := accPhys (k.half (a / 0x2000)) (a / 0x2000) (a % 0x2000)

/-- The committed bytes at a logical accumulator address. -/
def Engines.accLoad (k : Engines) (a n : Nat) : List Byte := readBytes k.accum (k.accAddr a) n

/-- A store to the committed copy (R213, R249). -/
def Engines.accStore (k : Engines) (a : Nat) (bs : List Byte) : Engines :=
  { k with accum := writeBytes k.accum (k.accAddr a) bs }

/-! ### Tags -/

/-- The tag of the granule that holds scratchpad byte `a` (R250). -/
def Engines.tagAt (k : Engines) (a : Nat) : BitVec 16 := (sget k.tags (a / 1024)).getD 0

def Engines.setTag (k : Engines) (a : Nat) (t : BitVec 16) : Engines := { k with tags := sput 0 k.tags (a / 1024) t }

/-! ### Instruction scratchpad -/

/-- Fields of a region descriptor (R251). -/
def regionV (w : Word) : Bool := w.getLsbD 63
def regionKind (w : Word) : Bool := w.getLsbD 62
def regionMon (w : Word) : Bool := w.getLsbD 61
def regionBase (w : Word) : Nat := bitsOf w.toNat 0 32

/-- Whether region descriptor `w` holds bundle address `a` or, with `code`, control-core byte address `a` (R251). -/
def regionHolds (code : Bool) (a : Nat) (w : Word) : Bool :=
  regionV w && regionKind w == code && regionBase w ≤ a && a < regionBase w + (if code then 8192 else 128)

/-- The lowest-numbered region from number `r` on that holds an address. -/
def findRegion (code : Bool) (a : Nat) : Nat → List Word → Option Nat
  | _, [] => none
  | r, w :: ws => if regionHolds code a w then some r else findRegion code a (r + 1) ws

/-- Bundle `a` as a 512-bit number; none where no region holds it (R112, R251). -/
def Engines.bundleAt (k : Engines) (a : Half) : Option Nat :=
  match findRegion false a.toNat 0 k.regions.toList with
  | none => none
  | some r => some (readNat k.ispad (r * 0x2000 + 64 * (a.toNat - regionBase ((k.regions[r]?).getD 0))) 64)

/-! ### Data for landings -/

/-- Hand the data of access `id` to its landing. -/
def Be.supply (b : Be) (id : Nat) (data : VWord) (sc : Nat) : Be :=
  { b with landings := b.landings.map fun l =>
      if l.src = some id then { l with data, src := none, due := max l.due sc } else l }

/-- Drop the landing that waits for access `id` (R127). -/
def Be.dropLanding (b : Be) (id : Nat) : Be := { b with landings := b.landings.filter fun l => l.src != some id }

/-! ### Memory-error bodies (R298) -/

/-- An event of code 0x0D for poison met in the scratchpad (SOURCE 2) or accumulator (SOURCE 3) at byte `a`. -/
def Ev.poisoned (e : Ev) (source a : Nat) : Ev :=
  { e with cause := 0x0D, subcause := 0, body := 3
           words := [BitVec.ofNat 64 (3 * 2 ^ 60 + a), 0, BitVec.ofNat 64 (source * 2 ^ 48), 0] }

/-- The code of a severity in MEDIA. -/
def mediaCode : Severity → Nat
  | .clean => 0
  | .c => 1
  | .m => 2
  | .h => 3
  | .x => 4

/-- Body 0x03 of a sector found at its home slice, consumed at virtual address `va` (R298). -/
def sectorWords (i : SectorInfo) (va : Nat) : List Word :=
  [BitVec.ofNat 64 (mediaCode i.sev * 2 ^ 60 + i.tagst * 2 ^ 58 + i.layout * 2 ^ 54 + i.ia % 2 ^ 50),
    BitVec.ofNat 64 (i.pgrp % 2 ^ 36), BitVec.ofNat 64 (i.corr * 2 ^ 56 + i.source * 2 ^ 48 + i.pa % 2 ^ 36), BitVec.ofNat 64 (va % 2 ^ 57)]

/-- Words 4 to 7 of a class X event that no sector describes (R298). -/
def hopWords (source : Nat) (ia : Nat := 0) : List Word :=
  [BitVec.ofNat 64 (4 * 2 ^ 60 + ia % 2 ^ 50), 0, BitVec.ofNat 64 (source * 2 ^ 48), 0]

/-- A class X event of unit `source` at intermediate address `ia` that names no instruction (R299, R300). -/
def classXEv (engine source ia : Nat) : Ev :=
  { cause := 0x0E, subcause := 0, engine, slot := 15, pc := 0, faddr := 0, tcode := 0, issue := 0, tengine := 0
    duesc := 0, body := 3, words := hopWords source ia }

/-- Metadata of the front end that cannot be read (R300). -/
def metadataEv (ia : Nat) : Ev := classXEv 9 8 ia

/-- An event in the save area counts as class X for the launch (R51). -/
def saveEv (ia : Nat) : Ev := classXEv 9 9 ia

end Sys2Proof.Machine
end

