-- ==== Sys2Proof/Machine/Flags.lean ====
section
/-! DEFINITION. The sticky flags (R139, R140): the flags of elements joined, their landing in VFLAGS, and the clear by
the control core; and the draws of stochastic rounding that element-wise forms make (R177). -/

namespace Sys2Proof.Machine

/-- Join the flags of elements. -/
def joinFlags (rs : List (Nat × FlagSet)) : FlagSet := rs.foldl (fun a r => a ||| r.2) 0

/-- The writable bits of VFLAGS: six in each byte (R139). -/
def vflagsMask : Word := 0x3F3F3F3F

/-- OR a landing's flags into VFLAGS at SC `sc` (R140), keeping count of what landed at that SC. -/
def Be.landFlags (b : Be) (sc : Nat) (w : Word) : Be :=
  if w = 0 then b
  else
    { b with
      vflags := b.vflags ||| w
      flagSC := sc
      flagNew := if b.flagSC = sc then b.flagNew ||| w else w }

/-- A write of 1 clears a flag, save one that lands in the same cycle (R139, R140). -/
def Be.clearFlags (b : Be) (sc : Nat) (w : Word) : Be :=
  let keep := if b.flagSC = sc then b.flagNew else 0
  { b with vflags := b.vflags &&& (~~~w ||| keep) }

/-- A CSR write that sets VFLAGS outright is a clear of the bits written 1. -/
def Be.writeFlags (b : Be) (sc : Nat) (w : Word) : Be := b.clearFlags sc (w &&& vflagsMask)

/-- Evaluate elements in order, each with the random word of its rounding: where `sr` holds each draws one word of the
generator, else none does (R177). -/
def mapDraw {α : Type} (sr : Bool) (f : Nat → α → Nat × FlagSet) : Half → List α → List (Nat × FlagSet) × Half
  | g, [] => ([], g)
  | g, x :: xs =>
    let (g', r) := if sr then srDraw g else (g, 0)
    let y := f r x
    let (ys, g'') := mapDraw sr f g' xs
    (y :: ys, g'')

/-- The generator state of vector slot `k` (0 VA, 1 VB, 2 VC) (R177). -/
def Cc.srg (k : Cc) (slot : Nat) : Half :=
  match slot with
  | 0 => k.srga
  | 1 => k.srgb
  | _ => k.srgc

def Cc.setSrg (k : Cc) (slot : Nat) (g : Half) : Cc :=
  match slot with
  | 0 => { k with srga := g }
  | 1 => { k with srgb := g }
  | _ => { k with srgc := g }

end Sys2Proof.Machine
end

