-- ==== Sys2Proof/Machine/Vector.lean ====
section
/-! DEFINITION. The vector slots (R129 to R154) and the profile-5 operations (R157, R158): elements, the operation on
one element, and the forms. -/

namespace Sys2Proof.Machine

/-! ### Elements (R135) -/

/-- The `n` elements of `es` bits from element `i` upwards of a register. -/
def elemsFrom (es : Nat) (v : Nat) (i : Nat) : Nat → List Nat
  | 0 => []
  | n + 1 => bitsOf v (es * i) es :: elemsFrom es v (i + 1) n

/-- The first `n` elements of a register. -/
def elems (es n : Nat) (v : VWord) : List Nat := elemsFrom es v.toNat 0 n

/-- The register that elements make up, element 0 least significant. -/
def packElems (es : Nat) : List Nat → Nat
  | [] => 0
  | x :: xs => x % 2 ^ es + 2 ^ es * packElems es xs

/-- Whether an integer TYPE is signed. -/
def isSigned (t : Nat) : Bool := t ≤ 3

/-- Val of an integer type (R136). -/
def intVal (t p : Nat) : Int := if isSigned t then sext p (esize t) else (p : Int)

/-- The format of a float TYPE (R70). -/
def floatFmt (t : Nat) : FFmt :=
  match t with
  | 8 => fmtF32
  | 9 => fmtBF16
  | _ => fmtF16

/-- Val of a float type (R136). -/
def fVal (t p : Nat) : FVal := decodeF (floatFmt t) p

/-- What an element's operation works under: its type, FZ, rounding and the erratum of VSRA. -/
structure VCtx where
  t : Nat
  fz : Bool
  m : Rnd
  sraErratum : Bool
deriving DecidableEq, Repr

/-- The three source elements A, B and C. -/
structure Abc where
  a : Nat
  b : Nat
  c : Nat
deriving DecidableEq, Repr

/-- RoundF of an exact value with its invalid flag (R136, R141). -/
def roundV (k : VCtx) (r : Nat) (v : FVal × Bool) : Nat × FlagSet :=
  let (p, fl) := roundF (floatFmt k.t) k.fz k.m r v.1
  (p, fl ||| (if v.2 then flagNV else 0))

/-! ### Operations on one element (R141 to R147) -/

/-- A binary operation: the integer rule modulo 2^ESize, or the float rule rounded once (R141). -/
def arith (k : VCtx) (int : Int → Int → Int) (flt : FVal → FVal → FVal × Bool) (r a b : Nat) : Nat × FlagSet :=
  if isIntType k.t then (wrapInt (int (intVal k.t a) (intVal k.t b)) (esize k.t), 0)
  else roundV k r (flt (fVal k.t a) (fVal k.t b))

def elAdd (k : VCtx) (r a b : Nat) : Nat × FlagSet := arith k (· + ·) (fAdd (k.m == .rd)) r a b

def elSub (k : VCtx) (r a b : Nat) : Nat × FlagSet := arith k (· - ·) (fun x y => fAdd (k.m == .rd) x (fNeg y)) r a b

def elMul (k : VCtx) (r a b : Nat) : Nat × FlagSet := arith k (· * ·) fMul r a b

/-- VFMA, VFMS and VFNMA: the product or its negation, plus C or its negation, rounded once (R141). -/
def elFma (negP negC : Bool) (k : VCtx) (r : Nat) (x : Abc) : Nat × FlagSet :=
  let a := fVal k.t x.a
  let c := fVal k.t x.c
  roundV k r (fFma (k.m == .rd) (if negP then fNeg a else a) (fVal k.t x.b) (if negC then fNeg c else c))

/-- VMIN (R142), with `less` the order that puts −0 below +0. -/
def elMin (t a b : Nat) : Nat :=
  if isIntType t then (if intVal t b < intVal t a then b else a)
  else
    let x := fVal t a
    let y := fVal t b
    if x.isNan && y.isNan then qnan (floatFmt t)
    else if x.isNan then b
    else if y.isNan then a
    else if fLtZ y x then b else a

/-- VMAX (R142). -/
def elMax (t a b : Nat) : Nat :=
  if isIntType t then (if intVal t a < intVal t b then b else a)
  else
    let x := fVal t a
    let y := fVal t b
    if x.isNan && y.isNan then qnan (floatFmt t)
    else if x.isNan then b
    else if y.isNan then a
    else if fLtZ x y then b else a

/-- VABS (R143). -/
def elAbs (t a : Nat) : Nat :=
  if isIntType t then wrapInt (intVal t a).natAbs (esize t) else a % 2 ^ (esize t - 1)

/-- VNEG (R143). -/
def elNeg (t a : Nat) : Nat :=
  if isIntType t then wrapInt (-(intVal t a)) (esize t) else a ^^^ 2 ^ (esize t - 1)

/-- VSLL, VSRL and VSRA (R144). -/
def elSll (t a b : Nat) : Nat := if b < esize t then a * 2 ^ b % 2 ^ esize t else 0

def elSrl (t a b : Nat) : Nat := if b < esize t then a / 2 ^ b else 0

/-- VSRA; under erratum 0x0005_0011 a .i64 count of 64 or more leaves the element (R89). -/
def elSra (erratum : Bool) (t a b : Nat) : Nat :=
  if b < esize t then wrapInt (sext a (esize t) / (2 ^ b : Nat)) (esize t)
  else if erratum && t == 3 then a
  else if bitOf a (esize t - 1) then 2 ^ esize t - 1 else 0

/-- Clamp an integer to the range of a type: the pattern, and whether it was clamped (R145, R153). -/
def clampInt (t : Nat) (v : Int) : Nat × Bool :=
  let n := esize t
  let lo : Int := if isSigned t then -(2 ^ (n - 1) : Nat) else 0
  let hi : Int := if isSigned t then (2 ^ (n - 1) : Nat) - 1 else (2 ^ n : Nat) - 1
  if v < lo then (wrapInt lo n, true) else if hi < v then (wrapInt hi n, true) else (wrapInt v n, false)

/-- VADDS and VSUBS (R145). -/
def elSat (t : Nat) (v : Int) : Nat × FlagSet :=
  let (p, sat) := clampInt t v
  (p, if sat then flagSAT else 0)

/-- The condition of VCMP by AUX (R146). -/
def cmpHolds (t aux a b : Nat) : Bool :=
  if isIntType t then
    let x := intVal t a
    let y := intVal t b
    match aux with
    | 0 => x == y
    | 1 => x != y
    | 2 => decide (x < y)
    | 3 => decide (x ≤ y)
    | 4 => decide (y < x)
    | _ => decide (y ≤ x)
  else
    let x := fVal t a
    let y := fVal t b
    let un := x.isNan || y.isNan
    match aux with
    | 0 => !un && fEq x y
    | 1 => un || !fEq x y
    | 2 => !un && fLt x y
    | 3 => !un && (fLt x y || fEq x y)
    | 4 => !un && fLt y x
    | 5 => !un && (fLt y x || fEq x y)
    | _ => un

/-- VSEL (R147). -/
def elSel (t : Nat) (x : Abc) : Nat := if bitOf x.c (esize t - 1) then x.a else x.b

/-- The node of VRED and VSCAN by AUX (R150, R151). -/
def redOp (k : VCtx) (aux r a b : Nat) : Nat × FlagSet :=
  match aux with
  | 0 => elAdd k r a b
  | 1 => (elMin k.t a b, 0)
  | 2 => (elMax k.t a b, 0)
  | 3 => (a &&& b, 0)
  | 4 => (a ||| b, 0)
  | _ => (a ^^^ b, 0)

/-! ### Forms -/

/-- A register of a vector slot's own file. -/
def State.vreg (s : State) (sl : VSlot) (r : BitVec 4) : VWord := (s.core s.cur).be.read (VSlot.toSlot sl).file r.toNat

/-- What element operations of a V form work under. -/
def State.vctx (s : State) (f : FV) : VCtx :=
  { t := f.type.toNat, fz := s.fz s.cur, m := rndOf f.rnd, sraErratum := (s.core s.cur).errata.getLsbD 1 }

/-- The elements of a source of a V form. -/
def State.vsrc (s : State) (f : FV) (r : BitVec 4) : List Nat := elems (esize f.type.toNat) f.n (s.vreg f.sl r)

/-- The triples of source elements of a V form. -/
def State.vtriples (s : State) (f : FV) : List Abc :=
  ((s.vsrc f f.a).zip ((s.vsrc f f.b).zip (s.vsrc f f.c))).map fun e => ⟨e.1, e.2.1, e.2.2⟩

/-- Land `len` bits from bit `lo` of register `d` of a vector slot. -/
def State.landVec (s : State) (sl : VSlot) (d : BitVec 4) (lo len data lat : Nat) (fl : FlagSet := 0) : State :=
  let k := VSlot.toSlot sl
  s.land k.rank k.file d.toNat lo len (BitVec.ofNat 1024 data) lat fl

/-- Set the generator of a vector slot. -/
def State.setSrg (s : State) (sl : VSlot) (g : Half) : State := s.modCc s.cur fun k => k.setSrg sl.index g

def State.srg (s : State) (sl : VSlot) : Half := (s.core s.cur).cc.srg sl.index

/-- Latency of a V form that takes `lat` on float types (R138). -/
def vLat (t lat : Nat) : Nat := if isIntType t then 2 else lat

/-- A form with one rounded result an element: SR draws one word an element on float types (R136, R177). -/
def effRounded (f : FV) (op : VCtx → Nat → Abc → Nat × FlagSet) (s : State) : State :=
  let k := s.vctx f
  let sr := k.m == .sr && !isIntType k.t
  let (ys, g) := mapDraw sr (op k) (s.srg f.sl) (s.vtriples f)
  let s := if sr then s.setSrg f.sl g else s
  s.landVec f.sl f.d 0 f.w.bits (packElems (esize k.t) (ys.map (·.1))) (vLat k.t 4) (joinFlags ys)

/-- A form with one unrounded result an element, at latency 2. -/
def effPlain (f : FV) (op : VCtx → Abc → Nat × FlagSet) (s : State) : State :=
  let k := s.vctx f
  let ys := (s.vtriples f).map (op k)
  s.landVec f.sl f.d 0 f.w.bits (packElems (esize k.t) (ys.map (·.1))) 2 (joinFlags ys)

def effVadd (f : FV) (s : State) : State := effRounded f (fun k r x => elAdd k r x.a x.b) s

def execVadd (f : FV) (s : State) : Host.Outcome State Fault Refusal := runSlot (.vadd f) (effVadd f) id s

def effVsub (f : FV) (s : State) : State := effRounded f (fun k r x => elSub k r x.a x.b) s

def execVsub (f : FV) (s : State) : Host.Outcome State Fault Refusal := runSlot (.vsub f) (effVsub f) id s

def effVmul (f : FV) (s : State) : State := effRounded f (fun k r x => elMul k r x.a x.b) s

def execVmul (f : FV) (s : State) : Host.Outcome State Fault Refusal := runSlot (.vmul f) (effVmul f) id s

/-- VFMA: a × b + c. -/
def effVfma (f : FV) (s : State) : State := effRounded f (elFma false false) s

def execVfma (f : FV) (s : State) : Host.Outcome State Fault Refusal := runSlot (.vfma f) (effVfma f) id s

/-- VFMS: a × b − c. -/
def effVfms (f : FV) (s : State) : State := effRounded f (elFma false true) s

def execVfms (f : FV) (s : State) : Host.Outcome State Fault Refusal := runSlot (.vfms f) (effVfms f) id s

/-- VFNMA: c − a × b. -/
def effVfnma (f : FV) (s : State) : State := effRounded f (elFma true false) s

def execVfnma (f : FV) (s : State) : Host.Outcome State Fault Refusal := runSlot (.vfnma f) (effVfnma f) id s

def effVmin (f : FV) (s : State) : State := effPlain f (fun k x => (elMin k.t x.a x.b, 0)) s

def execVmin (f : FV) (s : State) : Host.Outcome State Fault Refusal := runSlot (.vmin f) (effVmin f) id s

def effVmax (f : FV) (s : State) : State := effPlain f (fun k x => (elMax k.t x.a x.b, 0)) s

def execVmax (f : FV) (s : State) : Host.Outcome State Fault Refusal := runSlot (.vmax f) (effVmax f) id s

/-- VCLAMP: VMIN(VMAX(A, B), C) (R142). -/
def effVclamp (f : FV) (s : State) : State := effPlain f (fun k x => (elMin k.t (elMax k.t x.a x.b) x.c, 0)) s

def execVclamp (f : FV) (s : State) : Host.Outcome State Fault Refusal := runSlot (.vclamp f) (effVclamp f) id s

def effVabs (f : FV) (s : State) : State := effPlain f (fun k x => (elAbs k.t x.a, 0)) s

def execVabs (f : FV) (s : State) : Host.Outcome State Fault Refusal := runSlot (.vabs f) (effVabs f) id s

def effVneg (f : FV) (s : State) : State := effPlain f (fun k x => (elNeg k.t x.a, 0)) s

def execVneg (f : FV) (s : State) : Host.Outcome State Fault Refusal := runSlot (.vneg f) (effVneg f) id s

/-- VAND, VOR, VXOR and VANDN on bits [W−1:0] (R144). -/
def effBits (f : FV) (op : VWord → VWord → VWord) (s : State) : State :=
  s.landVec f.sl f.d 0 f.w.bits (op (s.vreg f.sl f.a) (s.vreg f.sl f.b)).toNat 2

def effVand (f : FV) (s : State) : State := effBits f (· &&& ·) s

def execVand (f : FV) (s : State) : Host.Outcome State Fault Refusal := runSlot (.vand f) (effVand f) id s

def effVor (f : FV) (s : State) : State := effBits f (· ||| ·) s

def execVor (f : FV) (s : State) : Host.Outcome State Fault Refusal := runSlot (.vor f) (effVor f) id s

def effVxor (f : FV) (s : State) : State := effBits f (· ^^^ ·) s

def execVxor (f : FV) (s : State) : Host.Outcome State Fault Refusal := runSlot (.vxor f) (effVxor f) id s

def effVandn (f : FV) (s : State) : State := effBits f (fun a b => a &&& ~~~b) s

def execVandn (f : FV) (s : State) : Host.Outcome State Fault Refusal := runSlot (.vandn f) (effVandn f) id s

def effVsll (f : FV) (s : State) : State := effPlain f (fun k x => (elSll k.t x.a x.b, 0)) s

def execVsll (f : FV) (s : State) : Host.Outcome State Fault Refusal := runSlot (.vsll f) (effVsll f) id s

def effVsrl (f : FV) (s : State) : State := effPlain f (fun k x => (elSrl k.t x.a x.b, 0)) s

def execVsrl (f : FV) (s : State) : Host.Outcome State Fault Refusal := runSlot (.vsrl f) (effVsrl f) id s

def effVsra (f : FV) (s : State) : State := effPlain f (fun k x => (elSra k.sraErratum k.t x.a x.b, 0)) s

def execVsra (f : FV) (s : State) : Host.Outcome State Fault Refusal := runSlot (.vsra f) (effVsra f) id s

def effVadds (f : FV) (s : State) : State := effPlain f (fun k x => elSat k.t (intVal k.t x.a + intVal k.t x.b)) s

def execVadds (f : FV) (s : State) : Host.Outcome State Fault Refusal := runSlot (.vadds f) (effVadds f) id s

def effVsubs (f : FV) (s : State) : State := effPlain f (fun k x => elSat k.t (intVal k.t x.a - intVal k.t x.b)) s

def execVsubs (f : FV) (s : State) : Host.Outcome State Fault Refusal := runSlot (.vsubs f) (effVsubs f) id s

/-- VCMP: all ones where the condition holds (R146). -/
def effVcmp (f : FV) (s : State) : State :=
  effPlain f (fun k x => (if cmpHolds k.t f.aux.toNat x.a x.b then 2 ^ esize k.t - 1 else 0, 0)) s

def execVcmp (f : FV) (s : State) : Host.Outcome State Fault Refusal := runSlot (.vcmp f) (effVcmp f) id s

def effVsel (f : FV) (s : State) : State := effPlain f (fun k x => (elSel k.t x, 0)) s

def execVsel (f : FV) (s : State) : Host.Outcome State Fault Refusal := runSlot (.vsel f) (effVsel f) id s

/-! ### Rearranging forms (R148, R149) -/

/-- Land whole-width elements with no flag. -/
def State.landElems (s : State) (f : FV) (ys : List Nat) (lat : Nat) (fl : FlagSet := 0) : State :=
  s.landVec f.sl f.d 0 f.w.bits (packElems (esize f.type.toNat) ys) lat fl

/-- VPERM: element j of a where j < n, else zero. -/
def effVperm (f : FV) (s : State) : State :=
  let a := s.vsrc f f.a
  s.landElems f ((s.vsrc f f.b).map fun j => a.getD j 0) 2

def execVperm (f : FV) (s : State) : Host.Outcome State Fault Refusal := runSlot (.vperm f) (effVperm f) id s

/-- El(d, i) of a VSHFL pattern (R149). -/
def shflEl (p n : Nat) (a b : List Nat) (i : Nat) : Nat :=
  let h := n / 2
  let ea (j : Nat) : Nat := a.getD j 0
  let eb (j : Nat) : Nat := b.getD j 0
  match p with
  | 0 => ea (n - 1 - i)
  | 1 => ea (i ^^^ 1)
  | 2 => if i % 2 = 0 then ea (i / 2) else eb (i / 2)
  | 3 => if i % 2 = 0 then ea (h + i / 2) else eb (h + i / 2)
  | 4 => if i < h then ea (2 * i) else eb (2 * (i - h))
  | 5 => if i < h then ea (2 * i + 1) else eb (2 * (i - h) + 1)
  | 6 => ea ((i + n - 1) % n)
  | 7 => ea ((i + 1) % n)
  | _ => ea 0

def effVshfl (f : FV) (s : State) : State :=
  s.landElems f ((List.range f.n).map (shflEl f.aux.toNat f.n (s.vsrc f f.a) (s.vsrc f f.b))) 2

def execVshfl (f : FV) (s : State) : Host.Outcome State Fault Refusal := runSlot (.vshfl f) (effVshfl f) id s

/-! ### Reductions and scans (R150, R151) -/

/-- Neighbouring pairs of a list. -/
def pairUp : List Nat → List (Nat × Nat)
  | x :: y :: t => (x, y) :: pairUp t
  | _ => []

/-- Whether a reduction draws: only sums of float types under SR. -/
def redDraws (k : VCtx) (aux : Nat) : Bool := k.m == .sr && !isIntType k.t && aux == 0

/-- The pairwise tree: levels until one element is left; `fuel` bounds the levels. -/
def redTree (k : VCtx) (aux : Nat) : Nat → Half → FlagSet → List Nat → List Nat × FlagSet × Half
  | 0, g, fl, t => (t, fl, g)
  | fuel + 1, g, fl, t =>
    if t.length ≤ 1 then (t, fl, g)
    else
      let (ys, g) := mapDraw (redDraws k aux) (fun r x => redOp k aux r x.1 x.2) g (pairUp t)
      redTree k aux fuel g (fl ||| joinFlags ys) (ys.map (·.1))

/-- The levels of a scan with distances 1, 2, 4 and so on. -/
def scanLevels (k : VCtx) (aux : Nat) : Nat → Nat → Half → FlagSet → List Nat → List Nat × FlagSet × Half
  | 0, _, g, fl, t => (t, fl, g)
  | fuel + 1, d, g, fl, t =>
    if t.length ≤ d then (t, fl, g)
    else
      let (ys, g) := mapDraw (redDraws k aux) (fun r x => redOp k aux r x.1 x.2) g (t.zip (t.drop d))
      scanLevels k aux fuel (2 * d) g (fl ||| joinFlags ys) (t.take d ++ ys.map (·.1))

/-- VRED: the tree's value in element 0, zero above (R150). -/
def effVred (f : FV) (s : State) : State :=
  let k := s.vctx f
  let (t, fl, g) := redTree k f.aux.toNat 8 (s.srg f.sl) 0 (s.vsrc f f.a)
  let s := if redDraws k f.aux.toNat then s.setSrg f.sl g else s
  s.landElems f (t.take 1) 6 fl

def execVred (f : FV) (s : State) : Host.Outcome State Fault Refusal := runSlot (.vred f) (effVred f) id s

/-- VSCAN: the inclusive prefix (R151). -/
def effVscan (f : FV) (s : State) : State :=
  let k := s.vctx f
  let (t, fl, g) := scanLevels k f.aux.toNat 8 1 (s.srg f.sl) 0 (s.vsrc f f.a)
  let s := if redDraws k f.aux.toNat then s.setSrg f.sl g else s
  s.landElems f t 6 fl

def execVscan (f : FV) (s : State) : Host.Outcome State Fault Refusal := runSlot (.vscan f) (effVscan f) id s

/-! ### Narrow kinds (R152, R153, R165) -/

/-- A byte of a scale register. -/
def scaleByte (v : VWord) (k : Nat) : Nat := bitsOf v.toNat (8 * k) 8

/-- The scale exponent of element `i` with offset `ofs` in scale register `v`: none for a scale of 0xFF (R165, R171). -/
def scaleExp (S : StreamReg) (v : VWord) (ofs i : Nat) : Option Int :=
  if S.blk = 0 then some 0
  else
    let e := scaleByte v (ofs + i / blkSize S.blk * S.sstr)
    if e = 255 then none else some ((e : Int) - 127)

/-- NarrowValue of a code under a scale exponent (R165): ScaleNaN is NaN, or +0 with NV. -/
def narrowValue (kind : Nat) (sc : Option Int) (p : Nat) : FVal × FlagSet :=
  match kindOf kind with
  | none => (.nan, 0)
  | some k =>
    match sc with
    | some e => (fScale e (kindValue k p), 0)
    | none => if kindHasNan k then (.nan, 0) else (.fin false 0 0, flagNV)

/-- One lane of VDOT: c plus the products of its narrow pairs, rounded once (R152). -/
def dotLane (k : VCtx) (r c : Nat) (ps : List ((FVal × FlagSet) × (FVal × FlagSet))) : Nat × FlagSet :=
  let (v, inv) := fDot (k.m == .rd) (decodeF fmtF32 c) (ps.map fun e => fMul e.1.1 e.2.1)
  let (p, fl) := roundF fmtF32 k.fz k.m r v
  (p, ps.foldl (fun a e => a ||| e.1.2 ||| e.2.2) fl ||| (if inv then flagNV else 0))

/-- VDOT: n = W / 32 lanes of f32 (R152). -/
def effVdot (f : FV) (s : State) : State :=
  let k := s.vctx f
  let b := (s.core s.cur).be
  let S := b.stream f.type.toNat
  let own := (VSlot.toSlot f.sl).file
  let sa := b.read own S.sca
  let sb := b.read own S.scb
  let a := s.vreg f.sl f.a
  let y := s.vreg f.sl f.b
  let n := f.w.bits / 32
  let pair (i : Nat) : (FVal × FlagSet) × (FVal × FlagSet) :=
    (narrowValue S.kind (scaleExp S sa S.sofa i) (bitsOf a.toNat (8 * i) 8),
      narrowValue S.kind (scaleExp S sb S.sofb i) (bitsOf y.toNat (8 * i) 8))
  let lanes := (List.range n).map fun j =>
    (bitsOf (s.vreg f.sl f.c).toNat (32 * j) 32, (List.range 4).map fun q => pair (4 * j + q))
  let sr := k.m == .sr
  let (ys, g) := mapDraw sr (fun r x => dotLane k r x.1 x.2) (s.srg f.sl) lanes
  let s := if sr then s.setSrg f.sl g else s
  s.landVec f.sl f.d 0 f.w.bits (packElems 32 (ys.map (·.1))) 4 (joinFlags ys)

def execVdot (f : FV) (s : State) : Host.Outcome State Fault Refusal := runSlot (.vdot f) (effVdot f) id s

/-- A value converted to a type of 0 to 10 (R153). -/
def cvtTo (dt : Nat) (fz : Bool) (m : Rnd) (r : Nat) (v : FVal) : Nat × FlagSet :=
  if isFloatType dt then roundF (floatFmt dt) fz m r v
  else
    match v with
    | .nan => (0, flagNV)
    | .inf neg =>
      let n : Int := 2 ^ 70
      ((clampInt dt (if neg then -n else n)).1, flagNV)
    | .fin neg mag e =>
      let (n, inexact) := roundInt m r neg mag e
      let (p, cl) := clampInt dt n
      (p, (if cl then flagNV else 0) ||| (if inexact then flagNX else 0))

/-- A float source converted to a narrow kind, the sign of a NaN kept (R153). -/
def cvtNarrow (kind : Nat) (fz : Bool) (m : Rnd) (r : Nat) (sc : Option Int) (st p : Nat) : Nat × FlagSet :=
  match kindOf kind with
  | none => (0, 0)
  | some k =>
    let neg := bitOf p (esize st - 1)
    let v := fVal st p
    if v.isNan || sc.isNone then kindNan k neg else toKind k fz m r sc v

/-- One element of a VCVT: `p` its source pattern, `i` its index on the narrow side. -/
def cvtElement (f : FVX) (fz : Bool) (S : StreamReg) (sreg : VWord) (r : Nat) (x : Nat × Nat) : Nat × FlagSet :=
  let st := f.stype.toNat
  let dt := f.dtype.toNat
  let m := rndOf f.rnd
  let p := x.1
  if isStreamType st then
    let (v, fl) := narrowValue S.kind (scaleExp S sreg S.sofa x.2) p
    let (q, fl') := cvtTo dt fz m r v
    (q, fl ||| fl')
  else if isStreamType dt then cvtNarrow S.kind fz m r (scaleExp S sreg S.sofa x.2) st p
  else if isIntType st then
    (if isIntType dt then elSat dt (intVal st p) else cvtTo dt fz m r (fOfInt (intVal st p)))
  else cvtTo dt fz m r (fVal st p)

/-- VCVT (R153). -/
def effVcvt (f : FVX) (s : State) : State :=
  let c := s.cur
  let b := (s.core c).be
  let st := f.stype.toNat
  let dt := f.dtype.toNat
  let es := esize st
  let ed := esize dt
  let n := f.w.bits / max es ed
  let hn := if f.half then n else 0
  let src := if es < ed then hn else 0
  let dst := if ed < es then hn else 0
  let S := b.stream (if isStreamType st then st else dt)
  let sreg := b.read (VSlot.toSlot f.sl).file S.sca
  let narrow0 := if isStreamType st then src else dst
  let xs := (List.range n).map fun i => (bitsOf (s.vreg f.sl f.a).toNat (es * (src + i)) es, narrow0 + i)
  let sr := rndOf f.rnd == .sr && !(isIntType st && isIntType dt)
  let (ys, g) := mapDraw sr (cvtElement f (s.fz c) S sreg) (s.srg f.sl) xs
  let s := if sr then s.setSrg f.sl g else s
  s.landVec f.sl f.d (dst * ed) (n * ed) (packElems ed (ys.map (·.1))) 3 (joinFlags ys)

def execVcvt (f : FVX) (s : State) : Host.Outcome State Fault Refusal := runSlot (.vcvt f) (effVcvt f) id s

/-! ### Moving elements (R154) -/

/-- The scalar source of VINS and VBCST. -/
def State.scalarSrc (s : State) (isSb : Bool) (r : BitVec 4) : Nat := (s.core s.cur).be.readNat (natOfBool isSb) r.toNat

/-- VINS: element idx takes the low bits of the scalar register. -/
def effVins (f : FVI) (s : State) : State :=
  let es := esize f.type.toNat
  s.landVec f.sl f.d (f.idx.toNat * es) es (s.scalarSrc f.isSb f.s % 2 ^ es) 2

def execVins (f : FVI) (s : State) : Host.Outcome State Fault Refusal := runSlot (.vins f) (effVins f) id s

/-- VEXT: element idx of a in element 0, zero above. -/
def effVext (f : FVE) (s : State) : State :=
  let es := esize f.type.toNat
  s.landVec f.sl f.d 0 f.w.bits (bitsOf (s.vreg f.sl f.a).toNat (f.idx.toNat * es) es) 2

def execVext (f : FVE) (s : State) : Host.Outcome State Fault Refusal := runSlot (.vext f) (effVext f) id s

/-- VBCST: every element takes the low bits of the scalar register. -/
def effVbcst (f : FVB) (s : State) : State :=
  let es := esize f.type.toNat
  s.landVec f.sl f.d 0 f.w.bits (packElems es (List.replicate (f.w.bits / es) (s.scalarSrc f.isSb f.s))) 2

def execVbcst (f : FVB) (s : State) : Host.Outcome State Fault Refusal := runSlot (.vbcst f) (effVbcst f) id s

/-- VCPX: bits [W−1:0] of a register of va, vb, vc or fs. -/
def effVcpx (f : FVCP) (s : State) : State :=
  s.landVec f.sl f.d 0 f.w.bits ((s.core s.cur).be.readNat f.file.toNat f.src.toNat % 2 ^ f.w.bits) 2

def execVcpx (f : FVCP) (s : State) : Host.Outcome State Fault Refusal := runSlot (.vcpx f) (effVcpx f) id s

/-! ### Profile-5 operations (R157, R158) -/

/-- The micro-sequence that operation `i` takes part in: the bundle runs the largest M of its operations; a guarded-off
operation takes its steps and has no slot pending. -/
def State.p5Begin (s : State) (m : Nat) (i : Instr) (sl : Option VSlot) : State :=
  s.modBe s.cur fun b =>
    let old := b.micro.getD ⟨0, 1, b.pc, [], false⟩
    let m0 := match b.state with
      | .micro m => m
      | _ => 0
    let u : Micro := match sl with
      | some v => { old with slots := old.slots ||| BitVec.ofNat 3 (2 ^ v.index), ops := old.ops ++ [i] }
      | none => old
    { b with micro := some { u with index := 1, pc := b.pc }, state := .micro (max m0 m) }

/-- Micro-step 0 of both forms: the holding registers take the sources. -/
def State.p5Hold (s : State) (f : FV) : State :=
  let k := VSlot.toSlot f.sl
  let s' := s.land k.rank 11 (2 * f.sl.index) 0 f.w.bits (s.vreg f.sl f.a) 1
  s'.land k.rank 11 (2 * f.sl.index + 1) 0 f.w.bits (s.vreg f.sl f.b) 1

/-- P5DOT4, micro-step 0: d takes the lanes of c. -/
def effP5dot4 (f : FV) (s : State) : State :=
  ((s.p5Hold f).landVec f.sl f.d 0 f.w.bits ((s.vreg f.sl f.c).toNat % 2 ^ f.w.bits) 1).p5Begin 5 (.p5dot4 f) (some f.sl)

def execP5dot4 (f : FV) (s : State) : Host.Outcome State Fault Refusal :=
  runSlot (.p5dot4 f) (effP5dot4 f) (fun s => s.p5Begin 5 (.p5dot4 f) none) s

/-- P5HMUL, micro-step 0. -/
def effP5hmul (f : FV) (s : State) : State := (s.p5Hold f).p5Begin 3 (.p5hmul f) (some f.sl)

def execP5hmul (f : FV) (s : State) : Host.Outcome State Fault Refusal :=
  runSlot (.p5hmul f) (effP5hmul f) (fun s => s.p5Begin 3 (.p5hmul f) none) s

/-- A holding register of a slot. -/
def State.holding (s : State) (sl : VSlot) (n : Nat) : Nat := (s.core s.cur).be.readNat 11 (2 * sl.index + n)

/-- Micro-step `k` (1 to 4) of P5DOT4: the k-th byte products are added to the lanes of d. -/
def p5dot4Step (f : FV) (k : Nat) (s : State) : State :=
  let x := s.holding f.sl 0
  let y := s.holding f.sl 1
  let d := (s.vreg f.sl f.d).toNat
  let lane (j : Nat) : Nat :=
    let at_ := 8 * (4 * j + k - 1)
    wrapInt (sext (bitsOf d (32 * j) 32) 32 + sext (bitsOf x at_ 8) 8 * sext (bitsOf y at_ 8) 8) 32
  s.landVec f.sl f.d 0 f.w.bits (packElems 32 ((List.range (f.w.bits / 32)).map lane)) 1

/-- An f16 subnormal taken as the zero of its sign. -/
def f16Flush (p : Nat) : Nat := if p / 1024 % 32 = 0 then p / 32768 * 32768 else p

/-- H(i) of R158: the product of two f16 elements with subnormals taken and given as zeros. -/
def hmulElement (fz : Bool) (a b : Nat) : Nat × FlagSet :=
  let (v, inv) := fMul (decodeF fmtF16 (f16Flush a)) (decodeF fmtF16 (f16Flush b))
  let (p, fl) := roundF fmtF16 fz .rne 0 v
  let fl := fl ||| (if inv then flagNV else 0)
  if p / 1024 % 32 = 0 ∧ p % 1024 ≠ 0 then (p / 32768 * 32768, fl ||| flagUF ||| flagNX) else (p, fl)

/-- Micro-steps 1 and 2 of P5HMUL: the lower and the upper half of the elements. -/
def p5hmulStep (f : FV) (k : Nat) (s : State) : State :=
  let h := f.w.bits / 32
  let first := if k = 1 then 0 else h
  let x := s.holding f.sl 0
  let y := s.holding f.sl 1
  let fz := s.fz s.cur
  let ys := (List.range h).map fun i => hmulElement fz (bitsOf x (16 * (first + i)) 16) (bitsOf y (16 * (first + i)) 16)
  s.landVec f.sl f.d (16 * first) (16 * h) (packElems 16 (ys.map (·.1))) 1 (joinFlags ys)

/-- Micro-step `k` of a pending operation (R158). -/
def p5Step (k : Nat) (i : Instr) (s : State) : State :=
  match i with
  | .p5dot4 f => if k ≤ 4 then p5dot4Step f k s else s
  | .p5hmul f => if k ≤ 2 then p5hmulStep f k s else s
  | _ => s

/-- The micro-steps M of a profile-5 operation (R157). -/
def p5Length (i : Instr) : Nat :=
  match i with
  | .p5dot4 _ => 5
  | .p5hmul _ => 3
  | _ => 0

end Sys2Proof.Machine
end

