-- ==== Sys2Proof/Machine/Home.lean ====
section
/-! DEFINITION. A home slice's service of one cycle (R271, R272): reads, writes, atomics and combines of the requests it
holds, what the sectors of an access report (R292 to R297), strong accesses of mixed size (R286, R287), and the event
HOME_SLICE_CYCLE. -/

namespace Sys2Proof.Machine

/-! ### What sectors report (R292, R294, R295, R297) -/

/-- Raise an event for a domain, or for a core without one. -/
def State.raiseFor (s : State) (dom : Option Nat) (core p : Nat) (e : Ev) : State :=
  match dom with
  | some id => s.raiseDom id core e
  | none => s.raiseNone p core e

/-- The event of one sector for its consumer; an agent that only copies carries poison on (R295). -/
def sectorEvent (mpol copy : Bool) (e : Ev) (va : Nat) (i : SectorInfo) : Option Ev :=
  let at_ (cause : BitVec 8) : Option Ev := some { e with cause, subcause := 0, body := 3, words := sectorWords i va }
  if i.sev == .x then at_ 0x0E
  else if i.tagst == 2 then at_ 0x0F
  else if i.sev == .h then (if copy then none else at_ 0x0D)
  else if i.sev == .m && mpol then at_ 0x0C
  else none

/-- Whether what a sector was is an event for a consumer of its bytes: the operation that it names has no effect (R48). -/
def sectorStops (mpol : Bool) (i : SectorInfo) : Bool := i.sev == .x || i.tagst == 2 || i.sev == .h || (i.sev == .m && mpol)

/-- A partition's class M policy (R294). -/
def State.mpol (s : State) (p : Nat) : Bool := bitOf (s.partWord p 0) 20

/-- Whether the sectors of an access stop it. -/
def State.stopsAccess (s : State) (p : Nat) (found : List (Piece × SectorInfo)) : Bool :=
  found.any fun f => sectorStops (s.mpol p) f.2

/-- Report what the sectors of an access were: the event of highest priority, and the M-delivered bit of the launch for
a flagged class M delivery (R294). -/
def State.reportFound (s : State) (dom : Option Nat) (core p : Nat) (e : Ev) (va : Nat) (copy : Bool)
    (found : List (Piece × SectorInfo)) : State :=
  let mpol := s.mpol p
  let s := match dom with
    | some id => if !mpol && found.any (fun f => f.2.sev == .m) then s.modDom id fun d => { d with mdeliv := true } else s
    | none => s
  match firstEvent (found.filterMap fun f => sectorEvent mpol copy e va f.2) with
  | some ev => s.raiseFor dom core p ev
  | none => s

/-- Whether an access met poison or uncorrectable bytes. -/
def metPoison (found : List (Piece × SectorInfo)) : Bool := found.any fun f => f.2.sev == .h

/-! ### Strong accesses (R286) -/

/-- The earlier strong accesses of the last 1,024 cycles that overlap an access of `n` bytes at offset `L` in mixed
size. -/
def State.strongClash (s : State) (stack L n : Nat) : List StrongRec :=
  s.mem.strong.filter fun r =>
    r.stack == stack && s.basin ≤ r.at_ + 1024 && r.l < L + n && L < r.l + r.bytes && !(r.l == L && r.bytes == n)

/-- The bytes of the access that an overlapping one shares, as a mask. -/
def clashMask (rs : List StrongRec) (L n : Nat) : Nat :=
  (List.range n).foldl
    (fun m i => if rs.any (fun r => r.l ≤ L + i && L + i < r.l + r.bytes) then m + 2 ^ i else m) 0

/-- Note a strong access as performed now, and forget those that are too old to matter. -/
def State.noteStrong (s : State) (stack L n : Nat) : State :=
  { s with mem := { s.mem with
      strong := (s.mem.strong.filter fun r => s.basin ≤ r.at_ + 1024) ++ [⟨s.basin, stack, L, n⟩] } }

/-- `v` with the bytes of `mask` replaced by a free value (R286). -/
def State.freeMix (s : State) (mask n v : Nat) : State × Nat :=
  if mask = 0 then (s, v)
  else
    let (s, x) := s.drawFree
    (s, bytesVal ((List.range n).map fun i =>
      if bitOf mask i then BitVec.ofNat 8 (bitsOf x.toNat (8 * i) 8) else BitVec.ofNat 8 (bitsOf v (8 * i) 8)))

/-- A read and write of `n` bytes as one access: the state, the old value and what the sectors reported. Where they report
an event that names the access, nothing is written (R48). For a strong access, the bytes shared with one of mixed size
take unspecified values, in memory and in the old value (R286). -/
def State.homeRmw (s : State) (strong : Bool) (by_ : Option Nat) (dom : Option Nat) (p ia n : Nat) (x : Xlat)
    (f : Nat → Nat) : State × Nat × List (Piece × SectorInfo) :=
  let (stack, L) := s.home p ia
  let mask := if strong then clashMask (s.strongClash stack L n) L n else 0
  let cls := s.resClass p ia
  let (s, r) := (s.countRes p ia).memReadAs dom p ia n x cls
  let m := bytesVal r.bytes
  if s.stopsAccess p r.found then (s, m, r.found)
  else
    let (s, new) := s.freeMix mask n (f m)
    let (s, old) := s.freeMix mask n m
    let s := s.memWriteAs dom p ia (bytesOf new n) (maskOf n) x cls
    let s := s.breakReservations by_ p ia n
    (if strong then s.noteStrong stack L n else s, old, r.found)

/-! ### The operations of AMO and of the combines (R231, R267) -/

/-- The new memory value of AMO; under erratum 0x0005_0024 a 4-byte min or max compares unsigned (R89). -/
def amoValue (erratum : Bool) (op n m x c : Nat) : Nat :=
  let w := 8 * n
  let x := x % 2 ^ w
  let less (a b : Nat) : Bool := if erratum && n == 4 then decide (a < b) else decide (sext a w < sext b w)
  match op with
  | 0 => (m + x) % 2 ^ w
  | 1 => if less x m then x else m
  | 2 => if less m x then x else m
  | 3 => m &&& x
  | 4 => m ||| x
  | 5 => m ^^^ x
  | 6 => x
  | _ => if m = c % 2 ^ w then x else m

/-- One element of a combine: 1 add by RNE in ETYPE, 2 max, 3 min (R231, R336); `t` is a TYPE code. -/
def combineElem (comb t : Nat) (fz : Bool) (old x : Nat) : Nat × FlagSet :=
  match comb with
  | 1 => elAdd ⟨t, fz, .rne, false⟩ 0 old x
  | 2 => (elMax t old x, 0)
  | 3 => (elMin t old x, 0)
  | _ => (x, 0)

/-! ### Requests -/

/-- The event of a request (R58, R60). -/
def LongReq.ev (r : LongReq) (cause sub : Nat) : Ev :=
  { cause := BitVec.ofNat 8 cause, subcause := BitVec.ofNat 8 sub, engine := r.engine
    slot := if r.engine = 1 then r.slot else 15, pc := if r.engine = 1 then r.pc.setWidth 64 else 0, faddr := BitVec.ofNat 64 r.va, tcode := 0
    issue := r.entry, tengine := 0, duesc := 0, body := 1, words := [] }

/-- Hand read bytes to the step that awaits request `id`. -/
def StepState.supply (id : Nat) (bs : List Byte) (poison : Bool) (st : StepState) : StepState :=
  if st.reads.any (fun r => r.1 == id) then
    { st with
      reads := st.reads.map (fun r => if r.1 = id then (id, some bs) else r)
      samples := if poison then sinsert st.samples 99 (id :: (sget st.samples 99).getD []) else st.samples }
  else st

def SeqState.supply (id : Nat) (bs : List Byte) (poison : Bool) (q : SeqState) : SeqState :=
  { q with steps := q.steps.map (StepState.supply id bs poison) }

/-- Hand the bytes of an engine's read to its sequencer. -/
def State.engineData (s : State) (r : LongReq) (bs : List Byte) (poison : Bool) : State :=
  match r.engine with
  | 2 => s.modEng r.core fun k => { k with mx := k.mx.supply r.id bs poison }
  | 3 => s.modEng r.core fun k => { k with px := k.px.supply r.id bs poison }
  | 4 => s.modEng r.core fun k => { k with ce := k.ce.supply r.id bs poison }
  | _ => { s with seqs := s.seqs.map fun e => (e.1, e.2.supply r.id bs poison) }

/-- The flags of a combine of step `n`: they join STATUS at the step's commit (R210), or at once where the step of the
held entry has committed. -/
def SeqState.addFlags (q : SeqState) (issue : Half) (n : Nat) (fl : FlagSet) : SeqState :=
  if q.steps.any fun st => st.issue == issue && st.n == n then
    { q with steps := q.steps.map fun st => if st.issue = issue ∧ st.n = n then { st with flags := st.flags ||| fl } else st }
  else if q.active.getLast?.any fun a => a.entry.issue == issue then
    { q with prog := { q.prog with flags := q.prog.flags ||| fl } }
  else q

/-- Step `n` of a sequencer goes. -/
def SeqState.dropStep (issue : Half) (n : Nat) (q : SeqState) : SeqState :=
  { q with steps := q.steps.filter fun st => !(st.issue == issue && st.n == n) }

/-- Every step of an entry goes. -/
def SeqState.dropIssue (q : SeqState) (issue : Half) : SeqState := { q with steps := q.steps.filter fun st => st.issue != issue }

/-- The step of an engine's entry that an event names has no effect: its reads and its writes that have not performed go
(R48). -/
def State.dropStep (s : State) (c engine rank : Nat) (issue : Half) (n : Nat) : State :=
  let s := match engine with
    | 2 => s.modEng c fun k => { k with mx := k.mx.dropStep issue n }
    | 3 => s.modEng c fun k => { k with px := k.px.dropStep issue n }
    | 4 => s.modEng c fun k => { k with ce := k.ce.dropStep issue n }
    | _ => { s with seqs := s.seqs.map fun (e : Nat × SeqState) => if e.2.core = c then (e.1, e.2.dropStep issue n) else e }
  let gone (r : LongReq) : Bool := r.core == c && r.dom == (s.core c).dom && r.engine == engine && r.entry == issue && r.pc.toNat == n
  let s := { s with mem := { s.mem with
    reqs := s.mem.reqs.filter fun r => !gone r, sampled := s.mem.sampled.filter fun r => !gone r } }
  s.modBe c fun b => { b with accesses := b.accesses.filter fun a =>
    !(a.rank == rank && a.id == issue.toNat && a.pc.toNat == n) }

/-- Whether an entry of the copy engine loads an overlay: the instruction scratchpad holds no poison, so that it consumes
what it reads. -/
def State.overlayEntry (s : State) (c : Nat) (issue : Half) : Bool :=
  (s.core c).eng.ce.active.any fun a => a.entry.issue == issue && a.entry.form == 0x12

/-- A read samples (R271). One that its sectors stop delivers nothing (R48); a copy takes poisoned bytes with their mark
(R295). A Timed read of a slot or of a memory table is kept until its delivery, for the snapshot (R202, R238). -/
def State.serveLoad (s : State) (r : LongReq) : State :=
  let (s, m) := s.memRead r.dom r.part r.ia r.bytes r.xlat
  let copying := (r.engine == 4 && !s.overlayEntry r.core r.entry) || r.engine == 5
  let sc := s.sc r.core
  let ev := firstEvent (m.found.filterMap fun f => sectorEvent (s.mpol r.part) copying (r.ev 0x0D 0) r.va f.2)
  let s :=
    if r.engine = 1 then
      s.modBe r.core fun b =>
        if ev.isSome then b.dropLanding r.id else b.supply r.id (BitVec.ofNat 1024 (bytesVal m.bytes)) sc
    else if ev.isSome then (if r.timed then s.dropStep r.core r.engine r.rank r.entry r.pc.toNat else s)
    else s.engineData r m.bytes (metPoison m.found)
  let s := if r.timed && ev.isNone && (r.engine == 1 || r.engine == 3) then
      { s with mem := { s.mem with sampled := s.mem.sampled ++ [{ r with data := BitVec.ofNat 1024 (bytesVal m.bytes) }] } }
    else s
  s.reportFound r.dom r.core r.part (r.ev 0x0D 0) r.va copying m.found

/-- A write performs: the bytes of its mask, less the bits it keeps; none where a sector's tag stops it (R297). -/
def State.serveStore (s : State) (r : LongReq) : State :=
  match s.tagStop r.dom r.part r.ia r.bytes r.mask.toNat r.xlat with
  | some i =>
    s.reportFound r.dom r.core r.part (r.ev 0x0D 0) r.va false [(⟨0, r.bytes⟩, i)]
  | none =>
    let cls := s.resClass r.part r.ia
    let s := s.countRes r.part r.ia
    let old := if r.keep = 0 then 0 else
      BitVec.ofNat 1024 (bytesVal (s.memReadAs r.dom r.part r.ia r.bytes r.xlat cls).2.bytes)
    let data := (r.data &&& ~~~r.keep) ||| (old &&& r.keep)
    let s := s.memWriteAs r.dom r.part r.ia (bytesOf data.toNat r.bytes) r.mask.toNat r.xlat cls r.poison
    s.breakReservations none r.part r.ia r.bytes

/-- An AMO of a memory slot (R267), refused where OVLDBG is set and it overlaps in mixed size (R287). -/
def State.serveAtomic (s : State) (r : LongReq) : State :=
  let k := s.core r.core
  let (stack, L) := s.home r.part r.ia
  if k.cc.calctl.getLsbD 7 && !(s.strongClash stack L r.bytes).isEmpty then
    (s.modBe r.core fun b => b.dropLanding r.id).beLate r.core (r.ev 0x0A 0)
  else
    let (s, old, found) := s.homeRmw true none r.dom r.part r.ia r.bytes r.xlat
      (fun m => amoValue (k.errata.getLsbD 2) r.op.toNat r.bytes m r.data.toNat r.cmp.toNat)
    let sc := s.sc r.core
    let stopped := s.stopsAccess r.part found
    let s := s.modBe r.core fun b =>
      if stopped then b.dropLanding r.id else b.supply r.id (BitVec.ofNat 1024 old) sc
    s.reportFound r.dom r.core r.part (r.ev 0x0D 0) r.va false found

/-- Whether a form is MCOLL. -/
def formIsCx (form : Nat) : Bool := form == 0x20

/-- The combine of the elements of part of a row with a memory table (R231): `cmp` holds the TYPE of the elements. A
combine of PX is a strong access, one of CX is not (R286). -/
def State.serveCombine (s : State) (r : LongReq) : State :=
  let t := r.cmp.toNat
  let n := esize t / 8
  let fz := s.fz r.core
  let go (a : State × FlagSet) (i : Nat) : State × FlagSet :=
    let ia := r.ia + n * i
    let x := bitsOf r.data.toNat (8 * n * i) (8 * n)
    let xl := match r.xlat with
      | .ok pa leaf size => Xlat.ok (pa + n * i) leaf size
      | y => y
    let (s, old, found) := a.1.homeRmw (r.engine == 3) none r.dom r.part ia n xl (fun m => (combineElem r.op.toNat t fz m x).1)
    (s.reportFound r.dom r.core r.part (r.ev 0x0D 0) r.va false found, a.2 ||| (combineElem r.op.toNat t fz old x).2)
  let (s, fl) := (List.range (r.bytes / n)).foldl go (s, 0)
  let flag (x : SeqState) : SeqState := x.addFlags r.entry r.pc.toNat fl
  if r.engine = 3 then s.modEng r.core fun k => { k with px := flag k.px }
  else
    { s with seqs := s.seqs.map fun e =>
      (e.1, if e.2.core = r.core ∧ e.2.active.any (fun a => formIsCx a.entry.form && a.entry.issue == r.entry) then flag e.2 else e.2) }

def State.serveWrite (s : State) (r : LongReq) : State :=
  match r.kind with
  | .store => s.serveStore r
  | .atomic => s.serveAtomic r
  | .combine => s.serveCombine r
  | .load => s.serveLoad r
  | .rel => s

/-! ### The event (R272) -/

/-- The domain of a request runs, and its SC has reached `due`. -/
def State.reqDue (s : State) (r : LongReq) : Bool :=
  match r.dom with
  | some id =>
    match s.dom id with
    | some d => d.phase == .running && r.due ≤ d.sc s.basin
    | none => false
  | none => r.due ≤ s.sc r.core

def Xlat.isOk : Xlat → Bool
  | .ok .. => true
  | _ => false

/-- The requests that a home slice takes up now. -/
def State.sliceReqs (s : State) (die slice : Nat) : List LongReq :=
  s.mem.reqs.filter fun r =>
    let h := s.home r.part r.ia
    h.1 == die && sliceOf h.2 == slice && r.xlat.isOk && s.reqDue r

/-- The order of Timed writes: core number, then the places of R247. -/
def writeBefore (x y : LongReq) : Bool := decide (x.core < y.core) || (x.core == y.core && decide (x.rank < y.rank))

/-- Whether one access of a core's memory slots was issued before another (R276). -/
def issuedBefore (x y : LongReq) : Bool := decide (x.issue < y.issue) || (x.issue == y.issue && decide (x.rank < y.rank))

/-- The basin count at which an Elastic request arrives at its slice. -/
def State.reqArrival (s : State) (r : LongReq) : Nat :=
  match r.dom.bind s.dom with
  | some d => d.b0 + d.h + r.due
  | none => r.due

/-- The place of a request among those of one arrival: its core, a Weir unit's after all cores. -/
def LongReq.port (r : LongReq) : Nat := if r.engine = 6 then 4096 + r.core else r.core

/-- The order of Elastic requests: arrival, then core number, then issue. -/
def State.arrivalBefore (s : State) (x y : LongReq) : Bool :=
  let a := s.reqArrival x
  let b := s.reqArrival y
  decide (a < b) || (a == b && (decide (x.port < y.port) || (x.port == y.port && issuedBefore x y)))

/-- Whether an Elastic access of a memory slot waits for an earlier one of its core to a common byte (R276). -/
def State.orderHeld (s : State) (r : LongReq) : Bool :=
  !r.timed && r.engine == 1 && s.mem.reqs.any fun x =>
    x.core == r.core && x.dom == r.dom && x.engine == 1 && x.part == r.part && x.kind != .rel && issuedBefore x r
      && decide (x.ia < r.ia + r.bytes) && decide (r.ia < x.ia + x.bytes)

/-- Serve a request that still waits: it leaves the slice's queue. -/
def State.serveOne (s : State) (r : LongReq) : State :=
  if !s.mem.reqs.contains r || s.orderHeld r then s
  else
    { s with mem := { s.mem with reqs := s.mem.reqs.filter fun x => x != r } }.serveWrite r

/-- The requests that a part of a slice's cycle takes up, in order: 0 the reads, 1 the Timed writes, 2 the Elastic requests
of cores below `below` or of earlier arrival, 3 the rest of them (R271, R272). -/
def State.sliceBatch (s : State) (die slice phase below : Nat) : List LongReq :=
  let due := s.sliceReqs die slice
  match phase with
  | 0 => sortBy issuedBefore (due.filter fun r => r.kind == .load)
  | 1 => sortBy writeBefore (due.filter fun r => r.timed && r.kind != .load)
  | 2 => sortBy s.arrivalBefore (due.filter fun r =>
      !r.timed && r.kind != .load && (decide (r.port < below) || decide (s.reqArrival r < s.basin)))
  | _ => sortBy s.arrivalBefore (due.filter fun r => !r.timed && r.kind != .load)

/-- Part of a slice's cycle. -/
def State.slicePhase (s : State) (die slice phase below : Nat) : State :=
  (s.sliceBatch die slice phase below).foldl State.serveOne s

/-- HOME_SLICE_CYCLE: the reads that are due sample; the Timed writes then perform, and the Elastic requests after them. -/
def State.homeSlice (s : State) (die slice : Nat) : State :=
  ((s.slicePhase die slice 0 0).slicePhase die slice 1 0).slicePhase die slice 3 0

def execHomeSliceCycle (die slice : Nat) (s : State) : Host.Outcome State Fault Refusal :=
  if unitsOk (.homeSliceCycle die slice) then .next (s.homeSlice die slice) else .fault .noSuchUnit

end Sys2Proof.Machine
end

