-- ==== Sys2Proof/Machine/Scalar.lean ====
section
/-! DEFINITION. The scalar forms of slots SA and SB (R95 to R111, R166) and the control flow of slot SB (R115 to R117,
R124, R125). -/

namespace Sys2Proof.Machine

/-- No effect. -/
def noEffect (s : State) : State := s

/-- NOP (R63). -/
def execNop (sl : Slot) (g : Guard) (s : State) : Host.Outcome State Fault Refusal := runSlot (.nop sl g) noEffect noEffect s

/-! ### Operands and landing -/

/-- ReadOwn (R104): a register of the slot's own file, as a 64-bit pattern. -/
def State.readOwn (s : State) (sl : SSlot) (r : BitVec 4) : Word :=
  ((s.core s.cur).be.read (SSlot.toSlot sl).file r.toNat).setWidth 64

/-- Land (R104). -/
def State.landOwn (s : State) (sl : SSlot) (d : BitVec 4) (v : Word) (lat : Nat) : State :=
  s.landScalar (SSlot.toSlot sl).rank (SSlot.toSlot sl).file d.toNat v lat

/-- The effect of an S3 form. -/
def effS3 (f : FS3) (op : Word → Word → Word) (lat : Nat) (s : State) : State :=
  s.landOwn f.sl f.d (op (s.readOwn f.sl f.a) (s.readOwn f.sl f.b)) lat

/-- The effect of an S2 form. -/
def effS2 (f : FS2) (op : Word → Word) (s : State) : State := s.landOwn f.sl f.d (op (s.readOwn f.sl f.a)) 1

/-- The effect of an SI form: Y is the immediate sign-extended (R104). -/
def effSI (f : FSI) (op : Word → Word → Word) (s : State) : State :=
  s.landOwn f.sl f.d (op (s.readOwn f.sl f.a) (f.imm.signExtend 64)) 1

/-! ### The operations (R105 to R107) -/

/-- ADD: W(X + Y). -/
def opAdd (x y : Word) : Word := x + y

/-- SUB: W(X − Y). -/
def opSub (x y : Word) : Word := x - y

/-- AND: X AND Y. -/
def opAnd (x y : Word) : Word := x &&& y

/-- OR: X OR Y. -/
def opOr (x y : Word) : Word := x ||| y

/-- XOR: X XOR Y. -/
def opXor (x y : Word) : Word := x ^^^ y

/-- SLL: W(X × 2^sh), sh being Y[5:0]. -/
def opSll (x y : Word) : Word := x <<< (y.toNat % 64)

/-- SRL: floor(X / 2^sh). -/
def opSrl (x y : Word) : Word := x >>> (y.toNat % 64)

/-- SRA: W(floor(S(X) / 2^sh)). -/
def opSra (x y : Word) : Word := x.sshiftRight (y.toNat % 64)

/-- SLT: 1 if S(X) < S(Y). -/
def opSlt (x y : Word) : Word := if x.toInt < y.toInt then 1 else 0

/-- SLTU: 1 if X < Y. -/
def opSltu (x y : Word) : Word := if x.toNat < y.toNat then 1 else 0

/-- MIN: the smaller of S(X) and S(Y). -/
def opMin (x y : Word) : Word := if x.toInt ≤ y.toInt then x else y

/-- MAX: the larger of S(X) and S(Y). -/
def opMax (x y : Word) : Word := if x.toInt ≤ y.toInt then y else x

/-- MINU: the smaller of X and Y. -/
def opMinu (x y : Word) : Word := if x.toNat ≤ y.toNat then x else y

/-- MAXU: the larger of X and Y. -/
def opMaxu (x y : Word) : Word := if x.toNat ≤ y.toNat then y else x

/-- MUL: the low half of X × Y. -/
def opMul (x y : Word) : Word := x * y

/-- MULH: the high half of the signed product. -/
def opMulh (x y : Word) : Word := BitVec.ofInt 64 (x.toInt * y.toInt / 2 ^ 64)

/-- MULHU: the high half of the unsigned product. -/
def opMulhu (x y : Word) : Word := BitVec.ofNat 64 (x.toNat * y.toNat / 2 ^ 64)

/-- DIV: the signed quotient towards zero; all ones for a zero divisor; −2^63 / −1 wraps to −2^63. -/
def opDiv (x y : Word) : Word := if y = 0 then BitVec.allOnes 64 else BitVec.ofInt 64 (x.toInt.tdiv y.toInt)

/-- DIVU: the unsigned quotient; all ones for a zero divisor. -/
def opDivu (x y : Word) : Word := if y = 0 then BitVec.allOnes 64 else BitVec.ofNat 64 (x.toNat / y.toNat)

/-- REM: the signed remainder; X for a zero divisor. -/
def opRem (x y : Word) : Word := if y = 0 then x else BitVec.ofInt 64 (x.toInt.tmod y.toInt)

/-- REMU: the unsigned remainder; X for a zero divisor. -/
def opRemu (x y : Word) : Word := if y = 0 then x else BitVec.ofNat 64 (x.toNat % y.toNat)

/-! ### S3 forms (R105 to R107) -/

def effAdd (f : FS3) (s : State) : State := effS3 f opAdd 1 s

def execAdd (f : FS3) (s : State) : Host.Outcome State Fault Refusal := runSlot (.add f) (effAdd f) noEffect s

def effSub (f : FS3) (s : State) : State := effS3 f opSub 1 s

def execSub (f : FS3) (s : State) : Host.Outcome State Fault Refusal := runSlot (.sub f) (effSub f) noEffect s

def effAnd (f : FS3) (s : State) : State := effS3 f opAnd 1 s

def execAnd (f : FS3) (s : State) : Host.Outcome State Fault Refusal := runSlot (.and f) (effAnd f) noEffect s

def effOr (f : FS3) (s : State) : State := effS3 f opOr 1 s

def execOr (f : FS3) (s : State) : Host.Outcome State Fault Refusal := runSlot (.or f) (effOr f) noEffect s

def effXor (f : FS3) (s : State) : State := effS3 f opXor 1 s

def execXor (f : FS3) (s : State) : Host.Outcome State Fault Refusal := runSlot (.xor f) (effXor f) noEffect s

def effSll (f : FS3) (s : State) : State := effS3 f opSll 1 s

def execSll (f : FS3) (s : State) : Host.Outcome State Fault Refusal := runSlot (.sll f) (effSll f) noEffect s

def effSrl (f : FS3) (s : State) : State := effS3 f opSrl 1 s

def execSrl (f : FS3) (s : State) : Host.Outcome State Fault Refusal := runSlot (.srl f) (effSrl f) noEffect s

def effSra (f : FS3) (s : State) : State := effS3 f opSra 1 s

def execSra (f : FS3) (s : State) : Host.Outcome State Fault Refusal := runSlot (.sra f) (effSra f) noEffect s

def effSlt (f : FS3) (s : State) : State := effS3 f opSlt 1 s

def execSlt (f : FS3) (s : State) : Host.Outcome State Fault Refusal := runSlot (.slt f) (effSlt f) noEffect s

def effSltu (f : FS3) (s : State) : State := effS3 f opSltu 1 s

def execSltu (f : FS3) (s : State) : Host.Outcome State Fault Refusal := runSlot (.sltu f) (effSltu f) noEffect s

def effMin (f : FS3) (s : State) : State := effS3 f opMin 1 s

def execMin (f : FS3) (s : State) : Host.Outcome State Fault Refusal := runSlot (.min f) (effMin f) noEffect s

def effMax (f : FS3) (s : State) : State := effS3 f opMax 1 s

def execMax (f : FS3) (s : State) : Host.Outcome State Fault Refusal := runSlot (.max f) (effMax f) noEffect s

def effMinu (f : FS3) (s : State) : State := effS3 f opMinu 1 s

def execMinu (f : FS3) (s : State) : Host.Outcome State Fault Refusal := runSlot (.minu f) (effMinu f) noEffect s

def effMaxu (f : FS3) (s : State) : State := effS3 f opMaxu 1 s

def execMaxu (f : FS3) (s : State) : Host.Outcome State Fault Refusal := runSlot (.maxu f) (effMaxu f) noEffect s

def effMul (f : FS3) (s : State) : State := effS3 f opMul 3 s

def execMul (f : FS3) (s : State) : Host.Outcome State Fault Refusal := runSlot (.mul f) (effMul f) noEffect s

def effMulh (f : FS3) (s : State) : State := effS3 f opMulh 3 s

def execMulh (f : FS3) (s : State) : Host.Outcome State Fault Refusal := runSlot (.mulh f) (effMulh f) noEffect s

def effMulhu (f : FS3) (s : State) : State := effS3 f opMulhu 3 s

def execMulhu (f : FS3) (s : State) : Host.Outcome State Fault Refusal := runSlot (.mulhu f) (effMulhu f) noEffect s

def effDiv (f : FS3) (s : State) : State := effS3 f opDiv 18 s

def execDiv (f : FS3) (s : State) : Host.Outcome State Fault Refusal := runSlot (.div f) (effDiv f) noEffect s

def effDivu (f : FS3) (s : State) : State := effS3 f opDivu 18 s

def execDivu (f : FS3) (s : State) : Host.Outcome State Fault Refusal := runSlot (.divu f) (effDivu f) noEffect s

def effRem (f : FS3) (s : State) : State := effS3 f opRem 18 s

def execRem (f : FS3) (s : State) : Host.Outcome State Fault Refusal := runSlot (.rem f) (effRem f) noEffect s

def effRemu (f : FS3) (s : State) : State := effS3 f opRemu 18 s

def execRemu (f : FS3) (s : State) : Host.Outcome State Fault Refusal := runSlot (.remu f) (effRemu f) noEffect s

/-! ### S2 forms (R108) -/

/-- CLZ: the zero bits above the highest 1; 64 for zero. -/
def opClz (x : Word) : Word := BitVec.ofNat 64 (64 - bitLen x.toNat)

/-- CTZ: the zero bits below the lowest 1; 64 for zero. -/
def opCtz (x : Word) : Word := BitVec.ofNat 64 (if x = 0 then 64 else trailing 64 x.toNat)

/-- POPC: the number of 1 bits. -/
def opPopc (x : Word) : Word := BitVec.ofNat 64 ((List.range 64).filter fun i => x.getLsbD i).length

def effClz (f : FS2) (s : State) : State := effS2 f opClz s

def execClz (f : FS2) (s : State) : Host.Outcome State Fault Refusal := runSlot (.clz f) (effClz f) noEffect s

def effCtz (f : FS2) (s : State) : State := effS2 f opCtz s

def execCtz (f : FS2) (s : State) : Host.Outcome State Fault Refusal := runSlot (.ctz f) (effCtz f) noEffect s

def effPopc (f : FS2) (s : State) : State := effS2 f opPopc s

def execPopc (f : FS2) (s : State) : Host.Outcome State Fault Refusal := runSlot (.popc f) (effPopc f) noEffect s

/-! ### Bit fields (R109) -/

/-- A field of `len` bits at `pos`, zero-extended. -/
def opBext (pos len : Nat) (x : Word) : Word := BitVec.ofNat 64 (bitsOf x.toNat pos len)

/-- `d` with `len` bits at `pos` taken from the low bits of `x`. -/
def opBins (pos len : Nat) (x d : Word) : Word :=
  let m : Word := BitVec.ofNat 64 (2 ^ len - 1) <<< pos
  (d &&& ~~~m) ||| ((x <<< pos) &&& m)

def effBext (f : FSF) (s : State) : State :=
  s.landOwn f.sl f.d (opBext f.pos.toNat (f.len1.toNat + 1) (s.readOwn f.sl f.a)) 1

def execBext (f : FSF) (s : State) : Host.Outcome State Fault Refusal := runSlot (.bext f) (effBext f) noEffect s

def effBins (f : FSF) (s : State) : State :=
  s.landOwn f.sl f.d (opBins f.pos.toNat (f.len1.toNat + 1) (s.readOwn f.sl f.a) (s.readOwn f.sl f.d)) 1

def execBins (f : FSF) (s : State) : Host.Outcome State Fault Refusal := runSlot (.bins f) (effBins f) noEffect s

/-! ### SI forms (R105) -/

def effAddi (f : FSI) (s : State) : State := effSI f opAdd s

def execAddi (f : FSI) (s : State) : Host.Outcome State Fault Refusal := runSlot (.addi f) (effAddi f) noEffect s

def effAndi (f : FSI) (s : State) : State := effSI f opAnd s

def execAndi (f : FSI) (s : State) : Host.Outcome State Fault Refusal := runSlot (.andi f) (effAndi f) noEffect s

def effOri (f : FSI) (s : State) : State := effSI f opOr s

def execOri (f : FSI) (s : State) : Host.Outcome State Fault Refusal := runSlot (.ori f) (effOri f) noEffect s

def effXori (f : FSI) (s : State) : State := effSI f opXor s

def execXori (f : FSI) (s : State) : Host.Outcome State Fault Refusal := runSlot (.xori f) (effXori f) noEffect s

def effSlli (f : FSI) (s : State) : State := effSI f opSll s

def execSlli (f : FSI) (s : State) : Host.Outcome State Fault Refusal := runSlot (.slli f) (effSlli f) noEffect s

def effSrli (f : FSI) (s : State) : State := effSI f opSrl s

def execSrli (f : FSI) (s : State) : Host.Outcome State Fault Refusal := runSlot (.srli f) (effSrli f) noEffect s

def effSrai (f : FSI) (s : State) : State := effSI f opSra s

def execSrai (f : FSI) (s : State) : Host.Outcome State Fault Refusal := runSlot (.srai f) (effSrai f) noEffect s

def effSlti (f : FSI) (s : State) : State := effSI f opSlt s

def execSlti (f : FSI) (s : State) : Host.Outcome State Fault Refusal := runSlot (.slti f) (effSlti f) noEffect s

/-! ### Constants, copies and stream registers (R110, R111, R166) -/

/-- LIL: the 24-bit immediate zero-extended. -/
def effLil (f : FSL) (s : State) : State := s.landOwn f.sl f.d (f.imm.setWidth 64) 1

def execLil (f : FSL) (s : State) : Host.Outcome State Fault Refusal := runSlot (.lil f) (effLil f) noEffect s

/-- LIH: bits [47:24] of d take the immediate. -/
def effLih (f : FSL) (s : State) : State := s.landOwn f.sl f.d (opBins 24 24 (f.imm.setWidth 64) (s.readOwn f.sl f.d)) 1

def execLih (f : FSL) (s : State) : Host.Outcome State Fault Refusal := runSlot (.lih f) (effLih f) noEffect s

/-- LIT: bits [63:48] of d take the low 16 bits of the immediate. -/
def effLit (f : FSL) (s : State) : State := s.landOwn f.sl f.d (opBins 48 16 (f.imm.setWidth 64) (s.readOwn f.sl f.d)) 1

def execLit (f : FSL) (s : State) : Host.Outcome State Fault Refusal := runSlot (.lit f) (effLit f) noEffect s

/-- CPX: bits [63:0] of the source register of any file, latency 2. -/
def effCpx (f : FCP) (s : State) : State :=
  s.landOwn f.sl f.d (BitVec.ofNat 64 (cpValue (s.core s.cur).be f.file.toNat f.src.toNat)) 2

def execCpx (f : FCP) (s : State) : Host.Outcome State Fault Refusal := runSlot (.cpx f) (effCpx f) noEffect s

/-- The writable bits of a stream register: [21:8] are forced to zero (R162, R166). -/
def streamMask : Word := 0xFFFFFFFFFFC000FF

/-- STWR: stream register n takes the scalar register at +2 (R166). -/
def effStwr (f : FSW) (s : State) : State :=
  s.land (SSlot.toSlot f.sl).rank 10 f.n.toNat 0 64 ((s.readOwn f.sl f.a &&& streamMask).setWidth 1024) 2

def execStwr (f : FSW) (s : State) : Host.Outcome State Fault Refusal := runSlot (.stwr f) (effStwr f) noEffect s

/-! ### Branches (R115 to R117) -/

/-- A taken branch to bundle `target`; variant .t annuls the two delay bundles (R116). -/
def State.takeBranch (s : State) (variant : BitVec 2) (target : Half) : State :=
  s.modBe s.cur fun b => { b with taken := some target, annulTwo := b.annulTwo || variant == 2 }

/-- A branch whose guard fails: variant .nt annuls the two delay bundles (R116). -/
def notTaken (variant : BitVec 2) (s : State) : State :=
  if variant = 1 then s.modBe s.cur fun b => { b with annulTwo := true } else s

/-- The link write of CALL and CALLI: sb15 := PC + 3, latency 1 (R115). -/
def State.link (s : State) : State :=
  s.landScalar 1 1 15 (((s.core s.cur).be.pc + 3).setWidth 64) 1

/-- The target of a BJ form: PC + the signed offset. -/
def State.bjTarget (s : State) (f : FBJ) : Half := (s.core s.cur).be.pc + f.off.signExtend 32

/-- The low 32 bits of an sb register. -/
def State.sbTarget (s : State) (r : BitVec 4) : Half := ((s.core s.cur).be.read 1 r.toNat).setWidth 32

def effBr (f : FBJ) (s : State) : State := s.takeBranch f.variant (s.bjTarget f)

def execBr (f : FBJ) (s : State) : Host.Outcome State Fault Refusal := runSlot (.br f) (effBr f) (notTaken f.variant) s

def effCall (f : FBJ) (s : State) : State := s.link.takeBranch f.variant (s.bjTarget f)

def execCall (f : FBJ) (s : State) : Host.Outcome State Fault Refusal :=
  runSlot (.call f) (effCall f) (notTaken f.variant) s

def effBri (f : FBI) (s : State) : State := s.takeBranch f.variant (s.sbTarget f.a)

def execBri (f : FBI) (s : State) : Host.Outcome State Fault Refusal := runSlot (.bri f) (effBri f) (notTaken f.variant) s

/-- CALLI reads its target before the link lands. -/
def effCalli (f : FBI) (s : State) : State := s.link.takeBranch f.variant (s.sbTarget f.a)

def execCalli (f : FBI) (s : State) : Host.Outcome State Fault Refusal :=
  runSlot (.calli f) (effCalli f) (notTaken f.variant) s

def effRet (_g : Guard) (s : State) : State := s.takeBranch 0 (s.sbTarget 15)

def execRet (g : Guard) (s : State) : Host.Outcome State Fault Refusal := runSlot (.ret g) (effRet g) noEffect s

/-- HALT: after this step the queue is discarded and the engine issues nothing more (R124). -/
def effHalt (_g : Guard) (s : State) : State := s.modBe s.cur fun b => { b with halted := true }

def execHalt (g : Guard) (s : State) : Host.Outcome State Fault Refusal := runSlot (.halt g) (effHalt g) noEffect s

/-- TRAP: event 0x14 with SUBCAUSE 1 and the code, pending until it is taken (R125). -/
def effTrap (_g : Guard) (code : BitVec 16) (s : State) : State :=
  s.pendBe s.cur { s.beEv 0x14 1 1 with tcode := code }

def execTrap (g : Guard) (code : BitVec 16) (s : State) : Host.Outcome State Fault Refusal :=
  runSlot (.trap g code) (effTrap g code) noEffect s

end Sys2Proof.Machine
end

