-- ==== Sys2Proof/Machine/Loop.lean ====
section
/-! DEFINITION. The loop slot (R119 to R123): arming a level, the stride registers, and the address that follows in the
next-PC queue. -/

namespace Sys2Proof.Machine

/-- LOOP and LOOPR arm level `level` at the address of their bundle, or with count 0 clear it and skip the body
(R120). -/
def armLoop (level : BitVec 2) (len1 : BitVec 10) (count : Half) (s : State) : State :=
  s.modBe s.cur fun b =>
    let p := b.pc
    let len : Half := len1.setWidth 32 + 1
    let l := (b.loops[level.toNat]?).getD LoopLevel.reset
    if count = 0 then
      { b with loops := b.loops.setIfInBounds level.toNat { l with act := false }, skip := some (p + len + 3) }
    else
      { b with loops := b.loops.setIfInBounds level.toNat
                { l with act := true, lc := count - 1, li := 0, lb := p + 3, le := p + len + 2 } }

def effLoop (f : FLoop) (s : State) : State := armLoop f.level f.len1 (f.count.setWidth 32) s

def execLoop (f : FLoop) (s : State) : Host.Outcome State Fault Refusal := runSlot (.loop f) (effLoop f) noEffect s

def effLoopr (f : FLoopR) (s : State) : State := armLoop f.level f.len1 (s.sbTarget f.sb) s

def execLoopr (f : FLoopR) (s : State) : Host.Outcome State Fault Refusal := runSlot (.loopr f) (effLoopr f) noEffect s

/-- The stride registers as file 16: register 32 × level + selector. -/
def strideReg (level : BitVec 2) (sel : BitVec 5) : Nat := 32 * level.toNat + sel.toNat

def effLstri (f : FLstrI) (s : State) : State :=
  s.land 9 16 (strideReg f.level f.sel) 0 48 ((f.stride.signExtend 48).setWidth 1024) 1

def execLstri (f : FLstrI) (s : State) : Host.Outcome State Fault Refusal := runSlot (.lstri f) (effLstri f) noEffect s

def effLstr (f : FLstr) (s : State) : State :=
  s.land 9 16 (strideReg f.level f.sel) 0 48 ((((s.core s.cur).be.read 1 f.sb.toNat).setWidth 48).setWidth 1024) 1

def execLstr (f : FLstr) (s : State) : Host.Outcome State Fault Refusal := runSlot (.lstr f) (effLstr f) noEffect s

/-! ### The queue (R113, R121, R122) -/

/-- ActiveEnds(a): the armed levels that end at `a`, as four bits (R113). -/
def activeEnds (loops : Vector LoopLevel 4) (a : Half) : BitVec 4 :=
  BitVec.ofNat 4 ((List.range 4).foldl
    (fun v n => let l := (loops[n]?).getD LoopLevel.reset; if l.act && l.le == a then v + 2 ^ n else v) 0)

/-- The armed levels that end at `a`, in decreasing order of LB and, for equal LB, of number (R121). -/
def endingLevels (loops : Vector LoopLevel 4) (a : Half) : List Nat :=
  let ls := (List.range 4).filter fun n => let l := (loops[n]?).getD LoopLevel.reset; l.act && l.le == a
  sortBy
    (fun m n =>
      let x := ((loops[m]?).getD LoopLevel.reset).lb.toNat
      let y := ((loops[n]?).getD LoopLevel.reset).lb.toNat
      decide (y < x) || (x == y && decide (n < m)))
    ls

/-- SeqNext over the ending levels: the first with loop-backs left takes one; exhausted levels are disarmed (R121). -/
def seqNextOver (a : Half) : List Nat → Vector LoopLevel 4 → Half × Vector LoopLevel 4
  | [], loops => (a + 1, loops)
  | n :: ns, loops =>
    let l := (loops[n]?).getD LoopLevel.reset
    if l.lc = 0 then seqNextOver a ns (loops.setIfInBounds n { l with act := false })
    else (l.lb, loops.setIfInBounds n { l with lc := l.lc - 1, li := l.li + 1 })

def seqNext (a : Half) (loops : Vector LoopLevel 4) : Half × Vector LoopLevel 4 :=
  seqNextOver a (endingLevels loops a) loops

/-- The sum of the strides, which are signed, of address register `k` over the levels of ENDS (R122). -/
def strideSum (loops : Vector LoopLevel 4) (ends : BitVec 4) (k : Nat) : Int :=
  (List.range 4).foldl
    (fun v n => if ends.getLsbD n then v + ((((loops[n]?).getD LoopLevel.reset).str[k]?).getD 0).toInt else v) 0

/-- ApplyStrides (R122): a write of latency 1 for every address register with a non-zero sum, by slot LP. -/
def State.applyStrides (s : State) (ends : BitVec 4) : State :=
  if ends = 0 then s
  else
    (List.range 32).foldl
      (fun s k =>
        let b := (s.core s.cur).be
        let t := strideSum b.loops ends k
        if t = 0 then s
        else
          let file := 2 + k / 16
          s.land 9 file (k % 16) 0 48 ((((b.read file (k % 16)).setWidth 48 : AWord) + BitVec.ofInt 48 t).setWidth 1024) 1)
      s

end Sys2Proof.Machine
end

