-- ==== Sys2Proof/Machine/MemSlot.lean ====
section
/-! DEFINITION. The memory-slot instructions (R256 to R269): each runs its effect at issue. -/

namespace Sys2Proof.Machine

def execLds (f : FM) (s : State) : Host.Outcome State Fault Refusal := runSlot (.lds f) (effLds f) id s

def execSts (f : FM) (s : State) : Host.Outcome State Fault Refusal := runSlot (.sts f) (effSts f) id s

def execLda (f : FM) (s : State) : Host.Outcome State Fault Refusal := runSlot (.lda f) (effLda f) id s

def execSta (f : FM) (s : State) : Host.Outcome State Fault Refusal := runSlot (.sta f) (effSta f) id s

def execLdl (f : FM) (s : State) : Host.Outcome State Fault Refusal := runSlot (.ldl f) (effLdl f) id s

def execStl (f : FM) (s : State) : Host.Outcome State Fault Refusal := runSlot (.stl f) (effStl f) id s

def execSld (f : FSld) (s : State) : Host.Outcome State Fault Refusal := runSlot (.sld f) (effSld f) id s

def execLdt (f : FLdt) (s : State) : Host.Outcome State Fault Refusal := runSlot (.ldt f) (effLdt f) id s

def execStag (f : FM) (s : State) : Host.Outcome State Fault Refusal := runSlot (.stag f) (effStag f) id s

def execAmo (f : FAmo) (s : State) : Host.Outcome State Fault Refusal := runSlot (.amo f) (effAmo f) id s

def execRel (f : FRel) (s : State) : Host.Outcome State Fault Refusal := runSlot (.rel f) (effRel f) id s

def execMcpx (f : FMCP) (s : State) : Host.Outcome State Fault Refusal := runSlot (.mcpx f) (effMcpx f) id s

def execMaddi (f : FMadd) (s : State) : Host.Outcome State Fault Refusal := runSlot (.maddi f) (effMaddi f) id s

def execMli (f : FMli) (s : State) : Host.Outcome State Fault Refusal := runSlot (.mli f) (effMli f) id s

end Sys2Proof.Machine
end

