-- ==== Sys2Proof/Machine/Special.lean ====
section
/-! DEFINITION. The special functions of slot FS (R155, R156), also used by the matrix engine's epilogue (R225) and by
MATTN (R228): each value is computed in fixed point with far more bits than a correctly rounded f32 needs, with a sticky
last bit where the exact value is irrational, and rounded once. -/

namespace Sys2Proof.Machine

/-- Fraction bits of the fixed-point work. -/
def fxP : Nat := 320

/-- 1 in fixed point. -/
def fxOne : Nat := 2 ^ fxP

/-- Σ of z^(2i+1) / (2i+1) over the first `fuel` terms, signs alternating when `alt`; `zz` is z² and `t` the power of z
reached. -/
def oddSeries (alt : Bool) (zz : Nat) : Nat → Nat → Nat → Int
  | 0, _, _ => 0
  | k + 1, i, t =>
    let rest := oddSeries alt zz k (i + 1) (t * zz / fxOne)
    (t / (2 * i + 1) : Nat) + (if alt then -rest else rest)

/-- ln 2 in fixed point: 2 atanh(1/3). -/
def fxLn2 : Nat := 2 * (oddSeries false (fxOne / 9) 110 0 (fxOne / 3)).toNat

/-- π in fixed point, by Machin's formula: 16 atan(1/5) − 4 atan(1/239). -/
def fxPi : Nat :=
  (16 * oddSeries true (fxOne / 25) 80 0 (fxOne / 5) - 4 * oddSeries true (fxOne / 57121) 25 0 (fxOne / 239)).toNat

/-- Σ of x^n / n! over `fuel` terms, from term `t` of number `n`. -/
def expSeries (x : Nat) : Nat → Nat → Nat → Nat
  | 0, _, _ => 0
  | k + 1, n, t => t + expSeries x k (n + 1) (t * x / fxOne / (n + 1))

/-- e^x in fixed point for 0 ≤ x ≤ 1. -/
def fxExp (x : Nat) : Nat := expSeries x 80 0 fxOne

/-- e^−x in fixed point for x ≥ 0: x = n ln 2 − r with 0 ≤ r < ln 2. -/
def fxExpNeg (x : Nat) : Nat :=
  let n := x / fxLn2 + 1
  fxExp (n * fxLn2 - x) / 2 ^ n

/-- Integer square root, bit by bit. -/
def isqrt (n : Nat) : Nat → Nat → Nat
  | 0, r => r
  | i + 1, r =>
    let t := r + 2 ^ i
    if t * t ≤ n then isqrt n i t else isqrt n i r

/-- The fixed-point form of a finite magnitude. -/
def fxOf (mag : Nat) (e : Int) : Nat :=
  if e ≥ 0 then mag * 2 ^ e.toNat * fxOne else mag * fxOne / 2 ^ (-e).toNat

/-- A fixed-point magnitude as an inexact value: its last bit is made odd. -/
def fxSticky (neg : Bool) (n : Nat) : FVal := .fin neg (2 * n + 1) (-(fxP : Int) - 1)

/-- 2^v for a finite v (R155). -/
def fExp2 (neg : Bool) (mag : Nat) (e : Int) : FVal :=
  if mag = 0 then .fin false 1 0
  else if e + bitLen mag > 10 then .fin false 1 (if neg then -1024 else 1024)
  else if e ≥ 0 then .fin false 1 (scaledInt neg mag e 0)
  else
    let d : Nat := 2 ^ (-e).toNat
    let v : Int := if neg then -(mag : Int) else mag
    let n := v.fdiv (d : Int)
    let f : Nat := (v.fmod (d : Int)).toNat
    if f = 0 then .fin false 1 n
    else fScale n (fxSticky false (fxExp (f * fxOne / d * fxLn2 / fxOne)))

/-- log2 v for a finite v > 0. -/
def fLog2 (mag : Nat) (e : Int) : FVal :=
  let l := bitLen mag
  let k : Int := e + l - 1
  let one := 2 ^ (l - 1)
  if mag = one then fOfInt k
  else
    let z := (mag - one) * fxOne / (mag + one)
    let ln := 2 * (oddSeries false (z * z / fxOne) 110 0 z).toNat
    let s : Int := k * fxOne + (ln * fxOne / fxLn2 : Nat)
    .fin (decide (s < 0)) (2 * s.natAbs + 1) (-(fxP : Int) - 1)

/-- 1/v for a finite v ≠ 0. -/
def fRcp (neg : Bool) (mag : Nat) (e : Int) : FVal := fDiv (.fin neg 1 0) (.fin false mag e)

/-- √v for a finite v > 0, with a sticky bit. -/
def fSqrt (mag : Nat) (e : Int) : FVal :=
  let (m, e) := if e % 2 = 0 then (mag, e) else (mag * 2, e - 1)
  let n := m * 2 ^ 128
  let r := isqrt n 100 0
  .fin false (2 * r + (if r * r = n then 0 else 1)) (e / 2 - 65)

/-- 1/√v for a finite v > 0, with a sticky bit. -/
def fRsqrt (mag : Nat) (e : Int) : FVal :=
  let (m, e) := if e % 2 = 0 then (mag, e) else (mag * 2, e - 1)
  let n := 2 ^ 256 / m
  let r := isqrt n 130 0
  .fin false (2 * r + (if r * r * m = 2 ^ 256 then 0 else 1)) (-(e / 2) - 129)

/-- A value just below 1 in magnitude that rounds to 1 under RNE and is inexact. -/
def fAlmostOne (neg : Bool) : FVal := .fin neg (2 ^ 60 - 1) (-60)

/-- A value just below the given one in magnitude, nearer to it than any f32 midpoint. -/
def fJustBelow (neg : Bool) (mag : Nat) (e : Int) : FVal := .fin neg (mag * 2 ^ 100 - 1) (e - 100)

/-- tanh v for a finite v ≠ 0. -/
def fTanh (neg : Bool) (mag : Nat) (e : Int) : FVal :=
  if e + bitLen mag ≤ -60 then fJustBelow neg mag e
  else if e + bitLen mag > 6 then fAlmostOne neg
  else
    let t := fxExpNeg (2 * fxOf mag e)
    fxSticky neg ((fxOne - t) * fxOne / (fxOne + t))

/-- The logistic function of a finite v; 1/2 at zero. -/
def fSigmoid (neg : Bool) (mag : Nat) (e : Int) : FVal :=
  if mag = 0 then .fin false 1 (-1)
  else if e + bitLen mag > 7 then (if neg then .fin false 1 (-300) else fAlmostOne false)
  else
    let t := fxExpNeg (fxOf mag e)
    fxSticky false ((if neg then t else fxOne) * fxOne / (fxOne + t))

/-- Σ (−1)^n x^(2n+1) / (n! (2n+1)) over `fuel` terms; `t` is x^(2n+1) / n!. -/
def erfSeries (xx : Nat) : Nat → Nat → Nat → Int
  | 0, _, _ => 0
  | k + 1, n, t => (t / (2 * n + 1) : Nat) - erfSeries xx k (n + 1) (t * xx / fxOne / (n + 1))

/-- erf v for a finite v ≠ 0. -/
def fErf (neg : Bool) (mag : Nat) (e : Int) : FVal :=
  let sqrtPi := isqrt (fxPi * fxOne) (fxP + 2) 0
  if e + bitLen mag ≤ -60 then .fin neg (mag * (2 * fxOne * fxOne / sqrtPi)) (e - fxP)
  else if e + bitLen mag > 3 then fAlmostOne neg
  else
    let x := fxOf mag e
    let s := (erfSeries (x * x / fxOne) 330 0 x).toNat
    let y := 2 * s * fxOne / sqrtPi
    fxSticky neg (if y ≥ fxOne then fxOne - 1 else y)

/-- Σ (−1)^n x^(2n+1) / (2n+1)! over `fuel` terms. -/
def sinSeries (xx : Nat) : Nat → Nat → Nat → Int
  | 0, _, _ => 0
  | k + 1, n, t => (t : Int) - sinSeries xx k (n + 1) (t * xx / fxOne / ((2 * n + 2) * (2 * n + 3)))

/-- sin(π a / d) for 0 < a/d ≤ 1/2. -/
def fSinPiFrac (neg : Bool) (a d : Nat) : FVal :=
  if 2 * a = d then .fin neg 1 0
  else if a * 2 ^ 60 < d then .fin neg (a * fxPi * 2 ^ 10 / 2 ^ 10) (-(fxP : Int) - d.log2)
  else
    let x := fxPi * a / d
    let s := (sinSeries (x * x / fxOne) 60 0 x).toNat
    fxSticky neg (if s ≥ fxOne then fxOne - 1 else s)

/-- sin(π v) for a finite v; an integer v gives +0 for v ≥ +0 and −0 for v ≤ −0 (R156). -/
def fSinPi (neg : Bool) (mag : Nat) (e : Int) : FVal :=
  if e ≥ 0 then .fin neg 0 0
  else
    let d := 2 ^ (-e).toNat
    let t := mag % (2 * d)
    let neg' := neg != decide (t ≥ d)
    let u := t % d
    if u = 0 then .fin neg 0 0
    else fSinPiFrac neg' (if 2 * u > d then d - u else u) d

/-- cos(π v) for a finite v; v = k + 0.5 gives +0 (R156). -/
def fCosPi (mag : Nat) (e : Int) : FVal :=
  let (mag, d) := if e ≥ 0 then (mag * 2 ^ e.toNat, 1) else (mag, 2 ^ (-e).toNat)
  let t := mag % (2 * d)
  let t := if t > d then 2 * d - t else t
  if t = 0 then .fin false 1 0
  else if t = d then .fin true 1 0
  else if 2 * t = d then .fin false 0 0
  else if 2 * t < d then fSinPiFrac false (d - 2 * t) (2 * d)
  else fSinPiFrac true (2 * t - d) (2 * d)

/-- The functions of slot FS (R155). -/
inductive SfOp | exp2 | log2 | rcp | rsqrt | sqrt | tanh | sigmoid | erf | sinpi | cospi
deriving DecidableEq, Repr

/-- The exact value of a special function, with the flags that R156 gives its special sources. -/
def sfValue (op : SfOp) (v : FVal) : FVal × FlagSet :=
  match v with
  | .nan => (.nan, 0)
  | .inf neg =>
    match op with
    | .exp2 => (if neg then .fin false 0 0 else .inf false, 0)
    | .log2 => if neg then (.nan, flagNV) else (.inf false, 0)
    | .rcp => (.fin neg 0 0, 0)
    | .rsqrt => if neg then (.nan, flagNV) else (.fin false 0 0, 0)
    | .sqrt => if neg then (.nan, flagNV) else (.inf false, 0)
    | .tanh => (.fin neg 1 0, 0)
    | .sigmoid => (if neg then .fin false 0 0 else .fin false 1 0, 0)
    | .erf => (.fin neg 1 0, 0)
    | .sinpi => (.nan, flagNV)
    | .cospi => (.nan, flagNV)
  | .fin neg mag e =>
    if mag = 0 then
      match op with
      | .exp2 => (.fin false 1 0, 0)
      | .log2 => (.inf true, flagDZ)
      | .rcp => (.inf neg, flagDZ)
      | .rsqrt => (.inf neg, flagDZ)
      | .sqrt => (.fin neg 0 0, 0)
      | .tanh => (.fin neg 0 0, 0)
      | .sigmoid => (fSigmoid neg 0 0, 0)
      | .erf => (.fin neg 0 0, 0)
      | .sinpi => (.fin neg 0 0, 0)
      | .cospi => (.fin false 1 0, 0)
    else
      match op with
      | .exp2 => (fExp2 neg mag e, 0)
      | .log2 => if neg then (.nan, flagNV) else (fLog2 mag e, 0)
      | .rcp => (fRcp neg mag e, 0)
      | .rsqrt => if neg then (.nan, flagNV) else (fRsqrt mag e, 0)
      | .sqrt => if neg then (.nan, flagNV) else (fSqrt mag e, 0)
      | .tanh => (fTanh neg mag e, 0)
      | .sigmoid => (fSigmoid neg mag e, 0)
      | .erf => (fErf neg mag e, 0)
      | .sinpi => (fSinPi neg mag e, 0)
      | .cospi => (fCosPi mag e, 0)

/-- One element of an FS form (R155, R156): an f32 pattern, rounded by RNE, with its flags. -/
def sfElement (op : SfOp) (fz : Bool) (p : Nat) : Nat × FlagSet :=
  let (v, fl) := sfValue op (decodeF fmtF32 p)
  let (q, fl') := roundF fmtF32 fz .rne 0 v
  (q, fl ||| fl')

end Sys2Proof.Machine
end

