-- ==== Sys2Proof/Machine/Sfu.lean ====
section
/-! DEFINITION. The special-function slot FS (R155, R156). -/

namespace Sys2Proof.Machine

/-- One element of an FS form on a core: erratum 0x0005_0003 makes LOG2 of +0 the most negative finite f32, with no
flag (R89, R156). -/
def sfElementOn (errata : BitVec 3) (op : SfOp) (fz : Bool) (p : Nat) : Nat × FlagSet :=
  if op = .log2 ∧ errata.getLsbD 0 ∧ p = 0 then (0xFF7FFFFF, 0) else sfElement op fz p

/-- An FS form: 32 f32 elements of the source, landing in fsD at +8 with the flags of FSF (R155). -/
def effSf (f : FFS) (op : SfOp) (s : State) : State :=
  let k := s.core s.cur
  let ys := (elems 32 32 (k.be.read (fsFile f.file) f.src.toNat)).map (sfElementOn k.errata op (s.fz s.cur))
  s.land 5 9 f.d.toNat 0 1024 (BitVec.ofNat 1024 (packElems 32 (ys.map (·.1)))) 8 (joinFlags ys)

def effExp2 (f : FFS) (s : State) : State := effSf f .exp2 s

def execExp2 (f : FFS) (s : State) : Host.Outcome State Fault Refusal := runSlot (.exp2 f) (effExp2 f) id s

def effLog2 (f : FFS) (s : State) : State := effSf f .log2 s

def execLog2 (f : FFS) (s : State) : Host.Outcome State Fault Refusal := runSlot (.log2 f) (effLog2 f) id s

def effRcp (f : FFS) (s : State) : State := effSf f .rcp s

def execRcp (f : FFS) (s : State) : Host.Outcome State Fault Refusal := runSlot (.rcp f) (effRcp f) id s

def effRsqrt (f : FFS) (s : State) : State := effSf f .rsqrt s

def execRsqrt (f : FFS) (s : State) : Host.Outcome State Fault Refusal := runSlot (.rsqrt f) (effRsqrt f) id s

def effSqrt (f : FFS) (s : State) : State := effSf f .sqrt s

def execSqrt (f : FFS) (s : State) : Host.Outcome State Fault Refusal := runSlot (.sqrt f) (effSqrt f) id s

def effTanh (f : FFS) (s : State) : State := effSf f .tanh s

def execTanh (f : FFS) (s : State) : Host.Outcome State Fault Refusal := runSlot (.tanh f) (effTanh f) id s

def effSigmoid (f : FFS) (s : State) : State := effSf f .sigmoid s

def execSigmoid (f : FFS) (s : State) : Host.Outcome State Fault Refusal := runSlot (.sigmoid f) (effSigmoid f) id s

def effErf (f : FFS) (s : State) : State := effSf f .erf s

def execErf (f : FFS) (s : State) : Host.Outcome State Fault Refusal := runSlot (.erf f) (effErf f) id s

def effSinpi (f : FFS) (s : State) : State := effSf f .sinpi s

def execSinpi (f : FFS) (s : State) : Host.Outcome State Fault Refusal := runSlot (.sinpi f) (effSinpi f) id s

def effCospi (f : FFS) (s : State) : State := effSf f .cospi s

def execCospi (f : FFS) (s : State) : Host.Outcome State Fault Refusal := runSlot (.cospi f) (effCospi f) id s

end Sys2Proof.Machine
end

