-- ==== Sys2Proof/Machine/Bundle.lean ====
section
/-! DEFINITION. The steps of the bundle engine: a bundle (R61 to R66, R112 to R118, R127), the landing of results (R66,
R132, R140), the accesses to the private stores (R247, R256, R265), a micro-step (R157, R160) and the trap (R126,
R127). -/

namespace Sys2Proof.Machine

/-! ### Decoding a bundle (R61, R62, R65) -/

/-- The slots with their places, in the order of R61. -/
def slotOrder : List Slot := [.sa, .sb, .va, .vb, .vc, .fs, .ma, .mb, .xf, .lp]

/-- The word of slot `k` of a bundle. -/
def slotWordAt (v k : Nat) : BitVec 48 := BitVec.ofNat 48 (v / 2 ^ (32 + 48 * k))

/-- The width code of a vector slot in a header; 0 for any other slot. -/
def widthCode (hdr : Nat) (sl : Slot) : Nat :=
  match sl with
  | .va => bitsOf hdr 0 2
  | .vb => bitsOf hdr 2 2
  | .vc => bitsOf hdr 4 2
  | _ => 0

/-- Bits of a width code. -/
def widthBits (c : Nat) : Nat :=
  match widthOf c with
  | some w => w.bits
  | none => 0

/-- A word with OPC 0 and zero operand bits (R63). -/
def isNopWord (w : BitVec 48) : Bool := w.toNat % 2 ^ 36 == 0

/-- One slot of a fetched bundle: what its word decodes to. -/
def decodeAt (v : Nat) (sl : Slot) : Except Reject Instr :=
  decodeSlot sl ((widthOf (widthCode (v % 2 ^ 32) sl)).getD .w256) (slotWordAt v sl.rank)

/-- The operations of a bundle's legal words, in slot order. -/
def legalOps (v : Nat) : List Instr :=
  slotOrder.filterMap fun sl => match decodeAt v sl with
    | .ok i => some i
    | .error _ => none

/-- The slots whose words are illegal instructions (R75). -/
def illegalSlots (v : Nat) : List Nat :=
  slotOrder.filterMap fun sl => match decodeAt v sl with
    | .ok _ => none
    | .error _ => some sl.rank

/-- Whether a list holds a file twice. -/
def hasTwice : List Nat → Bool
  | [] => false
  | x :: t => t.contains x || hasTwice t

/-- The rules of R65. -/
def forbidden (v : Nat) : Bool :=
  let hdr := v % 2 ^ 32
  hdr / 2 ^ 16 != 0 ||
    slotOrder.any (fun sl => !bitOf hdr (6 + sl.rank) && slotWordAt v sl.rank != 0) ||
    decide (widthBits (widthCode hdr .va) + widthBits (widthCode hdr .vb) + widthBits (widthCode hdr .vc) > 2048) ||
    [Slot.va, .vb, .vc].any (fun sl => isNopWord (slotWordAt v sl.rank) == (widthCode hdr sl != 0)) ||
    hasTwice ((legalOps v).flatMap crossReads)

/-! ### Executing a bundle -/

/-- What an operation does when its guard holds, and when it fails (R64, R116, R157). -/
def slotDo (i : Instr) : (State → State) × (State → State) :=
  match i with
  | .add f => (effAdd f, id)
  | .sub f => (effSub f, id)
  | .and f => (effAnd f, id)
  | .or f => (effOr f, id)
  | .xor f => (effXor f, id)
  | .sll f => (effSll f, id)
  | .srl f => (effSrl f, id)
  | .sra f => (effSra f, id)
  | .slt f => (effSlt f, id)
  | .sltu f => (effSltu f, id)
  | .min f => (effMin f, id)
  | .max f => (effMax f, id)
  | .minu f => (effMinu f, id)
  | .maxu f => (effMaxu f, id)
  | .mul f => (effMul f, id)
  | .mulh f => (effMulh f, id)
  | .mulhu f => (effMulhu f, id)
  | .div f => (effDiv f, id)
  | .divu f => (effDivu f, id)
  | .rem f => (effRem f, id)
  | .remu f => (effRemu f, id)
  | .clz f => (effClz f, id)
  | .ctz f => (effCtz f, id)
  | .popc f => (effPopc f, id)
  | .bext f => (effBext f, id)
  | .bins f => (effBins f, id)
  | .addi f => (effAddi f, id)
  | .andi f => (effAndi f, id)
  | .ori f => (effOri f, id)
  | .xori f => (effXori f, id)
  | .slli f => (effSlli f, id)
  | .srli f => (effSrli f, id)
  | .srai f => (effSrai f, id)
  | .slti f => (effSlti f, id)
  | .lil f => (effLil f, id)
  | .lih f => (effLih f, id)
  | .lit f => (effLit f, id)
  | .cpx f => (effCpx f, id)
  | .stwr f => (effStwr f, id)
  | .br f => (effBr f, notTaken f.variant)
  | .call f => (effCall f, notTaken f.variant)
  | .bri f => (effBri f, notTaken f.variant)
  | .calli f => (effCalli f, notTaken f.variant)
  | .ret g => (effRet g, id)
  | .halt g => (effHalt g, id)
  | .trap g code => (effTrap g code, id)
  | .loop f => (effLoop f, id)
  | .loopr f => (effLoopr f, id)
  | .lstri f => (effLstri f, id)
  | .lstr f => (effLstr f, id)
  | .vadd f => (effVadd f, id)
  | .vsub f => (effVsub f, id)
  | .vmul f => (effVmul f, id)
  | .vfma f => (effVfma f, id)
  | .vfms f => (effVfms f, id)
  | .vfnma f => (effVfnma f, id)
  | .vmin f => (effVmin f, id)
  | .vmax f => (effVmax f, id)
  | .vclamp f => (effVclamp f, id)
  | .vabs f => (effVabs f, id)
  | .vneg f => (effVneg f, id)
  | .vand f => (effVand f, id)
  | .vor f => (effVor f, id)
  | .vxor f => (effVxor f, id)
  | .vandn f => (effVandn f, id)
  | .vsll f => (effVsll f, id)
  | .vsrl f => (effVsrl f, id)
  | .vsra f => (effVsra f, id)
  | .vadds f => (effVadds f, id)
  | .vsubs f => (effVsubs f, id)
  | .vcmp f => (effVcmp f, id)
  | .vsel f => (effVsel f, id)
  | .vperm f => (effVperm f, id)
  | .vshfl f => (effVshfl f, id)
  | .vred f => (effVred f, id)
  | .vscan f => (effVscan f, id)
  | .vdot f => (effVdot f, id)
  | .vcvt f => (effVcvt f, id)
  | .vins f => (effVins f, id)
  | .vext f => (effVext f, id)
  | .vbcst f => (effVbcst f, id)
  | .vcpx f => (effVcpx f, id)
  | .p5dot4 f => (effP5dot4 f, fun s => s.p5Begin 5 (.p5dot4 f) none)
  | .p5hmul f => (effP5hmul f, fun s => s.p5Begin 3 (.p5hmul f) none)
  | .exp2 f => (effExp2 f, id)
  | .log2 f => (effLog2 f, id)
  | .rcp f => (effRcp f, id)
  | .rsqrt f => (effRsqrt f, id)
  | .sqrt f => (effSqrt f, id)
  | .tanh f => (effTanh f, id)
  | .sigmoid f => (effSigmoid f, id)
  | .erf f => (effErf f, id)
  | .sinpi f => (effSinpi f, id)
  | .cospi f => (effCospi f, id)
  | .lds f => (effLds f, id)
  | .sts f => (effSts f, id)
  | .lda f => (effLda f, id)
  | .sta f => (effSta f, id)
  | .ldl f => (effLdl f, id)
  | .stl f => (effStl f, id)
  | .sld f => (effSld f, id)
  | .ldt f => (effLdt f, id)
  | .stag f => (effStag f, id)
  | .amo f => (effAmo f, id)
  | .rel f => (effRel f, id)
  | .mcpx f => (effMcpx f, id)
  | .maddi f => (effMaddi f, id)
  | .mli f => (effMli f, id)
  | .send f => (effSend f, id)
  | .recv f => (effRecv f, id)
  | .rld f => (effRld f, id)
  | .rst f => (effRst f, id)
  | .ramo f => (effRamo f, id)
  | .flush f => (effFlush f, id)
  | .ackw f => (effAckw f, id)
  | _ => (id, id)

/-- One slot of a bundle that executes. Every slot reads the registers as they stood before any write of its bundle
lands (R98), because writes land later. -/
def State.execSlot (s : State) (i : Instr) : State := if s.guardOn i then (slotDo i).1 s else (slotDo i).2 s

/-- The registers that a bundle's operations read inside windows (R394, event 4). -/
def windowReads (b : Be) (sc : Nat) (ops : List Instr) : Nat :=
  (ops.flatMap fun i => (slotReads b i).filter fun r => b.inWindow sc r.1 r.2).length

/-- The append of R113 after entry `cur` has taken its step: the redirect, or SeqNext, the ENDS set and the annulment.
After HALT the queue is discarded (R124), once a micro-sequence of the bundle has run. A discarded queue holds zero
entries, which a later trap saves (DESIGN CHOICE, log 95). -/
def Be.append (b : Be) : Be :=
  let n1 := (b.npq[1]?).getD ⟨0, false, 0⟩
  let n2 := (b.npq[2]?).getD ⟨0, false, 0⟩
  let (a, loops) := match b.taken, b.skip with
    | some t, _ => (t, b.loops)
    | none, some t => (t, b.loops)
    | none, none => seqNext n2.addr b.loops
  let n3 : NpqEntry := ⟨a, false, activeEnds loops a⟩
  let ann (e : NpqEntry) : NpqEntry := if b.annulTwo then { e with annul := true } else e
  let b := { b with loops, npq := #v[ann n1, ann n2, n3] }
  if b.halted then
    { b with npq := Vector.replicate 3 ⟨0, false, 0⟩
             state := match b.state with
               | .micro m => .micro m
               | _ => .idle }
  else b

/-- Start of a step at an entry: nothing taken yet (R113). -/
def Be.beginStep (b : Be) (a : Half) : Be :=
  { b with pc := a, taken := none, skip := none, annulTwo := false, halted := false, micro := none }

/-- A bundle that an event stops before it executes: in Elastic the trap, in Timed the record and an entry that takes
its step as an annulled one does (R48, R127). -/
def State.bundleFault (s : State) (e : Ev) : State :=
  let c := s.cur
  let s := if e.cause = 1 ∨ e.cause = 2 then s.count c 5 1 else s
  if s.timed c then (s.raise c e).modBe c Be.append else s.beRaise c e

/-- A bundle that waits: an Elastic stall cycle. -/
def State.bundleStall (s : State) (ops : List Instr) : State :=
  let c := s.cur
  let sending := ops.any fun i => match i with
    | .send _ => s.guardOn i && fabricStall s i
    | _ => false
  let s := if ops.any (fun i => s.guardOn i && scoreboardHazard s i) then s.count c 10 1 else s
  (s.count c 2 1).modBe c fun b => if sending then { b with sendWait := b.sendWait + 1 } else b

/-- Execute the operations of a bundle in slot order, apply the strides and append (R113). -/
def State.bundleRun (s : State) (v : Nat) (ends : BitVec 4) (all ops : List Instr) : State :=
  let c := s.cur
  let hdr := v % 2 ^ 32
  let units := (widthBits (widthCode hdr .va) + widthBits (widthCode hdr .vb) + widthBits (widthCode hdr .vc)) / 256
  let s := (s.count c 1 1).count c 3 units
  let s := if s.wrmode c = 0 then s.count c 4 (windowReads (s.core c).be (s.sc c) all) else s
  ((ops.foldl State.execSlot s).applyStrides ends).modBe c Be.append

/-- One step at an entry that is not annulled: fetch, decode checks, window reads, events, stalls, execution. In Timed an
event that names one slot's access, and not the bundle, stops that slot alone (R48). -/
def State.stepEntry (s : State) (e : NpqEntry) : State :=
  let c := s.cur
  match (s.core c).eng.bundleAt e.addr with
  | none => s.bundleFault (s.beEv 0x04 0 15)
  | some v =>
    if forbidden v then s.bundleFault (s.beEv 0x01 0 15)
    else
      match illegalSlots v with
      | k :: _ => s.bundleFault (s.beEv 0x02 0 k)
      | [] =>
        let ops := legalOps v
        if s.wrmode c = 2 ∧ ops.any s.readsWindow then s.bundleStall ops
        else
          match firstEvent (ops.flatMap (slotEvents s)) with
          | some ev =>
            if s.timed c ∧ !(ops.any fun i => (slotEvents s i).any fun x => decide (x.cause.toNat ≤ 5)) then
              (s.raise c ev).bundleRun v e.ends ops (ops.filter fun i => (slotEvents s i).isEmpty)
            else s.bundleFault ev
          | none =>
            if ops.any (fun i => slotStall s i) then s.bundleStall ops else s.bundleRun v e.ends ops ops

/-- The pending BE interrupt or TRAP is taken: its record, and the trap (R125, R127). -/
def State.takeBe (s : State) : State :=
  let c := s.cur
  match (s.core c).be.pend14 with
  | some (e, sc) =>
    (s.raise c e).modBe c fun b => { b with state := .trapping, trapEv := b.trapEv ++ [(e, sc)], pend14 := none }
  | none => s

/-- The bundle boundary before a step: an event detected after issue, then a BE interrupt or TRAP, is taken there in
Elastic (R125, R127). True where one is taken. -/
def State.atBoundary (s : State) : State × Bool :=
  let c := s.cur
  let b := (s.core c).be
  if s.timed c then (s, false)
  else if !b.trapEv.isEmpty then (s.modBe c fun b => { b with state := .trapping }, true)
  else if b.pend14.isSome then (s.takeBe, true)
  else (s, false)

/-- One step of the next-PC queue (R113). -/
def State.step113 (s : State) : State :=
  let c := s.cur
  let (s, trapped) := s.atBoundary
  if trapped then s
  else
    let e := (((s.core c).be.npq)[0]?).getD ⟨0, false, 0⟩
    let s := s.modBe c fun b => b.beginStep e.addr
    if e.annul then s.modBe c Be.append else s.stepEntry e

/-! ### Landings (R66, R132, R140) -/

/-- Whether a landing lands at or before SC `sc`. -/
def Landing.isDue (sc : Nat) (l : Landing) : Bool := l.due ≤ sc && l.src.isNone

/-- A remote load that lands leaves the count RLDS of its stream (R366). -/
def Be.replyLanded (b : Be) (l : Landing) : Be :=
  if l.flagSlot < 16 then b
  else
    let x := l.flagSlot - 16
    let r := xfOf ((b.regs.xf[x]?).getD 0)
    { b with regs := { b.regs with xf := b.regs.xf.setIfInBounds x ({ r with rlds := r.rlds - 1 } : XfReg).word } }

/-- Land every result due at SC `sc`: of those that meet in one register the later-issued stands, flags are joined
whatever stands. -/
def Be.landDue (b : Be) (sc : Nat) : Be :=
  let due := b.landings.filter (Landing.isDue sc)
  let b := { b with landings := b.landings.filter fun l => !l.isDue sc }
  let b := (due.filter fun l => !l.beaten due).foldl Be.writeLanding b
  (due.foldl Be.replyLanded b).landFlags sc (due.foldl (fun w l => w ||| l.flagWord) 0)

/-- REGISTER_LANDING. -/
def execRegisterLanding (s : State) : Host.Outcome State Fault Refusal :=
  let c := s.cur
  .next (if s.live c then s.modBe c fun b => b.landDue (s.sc c) else s)

/-! ### Accesses to the private stores (R247, R256, R265, R266) -/

def SpAccess.isLoad (a : SpAccess) : Bool :=
  match a.kind with
  | .load => true
  | .tagLoad => true
  | .accLoad => true
  | _ => false

/-- The event of an access in flight, by its slot and bundle. -/
def State.spEv (s : State) (a : SpAccess) (cause sub : Nat) : Ev := { s.beEv cause sub a.rank a.addr with pc := a.pc.setWidth 64 }

/-- A load samples; poisoned bytes are event 0x0D, a tag mismatch is a schedule fault and lands nothing (R265, R295). The
event of higher priority is reported first (R49). -/
def State.spSample (s : State) (a : SpAccess) : State :=
  let c := s.cur
  let k := (s.core c).eng
  let sc := s.sc c
  if a.kind = .accLoad then s.modBe c fun b => b.supply a.id (BitVec.ofNat 1024 (bytesVal (k.accLoad a.addr a.len))) sc
  else
    let poison := k.spadPoisoned a.addr a.len
    let mistag := a.kind = .tagLoad ∧ k.tagAt a.addr ≠ a.tag
    let s := if mistag ∨ poison.isSome then s.modBe c fun b => b.dropLanding a.id
      else s.modBe c fun b => b.supply a.id (BitVec.ofNat 1024 (readNat k.spad a.addr a.len)) sc
    let s := match poison with
      | some w => s.raise c ((s.spEv a 0x0D 0).poisoned 2 w)
      | none => s
    if mistag then s.beLate c (s.spEv a 0x08 4) else s

/-- A scratchpad store: the bits of `keep` stay as they are, and such a partial write leaves poison in place (R295). -/
def Engines.spadPerform (k : Engines) (a : SpAccess) : Engines :=
  if a.keep = 0 then (if a.poison then k.spadStorePoison a.addr a.bytes else k.spadStore a.addr a.bytes)
  else
    let old := readNat k.spad a.addr a.len
    let new := bytesVal a.bytes
    let v := (new ||| a.keep.toNat) - (a.keep.toNat - (old &&& a.keep.toNat))
    let bs := bytesOf v a.len
    if a.poison then k.spadStorePoison a.addr bs else { k with spad := writeBytes k.spad a.addr bs }

/-- The new elements of a combine with scratchpad bytes, and its flags (R231): `tag` holds 32 × COMB + ETYPE. -/
def combineRow (tag : Nat) (fz : Bool) (old new : Nat) : Nat → Nat × FlagSet
  | 0 => (0, 0)
  | n + 1 =>
    let w := esize (tag % 32)
    let r := combineElem (tag / 32) (tag % 32) fz (old % 2 ^ w) (new % 2 ^ w)
    let t := combineRow tag fz (old / 2 ^ w) (new / 2 ^ w) n
    (r.1 + 2 ^ w * t.1, r.2 ||| t.2)

/-- A combine of the permute engine performs in the scratchpad; poison met there is event 0x0D and stops it (R48, R231,
R295). -/
def State.spCombine (s : State) (a : SpAccess) : State :=
  let c := s.cur
  let k := (s.core c).eng
  let r := combineRow a.tag.toNat (s.fz c) (readNat k.spad a.addr a.len) (bytesVal a.bytes) (8 * a.len / esize (a.tag.toNat % 32))
  match k.spadPoisoned a.addr a.len with
  | some w =>
    s.raise c (({ s.beEv 0x0D 0 15 with engine := 3, pc := 0, issue := BitVec.ofNat 32 a.id } : Ev).poisoned 2 w)
  | none =>
    s.modEng c fun k =>
      { k with
        spad := writeBytes k.spad a.addr (bytesOf r.1 a.len)
        px := k.px.addFlags (BitVec.ofNat 32 a.id) a.pc.toNat r.2 }

/-- A write performs. -/
def State.spPerform (s : State) (a : SpAccess) : State :=
  match a.kind with
  | .store => s.modEng s.cur fun k => k.spadPerform a
  | .accStore => s.modEng s.cur fun k => k.accStore a.addr a.bytes
  | .tagStore => s.modEng s.cur fun k => k.setTag a.addr a.tag
  | .codebook => s.modEng s.cur fun k => { k with codebook := sput 0 k.codebook a.addr (BitVec.ofNat 32 (bytesVal a.bytes) &&& 0x80FFFFFF) }
  | .combine => s.spCombine a
  | _ => s

/-- The accesses due now: the loads, if any is left to sample, else the stores, MA before MB (R247). -/
def dueAccesses (b : Be) (sc : Nat) : List SpAccess :=
  let due := b.accesses.filter fun a => a.due ≤ sc
  let loads := due.filter SpAccess.isLoad
  if loads.isEmpty then sortBy (fun x y => decide (x.due < y.due) || (x.due == y.due && decide (x.rank < y.rank))) due
  else loads

/-- SCRATCHPAD_ACCESS: every read of an SC samples before any write of that SC performs (R247). -/
def State.scratchpadAccess (s : State) : State :=
  let c := s.cur
  if !s.live c then s
  else
    let due := dueAccesses (s.core c).be (s.sc c)
    let s := s.modBe c fun b => { b with accesses := b.accesses.filter fun a => !due.contains a }
    due.foldl (fun s a => if a.isLoad then s.spSample a else s.spPerform a) s

def execScratchpadAccess (s : State) : Host.Outcome State Fault Refusal := .next s.scratchpadAccess

/-! ### Micro-steps (R157 to R160) -/

/-- Micro-steps of an operation (R157). -/
def microStepsOf (i : Instr) : Nat :=
  match i with
  | .p5dot4 _ => 5
  | .p5hmul _ => 3
  | _ => 0

/-- The steps of a micro-sequence: those of its longest operation (R157). -/
def microSteps (ops : List Instr) : Nat := ops.foldl (fun a i => max a (microStepsOf i)) 0

/-- After the last micro-step: the next step of the queue, or the halt of the bundle, where an event detected after issue
traps at once. A resumed sequence clears MSTEP (R127, R160). -/
def Be.microEnd (b : Be) (u : Micro) : Be :=
  { b with
    micro := none
    state := if !b.halted then .running else if b.trapEv.isEmpty then .idle else .trapping
    mstep := if u.resumed then 0 else b.mstep }

/-- P5_MICRO_STEP: a pending BE interrupt is taken at the boundary in Elastic; else the pending operations take their
micro-step in lockstep. -/
def State.microStep (s : State) : State :=
  let c := s.cur
  let b := (s.core c).be
  if !s.live c then s
  else
    match b.state, b.micro with
    | .micro m, some u =>
      let intr := match b.pend14 with
        | some (e, _) => e.subcause == 0
        | none => false
      if !s.timed c && intr then s.takeBe
      else
        let s := u.ops.foldl (fun s i => p5Step u.index i s) s
        s.modBe c fun b =>
          if u.index + 1 ≥ m then b.microEnd u else { b with micro := some { u with index := u.index + 1 } }
    | .micro _, none => s.modBe c fun b => { b with state := .running }
    | _, _ => s

def execP5MicroStep (s : State) : Host.Outcome State Fault Refusal := .next s.microStep

/-! ### The step of an engine (R113, R128, R190) -/

/-- The first step of a started engine: of the queue, or, of a stopped micro-sequence that the resume form brought back,
its next micro-step (R128, R160). -/
def State.firstStep (s : State) : State :=
  let c := s.cur
  match (s.core c).be.micro with
  | some u => (s.modBe c fun b => { b with state := .micro (microSteps u.ops) }).microStep
  | none => (s.modBe c fun b => { b with state := .running }).step113

/-- BUNDLE_STEP: a step of a running bundle engine, or the first step of a started one at its SC (R113, R190). -/
def State.bundleStep (s : State) : State :=
  let c := s.cur
  if !s.live c then s
  else
    match (s.core c).be.state with
    | .running => s.step113
    | .awaiting t => if t ≤ s.sc c then s.firstStep else s
    | _ => s

def execBundleStep (s : State) : Host.Outcome State Fault Refusal := .next s.bundleStep

/-! ### The trap (R126, R127) -/

/-- A queue entry as epc0 to epc2 hold it (R126). -/
def NpqEntry.word (e : NpqEntry) : Word :=
  BitVec.ofNat 64 (natOfBool e.annul * 2 ^ 63 + e.ends.toNat * 2 ^ 32 + e.addr.toNat)

def npqOf (w : Word) : NpqEntry := ⟨w.setWidth 32, w.getLsbD 63, w.extractLsb' 32 4⟩

/-- The slot bit of a profile-5 operation: VA, VB, VC from bit 0. -/
def microSlot (i : Instr) : BitVec 3 :=
  match i with
  | .p5dot4 f => (1 : BitVec 3) <<< ((VSlot.toSlot f.sl).rank - 2)
  | .p5hmul f => (1 : BitVec 3) <<< ((VSlot.toSlot f.sl).rank - 2)
  | _ => 0

/-- The slots whose micro-sequence still has a step to run before step `index` (R159). -/
def Micro.pending (u : Micro) : BitVec 3 :=
  u.slots &&& (u.ops.filter fun i => decide (u.index < microStepsOf i)).foldl (fun m i => m ||| microSlot i) 0

/-- MSTEP for a micro-sequence stopped before its step `index` (R159). -/
def Micro.word (u : Micro) : Word :=
  BitVec.ofNat 64 (2 ^ 63 + u.pending.toNat * 2 ^ 36 + u.index * 2 ^ 32 + u.pc.toNat)

/-- MSTEP as a freeze latches it: the micro-sequence under way, if there is one (R159, R202). -/
def Be.mstepAt (b : Be) (frozen : Bool) : Word :=
  match frozen, b.micro with
  | true, some u => u.word
  | _, _ => b.mstep

/-- The trap once every earlier result has landed: epc0 to epc2 take the queue, MSTEP a stopped micro-sequence, and
interrupt 16 becomes pending (R127, R185). -/
def Be.saveTrap (b : Be) : Be :=
  { b with
    epc := b.npq.map NpqEntry.word
    mstep := match b.micro with
      | some u => u.word
      | none => b.mstep
    micro := none
    trapEv := []
    state := .trapped }

/-- BE_TRAP. -/
def State.beTrap (s : State) : State :=
  let c := s.cur
  let b := (s.core c).be
  if s.live c && b.state == .trapping && b.landings.isEmpty then
    let pend := b.trapEv.map fun x => (x.1, x.2, (0 : Word))
    (s.modBe c Be.saveTrap).modCc c fun k => { k with mip := k.mip ||| 0x10000, pendMacro := k.pendMacro ++ pend }
  else s

def execBeTrap (s : State) : Host.Outcome State Fault Refusal := .next s.beTrap

end Sys2Proof.Machine
end

