-- ==== Sys2Proof/Machine/Csr.lean ====
section
/-! DEFINITION. The snapshot entries of a frozen domain (R202, R203) and the control core's CSRs (R126, R139, R159, R177,
R184, R197 to R201). -/

namespace Sys2Proof.Machine

/-! ### Snapshot entries (R203) -/

/-- What an entry records before it is laid out in words. -/
structure SnapEntry where
  kind : Nat
  file : Nat
  reg : Nat
  slot : Nat
  bytes : Nat
  flags : Nat
  larea : Nat
  duesc : Nat
  delivsc : Nat
  issuesc : Nat
  addr : Nat
  lo : Nat
  hi : Nat
  bmask : Nat
  data : Nat
deriving DecidableEq, Repr

/-- The 24 words of an entry. Stride registers (file 16 of the model) take the loop file's code 5. -/
def SnapEntry.words (e : SnapEntry) : List Nat :=
  let file := if e.file = 16 then 5 else e.file % 16
  [e.kind * 2 ^ 56 + file * 2 ^ 52 + e.reg % 16 * 2 ^ 48 + e.slot % 16 * 2 ^ 44 + e.bytes / 2 % 128 * 2 ^ 37
      + e.flags % 64 * 2 ^ 31 + e.larea % 2 ^ 16,
    e.duesc, e.delivsc, e.issuesc, e.addr % 2 ^ 50, e.hi % 1024 * 2 ^ 10 + e.lo % 1024, e.bmask % 2 ^ 64,
    e.bmask / 2 ^ 64 % 2 ^ 64] ++ (List.range 16).map (fun i => bitsOf e.data (64 * i) 64)

/-- A result in flight: kind 0x03 where it is a long-class load that has sampled, which `sampled` lists until its delivery,
0x01 otherwise. -/
def Landing.snap (sampled : List LongReq) (l : Landing) : SnapEntry :=
  let from_ := sampled.find? fun r => r.engine == 1 && r.slot == l.rank && r.issue == l.issue
  { kind := if from_.isSome then 3 else 1
    file := l.file, reg := l.reg, slot := l.rank, bytes := (l.len + 7) / 8, flags := l.flags.toNat, larea := 0
    duesc := l.due, delivsc := if from_.isSome then l.due else 0
    issuesc := l.issue, addr := (from_.map (·.ia)).getD 0, lo := l.lo, hi := l.lo + l.len - 1, bmask := 0, data := l.data.toNat }

/-- A load of a private store that has not sampled: the landing to come, of kind 0x01, with the bytes that it would sample
now (DESIGN CHOICE, log 107). -/
def Engines.loadSnap (k : Engines) (a : SpAccess) (l : Landing) : SnapEntry :=
  let v := if a.kind = .accLoad then bytesVal (k.accLoad a.addr a.len) else readNat k.spad a.addr a.len
  { Landing.snap [] l with addr := a.addr, data := v }

/-- The bytes of a mask of bits that is set whole. -/
def wholeBytes (m n : Nat) : Nat := (List.range n).foldl (fun v i => if bitsOf m (8 * i) 8 = 255 then v + 2 ^ i else v) 0

/-- A private-store write that has not performed: kind 0x05. The data of a tag store is its tag; a byte that the store
leaves as it is stands outside the mask. -/
def SpAccess.snap (a : SpAccess) : SnapEntry :=
  let tag := a.kind == .tagStore
  { kind := 5, file := 0, reg := 0, slot := if a.rank ≤ 4 then 15 else a.rank, bytes := if tag then 2 else a.len, flags := 0
    larea := 0, duesc := a.due, delivsc := 0, issuesc := a.issue, addr := a.addr, lo := 0, hi := 0
    bmask := if tag then 3 else (2 ^ a.len - 1) - wholeBytes a.keep.toNat (min a.len 8)
    data := if tag then a.tag.toNat else bytesVal a.bytes }

/-- A long-class access that has not sampled or performed: kind 0x02 or 0x04. -/
def LongReq.snap (ls : List Landing) (r : LongReq) : SnapEntry :=
  let l := (ls.find? fun l => l.src == some r.id).getD default
  { kind := if r.kind = .load then 2 else 4
    file := l.file, reg := l.reg, slot := r.slot, bytes := r.bytes, flags := 0, larea := 0, duesc := r.due
    delivsc := if r.kind = .load then l.due else 0, issuesc := r.issue, addr := r.ia, lo := l.lo, hi := l.lo + l.len - 1
    bmask := (r.mask &&& ~~~(BitVec.ofNat 128 (wholeBytes r.keep.toNat 128))).toNat, data := r.data.toNat }

/-- A read of a memory table that has sampled and not yet been delivered: kind 0x03 of no slot (R238). -/
def LongReq.snapSampled (r : LongReq) : SnapEntry :=
  { kind := 3, file := 0, reg := 0, slot := 15, bytes := r.bytes, flags := 0, larea := 0, duesc := r.due + 512
    delivsc := r.due + 512, issuesc := r.issue, addr := r.ia, lo := 0, hi := 0, bmask := 0, data := r.data.toNat }

/-- A remote load that awaits its reply: kind 0x06. ADDR holds the route in [49:38] and the offset's low bits in [37:0]
(DESIGN CHOICE, log 107). -/
def remoteSnap (at_ : Sparse (Nat × Nat)) (ls : List Landing) (x : Nat × Nat × Nat × Nat) : SnapEntry :=
  let l := (ls.find? fun l => l.src == some x.2.2.1).getD default
  let to_ := (sget at_ x.1).getD (0, 0)
  { kind := 6, file := l.file, reg := l.reg, slot := 8, bytes := (l.len + 7) / 8, flags := 0, larea := x.1, duesc := l.due
    delivsc := l.due, issuesc := l.issue, addr := to_.1 * 2 ^ 38 + to_.2 % 2 ^ 38, lo := l.lo, hi := l.lo + l.len - 1, bmask := 0, data := 0 }

/-- The snapshot entries of a core: at most 3,072 (R202). -/
def State.snapshot (s : State) (c : Nat) : List SnapEntry :=
  let k := s.core c
  let b := k.be
  let mine (r : LongReq) : Bool := r.core == c && r.dom == k.dom
  let sampled := s.mem.sampled.filter mine
  let direct := b.landings.filter fun l => l.src.isNone
  let loads := (b.accesses.filter SpAccess.isLoad).filterMap fun a =>
    (b.landings.find? fun l => l.src == some a.id).map (k.eng.loadSnap a)
  let stores := b.accesses.filter fun a => !a.isLoad
  (direct.map (Landing.snap sampled) ++ loads ++ (s.mem.reqs.filter mine).map (LongReq.snap b.landings) ++
    (sampled.filter fun r => r.engine == 3).map LongReq.snapSampled ++ stores.map SpAccess.snap ++
    (k.fab.loads.filter fun l => decide (l.1 < 256)).map (remoteSnap k.fab.loadAt b.landings)).take 3072

/-- Whether the core's domain is frozen. -/
def State.frozen (s : State) (c : Nat) : Bool :=
  match s.domOf c with
  | some d => d.phase == .frozen
  | none => false

/-! ### Reading CSRs -/

/-- CSRs of the privileged architecture that read zero here: satp, mcountinhibit, the performance-monitor counters and
their events (R181, R184). -/
def csrReadsZero (n : Nat) : Bool :=
  n == 0x180 || n == 0x320 || (0x323 ≤ n && n ≤ 0x33F) || (0xB03 ≤ n && n ≤ 0xB1F) || (0xC03 ≤ n && n ≤ 0xC1F)

/-- The value of CSR `n` of core `c`; none where there is no such CSR. -/
def State.csrRead (s : State) (c n : Nat) : Option Word :=
  let k := s.core c
  let cc := k.cc
  let sc := BitVec.ofNat 64 (s.sc c)
  let basin := BitVec.ofNat 64 s.basin
  if csrReadsZero n then some 0
  else
    match n with
    | 0x300 => some (cc.mstatus &&& mstatusMask)
    | 0x301 => some 0x8000000000901105
    | 0x304 => some cc.mie
    | 0x305 => some (mtvecOf k)
    | 0x306 => some 7
    | 0x340 => some cc.mscratch
    | 0x341 => some cc.mepc
    | 0x342 => some cc.mcause
    | 0x343 => some cc.mtval
    | 0x344 => some cc.mip
    | 0xB00 => some (sc + cc.cycleOfs)
    | 0xB02 => some cc.minstret
    | 0xC00 => some (sc + cc.cycleOfs)
    | 0xC01 => some basin
    | 0xC02 => some cc.minstret
    | 0xF11 => some 0
    | 0xF12 => some 0x7408
    | 0xF13 => some 0x100
    | 0xF14 => some (BitVec.ofNat 64 c)
    | 0x800 => some k.be.vflags
    | 0x801 => some cc.fpctl
    | 0x802 => some (cc.srga.setWidth 64)
    | 0x803 => some (cc.srgb.setWidth 64)
    | 0x804 => some (cc.srgc.setWidth 64)
    | 0x805 => some (cc.srgm.setWidth 64)
    | 0x806 => some (cc.srge.setWidth 64)
    | 0xCC0 => some sc
    | 0xCC1 => some basin
    | 0xCC2 => some cc.rank
    | 0xCC3 => some cc.gsize
    | 0xCC4 => some cc.ggeo
    | 0xCC5 => some (BitVec.ofNat 64 (s.partNo (s.partOf c) * 2 ^ 12 + c))
    | 0x7C0 => some cc.calctl
    | 0x7C1 => some cc.tcause
    | 0x7C2 => some cc.faddr
    | 0x7C3 => some cc.fcoord
    | 0x7C4 => some cc.fsc
    | 0x7C6 => some ((k.be.epc[0]?).getD 0)
    | 0x7C7 => some ((k.be.epc[1]?).getD 0)
    | 0x7C8 => some ((k.be.epc[2]?).getD 0)
    | 0x7C9 => some (k.be.mstepAt (s.frozen c))
    | 0x7CA => some cc.drifts
    | 0x7CB => some cc.snapidx
    | 0xFC0 =>
      if s.frozen c then
        let e := bitsOf cc.snapidx.toNat 16 12
        let w := bitsOf cc.snapidx.toNat 0 5
        match (s.snapshot c)[e]? with
        | some x => some (BitVec.ofNat 64 (x.words.getD w 0))
        | none => some 0
      else some 0
    | 0xFC1 => some (if s.frozen c then BitVec.ofNat 64 (s.snapshot c).length else 0)
    | _ => none

/-- Whether mode `md` may read CSR `n`: bits [9:8] name the least mode; hpmcounter3 to hpmcounter31 are not enabled for
U mode (R184). -/
def csrModeOk (md : Mode) (n : Nat) : Bool :=
  match md with
  | .m => true
  | .u => n / 256 % 4 == 0 && !(0xC03 ≤ n && n ≤ 0xC1F)

/-- CSRs that a CSR instruction may not write: the read-only number range, misa and mtvec (R184). -/
def csrReadOnly (n : Nat) : Bool := n / 1024 == 3 || n == 0x301 || n == 0x305

/-! ### Writing CSRs -/

/-- A write of mstatus: the fields of R184; MPP holds U or M only, and keeps its value otherwise. -/
def mstatusWrite (old v : Word) : Word :=
  let mpp : Word := v &&& 0x1800
  let mpp := if mpp = 0 ∨ mpp = 0x1800 then mpp else old &&& 0x1800
  (v &&& 0x0000000000220088) ||| mpp

/-- The CSRs of the control core itself. -/
def Cc.csrWrite (k : Cc) (sc n : Nat) (v : Word) : Cc :=
  match n with
  | 0x300 => { k with mstatus := mstatusWrite k.mstatus v }
  | 0x304 => { k with mie := v &&& 0x70000 }
  | 0x340 => { k with mscratch := v }
  | 0x341 => { k with mepc := v &&& ~~~1 }
  | 0x342 => { k with mcause := v }
  | 0x343 => { k with mtval := v }
  | 0xB00 => { k with cycleOfs := v - BitVec.ofNat 64 sc }
  | 0xB02 => { k with minstret := v }
  | 0x801 => { k with fpctl := v &&& 1 }
  | 0x802 => { k with srga := v.setWidth 32 }
  | 0x803 => { k with srgb := v.setWidth 32 }
  | 0x804 => { k with srgc := v.setWidth 32 }
  | 0x805 => { k with srgm := v.setWidth 32 }
  | 0x806 => { k with srge := v.setWidth 32 }
  | 0x7C1 => { k with tcause := v &&& 0xFFFFFFFFFF000000 }
  | 0x7C2 => { k with faddr := v }
  | 0x7C3 => { k with fcoord := v }
  | 0x7C4 => { k with fsc := v }
  | 0x7CA => { k with drifts := k.drifts &&& ~~~(v &&& 0x100) }
  | 0x7CB => { k with snapidx := v &&& 0x000000000FFF001F }
  | _ => k

/-- The CSRs that the bundle engine holds. -/
def Be.csrWrite (b : Be) (sc n : Nat) (v : Word) : Be :=
  match n with
  | 0x800 => b.writeFlags sc v
  | 0x7C6 => { b with epc := b.epc.setIfInBounds 0 (v &&& 0x8000000FFFFFFFFF) }
  | 0x7C7 => { b with epc := b.epc.setIfInBounds 1 (v &&& 0x8000000FFFFFFFFF) }
  | 0x7C8 => { b with epc := b.epc.setIfInBounds 2 (v &&& 0x8000000FFFFFFFFF) }
  | 0x7C9 => { b with mstep := v &&& 0x8000007FFFFFFFFF }
  | _ => b

/-- Write CSR `n` of core `c`, read-only fields ignored (R6). CALCTL.BEIRQ raises a BE interrupt (R125, R198). In frozen
inspection only mscratch and SNAPIDX take a write (R186). -/
def State.csrWrite (s : State) (c n : Nat) (v : Word) : State :=
  if (s.core c).cc.inspect.isSome ∧ n ≠ 0x340 ∧ n ≠ 0x7CB then s
  else
    let sc := s.sc c
    let s := s.modCore c fun k => { k with cc := k.cc.csrWrite sc n v, be := k.be.csrWrite sc n v }
    if n = 0x7C0 ∧ v.getLsbD 9 then s.pendBe c { s.beEv 0x14 0 15 with pc := ((s.core c).be.pc).setWidth 64 } else s

end Sys2Proof.Machine
end

