-- ==== Sys2Proof/Machine/Queue.lean ====
section
/-! DEFINITION. Queue records and hardware slots (R339, R345, R346), readiness of a queue's next command (R343), and
completion records with their coalescing (R350, R351). -/

namespace Sys2Proof.Machine

/-! ### Fields of a queue record (R339) -/

/-- Field `[lo + len − 1 : lo]` of word `i`. -/
def QRec.get (r : QRec) (i lo len : Nat) : Nat := bitsOf ((r.w[i]?).getD 0).toNat lo len

/-- Replace a field of word `i`. -/
def QRec.put (r : QRec) (i lo len v : Nat) : QRec :=
  let old := ((r.w[i]?).getD 0).toNat
  ⟨r.w.setIfInBounds i (BitVec.ofNat 64 (old - bitsOf old lo len * 2 ^ lo + v % 2 ^ len * 2 ^ lo))⟩

def QRec.v (r : QRec) : Bool := r.get 0 63 1 == 1
def QRec.prio (r : QRec) : Nat := r.get 0 60 3
def QRec.state (r : QRec) : Nat := r.get 0 58 2
def QRec.logn (r : QRec) : Nat := r.get 0 54 4
def QRec.clog (r : QRec) : Nat := r.get 0 50 4
def QRec.ringIA (r : QRec) : Nat := r.get 0 0 50
def QRec.head (r : QRec) : Nat := r.get 1 32 32
def QRec.tail (r : QRec) : Nat := r.get 1 0 32
def QRec.seq (r : QRec) : Nat := r.get 2 32 32
def QRec.ctail (r : QRec) : Nat := r.get 2 0 32
def QRec.chead (r : QRec) : Nat := r.get 3 32 32
def QRec.crkey (r : QRec) : Nat := r.get 3 0 32
def QRec.crva (r : QRec) : Nat := r.get 4 0 64
def QRec.cqpn (r : QRec) : Nat := r.get 5 40 24
def QRec.ringkey (r : QRec) : Nat := r.get 5 0 32
def QRec.w1 (r : QRec) : Nat := r.get 6 40 20
def QRec.w2 (r : QRec) : Nat := r.get 6 20 20
def QRec.w3 (r : QRec) : Nat := r.get 6 0 20
def QRec.tidle (r : QRec) : Nat := r.get 7 8 8
def QRec.thold (r : QRec) : Nat := r.get 7 0 8

/-- (a − b) mod 2^32, the comparison of R340. -/
def diff32 (a b : Nat) : Nat := wrapInt ((a : Int) - b) 32

/-- The stated ranges of R339. -/
def QRec.inRange (r : QRec) : Bool :=
  r.state ≠ 3 && 6 ≤ r.logn && r.logn ≤ 16 && 6 ≤ r.clog && r.clog ≤ 15 && r.ringIA % 4096 == 0
    && iaRegion r.ringIA == 0 && r.crva % 32 == 0 && 1 ≤ r.tidle && r.tidle ≤ r.thold && r.thold ≤ 65

/-! ### Queues, slots and partitions -/

/-- The partition that owns queue `q`: the one that holds the quarter of its index (R339). -/
def State.partOfQueue (s : State) (q : Nat) : Option Nat :=
  (List.range 4).find? fun p => bitOf (s.partWord p 0) 63 && bitOf (s.partWord p 0) (56 + q / 32768)

/-- The slot that holds queue `q`: front end × 64 + slot. -/
def State.slotOf (s : State) (q : Nat) : Option Nat := (s.io.slots.find? fun e => e.2.queue == some q).map (·.1)

def State.slot (s : State) (n : Nat) : HwSlot := (sget s.io.slots n).getD HwSlot.reset

def State.setSlot (s : State) (n : Nat) (x : HwSlot) : State := { s with io := { s.io with slots := sinsert s.io.slots n x } }

def State.modSlot (s : State) (n : Nat) (f : HwSlot → HwSlot) : State := s.setSlot n (f (s.slot n))

/-- Address of queue `q`'s record in its partition's memory. -/
def State.recordIA (s : State) (p q : Nat) : Nat := s.partWord p 1 % 2 ^ 50 + 64 * q

/-- The queue's record: the slot's live copy while it is mapped, else the one in memory (R339). -/
def State.queueRec (s : State) (q : Nat) : QRec :=
  match s.slotOf q with
  | some n => (s.slot n).rec_
  | none =>
    match s.partOfQueue q with
    | some p => ⟨Vector.ofFn fun (i : Fin 8) => BitVec.ofNat 64 (s.iaWord p (s.recordIA p q + 8 * i.val))⟩
    | none => .reset

/-- Store a queue record in memory. -/
def State.storeRec (s : State) (p q : Nat) (r : QRec) : State :=
  (s.iaStore p (s.recordIA p q) (r.w.toList.flatMap fun w => bytesOf w.toNat 8)).1

def State.setQueueRec (s : State) (q : Nat) (r : QRec) : State :=
  match s.slotOf q with
  | some n => s.modSlot n fun x => { x with rec_ := r }
  | none =>
    match s.partOfQueue q with
    | some p => s.storeRec p q r
    | none => s

/-- A slot is idle (R346). -/
def HwSlot.idle (x : HwSlot) : Bool :=
  match x.queue with
  | none => true
  | some _ => x.execs.isEmpty && x.rec_.head == x.rec_.tail && x.held.isEmpty

/-! ### Commands -/

/-- Fields of a command's first word (R342). -/
def Cmd.word (c : Cmd) (i : Nat) : Nat := (c.words.getD i 0).toNat
def Cmd.opcode (c : Cmd) : Nat := bitsOf (c.word 0) 0 8
def Cmd.cmpl (c : Cmd) : Bool := bitOf (c.word 0) 8
def Cmd.ovl (c : Cmd) : Bool := bitOf (c.word 0) 9
def Cmd.cimm (c : Cmd) : Bool := bitOf (c.word 0) 10
def Cmd.user (c : Cmd) : Nat := bitsOf (c.word 0) 48 16

/-- The command that the queue's HEAD names, as it stands in the ring (R340). -/
def State.nextCmd (s : State) (p : Nat) (r : QRec) : Cmd :=
  let a := r.ringIA + 64 * (r.head % 2 ^ r.logn)
  { idx := BitVec.ofNat 32 r.head, words := (List.range 8).map fun i => BitVec.ofNat 64 (s.iaWord p (a + 8 * i))
    at_ := s.basin, dom := none, written := 0, failed := none }

/-- Whether the next command of a mapped queue is ready (R343). -/
def State.slotReady (s : State) (n : Nat) : Bool :=
  let x := s.slot n
  match x.queue with
  | none => false
  | some q =>
    let r := x.rec_
    let p := (s.partOfQueue q).getD 0
    if r.state == 0 && !(s.part p).quiesced && diff32 r.tail r.head != 0 && decide (x.execs.length < 8)
        && decide (diff32 r.ctail r.chead + x.held.length < 2 ^ r.clog) && !x.execs.any (fun e => e.opcode == 3 || e.opcode == 5) then
      let c := s.nextCmd p r
      !(c.opcode == 1 && !c.ovl && x.execs.any (fun e => e.opcode == 1)) && !(c.opcode == 4 && !x.execs.isEmpty)
    else false

/-! ### Completion records (R350, R351) -/

/-- The words of a completion record, less PHASE. -/
def recordOf (c : Cmd) (status head pstat mdeliv replays basin aux : Nat) : List Word :=
  [BitVec.ofNat 64 (c.idx.toNat * 2 ^ 32 + c.user * 2 ^ 16 + status * 2 ^ 8 + c.opcode),
    BitVec.ofNat 64 (head * 2 ^ 32 + pstat * 2 ^ 16 + mdeliv * 2 ^ 15 + replays * 2 ^ 12), BitVec.ofNat 64 basin,
    BitVec.ofNat 64 aux]

/-- Send one record, by RDMA WRITE on CQPN under CRKEY: its PHASE follows CTAIL, which advances (R350). -/
def sendRecord (q : Nat) (a : State × QRec) (ws : List Word) : State × QRec :=
  let r := a.2
  let phase : Word := BitVec.ofNat 64 (r.ctail / 2 ^ r.clog % 2)
  let ws := match ws with
    | w0 :: w1 :: rest => w0 :: (w1 ||| phase) :: rest
    | _ => ws
  (a.1.emit (.completion q r.cqpn r.crkey (r.crva + 32 * (r.ctail % 2 ^ r.clog)) ws), r.put 2 0 32 (r.ctail + 1))

/-- Send every held record of queue `q`, oldest first (R351). -/
def State.sendHeld (s : State) (q : Nat) : State :=
  match s.slotOf q with
  | none => s
  | some n =>
    let x := s.slot n
    let a := (x.held.map (·.words)).foldl (sendRecord q) (s, x.rec_)
    a.1.setSlot n { x with rec_ := a.2, held := [] }

/-- A record is created. It is held, and sent with all earlier ones where it carries CIMM, has a non-zero status or is
the 32nd (R351); an unmapped queue's is sent at once. -/
def State.createRecord (s : State) (q : Nat) (ws : List Word) (now : Bool) : State :=
  match s.slotOf q with
  | none =>
    let a := sendRecord q (s, s.queueRec q) ws
    a.1.setQueueRec q a.2
  | some n =>
    let s := s.modSlot n fun x => { x with held := x.held ++ [{ words := ws, at_ := s.basin }] }
    if now || (s.slot n).held.length ≥ 32 then s.sendHeld q else s

/-- What a completion says beside its status. -/
structure CInfo where
  pstat : Nat
  mdeliv : Bool
  replays : Nat
  aux : Nat
deriving DecidableEq, Repr

/-- A command completes: it leaves execution, and its record is created where it failed or has CMPL set (R343, R350). -/
def State.complete (s : State) (q : Nat) (c : Cmd) (status : Nat) (i : CInfo) : State :=
  let s := match s.slotOf q with
    | some n => s.modSlot n fun x => { x with execs := x.execs.filter (fun e => e.idx != c.idx) }
    | none => s
  let s := { s with io := { s.io with copies := s.io.copies.filter fun x => !(x.queue == q && x.idx == c.idx) } }
  if status ≠ 0 ∨ c.cmpl then
    s.createRecord q (recordOf c status (s.queueRec q).head i.pstat (natOfBool i.mdeliv) i.replays s.basin i.aux)
      (status ≠ 0 || c.cimm)
  else s

/-- A record for a command that does not end with it: a launch that is evicted (R40, R350). -/
def State.report (s : State) (q : Nat) (c : Cmd) (status : Nat) (i : CInfo) : State :=
  s.createRecord q (recordOf c status (s.queueRec q).head i.pstat (natOfBool i.mdeliv) i.replays s.basin i.aux) true

/-- Firmware disables queue `q` with record `r`: a slot that holds it, busy or not, sends the records it holds and is free
again, and the live copy goes to memory in STATE 2 (R346). -/
def State.disableQueue (s : State) (q : Nat) (r : QRec) : State :=
  match s.slotOf q with
  | none => s.setQueueRec q r
  | some n =>
    let s := s.sendHeld q
    let live := ((s.slot n).rec_).put 0 58 2 2
    let s := s.setSlot n { HwSlot.reset with lastDispatch := (s.slot n).lastDispatch }
    let s := { s with io := { s.io with copies := s.io.copies.filter fun x => x.queue != q } }
    s.setQueueRec q live

/-- Put queue `q` in STATE 1. -/
def State.queueError (s : State) (q : Nat) : State := s.setQueueRec q ((s.queueRec q).put 0 58 2 1)

/-! ### Headwater's state table (R354, R388) -/

/-- What the state table is to say of the module as it stands. -/
def State.tableBody (s : State) : TableBody :=
  let live := s.doms.filter fun e => e.2.phase != .ended
  { parts := s.parts.toList.map fun t => t.words.toList
    slots := s.io.slots.filterMap fun e => e.2.queue.map fun q => (e.1, q)
    doms := live.map fun e => (e.1, e.2.phase, e.2.saveIA)
    fenced := (s.cores.filter fun e => e.2.fenced).map (·.1)
    pins := live.map fun e => (e.1, e.2.pins)
    leases := live.map fun e => (e.1, e.2.leases ++ e.2.linkLeases ++ e.2.seqLeases)
    mgDone := s.hw.mgDone, mgStatus := s.hw.mgStatus, islands := s.islands }

/-- Headwater writes the copy of its state table that it did not write last. -/
def State.tableWrite (s : State) : State :=
  let t : TableCopy := ⟨s.hw.version + 1, s.tableBody⟩
  { s with hw := { s.hw with
      version := t.version, copyB := !s.hw.copyB
      tableA := if s.hw.copyB then t else s.hw.tableA, tableB := if s.hw.copyB then s.hw.tableB else t } }

/-- The copy written last: the one with the higher VERSION. -/
def Headwater.table (h : Headwater) : TableCopy := if h.copyB then h.tableB else h.tableA

/-- The state table follows every change (R354). -/
def State.tableSync (s : State) : State := if s.tableBody = s.hw.table.body then s else s.tableWrite

end Sys2Proof.Machine
end

