-- ==== Sys2Proof/Machine/Firmware.lean ====
section
/-! DEFINITION. Headwater (R354, R355, R388), merges and splits of partitions (R14, R387, R402), islands (R12, R397,
R398), hold cycles (R13, R196, R391), and the module's readiness (R357, R389, R390, R395, R396). -/

namespace Sys2Proof.Machine

/-! ### Hold cycles (R391) -/

/-- Whether the drift unit accepts a request of `n` holds after basin count `b`. The spans from b to b + n include both
ends (DEDUCED, log 7). -/
def State.driftOk (s : State) (b n : Nat) : Bool :=
  1 ≤ n && n ≤ 255 && s.basin + 4096 ≤ b && decide (s.drift.reqs.length < 4)
    && s.drift.reqs.all fun r => b + n < r.b || r.b + r.n < b

/-- A request of hold cycles, by a core or through DRREQ. -/
def State.driftRequest (s : State) (b n : Nat) (core : Option Nat) : State :=
  if s.driftOk b n then
    let s := { s with drift := { s.drift with reqs := s.drift.reqs ++ [{ b, n, core }] } }
    match core with
    | some c => s.modCc c fun k => { k with drifts := k.drifts + 1 }
    | none => s
  else
    match core with
    | some c => s.modCc c fun k => { k with drifts := k.drifts ||| 0x100 }
    | none => { s with drift := { s.drift with rej := true } }

/-- DRREQ: a write of N submits a request at the B written before it. -/
def execDrreq (v : Word) (s : State) : Host.Outcome State Fault Refusal :=
  .next (s.driftRequest s.drift.reqB.toNat (v.toNat % 256) none)

/-- One request is carried out: its core's PEND falls (R196). -/
def State.holdDone (s : State) (r : DriftReq) : State :=
  let s := { s with drift := { s.drift with holds := s.drift.holds + BitVec.ofNat 32 r.n } }
  match r.core with
  | some c => s.modCc c fun k => { k with drifts := if k.drifts &&& 7 = 0 then k.drifts else k.drifts - 1 }
  | none => s

/-- HOLD_CYCLES: the holds that follow the cycle of this basin count are inserted; nothing else advances (R5, R13). -/
def execHoldCycles (s : State) : Host.Outcome State Fault Refusal :=
  let due := s.drift.reqs.filter fun r => r.b ≤ s.basin
  let s := { s with drift := { s.drift with reqs := s.drift.reqs.filter fun r => !decide (r.b ≤ s.basin) } }
  .next (due.foldl State.holdDone s)

/-! ### Readiness (R395, R396) -/

/-- The ready bits with one of them set or cleared. -/
def Ready.put (r : Ready) (f : Func) (v : Bool) : Ready :=
  let b32 (n : Nat) (x : BitVec 32) : BitVec 32 :=
    if v then x ||| ((1 : BitVec 32) <<< n) else x &&& ~~~((1 : BitVec 32) <<< n)
  let b16 (n : Nat) (x : BitVec 16) : BitVec 16 :=
    if v then x ||| ((1 : BitVec 16) <<< n) else x &&& ~~~((1 : BitVec 16) <<< n)
  let b8 (n : Nat) (x : BitVec 8) : BitVec 8 :=
    if v then x ||| ((1 : BitVec 8) <<< n) else x &&& ~~~((1 : BitVec 8) <<< n)
  match f with
  | .link n => { r with link := b32 n r.link }
  | .fe n => { r with fe := b16 n r.fe }
  | .die n => { r with die := b8 n r.die }
  | .stack n => { r with stack := b8 n r.stack }
  | .hwa => { r with hwa := v }
  | .hwb => { r with hwb := v }
  | .eth => { r with eth := v }

/-- Whether the active Headwater complex runs. -/
def State.activeRuns (s : State) : Bool := if s.hw.activeB then s.ready.hwb else s.ready.hwa

/-- A ready bit changes; the active complex's heartbeat follows its bit (R354). -/
def State.setReady (s : State) (f : Func) (v : Bool) : State :=
  let s := { s with ready := s.ready.put f v }
  { s with hw := { s.hw with
      heartbeat := s.activeRuns, silentAt := if s.hw.heartbeat && !s.activeRuns then s.basin else s.hw.silentAt } }

/-- Fence every core of a die (R15, R396). -/
def State.fenceDie (s : State) (die : Nat) : State :=
  (List.range 512).foldl (fun s i => s.modCore (512 * die + i) fun k => { k with fenced := true }) s

/-- The core count that a partition reports: the cores of its dies that are not fenced (R15). -/
def State.coreCount (s : State) (p : Nat) : Nat :=
  let dies := ((List.range 8).filter fun d => s.partOfDie d == some p).length
  512 * dies - (s.cores.filter fun e => e.2.fenced && s.partOfDie (dieOf e.1) == some p).length

/-- FUNCTION_READY: a function sets its bit as soon as it is usable. A die's bit says that its stack's first scrub has
made every check word valid. -/
def State.functionReady (s : State) (f : Func) : State :=
  let s := s.setReady f true
  match f with
  | .die n => { s with mem := { s.mem with
      check := s.mem.check.filter fun e => e.1 / 2 ^ 30 != n
      lay := s.mem.lay.filter fun e => e.1 / 2 ^ 30 != n
      lostTags := s.mem.lostTags.filter fun k => k / 2 ^ 30 != n } }
  | _ => s

def execFunctionReady (f : Func) (s : State) : Host.Outcome State Fault Refusal :=
  if unitsOk (.functionReady f) then .next (s.functionReady f) else .fault .noSuchUnit

/-- Whether a route's words name outgoing link `link` of this module on their first hop, and so of the entry (R385). -/
def routeUses (w0 link : Nat) : Bool :=
  bitOf w0 63 && bitOf w0 62 && (List.range (bitsOf w0 60 2 + 1)).any fun k => bitsOf w0 (55 - 5 * k) 5 == link

/-- Headwater clears V of every route entry of partition `p` that uses a link (R385). -/
def State.dropRoutes (s : State) (link p : Nat) : State :=
  if !bitOf (s.partWord p 0) 63 then s
  else
    (List.range 4096).foldl
      (fun s i =>
        let a := s.partWord p 5 % 2 ^ 50 + 16 * i
        let w := s.iaWord p a
        if routeUses w link then (s.iaStore p a (bytesOf (w - 2 ^ 63) 8)).1 else s)
      s

/-- The routes of a link that is not ready lose V (R385). -/
def State.loseRoutes (s : State) (f : Func) : State :=
  match f with
  | .link n => (List.range 4).foldl (fun s p => s.dropRoutes n p) s
  | _ => s

/-- READY_BIT_FALL: a link's routes lose V, a die that fails its self-test has every core fenced; accesses to a stack
that has fallen are class X from now on (R396). -/
def State.readyFall (s : State) (f : Func) : State :=
  let s := (s.setReady f false).loseRoutes f
  match f with
  | .die n => s.fenceDie n
  | _ => s

def execReadyBitFall (f : Func) (s : State) : Host.Outcome State Fault Refusal :=
  if unitsOk (.readyBitFall f) then .next (s.readyFall f) else .fault .noSuchUnit

/-- LINK_LATENCY_LOSS: the link clears its ready bit (R357). -/
def execLinkLatencyLoss (link : Nat) (s : State) : Host.Outcome State Fault Refusal :=
  if unitsOk (.linkLatencyLoss link) then .next (s.readyFall (.link link)) else .fault .noSuchUnit

/-- DRIFT_LOCK: the count is loaded with the reference's value, LOCK and DRLOCK are set (R389, R395). -/
def execDriftLock (ref : Word) (s : State) : Host.Outcome State Fault Refusal :=
  .next { s with basin := ref.toNat, drift := { s.drift with lock := true }, ready := { s.ready with drlock := true } }

/-- LOCK_LOSS: the phase error is reported; at 0.5 cycle or more LOCK and DRLOCK clear (R390). -/
def execLockLoss (pherr : BitVec 16) (s : State) : Host.Outcome State Fault Refusal :=
  let s := { s with drift := { s.drift with pherr } }
  .next (if pherr.toInt.natAbs ≥ 128 then
      { s with drift := { s.drift with lock := false }, ready := { s.ready with drlock := false } }
    else s)

/-- MODULE_RESET: every register takes its reset value: fences, failed audit engines and the basin count are cleared
(R15, R310, R389). The stacks keep what they hold (log 2). -/
def execModuleReset (s : State) : Host.Outcome State Fault Refusal :=
  .next { State.reset with
    mem := { Mem.reset with hbm := s.mem.hbm, check := s.mem.check, lay := s.mem.lay, tags := s.mem.tags, lostTags := s.mem.lostTags }
    moduleId := s.moduleId, freeCount := s.freeCount }

/-! ### Islands (R397, R398) -/

/-- Whether a Timed domain uses island `n`: its cores' clusters, the slices and memory-side regions of its partition's
stacks, the network and control of its dies, its front end, the links of its leases, and the crossover where its leases
name links of both I/O dies (R12, R359). -/
def State.domUsesIsland (s : State) (d : Domain) (n : Nat) : Bool :=
  if n < 240 then
    let die := n / 30
    let k := n % 30
    let hasDie := d.cores.any fun c => dieOf c.1 == die
    if k < 16 then d.cores.any fun c => dieOf c.1 == die && c.1 / 32 % 16 == k
    else if k < 28 then (s.stacksOf d.part).contains die
    else hasDie || (s.stacksOf d.part).contains die
  else
    let j := (n - 240) / 8
    let onDie (i : Nat) : Bool := d.linkLeases.any fun w => bitsOf w.toNat 59 5 / 16 == i
    match (n - 240) % 8 with
    | 0 => d.fe / 8 == j
    | 7 => d.fe / 8 == j
    | 5 => j == 1 && onDie 0 && onDie 1
    | k => decide (1 ≤ k ∧ k ≤ 4) && d.linkLeases.any fun w => bitsOf w.toNat 59 5 / 4 == 4 * j + (k - 1)

/-- ISLn.TIMED: a Timed domain that uses the island is armed, live or frozen (R397). -/
def State.islandTimed (s : State) (n : Nat) : Bool :=
  s.doms.any fun e =>
    e.2.timed && (e.2.phase == .armed || e.2.phase == .running || e.2.phase == .frozen) && s.domUsesIsland e.2 n

/-- The functions whose ready bit an island's clock holds up (R397, R398). -/
def islandFuncs (n : Nat) : List Func :=
  if n < 240 then
    let k := n % 30
    if k < 24 then [] else if k < 28 then [.stack (n / 30)] else [.die (n / 30)]
  else
    let j := (n - 240) / 8
    match (n - 240) % 8 with
    | 0 => (List.range 8).map fun i => .fe (8 * j + i)
    | 5 => if j = 0 then [.eth] else []
    | 6 => if j = 0 then [.hwa] else [.hwb]
    | 7 => []
    | k => (List.range 4).map fun i => .link (16 * j + 4 * (k - 1) + i)

/-- FREQUENCY_REQUEST: refused on an island with Timed work or for a reserved code, which sets REF; a stopped clock
clears its function's ready bit (R398). -/
def State.frequency (s : State) (n : Nat) (freq : BitVec 4) : State :=
  let i := (sget s.islands n).getD ⟨false, 0⟩
  if s.islandTimed n || freq.toNat ≥ 5 then { s with islands := sinsert s.islands n { i with ref := true } }
  else
    let s := { s with islands := sinsert s.islands n { i with freq } }
    if freq = 4 then (islandFuncs n).foldl (fun s f => (s.setReady f false).loseRoutes f) s else s

def execFrequencyRequest (isl : Nat) (freq : BitVec 4) (s : State) : Host.Outcome State Fault Refusal :=
  if unitsOk (.frequencyRequest isl freq) then .next (s.frequency isl freq) else .fault .noSuchUnit

/-! ### Headwater (R354, R355) -/

/-- CRC-32 of a byte string: the one of IEEE 802.3, whose standard the port follows (PRESUMED, log 111). -/
def crc32Step (c : Nat) : Nat → Nat
  | 0 => c
  | n + 1 => crc32Step (if bitOf c 0 then c / 2 ^^^ 0xEDB88320 else c / 2) n

def crc32 (bs : List Byte) : Nat := (bs.foldl (fun c b => crc32Step (c ^^^ b.toNat) 8) 0xFFFFFFFF) ^^^ 0xFFFFFFFF

def tableWords (ws : List Word) : List Byte := ws.flatMap fun w => bytesOf w.toNat 8

/-- The phase of a domain in the state table: 0 armed, 1 running, 2 frozen, 3 evicted, 4 ended (log 111). -/
def Phase.code : Phase → Nat
  | .armed => 0
  | .running => 1
  | .frozen => 2
  | .evicted => 3
  | .ended => 4

/-- The body of a copy of the state table, its seven sections in order (R388). The layouts of the sections but the first, the
second and the fourth are the model's (DESIGN CHOICE, log 111). -/
def TableBody.bytes (b : TableBody) : List Byte :=
  let slot (n : Nat) : List Byte :=
    bytesOf (match b.slots.find? fun e => e.1 == n with
      | some e => 2 ^ 31 + e.2
      | none => 0) 4
  let island (n : Nat) : Byte := match sget b.islands n with
    | some i => BitVec.ofNat 8 (natOfBool i.ref * 64 + i.freq.toNat)
    | none => 0
  tableWords b.parts.flatten ++ (List.range 1024).flatMap slot ++
    tableWords (BitVec.ofNat 64 b.doms.length ::
      b.doms.flatMap fun d => [BitVec.ofNat 64 d.1, BitVec.ofNat 64 d.2.1.code, BitVec.ofNat 64 (d.2.2.getD 0)]) ++
    (List.range 512).map (fun i => BitVec.ofNat 8 (((List.range 8).filter fun j => b.fenced.contains (8 * i + j)).foldl (fun a j => a + 2 ^ j) 0)) ++
    tableWords (b.pins.flatMap fun d => BitVec.ofNat 64 d.2.length :: d.2.map (BitVec.ofNat 64)) ++
    tableWords (b.leases.flatMap fun d => BitVec.ofNat 64 d.2.length :: d.2) ++
    tableWords [BitVec.ofNat 64 (natOfBool b.mgDone * 2 ^ 63 + b.mgStatus.toNat)] ++ (List.range 256).map island

/-- A copy of the state table as it stands in Headwater's memory: the header of 64 bytes with FORMAT 1, VERSION, LENGTH and
CRC, and the body (R388). -/
def TableCopy.bytes (t : TableCopy) : List Byte :=
  let body := t.body.bytes
  tableWords [BitVec.ofNat 64 (2 ^ 48 + t.version.toNat), BitVec.ofNat 64 (64 + body.length), BitVec.ofNat 64 (crc32 body), 0, 0, 0, 0, 0] ++ body

/-- Cycles without a heartbeat after which the standby takes over: 100 µs (R354). -/
def silenceLimit : Nat := 160000

/-- Whether the standby complex takes over now: it runs, and the active one has shown no heartbeat for 100 µs (R354). -/
def State.takeoverDue (s : State) : Bool :=
  !s.hw.heartbeat && (if s.hw.activeB then s.ready.hwa else s.ready.hwb) && decide (s.hw.silentAt + silenceLimit ≤ s.basin)

/-- HEADWATER_TAKEOVER: without a heartbeat of the active complex, a running standby takes over. -/
def execHeadwaterTakeover (s : State) : Host.Outcome State Fault Refusal :=
  .next (if s.takeoverDue then { s with hw := { s.hw with activeB := !s.hw.activeB, heartbeat := true } } else s)

/-- LIVE_UPDATE: the first step boots the new image on the standby, which imports the state table or, by its FORMAT,
aborts; the next is the handover at the quiescent boundary. -/
def execLiveUpdate (format : Nat) (s : State) : Host.Outcome State Fault Refusal :=
  .next (if s.hw.updating then
      ({ s with hw := { s.hw with activeB := !s.hw.activeB, updating := false, heartbeat := true } }).tableWrite
    else if format = 1 then
      ({ s with hw := { s.hw with updating := true } }).schedule (s.basin + 1) (.op s.cur (.liveUpdate format))
    else s)

/-- BEIRQ: a BE interrupt of the core at hand, SUBCAUSE 0 (R125, R198). -/
def execBeirq (s : State) : Host.Outcome State Fault Refusal := .next (s.pendBe s.cur (s.beEv 0x14 0 15))

/-! ### Merge and split (R387, R402) -/

def setField (w lo len v : Nat) : Nat := w - bitsOf w lo len * 2 ^ lo + v % 2 ^ len * 2 ^ lo

/-- The partitions that hold a quarter of `q`. -/
def State.affected (s : State) (q : Nat) : List Nat :=
  (List.range 4).filter fun p => bitOf (s.partWord p 0) 63 && (bitsOf (s.partWord p 0) 56 4 &&& q) != 0

/-- The masks of a partition over the quarters of `q`: two stacks and dies and four front ends each (R14, R386). -/
def pairMask (q : Nat) : Nat := (List.range 4).foldl (fun m i => if bitOf q i then m + 3 * 4 ^ i else m) 0
def feMask (q : Nat) : Nat := (List.range 4).foldl (fun m i => if bitOf q i then m + 15 * 16 ^ i else m) 0

def quarters (q : Nat) : Nat := ((List.range 4).filter fun i => bitOf q i).length

/-- Word 0 of the table of a partition that holds the quarters of `q`, its other fields as in `w`. -/
def ownWord (w q : Nat) : Nat :=
  let size := if quarters q = 4 then 2 else if quarters q = 2 then 1 else 0
  let w := setField (setField w 63 1 1) 61 2 size
  let w := setField (setField w 56 4 q) 48 8 (pairMask q)
  setField (setField w 32 16 (feMask q)) 24 8 (pairMask q)

def lowQuarter (q : Nat) : Nat := ((List.range 4).find? fun i => bitOf q i).getD 0

def State.setPartWord (s : State) (p i v : Nat) : State :=
  s.modPart p fun t => { t with words := t.words.setIfInBounds i (BitVec.ofNat 64 v) }

/-- Give the quarters of `q` to one partition: its table, the boundary registers of its dies, and the cached walks, L2 lines
and residency registers of its dies and stacks (R387, steps 4 and 5). -/
def State.own (s : State) (q : Nat) : State :=
  let p := lowQuarter q
  let dies := pairMask q
  let s := s.setPartWord p 0 (ownWord (s.partWord p 0) q)
  let b := s.boundary
  let b := Vector.ofFn (fun (i : Fin 8) => if bitOf dies i.val = true then BitVec.ofNat 10 (0x300 + dies) else b[i])
  let s := { s with boundary := b }
  { s with mem := { s.mem with
      tlb := s.mem.tlb.filter fun t => !bitOf dies t.stack
      l2 := s.mem.l2.filter fun e => !bitOf dies (e.1 / 98304)
      res := s.mem.res.filter fun e => !bitOf dies (e.1 / 8) } }

/-- Whether a slot holds a queue of one of the partitions. -/
def State.ownsSlot (s : State) (ps : List Nat) (x : HwSlot) : Bool :=
  match x.queue with
  | some q => (s.partOfQueue q).any ps.contains
  | none => false

/-- Status of the checks that every request makes: 2 a domain that has not ended, 1 a slot that is not idle (R387). -/
def State.mergeCheck (s : State) (ps : List Nat) : Nat :=
  if s.doms.any (fun e => ps.contains e.2.part && e.2.phase != .ended) then 2
  else if s.io.slots.any (fun e => s.ownsSlot ps e.2 && !e.2.idle) then 1
  else 0

/-- Status of a merge: 3 alignment, 4 an update, then the checks. -/
def State.mergeStatus (s : State) (q : Nat) : Nat :=
  let ps := s.affected q
  let held := ps.foldl (fun m p => m ||| bitsOf (s.partWord p 0) 56 4) 0
  if !(q == 3 || q == 12 || q == 15) || ps.length != 2 || held != q then 3
  else if s.hw.updating then 4
  else s.mergeCheck ps

/-- Status of a split. -/
def State.splitStatus (s : State) (q : Nat) : Nat :=
  let ps := s.affected q
  if !(q == 3 || q == 12 || q == 15) || ps.length != 1 || !ps.all (fun p => bitsOf (s.partWord p 0) 56 4 == q) then 3
  else if s.hw.updating then 4
  else s.mergeCheck ps

/-- A request ends: MGSTAT, and the quiesce lifted (R387, step 7). -/
def State.mergeEnd (s : State) (status : Nat) : State :=
  { s with
    hw := { s.hw with mgDone := true, mgStatus := BitVec.ofNat 8 status }
    parts := s.parts.map fun t => { t with quiesced := false } }

/-- A memory-region entry passes from partition `o` to `p`. -/
def Region.repart (o p : Nat) (r : Region) : Region := if r.part = o then { r with part := p } else r

/-- MERGE. -/
def State.merge (s : State) (q : Nat) : State :=
  let st := s.mergeStatus q
  if st ≠ 0 then s.mergeEnd st
  else
    let p := lowQuarter q
    let o := ((s.affected q).find? (· != p)).getD p
    let pend := (s.part o).pending
    let s := s.own q
    let s := s.setPartWord o 0 (s.partWord o 0 % 2 ^ 63)
    let s := (s.modPart o fun t => { t with pending := [] }).modPart p fun t => { t with pending := t.pending ++ pend }
    let s := { s with io := { s.io with regions := s.io.regions.map fun (e : Nat × Region) => (e.1, Region.repart o p e.2) } }
    s.tableWrite.mergeEnd 0

def execMerge (qmask : BitVec 4) (s : State) : Host.Outcome State Fault Refusal := .next (s.merge qmask.toNat)

/-- SPLIT: a whole module parts into its halves, a half into its quarters; pending doorbells go with their queues. -/
def State.split (s : State) (q : Nat) : State :=
  let st := s.splitStatus q
  if st ≠ 0 then s.mergeEnd st
  else
    let lo := if q = 15 then 3 else if q = 3 then 1 else 4
    let hi := q - lo
    let p := lowQuarter lo
    let o := lowQuarter hi
    let pend := (s.part p).pending
    let s := (s.own lo).own hi
    let goes (x : Nat) : Bool := bitOf hi (x / 32768)
    let s := (s.modPart p fun t => { t with pending := pend.filter (fun x => !goes x) }).modPart o fun t =>
      { t with pending := pend.filter goes }
    s.tableWrite.mergeEnd 0

def execSplit (qmask : BitVec 4) (s : State) : Host.Outcome State Fault Refusal := .next (s.split qmask.toNat)

/-- A write of MGREQ: GO is ignored while a request runs; else DONE clears, the affected partitions are quiesced, and the
request follows; an OP of 2 or 3 ends with status 3 (R387, R402). -/
def State.mgreqWrite (s : State) (v : Nat) : State :=
  if !bitOf v 63 || !s.hw.mgDone then s
  else
    let q := v % 16
    let op := bitsOf v 4 2
    if op ≥ 2 then s.mergeEnd 3
    else
      let s := { s with hw := { s.hw with mgDone := false } }
      let s := (s.affected q).foldl (fun s p => s.modPart p fun t => { t with quiesced := true }) s
      s.schedule (s.basin + 1) (.op s.cur (if op = 0 then .merge (BitVec.ofNat 4 q) else .split (BitVec.ofNat 4 q)))

end Sys2Proof.Machine
end

