-- ==== Sys2Proof/Machine/Registers.lean ====
section
/-! DEFINITION. The registers that REGISTER_WRITE and the device region reach (R6, R244, R254, R386, R391 to R395, R397,
R402). -/

namespace Sys2Proof.Machine

/-- The writable bits of word `i` of a partition table (R386). -/
def partMask (i : Nat) : Word :=
  match i with
  | 0 => 0xFFFFFFFFFFFFFFFF
  | 6 => 0x00000001FFFFFFFF
  | 7 => 0x0003FFFFFFFFFFFF
  | i => if i < 6 then 0x0003FFFFFFFFFFFF else 0xF000000FFFFFC000

/-- The writable bits of the words of a residency register (R254). -/
def resMask (i : Nat) : Word := if i = 0 then 0xFF00FFFFFFFFF000 else 0x0000000FFFFFFFFF

/-- The error counters of a stack by class: C, M, H, X (R392). -/
def StackErr.get (e : StackErr) (cls : Nat) : Half :=
  match cls with
  | 0 => e.c
  | 1 => e.m
  | 2 => e.h
  | _ => e.x

def StackErr.put (e : StackErr) (cls : Nat) (v : Half) : StackErr :=
  match cls with
  | 0 => { e with c := v }
  | 1 => { e with m := v }
  | 2 => { e with h := v }
  | _ => { e with x := v }

def State.stackErr (s : State) (stack : Nat) : StackErr := (sget s.mem.err stack).getD ⟨0, 0, 0, 0, 0⟩

def State.auditDie (s : State) (die : Nat) : AuditDie := (sget s.audit die).getD default

/-- DRSTAT (R391). -/
def Drift.stat (d : Drift) : Word :=
  BitVec.ofNat 64 (d.holds.toNat * 2 ^ 32 + d.pherr.toNat * 2 ^ 16 + natOfBool d.lock * 8 + d.reqs.length)

/-- READY (R395). -/
def Ready.word (r : Ready) (i : Nat) : Word :=
  if i = 0 then BitVec.ofNat 64 (r.link.toNat * 2 ^ 32 + r.fe.toNat * 2 ^ 16 + r.die.toNat * 2 ^ 8 + r.stack.toNat)
  else BitVec.ofNat 64 (natOfBool r.drlock * 8 + natOfBool r.hwb * 4 + natOfBool r.hwa * 2 + natOfBool r.eth)

/-- A read of a register; a write-only one reads zero (R6). -/
def State.regRead (s : State) (t : RegTarget) : Word :=
  match t with
  | .csr n => (s.csrRead s.cur n.toNat).getD 0
  | .partTable p i => ((s.part p).words[i]?).getD 0
  | .boundary d => ((s.boundary[d]?).getD 0).setWidth 64
  | .drreqB => 0
  | .drreqN => 0
  | .drrej => if s.drift.rej then 1 else 0
  | .drstat => s.drift.stat
  | .ready i => s.ready.word i
  | .res d n i =>
    let r := (sget s.mem.res (8 * d + n)).getD ⟨0, 0⟩
    if i = 0 then r.w0 else r.w1
  | .ecc n cls => ((s.stackErr n).get cls).setWidth 64
  | .pageErr n i =>
    match sget s.mem.pageErr (256 * n + i) with
    | some e => BitVec.ofNat 64 (e.block % 2 ^ 17 * 2 ^ 47 + e.c.toNat * 2 ^ 31 + e.m.toNat * 2 ^ 15)
    | none => 0
  | .pgovf n => (s.stackErr n).pgovf.setWidth 64
  | .fec l unc => ((sget (if unc then s.io.fecunc else s.io.feccor) l).getD 0).setWidth 64
  | .nocerr d => ((sget s.io.nocerr d).getD 0).setWidth 64
  | .lost p => (s.part p).lost.setWidth 64
  | .audofs c => (s.core c).audofs.setWidth 64
  | .audskip c => (s.core c).audskip.setWidth 64
  | .auddone d => (s.auditDie d).done.setWidth 64
  | .audmis d => (s.auditDie d).mis.setWidth 64
  | .pcsel c n => (((s.core c).pcsel[n]?).getD 0).setWidth 64
  | .pc c n => (((s.core c).pc[n]?).getD 0).setWidth 64
  | .perfsnap c n => (((s.core c).perfsnap[n]?).getD 0).setWidth 64
  | .isl n =>
    let i := (sget s.islands n).getD ⟨false, 0⟩
    BitVec.ofNat 64 (natOfBool (s.islandTimed n) * 2 ^ 63 + natOfBool i.ref * 2 ^ 62 + i.freq.toNat)
  | .key _ _ _ => 0
  | .driften c => if (s.core c).cc.calctl.getLsbD 8 then 1 else 0
  | .mgreq => 0
  | .mgstat => BitVec.ofNat 64 (natOfBool s.hw.mgDone * 2 ^ 63 + s.hw.mgStatus.toNat)
  | .audcnt c => (s.core c).audcnt.setWidth 64
  | .audfail d => if (s.auditDie d).fail then 1 else 0
  | .wdc n st =>
    let x := (sget s.io.slots n).getD HwSlot.reset
    (if st = 1 then x.wdc1 else if st = 2 then x.wdc2 else x.wdc3).setWidth 64

/-- A write of a key register: word `i` of the 256 bits of key `which` (R296, R386). -/
def setKey (ks : Vector (BitVec 256) 2) (which i : Nat) (v : Word) : Vector (BitVec 256) 2 :=
  let old := (ks[which]?).getD 0
  let m : BitVec 256 := (0xFFFFFFFFFFFFFFFF : BitVec 256) <<< (64 * i)
  ks.setIfInBounds which ((old &&& ~~~m) ||| (v.setWidth 256 <<< (64 * i)))

/-- A quarantine that firmware applies by policy: a record of body 0x00, whose cause is not stated and is a free value
(R60; log 99), and the kill of every domain of the partition (R45). -/
def State.firmQuarantine (s : State) (p : Nat) : State :=
  let (s, x) := s.drawFree
  let e : Ev := { cause := x.setWidth 8, subcause := 0, engine := 10, slot := 15, pc := 0, faddr := 0, tcode := 0
                  issue := 0, tengine := 0, duesc := 0, body := 0, words := [] }
  let s := s.writeRecord p 0 none e 7 false
  let s := s.doms.foldl (fun s d => if d.2.part == p && d.2.phase != .ended then s.sendNotices d.2 5 e.cause 0 else s) s
  s.quarantine p

/-- A write of a register: read-only fields are ignored, W1C fields clear where 1 is written (R6). -/
def State.regWrite (s : State) (t : RegTarget) (v : Word) : State :=
  match t with
  | .csr n => if csrReadOnly n.toNat then s else s.csrWrite s.cur n.toNat v
  | .partTable p i =>
    let quar := i == 0 && v.getLsbD 60 && !bitOf (s.partWord p 0) 60
    let s := s.setPartWord p i (v &&& partMask i).toNat
    if quar then s.firmQuarantine p else s
  | .boundary d => { s with boundary := s.boundary.setIfInBounds d (v.setWidth 10) }
  | .drreqB => { s with drift := { s.drift with reqB := v } }
  | .drreqN => s.driftRequest s.drift.reqB.toNat (v.toNat % 256) none
  | .drrej => { s with drift := { s.drift with rej := s.drift.rej && !v.getLsbD 0 } }
  | .res d n i =>
    let r := (sget s.mem.res (8 * d + n)).getD ⟨0, 0⟩
    let x := v &&& resMask i
    let r' : Rng := if i = 0 then { r with w0 := x } else { r with w1 := x }
    let cnt := if i = 0 ∧ x.getLsbD 63 ∧ !r.w0.getLsbD 63 then
        s.mem.resCnt.filter fun e => !(e.1 / 8 / 48 == d && e.1 % 8 == n)
      else s.mem.resCnt
    { s with mem := { s.mem with res := sput ⟨0, 0⟩ s.mem.res (8 * d + n) r', resCnt := cnt } }
  | .ecc n cls => { s with mem := { s.mem with err := sinsert s.mem.err n ((s.stackErr n).put cls (v.setWidth 32)) } }
  | .pageErr n i =>
    let e : PageErr := ⟨bitsOf v.toNat 47 17, v.extractLsb' 31 16, v.extractLsb' 15 16⟩
    { s with mem := { s.mem with
        pageErr := if v = 0 then serase s.mem.pageErr (256 * n + i) else sinsert s.mem.pageErr (256 * n + i) e } }
  | .pgovf n => { s with mem := { s.mem with err := sinsert s.mem.err n { s.stackErr n with pgovf := v.setWidth 32 } } }
  | .fec l unc =>
    if unc then { s with io := { s.io with fecunc := sinsert s.io.fecunc l (v.setWidth 32) } }
    else { s with io := { s.io with feccor := sinsert s.io.feccor l (v.setWidth 32) } }
  | .nocerr d => { s with io := { s.io with nocerr := sinsert s.io.nocerr d (v.setWidth 32) } }
  | .lost p => s.modPart p fun t => { t with lost := v.setWidth 32 }
  | .audofs c => s.modCore c fun k => { k with audofs := v.setWidth 20 }
  | .audskip c => s.modCore c fun k => { k with audskip := v.setWidth 32 }
  | .auddone d => { s with audit := sinsert s.audit d { s.auditDie d with done := v.setWidth 32 } }
  | .audmis d => { s with audit := sinsert s.audit d { s.auditDie d with mis := v.setWidth 32 } }
  | .pcsel c n => s.modCore c fun k => { k with pcsel := k.pcsel.setIfInBounds n (v.setWidth 9) }
  | .pc c n => s.modCore c fun k => { k with pc := k.pc.setIfInBounds n (v.setWidth 48) }
  | .isl n =>
    let i := (sget s.islands n).getD ⟨false, 0⟩
    let s := if v.getLsbD 62 then { s with islands := sinsert s.islands n { i with ref := false } } else s
    s.frequency n (v.setWidth 4)
  | .key p which i => s.modPart p fun t => { t with keys := setKey t.keys which i v }
  | .driften c => s.modCc c fun k => { k with calctl := if v.getLsbD 0 then k.calctl ||| 0x100 else k.calctl &&& ~~~0x100 }
  | .mgreq => s.mgreqWrite v.toNat
  | .drstat => s
  | .ready _ => s
  | .perfsnap _ _ => s
  | .mgstat => s
  | .audcnt _ => s
  | .audfail _ => s
  | .wdc _ _ => s

/-- What a register holds of its RW and WO fields; a W1C field counts as 0, which leaves it (R6). -/
def State.regHeld (s : State) (t : RegTarget) : Word :=
  match t with
  | .drreqB => s.drift.reqB
  | .key p which i => (((s.part p).keys[which]?).getD 0).extractLsb' (64 * i) 64
  | .drrej => 0
  | .isl n => s.regRead (.isl n) &&& 0xF
  | t => s.regRead t

/-- A write of the bits of `mask` alone. -/
def State.regWritePart (s : State) (t : RegTarget) (mask v : Word) : State :=
  if mask = BitVec.allOnes 64 then s.regWrite t v else s.regWrite t ((s.regHeld t &&& ~~~mask) ||| (v &&& mask))

/-- REGISTER_WRITE: a CSR of the core at hand, or a device register. -/
def execRegisterWrite (r : RegTarget) (v : Word) (s : State) : Host.Outcome State Fault Refusal := .next (s.regWrite r v)

end Sys2Proof.Machine
end

