-- ==== Sys2Proof/Machine/ControlCore.lean ====
section
/-! DEFINITION. The control core (R181 to R187, R278): RV64I, M, Zicsr and the traps, loads, stores and atomics through
the first-level cache (R252), fences, WFI, MRET, ECALL and interrupt entry. -/

namespace Sys2Proof.Machine

/-! ### Retiring -/

/-- Retire an instruction with the next pc. -/
def Cc.retireTo (k : Cc) (pc : Word) : Cc := { k with pc, minstret := k.minstret + 1, state := .running }

/-- Retire an instruction of `len` bytes. -/
def State.ccRetire (s : State) (len : Nat) : State := s.modCc s.cur fun k => k.retireTo (k.pc + BitVec.ofNat 64 len)

/-- Write rd and retire. -/
def State.ccResult (s : State) (rd : BitVec 5) (v : Word) (len : Nat) : State :=
  s.modCc s.cur fun k => (k.setX rd v).retireTo (k.pc + BitVec.ofNat 64 len)

/-! ### CSR instructions (R184) -/

/-- The operand of a CSR instruction. -/
def Cc.csrOperand (k : Cc) (isImm : Bool) (src : BitVec 5) : Word := if isImm then src.setWidth 64 else k.xr src

/-- The value that a CSR instruction writes. -/
def csrNew (k : CsrKind) (old v : Word) : Word :=
  match k with
  | .rw => v
  | .rs => old ||| v
  | .rc => old &&& ~~~v

/-- A CSR instruction: illegal where there is no such CSR, the mode may not reach it, or a read-only one would be
written. -/
def State.csrInstr (s : State) (k : CsrKind) (isImm : Bool) (rd src : BitVec 5) (n len : Nat) : State :=
  let c := s.cur
  let cc := (s.core c).cc
  let writes := k == .rw || src != 0
  match s.csrRead c n with
  | none => s.ccIllegal
  | some old =>
    if !csrModeOk cc.mode n || (writes && csrReadOnly n) then s.ccIllegal
    else
      let v := csrNew k old (cc.csrOperand isImm src)
      let s := s.ccResult rd old len
      if writes then s.csrWrite c n v else s

/-! ### Instructions without a row of their own -/

/-- One instruction of RV64I, M or Zicsr. -/
def State.rvStep (s : State) (op : RvOp) (len : Nat) : State :=
  let k := (s.core s.cur).cc
  let ret := k.pc + BitVec.ofNat 64 len
  let jump (rd : BitVec 5) (pc : Word) : State := s.modCc s.cur fun k => (k.setX rd ret).retireTo pc
  match op with
  | .lui rd imm => s.ccResult rd imm len
  | .auipc rd imm => s.ccResult rd (k.pc + imm) len
  | .jal rd off => jump rd (k.pc + off)
  | .jalr rd rs1 off => jump rd ((k.xr rs1 + off) &&& ~~~1)
  | .branch c a b off => if rvCond c (k.xr a) (k.xr b) then jump 0 (k.pc + off) else s.ccRetire len
  | .alui op is32 rd rs1 imm => s.ccResult rd (rvAlu op is32 (k.xr rs1) imm) len
  | .alu op is32 rd rs1 rs2 => s.ccResult rd (rvAlu op is32 (k.xr rs1) (k.xr rs2)) len
  | .csr kind isImm rd src n => s.csrInstr kind isImm rd src n.toNat len
  | .ebreak => s.ccTrap 3 0 (s.ccEv 0x13 0)
  | .illegal w => s.ccIllegal w.toNat

/-- CONTROL_CORE_INSTRUCTION. -/
def execControlCoreInstruction (i : RvInstr) (s : State) : Host.Outcome State Fault Refusal :=
  .next (s.rvStep i.op (if i.c then 2 else 4))

/-! ### Fetch (R183) -/

/-- Two bytes of control-core code at a byte address: none where no region holds it, or where U mode meets a monitor
region. -/
def Engines.fetchHalf (k : Engines) (md : Mode) (pc : Nat) : Option (List Byte) :=
  match findRegion true pc 0 k.regions.toList with
  | none => none
  | some r =>
    let w := (k.regions[r]?).getD 0
    if regionMon w && md == .u then none else some (readBytes k.ispad (r * 0x2000 + (pc - regionBase w)) 2)

/-- The bytes of the instruction at the pc: two, or four. -/
def Core.fetchBytes (k : Core) : Option (List Byte) :=
  match k.eng.fetchHalf k.cc.mode k.cc.pc.toNat with
  | none => none
  | some lo =>
    if isCC32 ((lo.headD 0).toNat) then (k.eng.fetchHalf k.cc.mode (k.cc.pc.toNat + 2)).map (lo ++ ·) else some lo

/-! ### Places of an access (R182, R244) -/

/-- The mode under which a load or store runs: MPRV takes MPP's. -/
def Cc.accessMode (k : Cc) : Mode :=
  if k.mode == .m && k.mstatus.getLsbD 17 then (if k.mstatus.getLsbD 11 && k.mstatus.getLsbD 12 then .m else .u) else k.mode

/-- Where an access goes. -/
inductive CcPlace
  | mon (a : Nat)
  | device (ofs : Nat)
  | mem (ia : Nat)
deriving DecidableEq, Repr

/-- A trap that an access takes: its mcause and its event. -/
abbrev CcFault := Nat × Ev

/-- Alignment, the monitor data memory and the range registers (R182, R243). `dev` admits the device region. -/
def State.ccPlace (s : State) (va n : Nat) (rd wr dev : Bool) : Except CcFault CcPlace :=
  let c := s.cur
  let k := s.core c
  let md := k.cc.accessMode
  if va % n ≠ 0 then .error (if wr then 6 else 4, s.ccEv 0x13 0 va)
  else if md == .m && va + n ≤ 0x2000 then .ok (.mon va)
  else
    match s.translateFor (s.partOf c) k.rng (.cc (dev && md == .m && n ≥ 4)) va n rd wr with
    | .error sub => .error (if wr then 7 else 5, s.ccEv 0x05 sub va)
    | .ok ia => .ok (if iaRegion ia = 3 then .device (ia % 2 ^ 48) else .mem ia)

/-- The events of the memory side's translation of an access (R378, R396). -/
def State.ccXlatFault (s : State) (va ia : Nat) (wr : Bool) (x : Xlat) : Option CcFault :=
  (s.xlatEvent (s.ccEv 0x06 0 va) (s.partOf s.cur) va ia x).map fun e => (if wr then 15 else 13, e)

/-- Take an access's fault. A class X event kills the launch and is no trap; a Timed exhaustion of the shadow pool or
mixed-size overlap stalls the core at its instruction (R47). -/
def State.ccAccessTrap (s : State) (va : Nat) (f : CcFault) : State :=
  let c := s.cur
  let e := f.2
  if e.cause = 0x0E then s.raise c e
  else if s.timed c ∧ (e.cause = 0x0A ∨ e.cause = 0x0B) then
    (s.raise c e).modCc c fun k => { k with state := .stalled }
  else s.ccTrap f.1 va e

/-! ### The first-level cache (R252, R278) -/

/-- The mask of `n` bytes from byte `ofs` of a line. -/
def lineMask (ofs n : Nat) : BitVec 128 := BitVec.ofNat 128 (maskOf n * 2 ^ ofs)

/-- A line with the bytes of `mask` taken from `bytes`. -/
def mergeLine (old : BitVec 1024) (mask : BitVec 128) (bytes : List Byte) : BitVec 1024 :=
  BitVec.ofNat 1024 (bytesVal ((List.range 128).map fun i =>
    if mask.getLsbD i then bytes.getD i 0 else old.extractLsb' (8 * i) 8))

def State.l1Line (s : State) (c key : Nat) : L1Line := (sget (s.core c).cc.l1 key).getD { data := 0, valid := 0, dirty := 0 }

/-- Write a line's dirty bytes back to their home as one masked write and mark them clean. A page that no longer admits
the write takes none of them. -/
def State.writeBack (s : State) (c key : Nat) : State :=
  let k := s.core c
  match sget k.cc.l1 key with
  | none => s
  | some l =>
    if l.dirty = 0 then s
    else
      let p := s.partOf c
      let x := s.translateHome p (128 * key) false true
      let s := s.noteWalk p (128 * key)
      let stop := s.tagStop k.dom p (128 * key) 128 l.dirty.toNat x
      let s := match stop with
        | some i => s.reportFound k.dom c p ({ s.ccEv 0x0D 0 with pc := k.cc.pc }) 0 false [(⟨0, 128⟩, i)]
        | none => s.memWrite k.dom p (128 * key) (bytesOf l.data.toNat 128) l.dirty.toNat x
      let s := s.breakReservations (some c) p (128 * key) 128
      s.modCc c fun cc => { cc with l1 := sinsert cc.l1 key { l with dirty := 0 } }

/-- Write a line back and drop it. -/
def State.dropLine (s : State) (c key : Nat) : State :=
  (s.writeBack c key).modCc c fun cc => { cc with l1 := serase cc.l1 key }

/-- Write every dirty byte back and, with `drop`, invalidate every line. -/
def State.flushL1 (s : State) (c : Nat) (drop : Bool) : State :=
  let s := ((s.core c).cc.l1).foldl (fun s e => s.writeBack c e.1) s
  if drop then s.modCc c fun cc => { cc with l1 := [] } else s

/-- Keep a line. A set holds eight lines; the lowest of a full set makes room, and its dirty bytes perform at the home
slice with the other writes of the cycle (R252, R272; log 8). -/
def State.keepLine (s : State) (c key : Nat) (l : L1Line) : State :=
  let others := ((s.core c).cc.l1).filter fun e => e.1 % 640 == key % 640 && e.1 != key
  let s := if others.length ≥ 8 then
      { s with agenda := s.agenda ++ [.op c (.firstLevelEviction ((others.headD (key, l)).1))] } else s
  s.modCc c fun cc => { cc with l1 := sinsert cc.l1 key l }

/-- FIRST_LEVEL_EVICTION: a line may leave at any moment, its dirty bytes written back. -/
def execFirstLevelEviction (line : Nat) (s : State) : Host.Outcome State Fault Refusal := .next (s.dropLine s.cur line)

/-- Bytes of a fetched line that become valid: those of the pieces that reported nothing, and of the bytes accessed. -/
def fillMask (need : BitVec 128) (found : List (Piece × SectorInfo)) : BitVec 128 :=
  found.foldl
    (fun m f => if lineMask f.1.ofs f.1.len &&& need = 0 then m &&& ~~~lineMask f.1.ofs f.1.len else m) (BitVec.allOnes 128)

/-- The 64-bit words of a line whose every byte is in a mask. -/
def wholeWords (m : BitVec 128) : BitVec 16 :=
  BitVec.ofNat 16 ((List.range 16).foldl (fun a i => if bitsOf m.toNat (8 * i) 8 = 255 then a + 2 ^ i else a) 0)

/-- A load of `n` bytes of memory through the cache: their value, or the fault of the fetch. Where the bytes are an event
for the load, it has no effect (R48): none. Poison that the cache holds itself is SOURCE 11 (R299). -/
def State.l1Load (s : State) (va ia n : Nat) : Except CcFault (State × Option Nat) :=
  let c := s.cur
  let key := ia / 128
  let need := lineMask (ia % 128) n
  let l := s.l1Line c key
  if l.valid &&& need = need then
    if (List.range 16).any fun i => l.bad.getLsbD i && bitsOf need.toNat (8 * i) 8 != 0 then
      .ok (s.raise c ((s.ccEv 0x0D 0 va).poisoned 11 0), none)
    else .ok (s, some (bitsOf l.data.toNat (8 * (ia % 128)) (8 * n)))
  else
    let p := s.partOf c
    let x := s.translateHome p (128 * key) true false
    match s.ccXlatFault va ia false x with
    | some f => .error f
    | none =>
      let dom := (s.core c).dom
      let (s, r) := ((s.count c 7 1).noteWalk p (128 * key)).memRead dom p (128 * key) 128 x
      let fill := fillMask need r.found
      let fresh := fill &&& ~~~l.dirty
      let l' : L1Line :=
        { data := mergeLine l.data fresh r.bytes, valid := l.valid ||| fill, dirty := l.dirty, bad := l.bad &&& ~~~wholeWords fresh }
      let s := s.keepLine c key l'
      let mine := r.found.filter fun f => lineMask f.1.ofs f.1.len &&& need != 0
      .ok (s.reportFound dom c p (s.ccEv 0x0D 0 va) va false mine,
        if s.stopsAccess p mine then none else some (bitsOf l'.data.toNat (8 * (ia % 128)) (8 * n)))

/-- A store of `n` bytes into the cache, with its translation and shadow binding (R303, R304); to a page that is not
versioned it makes a replay unsafe (R54). -/
def State.l1Store (s : State) (va ia n v : Nat) : Except CcFault State :=
  let c := s.cur
  let p := s.partOf c
  let dom := (s.core c).dom
  let x := s.translateHome p ia false true
  match s.ccXlatFault va ia true x with
  | some f => .error f
  | none =>
    match s.bindForWrite dom p ia x with
    | .error sub =>
      .error (7, { s.ccEv 0x0B sub va with body := 9, words := s.shadowWords p va ia (dom.getD 0) sub })
    | .ok s =>
      let s := s.noteXlat dom x
      let key := ia / 128
      let m := lineMask (ia % 128) n
      let l := s.l1Line c key
      let bytes := List.replicate (ia % 128) 0 ++ bytesOf v n
      .ok (s.keepLine c key
        { data := mergeLine l.data m bytes, valid := l.valid ||| m, dirty := l.dirty ||| m, bad := l.bad &&& ~~~wholeWords m })

/-- A read and write of `n` bytes at the home slice (R182, R252): the line is written back and dropped first. With OVLDBG
a mixed-size overlap is refused, event 0x0A (R287). `f` gives the new value from the old. -/
def State.ccAtomic (s : State) (va ia n : Nat) (f : Nat → Nat) : Except CcFault (State × Option Nat) :=
  let c := s.cur
  let p := s.partOf c
  let dom := (s.core c).dom
  let x := s.translateHome p ia true true
  match s.ccXlatFault va ia true x with
  | some e => .error e
  | none =>
    match s.bindForWrite dom p ia x with
    | .error sub =>
      .error (7, { s.ccEv 0x0B sub va with body := 9, words := s.shadowWords p va ia (dom.getD 0) sub })
    | .ok s =>
      let s := s.dropLine c (ia / 128)
      let h := s.home p ia
      if (s.core c).cc.calctl.getLsbD 7 && !(s.strongClash h.1 h.2 n).isEmpty then .error (7, s.ccEv 0x0A 0 va)
      else
        let (s, old, found) := (s.noteWalk p ia).homeRmw true (some c) dom p ia n x f
        let stopped := s.stopsAccess p found
        .ok (s.reportFound dom c p (s.ccEv 0x0D 0 va) va false found, if stopped then none else some old)

/-! ### Loads, stores and atomics -/

/-- A device register's value; where nothing is known to stand at an offset, a free value (R244, log 4). -/
def State.deviceRead (s : State) (ofs : Nat) : State × Word :=
  match Config.deviceAt (ofs / 8 * 8) with
  | some t => (s, s.regRead t >>> (8 * (ofs % 8)))
  | none =>
    let (s, v) := s.drawFree
    (s, v.setWidth 64)

/-- A store of `n` bytes, 4 or 8, to a device register: the bits of the register that it does not write stay (R244). -/
def State.deviceWrite (s : State) (ofs n : Nat) (v : Word) : State :=
  match Config.deviceAt (ofs / 8 * 8) with
  | some t => s.regWritePart t (BitVec.ofNat 64 (maskOf (8 * n) * 2 ^ (8 * (ofs % 8)))) (v <<< (8 * (ofs % 8)))
  | none => s

/-- A load of the monitor data memory: its bytes, or where a word of them is poisoned the event of their consumption
(R299; SOURCE 11, for none stands for this memory: DESIGN CHOICE, log 105). -/
def State.monLoad (s : State) (va a n : Nat) : State × Option Nat :=
  let k := (s.core s.cur).cc
  if k.monBad.any fun w => decide (8 * w < a + n) && decide (a < 8 * w + 8) then
    (s.raise s.cur ((s.ccEv 0x0D 0 va).poisoned 11 0), none)
  else (s, some (readNat k.monMem a n))

/-- A store into the monitor data memory: a word written whole clears its poison. -/
def Cc.monStore (k : Cc) (a n v : Nat) : Cc :=
  { k with monMem := writeBytes k.monMem a (bytesOf v n), monBad := k.monBad.filter fun w => !(a ≤ 8 * w && 8 * w + 8 ≤ a + n) }

/-- Write rd with the value of a load, or leave it where the load had no effect, and retire. -/
def State.ccLoaded (s : State) (rd : BitVec 5) (v : Option Nat) (sz : Nat) (uns : Bool) (len : Nat) : State :=
  match v with
  | some v => s.ccResult rd (rvExtend v sz uns) len
  | none => s.ccRetire len

def State.ccLoad (s : State) (rd : BitVec 5) (va sz : Nat) (uns : Bool) (len : Nat) : State :=
  let n := 2 ^ sz
  match s.ccPlace va n true false true with
  | .error f => s.ccAccessTrap va f
  | .ok (.mon a) => (s.monLoad va a n).1.ccLoaded rd (s.monLoad va a n).2 sz uns len
  | .ok (.device o) =>
    let (s, v) := s.deviceRead o
    s.ccResult rd (rvExtend (v.toNat % 2 ^ (8 * n)) sz uns) len
  | .ok (.mem ia) =>
    match s.l1Load va ia n with
    | .error f => s.ccAccessTrap va f
    | .ok (s, v) => s.ccLoaded rd v sz uns len

def State.ccStore (s : State) (va sz : Nat) (v : Word) (len : Nat) : State :=
  let n := 2 ^ sz
  match s.ccPlace va n false true true with
  | .error f => s.ccAccessTrap va f
  | .ok (.mon a) =>
    (s.modCc s.cur fun k => k.monStore a n v.toNat).ccRetire len
  | .ok (.device o) => (s.deviceWrite o n v).ccRetire len
  | .ok (.mem ia) =>
    match s.l1Store va ia n (v.toNat % 2 ^ (8 * n)) with
    | .error f => s.ccAccessTrap va f
    | .ok s => s.ccRetire len

/-- An AMO; rd takes the old value. -/
def State.ccAmo (s : State) (op : RvAmo) (rd : BitVec 5) (va sz : Nat) (v : Word) (len : Nat) : State :=
  let n := 2 ^ sz
  match s.ccPlace va n true true false with
  | .error f => s.ccAccessTrap va f
  | .ok (.mon a) =>
    (match s.monLoad va a n with
     | (s, some old) =>
       (s.modCc s.cur fun k => k.monStore a n (rvAmoValue op n old v.toNat)).ccResult rd (rvExtend old sz false) len
     | (s, none) => s.ccRetire len)
  | .ok (.device _) => s.ccRetire len
  | .ok (.mem ia) =>
    match s.ccAtomic va ia n (fun m => rvAmoValue op n m v.toNat) with
    | .error f => s.ccAccessTrap va f
    | .ok (s, old) => s.ccLoaded rd old sz false len

/-- CC_LOAD_STORE. -/
def execCcLoadStore (m : RvMemInstr) (s : State) : Host.Outcome State Fault Refusal :=
  let k := (s.core s.cur).cc
  let len := if m.c then 2 else 4
  .next (match m.op with
    | .load rd rs1 off sz u => s.ccLoad rd (k.xr rs1 + off).toNat sz.toNat u len
    | .store rs1 rs2 off sz => s.ccStore (k.xr rs1 + off).toNat sz.toNat (k.xr rs2) len
    | .amo op rd rs1 rs2 sz => s.ccAmo op rd (k.xr rs1).toNat sz.toNat (k.xr rs2) len)

/-- LR: a read at the home slice that reserves its 128-byte line (R182). In the monitor memory, which no other agent
writes, the reservation names the line of its address above the memory lines. -/
def State.lrLoad (s : State) (rd : BitVec 5) (va sz : Nat) : State :=
  let c := s.cur
  let n := 2 ^ sz
  match s.ccPlace va n true false false with
  | .error f => s.ccAccessTrap va f
  | .ok (.mon a) =>
    (match s.monLoad va a n with
     | (s, some v) =>
       (s.ccResult rd (rvExtend v sz false) 4).modCc c fun k => { k with resv := some (2 ^ 48 + a / 128) }
     | (s, none) => s.ccRetire 4)
  | .ok (.device _) => s.ccRetire 4
  | .ok (.mem ia) =>
    let p := s.partOf c
    let dom := (s.core c).dom
    let x := s.translateHome p ia true false
    match s.ccXlatFault va ia false x with
    | some f => s.ccAccessTrap va f
    | none =>
      let s := s.dropLine c (ia / 128)
      let (s, r) := (s.noteWalk p ia).memRead dom p ia n x
      let s := s.reportFound dom c p (s.ccEv 0x0D 0 va) va false r.found
      if s.stopsAccess p r.found then s.ccRetire 4
      else
        (s.ccResult rd (rvExtend (bytesVal r.bytes) sz false) 4).modCc c fun k => { k with resv := some (ia / 128) }

def execLr (rd rs1 : BitVec 5) (sz : BitVec 2) (s : State) : Host.Outcome State Fault Refusal :=
  .next (s.lrLoad rd ((s.core s.cur).cc.xr rs1).toNat sz.toNat)

/-- SC: writes where the reservation of its line still holds, and rd is 0; else rd is 1. The reservation ends (R182). The
line's dirty bytes are written back and the line is dropped first in either case (R252). -/
def State.scStore (s : State) (rd : BitVec 5) (va sz : Nat) (v : Word) : State :=
  let c := s.cur
  let n := 2 ^ sz
  let drop (s : State) : State := s.modCc c fun k => { k with resv := none }
  match s.ccPlace va n false true false with
  | .error f => s.ccAccessTrap va f
  | .ok (.mon a) =>
    if (s.core c).cc.resv = some (2 ^ 48 + a / 128) then
      drop ((s.modCc c fun k => k.monStore a n v.toNat).ccResult rd 0 4)
    else drop (s.ccResult rd 1 4)
  | .ok (.device _) => drop (s.ccResult rd 1 4)
  | .ok (.mem ia) =>
    if (s.core c).cc.resv = some (ia / 128) then
      match s.ccAtomic va ia n (fun _ => v.toNat % 2 ^ (8 * n)) with
      | .error f => s.ccAccessTrap va f
      | .ok (s, some _) => drop (s.ccResult rd 0 4)
      | .ok (s, none) => drop (s.ccRetire 4)
    else drop ((s.dropLine c (ia / 128)).ccResult rd 1 4)

def execSc (rd rs1 rs2 : BitVec 5) (sz : BitVec 2) (s : State) : Host.Outcome State Fault Refusal :=
  let k := (s.core s.cur).cc
  .next (s.scStore rd (k.xr rs1).toNat sz.toNat (k.xr rs2))

/-! ### Fences, WFI, MRET, ECALL -/

/-- FENCE: the control core's own accesses are in program order already (R182). -/
def execCcFence (s : State) : Host.Outcome State Fault Refusal := .next (s.ccRetire 4)

/-- An overlay load of the core has been issued and is not complete. -/
def Engines.overlayPending (k : Engines) : Bool :=
  k.ceq.any (fun e => e.form == 0x12) || k.ce.active.any (fun a => a.entry.form == 0x12)

/-- FENCE.I waits for every overlay load that the core has issued (R182). -/
def execFenceI (s : State) : Host.Outcome State Fault Refusal :=
  .next (if (s.core s.cur).eng.overlayPending then s.modCc s.cur fun k => { k with state := .waitFenceI } else s.ccRetire 4)

/-- WFI (R184). -/
def execWfi (s : State) : Host.Outcome State Fault Refusal :=
  let k := (s.core s.cur).cc
  .next (if k.mode == .u && k.mstatus.getLsbD 21 then s.ccIllegal
    else if k.mip &&& k.mie != 0 then s.ccRetire 4
    else (s.ccRetire 4).modCc s.cur fun k => { k with state := .waitWfi })

/-- MRET: illegal in U mode; from frozen inspection it returns to the frozen state (R186). -/
def execMret (s : State) : Host.Outcome State Fault Refusal :=
  let k := (s.core s.cur).cc
  .next (match k.mode, k.inspect with
    | .u, _ => s.ccIllegal
    | .m, some (pc, md, st) =>
      (s.modCore s.cur Core.mretCore).modCc s.cur fun k => { k with pc, mode := md, state := st, inspect := none }
    | .m, none => (s.modCore s.cur Core.mretCore).modCc s.cur fun k => { k with minstret := k.minstret + 1 })

/-- ECALL: launch end with a7 = 0 in U mode, a0[15:0] the program status (R187); the pc stays, so that a trap taken while
the launch ends comes back to it. Any other is exception 8 or 11. -/
def execEcall (s : State) : Host.Outcome State Fault Refusal :=
  let k := (s.core s.cur).cc
  .next (match k.mode with
    | .u =>
      if k.xr 17 = 0 then s.modCc s.cur fun k => { k with state := .ending, pstat := (k.xr 10).setWidth 16 }
      else s.ccTrap 8 0 (s.ccEv 0x13 0)
    | .m => s.ccTrap 11 0 (s.ccEv 0x13 0))

/-! ### Interrupts (R185, R199) -/

/-- The interrupt number of a pending event: 16 for the bundle engine, 17 for a macro stop, 18 for frozen inspection,
which firmware raises. -/
def intNumber (e : Ev) : Nat := if e.engine = 1 then 16 else if e.engine = 10 then 18 else 17

/-- The rank of a pending event: its priority of R46; frozen inspection, which has none, comes last (log 89). -/
def pendPrio (e : Ev) : Nat := if e.engine = 10 then 20 else evPrio e.cause

/-- The pending events whose interrupt is enabled, in a state and mode that takes interrupts. At launch end a Timed BE
interrupt or TRAP is among them (R125). -/
def Core.interrupts (k : Core) : List (Ev × Nat × Word) :=
  let cc := k.cc
  let open_ : Bool := (cc.mode == .u || cc.mstatus.getLsbD 3) && cc.inspect.isNone &&
    (match cc.state with
     | .stopped => false
     | .finished => false
     | .stalled => false
     | _ => true)
  let late := match cc.state, cc.calctl.getLsbD 3, k.be.pend14 with
    | .ending, true, some (e, sc) => [(e, sc, (0 : Word))]
    | _, _, _ => []
  if open_ then (cc.pendMacro ++ late).filter fun x => cc.mie.getLsbD (intNumber x.1) else []

/-- The event taken first: by priority, then in order of arrival. -/
def firstPending : List (Ev × Nat × Word) → Option (Ev × Nat × Word)
  | [] => none
  | x :: xs =>
    match firstPending xs with
    | none => some x
    | some y => if pendPrio y.1 < pendPrio x.1 then some y else some x

/-- mip bits 16 to 18 as the events still pending give them. -/
def Core.refreshMip (k : Core) : Core :=
  let any16 := k.cc.pendMacro.any (fun x => intNumber x.1 == 16) || (k.cc.calctl.getLsbD 3 && k.be.pend14.isSome)
  let any17 := k.cc.pendMacro.any (fun x => intNumber x.1 == 17)
  let any18 := k.cc.pendMacro.any (fun x => intNumber x.1 == 18)
  let m := k.cc.mip &&& ~~~0x70000
  { k with cc := { k.cc with
      mip := m ||| (if any16 then 0x10000 else 0) ||| (if any17 then 0x20000 else 0) ||| (if any18 then 0x40000 else 0) } }

/-- Take one pending event as an interrupt: TCAUSE, FADDR, FCOORD and FSC are written together, FSC with the SC of its
detection (R125, R199). -/
def Core.takeInterrupt (k : Core) (x : Ev × Nat × Word) : Core :=
  let info : TrapInfo := { tcause := tcauseOf x.1, faddr := x.1.faddr, fcoord := x.2.2, fsc := BitVec.ofNat 64 x.2.1 }
  let fromList := k.cc.pendMacro.contains x
  let k := k.takeTrap (interruptCause (intNumber x.1)) 0 (some info)
  let k := if fromList then { k with cc := { k.cc with pendMacro := k.cc.pendMacro.erase x } }
    else { k with be := { k.be with pend14 := none } }
  k.refreshMip

/-- CC_INTERRUPT_ENTRY. -/
def execCcInterruptEntry (s : State) : Host.Outcome State Fault Refusal :=
  .next (match firstPending (s.core s.cur).interrupts with
    | some x => s.modCore s.cur fun k => k.takeInterrupt x
    | none => s)

end Sys2Proof.Machine
end

