-- ==== Sys2Proof/Machine/Block.lean ====
section
/-! DEFINITION. Operand blocks (R77, R215 to R231, R319 to R335): their fields, the part of the loop levels that a core
runs (R22, R23, R221, R222), and the bytes that each operand of a step reaches. -/

namespace Sys2Proof.Machine

/-! ### Fields -/

/-- An operand block: 64-bit words from its first byte. -/
abbrev Block := List Word

/-- Field `[lo + len − 1 : lo]` of word `i`. -/
def bf (b : Block) (i lo len : Nat) : Nat := bitsOf (b.getD i 0).toNat lo len

/-- A signed field. -/
def bs (b : Block) (i lo len : Nat) : Int := sext (bf b i lo len) len

/-- The common header (R77). -/
def blkLevels (b : Block) : Nat := bf b 0 20 4
def blkSeqr (b : Block) : Nat := bf b 0 16 4
def blkLen (b : Block) : Nat := bf b 0 8 8
def blkEcho (b : Block) : Nat := bf b 0 0 7

/-- The engine of a form's funct7 (R76). -/
def formEng (form : Nat) : Eng :=
  if form < 8 then .mx else if form < 0x10 then .px else if form < 0x18 then .ce else if form < 0x20 then .weir else .cx

/-- The engine codes of R58. -/
def engCode (e : Eng) : Nat :=
  match e with
  | .mx => 2
  | .px => 3
  | .ce => 4
  | .cx => 5
  | .weir => 6

/-- The place of an engine's writes in the order of R247. -/
def engRank (e : Eng) : Nat :=
  match e with
  | .ce => 0
  | .px => 1
  | .mx => 2
  | .cx => 3
  | .weir => 4

/-- The word at which a form's loop table begins. -/
def loopBase (form : Nat) : Nat := if form < 0x10 then 12 else 6

/-- The word at which its range list begins, and the entries of the list. -/
def rangeBase (form : Nat) (b : Block) : Nat :=
  match form with
  | 0x12 => 4
  | 0x18 => 10
  | 0x19 => 10
  | 0x20 => 6
  | _ => loopBase form + 2 * blkLevels b

def rangeCount (form : Nat) (b : Block) : Nat := if form = 0x12 then 1 else bf b 1 16 4 + 1

/-- The 57-bit address of a field as a 64-bit VA (R240). -/
def va57 (a : Nat) : Nat := wrapInt (sext a 57) 64

/-! ### The part of a core (R19, R22, R23) -/

/-- Rank, gang size, and die ordinal and local index with their counts (R197). -/
structure Geo where
  rank : Nat
  gsize : Nat
  dg : Nat
  cg : Nat
  d : Nat
  c : Nat
deriving DecidableEq, Repr

def Cc.geo (k : Cc) : Geo :=
  { rank := bitsOf k.rank.toNat 0 12, gsize := max 1 (bitsOf k.gsize.toNat 0 13), dg := bitsOf k.ggeo.toNat 28 4 + 1
    cg := bitsOf k.ggeo.toNat 16 9 + 1, d := bitsOf k.ggeo.toNat 12 3, c := bitsOf k.ggeo.toNat 0 9 }

/-- One loop level with the part of it that the core runs: its first index and the number of indices. -/
structure Level where
  lo : Nat
  n : Nat
  w0 : Nat
  w1 : Nat
deriving DecidableEq, Repr

/-- Part `p` of `P` of an extent (R23). -/
def extentPart (extent P p : Nat) : Nat × Nat := (p * extent / P, (p + 1) * extent / P - p * extent / P)

/-- The levels of a block, outermost first. -/
def levelsOf (g : Geo) (form : Nat) (b : Block) : List Level :=
  let ws := (List.range (blkLevels b)).map fun i => ((b.getD (loopBase form + 2 * i) 0).toNat, (b.getD (loopBase form + 2 * i + 1) 0).toNat)
  let kind (w : Nat × Nat) : Nat := bitsOf w.1 46 2
  let dies := ws.any fun w => kind w == 2
  ws.map fun w =>
    let e := bitsOf w.1 48 16
    let q := match kind w with
      | 1 => if dies then extentPart e g.cg g.c else extentPart e g.gsize g.rank
      | 2 => extentPart e g.dg g.d
      | _ => (0, e)
    { lo := q.1, n := q.2, w0 := w.1, w1 := w.2 }

/-- The level runs over k-blocks. -/
def Level.kred (l : Level) : Bool := bitOf l.w0 45

/-- Strides of R221. -/
def Level.sacc (l : Level) : Int := sext (bitsOf l.w0 40 5) 5
def Level.sa (l : Level) : Int := sext (bitsOf l.w0 20 20) 20
def Level.sb (l : Level) : Int := sext (bitsOf l.w0 0 20) 20
def Level.nbi (l : Level) : Int := sext (bitsOf l.w0 10 10) 10
def Level.kbi (l : Level) : Int := sext (bitsOf l.w0 0 10) 10
def Level.se (l : Level) : Int := sext (bitsOf l.w1 44 20) 20
def Level.sd (l : Level) : Int := sext (bitsOf l.w1 0 44) 44

/-- Strides of R319, in elements. -/
def Level.css (l : Level) : Int := sext (bitsOf l.w0 0 32) 32
def Level.csd (l : Level) : Int := sext (bitsOf l.w1 0 32) 32

/-- The number of steps of a list of levels. -/
def totalOf (ls : List Level) : Nat := ls.foldl (fun a l => a * l.n) 1

/-- The part-local indices of step `t` in odometer order, innermost level fastest (R222). -/
def iotas : List Level → Nat → List Nat
  | [], _ => []
  | l :: ls, t => (t / totalOf ls % max l.n 1) :: iotas ls (t % max (totalOf ls) 1)

/-- Σ index × stride, with absolute indices where `abs` holds. -/
def blkStride (f : Level → Int) (abs : Bool) (ls : List Level) (t : Nat) : Int :=
  (ls.zip (iotas ls t)).foldl (fun a x => a + (x.2 + (if abs then x.1.lo else 0) : Nat) * f x.1) 0

/-- The least and greatest Σ index × stride over every step. -/
def blkStrideRange (f : Level → Int) (abs : Bool) (ls : List Level) : Int × Int :=
  ls.foldl
    (fun a l =>
      let lo : Int := (if abs then l.lo else 0 : Nat)
      let x := lo * f l
      let y := (lo + (l.n : Int) - 1) * f l
      (a.1 + min x y, a.2 + max x y))
    (0, 0)

/-- A step is first (last) for its output block where every k-block level stands at the first (last) index (R222). -/
def isFirst (ls : List Level) (t : Nat) : Bool := (ls.zip (iotas ls t)).all fun x => !x.1.kred || x.2 == 0

def isLast (ls : List Level) (t : Nat) : Bool := (ls.zip (iotas ls t)).all fun x => !x.1.kred || x.2 + 1 == x.1.n

/-- The linear absolute index over the levels that `p` selects (R228). -/
def linIndex (p : Level → Bool) (ls : List Level) (t : Nat) : Nat :=
  (ls.zip (iotas ls t)).foldl (fun a x => if p x.1 then a * bitsOf x.1.w0 48 16 + (x.1.lo + x.2) else a) 0

/-! ### Areas: the bytes that an operand reaches -/

/-- The bytes `lo` to `hi` of a space (R223: 0 scratchpad, 1 accumulator, 2 memory), with the rotation of R218. -/
structure Area where
  space : Nat
  rd : Bool
  wr : Bool
  rot : Nat
  lo : Int
  hi : Int
deriving DecidableEq, Repr, Inhabited

/-- Join the areas of the same operand over the steps, with what any of them reads and writes; an operand that a step does
not use is `none`. -/
def joinArea (a b : Option Area) : Option Area :=
  match a, b with
  | none, y => y
  | x, none => x
  | some x, some y => some { x with rd := x.rd || y.rd, wr := x.wr || y.wr, lo := min x.lo y.lo, hi := max x.hi y.hi }

def joinAreas : List (Option Area) → List (Option Area) → List (Option Area)
  | [], ys => ys
  | xs, [] => xs
  | x :: xs, y :: ys => joinArea x y :: joinAreas xs ys

/-- An area of `n` bytes from `a`; none where it is empty. -/
def areaAt (space : Nat) (rd wr : Bool) (rot : Nat) (a : Int) (n : Nat) : Option Area :=
  if n = 0 then none else some { space, rd, wr, rot, lo := a, hi := a + n - 1 }

/-- A rotated area widened to whole banks (R223). -/
def Area.widen (a : Area) : Area :=
  if a.rot = 0 then a
  else { a with lo := a.lo / 65536 * 65536, hi := (a.hi / 65536 + (2 ^ a.rot : Nat) - 1) * 65536 + 65535 }

/-! ### The matrix forms (R216 to R222) -/

/-- Bits of an operand format: AFMT and BFMT codes 0 to 8 (R217). -/
def mxBits (f : Nat) : Nat :=
  match f with
  | 0 => 8
  | 1 => 8
  | 2 => 6
  | 3 => 6
  | 4 => 4
  | 5 => 8
  | 6 => 16
  | 7 => 16
  | _ => 2

/-- Bytes of a DFMT element; 0 for none. -/
def mxOutBytes (f : Nat) : Nat :=
  match f with
  | 0 => 0
  | 1 => 4
  | 2 => 2
  | 3 => 2
  | _ => 1

def mxAfmt (b : Block) : Nat := bf b 1 60 4
def mxBfmt (b : Block) : Nat := bf b 1 56 4
def mxDfmt (b : Block) : Nat := bf b 1 52 4
def mxRnd (b : Block) : Nat := bf b 1 49 3
def mxInit (b : Block) : Nat := bf b 1 47 2
def mxLmode (b : Block) : Nat := bf b 1 45 2
def mxLatch (b : Block) : Nat := bf b 1 43 2
def mxAct (b : Block) : Nat := bf b 1 40 3
def mxBias (b : Block) : Bool := bf b 1 39 1 == 1
def mxFscale (b : Block) : Bool := bf b 1 38 1 == 1
def mxDtag (b : Block) : Bool := bf b 1 37 1 == 1
def mxTagBase (b : Block) : Nat := bf b 1 20 16
def mxMask (b : Block) : Nat := bf b 1 14 2
def mxGscale (b : Block) : Nat := bf b 8 32 32
def mxEvaddr (b : Block) : Nat := bf b 8 12 20
def mxObase (b : Block) : Nat := bf b 8 0 4
def mxMV (b : Block) : Nat := bf b 9 58 5 + 1
def mxNV (b : Block) : Nat := bf b 9 52 6 + 1
def mxKlen (b : Block) : Nat := bf b 9 16 32

/-- Elements of a k-block (R217). -/
def mxKB (a b : Nat) : Nat :=
  if a ≥ 6 ∧ b ≥ 6 ∧ b ≤ 7 then 128 else if a = 5 then 256 else if a ≤ 1 ∨ b ≤ 1 then 256 else 512

/-- Whether a pair of formats is legal (R217). -/
def mxPairOk (form a b : Nat) : Bool :=
  (a ≤ 4 && (b ≤ 4 || (b == 8 && form == 1))) || (a == 5 && b == 5) || ((a == 6 || a == 7) && (b == 6 || b == 7))

/-- A scratchpad descriptor (R218). -/
structure Desc where
  rot : Nat
  base : Nat
  rpitch : Nat
  tpitch : Nat
  phased : Bool
  tagchk : Bool
  scaled : Bool
  sbase : Nat
  spitch : Nat
deriving DecidableEq, Repr

/-- The descriptor whose first word is `i`. -/
def descAt (b : Block) (i : Nat) : Desc :=
  { rot := bf b i 60 4, base := bf b i 40 20, rpitch := bf b i 24 16, tpitch := bf b i 4 20, phased := bf b i 3 1 == 1
    tagchk := bf b i 2 1 == 1, scaled := bf b i 1 1 == 1, sbase := bf b (i + 1) 44 20, spitch := bf b (i + 1) 28 16 }

def descA (b : Block) : Desc := descAt b 2
def descB (b : Block) : Desc := descAt b 4
def descV (b : Block) : Desc := descAt b 10

/-- The D descriptor (R219). -/
def dMem (b : Block) : Bool := bf b 6 63 1 == 1
def dBase (b : Block) : Nat := bf b 6 0 57
def dRot (b : Block) : Nat := bf b 7 60 4
def dPitch (b : Block) : Nat := bf b 7 36 24

/-- The input descriptor of MCONV (R227). -/
structure ConvDesc where
  rot : Nat
  ibase : Nat
  irpitch : Nat
  h : Nat
  w : Nat
  ch : Nat
  kh : Nat
  kw : Nat
  sh : Nat
  sw : Nat
  dh : Nat
  dw : Nat
  pt : Nat
  pl : Nat
  oh : Nat
  ow : Nat
deriving DecidableEq, Repr

def convOf (b : Block) : ConvDesc :=
  { rot := bf b 4 60 4, ibase := bf b 4 40 20, irpitch := bf b 4 24 16, h := bf b 4 12 12, w := bf b 4 0 12
    ch := bf b 5 52 12, kh := bf b 5 48 4 + 1, kw := bf b 5 44 4 + 1, sh := bf b 5 41 3 + 1, sw := bf b 5 38 3 + 1
    dh := bf b 5 35 3 + 1, dw := bf b 5 32 3 + 1, pt := bf b 5 28 4, pl := bf b 5 24 4, oh := bf b 5 12 12, ow := bf b 5 0 12 }

/-- Bytes of a tile row (R217): of a k-block, or of 64 elements for MATTN. -/
def rowBytes (n fmt : Nat) : Nat := n * mxBits fmt / 8

/-- The elements along a tile row of A and B. -/
def mxWidth (form : Nat) (b : Block) : Nat := if form = 3 then 64 else mxKB (mxAfmt b) (mxBfmt b)

/-- The address of row 0 of an operand's tile (R222). -/
def tileAddr (d : Desc) (f : Level → Int) (ls : List Level) (t : Nat) (par : Bool) : Int :=
  (d.base : Int) + blkStride f false ls t + (if d.phased && par then d.tpitch else 0 : Nat)

/-- SLOT of a step, before the check that it lies in 0 to 15. -/
def mxSlot (b : Block) (ls : List Level) (t : Nat) : Int := (mxObase b : Int) + blkStride Level.sacc false ls t

/-- D of a step. -/
def dAddr (b : Block) (ls : List Level) (t : Nat) : Int := (dBase b : Int) + blkStride Level.sd (dMem b) ls t

/-- The address of a step's epilogue vectors or mask. -/
def evAddr (b : Block) (ls : List Level) (t : Nat) : Int := (mxEvaddr b : Int) + blkStride Level.se false ls t

/-- The byte of the scale of the element at bit offset `o` from the operand's BASE (R218). -/
def scaleAddr (d : Desc) (bits blk : Nat) (o : Int) : Int :=
  let row := o / (8 * d.rpitch : Nat)
  let e := o % (8 * d.rpitch : Nat) / bits
  (d.sbase : Int) + row * d.spitch + e / blk

/-- Elements of a scale block of a format (R218). -/
def scaleBlk (fmt : Nat) : Nat := if fmt = 8 then 64 else 32

/-- The scale bytes that one tile row reaches, as the addresses of its ends and of the turn of its stored row. -/
def scaleEnds (d : Desc) (bits blk w : Nat) (o0 : Int) : List Int :=
  let o1 := o0 + (bits * (w - 1) : Nat)
  let p : Int := (8 * d.rpitch : Nat)
  let turn := if o0 / p = o1 / p then [] else [o1 / p * p - 1, o1 / p * p]
  (o0 :: o1 :: turn).map (scaleAddr d bits blk)

def leastInt : List Int → Option Int
  | [] => none
  | x :: xs => match leastInt xs with
    | none => some x
    | some y => some (min x y)

def greatestInt : List Int → Option Int
  | [] => none
  | x :: xs => match greatestInt xs with
    | none => some x
    | some y => some (max x y)

/-- The area from the least to the greatest address of a list. -/
def areaOver (space : Nat) (rd wr : Bool) (xs : List Int) : Option Area :=
  match leastInt xs, greatestInt xs with
  | some a, some z => some { space, rd, wr, rot := 0, lo := a, hi := z }
  | _, _ => none

/-- The areas of a tile of `rows` rows of `w` elements: its bytes and its scale bytes. -/
def tileAreas (d : Desc) (fmt w rows : Nat) (a : Int) : List (Option Area) :=
  let bits := mxBits fmt
  [areaAt 0 true false d.rot a ((rows - 1) * d.rpitch + rowBytes w fmt),
    if d.scaled then
      areaOver 0 true false ((List.range rows).flatMap fun r =>
        scaleEnds d bits (scaleBlk fmt) w (8 * (a - d.base + (r * d.rpitch : Nat))))
    else none]

/-- Whether the step writes D. -/
def mxWritesD (b : Block) (ls : List Level) (t : Nat) : Bool := isLast ls t && mxDfmt b != 0

/-- The output pixels of an MCONV step that exist (R227). -/
def convPixels (b : Block) (ls : List Level) (t : Nat) : List (Nat × Int) :=
  let cv := convOf b
  let nb := blkStride Level.nbi true ls t
  (List.range 64).filterMap fun (j : Nat) =>
    let p : Int := 64 * nb + (j : Nat)
    if p < (cv.oh * cv.ow : Nat) then some (j, p) else none

/-- The areas of D of a step. -/
def dAreas (form : Nat) (b : Block) (ls : List Level) (t : Nat) : Option Area :=
  if !mxWritesD b ls t then none
  else
    let d := dAddr b ls t
    let sz := mxOutBytes (mxDfmt b)
    let sp := if dMem b then 2 else 0
    if form = 2 then
      let ps := (convPixels b ls t).map fun x => d + x.2 * dPitch b
      match leastInt ps, greatestInt ps with
      | some lo, some hi => some { space := sp, rd := false, wr := true, rot := dRot b, lo, hi := hi + (mxMV b * sz : Nat) - 1 }
      | _, _ => none
    else areaAt sp false true (dRot b) d ((mxMV b - 1) * dPitch b + mxNV b * sz)

/-- The areas of one step of a matrix form, operand by operand in one order (R223). -/
def mxAreas (form : Nat) (b : Block) (ls : List Level) (t : Nat) : List (Option Area) :=
  let par := t % 2 == 1
  let w := mxWidth form b
  let A := descA b
  let B := descB b
  let V := descV b
  let a := if form = 2 && mxLmode b = 2 then [] else tileAreas A (mxAfmt b) w 32 (tileAddr A Level.sa ls t par)
  let bb := if form = 2 then
      let cv := convOf b
      [areaAt 0 true false cv.rot cv.ibase ((cv.h - 1) * cv.irpitch + cv.w * cv.ch * mxBits (mxBfmt b) / 8), none]
    else if form = 1 && mxLmode b = 2 then []
    else tileAreas B (mxBfmt b) w 64 (tileAddr B Level.sb ls t par)
  let v := if form = 3 then tileAreas V (mxBfmt b) 64 64 (tileAddr V Level.sb ls t par) else []
  let ev := evAddr b ls t
  let needS := mxWritesD b ls t && mxFscale b
  let needB := (mxWritesD b ls t && mxBias b) || (mxInit b == 2 && isFirst ls t)
  let e := if form = 3 then (if mxMask b = 2 then areaAt 0 true false 0 ev 256 else none)
    else areaAt 0 true false 0 (if needS then ev else ev + 256) ((if needS then 256 else 0) + (if needB then 256 else 0))
  let slot := mxSlot b ls t
  let reads := !isFirst ls t || (mxInit b == 1 && form != 3)
  let n := if form = 3 then 0x4000 else 0x2000
  let acc := areaAt 1 reads true 0 (slot * 0x2000) n
  [a, bb, v].flatten ++ [e, acc, dAreas form b ls t]

/-! ### The permute forms (R229 to R231) -/

def pxN (b : Block) : Nat := bf b 1 24 17
def pxKtype (b : Block) : Nat := bf b 1 57 5
def pxVB (b : Block) : Nat := 4 * bf b 1 55 2
def pxDesc (b : Block) : Bool := bf b 1 54 1 == 1
def pxComb (b : Block) : Nat := bf b 1 62 2
def pxEtype (b : Block) : Nat := bf b 1 57 5
def pxTmem (b : Block) : Bool := bf b 1 56 1 == 1
def pxOob (b : Block) : Bool := bf b 1 55 1 == 1
def pxRbu (b : Block) : Nat := bf b 1 48 7
def pxTpitch (b : Block) : Nat := bf b 3 32 32
def pxTrows (b : Block) : Nat := bf b 3 0 32

/-- Bytes of an element of an MSORT. -/
def pxEB (b : Block) : Nat := esize (pxKtype b) / 8 + pxVB b

/-- log2 of a number, rounded up. -/
def ceilLog2 (n : Nat) : Nat := if n ≤ 1 then 0 else (n - 1).log2 + 1

/-- Chunks of a pass, and the number P of the last pass (R230). -/
def sortR (b : Block) : Nat := (pxN b + 255) / 256
def sortP (b : Block) : Nat := ceilLog2 (sortR b)

/-- Steps of one position of the odometer. -/
def pxInner (form : Nat) (b : Block) : Nat :=
  if form = 8 then (sortP b + 1) * sortR b else (pxN b + 63) / 64

/-- The buffers of a step's position. -/
def pxAddr (b : Block) (i : Nat) (f : Level → Int) (ls : List Level) (t : Nat) : Int :=
  (bf b i 0 57 : Int) + blkStride f false ls t

def pxAreas (form : Nat) (b : Block) (ls : List Level) (t : Nat) : List (Option Area) :=
  let n := pxN b
  let p := sortP b
  let row := 64 * pxRbu b
  let table (rd wr : Bool) : Option Area :=
    if pxTrows b = 0 then none
    else areaAt (if pxTmem b then 2 else 0) rd wr 0 (pxAddr b 2 Level.sb ls t) ((pxTrows b - 1) * pxTpitch b + row)
  match form with
  | 8 =>
    let z := n * pxEB b
    [areaAt 0 true false 0 (pxAddr b 2 Level.sa ls t) z,
      if p ≥ 1 then areaAt 0 true true 0 (pxAddr b 3 Level.sb ls t) z else none,
      areaAt 0 (decide (p ≥ 2)) true 0 (pxAddr b 4 Level.sd ls t) z]
  | 9 =>
    [table true false, areaAt 0 true false 0 (pxAddr b 4 Level.sa ls t) (4 * n),
      areaAt 0 false true 0 (pxAddr b 5 Level.sd ls t) (n * row)]
  | _ =>
    [table (pxComb b != 0) true, areaAt 0 true false 0 (pxAddr b 4 Level.sa ls t) (4 * n),
      areaAt 0 true false 0 (pxAddr b 5 Level.sd ls t) (n * row)]

/-! ### The copy forms (R319 to R324) -/

/-- Bits of a copy format (R320). -/
def ceBits (f : Nat) : Nat :=
  match f with
  | 0 => 8
  | 1 => 32
  | 2 => 64
  | 3 => 512
  | 4 => 32
  | 5 => 16
  | 6 => 16
  | 7 => 8
  | 8 => 8
  | 9 => 6
  | 10 => 6
  | 11 => 4
  | 12 => 8
  | 13 => 4
  | _ => 32

def ceSfmt (b : Block) : Nat := bf b 1 60 4
def ceDfmt (b : Block) : Nat := bf b 1 56 4
def ceRnd (b : Block) : Nat := bf b 1 53 3
def ceScmode (b : Block) : Nat := bf b 1 51 2
def ceDtag (b : Block) : Bool := bf b 1 50 1 == 1
def ceTag (b : Block) : Nat := bf b 1 34 16

/-- A copy descriptor: SPACE, BASE, SCSP and SCBASE at words `i` and `i` + 1. -/
structure CopyDesc where
  space : Nat
  base : Nat
  scsp : Nat
  scbase : Nat
deriving DecidableEq, Repr

def copyDesc (b : Block) (i : Nat) : CopyDesc :=
  { space := bf b i 62 2, base := bf b i 0 57, scsp := bf b (i + 1) 62 2, scbase := bf b (i + 1) 0 57 }

def ceSrc (b : Block) : CopyDesc := copyDesc b 2
def ceDst (b : Block) : CopyDesc := copyDesc b 4

/-- Formats that take block scales. -/
def ceNarrow (f : Nat) : Bool := 7 ≤ f && f ≤ 11

/-- Whether source scales are read, and destination scales read or written (R321, R322). -/
def ceSrcScaled (form : Nat) (b : Block) : Bool := form == 0x10 && ceScmode b != 0 && ceNarrow (ceSfmt b)
def ceDstScaled (b : Block) : Bool := ceScmode b != 0 && ceNarrow (ceDfmt b)

/-- The place code of R223 of a copy space. -/
def copySpace (sp : Nat) : Nat := if sp = 1 then 2 else 0

/-- The bytes of elements `lo` to `hi` from a base. -/
def elemArea (space : Nat) (rd wr : Bool) (base bits : Nat) (lo hi : Int) : Option Area :=
  some { space, rd, wr, rot := 0, lo := (base : Int) + lo * bits / 8, hi := (base : Int) + ((hi + 1) * bits - 1) / 8 }

def ceAreas (form : Nat) (b : Block) (ls : List Level) : List (Option Area) :=
  let n := totalOf ls
  let src := ceSrc b
  let dst := ceDst b
  let s := blkStrideRange Level.css (src.space == 1) ls
  let d := blkStrideRange Level.csd (dst.space == 1) ls
  [if form = 0x10 then elemArea (copySpace src.space) true false src.base (ceBits (ceSfmt b)) s.1 s.2 else none,
    if ceSrcScaled form b then areaAt (copySpace src.scsp) true false 0 src.scbase ((n + 31) / 32) else none,
    if dst.space = 2 then none else elemArea (copySpace dst.space) false true dst.base (ceBits (ceDfmt b)) d.1 d.2,
    if ceDstScaled b then
      areaAt (copySpace dst.scsp) (ceScmode b == 1) (ceScmode b == 2) 0 dst.scbase ((n + 31) / 32)
    else none]

/-! ### MOVLY, Weir and collective forms (R328 to R335) -/

def ovRegion (b : Block) : Nat := bf b 1 60 4
def ovCount (b : Block) : Nat := bf b 1 56 4 + 1
def ovKind (b : Block) : Bool := bf b 1 55 1 == 1
def ovBase (b : Block) : Nat := bf b 1 0 32
def ovSrc (b : Block) : Nat := bf b 2 0 57

def wrEkind (b : Block) : Nat := bf b 1 61 3
def wrPred (b : Block) : Nat := bf b 1 57 4
def wrNeg (b : Block) : Bool := bf b 1 56 1 == 1
def wrBit (b : Block) : Nat := bf b 1 51 5
def wrSpad (b : Block) : Bool := bf b 1 50 1 == 1
def wrSmallest (b : Block) : Bool := bf b 1 49 1 == 1
def wrCin (b : Block) : Bool := bf b 1 48 1 == 1
def wrK (b : Block) : Nat := bf b 1 40 8 + 1
def wrBase (b : Block) : Nat := bf b 2 0 57
def wrRows (b : Block) : Nat := bf b 3 32 32
def wrCols (b : Block) : Nat := bf b 3 0 32
def wrPitch (b : Block) : Nat := bf b 4 0 48
def wrC1 (b : Block) : Nat := bf b 5 0 64
def wrC2 (b : Block) : Nat := bf b 6 0 64
def wrObase (b : Block) : Nat := bf b 7 0 57
def wrIbase (b : Block) : Nat := bf b 8 32 32
def wrOcap (b : Block) : Nat := bf b 8 0 32

/-- Bits of an EKIND (R329). -/
def wrBits (k : Nat) : Nat :=
  match k with
  | 0 => 32
  | 1 => 16
  | 2 => 16
  | 3 => 8
  | 4 => 8
  | 5 => 16
  | _ => 32

/-- Elements of a region. -/
def wrElems (b : Block) : Nat := wrRows b * wrCols b

/-- Address of element `j` of a region in index order. -/
def wrAddr (b : Block) (j : Nat) : Nat :=
  let c := max (wrCols b) 1
  wrBase b + (j / c) * (if wrRows b = 1 then 0 else wrPitch b) + j % c * (wrBits (wrEkind b) / 8)

def wrAreas (form : Nat) (b : Block) : List (Option Area) :=
  let sp := if wrSpad b then 0 else 2
  let n := wrElems b
  let size := wrBits (wrEkind b) / 8
  [if n = 0 then none else areaAt 2 true false 0 (wrBase b) (wrAddr b (n - 1) + size - wrBase b),
    areaAt sp (form == 0x19 && wrCin b) true 0 (wrObase b) (16 + 8 * (if form = 0x18 then wrOcap b else wrK b))]

def clOp (b : Block) : Nat := bf b 1 61 3
def clEtype (b : Block) : Nat := bf b 1 57 4
def clComb (b : Block) : Nat := bf b 1 55 2
def clPlan (b : Block) : Nat := bf b 1 43 12
def clNelem (b : Block) : Nat := bf b 4 0 32

/-- Bytes of an ETYPE; plans without a type count bytes (DESIGN CHOICE, log 15). -/
def clBytes (t : Nat) : Nat :=
  match t with
  | 1 => 4
  | 2 => 4
  | 3 => 2
  | 4 => 2
  | _ => 1

/-- The TYPE code of R70 of an ETYPE. -/
def clType (t : Nat) : Nat :=
  match t with
  | 1 => 2
  | 2 => 8
  | 3 => 9
  | _ => 10

/-- SPACE and BASE of SBUF (word 2) or DBUF (word 3). -/
def clBuf (b : Block) (fromD : Bool) : Bool × Nat := (bf b (if fromD then 3 else 2) 63 1 == 1, bf b (if fromD then 3 else 2) 0 57)

/-- The areas of a plan's steps. -/
def clAreas (b : Block) (st : PlanStep) : List (Option Area) :=
  let z := clBytes (clEtype b)
  let buf := clBuf b (st.fromD || st.recv)
  let a := areaAt (if buf.1 then 2 else 0) (!st.recv || st.combine) st.recv 0 ((buf.2 + z * st.ofs : Nat) : Int) (z * st.count)
  if st.recv then [none, none, if st.combine then none else a, if st.combine then a else none]
  else if st.fromD then [none, a] else [a]

end Sys2Proof.Machine
end

