-- ==== Sys2Proof/Machine/Issue.lean ====
section
/-! DEFINITION. The issue of a macro-instruction (R189): the checks of its block (R77, R224, R229, R324, R328, R329,
R335), its translations (R243), its range list (R223) and the entry it makes in its engine's queue (R21, R27, R188,
R208); and the twelve forms. -/

namespace Sys2Proof.Machine

/-! ### The checks of a block -/

/-- Whether bits `[lo + len − 1 : lo]` of word `i` are zero. -/
def bz (b : Block) (i lo len : Nat) : Bool := bf b i lo len == 0

/-- The header's rules (R77); `[63:24]` is zero in every form. -/
def headerOk (form : Nat) (b : Block) : Bool :=
  let seqLimit := match formEng form with
    | .cx => 15
    | .weir => 7
    | _ => 0
  blkLevels b ≤ 6 && blkSeqr b ≤ seqLimit && 1 ≤ blkLen b && blkLen b ≤ 32 && bz b 0 7 1 && blkEcho b == form

/-- BLEN of a block whose range list begins at word `i`. -/
def blenOk (form : Nat) (b : Block) : Bool :=
  if form = 0x12 then blkLen b == 1
  else blkLen b == (8 * rangeBase form b + 16 * rangeCount form b + 63) / 64

/-- The loop table: no reserved KIND, no more than one spatial level of a kind (R22, R221, R319). -/
def loopsOk (form : Nat) (b : Block) : Bool :=
  let ws := (List.range (blkLevels b)).map fun i => (loopBase form + 2 * i)
  let kinds := ws.map fun i => bf b i 46 2
  !kinds.contains 3 && decide ((kinds.filter (· == 1)).length ≤ 1) && decide ((kinds.filter (· == 2)).length ≤ 1) &&
    (if form < 8 then true
     else if form < 0x10 then ws.all fun i => bz b i 45 1
     else ws.all fun i => bz b i 32 14 && bz b (i + 1) 32 32)

/-- One entry of a range list (R223). -/
structure RangeEnt where
  space : Nat
  rd : Bool
  wr : Bool
  base : Nat
  len : Nat
deriving DecidableEq, Repr

def rangeEnt (b : Block) (i : Nat) : RangeEnt :=
  { space := bf b i 62 2, rd := bf b i 61 1 == 1, wr := bf b i 60 1 == 1, base := bf b i 0 57, len := bf b (i + 1) 0 64 }

def rangesOf (form : Nat) (b : Block) : List RangeEnt :=
  (List.range (rangeCount form b)).map fun k => rangeEnt b (rangeBase form b + 2 * k)

/-- The bytes of a space. -/
def spaceSize (sp : Nat) : Nat :=
  match sp with
  | 0 => 2 ^ 20
  | 1 => 2 ^ 17
  | _ => 2 ^ 57

def rangeListOk (form : Nat) (b : Block) : Bool :=
  (rangesOf form b).all (fun r => r.space ≤ 2 && 1 ≤ r.len && r.base + r.len ≤ spaceSize r.space) &&
    (List.range (rangeCount form b)).all fun k => bz b (rangeBase form b + 2 * k) 57 3

/-- A scratchpad descriptor of tile rows of `rb` bytes (R218); `used` is false where a latch stands in for it. -/
def descOk (b : Block) (i rb : Nat) (fmt : Nat) (used v : Bool) : Bool :=
  let d := descAt b i
  d.rot ≤ 4 && d.base % 64 == 0 && d.rpitch % 64 == 0 && (!used || rb ≤ d.rpitch) && d.tpitch % 64 == 0 && bz b i 0 1 &&
    (v || bz b (i + 1) 0 28) && (!d.phased || d.tpitch != 0) &&
    (!d.scaled || fmt ≤ 4 || fmt == 8) && (fmt != 8 || d.scaled) &&
    (!(d.phased && d.scaled) || (d.rpitch != 0 && d.tpitch % d.rpitch == 0))

/-- The input descriptor (R227). -/
def convOk (b : Block) : Bool :=
  let c := convOf b
  let bits := mxBits (mxBfmt b)
  c.rot ≤ 4 && c.ibase % 64 == 0 && 1 ≤ c.h && 1 ≤ c.w && 1 ≤ c.ch && c.ch * bits % 8 == 0 &&
    c.w * c.ch * bits ≤ 8 * c.irpitch && 1 ≤ c.oh && 1 ≤ c.ow && mxNV b == 64

/-- The D descriptor (R219). -/
def dOk (b : Block) : Bool :=
  let sz := mxOutBytes (mxDfmt b)
  bz b 6 57 6 && bz b 7 0 36 && dRot b ≤ 4 && (sz == 0 || dBase b % sz == 0) &&
    (if dMem b then dRot b == 0 && !mxDtag b else dBase b < 2 ^ 20)

/-- The fields of a matrix form (R216 to R220, R225 to R228). -/
def mxOk (form : Nat) (b : Block) (ls : List Level) : Bool :=
  let w := mxWidth form b
  let fa := mxAfmt b
  let fb := mxBfmt b
  let sl := blkStrideRange Level.sacc false ls
  let top : Int := if form = 3 then 14 else 15
  bz b 0 24 40 && mxPairOk form fa fb && mxDfmt b ≤ 6 && mxRnd b ≤ 4 && mxInit b ≤ 2 && mxLmode b ≤ 2 && mxAct b ≤ 3 &&
    bz b 1 36 1 && bz b 1 0 14 && (if form = 3 then mxMask b ≤ 2 else mxMask b == 0) &&
    bz b 8 4 8 && bz b 8 12 6 && bz b 9 63 1 && bz b 9 48 4 && bz b 9 0 16 && (form == 3 || mxKlen b == 0) &&
    descOk b 2 (rowBytes w fa) fa (!(form == 2 && mxLmode b == 2)) false &&
    (if form = 2 then convOk b else descOk b 4 (rowBytes w fb) fb (!(form == 1 && mxLmode b == 2)) false) &&
    (if form = 3 then descOk b 10 (rowBytes 64 fb) fb true true else b.getD 10 0 == 0 && b.getD 11 0 == 0) && dOk b &&
    (totalOf ls == 0 || (decide (0 ≤ (mxObase b : Int) + sl.1) && decide ((mxObase b : Int) + sl.2 ≤ top))) &&
    (form != 3 ||
      (((fa ≤ 1 && fb ≤ 1) || (fa == 6 || fa == 7) && (fb == 6 || fb == 7)) && !(descA b).scaled && !(descB b).scaled &&
        !(descV b).scaled && mxLmode b == 0 && mxInit b == 0 && !mxBias b && !mxFscale b && mxDfmt b != 0))

/-- Words 6 to 11 of a permute block are zero, and word `i` holds a scratchpad address alone. -/
def pxSpad (b : Block) (i : Nat) : Bool := bz b i 20 44

def pxTail (b : Block) (i : Nat) : Bool := (List.range (12 - i)).all fun k => b.getD (i + k) 0 == 0

/-- Two areas share no byte. -/
def disjointAreas (x y : Option Area) : Bool :=
  match x, y with
  | some a, some c => a.hi < c.lo || c.hi < a.lo
  | _, _ => true

/-- The three buffers of every position of an MSORT are pairwise disjoint (R229). -/
def sortDisjoint (b : Block) (ls : List Level) : Bool :=
  let z := pxN b * pxEB b
  (List.range (totalOf ls)).all fun t =>
    let i := areaAt 0 true true 0 (pxAddr b 2 Level.sa ls t) z
    let m := areaAt 0 true true 0 (pxAddr b 3 Level.sb ls t) z
    let o := areaAt 0 true true 0 (pxAddr b 4 Level.sd ls t) z
    disjointAreas i m && disjointAreas i o && disjointAreas m o

/-- The fields of a permute form (R229). -/
def pxOk (form : Nat) (b : Block) (ls : List Level) : Bool :=
  let n := pxN b
  let table := (pxTmem b || pxSpad b 2) && bz b 2 57 7 && pxTpitch b % 64 == 0 && 1 ≤ pxRbu b && pxRbu b ≤ 64 && pxSpad b 4 &&
    pxSpad b 5 && pxTail b 6 && bz b 1 41 7
  bz b 0 24 40 && 1 ≤ n && n ≤ 65536 && bz b 1 20 4 && bz b 1 0 16 &&
    (match form with
     | 8 =>
       let k := pxKtype b
       bz b 1 62 2 && bz b 1 41 13 && ((1 ≤ k && k ≤ 3) || (5 ≤ k && k ≤ 10)) && bf b 1 55 2 != 3 && pxSpad b 2 && pxSpad b 3 &&
         pxSpad b 4 && pxTail b 5 && n * pxEB b ≤ 2 ^ 18 && sortDisjoint b ls
     | 9 => table && bz b 1 57 7
     | _ =>
       table && !pxOob b && pxComb b ≤ 2 &&
         (if pxComb b = 0 then pxEtype b == 0 else pxEtype b == 2 || pxEtype b == 8 || pxEtype b == 9 || pxEtype b == 10))

/-- A copy descriptor. -/
def copyDescOk (b : Block) (i : Nat) (dst : Bool) : Bool :=
  let d := copyDesc b i
  d.space ≤ (if dst then 2 else 1) && bz b i 57 5 && bz b (i + 1) 57 5 && d.scsp ≤ 1 && (d.space != 0 || d.base < 2 ^ 20) &&
    (d.scsp != 0 || d.scbase < 2 ^ 20)

/-- The fields of MCOPY and MFILL (R319 to R324). -/
def ceOk (form : Nat) (b : Block) (ls : List Level) : Bool :=
  let sf := ceSfmt b
  let df := ceDfmt b
  let s := blkStrideRange Level.css ((ceSrc b).space == 1) ls
  let d := blkStrideRange Level.csd ((ceDst b).space == 1) ls
  let any := totalOf ls != 0
  bz b 0 24 40 && bz b 1 20 14 && bz b 1 0 16 && sf ≤ 14 && df ≤ 14 && ceRnd b ≤ 4 && ceScmode b ≤ 2 &&
    (ceScmode b != 2 || ceNarrow df) && ((3 < sf && 3 < df) || (sf == df && ceScmode b == 0)) &&
    (form == 0x10 || (sf == df && ceScmode b == 0)) &&
    (if form = 0x10 then copyDescOk b 2 false else b.getD 3 0 == 0) && copyDescOk b 4 true &&
    (!ceDtag b || (ceDst b).space == 0) && (!any || decide (0 ≤ d.1) && (form == 0x11 || decide (0 ≤ s.1))) &&
    ((ceDst b).space != 2 || (sf == 1 && df == 1 && ceScmode b == 0 && (!any || decide (d.2 ≤ 255))))

/-- The fields of MOVLY (R328). -/
def ovOk (b : Block) : Bool :=
  bz b 0 24 40 && blkLevels b == 0 && bz b 1 32 23 && ovRegion b + ovCount b ≤ 14 && (!ovKind b || ovBase b % 64 == 0) &&
    bz b 2 57 7 && ovSrc b % 64 == 0 && b.getD 3 0 == 0 && b.getD 6 0 == 0 && b.getD 7 0 == 0

/-- The fields of MSEL and MTOPK (R329, R330). PITCH is ignored for one row alone. -/
def wrOk (form : Nat) (b : Block) : Bool :=
  let bits := wrBits (wrEkind b)
  let n := wrElems b
  bz b 0 24 40 && blkLevels b == 0 && wrEkind b ≤ 6 && wrPred b ≤ 9 && (wrPred b != 7 || wrBit b < bits) && bz b 1 20 20 &&
    bz b 1 0 16 && bz b 2 57 7 && wrBase b % (bits / 8) == 0 && n ≤ 2 ^ 32 && bz b 4 48 16 &&
    (wrRows b == 1 || (wrPitch b % (bits / 8) == 0 && wrCols b * (bits / 8) ≤ wrPitch b)) &&
    wrC1 b < 2 ^ bits && wrC2 b < 2 ^ bits && bz b 7 57 7 && wrObase b % 16 == 0 && (!wrSpad b || wrObase b < 2 ^ 20) &&
    b.getD 9 0 == 0 && wrIbase b + n ≤ 2 ^ 32 &&
    (if form = 0x18 then !wrSmallest b && !wrCin b && wrK b == 1 else wrOcap b == 0)

/-- The fields of MCOLL and its agreement with the plan (R335, R338, R385). -/
def State.clOk (s : State) (c : Nat) (b : Block) : Bool :=
  let p := s.partOf c
  let typed := clOp b ≤ 1
  bz b 0 24 40 && blkLevels b == 0 && clOp b ≤ 4 && clEtype b ≤ 4 && clComb b ≤ 2 && bz b 1 20 23 && bz b 1 0 16 &&
    bz b 2 57 6 && bz b 3 57 6 && bz b 4 32 32 && b.getD 5 0 == 0 &&
    (if typed then clEtype b != 0 else clEtype b == 0 && clComb b == 0) &&
    (match s.plan p (clPlan b) c with
     | none => false
     | some (h, steps) =>
       bitsOf h 61 3 == clOp b && bitsOf h 57 4 == clEtype b && bitsOf h 32 24 == clNelem b &&
         (s.timed c || steps.all fun st => !(s.route p st.route).bylor))

/-- Every rule of R224 and its fellows that a block can break, the range list's match apart. -/
def State.blockOk (s : State) (c form : Nat) (b : Block) (ls : List Level) : Bool :=
  blenOk form b && loopsOk form b && rangeListOk form b && decide (totalOf ls < 2 ^ 32) &&
    (match formEng form with
     | .mx => mxOk form b ls
     | .px => pxOk form b ls
     | .ce => if form = 0x12 then ovOk b else ceOk form b ls
     | .weir => wrOk form b
     | .cx => s.clOk c b)

/-! ### Spans (R223) -/

/-- Areas joined over the steps `0` to `n − 1`. -/
def joinSteps (f : Nat → List (Option Area)) (n : Nat) : List Area :=
  ((List.range n).foldl (fun a t => joinAreas a (f t)) []).filterMap id

/-- Every area of an entry, each joined over its steps. -/
def State.areasOf (s : State) (c form : Nat) (b : Block) (ls : List Level) : List Area :=
  let n := totalOf ls
  match formEng form with
  | .mx => joinSteps (mxAreas form b ls) n
  | .px => joinSteps (pxAreas form b ls) n
  | .ce =>
    if form = 0x12 then (areaAt 2 true false 0 (ovSrc b) (8192 * ovCount b)).toList
    else if n = 0 then [] else (ceAreas form b ls).filterMap id
  | .weir => (wrAreas form b).filterMap id
  | .cx =>
    match s.plan (s.partOf c) (clPlan b) c with
    | none => []
    | some (_, steps) => joinSteps (fun t => clAreas b (steps.getD t default)) steps.length

/-- Whether a span lies in one range entry of its space with its accesses, and within its space (R223, R224). -/
def areaListed (rs : List RangeEnt) (a : Area) : Bool :=
  let a := a.widen
  0 ≤ a.lo && a.hi < spaceSize a.space &&
    rs.any fun r => r.space == a.space && (r.rd || !a.rd) && (r.wr || !a.wr) && (r.base : Int) ≤ a.lo && a.hi < (r.base : Int) + r.len

/-- The first error of translating the bytes `lo` to `hi`, looked at in each 64 KiB block, as SUBCAUSE and address. -/
def State.spanFault (s : State) (p : Nat) (rng : Vector Rng 16) (a : Asker) (lo hi : Nat) (rd wr : Bool) : Option (Nat × Nat) :=
  ((List.range (hi / 65536 - lo / 65536 + 1)).filterMap fun k =>
    let at_ := max lo ((lo / 65536 + k) * 65536)
    match s.translateFor p rng a (va57 (at_ % 2 ^ 57)) 1 rd wr with
    | .ok _ => none
    | .error sub => some (sub, at_)).head?

/-- The first granule of the bytes `lo` to `hi` behind the boundary of core `c`'s die, SUBCAUSE 2 (R386): eight consecutive
ones lie on every stack of the partition (R245). -/
def State.spanBehind (s : State) (c : Nat) (a : Asker) (lo hi : Nat) (rd wr : Bool) : Option (Nat × Nat) :=
  ((List.range (min 8 (hi / 4096 - lo / 4096 + 1))).filterMap fun k =>
    let at_ := max lo ((lo / 4096 + k) * 4096)
    match s.translateFor (s.partOf c) (s.core c).rng a (va57 (at_ % 2 ^ 57)) 1 rd wr with
    | .ok ia => if s.reaches c (s.partOf c) ia then none else some (2, at_)
    | .error _ => none).head?

/-- The regions that an entry's memory operands may name: a copy in Elastic reaches the remote region too (R324). -/
def State.formAsker (s : State) (c form : Nat) : Asker :=
  if (form = 0x10 ∨ form = 0x11) ∧ !s.timed c then .engine else .plain

/-- The range fault of a memory operand: it does not translate, or a boundary register shuts it out. -/
def State.areaFault (s : State) (c form : Nat) (a : Area) : Option (Nat × Nat) :=
  if a.space ≠ 2 then none
  else if a.lo < 0 ∨ a.hi ≥ 2 ^ 57 then some (1, 0)
  else
    (s.spanFault (s.partOf c) (s.core c).rng (s.formAsker c form) a.lo.toNat a.hi.toNat a.rd a.wr).or
      (s.spanBehind c (s.formAsker c form) a.lo.toNat a.hi.toNat a.rd a.wr)

/-- The first memory operand that does not translate. -/
def State.areasFault (s : State) (c form : Nat) (as : List Area) : Option (Nat × Nat) := (as.filterMap (s.areaFault c form)).head?

/-! ### Queues and counters -/

def Engines.queue (k : Engines) (e : Eng) : List QEntry :=
  match e with
  | .mx => k.mxq
  | .px => k.pxq
  | .ce => k.ceq
  | .cx => k.cxq
  | .weir => k.weirq

def Engines.setQueue (k : Engines) (e : Eng) (q : List QEntry) : Engines :=
  match e with
  | .mx => { k with mxq := q }
  | .px => { k with pxq := q }
  | .ce => { k with ceq := q }
  | .cx => { k with cxq := q }
  | .weir => { k with weirq := q }

/-- The next issue number of an engine: it skips zero (R188). -/
def nextIssue (n : Half) : Half := if n + 1 = 0 then 1 else n + 1

def Cc.issueNo (k : Cc) (e : Eng) : Half := (k.cnt[engCode e - 2]?).getD 0

/-- The range-scoreboard entries that an entry takes: its range list, and the codebook table for a GLC2 operand or a
codebook load (R175, R208). -/
def scoreEntries (form : Nat) (b : Block) (issue : Half) (accept : Nat) : List SbEntry :=
  let e := engCode (formEng form)
  let glc := form == 1 && mxBfmt b == 8
  let load := formEng form == .ce && form != 0x12 && (ceDst b).space == 2
  ((rangesOf form b).map fun r => { eng := e, issue, space := r.space, rd := r.rd, wr := r.wr, base := r.base, len := r.len, accept })
    ++ (if glc || load then [{ eng := e, issue, space := 3, rd := glc, wr := load, base := 0, len := 1024, accept }] else [])

/-- A Timed issue on a shared sequencer needs a lease of it for the core (R21, R384). -/
def State.leasedSeqr (s : State) (c : Nat) (e : Eng) (unit idx : Nat) : Bool :=
  match s.domOf c with
  | none => false
  | some d => d.seqLeases.any fun w =>
      let w := w.toNat
      bitOf w 63 == (e == .weir) && bitsOf w 60 3 == unit && bitsOf w 56 4 == idx && bitsOf w 0 12 == c

/-- The unit of an entry's sequencer: the core's die for CX, the home unit of the region for Weir (R312). -/
def State.seqUnit (s : State) (c form : Nat) (b : Block) (rng : Vector Rng 16) : Nat :=
  match formEng form with
  | .cx => dieOf c
  | .weir =>
    match s.translateFor (s.partOf c) rng .plain (va57 (wrBase b)) 1 true false with
    | .ok ia => (s.home (s.partOf c) ia).1
    | .error _ => (s.home (s.partOf c) 0).1
  | _ => 0

/-! ### Issue (R189) -/

/-- An issue fault: exception 24 in Elastic; in Timed the response of R46, and the instruction has no effect. The record
names the number the entry would have had. -/
def State.issueFault (s : State) (e : Nat) (issue : Half) (cause sub faddr duesc : Nat) : State :=
  let c := s.cur
  let ev := { s.ccEv cause sub faddr e with issue, duesc := BitVec.ofNat 64 duesc }
  if s.timed c then (s.raise c ev).ccRetire 4 else s.ccTrap 24 0 ev

/-- What stops the read of a block: the fault of its load, or an event that names the load, with the state after it. -/
inductive BlockStop
  | fault (f : CcFault)
  | event (s : State)

/-- One doubleword of a block, read as a control-core load. -/
def State.blockWord (s : State) (va : Nat) : Except BlockStop (State × Word) :=
  let give (x : State × Option Nat) : Except BlockStop (State × Word) :=
    match x.2 with
    | some v => .ok (x.1, BitVec.ofNat 64 v)
    | none => .error (.event x.1)
  match s.ccPlace va 8 true false false with
  | .error f => .error (.fault f)
  | .ok (.mon a) => give (s.monLoad va a 8)
  | .ok (.device _) => .ok (s, 0)
  | .ok (.mem ia) =>
    match s.l1Load va ia 8 with
    | .error f => .error (.fault f)
    | .ok x => give x

/-- `n` doublewords of a block. -/
def State.blockWords (s : State) (va : Nat) : Nat → Except BlockStop (State × List Word)
  | 0 => .ok (s, [])
  | n + 1 =>
    match s.blockWord va with
    | .error f => .error f
    | .ok (s, w) =>
      match s.blockWords ((va + 8) % 2 ^ 64) n with
      | .error f => .error f
      | .ok (s, ws) => .ok (s, w :: ws)

/-- Where the issue of an entry stands. -/
inductive Issued
  /-- it made its entry: the issue number -/
  | accepted (s : State) (m : Half)
  /-- the queue or the scoreboard is full: the control core waits -/
  | waits (s : State)
  /-- it ended in a trap or a fault -/
  | ended (s : State)

/-- The acceptance of a checked block: lease, free entry, scoreboard and start SC (R21, R27, R189, R208). -/
def State.accept (s : State) (form : Nat) (b : Block) (start : Word) : Issued :=
  let c := s.cur
  let k := s.core c
  let e := formEng form
  let code := engCode e
  let sc := s.sc c
  let m := nextIssue (k.cc.issueNo e)
  let timed := s.timed c
  let fault (sub : Nat) : Issued := .ended (s.issueFault code m 0x08 sub 0 start.toNat)
  let unit := s.seqUnit c form b k.rng
  let q := k.eng.queue e
  let sb := scoreEntries form b m sc
  if timed && (e == .cx || e == .weir) && !s.leasedSeqr c e unit (blkSeqr b) then fault 5
  else if q.length ≥ 8 then .waits s
  else if k.eng.sboard.length + sb.length > 32 then (if timed then fault 3 else .waits s)
  else if timed && sc + 64 > start.toNat then fault 1
  else if timed && start.toNat > sc + 2 ^ 31 then fault 2
  else
    let ent : QEntry :=
      { form, block := b, rng := k.rng, start, issue := m, seqr := blkSeqr b, headAt := s.basin }
    .accepted
      (s.modCore c fun k =>
        { k with
          eng := { k.eng.setQueue e (k.eng.queue e ++ [ent]) with sboard := k.eng.sboard ++ sb }
          cc := { k.cc with cnt := k.cc.cnt.setIfInBounds (code - 2) m } }) m

/-- The checks of a block that has been read, and its acceptance. -/
def State.issueBlock (s : State) (form : Nat) (b : Block) (start : Word) : Issued :=
  let c := s.cur
  let code := engCode (formEng form)
  let m := nextIssue ((s.core c).cc.issueNo (formEng form))
  let fault (cause sub fa : Nat) : Issued := .ended (s.issueFault code m cause sub fa 0)
  let ls := levelsOf (s.core c).cc.geo form b
  if !s.blockOk c form b ls then fault 0x07 0 0
  else
    let as := s.areasOf c form b ls
    match s.areasFault c form as with
    | some (sub, fa) => fault 0x05 sub fa
    | none => if as.all (areaListed (rangesOf form b)) then s.accept form b start else fault 0x07 0 0

/-- A fault of a block load: a range fault is an issue fault, any other is the load's own. A load that an event names has
no effect, and nothing is issued (R48). -/
def State.blockFault (s : State) (form va : Nat) (f : BlockStop) : Issued :=
  match f with
  | .event s => .ended (s.ccRetire 4)
  | .fault f =>
    let m := nextIssue ((s.core s.cur).cc.issueNo (formEng form))
    .ended (if f.2.cause = 0x05 then s.issueFault (engCode (formEng form)) m 0x05 f.2.subcause.toNat f.2.faddr.toNat 0
      else s.ccAccessTrap va f)

/-- The issue of the block at `va` with start SC `start` (R189). -/
def State.issue (s : State) (form : Nat) (va : Nat) (start : Word) : Issued :=
  let code := engCode (formEng form)
  let m := nextIssue ((s.core s.cur).cc.issueNo (formEng form))
  if va % 64 ≠ 0 then .ended (s.issueFault code m 0x07 0 va 0)
  else
    match s.blockWord va with
    | .error f => s.blockFault form va f
    | .ok (s, h) =>
      if !headerOk form [h] then .ended (s.issueFault code m 0x07 0 va 0)
      else
        match s.blockWords va (8 * blkLen [h]) with
        | .error f => s.blockFault form va f
        | .ok (s, b) => s.issueBlock form b start

/-- A macro-instruction: rd takes the issue number. In frozen inspection it is illegal (R186). While the queue or the
scoreboard is full the instruction is tried again, block read included, so that the copy is that of its acceptance (R189
does not say which; DESIGN CHOICE, log 98). -/
def State.macroIssue (s : State) (form : Nat) (o : FR3) : State :=
  let k := (s.core s.cur).cc
  if k.inspect.isSome then s.ccIllegal
  else
    match s.issue form (k.xr o.rs1).toNat (k.xr o.rs2) with
    | .accepted s m => s.ccResult o.rd (m.setWidth 64) 4
    | .waits s => s
    | .ended s => s

def execMmat (o : FR3) (s : State) : Host.Outcome State Fault Refusal := .next (s.macroIssue 0x01 o)

def execMconv (o : FR3) (s : State) : Host.Outcome State Fault Refusal := .next (s.macroIssue 0x02 o)

def execMattn (o : FR3) (s : State) : Host.Outcome State Fault Refusal := .next (s.macroIssue 0x03 o)

def execMsort (o : FR3) (s : State) : Host.Outcome State Fault Refusal := .next (s.macroIssue 0x08 o)

def execMgath (o : FR3) (s : State) : Host.Outcome State Fault Refusal := .next (s.macroIssue 0x09 o)

def execMscat (o : FR3) (s : State) : Host.Outcome State Fault Refusal := .next (s.macroIssue 0x0A o)

def execMcopy (o : FR3) (s : State) : Host.Outcome State Fault Refusal := .next (s.macroIssue 0x10 o)

def execMfill (o : FR3) (s : State) : Host.Outcome State Fault Refusal := .next (s.macroIssue 0x11 o)

def execMovly (o : FR3) (s : State) : Host.Outcome State Fault Refusal := .next (s.macroIssue 0x12 o)

def execMsel (o : FR3) (s : State) : Host.Outcome State Fault Refusal := .next (s.macroIssue 0x18 o)

def execMtopk (o : FR3) (s : State) : Host.Outcome State Fault Refusal := .next (s.macroIssue 0x19 o)

def execMcoll (o : FR3) (s : State) : Host.Outcome State Fault Refusal := .next (s.macroIssue 0x20 o)

end Sys2Proof.Machine
end

