-- ==== Sys2Proof/Machine/Extension.lean ====
section
/-! DEFINITION. The extension instructions that issue no macro-instruction of their own form: bundle-engine start (R118,
R190), the waits (R191), progress and range registers (R192, R193), release and acquire (R194), overlay load (R195) and
drift (R196). -/

namespace Sys2Proof.Machine

/-! ### Sequencers -/

/-- The key of a shared sequencer in State. -/
def seqrKey (q : Seqr) : Nat :=
  match q.eng with
  | .weir => 128 + q.unit * 8 + q.idx
  | _ => q.unit * 16 + q.idx

/-- The sequencer of a key. -/
def seqrOfKey (k : Nat) : Seqr := if k < 128 then ⟨.cx, k / 16, k % 16⟩ else ⟨.weir, (k - 128) / 8, (k - 128) % 8⟩

/-- A sequencer's state; MX, PX and CE are those of core `c`. -/
def State.seq (s : State) (c : Nat) (q : Seqr) : SeqState :=
  match q.eng with
  | .mx => (s.core c).eng.mx
  | .px => (s.core c).eng.px
  | .ce => (s.core c).eng.ce
  | .cx => (sget s.seqs (seqrKey q)).getD SeqState.reset
  | .weir => (sget s.seqs (seqrKey q)).getD SeqState.reset

def State.setSeq (s : State) (c : Nat) (q : Seqr) (x : SeqState) : State :=
  match q.eng with
  | .mx => s.modEng c fun k => { k with mx := x }
  | .px => s.modEng c fun k => { k with px := x }
  | .ce => s.modEng c fun k => { k with ce := x }
  | .cx => { s with seqs := sinsert s.seqs (seqrKey q) x }
  | .weir => { s with seqs := sinsert s.seqs (seqrKey q) x }

def State.modSeq (s : State) (c : Nat) (q : Seqr) (f : SeqState → SeqState) : State := s.setSeq c q (f (s.seq c q))

/-- The core whose entry a sequencer runs. -/
def State.seqCore (s : State) (q : Seqr) : Nat :=
  match q.eng with
  | .cx => (s.seq s.cur q).core
  | .weir => (s.seq s.cur q).core
  | _ => s.cur

/-- The shared sequencers of an engine kind that hold an entry of core `c`, or held its last one. -/
def State.sharedSeqs (s : State) (c : Nat) (e : Eng) : List (Nat × SeqState) :=
  s.seqs.filter fun x => (seqrOfKey x.1).eng == e && x.2.core == c

/-- The entries of core `c` that an engine runs or holds stopped. -/
def State.activeOf (s : State) (c : Nat) (e : Eng) : List ActiveEntry :=
  match e with
  | .mx => (s.core c).eng.mx.active
  | .px => (s.core c).eng.px.active
  | .ce => (s.core c).eng.ce.active
  | e => (s.sharedSeqs c e).flatMap fun x => x.2.active

/-- The issue numbers of core `c`'s entries of an engine that are not complete. -/
def State.openIssues (s : State) (c : Nat) (e : Eng) : List Half :=
  (s.activeOf c e).map (·.entry.issue) ++ ((s.core c).eng.queue e).map (·.issue)

/-- Whether issue number `n` is `m` or earlier (R188). -/
def issueLe (n m : Half) : Bool := diff32 m.toNat n.toNat < 2 ^ 31

/-- The engine of a code from 2 to 6 (R78). -/
def engOf (code : Nat) : Eng :=
  match code with
  | 2 => .mx
  | 3 => .px
  | 4 => .ce
  | 5 => .cx
  | _ => .weir

/-! ### Bundle-engine start (R190) -/

/-- Three queue entries from bundle address `a` (R118). -/
def Be.fill (b : Be) (a : Half) : Be :=
  let e0 : NpqEntry := ⟨a, false, activeEnds b.loops a⟩
  let (a1, l1) := seqNext a b.loops
  let e1 : NpqEntry := ⟨a1, false, activeEnds l1 a1⟩
  let (a2, l2) := seqNext a1 l1
  { b with loops := l2, npq := #v[e0, e1, ⟨a2, false, activeEnds l2 a2⟩] }

/-- A start that a Timed engine cannot take: code 0x08 with the target engine BE, and the instruction ends (R27, R190). -/
def State.startFault (s : State) (sub : Nat) (start : Word) : State :=
  let c := s.cur
  let ev := { s.ccEv 0x08 sub 0 1 with duesc := start }
  (s.raise c ev).ccRetire 4

/-- The start form. While the bundle engine is not idle the control core waits. -/
def State.beStart (s : State) (target start : Word) : State :=
  let c := s.cur
  let k := s.core c
  let sc := s.sc c
  if k.cc.inspect.isSome || target.toNat ≥ 2 ^ 32 then s.ccIllegal
  else if !k.be.isIdle then s
  else if s.timed c && decide (sc + 64 > start.toNat) then s.startFault 1 start
  else if s.timed c && decide (start.toNat > sc + 2 ^ 31) then s.startFault 2 start
  else (s.modBe c fun b => { b.fill (target.setWidth 32) with micro := none, state := .awaiting start.toNat }).ccRetire 4

def execCalBestart (rs1 rs2 : BitVec 5) (s : State) : Host.Outcome State Fault Refusal :=
  let k := (s.core s.cur).cc
  .next (s.beStart (k.xr rs1) (k.xr rs2))

/-- The micro-sequence that MSTEP describes: the pending operations of its bundle, decoded again (R159, R160). Where no
region holds that bundle, no micro-step runs and MSTEP is cleared (DESIGN CHOICE, log 96). -/
def Core.resumeMicro (k : Core) : Option Micro :=
  let w := k.be.mstep
  if !w.getLsbD 63 then none
  else
    let pc : Half := w.setWidth 32
    let slots : BitVec 3 := w.extractLsb' 36 3
    let ops := match k.eng.bundleAt pc with
      | none => []
      | some v => (legalOps v).filter fun i => match i with
        | .p5dot4 f => slots.getLsbD ((VSlot.toSlot f.sl).rank - 2)
        | .p5hmul f => slots.getLsbD ((VSlot.toSlot f.sl).rank - 2)
        | _ => false
    some { slots, index := bitsOf w.toNat 32 4, pc, ops, resumed := true }

/-- The resume form: the queue comes back from epc0 to epc2, and from the start SC on a stopped micro-sequence runs first
(R128, R160, R190). -/
def State.beResume (s : State) (start : Word) : State :=
  let c := s.cur
  let k := s.core c
  if k.cc.inspect.isSome || k.cc.mode == .u || s.timed c then s.ccIllegal
  else if !k.be.isIdle then s
  else
    (s.modBe c fun b =>
      { b with npq := b.epc.map npqOf, micro := k.resumeMicro, halted := false, state := .awaiting start.toNat }).ccRetire 4

def execCalBestartResume (rs1 rs2 : BitVec 5) (s : State) : Host.Outcome State Fault Refusal :=
  let k := (s.core s.cur).cc
  .next (if (k.xr rs1).toNat = 2 ^ 63 then s.beResume (k.xr rs2) else s.ccIllegal)

/-! ### Waits (R191) -/

/-- Whether m counts as issued (R188). -/
def Cc.issued (k : Cc) (e : Eng) (m : Half) : Bool := diff32 (k.issueNo e).toNat m.toNat < 2 ^ 31

/-- Whether the engine wait for code `e` and number `m` may end. -/
def State.engDone (s : State) (c e : Nat) (m : Half) : Bool :=
  if e = 1 then (s.core c).be.isIdle
  else
    let xs := s.openIssues c (engOf e)
    if m = 0 then xs.isEmpty else !xs.any fun n => issueLe n m

/-- Whether two byte ranges share a byte. -/
def overlaps (a n b m : Nat) : Bool := decide (a < b + m) && decide (b < a + n)

/-- The dirty lines of the first-level cache that a range of virtual addresses may hold. -/
def State.pushRange (s : State) (c base len : Nat) : State :=
  let k := s.core c
  k.cc.l1.foldl
    (fun s e =>
      if e.2.dirty ≠ 0 ∧ (List.range 128).any (fun i =>
          e.2.dirty.getLsbD i && k.rng.toList.any (fun r =>
            let o := 128 * e.1 + i
            r.v && decide (r.iabase * 65536 ≤ o) && decide (o < (r.iabase + r.len + 1) * 65536) &&
              overlaps (r.vbase * 65536 + (o - r.iabase * 65536)) 1 base len))
      then s.writeBack c e.1 else s)
    s

/-- Whether the range wait that began at SC `sc` may end: no memory-slot write issued before it is outstanding in the
range, and no incomplete entry reads or writes it. -/
def State.rngDone (s : State) (c base len sc : Nat) : Bool :=
  let k := s.core c
  !s.mem.reqs.any (fun r => r.core == c && r.dom == k.dom && r.engine == 1 && r.kind != .load && decide (r.issue < sc) &&
      overlaps (r.va % 2 ^ 57) r.bytes base len) &&
    !k.eng.sboard.any fun e => e.space == 2 && overlaps e.base e.len base len

/-- Whether every memory-slot write issued before SC `sc` has performed (R194). -/
def State.relDone (s : State) (c sc : Nat) : Bool :=
  !s.mem.reqs.any fun r => r.core == c && r.dom == (s.core c).dom && r.engine == 1 && r.kind != .load && r.issue < sc

/-- Start a wait: it ends at once where its condition holds. -/
def State.waitFor (s : State) (done : Bool) (w : CcState) : State :=
  if done then s.ccRetire 4 else s.modCc s.cur fun k => { k with state := w }

def execCalWaitEng (e : BitVec 7) (rs1 : BitVec 5) (s : State) : Host.Outcome State Fault Refusal :=
  let c := s.cur
  let k := (s.core c).cc
  let v := k.xr rs1
  let m : Half := v.setWidth 32
  let n := e.toNat
  .next (if k.inspect.isSome then s.ccIllegal
    else if n < 1 ∨ n > 6 then s.ccIllegal
    else if n = 1 then (if v ≠ 0 then s.ccIllegal else s.waitFor (s.engDone c 1 0) (.waitEng 1 0))
    else if v ≠ 0 ∧ (v.toNat ≥ 2 ^ 32 ∨ !k.issued (engOf n) m) then s.ccIllegal
    else s.waitFor (s.engDone c n m) (.waitEng n m))

/-- cal.wait.rng; the core's own dirty bytes in the range are written back, which may happen at any moment (R252). -/
def State.calWaitRng (s : State) (base len : Nat) : State :=
  let c := s.cur
  let k := s.core c
  if k.cc.inspect.isSome || len > 2 ^ 48 then s.ccIllegal
  else if len = 0 then s.ccRetire 4
  else
    let lo := base % 2 ^ 57
    let bad := if !canonicalVA base then some (5, base) else s.spanFault (s.partOf c) k.rng .engine lo (lo + len - 1) false false
    match bad with
    | some (sub, fa) => s.ccTrap 24 0 (s.ccEv 0x05 sub fa)
    | none =>
      let s := s.pushRange c lo len
      let sc := s.sc c
      s.waitFor (s.rngDone c lo len sc) (.waitRng lo len sc)

def execCalWaitRng (rs1 rs2 : BitVec 5) (s : State) : Host.Outcome State Fault Refusal :=
  let k := (s.core s.cur).cc
  .next (s.calWaitRng (k.xr rs1).toNat (k.xr rs2).toNat)

def execCalWaitSc (rs1 : BitVec 5) (s : State) : Host.Outcome State Fault Refusal :=
  let c := s.cur
  let k := (s.core c).cc
  let t := k.xr rs1
  .next (if k.inspect.isSome then s.ccIllegal else s.waitFor (decide (t.toNat ≤ s.sc c)) (.waitSc t))

/-- Whether the wait of core `c` may end. -/
def State.waitOver (s : State) (c : Nat) : Bool :=
  match (s.core c).cc.state with
  | .waitEng e m => s.engDone c e m
  | .waitRng base len sc => s.rngDone c base len sc
  | .waitSc t => t.toNat ≤ s.sc c
  | .waitRel _ sc => s.relDone c sc
  | .waitOvly m => !(s.openIssues c .ce).contains m && !(s.core c).eng.overlayPending
  | .waitFenceI => !(s.core c).eng.overlayPending
  | .waitWfi => (s.core c).cc.mip &&& (s.core c).cc.mie != 0
  | _ => false

/-- CC_WAIT_END: the waiting instruction completes. A WFI and a cal.ovly have moved the pc already. -/
def execCcWaitEnd (s : State) : Host.Outcome State Fault Refusal :=
  let c := s.cur
  .next (if !s.live c || !s.waitOver c then s
    else match (s.core c).cc.state with
      | .waitWfi => s.modCc c fun k => { k with state := .running }
      | .waitOvly _ => s.modCc c fun k => { k with state := .running }
      | _ => s.ccRetire 4)

/-! ### Progress registers (R192, R209 to R211, R313) -/

/-- Bytes of an engine's writes for the steps of entry `m` of core `c` that meet `p`, and that have still to perform: at
their home slices, in a private store, or at another module, where the acknowledgement tells (R211, R314, R324). -/
def State.writeBytesOf (s : State) (c : Nat) (e : Eng) (m : Half) (p : Nat → Bool) : Nat :=
  (s.mem.reqs.foldl
      (fun a r => if r.core == c && r.engine == engCode e && r.entry == m && p r.pc.toNat && r.kind != .load then
        a + (List.range 128).countP (fun i => r.mask.getLsbD i) else a) 0) +
    ((s.core c).be.accesses.foldl
      (fun a x => if x.rank == engRank e && x.id == m.toNat && p x.pc.toNat then a + x.len else a) 0) +
    (if e = .ce then (s.core c).fab.ceStores.foldl (fun a x => if x.1 == m && p x.2.1 then a + x.2.2 else a) 0 else 0)

/-- Bytes of an engine's writes for entry `m` of core `c` that have still to perform. -/
def State.pendingBytes (s : State) (c : Nat) (e : Eng) (m : Half) : Nat := s.writeBytesOf c e m fun _ => true

/-- OUTST of entry `m` of a sequencer: REMAIN, the bytes of committed steps' writes, and a free store-buffer map that is
zero exactly when REMAIN is (R211, R313). -/
def State.outst (s : State) (c : Nat) (q : Seqr) (m : Half) : Word :=
  let n := s.writeBytesOf c q.eng m fun k => !(s.seq c q).steps.any fun st => st.issue == m && st.n == k
  let map := (Config.freeBmap s.freeCount).toNat
  BitVec.ofNat 64 ((if n = 0 then 0 else max map 1) * 2 ^ 56 + n % 2 ^ 32)

/-- STATUS (R210). -/
def Prog.status (p : Prog) : Word :=
  BitVec.ofNat 64 (p.cause.toNat * 2 ^ 56 + p.state.toNat * 2 ^ 53 + natOfBool p.resumed * 2 ^ 52 + p.flags.toNat * 2 ^ 46
    + p.issue.toNat)

/-- The transfers held for the receive steps of the plan that a CX sequencer runs (R313). -/
def State.planHeld (s : State) (c : Nat) (x : SeqState) : List Held :=
  match x.active.getLast? with
  | none => []
  | some a => (s.core c).fab.plan.filter fun h => match h.flit.plan with
    | some q => q.1 == clPlan a.entry.block
    | none => false

/-- A progress register of a sequencer that core `c` owns; none where the number is unassigned. -/
def State.progRead (s : State) (c : Nat) (q : Seqr) (n : Nat) : Option Word :=
  let x := s.seq c q
  let p := x.prog
  if n = 0 then some p.status
  else
    match q.eng with
    | .mx =>
      (match n with
       | 0x01 => some (p.steps.setWidth 64)
       | 0x08 => some (BitVec.ofNat 64 (natOfBool p.whalf * 16 + p.slot.toNat))
       | 0x09 => some (BitVec.ofNat 64 (p.nexttag.toNat * 2 ^ 16 + natOfBool p.par))
       | 0x0A => some (s.outst c q p.issue)
       | 0x0D => some (p.hsel.setWidth 64)
       | n => if 2 ≤ n ∧ n ≤ 7 then some (((p.lidx[n - 2]?).getD 0).setWidth 64) else none)
    | .px =>
      (match n with
       | 0x01 => some (p.steps.setWidth 64)
       | 0x0A => some (s.outst c q p.issue)
       | 0x0C => some (BitVec.ofNat 64 (p.pass.toNat * 2 ^ 16 + p.chunk.toNat))
       | n => if 2 ≤ n ∧ n ≤ 7 then some (((p.lidx[n - 2]?).getD 0).setWidth 64) else none)
    | e =>
      match n with
      | 0x01 => some (p.steps.setWidth 64)
      | 0x02 => some (p.total.setWidth 64)
      | 0x03 => if e = .weir then some (p.count.setWidth 64) else none
      | 0x04 => some (s.outst c q p.issue)
      | 0x05 => if e = .cx then some (BitVec.ofNat 64 (s.planHeld c x).length) else none
      | _ => none

/-- The sequencer that an index names, of those that core `c` owns (R192). -/
def State.ownedSeq (s : State) (c e idx : Nat) : Option Seqr :=
  match engOf e with
  | .cx =>
    if s.leasedSeqr c .cx (dieOf c) idx || (sget s.seqs (dieOf c * 16 + idx)).any (fun x => x.core == c) then
      some ⟨.cx, dieOf c, idx⟩
    else none
  | .weir =>
    let mine := (s.sharedSeqs c .weir).filter fun x => (seqrOfKey x.1).idx == idx
    match mine.find? (fun x => !x.2.active.isEmpty), mine.head? with
    | some x, _ => some (seqrOfKey x.1)
    | none, some x => some (seqrOfKey x.1)
    | none, none =>
      ((List.range 8).find? fun u => idx < 8 && s.leasedSeqr c .weir u idx).map fun u => ⟨.weir, u, idx⟩
  | x => if idx = 0 then some ⟨x, 0, 0⟩ else none

/-- The sequencer and register that an index operand names. -/
def State.progIndex (s : State) (c e : Nat) (v : Word) : Option (Seqr × Nat) :=
  if e < 2 ∨ e > 6 ∨ v.toNat ≥ 2 ^ 12 then none
  else (s.ownedSeq c e (bitsOf v.toNat 8 4)).map fun q => (q, bitsOf v.toNat 0 8)

def execCalPrgrd (e : BitVec 7) (rd rs1 : BitVec 5) (s : State) : Host.Outcome State Fault Refusal :=
  let c := s.cur
  let k := (s.core c).cc
  .next (if k.inspect.isSome then s.ccIllegal
    else match s.progIndex c e.toNat (k.xr rs1) with
      | none => s.ccIllegal
      | some (q, n) =>
        match s.progRead c q n with
        | none => s.ccIllegal
        | some v => s.ccResult rd v 4)

/-- A write of a progress register's RW fields; STATE is acted on apart (R211, R236, R313). -/
def Prog.write (p : Prog) (e : Eng) (n : Nat) (v : Word) : Prog :=
  let lidx := p.lidx.setIfInBounds (n - 2) (v.setWidth 16)
  match e with
  | .mx =>
    (match n with
     | 0x01 => { p with steps := v.setWidth 32 }
     | 0x0D => { p with hsel := v.setWidth 16 }
     | n => if 2 ≤ n ∧ n ≤ 7 then { p with lidx } else p)
  | .px =>
    (match n with
     | 0x01 => { p with steps := v.setWidth 32 }
     | 0x0C => { p with pass := v.extractLsb' 16 16, chunk := v.setWidth 16 }
     | n => if 2 ≤ n ∧ n ≤ 7 then { p with lidx } else p)
  | _ =>
    match n with
    | 0x01 => { p with steps := v.setWidth 32 }
    | 0x03 => { p with count := v.setWidth 32 }
    | _ => p

/-- The turn that a write of STATE to a stopped entry asks for: 1 reissues it, 0 flushes it (R236). -/
def stateTurn (c : Nat) (q : Seqr) (n : Nat) (v : Word) (stopped : Bool) : List Turn :=
  if n ≠ 0 ∨ !stopped then []
  else
    match bitsOf v.toNat 53 3 with
    | 0 => [.op c (.entryFlush q)]
    | 1 => [.op c (.entryReissue q)]
    | _ => []

def execCalPrgwr (e : BitVec 7) (rs1 rs2 : BitVec 5) (s : State) : Host.Outcome State Fault Refusal :=
  let c := s.cur
  let k := (s.core c).cc
  .next (if k.inspect.isSome || k.mode == .u then s.ccIllegal
    else match s.progIndex c e.toNat (k.xr rs1) with
      | none => s.ccIllegal
      | some (q, n) =>
        let x := s.seq c q
        let st := x.prog.state.toNat
        if (s.progRead c q n).isNone || (st != 0 && st != 2) then s.ccIllegal
        else
          let v := k.xr rs2
          let s := s.setSeq c q { x with prog := x.prog.write q.eng n v }
          let s := s.ccRetire 4
          { s with agenda := stateTurn c q n v (st == 2) ++ s.agenda })

/-! ### Range registers, release and acquire, overlay load, drift -/

def execCalRngwr (n : BitVec 7) (rs1 rs2 : BitVec 5) (s : State) : Host.Outcome State Fault Refusal :=
  let k := (s.core s.cur).cc
  .next (if k.inspect.isSome || n.toNat > 15 then s.ccIllegal
    else (s.modCore s.cur fun c => { c with rng := c.rng.setIfInBounds n.toNat (rngOf (k.xr rs1) (k.xr rs2)) }).ccRetire 4)

/-- cal.rel: dirty bytes are pushed, and the core waits for its memory-slot stores; scope core orders nothing more than
its own accesses (R194). -/
def execCalRel (scope : BitVec 7) (s : State) : Host.Outcome State Fault Refusal :=
  let c := s.cur
  let k := (s.core c).cc
  .next (if k.inspect.isSome || scope.toNat > 5 then s.ccIllegal
    else
      let s := if scope = 0 then s else s.flushL1 c false
      let sc := s.sc c
      s.waitFor (scope == 0 || s.relDone c sc) (.waitRel scope.toNat sc))

/-- A first-level line without its clean bytes. -/
def L1Line.dropClean (l : L1Line) : L1Line := { l with valid := l.dirty, bad := 0 }

/-- cal.acq: clean bytes are dropped, dirty ones stay (R194). -/
def execCalAcq (scope : BitVec 7) (s : State) : Host.Outcome State Fault Refusal :=
  let k := (s.core s.cur).cc
  .next (if k.inspect.isSome || scope.toNat > 5 then s.ccIllegal
    else
      let s := if scope = 0 then s
        else s.modCc s.cur fun k =>
          { k with l1 := (k.l1.map fun (e : Nat × L1Line) => (e.1, e.2.dropClean)).filter fun e => e.2.dirty != 0 }
      s.ccRetire 4)

/-- cal.ovly: a MOVLY is issued, rd takes its number, and the core waits for it (R195). -/
def execCalOvly (o : FR3) (s : State) : Host.Outcome State Fault Refusal :=
  let k := (s.core s.cur).cc
  .next (if k.inspect.isSome then s.ccIllegal
    else match s.issue 0x12 (k.xr o.rs1).toNat (k.xr o.rs2) with
      | .accepted s m => (s.ccResult o.rd (m.setWidth 64) 4).modCc s.cur fun k => { k with state := .waitOvly m }
      | .waits s => s
      | .ended s => s)

/-- cal.drift (R196). -/
def execCalDrift (rs1 rs2 : BitVec 5) (s : State) : Host.Outcome State Fault Refusal :=
  let c := s.cur
  let k := (s.core c).cc
  let n := (k.xr rs2).toNat
  .next (if k.inspect.isSome || k.mode == .u || !k.calctl.getLsbD 8 || n < 1 || n > 255 then s.ccIllegal
    else (s.driftRequest (k.xr rs1).toNat n (some c)).ccRetire 4)

end Sys2Proof.Machine
end

