-- ==== Sys2Proof/Machine/Engine.lean ====
section
/-! DEFINITION. What the engines share: the entries that a sequencer runs and their timing (R206, R207, R232, R312,
R318, R325, R328, R334, R337), their memory requests (R238, R259, R314), the events that stop an entry (R234, R315), the
start of an entry (MACRO_START), its end (ENTRY_COMPLETE), its stop, reissue and flush (R234 to R236, R315, R316). -/

namespace Sys2Proof.Machine

/-! ### Entries -/

def State.entryLevels (s : State) (c : Nat) (q : QEntry) : List Level := levelsOf (s.core c).cc.geo q.form q.block

/-- The steps of the plan that a collective entry runs. -/
def State.entryPlan (s : State) (c : Nat) (q : QEntry) : List PlanStep :=
  match s.plan (s.partOf c) (clPlan q.block) c with
  | some (_, steps) => steps
  | none => []

/-- The tile steps, chunks or plan steps of an entry on a core (R23, R312). -/
def State.entrySteps (s : State) (c : Nat) (q : QEntry) : Nat :=
  let b := q.block
  match formEng q.form with
  | .mx => totalOf (s.entryLevels c q)
  | .px => totalOf (s.entryLevels c q) * pxInner q.form b
  | .ce => if q.form = 0x12 then ovCount b else (totalOf (s.entryLevels c q) + 255) / 256
  | .weir => (wrElems b + 4095) / 4096
  | .cx => (s.entryPlan c q).length

/-! ### Timed offsets -/

/-- F of R232. -/
def mxFill (b : Block) : Nat := if mxBfmt b = 8 then 39 else 31

/-- A of R325. -/
def ceLead (form : Nat) (b : Block) : Nat := if form = 0x11 then 0 else if (ceSrc b).space = 1 then 512 else 2

/-- P of R325. -/
def cePeriod (form : Nat) (b : Block) : Nat :=
  let src := if form = 0x11 then 0 else 32 * ceBits (ceSfmt b)
  8 + (max src (32 * ceBits (ceDfmt b)) + 63) / 64

/-- P of R334. -/
def wrPeriod (b : Block) : Nat := 2 * (wrBits (wrEkind b) / 8)

/-- The step period of a form within one pass. -/
def stepPeriod (form : Nat) (b : Block) : Nat :=
  match form with
  | 3 => 512
  | 8 => 32 + 4 * pxEB b
  | 9 => 32 + 64 * pxRbu b
  | 10 => 32 + 64 * pxRbu b
  | 0x10 => cePeriod form b
  | 0x11 => cePeriod form b
  | 0x12 => 136
  | 0x18 => wrPeriod b
  | 0x19 => wrPeriod b
  | _ => 256

/-- The start of step `n` after the start SC of its entry (R232, R325, R328). A Weir chunk starts when its first element
may be read; the first one starts with the entry (R334). -/
def stepOfs (form : Nat) (b : Block) (n : Nat) : Nat :=
  let p := stepPeriod form b * n
  match form with
  | 8 => p + 24 * (n % max (pxInner 8 b) 1 / max (sortR b) 1)
  | 0x18 => if n = 0 then 0 else 64 + p
  | 0x19 => if n = 0 then 0 else 64 + p
  | 0x20 => 0
  | _ => p

/-- The commit point of a step after its start (R232, R325, R328, R334). -/
def commitOfs (form : Nat) (b : Block) (n : Nat) : Nat :=
  match form with
  | 3 => 608
  | 8 => 48 + 4 * pxEB b
  | 9 => (if pxTmem b then 1072 else 48) + 64 * pxRbu b
  | 10 => (if pxTmem b then 537 else 48) + 64 * pxRbu b
  | 0x10 => ceLead form b + (if (ceDst b).space = 1 || (ceScmode b == 2 && (ceDst b).scsp == 1) then 520 else 8)
  | 0x11 => if (ceDst b).space = 1 then 520 else 8
  | 0x12 => 520
  | 0x18 => (if n = 0 then 640 else 576) + (if wrElems b = 0 then 0 else wrPeriod b)
  | 0x19 => (if n = 0 then 640 else 576) + (if wrElems b = 0 then 0 else wrPeriod b)
  | 0x20 => 0
  | _ => 225 + mxFill b

/-- Rows of the D tile in the order of their writes: the offset of the last one (R232). -/
def lastRow (form : Nat) (b : Block) : Nat := if form = 2 then 31 else mxMV b - 1

/-- The SCs, after the start of a plan step's entry, at which it reads and writes a space: departure `delta`, latency
`l` (R337). -/
def clReach (b : Block) (st : PlanStep) (l space : Nat) : Nat × Nat :=
  let mem := (clBuf b (st.fromD || st.recv)).1
  if (if mem then 2 else 0) ≠ space then (0, 0)
  else if !st.recv then (st.delta - (if mem then 512 else 8) + 1, 0)
  else if mem then (st.delta + l + 521, st.delta + l + 521)
  else (if st.combine then st.delta + l + 5 else 0, st.delta + l + 9)

/-- When a Timed entry last reads and last writes a space of R223, as offsets from its start SC just after the access; 0
where it does not. -/
def State.entryReach (s : State) (c : Nat) (q : QEntry) (space : Nat) : Nat × Nat :=
  let b := q.block
  let n := s.entrySteps c q
  let t := stepOfs q.form b (n - 1)
  let e := t + commitOfs q.form b (n - 1)
  if n = 0 ∧ formEng q.form ≠ .weir then (0, 0)
  else
    match formEng q.form with
    | .mx =>
      let row := e + 8 + lastRow q.form b
      (match space with
       | 0 => (if q.form = 3 then t + 257 else if mxBias b || mxFscale b then e - 7 else t + 225,
                if dMem b || mxDfmt b == 0 then 0 else row + 1)
       | 1 => (if q.form = 3 then t + 257 else t + mxFill b + 1, e + 1)
       | 2 => (0, if dMem b && mxDfmt b != 0 then row + 513 else 0)
       | _ => (t + 225, 0))
    | .px =>
      let i := (pxN b - 1) % 64 * pxRbu b
      (match q.form, space with
       | 8, 0 => (t + 1, e + 1)
       | 9, 0 => (t + 9 + i, e + 1)
       | 9, 2 => (if pxTmem b then t + 521 + i else 0, 0)
       | 10, 0 => (if pxTmem b || pxComb b == 0 then t + 9 + i else e + 1, if pxTmem b then 0 else e + 1)
       | 10, 2 => if pxTmem b then (if pxComb b = 0 then 0 else t + 529 + i, t + 529 + i) else (0, 0)
       | _, _ => (0, 0))
    | .ce =>
      if q.form = 0x12 then (if space = 2 then (t + 513, 0) else (0, 0))
      else
        let a := ceLead q.form b
        let code (sp : Nat) : Nat := copySpace sp
        let rd := (q.form = 0x10 ∧ code (ceSrc b).space = space) ∨ (ceSrcScaled q.form b ∧ code (ceSrc b).scsp = space) ∨
          (ceDstScaled b ∧ ceScmode b = 1 ∧ code (ceDst b).scsp = space)
        let wr := ((ceDst b).space ≠ 2 ∧ code (ceDst b).space = space) ∨ ((ceDst b).space = 2 ∧ space = 3) ∨
          (ceDstScaled b ∧ ceScmode b = 2 ∧ code (ceDst b).scsp = space)
        (if rd then t + a + 1 else 0, if wr then t + a + (if space = 2 then 521 else 9) else 0)
    | .weir =>
      let carry := if q.form = 0x19 && wrCin b then (if wrSpad b then 3 else 513) else 0
      let g := 576 + wrPeriod b * n
      let w := g + 65
      (match space with
       | 0 => if wrSpad b then (carry, w) else (0, 0)
       | 2 => (max (if n = 0 then 0 else g) (if wrSpad b then 0 else carry), if wrSpad b then 0 else w + 512)
       | _ => (0, 0))
    | .cx =>
      (s.entryPlan c q).foldl
        (fun a st =>
          let r := clReach b st (s.route (s.partOf c) st.route).l space
          (max a.1 r.1, max a.2 r.2))
        (0, 0)

/-- Just after the last write of an entry that runs. -/
def State.entryLastWrite (s : State) (c : Nat) (q : QEntry) : Nat :=
  max (s.entryReach c q 0).2 (max (s.entryReach c q 1).2 (s.entryReach c q 2).2)

/-! ### Progress registers (R209 to R211, R313) -/

/-- The absolute loop indices of position `t` (R211). -/
def lidxOf (ls : List Level) (t : Nat) : Vector (BitVec 16) 6 :=
  let xs := (ls.zip (iotas ls t)).map fun x => x.1.lo + x.2
  Vector.ofFn fun i => BitVec.ofNat 16 (xs.getD i.val 0)

/-- The progress registers for step `n` of an entry as the next step. COUNT drives the tag and the phase. -/
def State.progFor (s : State) (c : Nat) (q : QEntry) (n : Nat) (p : Prog) : Prog :=
  let b := q.block
  let ls := s.entryLevels c q
  match formEng q.form with
  | .mx =>
    let slot := (mxSlot b ls n).toNat
    { p with
      lidx := lidxOf ls n, slot := BitVec.ofNat 4 slot, whalf := !p.hsel.getLsbD slot
      nexttag := BitVec.ofNat 16 (mxTagBase b + p.steps.toNat), par := p.steps.getLsbD 0 }
  | .px =>
    let i := max (pxInner q.form b) 1
    let r := n % i
    if q.form = 8 then
      { p with lidx := lidxOf ls (n / i), pass := BitVec.ofNat 16 (r / max (sortR b) 1)
               chunk := BitVec.ofNat 16 (r % max (sortR b) 1) }
    else { p with lidx := lidxOf ls (n / i), pass := 0, chunk := BitVec.ofNat 16 r }
  | _ => p

/-- The position of absolute loop indices. -/
def positionOf (ls : List Level) (p : Prog) : Nat :=
  ((ls.zip (List.range ls.length)).foldl
    (fun a x => a * max x.1.n 1 + ((((p.lidx[x.2]?).getD 0).toNat : Int) - x.1.lo).toNat % max x.1.n 1) 0)

/-- The step that the progress registers name (R236, R315). -/
def State.stepOf (s : State) (c : Nat) (q : QEntry) (p : Prog) : Nat :=
  let b := q.block
  let ls := s.entryLevels c q
  match formEng q.form with
  | .mx => positionOf ls p
  | .px =>
    positionOf ls p * pxInner q.form b +
      (if q.form = 8 then p.pass.toNat * sortR b + p.chunk.toNat else p.chunk.toNat)
  | _ => p.steps.toNat

/-- The last entry of a sequencer's list: the one that the progress registers describe. -/
def SeqState.youngest (x : SeqState) : Option ActiveEntry := x.active.getLast?

def SeqState.entry (x : SeqState) (m : Half) : Option ActiveEntry := x.active.find? fun a => a.entry.issue == m

/-- COUNT of step `n` of an entry: from the progress registers for the youngest entry, else the step's number. -/
def SeqState.countOf (x : SeqState) (a : ActiveEntry) (n : Nat) : Nat :=
  match x.youngest with
  | some y => if y.entry.issue = a.entry.issue then x.prog.steps.toNat + (n - a.committed) else n
  | none => n

/-! ### Events of an engine -/

/-- An event of an engine's entry (R58, R60). -/
def engEv (e : Eng) (issue : Half) (cause sub faddr : Nat) : Ev :=
  { cause := BitVec.ofNat 8 cause, subcause := BitVec.ofNat 8 sub, engine := engCode e, slot := 15, pc := 0
    faddr := BitVec.ofNat 64 (faddr % 2 ^ 57), tcode := 0, issue, tengine := 0, duesc := 0, body := 1, words := [] }

/-- Whether an access or request belongs to step `n` or a later one of an entry. -/
def stepTail (issue : Half) (n : Nat) (m : Half) (k : Nat) : Bool := m == issue && decide (n ≤ k)

/-- The generator of an entry whose step `n` and later ones are discarded goes back to its state before their draws, which
sample 97 of the step that drew keeps (R234, R315). -/
def State.undoDraws (s : State) (c : Nat) (q : Seqr) (issue : Half) (n : Nat) : State :=
  match (s.seq c q).steps.find? fun st => stepTail issue n st.issue st.n && (sget st.samples 97).isSome with
  | none => s
  | some st =>
    let g := BitVec.ofNat 32 (((sget st.samples 97).getD []).getD 0 0)
    s.modCc c fun k => if q.eng = .mx then { k with srgm := g } else { k with srge := g }

/-- The transfers that discarded receive steps had taken are held again (R315). -/
def Held.giveBack (h : Held) (issue : Half) (n : Nat) : Held :=
  match h.takenBy with
  | some (m, k) => if stepTail issue n m k then { h with takenBy := none } else h
  | none => h

/-- Steps `n` and later of an entry are discarded with their reads, their draws and their writes that have not performed
(R234, R315). -/
def State.dropSteps (s : State) (c : Nat) (q : Seqr) (issue : Half) (n : Nat) : State :=
  let e := q.eng
  let s := s.undoDraws c q issue n
  let s := s.modSeq c q fun x =>
    { x with
      steps := x.steps.filter fun st => !stepTail issue n st.issue st.n
      active := x.active.map fun a => if a.entry.issue = issue then { a with started := min a.started n } else a }
  let s := if e = .cx then s.modFab c fun k => { k with plan := k.plan.map fun h => h.giveBack issue n } else s
  let gone (r : LongReq) : Bool := r.core == c && r.dom == (s.core c).dom && r.engine == engCode e && stepTail issue n r.entry r.pc.toNat
  let s := { s with mem := { s.mem with
    reqs := s.mem.reqs.filter fun r => !gone r, sampled := s.mem.sampled.filter fun r => !gone r } }
  s.modBe c fun b => { b with accesses := b.accesses.filter fun a =>
    !(a.rank == engRank e && stepTail issue n (BitVec.ofNat 32 a.id) a.pc.toNat) }

/-! ### Refetch (R237, R327) -/

/-- Whether entry `issue` of an engine is the refetch under way. -/
def State.isRedo (s : State) (c : Nat) (e : Eng) (issue : Half) : Bool :=
  e == .ce && (s.core c).eng.redo.any fun r => r.act.entry.issue == issue

/-- The copy engine leaves a refetch, and its sequencer goes back to the state it had. -/
def State.redoEnd (s : State) (c : Nat) : State :=
  match (s.core c).eng.redo with
  | none => s
  | some r =>
    (s.dropSteps c ⟨.ce, 0, 0⟩ r.act.entry.issue 0).modEng c fun k =>
      { k with redo := none, ce := { k.ce with prog := { k.ce.prog with state := r.was } } }

/-- The response of a phase cancellation that cannot be: a launch replay, or a kill where R54 or R55 gives one. -/
def State.replayResp (s : State) (c : Nat) (e : Ev) : Nat := if s.respNow c { e with cause := 0x0D } = 4 then 4 else 5

/-- A refetch that takes an event is abandoned: the event's record, and a launch replay for the cancelled step, which ends
with the launch (R327). A refetch has no issue number. -/
def State.redoAbandon (s : State) (c : Nat) (e : Ev) : State :=
  let mx := ((s.core c).eng.redo.map (·.mx)).getD true
  let s := (s.redoEnd c).modSeq c ⟨if mx then .mx else .px, 0, 0⟩ fun x => { x with refetchAt := none }
  s.raiseAs c { e with issue := 0 } (s.replayResp c e)

/-- An event that touches step `n` of an entry: in Elastic a macro stop discards the step and the later ones, and the
record is written once the stop is complete (R234, R315); any other response is taken at once. In Timed the named step
has no effect (R48), but for a translation that a resume takes up again. -/
def State.engEvent (s : State) (c : Nat) (q : Seqr) (n : Nat) (ev : Ev) : State :=
  if s.isRedo c q.eng ev.issue then s.redoAbandon c ev
  else if !s.timed c && decide (s.respNow c ev ≤ 1) then
    let stop := { ev with duesc := BitVec.ofNat 64 (s.sc c), pc := BitVec.ofNat 64 s.basin }
    (s.dropSteps c q ev.issue n).modSeq c q fun x => { x with stopEv := some (x.stopEv.getD stop) }
  else if ev.cause = 0x06 ∨ ev.cause = 0x0B ∨ !s.timed c then s.raise c ev
  else (s.dropStep c (engCode q.eng) (engRank q.eng) ev.issue n).raise c ev

/-- The sequencer that runs entry `issue` of an engine of core `c`. -/
def State.seqrOf (s : State) (c : Nat) (e : Eng) (issue : Half) : Seqr :=
  match e with
  | .cx =>
    match (s.sharedSeqs c e).find? (fun x => (x.2.entry issue).isSome) with
    | some x => seqrOfKey x.1
    | none => ⟨e, 0, 0⟩
  | .weir =>
    match (s.sharedSeqs c e).find? (fun x => (x.2.entry issue).isSome) with
    | some x => seqrOfKey x.1
    | none => ⟨e, 0, 0⟩
  | e => ⟨e, 0, 0⟩

/-! ### Memory requests of an engine -/

/-- Who asks: the sequencer's core, the entry's issue number, its step, and the translations of its acceptance. -/
structure Ask where
  core : Nat
  q : Seqr
  issue : Half
  n : Nat
  rng : Vector Rng 16
  asker : Asker

def State.askOf (s : State) (c : Nat) (q : Seqr) (a : ActiveEntry) (n : Nat) : Ask :=
  ⟨c, q, a.entry.issue, n, a.entry.rng, s.formAsker c a.entry.form⟩

/-- The route that an engine takes to another module: the lowest-numbered valid one to it (R324, R385). -/
def State.routeTo (s : State) (p m : Nat) : Nat :=
  (s.routeToModule p m).getD 0

/-- Replace a request. -/
def State.setReq (s : State) (r : LongReq) : State :=
  { s with mem := { s.mem with reqs := s.mem.reqs.map fun x => if x.id = r.id ∧ x.engine = r.engine ∧ x.core = r.core then r else x } }

/-- The 64 KiB blocks, from the one of the request to the end of its operand, whose translation faults (R59, R378). -/
def State.faultBlocks (s : State) (r : LongReq) (q : Seqr) : Nat :=
  let c := r.core
  let rd := r.kind != .store
  let wr := r.kind != .load
  match (s.seq c q).entry r.entry with
  | none => 1
  | some a =>
    let b := a.entry.block
    let as := s.areasOf c a.entry.form b (levelsOf (s.core c).cc.geo a.entry.form b)
    let stop : Nat := as.foldl (fun (m : Nat) (x : Area) =>
      if x.space == 2 && decide (x.lo ≤ (r.va : Int)) && decide ((r.va : Int) ≤ x.hi) then max m x.hi.toNat else m) (r.va + r.bytes - 1)
    ((List.range (stop / 65536 - r.va / 65536 + 1)).filter fun k =>
      let va := max r.va ((r.va / 65536 + k) * 65536)
      match s.translateFor r.part a.entry.rng (s.formAsker c a.entry.form) (va57 (va % 2 ^ 57)) 1 rd wr with
      | .error _ => false
      | .ok ia => match s.translateHome r.part ia rd wr with
        | .fault .. => true
        | _ => false).length

/-- The mark of a request that exceeded its lease: it never takes place (R259). -/
def Xlat.overrun : Xlat := .fault 8 3

/-- Whether a fault of an entry's request has been told already: one record describes its whole remaining extent (R59). -/
def State.faultTold (s : State) (r : LongReq) : Bool :=
  s.mem.reqs.any fun y =>
    y.core == r.core && y.engine == r.engine && y.entry == r.entry && y.xlat != .waiting && !y.xlat.isOk && y.xlat != .overrun

/-- In Timed, an entry that has met a fault writes one record for its whole remaining extent (R59): its requests that
fault stay held, and none after the first is an event of its own. -/
def State.settleFault (s : State) (r : LongReq) (q : Seqr) (x : Xlat) (e : Ev) : State :=
  if s.timed r.core then
    let told := s.faultTold r
    let s := s.setReq { r with xlat := x }
    if told then s else s.raiseLate r.core e
  else s.engEvent r.core q r.pc.toNat e

/-- What the translation of a request gives. -/
inductive Settled
  | ok (s : State) (x : Xlat)
  | fault (s : State) (x : Xlat) (e : Ev)
  | overrun (s : State) (e : Ev)
deriving DecidableEq, Repr

/-- Whether a request reads and writes. -/
def LongReq.rd (r : LongReq) : Bool := r.kind != .store
def LongReq.wr (r : LongReq) : Bool := r.kind != .load

/-- PAGES of a request's fault: the blocks of its engine entry's remaining extent, or its own (R378). -/
def State.faultPages (s : State) (r : LongReq) : Nat :=
  if r.engine = 1 then 1 else max 1 (s.faultBlocks r (s.seqrOf r.core (engOf r.engine) r.entry))

/-- The memory-side translation of a request: the walk's leaf is kept (R380), a first write to a versioned block binds it
(R303, R304), and a Timed access that was not translated before counts against its lease (R52, R257, R259). -/
def State.settleReq (s : State) (r : LongReq) : Settled :=
  let (s, x) := s.translateNow r.part r.ia r.rd r.wr
  let ev := { r.ev 0x06 0 with faddr := BitVec.ofNat 64 (r.va % 2 ^ 57) }
  match s.xlatEvent ev r.part r.va r.ia x, x with
  | some e, .fault _ level => .fault s x { e with words := s.xlatWords r.part r.va r.ia level (s.faultPages r) }
  | some e, _ => .fault s x e
  | none, x =>
    let (stack, L) := s.home r.part r.ia
    let s := match x with
      | .ok _ leaf size => if (s.cachedLeaf r.part stack L).isSome then s else s.cacheLeaf r.part stack L leaf.toNat size
      | _ => s
    match (if r.wr then s.bindForWrite r.dom r.part r.ia x else .ok s) with
    | .error sub =>
      .fault s (.fault 0 0) { ev with
        cause := 0x0B, subcause := BitVec.ofNat 8 sub, body := 9, words := s.shadowWords r.part r.va r.ia (r.dom.getD 0) sub }
    | .ok s =>
      match x, r.dom, r.dom.bind s.dom with
      | .ok pa _ _, some id, some d =>
        if d.timed && !r.xlat.isOk then
          match s.takeLease id d r.part r.ia r.bytes r.due pa (r.kind == .atomic) with
          | some s => .ok s x
          | none => .overrun s { ev with cause := 0x08, subcause := 3, body := 1, words := [], duesc := BitVec.ofNat 64 r.due }
        else .ok s x
      | _, _, _ => .ok s x

/-- A request exceeds its lease: it does not take place, and the first of an entry is the event of them all (R59,
R259). -/
def State.settleOver (s : State) (r : LongReq) (e : Ev) : State :=
  let told := s.mem.reqs.any fun y =>
    y.core == r.core && y.engine == r.engine && y.entry == r.entry && y.engine != 1 && y.xlat == .overrun
  let s := s.setReq { r with xlat := .overrun }
  if told then s else s.raiseMem r.core e

/-- Translate an engine's request that awaits it. -/
def State.settle (s : State) (r : LongReq) : State :=
  match s.settleReq r with
  | .ok s x => s.setReq { r with xlat := x }
  | .fault s x e => s.settleFault r (s.seqrOf r.core (engOf r.engine) r.entry) x e
  | .overrun s e => s.settleOver r e

/-- A remote load or store of a copy (R324, R365): part 0 of slot 256 + id on stream number 8, which no stream register
has. The list of loads keeps the bytes awaited in place of a count of parts. A store asks for its acknowledgement at once
(FL), since OUTST counts it until then; it carries the poison of its bytes (R295). -/
def State.engRemote (s : State) (a : Ask) (wr : Bool) (ia n data id : Nat) (poisoned : Bool := false) : State :=
  let p := s.partOf a.core
  let m := bitsOf ia 39 9
  let rt := s.routeTo p m
  let s := s.inject a.core
    { route := rt, srcModule := s.moduleId, srcCore := a.core, dstCore := 0, stream := 8, seq := 0, bytes := n, data := 0
      poisoned, depSC := s.sc a.core, timed := false, plan := none
      req := some
        { kind := natOfBool wr, srcModule := s.moduleId, srcCore := a.core, stream := 8, slot := 256 + id, ofs := 0, part := p
          ia := ia % 2 ^ 39, bytes := n, data := BitVec.ofNat 1024 data, op := 0, cmp := 0, fl := wr, timed := false
          due := 0, ovldbg := false, pc := 0, bslot := 15, va := 0 } } (s.route p rt)
  if wr then (s.markOutside a.core).modFab a.core fun k => { k with ceStores := k.ceStores ++ [(a.issue, a.n, n)] }
  else s.modFab a.core fun k => { k with loads := k.loads ++ [(256 + id, 8, id, n)] }

/-- The runs of set bits of a mask of `n` bytes from bit `i` on, each with its first bit and length. -/
def maskRuns (m i : Nat) : Nat → List (Nat × Nat)
  | 0 => []
  | n + 1 =>
    let rest := maskRuns m (i + 1) n
    if !bitOf m i then rest
    else match rest with
      | (j, k) :: t => if j = i + 1 then (i, k + 1) :: t else (i, 1) :: rest
      | [] => [(i, 1)]

/-- A remote access of an engine's piece: a load, or the stores of its runs of bytes. -/
def State.engRemotes (s : State) (a : Ask) (load : Bool) (mask ia n data id : Nat) (poisoned : Bool) : State :=
  if load then s.engRemote a false ia n 0 id
  else (maskRuns mask 0 n).foldl
    (fun s r => s.engRemote a true (ia + r.1) r.2 (bitsOf data (8 * r.1) (8 * r.2)) id poisoned) s

/-- What an engine asks of memory: the kind, the bytes it writes with their mask and the bits it leaves, and the COMB and
TYPE codes of a combine. -/
structure AskData where
  kind : ReqKind
  data : Nat
  mask : Nat
  keep : Nat
  op : Nat
  cmp : Nat
  poison : Bool

def askLoad : AskData := ⟨.load, 0, 0, 0, 0, 0, false⟩

/-- One piece of an engine's access, within a sector: its request, issued at SC `at_` and due at `due`. -/
def State.engPiece (s : State) (a : Ask) (d : AskData) (va n at_ due : Nat) : State × Nat :=
  let c := a.core
  let k := s.core c
  let p := s.partOf c
  let id := s.mem.nextReq
  let s := { s with mem := { s.mem with nextReq := id + 1 } }
  match s.translateFor p a.rng a.asker (va57 (va % 2 ^ 57)) 1 (d.kind != .store) (d.kind != .load) with
  | .error sub => (s.engEvent c a.q a.n (engEv a.q.eng a.issue 0x05 sub va), id)
  | .ok ia =>
    if !s.reaches c p ia then (s.engEvent c a.q a.n (engEv a.q.eng a.issue 0x05 2 va), id)
    else if iaRegion ia = 2 then (s.engRemotes a (d.kind == .load) d.mask ia n d.data id d.poison, id)
    else
      let r : LongReq :=
        { id, core := c, dom := k.dom, part := p, timed := s.timed c, kind := d.kind, va := va % 2 ^ 57, ia, bytes := n
          data := BitVec.ofNat 1024 d.data, mask := BitVec.ofNat 128 d.mask, keep := BitVec.ofNat 1024 d.keep
          op := BitVec.ofNat 4 d.op, cmp := BitVec.ofNat 64 d.cmp, due, issue := at_, rank := engRank a.q.eng, slot := 15
          pc := BitVec.ofNat 32 a.n, engine := engCode a.q.eng, entry := a.issue, xlat := .waiting, poison := d.poison }
      let s := { s with mem := { s.mem with reqs := s.mem.reqs ++ [r] } }
      if at_ ≤ s.sc c then (s.settle r, id)
      else ({ s with calendar := s.calendar ++ [⟨k.dom, at_, .op c (.pageWalk (2 * id))⟩] }, id)

/-- An engine's access of `n` bytes, piece by piece: the ids of its requests. -/
def State.engAccess (s : State) (a : Ask) (d : AskData) (va n at_ due : Nat) : State × List Nat :=
  (piecesOf va n).foldl
    (fun x q =>
      let y := x.1.engPiece a
        { d with data := bitsOf d.data (8 * q.ofs) (8 * q.len), mask := bitsOf d.mask q.ofs q.len
                 keep := bitsOf d.keep (8 * q.ofs) (8 * q.len) } (va + q.ofs) q.len at_ due
      (y.1, x.2 ++ [y.2]))
    (s, [])

/-- The writes of `bs` at address `va`. -/
def State.engWrite (s : State) (a : Ask) (va : Nat) (bs : List Byte) (at_ due : Nat) : State :=
  (s.engAccess a ⟨.store, bytesVal bs, maskOf bs.length, 0, 0, 0, false⟩ va bs.length at_ due).1

/-- A write of an engine to a private store, performing at SC `due` (R247). -/
def State.engStore (s : State) (a : Ask) (kind : SpKind) (addr : Nat) (bs : List Byte) (due : Nat) (tag : BitVec 16 := 0)
    (keep : Nat := 0) (poison : Bool := false) : State :=
  s.modBe a.core fun b => { b with accesses := b.accesses ++
    [{ kind, addr, bytes := bs, len := bs.length, tag, due, issue := due, rank := engRank a.q.eng, id := a.issue.toNat
       pc := BitVec.ofNat 32 a.n, poison, keep := BitVec.ofNat 64 keep }] }

/-- Change a step in flight. -/
def State.modStep (s : State) (c : Nat) (q : Seqr) (issue : Half) (n : Nat) (f : StepState → StepState) : State :=
  s.modSeq c q fun x => { x with steps := x.steps.map fun st => if st.issue = issue ∧ st.n = n then f st else st }

/-- A step in flight. -/
def State.stepAt (s : State) (c : Nat) (q : Seqr) (issue : Half) (n : Nat) : Option StepState :=
  (s.seq c q).steps.find? fun st => st.issue == issue && st.n == n

def StepState.sample (st : StepState) (i : Nat) : List Nat := (sget st.samples i).getD []

def StepState.put (st : StepState) (i : Nat) (v : List Nat) : StepState := { st with samples := sinsert st.samples i v }

/-- Every read of a step has come. -/
def StepState.readsCome (st : StepState) : Bool := st.reads.all fun r => r.2.isSome

/-- The bytes of a step's reads, in order. -/
def StepState.readBytes (st : StepState) : List Byte := st.reads.flatMap fun r => r.2.getD []

/-- Whether every write of a step has been issued and translated, and those to private stores have performed (R233,
R314). -/
def State.writesOut (s : State) (c : Nat) (q : Seqr) (issue : Half) (n : Nat) : Bool :=
  !(s.core c).be.accesses.any (fun a =>
      a.rank == engRank q.eng && a.id == issue.toNat && a.pc.toNat == n) &&
    !s.mem.reqs.any fun r => r.core == c && r.engine == engCode q.eng && r.entry == issue && r.pc.toNat == n && !r.xlat.isOk

/-! ### Steps -/

/-- Whether step `started` of an entry starts now: at its SC in Timed; in Elastic one step at a time, once the entry
runs. -/
def State.stepDue (s : State) (c : Nat) (q : Seqr) (x : SeqState) (a : ActiveEntry) (total : Nat) : Bool :=
  let _ := q
  decide (a.started < total) &&
    (if s.timed c then decide (a.startSC + stepOfs a.entry.form a.entry.block a.started ≤ s.sc c)
     else x.prog.state == 1 && x.stopEv.isNone && x.steps.isEmpty && a.started == a.committed)

/-- Start step `n` of an entry. -/
def State.beginStep (s : State) (c : Nat) (q : Seqr) (issue : Half) (n : Nat) : State :=
  let sc := s.sc c
  s.modSeq c q fun x =>
    { x with
      active := x.active.map fun a => if a.entry.issue = issue then { a with started := n + 1 } else a
      steps := x.steps ++ [{ issue, n, t0 := sc, samples := [], reads := [], stage := 0, flags := 0 }] }

/-- A step commits: the entry's count, and the progress registers where they describe it (R24, R211, R313). -/
def State.commitStep (s : State) (c : Nat) (q : Seqr) (st : StepState) : State :=
  let x := s.seq c q
  match x.entry st.issue with
  | none => s
  | some a =>
    let young := match x.youngest with
      | some y => y.entry.issue == st.issue
      | none => false
    let x := { x with
      steps := x.steps.filter fun k => !(k.issue == st.issue && k.n == st.n)
      active := x.active.map fun k => if k.entry.issue = st.issue then { k with committed := st.n + 1 } else k }
    let p := { x.prog with steps := x.prog.steps + 1, flags := x.prog.flags ||| st.flags }
    s.setSeq c q (if young then { x with prog := s.progFor c a.entry (st.n + 1) p } else x)

/-- Run `f` on each step in flight, oldest first. -/
def State.eachStep (s : State) (c : Nat) (q : Seqr) (f : State → ActiveEntry → StepState → State) : State :=
  (s.seq c q).steps.foldl
    (fun s st =>
      match (s.seq c q).entry st.issue, s.stepAt c q st.issue st.n with
      | some a, some now => f s a now
      | _, _ => s)
    s

/-! ### Starting an entry (R21, R26, R27, R206, R207, R312, R318) -/

/-- Whether two scoreboard entries conflict: they overlap in one space and one of them writes. -/
def SbEntry.clash (x y : SbEntry) : Bool := x.conflicts y.space y.base y.len y.rd y.wr

/-- When an open entry's accesses through scoreboard entry `o` that conflict with `m` are over, or none while the entry
waits in its queue. -/
def State.hazardEnd (s : State) (c : Nat) (o m : SbEntry) : Option Nat :=
  match (s.activeOf c (engOf o.eng)).find? (fun a => a.entry.issue == o.issue) with
  | none => none
  | some a =>
    let r := s.entryReach c a.entry o.space
    some (a.startSC + max (if o.rd && m.wr then r.1 else 0) (if o.wr then r.2 else 0))

/-- Whether an access of a memory slot that is in flight conflicts with a scoreboard entry. -/
def State.slotHazard (s : State) (c : Nat) (m : SbEntry) : Bool :=
  (s.core c).be.accesses.any (fun a =>
      decide (5 ≤ a.rank) &&
        (match a.kind with
         | .load => m.conflicts 0 a.addr a.len true false
         | .store => m.conflicts 0 a.addr a.len false true
         | .accLoad => m.conflicts 1 a.addr a.len true false
         | .accStore => m.conflicts 1 a.addr a.len false true
         | _ => false)) ||
    s.mem.reqs.any fun r =>
      r.core == c && r.engine == 1 && r.kind != .rel &&
        m.conflicts 2 (r.va % 2 ^ 57) r.bytes (r.kind != .store) (r.kind != .load)

/-- Whether a hazard of an entry against an earlier access of its core is open now (R26, R27). In Timed an earlier
access is over once its sample or perform SC has passed; in Elastic an earlier entry conflicts until it is complete. -/
def State.hazard (s : State) (c : Nat) (e : Eng) (issue : Half) : Bool :=
  let sb := (s.core c).eng.sboard
  let mine (x : SbEntry) : Bool := x.eng == engCode e && x.issue == issue
  let earlier := sb.takeWhile fun x => !mine x
  (sb.filter mine).any fun m =>
    s.slotHazard c m ||
      earlier.any fun o => o.clash m &&
        (if s.timed c then
           match s.hazardEnd c o m with
           | some t => decide (s.sc c < t)
           | none => true
         else true)

/-- Take an entry out of its queue; the entry that becomes the head comes to it now (R21). -/
def State.dequeue (s : State) (c : Nat) (e : Eng) (issue : Half) : State :=
  s.modEng c fun k =>
    match (k.queue e).filter (fun x => x.issue != issue) with
    | [] => k.setQueue e []
    | x :: t => k.setQueue e ({ x with headAt := if (k.queue e).head?.any (fun y => y.issue == issue) then s.basin else x.headAt } :: t)

/-- Release an entry's scoreboard entries (R208). -/
def State.release (s : State) (c : Nat) (e : Eng) (issue : Half) : State :=
  s.modEng c fun k => { k with sboard := k.sboard.filter fun x => !(x.eng == engCode e && x.issue == issue) }

/-- An entry starts on a sequencer: its step count is fixed and the progress registers describe it. -/
def State.startEntry (s : State) (c : Nat) (q : Seqr) (ent : QEntry) : State :=
  let n := s.entrySteps c ent
  let sc := s.sc c
  let s := s.dequeue c q.eng ent.issue
  let x := s.seq c q
  let total := if q.eng = .weir then max n 1 else n
  let p := { x.prog with
    cause := 0, state := 1, resumed := false, flags := 0, issue := ent.issue, steps := 0, total := BitVec.ofNat 32 n, count := 0 }
  s.setSeq c q { x with
    prog := s.progFor c ent 0 p
    core := c
    active := x.active ++ [{ entry := ent, startSC := sc, started := 0, committed := 0, total, draws := [] }]
    nextFree := if n = 0 then x.nextFree
      else sc + stepOfs ent.form ent.block (n - 1) + stepPeriod ent.form ent.block
    lastWrite := max x.lastWrite (sc + s.entryLastWrite c ent)
    list := [], nanSeen := false, stopEv := none, refetchAt := none }

/-- Whether the previous entry of the sequencer leaves room for a Timed start now (R207, R318). -/
def State.seqFree (s : State) (c : Nat) (q : Seqr) : Bool :=
  let x := s.seq c q
  match q.eng with
  | .cx => decide (x.lastWrite ≤ s.sc c)
  | .weir => decide (x.lastWrite ≤ s.sc c)
  | _ => decide (x.nextFree ≤ s.sc c)

/-- A Timed start: exactly at the entry's start SC, or a schedule fault with SUBCAUSE 3. -/
def State.timedStart (s : State) (c : Nat) (q : Seqr) : State :=
  let queue := (s.core c).eng.queue q.eng
  let shared := q.eng == .cx || q.eng == .weir
  match queue.find? (fun x => x.start.toNat == s.sc c && (!shared || (x.seqr == q.idx &&
      s.seqUnit c x.form x.block x.rng == q.unit))) with
  | none => s
  | some ent =>
    let head := queue.head?.any fun y => y.issue == ent.issue
    if head && s.seqFree c q && !s.hazard c q.eng ent.issue then s.startEntry c q ent
    else
      let ev := { engEv q.eng ent.issue 0x08 3 0 with duesc := ent.start }
      ((s.dequeue c q.eng ent.issue).release c q.eng ent.issue).raise c ev

/-- Whether a core holds a sequencer index of Weir already (R312). -/
def State.holdsIndex (s : State) (c idx : Nat) : Bool :=
  (s.sharedSeqs c .weir).any fun x => (seqrOfKey x.1).idx == idx && !x.2.active.isEmpty

/-- Whether the head of a core's queue can start in Elastic on a sequencer. -/
def State.canStart (s : State) (c : Nat) (q : Seqr) : Option QEntry :=
  match ((s.core c).eng.queue q.eng).head? with
  | none => none
  | some ent =>
    let x := s.seq c q
    let fits := match q.eng with
      | .cx => q.unit == dieOf c
      | .weir => s.seqUnit c ent.form ent.block ent.rng == q.unit && !s.holdsIndex c q.idx
      | _ => true
    if fits && x.active.isEmpty && x.prog.state == 0 && decide (ent.start.toNat ≤ s.sc c) && !s.hazard c q.eng ent.issue then
      some ent
    else none

/-- MACRO_START. -/
def execMacroStart (q : Seqr) (s : State) : Host.Outcome State Fault Refusal :=
  let c := s.cur
  .next (if !s.live c then s
    else if s.timed c then s.timedStart c q
    else match s.canStart c q with
      | some ent => s.startEntry c q ent
      | none => s)

/-! ### Completion, stop, reissue, flush (R188, R206, R211, R234 to R236, R315, R316) -/

/-- The destination span of a copy whose destination is scratchpad (R327). -/
def State.refetchOf (s : State) (c : Nat) (a : ActiveEntry) : List Refetch :=
  let q := a.entry
  let b := q.block
  let ls := s.entryLevels c q
  if q.form = 0x10 ∧ (ceDst b).space = 0 ∧ totalOf ls ≠ 0 then
    let d := blkStrideRange Level.csd false ls
    let bits := ceBits (ceDfmt b)
    let lo := ((8 * (ceDst b).base : Nat) + d.1 * bits) / 8
    let hi := ((8 * (ceDst b).base : Nat) + d.2 * bits + bits + 7) / 8
    [{ block := b, rng := q.rng, base := lo.toNat, len := (hi - lo).toNat, draws := a.draws, redone := false }]
  else []

/-- Whether an entry is complete: every step has committed, and its last write has performed. -/
def State.entryDone (s : State) (c : Nat) (q : Seqr) (x : SeqState) (a : ActiveEntry) : Bool :=
  decide (a.total ≤ a.committed) && !x.steps.any (fun st => st.issue == a.entry.issue) && x.stopEv.isNone &&
    x.prog.state != 2 && x.prog.state != 3 && s.pendingBytes c q.eng a.entry.issue == 0

/-- ENTRY_COMPLETE: the oldest complete entry leaves its sequencer. CAUSE, RESUMED, FLAGS, COUNT and HSEL stay as they
are until the next start. -/
def State.entryComplete (s : State) (q : Seqr) : State :=
  let c := s.seqCore q
  let x := s.seq c q
  if !s.live c then s
  else
    match x.active.find? (s.entryDone c q x) with
    | none => s
    | some a =>
      let rest := x.active.filter fun y => y.entry.issue != a.entry.issue
      let p := if rest.isEmpty then
          { x.prog with state := 0, issue := 0, lidx := Vector.replicate 6 0, whalf := false, slot := 0, nexttag := 0, par := false
                        pass := 0, chunk := 0 }
        else x.prog
      let s := (s.setSeq c q { x with active := rest, prog := p }).release c q.eng a.entry.issue
      let t := s.refetchOf c a
      s.modEng c fun k => { k with refetch := (t ++ k.refetch).take 16 }

def execEntryComplete (q : Seqr) (s : State) : Host.Outcome State Fault Refusal := .next (s.entryComplete q)

/-- The destination bytes that the committed steps have not written (R316). -/
def State.remainBytes (s : State) (c : Nat) (a : ActiveEntry) (x : SeqState) : Nat :=
  let b := a.entry.block
  let n := x.prog.steps.toNat
  match formEng a.entry.form with
  | .ce =>
    if a.entry.form = 0x12 then 8192 * (ovCount b - n)
    else
      let left := totalOf (s.entryLevels c a.entry) - 256 * n
      (left * ceBits (ceDfmt b) + 7) / 8
  | .weir =>
    if a.entry.form = 0x18 then 16 + 8 * (wrOcap b - min x.prog.count.toNat (wrOcap b)) else 16 + 8 * wrK b
  | .cx =>
    ((s.entryPlan c a.entry).drop n).foldl (fun t st => if st.recv then t + clBytes (clEtype b) * st.count else t) 0
  | _ => 0

/-- Words 4 to 7 of the record of a stop: body 0x02 for MX and PX (R235), body 0x04 otherwise (R316). -/
def State.stopWords (s : State) (c : Nat) (q : Seqr) (x : SeqState) (a : ActiveEntry) (ev : Ev) : List Word :=
  let p := x.prog
  let n := p.steps.toNat
  let fv := if ev.cause = 0x08 ∨ ev.cause = 0x07 then 0 else ev.faddr.toNat % 2 ^ 57
  let w4 := n * 2 ^ 32 + a.entry.issue.toNat
  let l (i : Nat) : Nat := ((p.lidx[i]?).getD 0).toNat
  (match q.eng with
   | .mx => [w4, l 0 * 2 ^ 48 + l 1 * 2 ^ 32 + l 2 * 2 ^ 16 + l 3, l 4 * 2 ^ 48 + l 5 * 2 ^ 32 + (a.total - n) % 2 ^ 32, fv]
   | .px => [w4, l 0 * 2 ^ 48 + l 1 * 2 ^ 32 + l 2 * 2 ^ 16 + l 3, l 4 * 2 ^ 48 + l 5 * 2 ^ 32 + (a.total - n) % 2 ^ 32, fv]
   | e =>
     let total := p.total.toNat
     let unit := if e = Eng.ce then 0 else q.unit
     let idx := if e = Eng.ce then 0 else q.idx
     [w4, total * 2 ^ 32 + (total - n), unit * 2 ^ 60 + idx * 2 ^ 56 + s.remainBytes c a x % 2 ^ 48, fv]).map (BitVec.ofNat 64)

/-- Interrupt 17 with its event: FCOORD holds STEPS and ISSUE (R185, R234). -/
def State.pendStop (s : State) (c : Nat) (ev : Ev) (fcoord : Nat) : State :=
  s.modCc c fun k =>
    { k with mip := k.mip ||| 0x20000, pendMacro := k.pendMacro ++ [(ev, s.sc c, BitVec.ofNat 64 fcoord)] }

/-- ENTRY_REISSUE: the entry runs again from the step that the progress registers name (R236). -/
def State.entryReissue (s : State) (q : Seqr) : State :=
  let c := s.seqCore q
  let x := s.seq c q
  if x.prog.state ≠ 2 then s
  else
    match x.youngest with
    | none => s
    | some a =>
      let n := s.stepOf c a.entry x.prog
      let p := s.progFor c a.entry n { x.prog with state := 1, resumed := true }
      s.setSeq c q { x with prog := p, active := [{ a with started := n, committed := n, draws := a.draws.take n }], stopEv := none }

def execEntryReissue (q : Seqr) (s : State) : Host.Outcome State Fault Refusal := .next (s.entryReissue q)

/-- ENTRY_FLUSH: the stopped entry and every later entry of its queue go, with their scoreboard entries (R236). It zeroes
the registers that a completion zeroes, and ISSUE and SUBSTEP; COUNT and HSEL stay (DESIGN CHOICE, log 56). -/
def State.entryFlush (s : State) (q : Seqr) : State :=
  let c := s.seqCore q
  let x := s.seq c q
  if x.prog.state ≠ 2 then s
  else
    let gone := (x.active.map fun a => a.entry.issue) ++ ((s.core c).eng.queue q.eng).map fun e => e.issue
    let s := s.modEng c fun k => k.setQueue q.eng []
    let s := gone.foldl (fun s m => s.release c q.eng m) s
    s.setSeq c q { x with
      active := [], steps := [], list := [], nanSeen := false, stopEv := none, refetchAt := none
      prog := { x.prog with state := 0, issue := 0, lidx := Vector.replicate 6 0, whalf := false, slot := 0, nexttag := 0
                            par := false, pass := 0, chunk := 0 } }

def execEntryFlush (q : Seqr) (s : State) : Host.Outcome State Fault Refusal := .next (s.entryFlush q)

end Sys2Proof.Machine
end

