-- ==== Sys2Proof/Machine/Matrix.lean ====
section
/-! DEFINITION. The matrix engine's tile steps: reading tiles, scales, codebook weights and latches (R174, R212 to R218),
group sums (R180), the body of MMAT and MCONV with their epilogue (R225 to R227), MATTN (R228), and the writes of a
commit (R213, R232, R233) with the audit tap (R307, R308). -/

namespace Sys2Proof.Machine

/-! ### Tiles (R173, R174, R218) -/

/-- The physical address of row `r` whose unrotated address is `u` (R218). -/
def physRow (rot u r : Nat) : Nat := if rot = 0 then u else (u / 65536 + r % 2 ^ rot) % 16 * 65536 + u % 65536

/-- Parity of the bits of a number below 2^n. -/
def parityOf (x : Nat) : Nat → Bool
  | 0 => false
  | n + 1 => (x % 2 == 1) != parityOf (x / 2) n

/-- Weight `k` of GLC2 index `x` under codebook entry `book` (R174): its magnitude in half units, and bit 3 for the sign. -/
def glcCode (book x k : Nat) : Nat :=
  let mag := bitsOf book (3 * (if bitOf x 0 then 7 - k else k)) 3
  let neg := if k < 7 then bitOf x (k + 1) else parityOf (x / 2 % 128) 7 != bitOf book 31
  mag + (if neg then 8 else 0)

/-- `bits` bits at bit offset `o` from byte `a`. -/
def bitsAt (m : Sparse Byte) (a o bits : Nat) : Nat := bitsOf (readNat m (a + o / 8) ((o % 8 + bits + 7) / 8)) (o % 8) bits

/-- A GLC2 weight of an index word. -/
def Engines.weight (k : Engines) (x e : Nat) : Nat := glcCode ((sget k.codebook (x / 256)).getD 0).toNat x (e % 8)

/-- Element `e` of a tile row whose bytes begin at `a` of a store: its code. -/
def Engines.rowCode (k : Engines) (m : Sparse Byte) (fmt a e : Nat) : Nat :=
  if fmt = 8 then k.weight (readNat m (a + 2 * (e / 8)) 2) e else bitsAt m a (mxBits fmt * e) (mxBits fmt)

/-- An element as a sample keeps it: its code, and its scale byte in bits 16 upwards. -/
def sampleOf (code scale : Nat) : Nat := code + 65536 * scale

/-- The unrotated address of row `r` of a tile. -/
def rowAt (d : Desc) (a : Int) (r : Nat) : Nat := (a + (r * d.rpitch : Nat)).toNat

/-- The scale byte of element `e` of a row at unrotated address `u` (R218); 0x7F, the scale 1, where none applies. -/
def Engines.scaleOf (k : Engines) (d : Desc) (fmt u e : Nat) : Nat :=
  if d.scaled then
    (byteAt k.spad (scaleAddr d (mxBits fmt) (scaleBlk fmt) (8 * ((u : Int) - d.base) + (mxBits fmt * e : Nat))).toNat).toNat
  else 127

/-- Element `e` of row `r` of a tile at `a`. -/
def Engines.tileCode (k : Engines) (d : Desc) (fmt : Nat) (a : Int) (r e : Nat) : Nat :=
  let u := rowAt d a r
  sampleOf (k.rowCode k.spad fmt (physRow d.rot u r) e) (k.scaleOf d fmt u e)

/-- Elements `g·kg` to `g·kg + kg − 1` of `rows` rows. -/
def groupCodes (code : Nat → Nat → Nat) (rows kg g : Nat) : List Nat :=
  (List.range rows).flatMap fun r => (List.range kg).map fun j => code r (g * kg + j)

/-- The first poisoned scratchpad word among the bytes and scales of a group of a tile (R295). -/
def Engines.tilePoison (k : Engines) (d : Desc) (fmt : Nat) (a : Int) (rows kg g : Nat) : Option Nat :=
  if k.spadPoison.isEmpty then none
  else
    let bits := mxBits fmt
    (List.range rows).findSome? fun r =>
      let u := rowAt d a r
      match k.spadPoisoned (physRow d.rot u r + bits * kg * g / 8) ((bits * kg + 7) / 8) with
      | some w => some w
      | none =>
        if d.scaled then
          (List.range kg).findSome? fun j =>
            k.spadPoisoned (scaleAddr d bits (scaleBlk fmt) (8 * ((u : Int) - d.base) + (bits * (g * kg + j) : Nat))).toNat 1
        else none

/-- The value of a sampled element (R165, R169 to R172, R174, R218). -/
def mxValue (fmt v : Nat) : FVal × FlagSet :=
  let code := v % 65536
  let sc := v / 65536
  match fmt with
  | 5 => (fOfInt (sext code 8), 0)
  | 6 => (decodeF fmtBF16 code, 0)
  | 7 => (decodeF fmtF16 code, 0)
  | 8 =>
    if sc = 255 then (.nan, 0)
    else if code % 8 = 0 then (.fin false 0 0, 0)
    else (.fin (8 ≤ code) (code % 8) ((sc : Int) - 128), 0)
  | f => narrowValue (f + 1) (if sc = 255 then none else some ((sc : Int) - 127)) code

/-! ### Latches (R214) -/

/-- The element index of a tile row's element 0 within its stored row, modulo the scale block. -/
def latchPhase (d : Desc) (fmt : Nat) (a : Int) : Nat :=
  ((8 * (a - d.base)) % (8 * d.rpitch : Nat)).toNat / mxBits fmt % scaleBlk fmt

/-- Element `e` of row `r` of a latched tile of rows of `w` elements. -/
def Engines.latchCode (k : Engines) (l : Latch) (scaled : Bool) (fmt w r e : Nat) : Nat :=
  sampleOf (k.rowCode l.bytes fmt (r * rowBytes w fmt) e)
    (if scaled then (byteAt l.scales (32 * r + (l.phase + e) / scaleBlk fmt)).toNat else 127)

/-- Byte `b` at place `o` of a latch: places 0 to 24,575 are its bytes, the next 2,048 its scales, then the phase. -/
def latchPut (l : Latch) (x : Nat) : Latch :=
  let o := x / 256
  let b := BitVec.ofNat 8 x
  if o < 24576 then { l with bytes := setByte l.bytes o b }
  else if o < 26624 then { l with scales := setByte l.scales (o - 24576) b }
  else { l with phase := x % 256 }

/-- What group `g` of an LMODE 1 step writes into its latch, as 256 × place + byte. A scale byte goes with the group of
its first element in the tile; the phase and the unused scale bytes go with group 0. -/
def Engines.latchWrites (k : Engines) (d : Desc) (fmt w rows kg g : Nat) (a : Int) : List Nat :=
  let bits := mxBits fmt
  let gb := bits * kg / 8
  let blk := scaleBlk fmt
  let phase := if d.scaled then latchPhase d fmt a else 0
  let nb := if d.scaled then (phase + w + blk - 1) / blk else 0
  (if g = 0 then [26624 * 256 + phase] else []) ++
    (List.range rows).flatMap fun r =>
      let u := rowAt d a r
      let p := physRow d.rot u r + g * gb
      ((List.range gb).map fun i => (r * rowBytes w fmt + g * gb + i) * 256 + (byteAt k.spad (p + i)).toNat) ++
        (List.range 32).filterMap fun j =>
          let e := j * blk - phase
          if j < nb then
            (if e / kg = g then some ((24576 + 32 * r + j) * 256 + k.scaleOf d fmt u e) else none)
          else if g = 0 then some ((24576 + 32 * r + j) * 256) else none

def Engines.applyLatch (k : Engines) (n : Nat) (ws : List Nat) : Engines :=
  { k with latches := k.latches.setIfInBounds n (ws.foldl latchPut ((k.latches[n]?).getD ⟨[], [], 0⟩)) }

/-! ### Operands of a step -/

/-- Everything a sample point of a step needs. -/
structure MxCtx where
  form : Nat
  b : Block
  ls : List Level
  n : Nat
  count : Nat

def MxCtx.par (x : MxCtx) : Bool := x.count % 2 == 1
def MxCtx.w (x : MxCtx) : Nat := mxWidth x.form x.b
def MxCtx.kg (x : MxCtx) : Nat := x.w / 8
def MxCtx.aAddr (x : MxCtx) : Int := tileAddr (descA x.b) Level.sa x.ls x.n x.par
def MxCtx.bAddr (x : MxCtx) : Int := tileAddr (descB x.b) Level.sb x.ls x.n x.par
def MxCtx.vAddr (x : MxCtx) : Int := tileAddr (descV x.b) Level.sb x.ls x.n x.par
def MxCtx.slot (x : MxCtx) : Nat := (mxSlot x.b x.ls x.n).toNat
def MxCtx.first (x : MxCtx) : Bool := isFirst x.ls x.n
def MxCtx.last (x : MxCtx) : Bool := isLast x.ls x.n
def MxCtx.ev (x : MxCtx) : Nat := (evAddr x.b x.ls x.n).toNat
def MxCtx.aLatched (x : MxCtx) : Bool := x.form == 2 && mxLmode x.b == 2
def MxCtx.bLatched (x : MxCtx) : Bool := x.form == 1 && mxLmode x.b == 2

def Engines.latch (k : Engines) (n : Nat) : Latch := (k.latches[n]?).getD ⟨[], [], 0⟩

/-- Element `e` of pixel column `j` of an MCONV step's B tile: its code, and the byte it comes from (R227). -/
def Engines.convCode (k : Engines) (x : MxCtx) (j e : Nat) : Nat × Option Nat :=
  let cv := convOf x.b
  let bits := mxBits (mxBfmt x.b)
  let p : Int := 64 * blkStride Level.nbi true x.ls x.n + (j : Nat)
  let q : Int := (x.w : Nat) * blkStride Level.kbi true x.ls x.n + (e : Nat)
  let kk : Int := (cv.kh * cv.kw * cv.ch : Nat)
  if p ≥ (cv.oh * cv.ow : Nat) ∨ q ≥ kk then (sampleOf 0 127, none)
  else
    let ih : Int := p / (cv.ow : Int) * (cv.sh : Int) - (cv.pt : Int) + q / (cv.kw * cv.ch : Nat) * (cv.dh : Int)
    let iw : Int := p % (cv.ow : Int) * (cv.sw : Int) - (cv.pl : Int) + q / (cv.ch : Int) % (cv.kw : Int) * (cv.dw : Int)
    if ih < 0 ∨ ih ≥ cv.h ∨ iw < 0 ∨ iw ≥ cv.w then (sampleOf 0 127, none)
    else
      let ih := ih.toNat
      let a := physRow cv.rot (cv.ibase + ih * cv.irpitch) ih
      let o := (iw.toNat * cv.ch + (q % (cv.ch : Int)).toNat) * bits
      (sampleOf (bitsAt k.spad a o bits) 127, some (a + o / 8))

/-- Group `g` of A (B) of an MMAT or MCONV step. -/
def Engines.groupA (k : Engines) (x : MxCtx) (g : Nat) : List Nat :=
  let d := descA x.b
  let f := mxAfmt x.b
  if x.aLatched then groupCodes (k.latchCode (k.latch (mxLatch x.b)) d.scaled f x.w) 32 x.kg g
  else groupCodes (k.tileCode d f x.aAddr) 32 x.kg g

def Engines.groupB (k : Engines) (x : MxCtx) (g : Nat) : List Nat :=
  let d := descB x.b
  let f := mxBfmt x.b
  if x.form = 2 then groupCodes (fun j e => (k.convCode x j e).1) 64 x.kg g
  else if x.bLatched then groupCodes (k.latchCode (k.latch (mxLatch x.b)) d.scaled f x.w) 64 x.kg g
  else groupCodes (k.tileCode d f x.bAddr) 64 x.kg g

/-- The first poisoned word that a tile reads, and whether its operand is PHASED. -/
def Engines.descPoison (k : Engines) (d : Desc) (fmt : Nat) (a : Int) (rows kg g : Nat) : Option (Nat × Bool) :=
  (k.tilePoison d fmt a rows kg g).map fun w => (w, d.phased)

/-- The first poisoned word that group `g` of a step reads, and whether its operand is PHASED. -/
def Engines.groupPoison (k : Engines) (x : MxCtx) (g : Nat) : Option (Nat × Bool) :=
  if k.spadPoison.isEmpty then none
  else
    let a := if x.aLatched then none else k.descPoison (descA x.b) (mxAfmt x.b) x.aAddr 32 x.kg g
    let b := if x.form = 2 then
        (List.range 64).findSome? fun j => (List.range x.kg).findSome? fun e =>
          match (k.convCode x j (g * x.kg + e)).2 with
          | some y => (k.spadPoisoned y 1).map fun w => (w, false)
          | none => none
      else if x.bLatched then none
      else k.descPoison (descB x.b) (mxBfmt x.b) x.bAddr 64 x.kg g
    match a with
    | some w => some w
    | none => b

/-- `n` f32 words from a scratchpad address. -/
def Engines.spadWords (k : Engines) (a n : Nat) : List Nat := (List.range n).map fun i => readNat k.spad (a + 4 * i) 4

/-- The 2,048 words of the committed copy of a slot (R212). -/
def Engines.slotWords (k : Engines) (b : Nat) : List Nat :=
  (List.range 2048).map fun i => readNat k.accum (accPhys (k.half b) b (4 * i)) 4

/-- The accumulator that a step begins with (R225); the bias of feature c, or r for MCONV, under INIT 2. -/
def Engines.initWords (k : Engines) (x : MxCtx) : List Nat :=
  if !x.first || mxInit x.b == 1 then k.slotWords x.slot
  else if mxInit x.b = 2 then
    let bias := k.spadWords (x.ev + 256) 64
    (List.range 2048).map fun i => bias.getD (if x.form = 2 then i / 64 else i % 64) 0
  else List.replicate 2048 0

/-! ### Group sums (R180) -/

/-- The sum of one k-group's products, rounded once, with its flags. -/
def groupSum (fz : Bool) (xs : List ((FVal × FlagSet) × (FVal × FlagSet))) : Nat × FlagSet :=
  let ps := xs.map fun p => fMul p.1.1 p.2.1
  let inv := ps.any (·.2) || infClash (ps.map (·.1))
  let v := if inv then .nan else match ps with
    | [] => .fin false 0 0
    | p :: t => t.foldl (fun a q => (fAdd false a q.1).1) p.1
  let (g, fl) := roundF fmtF32 fz .rne 0 v
  (g, xs.foldl (fun a p => a ||| p.1.2 ||| p.2.2) fl ||| (if inv then flagNV else 0))

/-- An f32 sum and product, each rounded by RNE. -/
def f32Add (fz : Bool) (a b : Nat) : Nat × FlagSet := elAdd ⟨8, fz, .rne, false⟩ 0 a b

def f32Mul (fz : Bool) (a b : Nat) : Nat × FlagSet := roundV ⟨8, fz, .rne, false⟩ 0 (fMul (decodeF fmtF32 a) (decodeF fmtF32 b))

def f32Sub (fz : Bool) (a b : Nat) : Nat × FlagSet :=
  roundV ⟨8, fz, .rne, false⟩ 0 (fAdd false (decodeF fmtF32 a) (fNeg (decodeF fmtF32 b)))

/-- An accumulator after the group sums of two rows, group by group. -/
def accumulate (fz : Bool) (acc : Nat) (gs : List (List ((FVal × FlagSet) × (FVal × FlagSet)))) : Nat × FlagSet :=
  gs.foldl
    (fun a g =>
      let s := groupSum fz g
      let t := f32Add fz a.1 s.1
      (t.1, a.2 ||| s.2 ||| t.2))
    (acc, 0)

/-- The groups of row `r` of an operand: `groups` holds the sampled groups, of `kg` elements a row. -/
def rowGroups (fmt kg r : Nat) (groups : List (List Nat)) : List (List (FVal × FlagSet)) :=
  groups.map fun g => ((g.drop (r * kg)).take kg).map (mxValue fmt)

/-- Every element of a 32 × 64 block: the accumulator of (row, col) with the flags. -/
def blockOf (f : Nat → Nat → Nat × FlagSet) : List (Nat × FlagSet) :=
  (List.range 32).flatMap fun r => (List.range 64).map fun c => f r c

/-- The result of an MMAT or MCONV step from its samples: groups 0 to 7 of A, then of B, then the accumulator. -/
def mxResult (form : Nat) (b : Block) (fz : Bool) (samples : Sparse (List Nat)) : List (Nat × FlagSet) :=
  let sample (i : Nat) : List Nat := (sget samples i).getD []
  let kg := mxWidth form b / 8
  let as := (List.range 32).map fun r => rowGroups (mxAfmt b) kg r ((List.range 8).map sample)
  let bs := (List.range 64).map fun c => rowGroups (mxBfmt b) kg c ((List.range 8).map fun g => sample (8 + g))
  let init := sample 16
  blockOf fun r c =>
    accumulate fz (init.getD (64 * r + c) 0) (((as.getD r []).zip (bs.getD c [])).map fun p => p.1.zip p.2)

/-! ### The epilogue (R225) -/

/-- v of the epilogue: scale, bias and activation. -/
def epiValue (b : Block) (fz : Bool) (acc sc bi : Nat) : Nat × FlagSet :=
  let (p, fl) := roundV ⟨8, fz, .rne, false⟩ 0 (fFma false (decodeF fmtF32 acc) (decodeF fmtF32 sc) (decodeF fmtF32 bi))
  match mxAct b with
  | 1 => (if (decodeF fmtF32 p).neg then 0 else p, fl)
  | 2 => let y := sfElement .sigmoid fz p; (y.1, fl ||| y.2)
  | 3 => let y := sfElement .tanh fz p; (y.1, fl ||| y.2)
  | _ => (p, fl)

/-- An f32 value as an element of DFMT. -/
def dOut (dfmt : Nat) (fz : Bool) (m : Rnd) (r p : Nat) : Nat × FlagSet :=
  let v := decodeF fmtF32 p
  match dfmt with
  | 1 => roundF fmtF32 fz m r v
  | 2 => roundF fmtBF16 fz m r v
  | 3 => roundF fmtF16 fz m r v
  | 4 => cvtNarrow 1 fz m r (some 0) 8 p
  | 5 => cvtNarrow 2 fz m r (some 0) 8 p
  | _ =>
    match v with
    | .nan => (0, flagNV)
    | .inf neg => (if neg then 0x80 else 0x7F, flagSAT)
    | .fin neg mag e =>
      let (n, inexact) := roundInt m r neg mag e
      let q := max (-128) (min 127 n)
      (wrapInt q 8, (if q ≠ n then flagSAT else 0) ||| (if inexact then flagNX else 0))

/-- A row of D as it is written: its place in the order of R232, its unrotated address, the index that rotates it, and
its bytes. -/
structure DRow where
  k : Nat
  u : Int
  idx : Nat
  bytes : List Byte

/-- The elements of D of a step as (row, column) of the block, in the order of their draws; and how they lie in rows. -/
def dElems (x : MxCtx) : List (Nat × Nat) :=
  let cols := if x.form = 2 then (convPixels x.b x.ls x.n).map (·.1) else List.range (mxNV x.b)
  (List.range (mxMV x.b)).flatMap fun r => cols.map fun c => (r, c)

/-- The rows of D from its elements. -/
def dRows (x : MxCtx) (els : List ((Nat × Nat) × Nat)) : List DRow :=
  let d := dAddr x.b x.ls x.n
  let sz := mxOutBytes (mxDfmt x.b)
  let bytesFor (p : (Nat × Nat) → Bool) : List Byte := (els.filter fun e => p e.1).flatMap fun e => bytesOf e.2 sz
  if x.form = 2 then
    (convPixels x.b x.ls x.n).map fun jp =>
      { k := jp.1 % 32, u := d + jp.2 * dPitch x.b, idx := (jp.2 % 16).toNat, bytes := bytesFor fun e => e.2 == jp.1 }
  else
    (List.range (mxMV x.b)).map fun r =>
      { k := r, u := d + (r * dPitch x.b : Nat), idx := r, bytes := bytesFor fun e => e.1 == r }

/-- The values that D takes before they are converted: the epilogue of MMAT and MCONV, and O / l for MATTN (R228). -/
def mxFinal (x : MxCtx) (fz : Bool) (words ml ev : List Nat) (r c : Nat) : Nat × FlagSet :=
  let a := words.getD (64 * r + c) 0
  if x.form = 3 then
    let l := ml.getD (32 + r) 0
    if fEq (decodeF fmtF32 l) (.fin false 0 0) then (0, 0)
    else
      let inv := match decodeF fmtF32 a, decodeF fmtF32 l with
        | .inf _, .inf _ => true
        | _, _ => false
      roundV ⟨8, fz, .rne, false⟩ 0 (fDiv (decodeF fmtF32 a) (decodeF fmtF32 l), inv)
  else
    let f := if x.form = 2 then r else c
    epiValue x.b fz a (if mxFscale x.b then ev.getD f 0 else mxGscale x.b) (if mxBias x.b then ev.getD (64 + f) 0 else 0)

/-- The rows of D with the flags and the state of SRGM after their draws. -/
def mxD (x : MxCtx) (fz : Bool) (srg : Half) (words ml ev : List Nat) : List DRow × FlagSet × Half :=
  let m := rndOf (BitVec.ofNat 3 (mxRnd x.b))
  let els := dElems x
  let (ys, g) := mapDraw (m == .sr)
    (fun r e =>
      let v := mxFinal x fz words ml ev e.1 e.2
      let y := dOut (mxDfmt x.b) fz m r v.1
      (y.1, v.2 ||| y.2)) srg els
  (dRows x (els.zip (ys.map (·.1))), joinFlags ys, g)

/-! ### MATTN (R228) -/

/-- Elements of a k-group of MATTN's 64. -/
def attnKg (fmt : Nat) : Nat := if fmt ≤ 1 then 32 else 16

/-- The 64 elements of row `r` of a sampled 64-wide tile, cut into k-groups. -/
def attnRow (fmt kg r : Nat) (xs : List Nat) : List (List (FVal × FlagSet)) :=
  (List.range (64 / kg)).map fun g => ((xs.drop (64 * r + g * kg)).take kg).map (mxValue fmt)

/-- p converted to BFMT with RNE, and its value. -/
def attnProb (fmt : Nat) (fz : Bool) (p : Nat) : FVal × FlagSet :=
  let y := match fmt with
    | 0 => cvtNarrow 1 fz .rne 0 (some 0) 8 p
    | 1 => cvtNarrow 2 fz .rne 0 (some 0) 8 p
    | 6 => roundF fmtBF16 fz .rne 0 (decodeF fmtF32 p)
    | _ => roundF fmtF16 fz .rne 0 (decodeF fmtF32 p)
  ((mxValue fmt (sampleOf y.1 127)).1, y.2)

def negInf : Nat := 0xFF800000

/-- A row of scores with the mask applied, of which `bits` holds the bytes. -/
def attnScores (x : MxCtx) (fz : Bool) (st : StepState) (bits : List Nat) (r : Nat) : List (Nat × FlagSet) :=
  let kgA := attnKg (mxAfmt x.b)
  let q := attnRow (mxAfmt x.b) kgA r (st.sample 0)
  let qi := linIndex (fun l => !l.kred) x.ls x.n
  let ji := linIndex Level.kred x.ls x.n
  let qpos0 := bf x.b 11 32 32
  let kpos0 := bf x.b 11 0 32
  (List.range 64).map fun c =>
    let k := attnRow (mxBfmt x.b) kgA c (st.sample 8)
    let s := accumulate fz 0 ((q.zip k).map fun p => p.1.zip p.2)
    let t := f32Mul fz s.1 (mxGscale x.b)
    let qp := qpos0 + 32 * qi + r
    let kp := kpos0 + 64 * ji + c
    let hide := decide (kp ≥ kpos0 + mxKlen x.b) || (mxMask x.b == 1 && decide (kp > qp)) ||
      (mxMask x.b == 2 && !bitOf (bits.getD (8 * r + c / 8) 0) (c % 8))
    (if hide then negInf else t.1, s.2 ||| t.2)

/-- A row of O with mx, l and p after the step. -/
structure AttnRow where
  o : List Nat
  p : List Nat
  mx : Nat
  l : Nat
  fl : FlagSet

def attnStep (x : MxCtx) (fz : Bool) (st : StepState) (r : Nat) : AttnRow :=
  let sc := attnScores x fz st (st.sample 18) r
  let ml := st.sample 21
  let mx := ml.getD r 0
  let l := ml.getD (32 + r) 0
  let mn := sc.foldl (fun a e => elMax 8 a e.1) mx
  let ex (v : Nat) : Nat × FlagSet :=
    let d := f32Sub fz v mn
    let y := sfElement .exp2 fz d.1
    (y.1, d.2 ||| y.2)
  let a := if mn = negInf then (0x3F800000, 0) else ex mx
  let ps := if mn = negInf then sc.map (fun _ => (0, (0 : FlagSet))) else sc.map fun e => ex e.1
  let t := redTree ⟨8, fz, .rne, false⟩ 0 7 0 0 (ps.map (·.1))
  let al := f32Mul fz a.1 l
  let l' := f32Add fz al.1 (t.1.getD 0 0)
  let kg := attnKg (mxBfmt x.b)
  let pv := ps.map fun p => attnProb (mxBfmt x.b) fz p.1
  let pg := (List.range (64 / kg)).map fun g => (pv.drop (g * kg)).take kg
  let os := (List.range 64).map fun c =>
    let o := f32Mul fz a.1 ((st.sample 16).getD (64 * r + c) 0)
    let v := attnRow (mxBfmt x.b) kg c (st.sample 20)
    let y := accumulate fz o.1 ((pg.zip v).map fun p => p.1.zip p.2)
    (y.1, o.2 ||| y.2)
  { o := os.map (·.1), p := ps.map (·.1), mx := mn, l := l'.1
    fl := joinFlags sc ||| a.2 ||| joinFlags ps ||| t.2.1 ||| al.2 ||| l'.2 ||| joinFlags os }

/-- O, and mx with l, of every row, with the flags. -/
def attnResult (x : MxCtx) (fz : Bool) (st : StepState) : List Nat × List Nat × FlagSet :=
  let rows := (List.range 32).map (attnStep x fz st)
  (rows.flatMap (·.o), rows.map (·.mx) ++ rows.map (·.l), rows.foldl (fun a r => a ||| r.fl) 0)

/-! ### Sample points (R232) -/

/-- The sample points of a step, as offsets from its start. -/
def mxPoints (form : Nat) (b : Block) : List Nat :=
  if form = 3 then [0, 128, 256]
  else ((List.range 8).map fun g => 32 * g).takeWhile (· ≤ mxFill b) ++ [mxFill b] ++
    (((List.range 8).map fun g => 32 * g).dropWhile (· ≤ mxFill b)) ++ [217 + mxFill b]

/-- What the point at an offset samples: group g for 32g, 8 for the accumulator, 9 for the epilogue's vectors. -/
def mxPointKind (form : Nat) (b : Block) (o : Nat) : Nat :=
  if form = 3 then o / 128 else if o = mxFill b then 8 else if o = 217 + mxFill b then 9 else o / 32

/-- Take a sample point of a step. -/
def Engines.mxTake (k : Engines) (x : MxCtx) (i : Nat) (st : StepState) : StepState :=
  if x.form = 3 then
    match i with
    | 0 =>
      let s0 := st.put 0 (groupCodes (k.tileCode (descA x.b) (mxAfmt x.b) x.aAddr) 32 64 0)
      s0.put 8 (groupCodes (k.tileCode (descB x.b) (mxBfmt x.b) x.bAddr) 64 64 0)
    | 1 => if mxMask x.b = 2 then st.put 18 ((readBytes k.spad x.ev 256).map BitVec.toNat) else st
    | _ =>
      let st := st.put 20 (groupCodes (k.tileCode (descV x.b) (mxBfmt x.b) x.vAddr) 64 64 0)
      if x.first then (st.put 16 (List.replicate 2048 0)).put 21 (List.replicate 32 negInf ++ List.replicate 32 0)
      else (st.put 16 (k.slotWords x.slot)).put 21 ((k.slotWords (x.slot + 1)).take 64)
  else if i < 8 then (st.put i (k.groupA x i)).put (8 + i) (k.groupB x i)
  else if i = 8 then st.put 16 (k.initWords x)
  else if mxWritesD x.b x.ls x.n then st.put 17 (k.spadWords x.ev 128)
  else st

/-- The poisoned word that a sample point meets, and whether a PHASED operand, which reaches a phase buffer, meets it
(R248, R295). -/
def Engines.mxPoison (k : Engines) (x : MxCtx) (i : Nat) : Option (Nat × Bool) :=
  let plain (a n : Nat) : Option (Nat × Bool) := (k.spadPoisoned a n).map fun w => (w, false)
  if k.spadPoison.isEmpty then none
  else if x.form = 3 then
    match i with
    | 0 =>
      match k.descPoison (descA x.b) (mxAfmt x.b) x.aAddr 32 64 0 with
      | some w => some w
      | none => k.descPoison (descB x.b) (mxBfmt x.b) x.bAddr 64 64 0
    | 1 => if mxMask x.b = 2 then plain x.ev 256 else none
    | _ => k.descPoison (descV x.b) (mxBfmt x.b) x.vAddr 64 64 0
  else if i < 8 then k.groupPoison x i
  else if i = 8 then
    (if x.first && mxInit x.b == 2 then plain (x.ev + 256) 256 else none)
  else if mxWritesD x.b x.ls x.n then
    match (if mxFscale x.b then plain x.ev 256 else none) with
    | some w => some w
    | none => if mxBias x.b then plain (x.ev + 256) 256 else none
  else none

/-- The tile whose sequence tag a sample point checks and finds wrong (R226): its address. -/
def Engines.tagFault (k : Engines) (x : MxCtx) (resumed : Bool) (i : Nat) : Option Nat :=
  let check (d : Desc) (a : Int) : Option Nat :=
    let want := mxTagBase x.b + (if d.phased then x.count else 0)
    if d.tagchk && (d.phased || (x.n == 0 && !resumed)) && k.tagAt a.toNat != BitVec.ofNat 16 want then some a.toNat else none
  let a := if x.aLatched then none else check (descA x.b) x.aAddr
  let b := if x.form = 2 || x.bLatched then none else check (descB x.b) x.bAddr
  match x.form, i with
  | 3, 2 => check (descV x.b) x.vAddr
  | _, 0 => (match a with
    | some y => some y
    | none => b)
  | _, _ => none

/-! ### Taking the points of a step -/

def State.mxCtx (s : State) (c : Nat) (x : SeqState) (a : ActiveEntry) (n : Nat) : MxCtx :=
  { form := a.entry.form, b := a.entry.block, ls := s.entryLevels c a.entry, n, count := x.countOf a n }

/-- Whether a copy of the refetch table filled a scratchpad byte. -/
def Refetch.holds (r : Refetch) (w : Nat) : Bool := r.base ≤ w && w < r.base + r.len

/-- The latest copy that filled a scratchpad byte (R327). -/
def Engines.refetchable (k : Engines) (w : Nat) : Option Refetch := k.refetch.find? fun r => r.holds w

/-- Poison met by step `n` of an MX or PX entry: in Elastic a phase cancellation where the bytes may lie in a phase
buffer, and a copy filled them whose buffer has not been refetched before (R56, R237, R302); otherwise the response of
R46. -/
def State.tilePoisoned (s : State) (c : Nat) (q : Seqr) (issue : Half) (n w : Nat) (phase : Bool) : State :=
  let ev := (engEv q.eng issue 0x0D 0 w).poisoned 2 w
  if !s.timed c && phase && ((s.core c).eng.refetchable w).any (fun r => !r.redone) then
    ((s.dropSteps c q issue n).modSeq c q fun x =>
      { x with prog := { x.prog with state := 3 }, refetchAt := some w }).raiseAs c ev 3
  else s.engEvent c q n ev

/-- The sample points of a matrix step that are due, in order: tags are checked, poison is met, data is kept. In Timed
an LMODE 1 step writes its latch group by group; in Elastic at its commit (R214, R232). -/
def State.mxSampleDue (s : State) (c : Nat) (q : Seqr) (issue : Half) (n : Nat) : Nat → State
  | 0 => s
  | fuel + 1 =>
    let x := s.seq c q
    match s.stepAt c q issue n, x.entry issue with
    | some st, some a =>
      let pts := mxPoints a.entry.form a.entry.block
      match pts[st.stage]? with
      | none => s
      | some o =>
        if st.t0 + o > s.sc c then s
        else
          let k := (s.core c).eng
          let y := s.mxCtx c x a n
          let i := mxPointKind y.form y.b o
          let s := match k.mxPoison y i with
            | some w => s.tilePoisoned c q issue n w.1 w.2
            | none => s
          match k.tagFault y x.prog.resumed i with
          | some w =>
            let ev := { engEv q.eng issue 0x08 4 w with duesc := BitVec.ofNat 64 (s.sc c) }
            let s := if s.timed c || (s.stepAt c q issue n).isSome then s.engEvent c q n ev else s
            (s.modStep c q issue n fun st => { k.mxTake y i st with stage := st.stage + 1 }).mxSampleDue c q issue n fuel
          | none =>
            let ws := if mxLmode y.b = 1 ∧ i < 8 ∧ y.form ≠ 3 then
                (if y.form = 2 then k.latchWrites (descA y.b) (mxAfmt y.b) y.w 32 y.kg i y.aAddr
                 else k.latchWrites (descB y.b) (mxBfmt y.b) y.w 64 y.kg i y.bAddr)
              else []
            let s := if s.timed c && (s.stepAt c q issue n).isSome then s.modEng c fun k => k.applyLatch (mxLatch y.b) ws else s
            (s.modStep c q issue n fun st =>
              { (k.mxTake y i st).put (40 + i) ws with stage := st.stage + 1 }).mxSampleDue c q issue n fuel
    | _, _ => s

/-! ### The commit of a step (R213, R225, R232, R233) -/

/-- The step's results are ready: D is converted and its writes go out. In Timed row k performs at E + 8 + k in
scratchpad, or is issued then and performs 512 later in memory. -/
def State.mxWrites (s : State) (c : Nat) (q : Seqr) (a : ActiveEntry) (st : StepState) : State :=
  let x := s.mxCtx c (s.seq c q) a st.n
  let fz := s.fz c
  let timed := s.timed c
  let sc := s.sc c
  let (words, ml, fl) := if x.form = 3 then attnResult x fz st
    else let r := mxResult x.form x.b fz st.samples; (r.map (·.1), [], joinFlags r)
  let words := match words with
    | w :: ws => ((BitVec.ofNat 32 w) ^^^ (s.core c).eng.mxUpset).toNat :: ws
    | [] => []
  let s := s.modEng c fun k => { k with mxUpset := 0 }
  let srg := (s.core c).cc.srgm
  let (rows, fl2, srg') := if mxWritesD x.b x.ls x.n then mxD x fz srg words ml (st.sample 17) else ([], 0, srg)
  let s := s.modStep c q st.issue st.n fun st =>
    { ((st.put 30 words).put 31 ml).put 97 [srg.toNat] with flags := fl ||| fl2, stage := st.stage + 1 }
  let s := s.modCc c fun k => { k with srgm := srg' }
  let ask := s.askOf c q a st.n
  let s := rows.foldl
    (fun s r =>
      if (s.stepAt c q st.issue st.n).isNone then s
      else if dMem x.b then
        let at_ := if timed then sc + 8 + r.k else sc
        s.engWrite ask (r.u.toNat % 2 ^ 57) r.bytes at_ (at_ + 512)
      else s.engStore ask .store (physRow (dRot x.b) r.u.toNat r.idx) r.bytes (if timed then sc + 8 + r.k else sc))
    s
  if x.last && mxDtag x.b then
    let tag := BitVec.ofNat 16 (mxTagBase x.b + x.count)
    s.engStore ask .tagStore (dAddr x.b x.ls x.n).toNat [] (if timed then sc + 8 + lastRow x.form x.b else sc) tag
  else s

/-- Write the working copy of a slot and make it the committed one (R213). -/
def Engines.commitSlot (k : Engines) (b : Nat) (words : List Nat) : Engines :=
  let h := 1 - k.half b
  let p := k.mx.prog
  { k with
    accum := writeBytes k.accum (accPhys h b 0) (words.flatMap fun w => bytesOf w 4)
    mx := { k.mx with prog := { p with hsel := p.hsel ^^^ ((1 : BitVec 16) <<< b) } } }

/-- The audit tap of a committed MMAT or MCONV step: what its samples gave, and its result (R307, R308). No step is selected
where the die's audit engine has failed, for its audits have stopped (R310). -/
def State.auditTap (s : State) (c : Nat) (x : MxCtx) (st : StepState) (words : List Nat) : State :=
  let k := s.core c
  let w0 := s.partWord (s.partOf c) 0
  let audk := bitsOf w0 15 5
  let failed := (sget s.audit (dieOf c)).any (·.fail)
  let sel := audk < 21 ∧ (k.audcnt.toNat + k.audofs.toNat) % 2 ^ audk = 0 ∧ !failed
  let image : AuditImage :=
    { core := c, dom := k.dom, audcnt := k.audcnt, issue := st.issue, form := x.form, block := x.b, fz := s.fz c
      inputs := st.samples.filter fun e => decide (e.1 ≤ 16), result := words.map (BitVec.ofNat 32) }
  s.setCore c { k with
    audcnt := k.audcnt + 1
    audskip := if sel ∧ k.staging.isSome then satInc k.audskip else k.audskip
    staging := if sel ∧ k.staging.isNone then some image else k.staging }

/-- The commit point of a matrix step. -/
def State.mxCommit (s : State) (c : Nat) (q : Seqr) (a : ActiveEntry) (st : StepState) : State :=
  let x := s.mxCtx c (s.seq c q) a st.n
  let words := st.sample 30
  let s := s.modEng c fun k =>
    let k := k.commitSlot x.slot words
    if x.form = 3 then k.commitSlot (x.slot + 1) (st.sample 31 ++ List.replicate 1984 0) else k
  let s := if s.timed c then s
    else s.modEng c fun k =>
      if mxLmode x.b = 1 ∧ x.form ≠ 3 then
        (List.range 8).foldl (fun k g => k.applyLatch (mxLatch x.b) (st.sample (40 + g))) k else k
  let s := if x.form = 3 then s else s.auditTap c x st words
  (s.commitStep c q st).count c 8 1

/-- A matrix step at or after its commit point. -/
def State.mxFinish (s : State) (c : Nat) (q : Seqr) (a : ActiveEntry) (st : StepState) : State :=
  let n := (mxPoints a.entry.form a.entry.block).length
  if st.stage < n ∨ s.sc c < st.t0 + commitOfs a.entry.form a.entry.block st.n then s
  else
    let s := if st.stage = n then s.mxWrites c q a st else s
    match s.stepAt c q st.issue st.n with
    | none => s
    | some st => if s.timed c || s.writesOut c q st.issue st.n then s.mxCommit c q a st else s

end Sys2Proof.Machine
end

