-- ==== Sys2Proof/Machine/Permute.lean ====
section
/-! DEFINITION. The permute engine's tile steps: MSORT (R230), MGATH and MSCAT (R231) with their timing (R232); and the
events TILE_STEP_START and TILE_STEP_COMMIT for both tile engines. -/

namespace Sys2Proof.Machine

/-! ### MSORT (R230) -/

/-- Whether key `a` comes before key `b` (R230): NaN last in either direction, −0 below +0. -/
def keyBefore (t : Nat) (desc : Bool) (a b : Nat) : Bool :=
  if isIntType t then (if desc then decide (intVal t b < intVal t a) else decide (intVal t a < intVal t b))
  else
    let x := fVal t a
    let y := fVal t b
    if x.isNan then false else if y.isNan then true else if desc then fLtZ y x else fLtZ x y

/-- Two sorted runs merged; where keys are equal the left run's element comes first. -/
def mergeRuns (before : Nat → Nat → Bool) : Nat → List Nat → List Nat → List Nat
  | 0, xs, ys => xs ++ ys
  | _ + 1, [], ys => ys
  | _ + 1, xs, [] => xs
  | n + 1, x :: xs, y :: ys => if before y x then y :: mergeRuns before n (x :: xs) ys else x :: mergeRuns before n xs (y :: ys)

/-- Where a step of an entry stands: the position of the odometer, and for MSORT its pass, and its chunk. -/
structure PxPos where
  t : Nat
  pass : Nat
  chunk : Nat

def pxPos (form : Nat) (b : Block) (n : Nat) : PxPos :=
  let i := max (pxInner form b) 1
  let r := n % i
  if form = 8 then ⟨n / i, r / max (sortR b) 1, r % max (sortR b) 1⟩ else ⟨n / i, 0, r⟩

/-- The buffer that pass `q` writes: OUT when P − q is even, TMP otherwise. -/
def sortOut (b : Block) (ls : List Level) (t q : Nat) : Nat :=
  (if (sortP b - q) % 2 = 0 then pxAddr b 4 Level.sd ls t else pxAddr b 3 Level.sb ls t).toNat

/-- The buffer that pass `q` reads. -/
def sortIn (b : Block) (ls : List Level) (t q : Nat) : Nat :=
  if q = 0 then (pxAddr b 2 Level.sa ls t).toNat else sortOut b ls t (q - 1)

/-- The elements `lo` to `hi − 1` of a buffer, each as its EB bytes and its index in bits above them. -/
def Engines.sortElems (k : Engines) (b : Block) (buf lo hi : Nat) : List Nat :=
  (List.range (hi - lo)).map fun i => readNat k.spad (buf + (lo + i) * pxEB b) (pxEB b) + 2 ^ (8 * pxEB b) * (lo + i)

/-- The output chunk of a step: the elements with their indices in the buffer that they come from. -/
def Engines.sortChunk (k : Engines) (b : Block) (ls : List Level) (p : PxPos) : List Nat :=
  let n := pxN b
  let buf := sortIn b ls p.t p.pass
  let key (e : Nat) : Nat := e % 2 ^ esize (pxKtype b)
  let before (x y : Nat) : Bool := keyBefore (pxKtype b) (pxDesc b) (key x) (key y)
  if p.pass = 0 then sortBy before (k.sortElems b buf (256 * p.chunk) (min n (256 * p.chunk + 256)))
  else
    let run := 256 * 2 ^ (p.pass - 1)
    let base := 256 * p.chunk / (2 * run) * (2 * run)
    let left := k.sortElems b buf base (min n (base + run))
    let right := k.sortElems b buf (min n (base + run)) (min n (base + 2 * run))
    ((mergeRuns before (2 * run) left right).drop (256 * p.chunk - base)).take 256

/-! ### MGATH and MSCAT (R231) -/

/-- The indices of a step: its first one and their number. -/
def pxRows (b : Block) (chunk : Nat) : Nat := min 64 (pxN b - 64 * chunk)

/-- Index `i` of the entry, as it stands now. -/
def Engines.pxIndex (k : Engines) (b : Block) (ls : List Level) (t i : Nat) : Nat :=
  readNat k.spad ((pxAddr b 4 Level.sa ls t).toNat + 4 * i) 4

/-- The table row of an index that lies within the table. -/
def pxRowAt (b : Block) (ls : List Level) (t x : Nat) : Option Nat :=
  let v := sext x 32
  if 0 ≤ v ∧ v < pxTrows b then some (((pxAddr b 2 Level.sb ls t).toNat + v.toNat * pxTpitch b) % 2 ^ 57) else none

/-- Sample points of a permute step (R232). -/
def pxPoints (form : Nat) (b : Block) (chunk : Nat) : List Nat :=
  match form with
  | 8 => [0]
  | 9 => 0 :: (List.range (pxRows b chunk)).map fun i => 8 + i * pxRbu b
  | _ => (List.range (pxRows b chunk)).map fun i => 8 + i * pxRbu b

/-- Bytes as numbers. -/
def natsOf (bs : List Byte) : List Nat := bs.map BitVec.toNat

def bytesOfNats (xs : List Nat) : List Byte := xs.map (BitVec.ofNat 8)

/-- The first poisoned word of several stretches of the scratchpad. -/
def Engines.anyPoison (k : Engines) (xs : List (Nat × Nat)) : Option Nat :=
  if k.spadPoison.isEmpty then none else xs.findSome? fun x => k.spadPoisoned x.1 x.2

/-- The stretches of scratchpad that a point of a step reads. -/
def Engines.pxReads (k : Engines) (form : Nat) (b : Block) (ls : List Level) (p : PxPos) (st : StepState) (i : Nat) :
    List (Nat × Nat) :=
  let eb := pxEB b
  let row := 64 * pxRbu b
  match form with
  | 8 => (k.sortChunk b ls p).map fun e => (sortIn b ls p.t p.pass + e / 2 ^ (8 * eb) * eb, eb)
  | 9 =>
    if i = 0 then [((pxAddr b 4 Level.sa ls p.t).toNat + 256 * p.chunk, 4 * pxRows b p.chunk)]
    else
      match pxRowAt b ls p.t ((st.sample 0).getD (i - 1) 0) with
      | some a => if pxTmem b then [] else [(a, row)]
      | none => []
  | _ =>
    let j := 64 * p.chunk + i
    [((pxAddr b 4 Level.sa ls p.t).toNat + 4 * j, 4), ((pxAddr b 5 Level.sd ls p.t).toNat + row * j, row)]

/-- What an engine asks of memory for row `bs` of MSCAT: a store, or a combine in ETYPE. -/
def scatAsk (b : Block) (bs : List Byte) : AskData :=
  ⟨if pxComb b = 0 then .store else .combine, bytesVal bs, maskOf bs.length, 0, pxComb b, pxEtype b, false⟩

/-- Take point `i` of a permute step: sorted chunks, indices and rows are kept, and rows of a memory table are asked
for. -/
def State.pxTake (s : State) (c : Nat) (q : Seqr) (a : ActiveEntry) (st : StepState) (i : Nat) : State :=
  let form := a.entry.form
  let b := a.entry.block
  let ls := s.entryLevels c a.entry
  let p := pxPos form b st.n
  let k := (s.core c).eng
  let row := 64 * pxRbu b
  let keep (s : State) (f : StepState → StepState) : State :=
    s.modStep c q st.issue st.n fun st => { f st with stage := st.stage + 1 }
  match form with
  | 8 => keep s fun st => st.put 0 (k.sortChunk b ls p)
  | 9 =>
    if i = 0 then keep s fun st => st.put 0 ((List.range (pxRows b p.chunk)).map fun j => k.pxIndex b ls p.t (64 * p.chunk + j))
    else
      match pxRowAt b ls p.t ((st.sample 0).getD (i - 1) 0) with
      | none => keep s id
      | some x =>
        if pxTmem b then
          let at_ := s.sc c
          let (s, ids) := s.engAccess (s.askOf c q a st.n) askLoad x row at_ (at_ + 512)
          keep s fun st => { st with reads := st.reads ++ ids.map fun id => (id, none) }
        else keep s fun st => st.put (100 + i) (natsOf (readBytes k.spad x row))
  | _ =>
    let j := 64 * p.chunk + i
    let x := k.pxIndex b ls p.t j
    let bs := readBytes k.spad ((pxAddr b 5 Level.sd ls p.t).toNat + row * j) row
    let s := keep s fun st => (st.put 0 (st.sample 0 ++ [x])).put (100 + i) (natsOf bs)
    match pxRowAt b ls p.t x with
    | none => s
    | some y =>
      if pxTmem b && s.timed c then
        let at_ := s.sc c + 8
        (s.engAccess (s.askOf c q a st.n) (scatAsk b bs) y row at_ (at_ + 512)).1
      else s

/-- The sample points of a permute step that are due. -/
def State.pxSampleDue (s : State) (c : Nat) (q : Seqr) (issue : Half) (n : Nat) : Nat → State
  | 0 => s
  | fuel + 1 =>
    let x := s.seq c q
    match s.stepAt c q issue n, x.entry issue with
    | some st, some a =>
      let form := a.entry.form
      let b := a.entry.block
      let p := pxPos form b n
      match (pxPoints form b p.chunk)[st.stage]? with
      | none => s
      | some o =>
        if st.t0 + o > s.sc c then s
        else
          let k := (s.core c).eng
          let s := match k.anyPoison (if k.spadPoison.isEmpty then [] else k.pxReads form b (s.entryLevels c a.entry) p st st.stage) with
            | some w => s.tilePoisoned c q issue n w true
            | none => s
          match s.stepAt c q issue n with
          | none => s
          | some st => (s.pxTake c q a st st.stage).pxSampleDue c q issue n fuel
    | _, _ => s

/-- The rows of a gather with their places in OUT: a row out of range gives zeros, or none where it is left
unchanged (R231). -/
def gatherRows (b : Block) (ls : List Level) (p : PxPos) (st : StepState) : List (Nat × List Byte) :=
  let row := 64 * pxRbu b
  let out := (pxAddr b 5 Level.sd ls p.t).toNat
  let xs := (st.sample 0).zip (List.range (st.sample 0).length)
  let go (acc : List (Nat × List Byte) × List Byte) (x : Nat × Nat) : List (Nat × List Byte) × List Byte :=
    let a := out + row * (64 * p.chunk + x.2)
    match pxRowAt b ls p.t x.1 with
    | none => if pxOob b then acc else (acc.1 ++ [(a, List.replicate row 0)], acc.2)
    | some _ =>
      if pxTmem b then (acc.1 ++ [(a, acc.2.take row)], acc.2.drop row)
      else (acc.1 ++ [(a, bytesOfNats (st.sample (101 + x.2)))], acc.2)
  (xs.foldl go ([], st.readBytes)).1

/-- The writes of a permute step at its commit point (R232). -/
def State.pxWrites (s : State) (c : Nat) (q : Seqr) (a : ActiveEntry) (st : StepState) : State :=
  let form := a.entry.form
  let b := a.entry.block
  let ls := s.entryLevels c a.entry
  let p := pxPos form b st.n
  let ask := s.askOf c q a st.n
  let sc := s.sc c
  let s := s.modStep c q st.issue st.n fun st => { st with stage := st.stage + 1 }
  match form with
  | 8 =>
    let eb := pxEB b
    s.engStore ask .store (sortOut b ls p.t p.pass + 256 * p.chunk * eb) ((st.sample 0).flatMap fun e => bytesOf e eb) sc
  | 9 => (gatherRows b ls p st).foldl (fun s x => s.engStore ask .store x.1 x.2 sc) s
  | _ =>
    let xs := (st.sample 0).zip (List.range (st.sample 0).length)
    if pxTmem b && s.timed c then s
    else
      xs.foldl
        (fun s x =>
          let bs := bytesOfNats (st.sample (100 + x.2))
          match pxRowAt b ls p.t x.1, s.stepAt c q st.issue st.n with
          | some y, some _ =>
            if pxTmem b then (s.engAccess ask (scatAsk b bs) y bs.length sc (sc + 512)).1
            else if pxComb b = 0 then s.engStore ask .store y bs sc
            else s.engStore ask .combine y bs sc (BitVec.ofNat 16 (32 * pxComb b + pxEtype b))
          | _, _ => s)
        s

/-- A permute step at or after its commit point. -/
def State.pxFinish (s : State) (c : Nat) (q : Seqr) (a : ActiveEntry) (st : StepState) : State :=
  let form := a.entry.form
  let b := a.entry.block
  let n := (pxPoints form b (pxPos form b st.n).chunk).length
  if st.stage < n || decide (s.sc c < st.t0 + commitOfs form b st.n) || (!s.timed c && !st.readsCome) then s
  else
    let s := if st.stage = n then s.pxWrites c q a st else s
    match s.stepAt c q st.issue st.n with
    | none => s
    | some st => if s.timed c || s.writesOut c q st.issue st.n then s.commitStep c q st else s

/-! ### The events -/

/-- TILE_STEP_START: the steps that are due start, and every sample point that is due is taken. -/
def State.tileStepStart (s : State) (e : Eng) : State :=
  let c := s.cur
  let q : Seqr := ⟨e, 0, 0⟩
  if !s.live c || (e != .mx && e != .px) then s
  else
    let s := (s.seq c q).active.foldl
      (fun s a => if s.stepDue c q (s.seq c q) a a.total then s.beginStep c q a.entry.issue a.started else s) s
    s.eachStep c q fun s _ st =>
      if e = .mx then s.mxSampleDue c q st.issue st.n 16 else s.pxSampleDue c q st.issue st.n 80

def execTileStepStart (e : Eng) (s : State) : Host.Outcome State Fault Refusal := .next (s.tileStepStart e)

/-- TILE_STEP_COMMIT. -/
def State.tileStepCommit (s : State) (e : Eng) : State :=
  let c := s.cur
  let q : Seqr := ⟨e, 0, 0⟩
  if !s.live c || (e != .mx && e != .px) then s
  else s.eachStep c q fun s a st => if e = .mx then s.mxFinish c q a st else s.pxFinish c q a st

def execTileStepCommit (e : Eng) (s : State) : Host.Outcome State Fault Refusal := .next (s.tileStepCommit e)

end Sys2Proof.Machine
end

