-- ==== Sys2Proof/Machine/Copy.lean ====
section
/-! DEFINITION. The copy engine: the chunks of MCOPY and MFILL (R319 to R325), refetch (R237, R327), overlay loads
(R328), and what a stop leaves of a chunk (R326). -/

namespace Sys2Proof.Machine

/-! ### Elements (R320 to R322) -/

/-- The elements of chunk `t`: the first and the number. -/
def ceElems (total t : Nat) : Nat × Nat := (256 * t, min 256 (total - 256 * t))

/-- The source and destination index of element `n`. -/
def ceSrcIdx (b : Block) (ls : List Level) (n : Nat) : Nat := (blkStride Level.css ((ceSrc b).space == 1) ls n).toNat
def ceDstIdx (b : Block) (ls : List Level) (n : Nat) : Nat := (blkStride Level.csd ((ceDst b).space == 1) ls n).toNat

/-- Whether a format code is an integer kind. -/
def ceInt (f : Nat) : Bool := 12 ≤ f

/-- The value of a pattern under a source scale exponent; none is a scale of 0xFF (R321). -/
def ceValue (f : Nat) (sc : Option Int) (p : Nat) : FVal × FlagSet :=
  match f with
  | 4 => (decodeF fmtF32 p, 0)
  | 5 => (decodeF fmtBF16 p, 0)
  | 6 => (decodeF fmtF16 p, 0)
  | 12 => (fOfInt (sext p 8), 0)
  | 13 => (fOfInt (sext p 4), 0)
  | 14 => (fOfInt (sext p 32), 0)
  | f => narrowValue (f - 6) sc p

/-- The sign bit of a source pattern. -/
def ceNeg (f p : Nat) : Bool := bitOf p (ceBits f - 1)

/-- An integer clamped to `n` bits. -/
def clampBits (n : Nat) (v : Int) : Nat × Bool :=
  let q := max (-(2 ^ (n - 1) : Nat) : Int) (min ((2 ^ (n - 1) : Nat) - 1) v)
  (wrapInt q n, decide (q ≠ v))

/-- A value converted to a destination format (R321): `neg` is the source's sign, `ds` the destination's scale. -/
def ceConvert (sf df : Nat) (fz : Bool) (m : Rnd) (r : Nat) (ds : Option Int) (neg : Bool) (v : FVal) : Nat × FlagSet :=
  match df with
  | 4 => roundF fmtF32 fz m r v
  | 5 => roundF fmtBF16 fz m r v
  | 6 => roundF fmtF16 fz m r v
  | df =>
    if ceInt df then
      let w := ceBits df
      match v with
      | .nan => (0, flagNV)
      | .inf n => (if n then 2 ^ (w - 1) else 2 ^ (w - 1) - 1, flagNV)
      | .fin n mag e =>
        let (i, inexact) := roundInt m r n mag e
        let (p, cl) := clampBits w i
        (p, (if cl then (if ceInt sf then flagSAT else flagNV) else 0) ||| (if inexact then flagNX else 0))
    else
      match kindOf (df - 6) with
      | none => (0, 0)
      | some k => if v.isNan || ds.isNone then kindNan k neg else toKind k fz m r ds v

/-- One element as it moves: its pattern, its source scale byte, its destination scale byte, and whether it is poisoned. -/
structure CeElem where
  p : Nat
  ss : Nat
  ds : Nat
  poison : Bool
deriving Inhabited

def scaleExpOf (e : Nat) : Option Int := if e = 255 then none else some ((e : Int) - 127)

/-- Whether an entry moves its bits unchanged. -/
def ceRaw (b : Block) : Bool := ceSfmt b == ceDfmt b && ceScmode b == 0

/-- Whether an element's conversion rounds, and so draws under SR. -/
def ceDraws (b : Block) : Bool := !ceRaw b && ceRnd b == 4 && !(ceInt (ceSfmt b) && ceInt (ceDfmt b))

/-- The converted elements of a chunk in order, with the state of SRGE after their draws. -/
def ceOut (b : Block) (fz : Bool) (srg : Half) (xs : List CeElem) : List (Nat × FlagSet) × Half :=
  if ceRaw b then (xs.map fun x => (x.p, 0), srg)
  else
    let sf := ceSfmt b
    let df := ceDfmt b
    let m := rndOf (BitVec.ofNat 3 (ceRnd b))
    let narrow := ceScmode b != 0 && ceNarrow sf
    mapDraw (ceDraws b)
      (fun r x =>
        let v := ceValue sf (if narrow then scaleExpOf x.ss else some 0) x.p
        let y := ceConvert sf df fz m r (if ceDstScaled b then scaleExpOf x.ds else some 0) (ceNeg sf x.p) v.1
        (y.1, v.2 ||| y.2)) srg xs

/-- EMAX of R322. -/
def ceEmax (df : Nat) : Int :=
  match df with
  | 7 => 8
  | 8 => 15
  | 9 => 4
  | _ => 2

/-- floor(log2 |v|) of a non-zero finite value. -/
def fLog2Floor : FVal → Option Int
  | .fin _ mag e => if mag = 0 then none else some (e + bitLen mag - 1)
  | _ => none

/-- The scale that R322 computes for a block of values. -/
def blockScale (df : Nat) (vs : List FVal) : Nat :=
  if vs.any (fun v => match v with
    | .fin .. => false
    | _ => true) then 255
  else
    match greatestInt (vs.filterMap fLog2Floor) with
    | none => 127
    | some l => (min 254 (max 0 (l - ceEmax df + 127))).toNat

/-- Under SCMODE 2 each element takes its block's computed scale. -/
def computeScales (b : Block) (xs : List CeElem) : List CeElem :=
  if ceScmode b = 2 ∧ ceNarrow (ceDfmt b) then
    (List.range ((xs.length + 31) / 32)).flatMap fun q =>
      let blk := (xs.drop (32 * q)).take 32
      let vs := blk.map fun x => (ceValue (ceSfmt b) (if ceNarrow (ceSfmt b) then scaleExpOf x.ss else some 0) x.p).1
      let e := blockScale (ceDfmt b) vs
      blk.map fun x => { x with ds := e }
  else xs

/-! ### The image of a chunk: units of memory or scratchpad with the bits written -/

/-- A unit of `8 × size` bits: its value and the bits written, and whether poison goes with it. -/
structure UnitImg where
  v : Nat
  m : Nat
  poison : Bool
deriving DecidableEq, Inhabited

/-- Put `bits` bits of `p` at bit address `o` of an image of units of `size` bytes. -/
def putUnits (size : Nat) (img : Sparse UnitImg) (o bits p : Nat) (poison : Bool) : Sparse UnitImg :=
  let w := 8 * size
  if bits = 0 then img
  else
    (List.range ((o + bits - 1) / w - o / w + 1)).foldl
      (fun img i =>
        let k := o / w + i
        let lo := max o (k * w)
        let hi := min (o + bits) ((k + 1) * w)
        let part := bitsOf p (lo - o) (hi - lo) * 2 ^ (lo - k * w)
        let mask := (2 ^ (hi - lo) - 1) * 2 ^ (lo - k * w)
        let old := (sget img k).getD ⟨0, 0, false⟩
        sinsert img k ⟨(old.v ||| mask) - mask + part, old.m ||| mask, old.poison || poison⟩)
      img

/-- The images of a chunk: scratchpad in words of 8 bytes, memory in sectors of 64, and codebook entries. -/
structure CeImage where
  spad : Sparse UnitImg
  mem : Sparse UnitImg
  book : List (Nat × Nat)

/-- Put the bits of an element or scale in the image of its space. -/
def CeImage.put (i : CeImage) (space o bits p : Nat) (poison : Bool) : CeImage :=
  if space = 1 then { i with mem := putUnits 64 i.mem o bits p poison } else { i with spad := putUnits 8 i.spad o bits p poison }

/-- A level as it is before it is divided among cores (R23). -/
def Level.whole (l : Level) : Level := { l with lo := 0, n := bitsOf l.w0 48 16 }

/-- The unused bits of the partial 24-bit group that ends a six-bit array are written as zero (R173). An array in memory
is that of the whole gang, one in scratchpad the core's own. -/
def ceTail (b : Block) (ls : List Level) (idx : Nat) : Nat :=
  let mem := (ceDst b).space == 1
  let top := (blkStrideRange Level.csd mem (if mem then ls.map Level.whole else ls)).2
  if ceBits (ceDfmt b) = 6 ∧ (idx : Int) = top then (3 - idx % 4) * 6 else 0

/-- A codebook entry as it is stored: its reserved bits are ignored (R175). -/
def bookWord (v : Nat) : Nat := (BitVec.ofNat 32 v &&& 0x80FFFFFF).toNat

/-- The image of chunk `t` whose elements are `ys`, with `ds` the destination scale of each. -/
def ceImage (b : Block) (ls : List Level) (t : Nat) (ys : List (Nat × Nat × Bool)) : CeImage :=
  let dst := ceDst b
  let bits := ceBits (ceDfmt b)
  (ys.zip (List.range ys.length)).foldl
    (fun img y =>
      let n := 256 * t + y.2
      let idx := ceDstIdx b ls n
      if dst.space = 2 then { img with book := img.book ++ [(idx, bookWord y.1.1)] }
      else
        let o := 8 * dst.base + idx * bits
        let img := img.put dst.space o bits y.1.1 y.1.2.2
        let tail := ceTail b ls idx
        let img := if tail = 0 then img else img.put dst.space (o + bits) tail 0 false
        if ceScmode b = 2 ∧ ceNarrow (ceDfmt b) then
          img.put dst.scsp (8 * (dst.scbase + n / 32)) 8 y.1.2.1 y.1.2.2
        else img)
    ⟨[], [], []⟩

/-- The mask of bytes that a mask of bits touches. -/
def byteMask (m : Nat) (size : Nat) : Nat :=
  (List.range size).foldl (fun a i => if bitsOf m (8 * i) 8 = 0 then a else a + 2 ^ i) 0

/-- Issue the writes of an image at SC `at_` (R325). -/
def State.putImage (s : State) (a : Ask) (img : CeImage) (at_ : Nat) : State :=
  let s := img.spad.foldl
    (fun s e =>
      let lo := (List.range 8).find? (fun i => bitsOf e.2.m (8 * i) 8 != 0)
      let lo := lo.getD 0
      let n := (List.range 9).foldl (fun a i => if i < 8 ∧ bitsOf e.2.m (8 * i) 8 ≠ 0 then i + 1 else a) 0 - lo
      s.engStore a .store (8 * e.1 + lo) (bytesOf (e.2.v / 2 ^ (8 * lo)) n) at_ 0
        ((2 ^ (8 * n) - 1) - bitsOf e.2.m (8 * lo) (8 * n)) e.2.poison) s
  let s := img.mem.foldl
    (fun s e =>
      let bm := byteMask e.2.m 64
      let whole := (List.range 64).foldl (fun a i => if bitOf bm i then a + 255 * 2 ^ (8 * i) else a) 0
      (s.engAccess a ⟨.store, e.2.v, bm, whole - e.2.m, 0, 0, e.2.poison⟩ (64 * e.1) 64 at_ (at_ + 512)).1) s
  img.book.foldl (fun s e => s.engStore a .codebook e.1 (bytesOf e.2 4) at_) s

/-! ### Reading the source -/

/-- The bytes of a stretch of bits, as first byte and number. -/
def byteSpan (o bits : Nat) : Nat × Nat := (o / 8, (o + bits + 7) / 8 - o / 8)

/-- What chunk `t` reads, as (space, first byte, bytes) of each element, and of each element's scales. -/
def ceSrcSpan (b : Block) (ls : List Level) (n : Nat) : Nat × Nat × Nat :=
  let src := ceSrc b
  ((ceSrc b).space, byteSpan (8 * src.base + ceSrcIdx b ls n * ceBits (ceSfmt b)) (ceBits (ceSfmt b)))

/-- The memory sectors that a chunk reads, each once. -/
def ceSectors (form : Nat) (b : Block) (ls : List Level) (first n : Nat) : List Nat :=
  let of (sp : Nat × Nat × Nat) : List Nat :=
    if sp.1 = 1 then (List.range ((sp.2.1 + sp.2.2 - 1) / 64 - sp.2.1 / 64 + 1)).map (· + sp.2.1 / 64) else []
  ((List.range n).flatMap fun i =>
    (if form = 0x10 then of (ceSrcSpan b ls (first + i)) else []) ++
      (if ceSrcScaled form b then of ((ceSrc b).scsp, (ceSrc b).scbase + (first + i) / 32, 1) else []) ++
      (if ceDstScaled b && ceScmode b == 1 then of ((ceDst b).scsp, (ceDst b).scbase + (first + i) / 32, 1) else [])).eraseDups

/-- The sectors read for a chunk: the bytes of each, and whether it was poisoned. -/
abbrev SectorView := Sparse (List Byte × Bool)

/-- `n` bytes at `a` of a space, with their poison. -/
def ceBytes (k : Engines) (v : SectorView) (space a n : Nat) : List Byte × Bool :=
  if space = 1 then
    ((List.range n).map fun i => (((sget v ((a + i) / 64)).getD ([], false)).1).getD ((a + i) % 64) 0,
      (List.range n).any fun i => ((sget v ((a + i) / 64)).getD ([], false)).2)
  else (readBytes k.spad a n, (k.spadPoisoned a n).isSome)

/-- The elements of a chunk as its reads give them (R321). -/
def ceRead (k : Engines) (form : Nat) (b : Block) (ls : List Level) (v : SectorView) (first n : Nat) : List CeElem :=
  let sb := ceBits (ceSfmt b)
  let src := ceSrc b
  let dst := ceDst b
  (List.range n).map fun i =>
    let e := first + i
    let (p, bad) :=
      if form = 0x11 then
        let w := (b.getD 2 0).toNat
        (if ceDfmt b = 3 then (List.range 8).foldl (fun a j => a + w * 2 ^ (64 * j)) 0 else w % 2 ^ ceBits (ceDfmt b), false)
      else
        let o := 8 * src.base + ceSrcIdx b ls e * sb
        let sp := byteSpan o sb
        let y := ceBytes k v src.space sp.1 sp.2
        (bitsOf (bytesVal y.1) (o % 8) sb, y.2)
    let scale (on : Bool) (space base : Nat) : Nat × Bool :=
      if on then let y := ceBytes k v space (base + e / 32) 1; (bytesVal y.1, y.2) else (127, false)
    let ss := scale (ceSrcScaled form b) src.scsp src.scbase
    let ds := scale (ceDstScaled b && ceScmode b == 1) dst.scsp dst.scbase
    { p, ss := ss.1, ds := ds.1, poison := bad || ss.2 || ds.2 }

/-- The reads of a step as a view: sample 50 holds the sectors in the order of the reads. -/
def StepState.view (st : StepState) : SectorView :=
  let bad := st.sample 99
  ((st.sample 50).zip st.reads).foldl (fun v e => sinsert v e.1 ((e.2.2).getD [], bad.contains e.2.1)) []

/-! ### The chunk's stages -/

/-- The range of a Timed chunk or an Elastic one at its start: its reads are issued (R325). -/
def State.ceStart (s : State) (c : Nat) (q : Seqr) (a : ActiveEntry) (n : Nat) : State :=
  let form := a.entry.form
  let b := a.entry.block
  let ls := s.entryLevels c a.entry
  let (first, cnt) := ceElems (totalOf ls) n
  let sc := s.sc c
  let secs := ceSectors form b ls first cnt
  secs.foldl
    (fun s x =>
      if (s.stepAt c q a.entry.issue n).isNone then s
      else
        let (s, ids) := s.engAccess (s.askOf c q a n) askLoad (64 * x) 64 sc (sc + ceLead form b)
        s.modStep c q a.entry.issue n fun st =>
          { st.put 50 (st.sample 50 ++ [x]) with reads := st.reads ++ ids.map fun id => (id, none) }) s

/-- Words 4 to 7 of a poisoned sector of memory at address `va` that core `c` reads for itself (R298). -/
def State.sectorAt (s : State) (c : Nat) (rng : Vector Rng 16) (va : Nat) : List Word :=
  let p := s.partOf c
  match s.translateFor p rng .engine (va57 (va % 2 ^ 57)) 64 true false with
  | .error _ => hopWords 0
  | .ok ia =>
    if iaRegion ia ≠ 0 then [BitVec.ofNat 64 (3 * 2 ^ 60), 0, BitVec.ofNat 64 (7 * 2 ^ 48), 0]
    else
      match (s.memRead (s.core c).dom p ia 64 (s.translateHome p ia true false)).2.found.head? with
      | some f => sectorWords f.2 va
      | none => [BitVec.ofNat 64 (3 * 2 ^ 60 + ia), 0, 0, BitVec.ofNat 64 (va % 2 ^ 57)]

/-- The event of poison that a refetched chunk reads, in a sector of memory or a word of scratchpad (R327). -/
def State.copyPoison (s : State) (c : Nat) (a : ActiveEntry) (st : StepState) : Ev :=
  let b := a.entry.block
  let ls := s.entryLevels c a.entry
  let (first, cnt) := ceElems (totalOf ls) st.n
  let bad := st.sample 99
  match ((st.sample 50).zip st.reads).find? fun e => bad.contains e.2.1 with
  | some e => { engEv .ce 0 0x0D 0 (64 * e.1) with body := 3, words := s.sectorAt c a.entry.rng (64 * e.1) }
  | none =>
    let word := (List.range cnt).findSome? fun i =>
      let sp := ceSrcSpan b ls (first + i)
      if sp.1 = 0 then (s.core c).eng.spadPoisoned sp.2.1 sp.2.2 else none
    let w := word.getD ((ceSrc b).scbase % 2 ^ 20)
    (engEv .ce 0 0x0D 0 w).poisoned 2 w

/-- A copy chunk's turn: at T + A, once its reads have come, the source is sampled; at T + A + 8 it is converted and its
writes go out (R325). A chunk that a refetch runs again takes the draws that it took before, and does not take poison
(R53, R327). -/
def State.ceChunk (s : State) (c : Nat) (q : Seqr) (a : ActiveEntry) (st : StepState) : State :=
  let form := a.entry.form
  let b := a.entry.block
  let ls := s.entryLevels c a.entry
  let (first, cnt) := ceElems (totalOf ls) st.n
  let sc := s.sc c
  let lead := ceLead form b
  if st.stage = 0 then
    if sc < st.t0 + lead || !st.readsCome then s
    else
      let xs := ceRead (s.core c).eng form b ls st.view first cnt
      if s.isRedo c .ce st.issue && xs.any (·.poison) then s.redoAbandon c (s.copyPoison c a st)
      else s.modStep c q st.issue st.n fun st =>
        { ((st.put 51 (xs.map (·.p))).put 52 (xs.map (·.ss))).put 53 (xs.map (·.ds)) |>.put 54 (xs.map fun x => natOfBool x.poison)
          with stage := 1 }
  else if st.stage = 1 then
    if sc < st.t0 + lead + 8 then s
    else
      let xs := (List.range cnt).map fun i =>
        ({ p := (st.sample 51).getD i 0, ss := (st.sample 52).getD i 127, ds := (st.sample 53).getD i 127
           poison := (st.sample 54).getD i 0 == 1 } : CeElem)
      let xs := computeScales b xs
      let now := (s.core c).cc.srge
      let (ys, g) := ceOut b (s.fz c) ((a.draws[st.n]?).getD now) xs
      let img := ceImage b ls st.n ((ys.zip xs).map fun e => (e.1.1, e.2.ds, e.2.poison))
      let again := (a.draws[st.n]?).isSome
      let s := s.modStep c q st.issue st.n fun st =>
        { (if again then st else st.put 97 [now.toNat]) with flags := joinFlags ys, stage := 2 }
      let s := if again then s else s.modCc c fun k => { k with srge := g }
      s.putImage (s.askOf c q a st.n) img sc
  else s

/-- Whether a copy chunk may commit: in Timed at its E, in Elastic once every write of it has been issued and translated
(R314, R325). -/
def State.ceReady (s : State) (c : Nat) (q : Seqr) (a : ActiveEntry) (st : StepState) : Bool :=
  decide (2 ≤ st.stage) &&
    (if s.timed c then decide (st.t0 + commitOfs a.entry.form a.entry.block st.n ≤ s.sc c) else s.writesOut c q st.issue st.n)

/-- The commit of a copy chunk; the last one writes the destination's tag (R324), in the copy engine's place among the
cycle's writes (R247). -/
def State.ceCommit (s : State) (c : Nat) (q : Seqr) (a : ActiveEntry) (st : StepState) : State :=
  let b := a.entry.block
  if !s.ceReady c q a st then s
  else
    let s := if ceDtag b ∧ st.n + 1 = a.total then
        s.engStore (s.askOf c q a st.n) .tagStore (ceDst b).base [] (s.sc c) (BitVec.ofNat 16 (ceTag b))
      else s
    let g := BitVec.ofNat 32 ((st.sample 97).getD 0 0)
    let s := s.modSeq c q fun x =>
      { x with active := x.active.map fun y => if y.entry.issue = st.issue then { y with draws := y.draws ++ [g] } else y }
    (s.commitStep c q st).count c 9 1

/-! ### MOVLY (R328) -/

/-- The descriptor of region REGION + `j` while chunk `j` loads it, and once it is loaded. -/
def ovDesc (b : Block) (j : Nat) (v : Bool) : Word :=
  BitVec.ofNat 64 (natOfBool v * 2 ^ 63 + natOfBool (ovKind b) * 2 ^ 62 + (ovBase b + (if ovKind b then 8192 else 128) * j) % 2 ^ 32)

/-- The start of an overlay chunk: its region is invalid from now on, and its 8 KiB are read. -/
def State.ovStart (s : State) (c : Nat) (q : Seqr) (a : ActiveEntry) (n : Nat) : State :=
  let b := a.entry.block
  let sc := s.sc c
  let s := s.modEng c fun k => { k with regions := k.regions.setIfInBounds (ovRegion b + n) (ovDesc b n false) }
  let (s, ids) := s.engAccess (s.askOf c q a n) askLoad (ovSrc b + 8192 * n) 8192 sc (sc + 512)
  s.modStep c q a.entry.issue n fun st => { st with reads := ids.map fun id => (id, none) }

/-- The commit of an overlay chunk. -/
def State.ovCommit (s : State) (c : Nat) (q : Seqr) (a : ActiveEntry) (st : StepState) : State :=
  let b := a.entry.block
  if s.sc c < st.t0 + 520 || !st.readsCome then s
  else
    let s := s.modEng c fun k =>
      { k with
        ispad := writeBytes k.ispad ((ovRegion b + st.n) * 0x2000) (fitBytes st.readBytes 8192)
        regions := k.regions.setIfInBounds (ovRegion b + st.n) (ovDesc b st.n true) }
    (s.commitStep c q st).count c 9 1

/-! ### The copy engine's turn -/

/-- One turn of the copy engine: chunks start, advance and commit (R314, R325, R328). -/
def State.ceTurn (s : State) : State :=
  let c := s.cur
  let q : Seqr := ⟨.ce, 0, 0⟩
  let s := (s.seq c q).active.foldl
    (fun s a =>
      if s.stepDue c q (s.seq c q) a a.total then
        let n := a.started
        let s := s.beginStep c q a.entry.issue n
        if a.entry.form = 0x12 then s.ovStart c q a n else s.ceStart c q a n
      else s) s
  let s := s.eachStep c q fun s a st => if a.entry.form = 0x12 then s else s.ceChunk c q a st
  let s := s.eachStep c q fun s a st => if a.entry.form = 0x12 then s else s.ceChunk c q a st
  s.eachStep c q fun s a st => if a.entry.form = 0x12 then s.ovCommit c q a st else s.ceCommit c q a st

/-! ### Refetch (R56, R237, R327) -/

/-- The copy that last filled a poisoned byte runs again in full, unless its buffer has been refetched already. Its entry
has no issue number: it takes one that no entry of the copy engine holds (DESIGN CHOICE, log 46). -/
def State.redoStart (s : State) (c : Nat) (mx : Bool) (w : Nat) (r : Refetch) : State :=
  let k := (s.core c).eng
  let issue := match k.ce.active.getLast? with
    | some a => ~~~a.entry.issue
    | none => 0
  let entry : QEntry := { form := 0x10, block := r.block, rng := r.rng, start := 0, issue, seqr := 0, headAt := 0 }
  let total := s.entrySteps c entry
  s.modEng c fun k =>
    { k with
      redo := some { mx, act := { entry, startSC := s.sc c, started := 0, committed := 0, total, draws := r.draws }, was := k.ce.prog.state }
      refetch := match k.refetch.findIdx? fun x => x.holds w with
        | some i => k.refetch.modify i fun x => { x with redone := true }
        | none => k.refetch
      ce := { k.ce with prog := { k.ce.prog with state := 3 } } }

/-- The refetch is complete, and the cancelled step may run again. -/
def State.redoDone (s : State) (c : Nat) (mx : Bool) : State :=
  (s.redoEnd c).modSeq c ⟨if mx then .mx else .px, 0, 0⟩ fun x => { x with refetchAt := none, prog := { x.prog with state := 1 } }

/-- Change the entry of the refetch under way. -/
def State.modRedo (s : State) (c : Nat) (f : ActiveEntry → ActiveEntry) : State :=
  s.modEng c fun k => { k with redo := k.redo.map fun r => { r with act := f r.act } }

/-- A turn of the refetch: one chunk at a time starts, advances, and counts once its writes are out. -/
def State.redoTurn (s : State) (c : Nat) (r : Redo) : State :=
  let q : Seqr := ⟨.ce, 0, 0⟩
  let a := r.act
  if a.total ≤ a.committed then s.redoDone c r.mx
  else
    let n := a.committed
    let s := if a.started = n then
        (let s := s.modSeq c q fun x =>
          { x with steps := x.steps ++ [{ issue := a.entry.issue, n, t0 := s.sc c, samples := [], reads := [], stage := 0, flags := 0 }] }
         (s.modRedo c fun a => { a with started := n + 1 }).ceStart c q a n)
      else s
    let go (s : State) : State := match s.stepAt c q a.entry.issue n with
      | some st => s.ceChunk c q a st
      | none => s
    let s := go (go s)
    match s.stepAt c q a.entry.issue n with
    | some st =>
      if s.ceReady c q a st then
        (s.modSeq c q fun x => x.dropStep a.entry.issue n).modRedo c fun a => { a with committed := n + 1 }
      else s
    | none => s

/-- CE_REFETCH: between two chunks of any entry that it runs, the copy engine begins the refetch that a cancelled step
awaits, and carries it on. Where no entry of the table covers the bytes, as after a restore, the response becomes a launch
replay (R327). -/
def State.ceRefetch (s : State) : State :=
  let c := s.cur
  let k := (s.core c).eng
  if !s.live c || s.timed c then s
  else
    match k.redo with
    | some r => s.redoTurn c r
    | none =>
      let pick : Option (Bool × Nat) :=
        match k.mx.refetchAt, k.px.refetchAt with
        | some w, _ => if k.mx.prog.state = 3 then some (true, w) else none
        | none, some w => if k.px.prog.state = 3 then some (false, w) else none
        | none, none => none
      match pick with
      | none => s
      | some (mx, w) =>
        match k.refetchable w with
        | none =>
          let e := (engEv (if mx then .mx else .px) 0 0x0D 0 w).poisoned 2 w
          let s := s.modSeq c ⟨if mx then .mx else .px, 0, 0⟩ fun x => { x with refetchAt := none }
          (match (s.core c).dom, s.domOf c with
           | some id, some d => s.applyResp id d c e (s.replayResp c e)
           | _, _ => s)
        | some r =>
          if k.ce.steps.isEmpty && k.ce.stopEv.isNone && decide (k.ce.prog.state.toNat ≤ 1) then s.redoStart c mx w r else s

def execCeRefetch (s : State) : Host.Outcome State Fault Refusal := .next s.ceRefetch

/-! ### What a stop leaves of a chunk (R326) -/

/-- An unspecified value in the bits of a unit of memory that a stopped chunk would write: at its home, or at another
module; none where it may not be written. -/
def State.freeUnit (s : State) (a : Ask) (u : Nat × UnitImg) : State :=
  let c := a.core
  let p := s.partOf c
  let dom := (s.core c).dom
  let (s, x) := s.drawFree
  let bm := byteMask u.2.m 64
  match s.translateFor p a.rng a.asker (va57 (64 * u.1 % 2 ^ 57)) 64 false true with
  | .error _ => s
  | .ok ia =>
    if iaRegion ia = 2 then s.engRemotes { a with issue := ~~~a.issue } false bm ia 64 x.toNat 0 false
    else if iaRegion ia ≠ 0 then s
    else
      let xl := s.translateHome p ia false true
      let old := bytesVal (s.memRead dom p ia 64 xl).2.bytes
      let v := (old ||| u.2.m) - u.2.m + (x.toNat &&& u.2.m)
      match s.bindForWrite dom p ia xl with
      | .ok s => s.memWrite dom p ia (bytesOf v 64) bm xl
      | .error _ => s

/-- Every bit that chunk `n` of a stopped copy would write takes an unspecified value, in scratchpad, in memory and in the
codebook (R326). -/
def State.freeChunk (s : State) (c : Nat) (q : Seqr) (a : ActiveEntry) (n : Nat) : State :=
  let b := a.entry.block
  let ls := s.entryLevels c a.entry
  let (_, cnt) := ceElems (totalOf ls) n
  let img := ceImage b ls n (List.replicate cnt (0, 0, false))
  let s := img.spad.foldl
    (fun s e =>
      let (s, x) := s.drawFree
      s.modEng c fun k => k.spadPerform
        { kind := .store, addr := 8 * e.1, bytes := bytesOf x.toNat 8, len := 8, tag := 0, due := 0, issue := 0, rank := 0, id := 0
          pc := 0, poison := false, keep := BitVec.ofNat 64 (2 ^ 64 - 1 - e.2.m) }) s
  let s := img.book.foldl
    (fun s e =>
      let (s, x) := s.drawFree
      s.modEng c fun k => { k with codebook := sput 0 k.codebook e.1 (BitVec.ofNat 32 (bookWord x.toNat)) }) s
  img.mem.foldl (fun s e => s.freeUnit (s.askOf c q a n) e) s

/-- MACRO_STOP: once every earlier step has committed and OUTST is zero, the sequencer stops: STATE 2, CAUSE, the record,
and interrupt 17 (R234, R315). -/
def State.macroStop (s : State) (q : Seqr) : State :=
  let c := s.seqCore q
  let x := s.seq c q
  if !s.live c then s
  else
    match x.stopEv, x.youngest with
    | some ev, some a =>
      if !x.steps.isEmpty || s.pendingBytes c q.eng a.entry.issue != 0 then s
      else
        let s := s.setSeq c q { x with
          stopEv := none, prog := { x.prog with state := 2, cause := ev.cause }
          active := [{ a with started := a.committed }] }
        let s := if a.entry.form = 0x10 ∨ a.entry.form = 0x11 then s.freeChunk c q a a.committed else s
        let words := s.stopWords c q x a ev
        let rec_ := { ev with body := if q.eng = .mx ∨ q.eng = .px then 2 else 4, words }
        let s := s.raiseAs c rec_ 1
        s.pendStop c ev (x.prog.steps.toNat * 2 ^ 32 + a.entry.issue.toNat)
    | _, _ => s

def execMacroStop (q : Seqr) (s : State) : Host.Outcome State Fault Refusal := .next (s.macroStop q)

end Sys2Proof.Machine
end

