-- ==== Sys2Proof/Machine/Weir.lean ====
section
/-! DEFINITION. The Weir units: MSEL and MTOPK (R329 to R334), and the event CHUNK_COMMIT. -/

namespace Sys2Proof.Machine

/-! ### Elements and predicates (R330, R332) -/

/-- The value of a pattern of an EKIND. -/
def wrValue (k p : Nat) : FVal :=
  match k with
  | 0 => decodeF fmtF32 p
  | 1 => decodeF fmtBF16 p
  | 2 => decodeF fmtF16 p
  | 3 => kindValue .e4m3 p
  | k => fOfInt (sext p (wrBits k))

/-- P(x) XOR NEG. -/
def wrQualifies (b : Block) (p : Nat) : Bool :=
  let k := wrEkind b
  let x := wrValue k p
  let c1 := wrValue k (wrC1 b)
  let c2 := wrValue k (wrC2 b)
  let le (u v : FVal) : Bool := fLt u v || fEq u v
  let y := match wrPred b with
    | 0 => fEq x c1
    | 1 => !fEq x c1
    | 2 => fLt x c1
    | 3 => le x c1
    | 4 => fLt c1 x
    | 5 => le c1 x
    | 6 => le c1 x && le x c2
    | 7 => bitOf p (wrBit b)
    | 8 => x.isNan
    | _ => true
  y != wrNeg b

/-- Whether candidate `x` ranks before `y`, each a pattern and an index (R332). -/
def ranksBefore (b : Block) (x y : Half × Half) : Bool :=
  let k := wrEkind b
  let u := wrValue k x.1.toNat
  let v := wrValue k y.1.toNat
  let better := if wrSmallest b then fLt u v else fLt v u
  better || (fEq u v && decide (x.2.toNat < y.2.toNat))

/-- Add a candidate to the running list of the best K. -/
def addCandidate (b : Block) (l : List (Half × Half)) (x : Half × Half) : List (Half × Half) :=
  (insertBy (fun y x => !ranksBefore b x y) x l).take (wrK b)

/-- Split pairs into those whose value is no NaN, and whether one was. -/
def dropNan (b : Block) (xs : List (Half × Half)) : List (Half × Half) × Bool :=
  (xs.filter fun x => !(wrValue (wrEkind b) x.1.toNat).isNan, xs.any fun x => (wrValue (wrEkind b) x.1.toNat).isNan)

/-! ### Chunks (R334) -/

/-- The elements of chunk `t`: the first and the number. -/
def wrChunk (b : Block) (t : Nat) : Nat × Nat := (4096 * t, min 4096 (wrElems b - 4096 * t))

/-- The cycle of its chunk in which element `i` of it is sampled, and the read that brings it, as 16 × sector + cycle
(R334). -/
def wrCycle (b : Block) (i : Nat) : Nat := i * (wrBits (wrEkind b) / 8) / 2048

def wrReadOf (b : Block) (first i : Nat) : Nat := wrAddr b (first + i) % 2 ^ 57 / 64 * 16 + wrCycle b i

/-- The reads of a chunk, each once. -/
def wrReads (b : Block) (first n : Nat) : List Nat :=
  (List.range n).foldl (fun l i => let x := wrReadOf b first i; if l.getLast? = some x ∨ l.contains x then l else l ++ [x]) []

/-- Whether chunk `n` of an entry begins with the carry list. -/
def wrCarries (form : Nat) (b : Block) (n : Nat) : Bool := form == 0x19 && wrCin b && n == 0

/-- The start of a chunk: the carry list of a memory output, then the region's sectors, are asked for. -/
def State.wrStart (s : State) (c : Nat) (q : Seqr) (a : ActiveEntry) (n : Nat) : State :=
  let b := a.entry.block
  let issue := a.entry.issue
  let sc := s.sc c
  let ask := s.askOf c q a n
  let s :=
    if wrCarries a.entry.form b n && !wrSpad b then
      let (s, ids) := s.engAccess ask askLoad (wrObase b) (16 + 8 * wrK b) sc (sc + 512)
      s.modStep c q issue n fun st => { st.put 60 [ids.length] with reads := ids.map fun id => (id, none) }
    else s
  let (first, cnt) := wrChunk b n
  let t := sc + (if n = 0 then 64 else 0)
  (wrReads b first cnt).foldl
    (fun s x =>
      if (s.stepAt c q issue n).isNone then s
      else
        let at_ := t + x % 16
        let (s, ids) := s.engAccess ask askLoad (64 * (x / 16)) 64 at_ (at_ + 512)
        s.modStep c q issue n fun st =>
          { st.put 50 (st.sample 50 ++ [x]) with reads := st.reads ++ ids.map fun id => (id, none) }) s

/-- A carry COUNT above K: in Elastic a macro stop; in Timed the entry ends with the event, and nothing of it is written
(R332). -/
def State.carryFault (s : State) (c : Nat) (q : Seqr) (issue : Half) (n : Nat) : State :=
  let ev := engEv .weir issue 0x07 0 0
  if s.timed c then
    ((s.dropSteps c q issue 0).modSeq c q fun x => { x with active := x.active.filter fun a => a.entry.issue != issue }).raise c ev
  else s.engEvent c q n ev

/-- The carry list has come: its COUNT is checked and its pairs taken (R332). -/
def State.wrCarry (s : State) (c : Nat) (q : Seqr) (a : ActiveEntry) (st : StepState) : State :=
  let b := a.entry.block
  let k := (s.core c).eng
  let nr := (st.sample 60).getD 0 0
  let due := if wrSpad b then decide (st.t0 + 2 ≤ s.sc c)
    else decide (st.t0 + 512 ≤ s.sc c) && (st.reads.take nr).all fun r => r.2.isSome
  if !due then s
  else
    let bs := if wrSpad b then readBytes k.spad (wrObase b) (16 + 8 * wrK b) else (st.reads.take nr).flatMap fun r => r.2.getD []
    let n := bytesVal (bs.take 4)
    let s := match (if wrSpad b then k.spadPoisoned (wrObase b) (16 + 8 * wrK b) else none) with
      | some w => s.engEvent c q st.n ((engEv .weir a.entry.issue 0x0D 0 w).poisoned 2 w)
      | none => s
    if n > wrK b then s.carryFault c q a.entry.issue st.n
    else
      let pairs := (List.range n).map fun i =>
        let w := (bs.drop (16 + 8 * i)).take 8
        (BitVec.ofNat 32 (bytesVal (w.take 4)), BitVec.ofNat 32 (bytesVal (w.drop 4)))
      let (l, nan) := dropNan b pairs
      (s.modStep c q a.entry.issue st.n fun st => { st with stage := 1 }).modSeq c q fun x =>
        { x with list := l.foldl (addCandidate b) [], nanSeen := nan }

/-- The elements of a chunk as (pattern, index), in index order. -/
def wrRead (b : Block) (n : Nat) (st : StepState) : List (Half × Half) :=
  let (first, cnt) := wrChunk b n
  let nr := (st.sample 60).getD 0 0
  let view : SectorView := ((st.sample 50).zip (st.reads.drop nr)).foldl (fun v e => sinsert v e.1 ((e.2.2).getD [], false)) []
  let z := wrBits (wrEkind b) / 8
  (List.range cnt).map fun i =>
    let a := wrAddr b (first + i) % 2 ^ 57
    let bs := (((sget view (wrReadOf b first i)).getD ([], false)).1.drop (a % 64)).take z
    (BitVec.ofNat 32 (bytesVal bs), BitVec.ofNat 32 (wrIbase b + first + i))

/-- A pair as it is stored (R331). -/
def pairBytes (x : Half × Half) : List Byte := bytesOf x.1.toNat 4 ++ bytesOf x.2.toNat 4

/-- The output header (R331). -/
def wrHeader (count : Nat) (ovf nan : Bool) (scanned : Nat) : List Byte :=
  bytesOf (count % 2 ^ 32 + natOfBool ovf * 2 ^ 32 + natOfBool nan * 2 ^ 33) 8 ++ bytesOf (scanned % 2 ^ 32) 8

/-- Write bytes of the output area: they perform now in scratchpad, or are issued now and perform 512 later. -/
def State.wrOut (s : State) (a : Ask) (b : Block) (ofs : Nat) (bs : List Byte) : State :=
  if bs.isEmpty then s
  else if wrSpad b then s.engStore a .store (wrObase b + ofs) bs (s.sc a.core)
  else s.engWrite a (wrObase b + ofs) bs (s.sc a.core) (s.sc a.core + 512)

/-- The end of a chunk: MSEL writes the chunk's pairs, MTOPK ranks its elements, and the last chunk writes the header. -/
def State.wrWrites (s : State) (c : Nat) (q : Seqr) (a : ActiveEntry) (st : StepState) : State :=
  let b := a.entry.block
  let x := s.seq c q
  let ask := s.askOf c q a st.n
  let quals := (wrRead b st.n st).filter fun e => wrQualifies b e.1.toNat
  let last := st.n + 1 == a.total
  let scanned := wrElems b
  if a.entry.form = 0x18 then
    let n0 := x.prog.count.toNat
    let n1 := n0 + quals.length
    let pairs := (quals.take (wrOcap b - n0)).flatMap pairBytes
    let s := s.modStep c q st.issue st.n fun st => { st.put 71 [n1, 0] with stage := 2 }
    let s := s.wrOut ask b (16 + 8 * n0) pairs
    if last && (s.stepAt c q st.issue st.n).isSome then s.wrOut ask b 0 (wrHeader n1 (decide (n1 > wrOcap b)) false scanned) else s
  else
    let (good, nan) := dropNan b quals
    let nanAll := (wrRead b st.n st).any fun e => (wrValue (wrEkind b) e.1.toNat).isNan
    let l := good.foldl (addCandidate b) x.list
    let _ := nan
    let nan := x.nanSeen || nanAll
    let s := s.modStep c q st.issue st.n fun st =>
      { (st.put 71 [l.length, natOfBool nan]).put 70 (l.map fun e => e.1.toNat + 2 ^ 32 * e.2.toNat) with stage := 2 }
    if last then
      let s := s.wrOut ask b 16 (l.flatMap pairBytes)
      if (s.stepAt c q st.issue st.n).isSome then s.wrOut ask b 0 (wrHeader l.length false nan scanned) else s
    else s

/-- The commit of a Weir chunk: COUNT, and for MTOPK the running list. An empty region has no chunk to count (R334). -/
def State.wrCommit (s : State) (c : Nat) (q : Seqr) (a : ActiveEntry) (st : StepState) : State :=
  let s := s.commitStep c q st
  s.modSeq c q fun x =>
    { x with
      prog := { x.prog with
        count := BitVec.ofNat 32 ((st.sample 71).getD 0 0)
        steps := if wrElems a.entry.block = 0 then 0 else x.prog.steps }
      list := if a.entry.form = 0x18 then [] else (st.sample 70).map fun v => (BitVec.ofNat 32 v, BitVec.ofNat 32 (v / 2 ^ 32))
      nanSeen := (st.sample 71).getD 1 0 == 1 }

/-- A chunk's turn. -/
def State.wrChunkTurn (s : State) (c : Nat) (q : Seqr) (a : ActiveEntry) (st : StepState) : State :=
  let b := a.entry.block
  let s := if st.stage = 0 then
      (if wrCarries a.entry.form b st.n then s.wrCarry c q a st else s.modStep c q st.issue st.n fun st => { st with stage := 1 })
    else s
  match s.stepAt c q st.issue st.n with
  | none => s
  | some st =>
    if st.stage = 0 || decide (s.sc c < st.t0 + commitOfs a.entry.form b st.n) || !st.readsCome then s
    else
      let s := if st.stage = 1 then s.wrWrites c q a st else s
      match s.stepAt c q st.issue st.n with
      | none => s
      | some st => if s.timed c || s.writesOut c q st.issue st.n then s.wrCommit c q a st else s

/-- One turn of a Weir sequencer. -/
def State.wrTurn (s : State) (c : Nat) (q : Seqr) : State :=
  let s := (s.seq c q).active.foldl
    (fun s a =>
      if s.stepDue c q (s.seq c q) a a.total then (s.beginStep c q a.entry.issue a.started).wrStart c q a a.started else s) s
  s.eachStep c q fun s a st => s.wrChunkTurn c q a st

/-- CHUNK_COMMIT: a turn of a copy engine or of a Weir sequencer, in which its chunks start, sample, write and commit. -/
def State.chunkCommit (s : State) (q : Seqr) : State :=
  let c := s.seqCore q
  if !s.live c then s
  else
    match q.eng with
    | .ce => s.ceTurn
    | .weir => s.wrTurn c q
    | _ => s

def execChunkCommit (q : Seqr) (s : State) : Host.Outcome State Fault Refusal := .next (s.chunkCommit q)

end Sys2Proof.Machine
end

