-- ==== Sys2Proof/Machine/Collective.lean ====
section
/-! DEFINITION. The collective engine: the steps of a rank's plan (R336 to R338), the events CX_SEND_STEP and
CX_RECEIVE_STEP, and the audit engine's event AUDIT_RECOMPUTATION (R308 to R310). -/

namespace Sys2Proof.Machine

/-! ### Steps -/

/-- The departure SC of a step (R337), in Elastic the least one (R338). -/
def clDepart (a : ActiveEntry) (st : PlanStep) : Nat := a.startSC + st.delta

/-- Space, first byte and number of bytes of a step's elements. -/
def clSpan (b : Block) (st : PlanStep) : Bool × Nat × Nat :=
  let buf := clBuf b (st.fromD || st.recv)
  let z := clBytes (clEtype b)
  (buf.1, buf.2 + z * st.ofs, z * st.count)

/-- In Timed every step of an entry begins with it, each with its own SCs; in Elastic a step begins once the earlier
ones have committed. -/
def State.cxBegin (s : State) (c : Nat) (q : Seqr) : State :=
  (s.seq c q).active.foldl
    (fun s a =>
      if s.timed c then
        (List.range (a.total - a.started)).foldl (fun s i => s.beginStep c q a.entry.issue (a.started + i)) s
      else if s.stepDue c q (s.seq c q) a a.total then s.beginStep c q a.entry.issue a.started
      else s) s

/-- A plan step commits; plan steps of a Timed entry may commit out of order. The transfer that a receive step took is held
no longer (R313). -/
def State.cxCommit (s : State) (c : Nat) (q : Seqr) (a : ActiveEntry) (st : StepState) : State :=
  let s := s.modFab c fun k => { k with plan := k.plan.filter fun h => h.takenBy != some (st.issue, st.n) }
  let done := match (s.seq c q).entry a.entry.issue with
    | some x => x.committed
    | none => 0
  (s.commitStep c q st).modSeq c q fun x =>
    { x with active := x.active.map fun y => if y.entry.issue = a.entry.issue then { y with committed := done + 1 } else y }

/-- The bytes of plan transfers that a CX sequencer of the die holds or that are on their way to it (R338). A transfer is
held by the sequencer of its sender's index (DESIGN CHOICE, log 57). -/
def State.planBytes (s : State) (die idx : Nat) : Nat :=
  let of (f : Flit) : Nat := if f.plan.isSome && f.stream == idx && dieOf f.dstCore == die then f.bytes else 0
  (s.cores.foldl (fun a e => e.2.fab.plan.foldl (fun a h => a + of h.flit) a) 0) +
    s.calendar.foldl (fun a d => match d.turn with
      | .op _ (.flitArrival f) => a + of f
      | _ => a) 0

/-! ### Sends -/

/-- Transmit a step's bytes on its route with the plan and step number (R336). -/
def State.cxSend (s : State) (c : Nat) (q : Seqr) (a : ActiveEntry) (ps : PlanStep) (bs : List Byte) (poisoned : Bool) : State :=
  let rt := s.route (s.partOf c) ps.route
  let f : Flit :=
    { route := ps.route, srcModule := s.moduleId, srcCore := c, dstCore := ps.pcore, stream := q.idx, seq := 0, bytes := bs.length
      data := 0, poisoned, depSC := s.sc c, timed := s.timed c, req := none
      plan := some (clPlan a.entry.block, ps.stepno, bs) }
  if rt.bylor || ps.pmod != s.moduleId then (s.markOutside c).inject c f rt
  else
    let s := if (s.core ps.pcore).dom == (s.core c).dom then s else s.markUnsafe c
    s.deliver c f rt

/-- A send step's turn: its source is sampled at D − 8 in scratchpad, or read from memory to be sampled at D − 512, and
it departs at D. -/
def State.cxSendTurn (s : State) (c : Nat) (q : Seqr) (a : ActiveEntry) (st : StepState) (ps : PlanStep) : State :=
  let b := a.entry.block
  let (mem, at_, n) := clSpan b ps
  let d := clDepart a ps
  let sc := s.sc c
  let k := (s.core c).eng
  let s :=
    if st.stage ≠ 0 then s
    else if mem then
      if s.timed c && decide (sc + 1024 < d) then s
      else
        let due := if s.timed c then d - 512 else sc + 512
        let s := s.modStep c q st.issue st.n fun st => { st with stage := 1 }
        let (s, ids) := s.engAccess (s.askOf c q a st.n) askLoad at_ n sc due
        s.modStep c q st.issue st.n fun st => { st with reads := ids.map fun id => (id, none) }
    else if sc + 8 < d then s
    else
      s.modStep c q st.issue st.n fun st =>
        { (st.put 0 (natsOf (readBytes k.spad at_ n))).put 1 [natOfBool (k.spadPoisoned at_ n).isSome] with stage := 1 }
  match s.stepAt c q st.issue st.n with
  | none => s
  | some st =>
    let full := !s.timed c && decide (s.planBytes (dieOf ps.pcore) q.idx + n > 65536)
    if st.stage = 0 || decide (sc < d) || !st.readsCome || full then s
    else
      let bs := if mem then st.readBytes else bytesOfNats (st.sample 0)
      let bad := if mem then !(st.sample 99).isEmpty else (st.sample 1).getD 0 0 == 1
      (s.cxSend c q a ps bs bad).cxCommit c q a st

/-! ### Receives -/

/-- Whether a held transfer that no step has taken comes from a step's peer, over a sequencer of index `idx`. -/
def heldFrom (idx : Nat) (ps : PlanStep) (h : Held) : Bool :=
  h.takenBy.isNone && h.flit.srcModule == ps.pmod && h.flit.srcCore == ps.pcore && h.flit.stream == idx

/-- The plan and step number that a held transfer carries. -/
def heldStep (h : Held) : Option (Nat × Nat) := h.flit.plan.map fun p => (p.1, p.2.1)

/-- COMB of R335 as the combine code of a home access. -/
def clOpCode (b : Block) : Nat := clComb b + 1

/-- A receive step takes its arrival, which stays held until the step commits; in Timed it is the one of SC A. One that
carries another plan or step number, or in Timed none at A, is a schedule fault with SUBCAUSE 4 (R336, R337). -/
def State.cxTake (s : State) (c : Nat) (q : Seqr) (a : ActiveEntry) (st : StepState) (ps : PlanStep) : State :=
  let mine := (s.core c).fab.plan.filter fun h => heldFrom q.idx ps h && (!s.timed c || h.arr == s.sc c)
  match mine.find? (fun h => heldStep h == some (clPlan a.entry.block, ps.stepno)) with
  | some h =>
    let s := s.modFab c fun k =>
      { k with plan := match k.plan.idxOf? h with
          | some i => k.plan.set i { h with takenBy := some (st.issue, st.n) }
          | none => k.plan }
    let bs := match h.flit.plan with
      | some p => p.2.2
      | none => []
    s.modStep c q st.issue st.n fun st => { (st.put 0 (natsOf bs)).put 1 [natOfBool h.flit.poisoned] with stage := 1, t0 := s.sc c }
  | none =>
    if s.timed c || !mine.isEmpty then
      let ev := { engEv .cx st.issue 0x08 4 0 with duesc := BitVec.ofNat 64 (s.sc c) }
      let s := s.engEvent c q st.n ev
      if s.timed c then s.cxCommit c q a st else s
    else s

/-- Combine the elements of two runs of bytes (R336). -/
def clCombine (b : Block) (fz : Bool) (old new : List Byte) : List Byte × FlagSet :=
  let z := clBytes (clEtype b)
  let ys := (List.range (new.length / z)).map fun i =>
    combineElem (clOpCode b) (clType (clEtype b)) fz (bytesVal ((old.drop (z * i)).take z)) (bytesVal ((new.drop (z * i)).take z))
  (ys.flatMap fun y => bytesOf y.1 z, joinFlags ys)

/-- A receive step's turn. `t0` becomes its arrival SC A once the transfer is taken: a scratchpad destination is sampled
at A + 4 and written at A + 8; a memory one is read and written as one access at A + 520 (R337). -/
def State.cxRecvTurn (s : State) (c : Nat) (q : Seqr) (a : ActiveEntry) (st : StepState) (ps : PlanStep) : State :=
  let b := a.entry.block
  let (mem, at_, n) := clSpan b ps
  let sc := s.sc c
  let l := (s.route (s.partOf c) ps.route).l
  let s := if st.stage = 0 && (!s.timed c || decide (clDepart a ps + l ≤ sc)) then s.cxTake c q a st ps else s
  match s.stepAt c q st.issue st.n with
  | none => s
  | some st =>
    let k := (s.core c).eng
    let ask := s.askOf c q a st.n
    let bs := bytesOfNats ((st.sample 0).take n)
    let bad := (st.sample 1).getD 0 0 == 1
    let poisonEv (s : State) (w : Nat) : State :=
      s.engEvent c q st.n { engEv .cx st.issue 0x0D 0 w with
        body := 3, words := [BitVec.ofNat 64 (3 * 2 ^ 60), 0, BitVec.ofNat 64 (7 * 2 ^ 48), 0] }
    let s :=
      if st.stage = 1 && decide (st.t0 + 4 ≤ sc) then
        if mem then
          let s := s.modStep c q st.issue st.n fun st => { st with stage := 2 }
          if ps.combine && bad then poisonEv s 0 else
          let d : AskData := ⟨if ps.combine then .combine else .store, bytesVal bs, maskOf bs.length, 0, clOpCode b, clType (clEtype b),
            bad && !ps.combine⟩
          (s.engAccess ask d at_ bs.length sc (st.t0 + 520)).1
        else
          let old := readBytes k.spad at_ bs.length
          let (out, fl) := if ps.combine then clCombine b (s.fz c) old bs else (bs, 0)
          let poison := if ps.combine then k.spadPoisoned at_ bs.length else none
          let s := s.modStep c q st.issue st.n fun st => { st with stage := 2, flags := fl }
          match poison with
          | some w => s.engEvent c q st.n ((engEv .cx st.issue 0x0D 0 w).poisoned 2 w)
          | none =>
            if ps.combine && bad then poisonEv s 0
            else s.engStore ask .store at_ out (st.t0 + 8) 0 0 bad
      else s
    match s.stepAt c q st.issue st.n with
    | none => s
    | some st =>
      let due := st.t0 + (if mem then 520 else 8)
      if st.stage = 2 && (if s.timed c then decide (due ≤ sc) else s.writesOut c q st.issue st.n) then s.cxCommit c q a st else s

/-! ### The events -/

/-- A turn of the send steps, or of the receive steps, of a CX sequencer. -/
def State.cxTurn (s : State) (q : Seqr) (recv : Bool) : State :=
  let c := s.seqCore q
  if !s.live c || q.eng != .cx then s
  else
    let s := s.cxBegin c q
    s.eachStep c q fun s a st =>
      match (s.entryPlan c a.entry)[st.n]? with
      | none => s
      | some ps => if ps.recv != recv then s else if recv then s.cxRecvTurn c q a st ps else s.cxSendTurn c q a st ps

def execCxSendStep (q : Seqr) (s : State) : Host.Outcome State Fault Refusal := .next (s.cxTurn q false)

def execCxReceiveStep (q : Seqr) (s : State) : Host.Outcome State Fault Refusal := .next (s.cxTurn q true)

/-! ### Audit (R308 to R310) -/

/-- The signature of a result (R309). -/
def auditSignature (ws : List Half) : Nat := crc64 (ws.flatMap fun w => bytesOf w.toNat 4)

/-- The staging areas of a die's cores drain into its audit buffer while that has room (R308). -/
def State.auditDrain (s : State) (die : Nat) : State :=
  s.cores.foldl
    (fun s e =>
      let d := (sget s.audit die).getD default
      match (s.core e.1).staging with
      | some im =>
        if d.fail then s
        else if dieOf e.1 = die ∧ d.images.length < 64 then
          ({ s with audit := sinsert s.audit die { d with images := d.images ++ [im] } }).modCore e.1 fun k => { k with staging := none }
        else s
      | none => s) s

/-- The result that an image's captured inputs give by R225. -/
def AuditImage.recomputed (im : AuditImage) : List Half :=
  (mxResult im.form im.block im.fz im.inputs).map fun y => BitVec.ofNat 32 y.1

/-- The event of an audit mismatch with body 0x07 (R60, R310): the signatures of the first recomputation, of the matrix
engine's result and of the second recomputation. -/
def auditEv (im : AuditImage) (sub : Nat) (sig1 sig2 : Word) : Ev :=
  { engEv .mx im.issue 0x10 sub 0 with
    body := 7
    words := [BitVec.ofNat 64 (im.audcnt.toNat * 2 ^ 32 + im.issue.toNat), sig1,
      BitVec.ofNat 64 (auditSignature im.result), sig2] }

/-- The audits of a die stop: its images go, staged ones too (R310, R311). -/
def State.auditStop (s : State) (die : Nat) : State :=
  let d := (sget s.audit die).getD default
  let s := { s with audit := sinsert s.audit die { d with images := [] } }
  s.cores.foldl (fun s e => if dieOf e.1 = die then s.modCore e.1 fun k => { k with staging := none } else s) s

/-- AUDIT_RECOMPUTATION: the oldest image is recomputed and its signature compared. On a mismatch it is recomputed once
more: where the two agree the core is fenced, and where they differ the audit engine is marked failed and its audits stop
(R310). The bits of `glitch` are errors of the audit engine itself, in the one recomputation and the other. -/
def State.auditRecompute (s : State) (die : Nat) : State :=
  let s := s.auditDrain die
  let d := (sget s.audit die).getD default
  match d.images with
  | [] => s
  | im :: rest =>
    let sig := BitVec.ofNat 64 (auditSignature im.recomputed)
    let sig1 := sig ^^^ d.glitch.1
    let sig2 := sig ^^^ d.glitch.2
    let mis := sig1 != BitVec.ofNat 64 (auditSignature im.result)
    let s := { s with audit := sinsert s.audit die { d with
      images := rest, done := satInc d.done, mis := if mis then satInc d.mis else d.mis, glitch := (0, 0)
      fail := d.fail || (mis && sig1 != sig2) } }
    if !mis then s
    else if sig1 != sig2 then
      (s.auditStop die).raiseFor im.dom im.core (s.partOf im.core) (auditEv im 3 sig1 sig2)
    else
      let live := match im.dom.bind s.dom with
        | some x => x.phase != .ended
        | none => false
      let s := s.modCore im.core fun k => { k with fenced := true }
      s.raiseFor im.dom im.core (s.partOf im.core) (auditEv im (if live = true then 1 else 2) sig1 sig2)

def execAuditRecomputation (die : Nat) (s : State) : Host.Outcome State Fault Refusal :=
  if unitsOk (.auditRecomputation die) then .next (s.auditRecompute die) else .fault .noSuchUnit

end Sys2Proof.Machine
end

