-- ==== Sys2Proof/Machine/HostQueue.lean ====
section
/-! DEFINITION. Host queues (R340 to R353): doorbells, mapping, dispatch and ageing, the commands COPY, BARRIER, SIGNAL
and FENCE with their completion, coalescing, the watchdog of a queue's commands, and the fault queue's head. -/

namespace Sys2Proof.Machine

/-! ### Doorbells (R341, R345) -/

/-- A doorbell on an unmapped queue sets its pending bit, once (R345). -/
def State.setPending (s : State) (p q : Nat) : State :=
  if (s.slotOf q).isSome then s
  else s.modPart p fun t => if t.pending.contains q then t else { t with pending := t.pending ++ [q] }

/-- The range that a data doorbell's values must keep (R341). -/
def QRec.accepts (r : QRec) (tail chead : Nat) : Bool :=
  decide (diff32 tail r.head ≤ 2 ^ r.logn) && decide (diff32 tail r.tail < 2 ^ 31) && decide (diff32 chead r.chead ≤ 2 ^ r.clog)

/-- A record that no command has: the queue's HEAD as its index. -/
def State.noCmd (s : State) (r : QRec) : Cmd :=
  { idx := BitVec.ofNat 32 r.head, words := List.replicate 8 0, at_ := s.basin, dom := none, written := 0, failed := none }

/-- A doorbell error: STATE 1, and a record with status 13. -/
def State.doorbellError (s : State) (q : Nat) : State :=
  let s := s.queueError q
  let r := s.queueRec q
  s.createRecord q (recordOf (s.noCmd r) 13 r.head 0 0 0 s.basin 0) true

/-- A doorbell reaches queue `q`: the port refuses it where the queue does not exist or the key is not RINGKEY. -/
def State.doorbell (s : State) (q rkey : Nat) (f : QRec → State → State) : State :=
  match s.partOfQueue q with
  | none => s.emit (.doorbellNak q)
  | some p =>
    let r := s.queueRec q
    if !r.v || r.ringkey != rkey then s.emit (.doorbellNak q)
    else if !r.inRange then s.doorbellError q
    else (f r s).setPending p q

/-- A data doorbell: TAIL and CHEAD, or a doorbell error. -/
def State.dataDoorbell (s : State) (q : Nat) (rkey : BitVec 32) (v : Word) : State :=
  s.doorbell q rkey.toNat fun r s =>
    let tail := bitsOf v.toNat 0 32
    let chead := bitsOf v.toNat 32 32
    if r.accepts tail chead then s.setQueueRec q ((r.put 1 0 32 tail).put 3 32 32 chead) else s.doorbellError q

/-- A control doorbell: the value 1 on a queue in STATE 0 or 1 discards every command not yet consumed; any other value,
or a disabled queue, leaves it. -/
def State.controlDoorbell (s : State) (q : Nat) (rkey : BitVec 32) (v : Word) : State :=
  s.doorbell q rkey.toNat fun r s =>
    if v = 1 ∧ r.state < 2 then s.setQueueRec q ((r.put 1 32 32 r.tail).put 0 58 2 0) else s

/-- DATA_DOORBELL. -/
def execDataDoorbell (q : Nat) (rkey : BitVec 32) (v : Word) (s : State) : Host.Outcome State Fault Refusal :=
  if unitsOk (.dataDoorbell q rkey v) then .next (s.dataDoorbell q rkey v) else .fault .noSuchUnit

/-- CONTROL_DOORBELL. -/
def execControlDoorbell (q : Nat) (rkey : BitVec 32) (v : Word) (s : State) : Host.Outcome State Fault Refusal :=
  if unitsOk (.controlDoorbell q rkey v) then .next (s.controlDoorbell q rkey v) else .fault .noSuchUnit

/-! ### Mapping (R345, R346) -/

/-- The slots of the front ends that partition `p` owns. -/
def State.slotsOf (s : State) (p : Nat) : List Nat :=
  ((List.range 16).filter fun fe => bitOf (s.partWord p 0) (32 + fe)).flatMap fun fe => (List.range 64).map fun i => 64 * fe + i

/-- The least element under a key; the first where keys are equal. -/
def leastBy {α : Type} (key : α → Nat) : List α → Option α
  | [] => none
  | x :: xs =>
    match leastBy key xs with
    | none => some x
    | some y => if key y < key x then some y else some x

/-- The slot that firmware gives a pending queue: a free one, or else the idle one whose last dispatch is oldest. -/
def State.mapSlot (s : State) (p : Nat) : Option Nat :=
  let ns := s.slotsOf p
  match ns.find? fun n => (s.slot n).queue.isNone with
  | some n => some n
  | none => leastBy (fun n => (s.slot n).lastDispatch) (ns.filter fun n => (s.slot n).idle)

/-- Load queue `q` into slot `n`, whose live record goes back to memory. -/
def State.mapQueue (s : State) (p q n : Nat) : State :=
  let x := s.slot n
  let s := match x.queue with
    | some o => (s.setSlot n { x with queue := none }).storeRec p o x.rec_
    | none => s
  let r := s.queueRec q
  let s := s.modPart p fun t => { t with pending := t.pending.filter (· != q) }
  if r.v && r.inRange then
    (s.setSlot n { HwSlot.reset with queue := some q, rec_ := r, level := r.prio, lastDispatch := x.lastDispatch }).tableWrite
  else s.setSlot n { HwSlot.reset with lastDispatch := x.lastDispatch }

/-- QUEUE_MAPPING: the queue whose doorbell came first. During a handover pending doorbells wait (R355). -/
def execQueueMapping (part : Nat) (s : State) : Host.Outcome State Fault Refusal :=
  if unitsOk (.queueMapping part) then
    .next (match (s.part part).pending.head?, s.mapSlot part with
      | some q, some n => if s.hw.updating then s else s.mapQueue part q n
      | _, _ => s)
  else .fault .noSuchUnit

/-! ### Dispatch (R342, R343, R347, R348) -/

/-- Whether every word from `i` on is zero. -/
def Cmd.zeroFrom (c : Cmd) (i : Nat) : Bool := (List.range (8 - i)).all fun j => c.word (i + j) == 0

/-- A module-side range of a COPY lies in region 0 (R244, R342). -/
def copyRangeOk (a len : Nat) : Bool := decide (a + len ≤ 2 ^ 48)

/-- A valid command of partition `p` (R342). -/
def State.cmdValid (s : State) (p : Nat) (c : Cmd) : Bool :=
  bitsOf (c.word 0) 11 37 == 0 && (!c.ovl || c.opcode == 1) &&
    match c.opcode with
    | 1 =>
      let n := bitsOf (c.word 1) 16 12
      bitsOf (c.word 1) 12 4 == 0 && c.word 1 < 2 ^ 28 && 1 ≤ n && n ≤ 64 && c.word 2 % 64 == 0 && c.word 2 < 2 ^ 48
        && c.zeroFrom 4
    | 2 =>
      let dir := bitsOf (c.word 4) 62 2
      let len := bitsOf (c.word 3) 0 32
      1 ≤ len && dir != 3 && bitsOf (c.word 4) 24 38 == 0 && c.zeroFrom 5 && (dir == 1 || copyRangeOk (c.word 1) len)
        && (dir == 2 || copyRangeOk (c.word 2) len)
    | 3 => c.word 1 < 2 ^ 17 && c.word 2 < 2 ^ 32 && c.zeroFrom 3 && s.partOfQueue (c.word 1) == some p
    | 4 => bitsOf (c.word 1) 0 32 == 0 && c.word 1 < 2 ^ 33 && c.word 2 < 2 ^ 32 && c.zeroFrom 3
    | 5 => c.zeroFrom 1
    | _ => false

/-- Whether slot `a` goes before slot `b` at dispatch: the higher level, then the earlier readiness, then the lower
number. -/
def State.slotBefore (s : State) (a b : Nat) : Bool :=
  let x := s.slot a
  let y := s.slot b
  let rx := x.readyAt.getD s.basin
  let ry := y.readyAt.getD s.basin
  decide (y.level < x.level) || (x.level == y.level && (decide (rx < ry) || (rx == ry && decide (a < b))))

/-- The slot that the dispatcher of front end `fe` takes. -/
def State.dispatchSlot (s : State) (fe : Nat) : Option Nat :=
  (sortBy s.slotBefore (((List.range 64).map fun i => 64 * fe + i).filter s.slotReady)).head?

/-- The event that carries out a command of front end `fe`. -/
def commandEvent (fe opcode : Nat) : Instr :=
  match opcode with
  | 1 => .launch fe
  | 2 => .copy fe
  | 3 => .barrier fe
  | 4 => .signal fe
  | _ => .fence fe

/-- Consume the command of slot `n` on the dispatcher of front end `fe`. The sectors that its 64 bytes are read from are
decoded like any other (R292). -/
def State.dispatchFrom (s : State) (fe n : Nat) : State :=
  let x := s.slot n
  match x.queue with
  | none => s
  | some q =>
    let p := (s.partOfQueue q).getD 0
    let c := s.nextCmd p x.rec_
    let s := (s.iaRead p (x.rec_.ringIA + 64 * (x.rec_.head % 2 ^ x.rec_.logn)) 64).1
    let r := x.rec_.put 1 32 32 (x.rec_.head + 1)
    let x := { x with rec_ := r, level := r.prio, readyAt := none, lastDispatch := s.basin, wdc1 := 0, wdc2 := 0, wdc3 := 0 }
    if s.cmdValid p c then
      let s := s.setSlot n { x with execs := x.execs ++ [c] }
      let s := { s with io := { s.io with
        disps := sinsert s.io.disps fe { slot := n, cmd := c } } }
      s.soon (.op s.cur (commandEvent fe c.opcode))
    else
      let s := s.setSlot n x
      (s.queueError q).complete q c 12 ⟨0, false, 0, 0⟩

/-- DISPATCH: a free dispatcher takes one command. -/
def execDispatch (fe : Nat) (s : State) : Host.Outcome State Fault Refusal :=
  if unitsOk (.dispatch fe) then
    .next (match sget s.io.disps fe, s.dispatchSlot fe with
      | none, some n => s.dispatchFrom fe n
      | _, _ => s)
  else .fault .noSuchUnit

/-- AGEING_QUANTUM: the level of every slot of the partition with a ready command that is not dispatched rises, to 7 at
most (R347). -/
def execAgeingQuantum (part : Nat) (s : State) : Host.Outcome State Fault Refusal :=
  if unitsOk (.ageingQuantum part) then
    .next ((s.slotsOf part).foldl
      (fun s n => if s.slotReady n then s.modSlot n fun x => { x with level := min 7 (x.level + 1) } else s) s)
  else .fault .noSuchUnit

/-! ### The command at a dispatcher -/

/-- The command of opcode `op` at hand on front end `fe`, with its queue. -/
def State.atHand (s : State) (fe op : Nat) : Option (Nat × Cmd) :=
  match sget s.io.disps fe with
  | some d =>
    match (s.slot d.slot).queue with
    | some q => if d.cmd.opcode = op then some (q, d.cmd) else none
    | none => none
  | none => none

/-- The dispatcher is free again. -/
def State.freeDisp (s : State) (fe : Nat) : State := { s with io := { s.io with disps := serase s.io.disps fe } }

/-- The command `idx` of queue `q` that is in execution. -/
def State.execOf (s : State) (q idx : Nat) : Option Cmd :=
  match s.slotOf q with
  | some n => (s.slot n).execs.find? fun e => e.idx.toNat == idx
  | none => none

/-- Replace a command in execution. -/
def State.setExec (s : State) (q : Nat) (c : Cmd) : State :=
  match s.slotOf q with
  | some n => s.modSlot n fun x => { x with execs := x.execs.map fun e => if e.idx = c.idx then c else e }
  | none => s

/-! ### SIGNAL, BARRIER and FENCE (R344) -/

/-- BARRIER and FENCE wait for their completion events. -/
def execBarrier (fe : Nat) (s : State) : Host.Outcome State Fault Refusal :=
  if unitsOk (.barrier fe) then
    .next (match s.atHand fe 3 with
      | some _ => s.freeDisp fe
      | none => s)
  else .fault .noSuchUnit

def execFence (fe : Nat) (s : State) : Host.Outcome State Fault Refusal :=
  if unitsOk (.fence fe) then
    .next (match s.atHand fe 5 with
      | some _ => s.freeDisp fe
      | none => s)
  else .fault .noSuchUnit

/-- SIGNAL: SEQ is set or added to, and the command completes at once. -/
def State.signal (s : State) (q : Nat) (c : Cmd) : State :=
  let r := s.queueRec q
  let v := c.word 2
  let s := s.setQueueRec q (r.put 2 32 32 (if bitOf (c.word 1) 32 then r.seq + v else v))
  s.complete q c 0 ⟨0, false, 0, 0⟩

def execSignal (fe : Nat) (s : State) : Host.Outcome State Fault Refusal :=
  if unitsOk (.signal fe) then
    .next (match s.atHand fe 4 with
      | some (q, c) => (s.freeDisp fe).signal q c
      | none => s)
  else .fault .noSuchUnit

/-- Whether a BARRIER's condition holds: (SEQ − V) mod 2^32 < 2^31. -/
def State.barrierMet (s : State) (c : Cmd) : Bool := decide (diff32 (s.queueRec (c.word 1)).seq (c.word 2) < 2 ^ 31)

/-- BARRIER_COMPLETION. -/
def execBarrierCompletion (q idx : Nat) (s : State) : Host.Outcome State Fault Refusal :=
  .next (match s.execOf q idx with
    | some c => if c.opcode = 3 ∧ s.barrierMet c then s.complete q c 0 ⟨0, false, 0, 0⟩ else s
    | none => s)

/-- Whether a FENCE is the oldest command in execution: every earlier one has completed, and with it its writes: a COPY's
are acknowledged by the host before it completes, and so are a launch's before it retires. -/
def State.fenceMet (s : State) (q idx : Nat) : Bool :=
  match s.slotOf q with
  | some n => ((s.slot n).execs.head?).any fun e => e.idx.toNat == idx
  | none => false

/-- FENCE_COMPLETION. -/
def execFenceCompletion (q idx : Nat) (s : State) : Host.Outcome State Fault Refusal :=
  .next (match s.execOf q idx with
    | some c => if c.opcode = 5 ∧ s.fenceMet q idx then s.complete q c 0 ⟨0, false, 0, 0⟩ else s
    | none => s)

/-! ### COPY (R344) -/

/-- A COPY in progress: the state, the bytes written, and the status of a failure. -/
abbrev CopyState := State × Nat × Option (BitVec 8)

/-- The bytes that a piece of a COPY reads from the module, or its failure: 14 a translation, 15 poison. -/
def State.copyRead (s : State) (p ia n : Nat) : State × Except (BitVec 8) (List Byte) :=
  match s.translateHome p ia true false with
  | .ok pa leaf size =>
    let (s, r) := (s.noteWalk p ia).memRead none p ia n (.ok pa leaf size)
    let e : Ev := { s.beEv 0x0D 0 15 ia with engine := 9, pc := 0 }
    let s := s.reportFound none 0 p e 0 true r.found
    if metPoison r.found || r.found.any (fun f => f.2.sev == .x || f.2.tagst == 2) then
      (s, .error (if metPoison r.found then 15 else 14))
    else (s, .ok r.bytes)
  | _ => (s, .error 14)

/-- Bytes of a free value (R2). -/
def State.freeBytes (s : State) (n : Nat) : State × List Byte :=
  let (s, x) := s.drawFree
  (s, bytesOf x.toNat n)

/-- Write a piece of a COPY into the module. A sector that fails takes unspecified values. -/
def State.copyWrite (s : State) (p dst : Nat) (bytes : Except (BitVec 8) (List Byte)) (n done : Nat) : CopyState :=
  match bytes with
  | .ok bs =>
    let (s', ok) := s.iaStore p dst bs
    if ok then (s', done + n, none)
    else
      let (s, f) := s.freeBytes n
      ((s.iaStore p dst f).1, done, some 14)
  | .error st =>
    let (s, f) := s.freeBytes n
    ((s.iaStore p dst f).1, done, some st)

/-- Fields of a COPY (R342): DIR, LEN, the host queue pair and the host rkey. -/
def Cmd.dir (c : Cmd) : Nat := bitsOf (c.word 4) 62 2
def Cmd.len (c : Cmd) : Nat := bitsOf (c.word 3) 0 32
def Cmd.qp (c : Cmd) : Nat := c.word 4 % 2 ^ 24
def Cmd.rkey (c : Cmd) : Nat := bitsOf (c.word 3) 32 32

/-- One sector's piece of a COPY from the module: to the module, or sent to the host. -/
def State.copyPiece (p : Nat) (c : Cmd) (a : CopyState) (q : Piece) : CopyState :=
  if a.2.2.isSome then a
  else
    let dst := c.word 2 + q.ofs
    let (s, r) := a.1.copyRead p (c.word 1 + q.ofs) q.len
    if c.dir = 0 then s.copyWrite p dst r q.len a.2.1
    else
      match r with
      | .ok bs => (s.emit (.hostWrite c.qp c.rkey dst bs), a.2.1 + q.len, none)
      | .error st => (s, a.2.1, some st)

/-- Carry out a COPY from the module, in increasing address order, sector by sector: the bytes written or sent. -/
def State.copyRun (s : State) (p : Nat) (c : Cmd) : CopyState :=
  (piecesOf (c.word 1) c.len).foldl (State.copyPiece p c) (s, 0, none)

/-- The copy unit has done all it can for a COPY: its completion is an event of the next cycle. -/
def State.copyEnds (s : State) (q : Nat) (c : Cmd) : State :=
  (s.setExec q c).schedule (s.basin + 1) (.op s.cur (.copyCompletion q c.idx.toNat))

/-- The host's answer to a COPY is awaited. -/
def State.awaitHost (s : State) (q : Nat) (c : Cmd) (n : Nat) : State :=
  { s.setExec q c with io := { (s.setExec q c).io with
    copies := (s.setExec q c).io.copies ++ [{ qp := c.qp, queue := q, idx := c.idx, read := c.dir == 1, left := n }] } }

/-- COPY: the copy unit takes the command; its accesses are taken up at once, the earliest that R272 allows (log 5). A COPY
from the host asks for its bytes; one to the host awaits the acknowledgement of those it has sent. -/
def execCopy (fe : Nat) (s : State) : Host.Outcome State Fault Refusal :=
  if unitsOk (.copy fe) then
    .next (match s.atHand fe 2 with
      | some (q, c) =>
        let s := s.freeDisp fe
        if c.dir = 1 then (s.emit (.hostRead c.qp c.rkey (c.word 1) c.len)).awaitHost q { c with dom := none } c.len
        else
          let (s, n, st) := s.copyRun ((s.partOfQueue q).getD 0) c
          if c.dir = 0 then s.copyEnds q { c with written := n, failed := st, dom := none }
          else if n = 0 then s.copyEnds q { c with failed := st, dom := none }
          else s.awaitHost q { c with failed := st, dom := none } n
      | none => s)
  else .fault .noSuchUnit

/-- The host side of a COPY at hand: the first of a queue pair that reads or that writes the host. -/
def State.hostCopy (s : State) (qp : Nat) (read : Bool) : Option HostCopy :=
  s.io.copies.find? fun x => x.qp == qp && x.read == read

/-- `n` bytes of a COPY's host side are answered: with `c` the command after them, and its end where none are left. -/
def State.hostTaken (s : State) (x : HostCopy) (c : Cmd) (n : Nat) : State :=
  let ends := decide (x.left ≤ n)
  let same (y : HostCopy) : Bool := y.queue == x.queue && y.idx == x.idx
  let s := { s with io := { s.io with
    copies := if ends then s.io.copies.filter fun y => !same y
      else s.io.copies.map fun y => if same y then { y with left := y.left - n } else y } }
  if ends then s.copyEnds x.queue c else s.setExec x.queue c

/-- The bytes of a COPY from the host, from the first that is still to come, written in increasing order. What comes after a
sector that failed is not written. -/
def State.copyTake (s : State) (p : Nat) (c : Cmd) (bytes : List Byte) : CopyState :=
  (piecesOf (c.word 2 + c.written) bytes.length).foldl
    (fun a q =>
      if a.2.2.isSome then a
      else a.1.copyWrite p (c.word 2 + c.written + q.ofs) (.ok ((bytes.drop q.ofs).take q.len)) q.len a.2.1)
    (s, c.written, none)

/-- Data of an RDMA READ arrives for the COPYs of a queue pair, in the order in which they asked (R344); `fuel` bounds
their number. -/
def State.takeHostData (s : State) (qp : Nat) : Nat → List Byte → State
  | 0, _ => s
  | fuel + 1, bytes =>
    if bytes.isEmpty then s
    else
      match s.hostCopy qp true with
      | none => s
      | some x =>
        match s.execOf x.queue x.idx.toNat with
        | none => s
        | some c =>
          let n := min x.left bytes.length
          let (s, w, st) := if c.failed.isSome then (s, c.written, c.failed)
            else s.copyTake ((s.partOfQueue x.queue).getD 0) c (bytes.take n)
          (s.hostTaken x { c with written := w, failed := st } n).takeHostData qp fuel (bytes.drop n)

def State.hostData (s : State) (qp : Nat) (bytes : List Byte) : State := s.takeHostData qp s.io.copies.length bytes

/-- The host acknowledges bytes that the COPYs of a queue pair have written, in the order in which they were sent. -/
def State.takeHostAck (s : State) (qp : Nat) : Nat → Nat → State
  | 0, _ => s
  | fuel + 1, n =>
    if n = 0 then s
    else
      match s.hostCopy qp false with
      | none => s
      | some x =>
        match s.execOf x.queue x.idx.toNat with
        | none => s
        | some c =>
          let m := min x.left n
          (s.hostTaken x { c with written := c.written + m } m).takeHostAck qp fuel (n - m)

def State.hostAck (s : State) (qp n : Nat) : State := s.takeHostAck qp s.io.copies.length n

/-- COPY_COMPLETION: AUX holds the bytes written (R350). -/
def execCopyCompletion (q idx : Nat) (s : State) : Host.Outcome State Fault Refusal :=
  .next (match s.execOf q idx with
    | some c =>
      let awaits := s.io.copies.any fun x => x.queue == q && x.idx == c.idx
      if c.opcode = 2 ∧ (c.failed.isSome ∨ c.written = c.len) ∧ !awaits then
        s.complete q c (c.failed.getD 0).toNat ⟨0, false, 0, c.written⟩
      else s
    | none => s)

/-! ### Coalescing (R351) -/

/-- Cycles of a microsecond. -/
def cyclesPerUs : Nat := 1600

/-- TIDLE has passed since the newest held record. -/
def State.tidleDue (s : State) (q : Nat) : Bool :=
  match s.slotOf q with
  | some n =>
    match (s.slot n).held.getLast? with
    | some r => decide (r.at_ + (s.slot n).rec_.tidle * cyclesPerUs ≤ s.basin)
    | none => false
  | none => false

/-- THOLD has passed since the oldest held record. -/
def State.tholdDue (s : State) (q : Nat) : Bool :=
  match s.slotOf q with
  | some n =>
    match (s.slot n).held.head? with
    | some r => decide (r.at_ + (s.slot n).rec_.thold * cyclesPerUs ≤ s.basin)
    | none => false
  | none => false

/-- TIDLE_EXPIRY. -/
def execTidleExpiry (q : Nat) (s : State) : Host.Outcome State Fault Refusal := .next (if s.tidleDue q then s.sendHeld q else s)

/-- THOLD_EXPIRY. -/
def execTholdExpiry (q : Nat) (s : State) : Host.Outcome State Fault Refusal := .next (if s.tholdDue q then s.sendHeld q else s)

/-! ### The watchdog (R352) -/

/-- Cycles of a limit's unit. -/
def watchUnit : Nat := 16384

/-- The body 0x08 of a watchdog stage (R60). -/
def watchWords (stage opcode slot limit dispatched killed : Nat) : List Word :=
  [BitVec.ofNat 64 (stage * 2 ^ 60 + opcode * 2 ^ 52 + slot * 2 ^ 42), BitVec.ofNat 64 (limit * 2 ^ 44),
    BitVec.ofNat 64 dispatched, BitVec.ofNat 64 killed]

/-- The event of a watchdog stage. -/
def watchEv (stage : Nat) (words : List Word) : Ev :=
  { cause := 0x11, subcause := BitVec.ofNat 8 stage, engine := 9, slot := 15, pc := 0, faddr := 0, tcode := 0, issue := 0
    tengine := 0, duesc := 0, body := 8, words }

/-- Stage 1 has reached its limit: it counts the domain's SC while it runs, once a launch. -/
def State.watch1Due (s : State) (q : Nat) (c : Cmd) : Bool :=
  let w := (s.queueRec q).w1
  match c.dom.bind s.dom with
  | some d => c.opcode == 1 && w != 0 && !d.stage1Done && d.phase == .running && decide (w * watchUnit ≤ d.sc s.basin)
  | none => false

/-- Stage 2 has reached its limit: basin cycles from the dispatch of a LAUNCH, BARRIER or COPY. -/
def State.watch2Due (s : State) (q : Nat) (c : Cmd) : Bool :=
  let w := (s.queueRec q).w2
  1 ≤ c.opcode && c.opcode ≤ 3 && w != 0 && decide (c.at_ + w * watchUnit ≤ s.basin)

/-- WATCHDOG_STAGE_1: a pre-emption request; skipped for a basin timetable and where stage 2 is due as well. -/
def execWatchdogStage1 (q idx : Nat) (s : State) : Host.Outcome State Fault Refusal :=
  .next (match s.execOf q idx with
    | some c =>
      if s.watch1Due q c && !s.watch2Due q c then
        match c.dom, c.dom.bind s.dom with
        | some id, some d =>
          let s := s.modDom id fun d => { d with stage1Done := true }
          if d.basin then s
          else s.raiseDom id 0 (watchEv 1 (watchWords 1 1 ((s.slotOf q).getD 0) (s.queueRec q).w1 c.at_ 0))
        | _, _ => s
      else s
    | none => s)

/-- WATCHDOG_STAGE_2: a LAUNCH is killed with status 8; a BARRIER or COPY ends with status 8, and the queue enters
STATE 1. -/
def execWatchdogStage2 (q idx : Nat) (s : State) : Host.Outcome State Fault Refusal :=
  .next (match s.execOf q idx with
    | some c =>
      if s.watch2Due q c then
        let e := watchEv 2 (watchWords 2 c.opcode ((s.slotOf q).getD 0) (s.queueRec q).w2 c.at_ 0)
        match c.opcode, c.dom with
        | 1, some id => s.raiseDom id 0 e
        | 1, none => s
        | _, _ =>
          let s := s.writeRecord ((s.partOfQueue q).getD 0) 0 none e 5 false
          (s.queueError q).complete q c 8 ⟨0, false, 0, c.written⟩
      else s
    | none => s)

/-! ### Fault queues (R353) -/

/-- FAULT_QUEUE_CONSUME: Headwater consumes `n` records and advances the ring's head. The cycle's records of before stay
where they stand: a later one of the cycle follows them. -/
def execFaultQueueConsume (part n : Nat) (s : State) : Host.Outcome State Fault Refusal :=
  if unitsOk (.faultQueueConsume part n) then
    .next (s.modPart part fun t =>
      let m := min n t.fqCount
      let size := 2 ^ (8 + ((t.words[0]?.getD 0).toNat % 16))
      { t with fqHead := (t.fqHead + m) % size, fqCount := t.fqCount - m, batch := [], batchOut := 0 })
  else .fault .noSuchUnit

end Sys2Proof.Machine
end

