-- ==== Sys2Proof/Machine/Rdma.lean ====
section
/-! DEFINITION. The Ethernet port (R372 to R375): frames, inbound RDMA operations, congestion notification and the local
ACK timeout. -/

namespace Sys2Proof.Machine

/-! ### Queue pairs and regions (R373, R374) -/

def State.qp (s : State) (n : Nat) : QueuePair := (sget s.io.qps n).getD ⟨false, 0, 0, 0, [], none, none⟩

def State.setQp (s : State) (n : Nat) (x : QueuePair) : State := { s with io := { s.io with qps := sinsert s.io.qps n x } }

/-- The line rate in Mb/s. -/
def lineRate : Nat := 800000

/-- The kinds of access that a region's permissions tell apart. -/
inductive RdmaKind | rd | wr | at_
deriving DecidableEq, Repr

/-- The entry of the memory-region table that an rkey names, for a queue pair of its partition (R374). -/
def State.regionOf (s : State) (qp : Nat) (rkey : BitVec 32) : Option Region :=
  match sget s.io.regions (rkey.toNat % 65536) with
  | none => none
  | some r => if r.valid && r.key.toNat == rkey.toNat / 65536 && (s.qp qp).part == r.part then some r else none

/-- The memory address of an RDMA access, or none where the port refuses it (R374). A doorbell window is no memory. `addr` counts from the region's base
(log 19). -/
def State.regionIA (s : State) (qp : Nat) (rkey : BitVec 32) (addr n : Nat) (k : RdmaKind) : Option (Nat × Nat) :=
  match s.regionOf qp rkey with
  | none => none
  | some r =>
    let allowed := match k with
      | .rd => r.rd
      | .wr => r.wr
      | .at_ => r.at_ && addr % 8 == 0
    if decide (addr + n ≤ r.len) && allowed && !r.doorbells then some (r.part, r.base + addr) else none

/-! ### The doorbell window (R341) -/

/-- The first queue of a partition: that of its lowest quarter (R339). -/
def State.firstQueue (s : State) (p : Nat) : Nat := ((List.range 4).find? fun k => bitOf (s.partWord p 0) (56 + k)).getD 0 * 32768

/-- The queue that an offset of the doorbell window of partition `p` names, and whether it is the control doorbell. -/
def State.doorbellAt (s : State) (p addr : Nat) : Option (Nat × Bool) :=
  let control := decide (0x100000 ≤ addr)
  let q := s.firstQueue p + addr % 0x100000 / 8
  if addr % 8 = 0 ∧ addr < 0x200000 ∧ s.partOfQueue q = some p then some (q, control) else none

/-- A write to the doorbell window: an aligned one of 8 bytes under the queue's RINGKEY rings a doorbell; the port refuses
any other access. -/
def State.windowWrite (s : State) (qp : Nat) (rkey : BitVec 32) (r : Region) (addr : Nat) (data : List Byte) : State :=
  match s.doorbellAt r.part addr with
  | none => s.emit (.nak qp false)
  | some (q, control) =>
    let x := s.queueRec q
    if data.length = 8 ∧ addr + 8 ≤ r.len ∧ r.wr ∧ x.v ∧ x.ringkey = rkey.toNat then
      let v : Word := BitVec.ofNat 64 (bytesVal data)
      (if control then s.controlDoorbell q rkey v else s.dataDoorbell q rkey v).emit (.rdmaAck qp)
    else s.emit (.nak qp false)

/-! ### ETHERNET_FRAME_RECEIVE (R372, R375) -/

/-- Whether a frame passes the port's checks. -/
def frameOk (f : EthFrame) : Bool :=
  f.fcsOk && decide (64 ≤ f.length) && decide (f.length ≤ 9216) && decide (f.vlanTags ≤ 1) && f.ipOk && !f.fragment
    && f.udp4791 && f.icrcOk

/-- Cycles in `us` microseconds. -/
def microseconds (us : Nat) : Nat := 1600 * us

/-- ETHERNET_FRAME_RECEIVE: PAUSE is ignored, a frame that fails a check is dropped and counted, and a frame with CE
marked is answered with a CNP, at most one a queue pair in 50 µs. The operation that it carries is an event of its own. -/
def State.frame (s : State) (f : EthFrame) : State :=
  if f.pause then s
  else if !frameOk f then { s with io := { s.io with ethDrop := s.io.ethDrop + 1 } }
  else
    let q := s.qp f.qp
    let due := match q.lastCnpSent with
      | some t => decide (t + microseconds 50 ≤ s.basin)
      | none => true
    if f.ce && q.valid && due then (s.setQp f.qp { q with lastCnpSent := some s.basin }).emit (.cnp f.qp) else s

def execEthernetFrameReceive (f : EthFrame) (s : State) : Host.Outcome State Fault Refusal := .next (s.frame f)

/-! ### Inbound operations (R373, R374) -/

/-- RDMA_WRITE, to memory or to a doorbell window: acknowledged once it has performed; a write that does not translate is answered as an operational
error (log 19). -/
def State.rdmaWrite (s : State) (qp : Nat) (rkey : BitVec 32) (addr : Nat) (data : List Byte) : State :=
  if !(s.qp qp).valid then s
  else
    match (s.regionOf qp rkey).filter (·.doorbells), s.regionIA qp rkey addr data.length .wr with
    | some r, _ => s.windowWrite qp rkey r addr data
    | none, none => s.emit (.nak qp false)
    | none, some (p, ia) =>
      let (s, ok) := s.iaStore p ia data
      if ok then s.emit (.rdmaAck qp) else s.emit (.nak qp true)

def execRdmaWrite (qp : Nat) (rkey : BitVec 32) (addr : Nat) (data : List Byte) (s : State) : Host.Outcome State Fault Refusal :=
  .next (s.rdmaWrite qp rkey addr data)

/-- The event of an error that an inbound operation meets; no domain has it. -/
def portEv (ia : Nat) : Ev :=
  { cause := 0x0D, subcause := 0, engine := 8, slot := 15, pc := 0, faddr := BitVec.ofNat 64 ia, tcode := 0, issue := 0
    tengine := 0, duesc := 0, body := 1, words := [] }

/-- Read a piece for the port: its bytes, and whether it translated and was free of poison. -/
def State.portRead (s : State) (p : Nat) (ia n : Nat) : State × List Byte × Bool :=
  match s.translateNow p ia true false with
  | (s, .ok pa leaf size) =>
    let (s, r) := s.memRead none p ia n (.ok pa leaf size)
    let ok := r.found.all fun f => f.2.sev != .h && f.2.sev != .x && f.2.tagst != 2
    (s.reportFound none 0 p (portEv ia) 0 false r.found, r.bytes, ok)
  | (s, _) => (s, List.replicate n 0, false)

/-- RDMA_READ: a read that meets poison is answered with an operational NAK, and the event is recorded (R295). -/
def State.rdmaRead (s : State) (qp : Nat) (rkey : BitVec 32) (addr len : Nat) : State :=
  if !(s.qp qp).valid then s
  else
    match s.regionIA qp rkey addr len .rd with
    | none => s.emit (.nak qp false)
    | some (p, ia) =>
      let a := (piecesOf ia len).foldl
        (fun (a : State × List Byte × Bool) q =>
          let r := a.1.portRead p (ia + q.ofs) q.len
          (r.1, a.2.1 ++ r.2.1, a.2.2 && r.2.2)) (s, [], true)
      if a.2.2 then a.1.emit (.rdmaData qp a.2.1) else a.1.emit (.nak qp true)

def execRdmaRead (qp : Nat) (rkey : BitVec 32) (addr len : Nat) (s : State) : Host.Outcome State Fault Refusal :=
  .next (s.rdmaRead qp rkey addr len)

/-- RDMA_SEND: one posted buffer is consumed; with none posted the answer is an RNR NAK. Data past the buffer's end is
refused (log 19). -/
def State.rdmaSend (s : State) (qp : Nat) (data : List Byte) : State :=
  let q := s.qp qp
  if !q.valid then s
  else
    match q.bufs with
    | [] => s.emit (.rnrNak qp)
    | b :: bs =>
      let s := s.setQp qp { q with bufs := bs }
      if b.2 < data.length then s.emit (.nak qp false)
      else
        let (s, ok) := s.iaStore q.part b.1 data
        if ok then s.emit (.rdmaAck qp) else s.emit (.nak qp true)

def execRdmaSend (qp : Nat) (data : List Byte) (s : State) : Host.Outcome State Fault Refusal := .next (s.rdmaSend qp data)

/-- An inbound atomic on 8 bytes, single-copy at its home slice (R285): the old word is returned. -/
def State.rdmaAtomic (s : State) (qp : Nat) (rkey : BitVec 32) (addr : Nat) (f : Nat → Nat) : State :=
  if !(s.qp qp).valid then s
  else
    match s.regionIA qp rkey addr 8 .at_ with
    | none => s.emit (.nak qp false)
    | some (p, ia) =>
      match s.translateNow p ia true true with
      | (s, .ok pa leaf size) =>
        let (s, old, found) := s.homeRmw false none none p ia 8 (.ok pa leaf size) f
        let s := s.reportFound none 0 p (portEv ia) 0 false found
        if s.stopsAccess p found then s.emit (.nak qp true) else s.emit (.rdmaOld qp (BitVec.ofNat 64 old))
      | (s, _) => s.emit (.nak qp true)

def execAtomicFetchAdd (qp : Nat) (rkey : BitVec 32) (addr : Nat) (x : Word) (s : State) : Host.Outcome State Fault Refusal :=
  .next (s.rdmaAtomic qp rkey addr fun m => (m + x.toNat) % 2 ^ 64)

def execAtomicCompareSwap (qp : Nat) (rkey : BitVec 32) (addr : Nat) (cmp x : Word) (s : State) :
    Host.Outcome State Fault Refusal :=
  .next (s.rdmaAtomic qp rkey addr fun m => if m = cmp.toNat then x.toNat else m)

/-! ### Congestion and the ACK timeout (R373, R375) -/

/-- CNP_RECEIVE: the rate is halved, down to 1 Gb/s. -/
def execCnpReceive (qp : Nat) (s : State) : Host.Outcome State Fault Refusal :=
  let q := s.qp qp
  .next (if q.valid then s.setQp qp { q with rate := max 1000 (q.rate / 2), lastCnpRecv := some s.basin } else s)

/-- RATE_INCREASE: 55 µs after the latest CNP or rise, 5 percent of the line rate, up to the line rate. -/
def execRateIncrease (qp : Nat) (s : State) : Host.Outcome State Fault Refusal :=
  let q := s.qp qp
  .next (match q.lastCnpRecv with
    | some t =>
      if q.valid ∧ t + microseconds 55 ≤ s.basin then
        let rate := min lineRate (q.rate + lineRate / 20)
        s.setQp qp { q with rate, lastCnpRecv := if rate = lineRate then none else some s.basin }
      else s
    | none => s)

/-- The host-facing commands that a lost queue pair fails: every COPY that awaits the host on it ends (R350, status 14). -/
def State.failCopies (s : State) (qp : Nat) : State :=
  (s.io.copies.filter fun x => x.qp == qp).foldl
    (fun s x => match s.execOf x.queue x.idx.toNat with
      | some c => s.hostTaken x { c with failed := some (c.failed.getD 14) } x.left
      | none => s) s

/-- ACK_TIMEOUT: go-back-N retransmission while a retry is left; else the queue pair fails (log 19). -/
def execAckTimeout (qp : Nat) (s : State) : Host.Outcome State Fault Refusal :=
  let q := s.qp qp
  .next (if !q.valid then s
    else if q.retry > 0 then (s.setQp qp { q with retry := q.retry - 1 }).emit (.retransmit qp)
    else (s.setQp qp { q with valid := false }).failCopies qp)

end Sys2Proof.Machine
end

