-- ==== Sys2Proof/Machine/Launch.lean ====
section
/-! DEFINITION. Launches (R16 to R19, R30 to R33, R344): timetable records (R382 to R384), the checks of R32 with their
statuses, pins and residency, the creation of a domain, the clear of a core and the load that follows it. -/

namespace Sys2Proof.Machine

/-! ### Timetable records (R382 to R384) -/

/-- A row of the gang table (R383). -/
structure Gang where
  start : Nat
  entry : Nat
  ovl : Nat
  src : Nat
deriving DecidableEq, Repr, Inhabited

/-- A timetable record. -/
structure Timetable where
  at_ : Nat
  disc : Bool
  wrmode : Nat
  ovldbg : Bool
  basin : Bool
  fhor : Nat
  strmia : Nat
  ranges : Vector Rng 16
  gangs : List Gang
  /-- (core, gang) in core-list order -/
  cores : List (Nat × Nat)
  leases : List Word
  links : List Word
  pins : List Word
  ress : List Word
  seqls : List Word
deriving DecidableEq, Repr

/-- `n` words of partition memory. -/
def State.iaWords (s : State) (p ia n : Nat) : List Nat := (List.range n).map fun i => s.iaWord p (ia + 8 * i)

/-- The record at an address. -/
def State.timetableAt (s : State) (p a : Nat) : Timetable :=
  let h := s.iaWord p a
  let ncore := bitsOf h 44 12 + 1
  let ngang := bitsOf h 40 4 + 1
  let list (skip n : Nat) : List Word := (s.iaWords p (a + 0x340 + 8 * skip) n).map (BitVec.ofNat 64)
  let n1 := bitsOf h 32 8
  let n2 := bitsOf h 26 6
  let n3 := bitsOf h 20 6
  let n4 := bitsOf h 16 4
  { at_ := a, disc := bitOf h 63, wrmode := bitsOf h 61 2, ovldbg := bitOf h 60, basin := bitOf h 59
    fhor := bitsOf (s.iaWord p (a + 8)) 48 16, strmia := s.iaWord p (a + 16) % 2 ^ 50
    ranges := Vector.ofFn fun (i : Fin 16) =>
      rngOf (BitVec.ofNat 64 (s.iaWord p (a + 0x40 + 16 * i.val))) (BitVec.ofNat 64 (s.iaWord p (a + 0x48 + 16 * i.val)))
    gangs := (List.range ngang).map fun g =>
      let w (i : Nat) : Nat := s.iaWord p (a + 0x140 + 32 * g + 8 * i)
      { start := bitsOf (w 0) 32 32, entry := bitsOf (w 0) 0 32, ovl := w 1, src := w 2 }
    cores := (list 0 ncore).map fun w => (bitsOf w.toNat 0 12, bitsOf w.toNat 12 4)
    leases := list ncore n1, links := list (ncore + n1) n2, pins := list (ncore + n1 + n2) n3
    ress := list (ncore + n1 + n2 + n3) n4, seqls := list (ncore + n1 + n2 + n3 + n4) (bitsOf h 8 8) }

/-- Timetable `i` of partition `p`, where its slot has RES set (R382). -/
def State.timetable (s : State) (p i : Nat) : Option Timetable :=
  let slot := s.iaWord p (s.partWord p 3 % 2 ^ 50 + 8 * i)
  if bitOf slot 63 then some (s.timetableAt p (slot % 2 ^ 50)) else none

/-- Bytes of a record (R383, R384). -/
def Timetable.bytes (t : Timetable) : Nat :=
  0x340 + 8 * (t.cores.length + t.leases.length + t.links.length + t.pins.length + t.ress.length + t.seqls.length)

/-- The front end's read of timetable `i` of partition `p` at work, slot and record: where a sector of them is
uncorrectable, its class X event (R300). -/
def State.readTimetable (s : State) (p i : Nat) : State × Option Ev :=
  let slot := s.partWord p 3 % 2 ^ 50 + 8 * i
  let (s, f0) := s.iaRead p slot 8
  let (s, f1) := match s.timetable p i with
    | some t => s.iaRead p t.at_ t.bytes
    | none => (s, [])
  (s, ((f0 ++ f1).find? fun f => f.2.sev == .h || f.2.sev == .x || f.2.tagst == 2).map fun f => metadataEv f.2.ia)

/-- No element stands twice. -/
def distinct (l : List Nat) : Bool := decide (l.eraseDups.length = l.length)

/-- The sequencer of a lease, and its core and index (R384). -/
def seqLeaseKey (w : Word) : Nat := bitsOf w.toNat 56 8
def seqLeaseHold (w : Word) : Nat := bitsOf w.toNat 63 1 * 2 ^ 20 + bitsOf w.toNat 56 4 * 2 ^ 12 + bitsOf w.toNat 0 12

/-- The overlay of a gang as a MOVLY block's words (R328, R383). -/
def Gang.block (g : Gang) : Block := [0, BitVec.ofNat 64 g.ovl, BitVec.ofNat 64 g.src]

/-- A gang's overlay keeps the ranges of R328 and holds its entry address. -/
def Gang.ok (g : Gang) : Bool :=
  let b := g.block
  bz b 1 32 23 && ovRegion b + ovCount b ≤ 14 && ovKind b && ovBase b % 64 == 0 && bz b 2 57 7 && ovSrc b % 64 == 0
    && decide (ovBase b ≤ g.entry) && decide (g.entry < ovBase b + 8192 * ovCount b)

/-- The rules of R383 and R384 on a record, and those of R100, R254, R259, R312 and R16 on its lists. -/
def Timetable.ok (t : Timetable) (dies : Nat) : Bool :=
  t.at_ % 64 == 0 && t.fhor == 256 && (if t.disc then t.wrmode ≤ 1 else t.wrmode == 1 || t.wrmode == 2)
    && (t.disc || (t.leases.isEmpty && t.links.isEmpty && t.seqls.isEmpty && t.pins.isEmpty))
    && t.cores.all (fun c => decide (c.2 < t.gangs.length) && bitOf dies (dieOf c.1)) && distinct (t.cores.map (·.1))
    && t.leases.all (fun w => decide (bitsOf w.toNat 53 8 < 160) && decide (bitsOf w.toNat 0 8 ≤ 192))
    && decide (t.ress.length ≤ 8)
    && t.ress.all (fun w => decide (1 ≤ bitsOf w.toNat 60 4) && decide (bitsOf w.toNat 60 4 ≤ 12) && decide (1 ≤ bitsOf w.toNat 36 21))
    && t.seqls.all (fun w => !bitOf w.toNat 63 || decide (bitsOf w.toNat 56 4 < 8))
    && distinct (t.seqls.map seqLeaseKey)
    && distinct ((t.seqls.filter fun w => bitOf w.toNat 63).map seqLeaseHold) && t.gangs.all Gang.ok

/-! ### Gangs (R19) -/

/-- The cores of a gang, in increasing number. -/
def gangCores (cores : List (Nat × Nat)) (g : Nat) : List Nat :=
  sortBy (fun a b => decide (a < b)) ((cores.filter fun c => c.2 == g).map (·.1))

/-- The dies of a gang, in increasing number, and its cores on one die. -/
def gangDies (cores : List (Nat × Nat)) (g : Nat) : List Nat := ((gangCores cores g).map dieOf).eraseDups

def coresOn (cores : List (Nat × Nat)) (g die : Nat) : List Nat := (gangCores cores g).filter fun c => dieOf c == die

/-- A gang has a core, and as many on each of its dies. -/
def gangOk (cores : List (Nat × Nat)) (g : Nat) : Bool :=
  match gangDies cores g with
  | [] => false
  | d :: ds => ds.all fun e => (coresOn cores g e).length == (coresOn cores g d).length

/-- Die ordinal, local index and cores a die of core `c` in gang `g`. -/
def gangPlace (cores : List (Nat × Nat)) (g c : Nat) : Nat × Nat × Nat :=
  let on := coresOn cores g (dieOf c)
  ((gangDies cores g).idxOf (dieOf c), on.idxOf c, max on.length 1)

/-! ### The checks of R32 -/

/-- A domain that is live: armed, running or frozen. -/
def Domain.live (d : Domain) : Bool := d.phase == .armed || d.phase == .running || d.phase == .frozen

def State.liveDoms (s : State) : List Domain := (s.doms.map (·.2)).filter Domain.live

/-- Stream `x` of the core at place `i` of the core list (R361, R383). -/
def State.streamAt (s : State) (p : Nat) (t : Timetable) (i x : Nat) : Stream :=
  let a := t.strmia + 256 * i + 32 * x
  let w (j : Nat) : Word := BitVec.ofNat 64 (s.iaWord p (a + 8 * j))
  ⟨w 0, w 1, w 2⟩

/-- A route is usable and its first link is ready (R385, R396). -/
def State.routeReady (s : State) (p i : Nat) : Bool :=
  let r := s.route p i
  r.v && (!r.bylor || s.ready.link.getLsbD r.link0)

/-- A stream descriptor whose kind the launch may have and whose routes are ready (R361, R396). -/
def State.streamReady (s : State) (p : Nat) (t : Timetable) (x : Stream) : Bool :=
  !x.v || ((!t.disc || (x.kind != 2 && (x.kind != 1 || t.basin))) &&
    (x.kind == 2 || (List.range x.stripes).all fun k => s.routeReady p (x.route + k)))

/-- The functions of a launch are ready: dies, stacks, front end, the drift lock of a Timed or basin launch, and the links
of its streams, its collective plans and its leases (R32, R396). -/
def State.launchReady (s : State) (fe p : Nat) (t : Timetable) : Bool :=
  t.cores.all (fun c => s.ready.die.getLsbD (dieOf c.1)) && (s.stacksOf p).all (fun n => s.ready.stack.getLsbD n)
    && s.ready.fe.getLsbD fe && (!(t.disc || t.basin) || s.ready.drlock)
    && t.cores.zipIdx.all (fun c => (List.range 8).all fun x => s.streamReady p t (s.streamAt p t c.2 x))
    && t.links.all (fun w => s.ready.link.getLsbD (bitsOf w.toNat 59 5))
    && (s.planRoutes p (t.cores.map (·.1))).all (s.routeReady p)

/-- The domain that a record would make, for questions of the islands and leases that it uses. -/
def Timetable.domain (t : Timetable) (p fe b0 : Nat) : Domain :=
  { part := p, fe, queue := 0, cmdidx := 0, timetable := 0, cmd := [], params := [], timed := t.disc
    wrmode := BitVec.ofNat 2 t.wrmode, ovldbg := t.ovldbg, basin := t.basin, cores := t.cores
    gangs := t.gangs.map fun g => (BitVec.ofNat 64 g.start, BitVec.ofNat 64 g.entry)
    b0, h := 0, phase := .armed, fpt := none, frozenAt := 0, resumeAt := none, resp := none, saveIA := none, replays := 0
    unsafe_ := false, mdeliv := false, stage1Done := false, killAt := none, replayBa := none, leases := t.leases
    linkLeases := t.links, seqLeases := t.seqls, pins := [], resRegs := [], saved := [], later := [], heldReqs := [], dispAt := 0 }

/-- An island of the launch holds another frequency than 1.6 GHz (R12, R398). -/
def State.slowIsland (s : State) (d : Domain) : Bool := s.islands.any fun i => i.2.freq != 0 && s.domUsesIsland d i.1

/-- Two link leases overlap: the same link and direction, and a common cycle; `b` and `b'` are their domains' B0. -/
def leasesMeet (b b' : Nat) (w w' : Word) : Bool :=
  let x := w.toNat
  let y := w'.toNat
  let m := min (bitsOf x 53 5) (bitsOf y 53 5)
  let sx := b + bitsOf x 24 24
  let sy := b' + bitsOf y 24 24
  bitsOf x 58 6 == bitsOf y 58 6 && bitsOf x 0 24 != 0 && bitsOf y 0 24 != 0 &&
    (decide (wrapInt ((sy : Int) - sx) m < bitsOf x 0 24) || decide (wrapInt ((sx : Int) - sy) m < bitsOf y 0 24))

/-- The leased sectors of a pseudo-channel over a list of leases. -/
def leaseSum (ws : List Word) (key : Nat) : Nat :=
  ws.foldl (fun a w => if bitsOf w.toNat 53 11 = key then a + bitsOf w.toNat 0 8 else a) 0

/-- The (stack, block of L) pairs that a record pins, as stack × 2^31 + block (R381). -/
def State.pinBlocks (s : State) (p : Nat) (t : Timetable) : List Nat :=
  (t.pins.flatMap fun w =>
    let va := bitsOf w.toNat 0 49 * 2 ^ 16
    (List.range (16 * bitsOf w.toNat 49 15)).filterMap fun i =>
      match translate t.ranges .plain (va57 (va + 4096 * i)) 1 false false with
      | .ok ia =>
        let h := s.home p ia
        some (h.1 * 2 ^ 31 + h.2 / 65536)
      | .error _ => none).eraseDups

/-- Pins of a stack in force, the blocks `more` of a record among them; a block that two launches pin takes one entry. -/
def State.pinCount (s : State) (more : List Nat) (stack : Nat) : Nat :=
  let new := more.filter fun k => k / 2 ^ 31 == stack
  let live := (s.liveDoms.flatMap (·.pins)).filter fun k => k / 2 ^ 31 == stack
  new.length + (live.eraseDups.filter fun k => !new.contains k).length

/-- A lease of the record is oversubscribed: pseudo-channels, links, sequencers or pins (R21, R259, R360, R381). -/
def State.oversubscribed (s : State) (p : Nat) (t : Timetable) (b0 : Nat) : Bool :=
  let live := s.liveDoms
  let blocks := s.pinBlocks p t
  t.leases.any (fun w => decide (192 < leaseSum (t.leases ++ live.flatMap (·.leases)) (bitsOf w.toNat 53 11)))
    || live.any (fun d => d.linkLeases.any fun w => t.links.any fun x => leasesMeet b0 d.b0 x w)
    || live.any (fun d => d.seqLeases.any fun w => t.seqls.any fun x => seqLeaseKey x == seqLeaseKey w)
    || (List.range 8).any fun n => decide (2048 < s.pinCount blocks n)

/-- The status of a LAUNCH (R350); 0 where it goes on. -/
def State.launchStatus (s : State) (fe p : Nat) (c : Cmd) (tt : Option Timetable) : Nat :=
  let dies := bitsOf (s.partWord p 0) 24 8
  if bitOf (s.partWord p 0) 60 then 16
  else
    match tt with
    | none => 1
    | some t =>
      let b0 := if t.basin then c.word 3 else s.basin
      if !t.ok dies then 1
      else if t.cores.any (fun k => (s.core k.1).fenced || (s.core k.1).dom.isSome) then 2
      else if !(List.range t.gangs.length).all (gangOk t.cores) then 3
      else if !s.launchReady fe p t then 4
      else if t.disc && s.slowIsland (t.domain p fe b0) then 5
      else if s.oversubscribed p t b0 then 6
      else if t.basin && decide (c.word 3 < s.basin + 12288) then 7
      else 0

/-! ### Pins and residency (R254, R381) -/

/-- Add a domain to the pins of a block's cached result, walking where there is none. -/
def State.pinBlock (s : State) (p id key : Nat) : State :=
  let stack := key / 2 ^ 31
  let L := key % 2 ^ 31 * 65536
  let s := match s.cachedLeaf p stack L with
    | some _ => s
    | none =>
      match s.walk p stack L true false with
      | .leaf w size => s.cacheLeaf p stack L w size
      | _ => s
  { s with mem := { s.mem with tlb := s.mem.tlb.map fun t =>
      if t.stack = stack ∧ t.part = p ∧ t.block = L / 65536 then { t with pins := t.pins ++ [id] } else t } }

/-- The pins of a domain end. -/
def State.unpin (s : State) (id : Nat) : State :=
  { s with mem := { s.mem with tlb := s.mem.tlb.map fun t => { t with pins := t.pins.filter (· != id) } } }

/-- Ways reserved on a die. -/
def State.waysOf (s : State) (die : Nat) : Nat :=
  (List.range 8).foldl
    (fun a n =>
      let r := (sget s.mem.res (8 * die + n)).getD ⟨0, 0⟩
      if r.w0.getLsbD 63 then a + bitsOf r.w0.toNat 56 4 else a) 0

/-- A free residency register of a die. -/
def State.freeRes (s : State) (die : Nat) : Option Nat :=
  ((List.range 8).find? fun n => !((sget s.mem.res (8 * die + n)).getD ⟨0, 0⟩).w0.getLsbD 63).map fun n => 8 * die + n

/-- Firmware grants a residency request on every die of the partition, or refuses it: no register is free, or the ways
of a die would pass 12. The registers written are given. -/
def State.grantRes (s : State) (p : Nat) (w : Word) : State × List Nat :=
  let x := w.toNat
  let dies := s.stacksOf p
  let regs := dies.filterMap s.freeRes
  if regs.length = dies.length ∧ dies.all (fun d => decide (s.waysOf d + bitsOf x 60 4 ≤ 12)) then
    let w0 := 2 ^ 63 + bitsOf x 57 3 * 2 ^ 60 + bitsOf x 60 4 * 2 ^ 56 + bitsOf x 0 36 * 2 ^ 12
    let r : Rng := ⟨BitVec.ofNat 64 w0, BitVec.ofNat 64 (bitsOf x 36 21)⟩
    ({ s with mem := { s.mem with
        res := regs.foldl (fun t k => sinsert t k r) s.mem.res
        resCnt := s.mem.resCnt.filter fun e => !regs.contains (e.1 / 8 / 48 * 8 + e.1 % 8) } }, regs)
  else (s, [])

/-- Clear residency registers. -/
def State.dropRes (s : State) (regs : List Nat) : State :=
  { s with mem := { s.mem with res := s.mem.res.filter fun e => !regs.contains e.1 } }

/-! ### The clear between launches (R30) -/

/-- A core after the clear: what R30 leaves unchanged, and what is no register of a launch, stays. -/
def Core.cleared (k : Core) (snap : Bool) : Core :=
  let r := Core.reset
  { r with
    cc := { r.cc with
      mode := .u, monMem := k.cc.monMem, monBad := k.cc.monBad, calctl := k.cc.calctl &&& 0x100 }
    eng := { r.eng with
      ispad := k.eng.ispad
      regions := Vector.ofFn fun (i : Fin 16) =>
        if i.val ≥ 14 then k.eng.regions[i] else k.eng.regions[i] &&& 0x7FFFFFFFFFFFFFFF }
    fenced := k.fenced, errata := k.errata, clearing := true, audcnt := k.audcnt, audofs := k.audofs, audskip := k.audskip
    staging := k.staging, perfsnap := if snap then k.pc else k.perfsnap }

/-- Cycles of a clear: its bound (R30). -/
def clearCycles : Nat := 6144

/-- Clear a core: its dirty lines are written back first; LAUNCH_CLEAR_FINISHED follows. `snap` copies the performance
counters (R394). -/
def State.clearCore (s : State) (c : Nat) (snap : Bool) : State :=
  let s := s.flushL1 c true
  (s.modCore c fun k => { k.cleared snap with dom := none }).schedule (s.basin + clearCycles) (.op c .launchClearFinished)

/-! ### LAUNCH -/

/-- Create and arm the domain of a launch (R16, R30 to R33). -/
def State.createDomain (s : State) (fe p q : Nat) (c : Cmd) (t : Timetable) : State :=
  let id := s.nextDom
  let params := s.iaBytes p (c.word 2) (64 * bitsOf (c.word 1) 16 12)
  let s := (s.iaRead p (c.word 2) (64 * bitsOf (c.word 1) 16 12)).1
  let (s, regs) := t.ress.foldl
    (fun a w =>
      let g := a.1.grantRes p w
      (g.1, a.2 ++ g.2)) (s, [])
  let d := { t.domain p fe (if t.basin then c.word 3 else 0) with
    queue := q, cmdidx := c.idx, timetable := bitsOf (c.word 1) 0 12, cmd := c.words, dispAt := c.at_, params, resRegs := regs }
  let pins := s.pinBlocks p t
  let s := { s.setDom id { d with pins } with nextDom := id + 1 }
  let s := pins.foldl (fun s k => s.pinBlock p id k) s
  let s := t.cores.foldl (fun s k => (s.clearCore k.1 false).modCore k.1 fun x => { x with dom := some id }) s
  (s.setExec q { c with dom := some id }).tableWrite

/-- LAUNCH: a refusal completes at once with its status; the command otherwise creates a domain. A record that cannot be
read is class X: the launch is killed before it has a domain (R300; DEDUCED, log 106). -/
def execLaunch (fe : Nat) (s : State) : Host.Outcome State Fault Refusal :=
  if unitsOk (.launch fe) then
    .next (match s.atHand fe 1 with
      | some (q, c) =>
        let s := s.freeDisp fe
        let p := (s.partOfQueue q).getD 0
        let tt := s.timetable p (bitsOf (c.word 1) 0 12)
        let st := s.launchStatus fe p c tt
        match s.readTimetable p (bitsOf (c.word 1) 0 12), st, tt with
        | (s, some e), _, _ => (s.raiseNone p 0 e).complete q c 10 ⟨0, false, 0, 0⟩
        | (s, none), 0, some t => s.createDomain fe p q c t
        | (s, none), _, _ => s.complete q c st ⟨0, false, 0, 0⟩
      | none => s)
  else .fault .noSuchUnit

/-! ### The load before SC 0 (R31) -/

/-- The bytes of partition memory at a virtual address, as the launch sequencer reads them through a record's range
registers. -/
def State.vaBytes (s : State) (p : Nat) (rng : Vector Rng 16) (va n : Nat) : Option (List Byte) :=
  let parts := (piecesOf va n).map fun q =>
    match translate rng .plain (va57 (va + q.ofs)) 1 true false with
    | .ok ia =>
      match s.translateHome p ia true false with
      | .ok pa leaf size => some (s.memRead none p ia q.len (.ok pa leaf size)).2.bytes
      | _ => none
    | .error _ => none
  if parts.all Option.isSome then some (parts.flatMap fun x => x.getD []) else none

/-- The launch sequencer's read of `n` bytes at a virtual address at work: what its sectors were (R292). -/
def State.vaRead (s : State) (p : Nat) (rng : Vector Rng 16) (va n : Nat) : State × List (Piece × SectorInfo) :=
  (piecesOf va n).foldl
    (fun (a : State × List (Piece × SectorInfo)) q =>
      match translate rng .plain (va57 (va + q.ofs)) 1 true false with
      | .ok ia =>
        let r := a.1.iaRead p ia q.len
        (r.1, a.2 ++ r.2)
      | .error _ => a)
    (s, [])

/-- Load a gang's initial overlay into a core (R31, R383). A region whose image cannot be read stays invalid; poison in it
is consumed here, since the instruction scratchpad holds none (R295). -/
def State.loadOverlay (s : State) (p c : Nat) (rng : Vector Rng 16) (g : Gang) : State :=
  let b := g.block
  (List.range (ovCount b)).foldl
    (fun s j =>
      let got := s.vaBytes p rng (ovSrc b + 8192 * j) 8192
      let (s, found) := s.vaRead p rng (ovSrc b + 8192 * j) 8192
      let e : Ev := { metadataEv 0 with cause := 0x0D, body := 1, words := [] }
      let stopped := s.stopsAccess p found
      let s := s.reportFound (s.core c).dom c p e (ovSrc b + 8192 * j) false found
      match got, stopped with
      | some bs, false => s.modEng c fun k =>
          { k with
            ispad := writeBytes k.ispad ((ovRegion b + j) * 0x2000) (fitBytes bs 8192)
            regions := k.regions.setIfInBounds (ovRegion b + j) (ovDesc b j true) }
      | _, _ => s)
    s

/-- The CSRs that the launch sequencer writes (R31, R197, R198). -/
def Cc.loaded (k : Cc) (d : Domain) (c : Nat) : Cc :=
  let g := ((d.cores.find? fun x => x.1 == c).map (·.2)).getD 0
  let (dOrd, idx, cg) := gangPlace d.cores g c
  let dg := (gangDies d.cores g).length
  { k with
    mode := .u
    rank := BitVec.ofNat 64 (dOrd * cg + idx)
    gsize := BitVec.ofNat 64 (dg * cg)
    ggeo := BitVec.ofNat 64 ((dg - 1) * 2 ^ 28 + (cg - 1) * 2 ^ 16 + dOrd * 2 ^ 12 + idx)
    calctl := (k.calctl &&& 0x100) ||| (if d.ovldbg then 0x80 else 0) ||| (if d.timed then 0x8 else 0) ||| d.wrmode.setWidth 64
    mie := 0x70000 }

/-- Load core `c` for its domain; a record that can no longer be read is class X (R300). -/
def State.loadCore (s : State) (c : Nat) (d : Domain) : State :=
  match s.timetable d.part d.timetable, s.readTimetable d.part d.timetable with
  | none, _ => s
  | some _, (s, some e) => s.raise c e
  | some t, (s, none) =>
    let i := (t.cores.map (·.1)).idxOf c
    let g := ((t.cores.find? fun x => x.1 == c).map (·.2)).getD 0
    let streams : Vector Stream 8 := Vector.ofFn fun (x : Fin 8) => s.streamAt d.part t i x.val
    let s := s.modCore c fun k => { k with rng := t.ranges, cc := k.cc.loaded d c, fab := { k.fab with streams } }
    s.loadOverlay d.part c t.ranges (t.gangs.getD g default)

/-- Whether a core of the domain is still being cleared. -/
def State.clearingAny (s : State) (d : Domain) : Bool := d.cores.any fun k => (s.core k.1).clearing

/-- LAUNCH_CLEAR_FINISHED: the clear of the core at hand ends. For an armed domain the load of R31 follows, and the
domain starts once every core is ready: a basin domain at its agreed basin count (R33). -/
def execLaunchClearFinished (s : State) : Host.Outcome State Fault Refusal :=
  let c := s.cur
  .next (if !(s.core c).clearing then s
    else
      let s := s.modCore c fun k => { k with clearing := false }
      match (s.core c).dom, s.domOf c with
      | some id, some d =>
        if d.phase ≠ .armed then s
        else
          let s := s.loadCore c d
          if s.clearingAny d then s
          else if d.basin then
            (if d.replayBa.isSome then s else s.schedule d.b0 (.op c (.domainStart id)))
          else s.soon (.op c (.domainStart id))
      | _, _ => s)

end Sys2Proof.Machine
end

