-- ==== Sys2Proof/Machine/MemSide.lean ====
section
/-! DEFINITION. Walker engines and the memory side at work (R52, R303, R376 to R381): page walks, walks that come late,
shoot-downs, shadow copies and the patrol scrub. -/

namespace Sys2Proof.Machine

/-! ### Walks of requests that wait (R52, R257, R378, R381) -/

/-- Whether the domain of a request runs. -/
def State.reqLive (s : State) (r : LongReq) : Bool :=
  match r.dom with
  | some id =>
    match s.dom id with
    | some d => d.phase == .running
    | none => false
  | none => true

/-- The request that a walk's number names: twice an engine's request number, or one more than twice the number of a
memory-slot access of the core at hand. -/
def State.walkReq (s : State) (id : Nat) : Option LongReq :=
  s.mem.reqs.find? fun r =>
    r.xlat == .waiting && s.reqLive r &&
      (if id % 2 = 0 then r.id == id / 2 && r.engine != 1 else r.id == id / 2 && r.engine == 1 && r.core == s.cur)

/-- The walk of a memory-slot access. -/
def State.settleSlot (s : State) (r : LongReq) : State :=
  match s.settleReq r with
  | .ok s x => s.setReq { r with xlat := x }
  | .fault s x e => (s.setReq { r with xlat := x }).raiseMem r.core e
  | .overrun s e => s.settleOver r e

/-- PAGE_WALK: a walker answers a request that waits for its translation. -/
def execPageWalk (id : Nat) (s : State) : Host.Outcome State Fault Refusal :=
  .next (match s.walkReq id with
    | some r => if r.engine = 1 then s.settleSlot r else s.settle r
    | none => s)

/-- WALK_LATE: a Timed request whose walk has not returned by issue + 256 takes event 0x06 with SUBCAUSE 3, one record
for an engine's entry (R59); the walk goes on, and its result is cached (R381). The request stays held for the resume. -/
def execWalkLate (id : Nat) (s : State) : Host.Outcome State Fault Refusal :=
  .next (match s.walkReq id with
    | some r =>
      if r.timed ∧ r.issue + 256 ≤ s.sc r.core then
        let (stack, L) := s.home r.part r.ia
        let s := match s.walk r.part stack L r.rd r.wr with
          | .leaf w size => if (s.cachedLeaf r.part stack L).isSome then s else s.cacheLeaf r.part stack L w size
          | _ => s
        let e := { r.ev 0x06 3 with body := 6, words := s.xlatWords r.part r.va r.ia 0 (s.faultPages r) }
        let told := r.engine != 1 && s.faultTold r
        let s := s.setReq { r with xlat := .fault 3 0 }
        if told then s else s.raise r.core e
      else s
    | none => s)

/-! ### Shoot-down (R380) -/

/-- Whether a cached result's block meets the offsets `lo` to `hi`. -/
def TlbEntry.meets (t : TlbEntry) (lo hi : Nat) : Bool := decide (t.block * 65536 ≤ hi) && decide (lo < (t.block + 1) * 65536)

/-- Invalidate the results of a partition over a range of L, pins excepted. -/
def State.shootDown (s : State) (stack part lo hi : Nat) : State :=
  { s with mem := { s.mem with
      tlb := s.mem.tlb.filter fun t => !(t.stack == stack && t.part == part && t.meets lo hi && t.pins.isEmpty) } }

/-- SHOOT_DOWN. -/
def execShootDown (stack part lo hi : Nat) (s : State) : Host.Outcome State Fault Refusal :=
  if unitsOk (.shootDown stack part lo hi) then .next (s.shootDown stack part lo hi) else .fault .noSuchUnit

/-! ### Shadow copies (R303) -/

/-- The leaf over an offset of a partition's stack. -/
def State.leafAt (s : State) (p stack L : Nat) : Option (Nat × Nat) :=
  match s.cachedLeaf p stack L with
  | some t => some (t.leaf.toNat, t.size)
  | none =>
    match s.walk p stack L true false with
    | .leaf w size => some (w, size)
    | _ => none

/-- Copy one sector of binding `b` to its frame where its bit is clear, and set the bit; the sector is read through its
code like any other (R292). -/
def State.copyShadow (s : State) (b : Binding) (sector : Nat) : State :=
  if b.copied.getLsbD sector || sector ≥ 1024 then s
  else
    let L := b.block * 65536 + 64 * sector
    match s.leafAt b.part b.stack L with
    | none => s
    | some (w, size) =>
      let pa := leafPa w size L
      let (s, _) := s.decodeAt b.stack pa (bitsOf w 54 4) (pageBit0 L size) b.block
      let s := s.copySector b.stack pa (framePa b L)
      let b' := { b with copied := b.copied ||| ((1 : BitVec 1024) <<< sector) }
      { s with mem := { s.mem with bindings := s.mem.bindings.map fun k => if k = b then b' else k } }

/-- SHADOW_COPY. -/
def execShadowCopy (binding sector : Nat) (s : State) : Host.Outcome State Fault Refusal :=
  .next (match s.mem.bindings[binding]? with
    | some b => s.copyShadow b sector
    | none => s)

/-! ### The patrol scrub (R293) -/

/-- Find the leaf under a table that maps a frame, with the first offset that it maps. -/
def findFrame (hbm : Sparse Byte) (stack pa : Nat) : Nat → Nat → Nat → Nat → Option (Nat × Nat × Nat)
  | 0, _, _, _ => none
  | left + 1, level, table, base =>
    let span := 2 ^ (match level with
      | 0 => 36
      | l => pageBits l)
    (List.range (tableBytes level / 8)).findSome? fun i =>
      let w := readNat hbm (stack * 2 ^ 36 + table + 8 * i) 8
      if !bitOf w 63 then none
      else if bitOf w 62 then
        let bits := pageBits level
        let f := bitsOf w 16 20 * 2 ^ 16
        if level = 0 ∨ leafBad w bits ∨ pa / 2 ^ bits ≠ f / 2 ^ bits then none else some (w, sizeCode level, base + i * span)
      else findFrame hbm stack pa left (level + 1) (bitsOf w 8 28 * 256) (base + i * span)

/-- The layout, the page bit and the block of L of the sector at a physical address: from a shadow binding, a partition's
page table, or a cached result; a sector that no page maps is metadata of layout 0. -/
def State.sectorPage (s : State) (stack pa : Nat) : Nat × Nat × Nat :=
  let ofLeaf (w size L : Nat) : Nat × Nat × Nat := (bitsOf w 54 4, pageBit0 L size, L / 65536)
  let bound := (s.mem.bindings.find? fun b => b.stack == stack && b.frame == pa / 65536).bind fun b =>
    let L := b.block * 65536 + pa % 65536
    (s.leafAt b.part stack L).map fun l => ofLeaf l.1 l.2 L
  let mapped := (List.range 4).findSome? fun p =>
    let root := s.partWord p (8 + stack)
    if !bitOf (s.partWord p 0) 63 || !bitOf (s.partWord p 0) (48 + stack) then none
    else if bitsOf root 60 4 = 0 then
      (findFrame s.mem.hbm stack pa 4 0 (bitsOf root 14 22 * 2 ^ 14) 0).map fun l =>
        ofLeaf l.1 l.2.1 (l.2.2 + pa % 2 ^ (16 + 5 * l.2.1))
    else
      (s.mem.tlb.find? fun t => t.stack == stack && t.part == p && leafPa t.leaf.toNat t.size (t.block * 65536) / 65536 == pa / 65536).map
        fun t => ofLeaf t.leaf.toNat t.size (t.block * 65536 + pa % 65536)
  (bound.or mapped).getD (0, 0, pa / 65536)

/-- PATROL_SCRUB: a sector of the stack is decoded, rewritten and counted; it raises no event (R292, R293, R393). -/
def execPatrolScrub (stack sector : Nat) (s : State) : Host.Outcome State Fault Refusal :=
  if unitsOk (.patrolScrub stack sector) then
    let pa := 64 * sector
    let (layout, p0, block) := s.sectorPage stack pa
    .next (s.decodeAt stack pa layout p0 block).1
  else .fault .noSuchUnit

end Sys2Proof.Machine
end

