-- ==== Sys2Proof/Machine/DomainLife.lean ====
section
/-! DEFINITION. The life of a domain (R17, R33, R34, R37 to R44): start, finish, retirement with the commit of shadow pages
(R305), freeze, resume (R204), kill (R306), replay (R53 to R57), pre-emption, frozen inspection (R186) and the last
stage of the watchdog (R352). -/

namespace Sys2Proof.Machine

/-! ### Start (R33, R34) -/

/-- The gang's control cores begin at their entry address. -/
def State.startGang (s : State) (d : Domain) (g : Nat) : State :=
  let entry := ((d.gangs[g]?).map (·.2)).getD 0
  (gangCores d.cores g).foldl
    (fun s c => s.modCc c fun k => if k.state = .stopped then { k with pc := entry, mode := .u, state := .running } else k) s

/-- CC_ENTRY_START: no earlier than the gang's START. -/
def execCcEntryStart (dom gang : Nat) (s : State) : Host.Outcome State Fault Refusal :=
  .next (match s.dom dom with
    | some d =>
      if d.phase = .running ∧ (((d.gangs[gang]?).map (fun (g : Word × Word) => g.1)).getD 0).toNat ≤ d.sc s.basin then s.startGang d gang else s
    | none => s)

/-- The program status that core `c` of a domain has reported; an evicted domain's cores stand in its save area (R187). -/
def State.pstatOf (s : State) (d : Domain) (c : Nat) : Nat :=
  let k := if d.phase = .evicted then ((d.saved.find? fun e => e.1 == c).map (·.2)).getD Core.reset else s.core c
  k.cc.pstat.toNat

/-- Gather the end of a launch: its completion record, with what the record says beside its status. -/
def State.completeLaunch (s : State) (d : Domain) (status : Nat) : State :=
  let cores := sortBy (fun (a b : Nat) => decide (a < b)) (d.cores.map (·.1))
  let reported := (cores.map (s.pstatOf d)).filter (· ≠ 0)
  let old : Cmd := { idx := d.cmdidx, words := d.cmd, at_ := 0, dom := none, written := 0, failed := none }
  let c := (s.execOf d.queue d.cmdidx.toNat).getD old
  s.complete d.queue c status ⟨reported.headD 0, d.mdeliv, d.replays, 0⟩

/-- What ends with every run of a domain: its requests, its turns, its sequencers and its use of leases. -/
def State.stopRun (s : State) (id : Nat) (d : Domain) : State :=
  let mine (c : Nat) : Bool := d.cores.any fun k => k.1 == c
  { s with
    seqs := s.seqs.filter fun e => !(mine e.2.core && !e.2.active.isEmpty)
    calendar := s.calendar.filter fun t => t.clock != some id
    mem := { s.mem with
      reqs := s.mem.reqs.filter fun r => r.dom != some id
      sampled := s.mem.sampled.filter fun r => r.dom != some id
      leaseUse := s.mem.leaseUse.filter fun e => e.1 / 2048 % 2 ^ 20 != id } }

/-- The cores of a domain that still run it write their dirty first-level lines back, through the launch's bindings, so
that a page whose frame then returns unswitched keeps its original (R252, R306). -/
def State.flushOwn (s : State) (id : Nat) (d : Domain) : State :=
  (d.cores.filter fun k => (s.core k.1).dom == some id).foldl (fun s k => s.flushL1 k.1 true) s

/-- The launch's frames return to the pool and its bindings end (R306). -/
def State.returnFrames (s : State) (id : Nat) (d : Domain) : State :=
  let mine := s.mem.bindings.filter fun b => b.dom == id
  let s := s.modPart d.part fun t => { t with shadow := t.shadow ++ mine.map fun b => (b.stack, b.frame) }
  { s with mem := { s.mem with bindings := s.mem.bindings.filter fun b => b.dom != id } }

/-- Give up what a launch holds, and clear its cores; the domain has ended. -/
def State.endDomain (s : State) (id : Nat) (d : Domain) (killAt : Option Nat) : State :=
  let s := ((s.stopRun id d).flushOwn id d).returnFrames id d
  let s := (s.unpin id).dropRes d.resRegs
  let s := (d.cores.filter fun k => (s.core k.1).dom == some id).foldl (fun s k => s.clearCore k.1 true) s
  let s := if d.basin then { s with io := { s.io with endedRuns := s.io.endedRuns ++ [(d.timetable, d.b0, d.replays)] } } else s
  (s.modDom id fun d => { d with phase := .ended, killAt, leases := [], linkLeases := [], seqLeases := [], pins := [], resRegs := [], saved := [], later := [], heldReqs := [] }).tableWrite

/-- KILL (R44, R45, R306): the launch ends with a status, and no shadow page is committed. A kill by policy, status 9,
writes a record of body 0x00 (R60); its cause is not stated: a free value. -/
def State.kill (s : State) (id status : Nat) : State :=
  match s.dom id with
  | none => s
  | some d =>
    if d.phase = .ended then s
    else
      let s := if status = 9 then
          let (s, x) := s.drawFree
          let e : Ev := { cause := x.setWidth 8, subcause := 0, engine := 10, slot := 15, pc := 0, faddr := 0, tcode := 0
                          issue := 0, tengine := 0, duesc := 0, body := 0, words := [] }
          (s.writeRecord d.part 0 (some d) e 5 d.resp.isSome).sendNotices d 5 e.cause 0
        else s
      (s.completeLaunch d status).endDomain id d (some s.basin)

def execKill (dom : Nat) (status : BitVec 8) (s : State) : Host.Outcome State Fault Refusal := .next (s.kill dom status.toNat)

/-- DOMAIN_START: SC 0 is the first basin count at which every clear has finished, or the agreed basin count. A module
that cannot finish its clears by then refuses the launch, or kills its part of a replay (R33, R57); the notice of that
kill, which no event has caused, carries CAUSE and SUBCAUSE 0 (DESIGN CHOICE, log 94). -/
def State.domainStart (s : State) (id : Nat) : State :=
  match s.dom id with
  | none => s
  | some d =>
    if d.phase ≠ .armed then s
    else if s.clearingAny d then
      (if d.basin ∧ d.b0 ≤ s.basin then
        (if d.replays = 0 then s.kill id 7 else (s.sendNotices d 5 0 0).kill id 10)
      else s)
    else if d.basin ∧ s.basin < d.b0 then s
    else
      let s := s.setDom id { d with phase := .running, b0 := if d.basin then d.b0 else s.basin, h := 0, replayBa := none }
      { s with calendar := s.calendar ++
          d.gangs.zipIdx.map fun g => ⟨some id, g.1.1.toNat, .op s.cur (.ccEntryStart id g.2)⟩ }

def execDomainStart (dom : Nat) (s : State) : Host.Outcome State Fault Refusal := .next (s.domainStart dom)

/-! ### Finish and retirement (R41) -/

/-- Every engine of a core is idle and every issue queue empty. -/
def State.coreIdle (s : State) (c : Nat) : Bool :=
  let k := s.core c
  k.be.isIdle && k.be.accesses.isEmpty && k.eng.mxq.isEmpty && k.eng.pxq.isEmpty && k.eng.ceq.isEmpty && k.eng.cxq.isEmpty
    && k.eng.weirq.isEmpty && k.eng.mx.active.isEmpty && k.eng.px.active.isEmpty && k.eng.ce.active.isEmpty
    && !s.seqs.any fun e => e.2.core == c && !e.2.active.isEmpty

/-- Whether the monitor reports a core of a running domain finished now. -/
def State.canFinish (s : State) (c : Nat) : Bool :=
  let k := s.core c
  s.live c && k.dom.isSome && k.cc.state == .ending && s.coreIdle c && k.interrupts.isEmpty

/-- Every core of a domain has finished. -/
def State.allFinished (s : State) (d : Domain) : Bool := d.cores.all fun k => (s.core k.1).cc.state == .finished

/-- CORE_FINISHED. -/
def execCoreFinished (s : State) : Host.Outcome State Fault Refusal :=
  let c := s.cur
  .next (if s.canFinish c then
      let s := s.modCc c fun k => { k with state := .finished }
      match (s.core c).dom, s.domOf c with
      | some id, some d => if s.allFinished d then s.soon (.op c (.launchRetirement id)) else s
      | _, _ => s
    else s)

/-- The address of the level-3 entry that maps an offset, under routine 0 (R376). -/
def leafEntryAt (hbm : Sparse Byte) (stack L : Nat) : Nat → Nat → Nat → Option Nat
  | 0, _, _ => none
  | left + 1, level, table =>
    let a := stack * 2 ^ 36 + table + 8 * walkIndex level L
    let w := readNat hbm a 8
    if !bitOf w 63 then none
    else if bitOf w 62 then (if level = 3 then some a else none)
    else leafEntryAt hbm stack L left (level + 1) (bitsOf w 8 28 * 256)

/-- Switch a bound block to its frame, whose copied map is full (R305): its 64 KiB entry takes the frame, as do the
translations of the accesses that still wait to sample or perform there, and the old frame returns to the pool. A block of a larger page takes the frame's sectors in place instead (log 16). -/
def State.switchBlock (s : State) (b : Binding) : State :=
  let L := b.block * 65536
  let root := s.partWord b.part (8 + b.stack)
  let entry := if bitsOf root 60 4 = 0 then leafEntryAt s.mem.hbm b.stack L 4 0 (bitsOf root 14 22 * 2 ^ 14) else none
  let s := { s with mem := { s.mem with
    tlb := s.mem.tlb.filter fun t => !(t.stack == b.stack && t.part == b.part && t.block == b.block) } }
  match entry with
  | some a =>
    let w := readNat s.mem.hbm a 8
    let w' := setField w 16 20 b.frame
    let moved (r : LongReq) : LongReq :=
      let h := s.home r.part r.ia
      if r.xlat.isOk && r.part == b.part && h.1 == b.stack && h.2 / 65536 == b.block then
        { r with xlat := .ok (leafPa w' 0 h.2) (BitVec.ofNat 64 w') 0 } else r
    let s := { s with mem := { s.mem with hbm := writeBytes s.mem.hbm a (bytesOf w' 8), reqs := s.mem.reqs.map moved } }
    s.modPart b.part fun t => { t with shadow := t.shadow ++ [(b.stack, bitsOf w 16 20)] }
  | none =>
    match s.leafAt b.part b.stack L with
    | none => s
    | some (w, size) =>
      let s := (List.range 1024).foldl
        (fun s i => s.copySector b.stack (framePa b (L + 64 * i)) (leafPa w size (L + 64 * i))) s
      s.modPart b.part fun t => { t with shadow := t.shadow ++ [(b.stack, b.frame)] }

/-- Commit the shadow pages of a launch: the copied maps are filled, then every block is switched at one basin count
(R305). -/
def State.commitShadow (s : State) (id : Nat) : State :=
  let mine := s.mem.bindings.filter fun b => b.dom == id
  let s := mine.foldl
    (fun s b => (List.range 1024).foldl
      (fun s i =>
        match s.mem.bindings.find? fun k => k.dom == id && k.part == b.part && k.stack == b.stack && k.block == b.block with
        | some b => s.copyShadow b i
        | none => s) s) s
  let s := mine.foldl State.switchBlock s
  { s with mem := { s.mem with bindings := s.mem.bindings.filter fun b => b.dom != id } }

/-- Audits of the launch that have not finished (R309). -/
def State.auditsLeft (s : State) (id : Nat) : Bool :=
  s.cores.any (fun e => e.2.staging.any fun i => i.dom == some id) || s.audit.any fun e => e.2.images.any fun i => i.dom == some id

/-- A host stream of a core has writes that the host has not acknowledged (R351, R368). -/
def State.hostWrites (s : State) (c : Nat) : Bool :=
  (List.range 8).any fun x => (s.stream c x).v && (s.stream c x).kind == 2 && (s.xf c x).out != 0

/-- Whether a launch may retire: its cores have finished, its writes have performed, those to the host are acknowledged
(log 62), and with AUDWAIT its audits have finished. -/
def State.retireReady (s : State) (id : Nat) (d : Domain) : Bool :=
  d.phase == .running && s.allFinished d && !s.mem.reqs.any (fun r => r.dom == some id && r.kind != .load)
    && !d.cores.any (fun k => s.hostWrites k.1) && !(bitOf (s.partWord d.part 0) 14 && s.auditsLeft id)

/-- LAUNCH_RETIREMENT: the first-level caches are written back, the shadow pages committed, the completion record is
written, and the clears begin. A write-back that meets an event leaves the launch to the response of that event. -/
def State.retire (s : State) (id : Nat) : State :=
  match s.dom id with
  | none => s
  | some d =>
    if s.retireReady id d then
      let s := d.cores.foldl (fun s k => s.flushL1 k.1 true) s
      match s.dom id with
      | some e =>
        if e.resp ≠ d.resp ∨ e.phase ≠ d.phase then s
        else
          let s := s.commitShadow id
          match s.dom id with
          | some d => (s.completeLaunch d 0).endDomain id d none
          | none => s
      | none => s
    else s

def execLaunchRetirement (dom : Nat) (s : State) : Host.Outcome State Fault Refusal := .next (s.retire dom)

/-! ### Launch replay (R45, R53 to R57) -/

/-- The record read again for a replay: it is taken where its cores are the domain's own or free (R382). -/
def State.reread (s : State) (id : Nat) (d : Domain) : Domain :=
  match s.timetable d.part d.timetable with
  | none => d
  | some t =>
    if t.ok (bitsOf (s.partWord d.part 0) 24 8) && t.disc == d.timed && t.basin == d.basin &&
        t.cores.all (fun k => (s.core k.1).dom == some id || (s.core k.1).dom.isNone) then
      { d with
        cores := t.cores, gangs := t.gangs.map fun g => (BitVec.ofNat 64 g.start, BitVec.ofNat 64 g.entry)
        wrmode := BitVec.ofNat 2 t.wrmode, ovldbg := t.ovldbg, leases := t.leases, linkLeases := t.links, seqLeases := t.seqls }
    else d

/-- The run ends, its frames return and its cores are cleared for the next run, which is armed. A basin domain waits for
its agreed basin count (R57). -/
def State.replay (s : State) (id : Nat) (ba : Nat) : State :=
  match s.dom id with
  | none => s
  | some d =>
    if d.phase = .ended ∨ d.phase = .evicted then s
    else if d.basin ∧ d.replayBa.isSome then s
    else
      let s := ((s.stopRun id d).flushOwn id d).returnFrames id d
      let s := (d.cores.filter fun k => (s.core k.1).dom == some id).foldl (fun s k => s.clearCore k.1 false) s
      let s := { s with io := { s.io with
        endedRuns := if d.basin then s.io.endedRuns ++ [(d.timetable, d.b0, d.replays)] else s.io.endedRuns } }
      let n := s.reread id d
      let s := n.cores.foldl
        (fun s k => (if (s.core k.1).clearing then s else s.clearCore k.1 false).modCore k.1 fun x => { x with dom := some id }) s
      let s := s.setDom id { n with
        phase := .armed, h := 0, b0 := if d.basin then d.b0 else 0, fpt := none, frozenAt := 0, resumeAt := none, resp := none
        replays := d.replays + 1, unsafe_ := false, replayBa := if d.basin then some ba else none, saved := [], later := [], heldReqs := [] }
      if d.basin then s.schedule (ba + 2 ^ 20 + 1) (.op s.cur (.basinReplayDispatch id)) else s

/-- LAUNCH_REPLAY. -/
def execLaunchReplay (dom : Nat) (s : State) : Host.Outcome State Fault Refusal := .next (s.replay dom s.basin)

/-- The least multiple of 2^22 at or above `n`. -/
def ceilAgreed (n : Nat) : Nat := (n + 2 ^ 22 - 1) / 2 ^ 22 * 2 ^ 22

/-- BASIN_REPLAY_DISPATCH: once Ba + 2^20 has passed, the run's next B0 is agreed from the least Ba seen. -/
def execBasinReplayDispatch (dom : Nat) (s : State) : Host.Outcome State Fault Refusal :=
  .next (match s.dom dom with
    | some d =>
      match d.replayBa with
      | some ba =>
        if d.phase = .armed ∧ ba + 2 ^ 20 < s.basin then
          let b0 := ceilAgreed (ba + 2 ^ 22)
          (s.setDom dom { d with b0, replayBa := none }).schedule b0 (.op s.cur (.domainStart dom))
        else s
      | none => s
    | none => s)

/-- The body format of an event of a cause code (R60); code 0x08 takes the general one. -/
def bodyOf (cause : BitVec 8) : Nat :=
  match cause.toNat with
  | 0x06 => 6
  | 0x09 => 5
  | 0x0B => 9
  | 0x0C => 3
  | 0x0D => 3
  | 0x0E => 3
  | 0x0F => 3
  | 0x10 => 7
  | 0x11 => 8
  | 0x12 => 0
  | n => if n = 0 then 0 else 1

/-- The event that a received notice records: the originating event's cause, in the body of that cause. The notice carries
no more, so that every field of the body is zero, and ENGINE names the front end (DESIGN CHOICE, log 93). -/
def noticeEv (n : Notice) : Ev :=
  { cause := n.cause, subcause := n.subcause, engine := 9, slot := 0, pc := 0, faddr := 0, tcode := 0, issue := 0
    tengine := 0, duesc := 0, body := bodyOf n.cause, words := [] }

/-- A notice for this module (R57): a live domain of the run ends as the notice says, with a record of its cause,
SECONDARY set. A run that has ended takes only an earlier Ba, or, while it waits to replay, a kill. -/
def State.takeNotice (s : State) (n : Notice) : State :=
  match s.doms.find? fun e => e.2.basin && e.2.timetable == n.timetable && e.2.b0 == n.run && e.2.phase != .ended with
  | none => s
  | some (id, d) =>
    if d.replayBa.isSome then
      if n.resp = 5 then s.kill id 10
      else s.modDom id fun d => { d with replayBa := d.replayBa.map (min n.ba) }
    else if d.replays ≠ n.replays ∨ s.io.endedRuns.contains (n.timetable, n.run, n.replays) then s
    else
      let s := s.writeRecord d.part 0 (some d) (noticeEv n) n.resp true
      if n.resp = 4 then s.replay id n.ba else s.kill id 10

/-- BASIN_ABORT_NOTICE (R57): a notice for another module goes on along its path. -/
def State.abortNotice (s : State) (n : Notice) : State := if n.target = s.moduleId then s.takeNotice n else s.soon (.notice n)

def execBasinAbortNotice (n : Notice) (s : State) : Host.Outcome State Fault Refusal := .next (s.abortNotice n)

/-! ### Pre-emption, freeze and resume (R37 to R39, R50, R204) -/

/-- A firmware order on a domain is refused with a status, of which the specification states no value (log 99). -/
def State.refuseOrder (s : State) (dom : Nat) : State :=
  let (s, x) := s.drawFree
  s.emit (.orderRefused dom (x.setWidth 64))

/-- PREEMPTION_REQUEST: refused with a status for a basin timetable (R39). -/
def execPreemptionRequest (dom : Nat) (s : State) : Host.Outcome State Fault Refusal :=
  .next (match s.dom dom with
    | some d =>
      if d.phase = .running ∧ d.basin then s.refuseOrder dom
      else if d.phase = .running then
        s.raiseDom dom 0
          { cause := 0x12, subcause := 0, engine := 10, slot := 15, pc := 0, faddr := 0, tcode := 0, issue := 0, tengine := 0
            duesc := 0, body := 0, words := [] }
      else s
    | none => s)

/-- FREEZE: at the freeze point the domain's SC stops; results in flight, requests and queues stay where they are, with
their SCs, as the snapshot (R202). The strongest response then follows (R45, R46, R50). -/
def State.freeze (s : State) (id : Nat) : State :=
  match s.dom id with
  | none => s
  | some d =>
    match d.phase, d.fpt with
    | .running, some f =>
      if d.sc s.basin < f then s
      else
        let s := s.setDom id { d with phase := .frozen, frozenAt := s.basin }
        match d.resp with
        | some (4, _) => s.soon (.op s.cur (.launchReplay id))
        | some (6, _) => s.soon (.op s.cur (.launchReplay id))
        | some (r, st) => if r = 5 ∨ r = 8 then s.soon (.op s.cur (.kill id (BitVec.ofNat 8 st))) else s
        | none => s
    | _, _ => s

def execFreeze (dom : Nat) (s : State) : Host.Outcome State Fault Refusal := .next (s.freeze dom)

/-- Translate every latched access of a frozen domain again (R204): the state, and the faults, one an engine's entry
(R59). -/
def State.retranslate (s : State) (id : Nat) : State × List (Nat × Ev) :=
  (s.mem.reqs.filter fun r => r.dom == some id && r.xlat != .overrun).foldl
    (fun a r =>
      match a.1.settleReq r with
      | .ok s x => (s.setReq { r with xlat := x }, a.2)
      | .fault s x e =>
        let told := r.engine != 1 && a.2.any fun y => y.1 == r.core && y.2.engine == r.engine && y.2.issue == r.entry
        (s.setReq { r with xlat := x }, if told then a.2 else a.2 ++ [(r.core, e)])
      | .overrun s e => (s.setReq { r with xlat := .overrun }, a.2 ++ [(r.core, e)]))
    (s, [])

/-- An event that the resume of a domain meets is not put off to that resume. -/
def State.raiseNow (s : State) (id core : Nat) (e : Ev) : State :=
  match s.dom id with
  | some d => s.raiseLive id core d e
  | none => s

/-- RESUME_ORDER: a frozen domain's latched accesses are translated again; where one faults the fault writes its record
and the domain stays frozen at the same F. Else the domain resumes at the next basin count. -/
def execResumeOrder (dom : Nat) (s : State) : Host.Outcome State Fault Refusal :=
  .next (match s.dom dom with
    | some d =>
      if d.phase ≠ .frozen then s
      else
        match s.retranslate dom with
        | (s, []) =>
          (s.modDom dom fun d => { d with resumeAt := some (s.basin + 1) }).schedule (s.basin + 1) (.op s.cur (.resume dom))
        | (s, es) => es.foldl (fun s x => s.raiseNow dom x.1 x.2) s
    | none => s)

/-- The events put off to the resume of a domain are handled, in the order of their landing SCs (R50). -/
def State.raiseLater (s : State) (id : Nat) (later : List (Nat × Nat × Ev)) : State :=
  (sortBy (fun (a b : Nat × Nat × Ev) => decide (a.1 < b.1)) later).foldl (fun s x => s.raiseDomAt id x.2.1 x.1 x.2.2) s

/-- A core of the domain is in frozen inspection. -/
def State.inspecting (s : State) (d : Domain) : Bool := d.cores.any fun k => (s.core k.1).cc.inspect.isSome

/-- RESUME: SC goes on from F; H grows by the cycles of the freeze (R38). A control core that stalled at an instruction
executes it again (R47). While a core inspects the frozen domain its state is not in place, so that the resume waits for
the return of its monitor (R38, R186; DEDUCED, log 97). -/
def State.resume (s : State) (id : Nat) : State :=
  match s.dom id with
  | none => s
  | some d =>
    match d.phase, d.resumeAt with
    | .frozen, some br =>
      if s.basin < br then s
      else if s.inspecting d then
        (s.setDom id { d with resumeAt := some (s.basin + 1) }).schedule (s.basin + 1) (.op s.cur (.resume id))
      else
        let s := s.setDom id { d with
          phase := .running, h := d.h + (s.basin - d.frozenAt), fpt := none, resp := none, resumeAt := none, later := [] }
        let s := d.cores.foldl (fun s k => s.modCc k.1 fun x => if x.state = .stalled then { x with state := .running } else x) s
        s.raiseLater id d.later
    | _, _ => s

def execResume (dom : Nat) (s : State) : Host.Outcome State Fault Refusal := .next (s.resume dom)

/-! ### Frozen inspection (R185, R186) -/

/-- The detail of a frozen inspection: the specification gives it no event code, so that CAUSE and SUBCAUSE are free
values; firmware raises it (log 89). -/
def inspectEv (x : VWord) : Ev :=
  { cause := x.setWidth 8, subcause := x.extractLsb' 8 8, engine := 10, slot := 15, pc := 0, faddr := 0, tcode := 0, issue := 0
    tengine := 0, duesc := 0, body := 0, words := [] }

/-- Interrupt 18 becomes pending at a control core of a frozen domain, which takes it where it is enabled, to return from
it to the frozen state; else it stays pending (R185, R186, R199). -/
def Core.inspectStart (k : Core) (e : Ev) (sc : Nat) : Core :=
  let x := (e, sc, (0 : Word))
  let k := ({ k with cc := { k.cc with pendMacro := k.cc.pendMacro ++ [x] } } : Core).refreshMip
  if k.cc.mie.getLsbD 18 && (k.cc.mode == .u || k.cc.mstatus.getLsbD 3) && k.cc.inspect.isNone then
    let back := (k.cc.pc, k.cc.mode, k.cc.state)
    let ovly := k.cc.ovly
    let k := k.takeInterrupt x
    { k with cc := { k.cc with inspect := some back, ovly } }
  else k

/-- FROZEN_INSPECTION. -/
def execFrozenInspection (dom : Nat) (s : State) : Host.Outcome State Fault Refusal :=
  .next (match s.dom dom with
    | some d =>
      if d.phase ≠ .frozen then s
      else
        let (s, x) := s.drawFree
        d.cores.foldl (fun s k => s.modCore k.1 fun x' => x'.inspectStart (inspectEv x) (d.sc s.basin)) s
    | none => s)

/-! ### The last stage of the watchdog (R352) -/

/-- Stage 3 has reached its limit: basin cycles from the kill request. -/
def State.watch3Due (s : State) (d : Domain) : Bool :=
  let w := (s.queueRec d.queue).w3
  match d.killAt with
  | some t => w != 0 && decide (t + w * watchUnit ≤ s.basin)
  | none => false

/-- WATCHDOG_STAGE_3: every core of the domain whose clear has not finished is fenced. -/
def execWatchdogStage3 (dom : Nat) (s : State) : Host.Outcome State Fault Refusal :=
  .next (match s.dom dom with
    | some d =>
      if s.watch3Due d then
        let slot := (s.slotOf d.queue).getD 0
        let s := s.raiseDom dom 0 (watchEv 3 (watchWords 3 1 slot (s.queueRec d.queue).w3 d.dispAt (d.killAt.getD 0)))
        let s := s.modDom dom fun d => { d with killAt := none }
        d.cores.foldl (fun s k => s.modCore k.1 fun x =>
          if x.clearing ∧ (x.dom.isNone ∨ x.dom = some dom) then { x with fenced := true } else x) s
      else s
    | none => s)

end Sys2Proof.Machine
end

