-- ==== Sys2Proof/Machine/Image.lean ====
section
/-! DEFINITION. The image of a core in a save area: how it is laid out when it is written (R205, R239, R250, R251, R317),
and what is read back from it. -/

namespace Sys2Proof.Machine

/-! ### The image of a core (R205, R239, R317) -/

/-- Bytes of 64-bit words. -/
def wordBytes (ws : List Nat) : List Byte := ws.flatMap fun w => bytesOf w 8

/-- A core's writable CSRs, in number order. -/
def savedCsrs : List Nat :=
  [0x300, 0x304, 0x340, 0x341, 0x342, 0x343, 0x344, 0x7C0, 0x7C1, 0x7C2, 0x7C3, 0x7C4, 0x7C6, 0x7C7, 0x7C8, 0x7C9, 0x7CA,
    0x7CB, 0x800, 0x801, 0x802, 0x803, 0x804, 0x805, 0x806, 0xB00, 0xB02]

/-- The header. -/
def State.imageHeader (s : State) (c : Nat) (d : Domain) : List Byte :=
  let k := s.core c
  let be := match k.be.state with
    | .idle => 0
    | .trapped => 0
    | .micro _ => 2
    | _ => 1
  fitBytes (wordBytes ([1, c, d.sc s.basin, d.b0, d.h, (s.snapshot c).length, be, 0] ++
    (List.range 4).map fun i => bitsOf k.fab.landingValid.toNat (64 * i) 64)) 0x1000

/-- The control core's page. -/
def State.imageCc (s : State) (c : Nat) : List Byte :=
  let k := (s.core c).cc
  let mode := match k.mode with
    | .u => 0
    | .m => 3
  fitBytes (wordBytes ((k.x.toList.drop 1).map BitVec.toNat ++ [k.pc.toNat, mode] ++
    savedCsrs.map (fun n => ((s.csrRead c n).getD 0).toNat) ++ k.cnt.toList.map BitVec.toNat)) 0x1000

/-- Loop registers with their strides. -/
def loopWords (b : Be) : List Nat :=
  (List.range 4).flatMap fun l =>
    [lpRead b.loops l, lpRead b.loops (4 + l), lpRead b.loops (8 + l), lpRead b.loops (12 + l)] ++
      (((b.loops[l]?).getD LoopLevel.reset).str.toList.map BitVec.toNat)

/-- The bundle engine's area, from 0x2000 on (R159, R205). -/
def imageBe (b : Be) : List Byte :=
  let vec (v : List VWord) : List Byte := v.flatMap fun w => bytesOf w.toNat 128
  let r := b.regs
  fitBytes
    (wordBytes (r.sa.toList.map BitVec.toNat) ++ wordBytes (r.sb.toList.map BitVec.toNat) ++ vec r.va.toList ++
      vec r.vb.toList ++ vec r.vc.toList ++ vec r.fs.toList ++ wordBytes (r.ma.toList.map BitVec.toNat) ++
      wordBytes (r.mb.toList.map BitVec.toNat) ++ wordBytes (r.xf.toList.map BitVec.toNat) ++
      wordBytes (r.st.toList.map BitVec.toNat) ++ vec r.mh.toList ++ wordBytes (loopWords b) ++
      wordBytes (b.npq.toList.map fun e => e.word.toNat) ++ wordBytes [b.vflags.toNat, (b.mstepAt true).toNat]) 0x3000

/-- A queue entry of 3 KiB, with its state. -/
def imageEntry (e : QEntry × Nat) : List Byte :=
  fitBytes (fitBytes (wordBytes (e.1.block.map BitVec.toNat)) 2048 ++
    wordBytes (e.1.rng.toList.flatMap fun r => [r.w0.toNat, r.w1.toNat]) ++
    wordBytes [e.1.start.toNat, e.1.issue.toNat, e.2]) 3072

/-- One queue: held entries with their STATE, then the queued ones. -/
def imageQueue (held : SeqState) (q : List QEntry) : List Byte :=
  fitBytes (((held.active.map fun (a : ActiveEntry) => (a.entry, held.prog.state.toNat)) ++ q.map fun e => (e, 0)).flatMap imageEntry) (8 * 3072)

def imageLatch (l : Latch) : List Byte := readBytes l.bytes 0 0x6000 ++ readBytes l.scales 0 0x800

/-- Progress registers by number, from `0` to `n − 1`. -/
def State.imageProg (s : State) (c : Nat) (e : Eng) (n len : Nat) : List Byte :=
  fitBytes (wordBytes ((List.range n).map fun i => ((s.progRead c ⟨e, 0, 0⟩ i).getD 0).toNat)) len

/-- The engines' area, less the pipelines. -/
def State.imageEngines (s : State) (c : Nat) : List Byte :=
  let k := (s.core c).eng
  imageQueue k.mx k.mxq ++ imageQueue k.px k.pxq ++ imageQueue k.ce k.ceq ++ imageQueue SeqState.reset k.cxq ++
    imageQueue SeqState.reset k.weirq ++ k.latches.toList.flatMap imageLatch ++ s.imageProg c .mx 14 0x200 ++
    s.imageProg c .px 13 0x200 ++ s.imageProg c .ce 6 0x30 ++
    fitBytes (k.latches.toList.map fun l => BitVec.ofNat 8 l.phase) (0x1000 - 0x430) ++
    fitBytes ((List.range 256).flatMap fun i => bytesOf ((sget k.codebook i).getD 0).toNat 4) 0x1000

/-- The tags of the scratchpad's granules, and the region descriptors (R250, R251). -/
def imageTags (k : Engines) : List Byte := (List.range 1024).flatMap fun g => bytesOf ((sget k.tags g).getD 0).toNat 2

def imageRegions (k : Engines) : List Byte := fitBytes (wordBytes (k.regions.toList.map BitVec.toNat)) 0x800

/-- The group sums of group `g` of a matrix step from its samples. -/
def mxGroup (x : MxCtx) (fz : Bool) (st : StepState) (g : Nat) : List Nat :=
  let as := (List.range 32).map fun r => rowGroups (mxAfmt x.b) x.kg r [st.sample g]
  let bs := (List.range 64).map fun c => rowGroups (mxBfmt x.b) x.kg c [st.sample (8 + g)]
  (blockOf fun r c => groupSum fz (((as.getD r []).headD []).zip ((bs.getD c []).headD []))).map (·.1)

/-- The running accumulator and the group sum that awaits its add, of a matrix step `beat` cycles after its start: group g
is sampled at 32g and added F later (R232; DEDUCED, log 17). -/
def mxSums (x : MxCtx) (fz : Bool) (st : StepState) (beat : Nat) : List Nat × List Nat :=
  let f := mxFill x.b
  let added := ((List.range 8).filter fun g => decide (32 * g + f < beat)).length
  let acc := (List.range added).foldl
    (fun acc g => (acc.zip (mxGroup x fz st g)).map fun p => (f32Add fz p.1 p.2).1)
    (if f < beat then st.sample 16 else [])
  (acc, if added < 8 ∧ 32 * added < beat then mxGroup x fz st added else [])

/-- S or p, and mx with l, of a MATTN step: its scores, masked once the mask has come, and from its last sample point on its
probabilities; and O (R228; DEDUCED, log 17). -/
def attnSums (x : MxCtx) (fz : Bool) (st : StepState) : List Nat × List Nat × List Nat :=
  if 3 ≤ st.stage then
    let rows := (List.range 32).map (attnStep x fz st)
    (rows.flatMap (·.o), rows.flatMap (·.p), rows.map (·.mx) ++ rows.map (·.l))
  else if st.stage = 0 then ([], [], [])
  else
    let bits := if st.stage = 1 then List.replicate 256 255 else st.sample 18
    ([], (List.range 32).flatMap fun r => (attnScores x fz st bits r).map (·.1), [])

def f32Bytes (ws : List Nat) (n : Nat) : List Byte := fitBytes (ws.flatMap fun w => bytesOf w 4) n

/-- The matrix engine's pipeline: word 0 holds the step in [63:32], the beat in [31:8] and the sample points passed in
[7:0] (DESIGN CHOICE, log 17). -/
def State.imageMx (s : State) (c : Nat) : List Byte :=
  let q := (s.core c).eng.mx
  match q.steps.head?.bind fun st => (q.entry st.issue).map fun a => (st, a) with
  | none => List.replicate 0x7000 0
  | some (st, a) =>
    let x := s.mxCtx c q a st.n
    let fz := s.fz c
    let beat := s.sc c - st.t0
    let (acc, sums, sp, ml) :=
      if x.form = 3 then
        let y := attnSums x fz st
        (y.1, [], y.2.1, y.2.2)
      else
        let y := mxSums x fz st beat
        (y.1, y.2, [], [])
    fitBytes (wordBytes [st.n % 2 ^ 32 * 2 ^ 32 + beat % 2 ^ 24 * 2 ^ 8 + st.stage % 256] ++ List.replicate 56 0 ++ f32Bytes acc 0x2000 ++
      f32Bytes sums 0x2000 ++ f32Bytes sp 0x2000 ++ f32Bytes ml 0x100) 0x7000

/-- The permute engine's pipeline: the elements of an MSORT chunk, or the indices and rows of a gather or scatter that have
been sampled, as far as the region holds them. -/
def State.imagePx (s : State) (c : Nat) : List Byte :=
  let q := (s.core c).eng.px
  match q.steps.head?.bind fun st => (q.entry st.issue).map fun a => (st, a) with
  | none => List.replicate 0x1000 0
  | some (st, a) =>
    let form := a.entry.form
    let own := (st.sample 0).flatMap fun e => bytesOf e (if form = 8 then pxEB a.entry.block else 4)
    let rows := ((st.samples.filter fun e => decide (100 ≤ e.1)).flatMap fun e => bytesOfNats e.2) ++ st.readBytes
    fitBytes (wordBytes [st.n % 2 ^ 32 * 2 ^ 32 + st.stage % 2 ^ 32] ++ List.replicate 56 0 ++ own ++ if form = 8 then [] else rows) 0x1000

/-- The parts of a core's image, each with its offset (R205, R239, R250, R251, R317). -/
def State.image (s : State) (c : Nat) (d : Domain) : List (Nat × List Byte) :=
  let k := s.core c
  [(0, s.imageHeader c d), (0x1000, s.imageCc c), (0x2000, imageBe k.be), (0x5000, imageTags k.eng), (0x5800, imageRegions k.eng),
    (0x6000, s.imageEngines c), (0x40000, s.imageMx c), (0x47000, s.imagePx c),
    (0x48000, fitBytes ((s.snapshot c).flatMap fun e => wordBytes e.words) (3072 * 192)),
    (0xD8000, (List.range 256).flatMap fun i => bytesOf ((sget k.fab.landing i).getD 0).toNat 128),
    (0xE0000, readBytes k.eng.ispad 0 0x1C000 ++ List.replicate 0x4000 0), (0x100000, readBytes k.eng.spad 0 0x100000),
    (0x200000, readBytes k.eng.accum 0 0x40000)]

/-! ### Reading an image back -/

/-- `n` numbers of `size` bytes at offset `o` of an image part. -/
def numsAt (bs : List Byte) (o n size : Nat) : List Nat :=
  (List.range n).map fun i => bytesVal ((bs.drop (o + size * i)).take size)

def halvesOf {n w : Nat} (xs : List Nat) : Vector (BitVec w) n := Vector.ofFn fun i => BitVec.ofNat w (xs.getD i.val 0)

/-- Loop registers from their 36 words a level. -/
def loopFrom (ws : List Nat) (l : Nat) : LoopLevel :=
  let w (i : Nat) : Nat := ws.getD (36 * l + i) 0
  { act := bitOf (w 0) 32, lc := BitVec.ofNat 32 (w 0), li := BitVec.ofNat 32 (w 1), lb := BitVec.ofNat 32 (w 2)
    le := BitVec.ofNat 32 (w 3), str := Vector.ofFn fun i => BitVec.ofNat 48 (w (4 + i.val)) }

/-- A next-PC queue entry from its word in the epc layout (R126). -/
def npqFrom (w : Nat) : NpqEntry := ⟨BitVec.ofNat 32 w, bitOf w 63, BitVec.ofNat 4 (w / 2 ^ 32)⟩

/-- The bundle engine with the registers of its part of an image. -/
def Be.withImage (b : Be) (bs : List Byte) : Be :=
  { b with
    regs := { sa := halvesOf (numsAt bs 0 16 8), sb := halvesOf (numsAt bs 0x80 16 8), va := halvesOf (numsAt bs 0x100 16 128)
              vb := halvesOf (numsAt bs 0x900 16 128), vc := halvesOf (numsAt bs 0x1100 16 128)
              fs := halvesOf (numsAt bs 0x1900 8 128), ma := halvesOf (numsAt bs 0x1D00 16 8)
              mb := halvesOf (numsAt bs 0x1D80 16 8), xf := halvesOf (numsAt bs 0x1E00 8 8), st := halvesOf (numsAt bs 0x1E40 16 8)
              mh := halvesOf (numsAt bs 0x1EC0 6 128) }
    loops := Vector.ofFn fun l => loopFrom (numsAt bs 0x21C0 144 8) l.val
    npq := Vector.ofFn fun i => npqFrom ((numsAt bs 0x2640 3 8).getD i.val 0)
    vflags := BitVec.ofNat 64 ((numsAt bs 0x2658 1 8).getD 0 0)
    mstep := if b.micro.isSome then b.mstep else BitVec.ofNat 64 ((numsAt bs 0x2660 1 8).getD 0 0) }

/-- The control core with the registers of its part; `was` are the CSRs' values as it was written. A CSR whose word is the
one that was written stays as it is. -/
def Core.withCc (k : Core) (sc : Nat) (was bs : List Nat) : Core :=
  let ws := bs
  let k := { k with cc := { k.cc with
    x := Vector.ofFn fun i => if i.val = 0 then 0 else BitVec.ofNat 64 (ws.getD (i.val - 1) 0)
    pc := BitVec.ofNat 64 (ws.getD 31 0), mode := if ws.getD 32 0 = 3 then .m else .u
    cnt := Vector.ofFn fun i => BitVec.ofNat 32 (ws.getD (33 + savedCsrs.length + i.val) 0) } }
  (savedCsrs.zip (List.range savedCsrs.length)).foldl
    (fun k e =>
      let v := ws.getD (33 + e.2) 0
      if v = was.getD (33 + e.2) 0 then k
      else { k with cc := k.cc.csrWrite sc e.1 (BitVec.ofNat 64 v), be := k.be.csrWrite sc e.1 (BitVec.ofNat 64 v) }) k

/-- A queue entry with the block, translations, start SC and issue number of its 3 KiB. -/
def QEntry.withImage (q : QEntry) (bs : List Byte) : QEntry :=
  let ws := numsAt bs 2048 34 8
  { q with
    block := numsAt bs 0 q.block.length 8 |>.map (BitVec.ofNat 64)
    rng := Vector.ofFn fun i => ⟨BitVec.ofNat 64 (ws.getD (2 * i.val) 0), BitVec.ofNat 64 (ws.getD (2 * i.val + 1) 0)⟩
    start := BitVec.ofNat 64 (ws.getD 32 0), issue := BitVec.ofNat 32 (ws.getD 33 0) }

/-- The held and queued entries of one queue from its 24 KiB. -/
def queueFrom (held : SeqState) (q : List QEntry) (bs : List Byte) : SeqState × List QEntry :=
  let at_ (i : Nat) : List Byte := (bs.drop (3072 * i)).take 3072
  let n := held.active.length
  ({ held with active := held.active.zipIdx.map fun (a : ActiveEntry × Nat) => { a.1 with entry := a.1.entry.withImage (at_ a.2) } },
    q.zipIdx.map fun (e : QEntry × Nat) => if n + e.2 < 8 then e.1.withImage (at_ (n + e.2)) else e.1)

def latchFrom (bs : List Byte) (phase : Nat) : Latch :=
  ⟨writeBytes [] 0 (bs.take 0x6000), writeBytes [] 0 ((bs.drop 0x6000).take 0x800), phase⟩

/-- Progress registers from their words: those that `Prog.write` writes, and STATUS, ACCLOC and PHASE. -/
def Prog.withImage (p : Prog) (e : Eng) (ws : List Nat) : Prog :=
  let w (i : Nat) : Nat := ws.getD i 0
  let p := (List.range ws.length).foldl (fun p i => p.write e i (BitVec.ofNat 64 (w i))) p
  let p := { p with
    cause := BitVec.ofNat 8 (bitsOf (w 0) 56 8), state := BitVec.ofNat 3 (bitsOf (w 0) 53 3), resumed := bitOf (w 0) 52
    flags := BitVec.ofNat 6 (bitsOf (w 0) 46 6), issue := BitVec.ofNat 32 (w 0) }
  match e with
  | .mx =>
    { p with
      whalf := bitOf (w 8) 4, slot := BitVec.ofNat 4 (w 8), nexttag := BitVec.ofNat 16 (bitsOf (w 9) 16 16), par := bitOf (w 9) 0 }
  | .ce => { p with total := BitVec.ofNat 32 (w 2) }
  | _ => p

/-- The engines with their part of an image, which begins at 0x6000. -/
def Engines.withImage (k : Engines) (bs : List Byte) : Engines :=
  let part (o n : Nat) : List Byte := (bs.drop o).take n
  let m := queueFrom k.mx k.mxq (part 0 0x6000)
  let p := queueFrom k.px k.pxq (part 0x6000 0x6000)
  let e := queueFrom k.ce k.ceq (part 0xC000 0x6000)
  let mp := m.1.prog.withImage .mx (numsAt bs 0x38000 14 8)
  let pp := p.1.prog.withImage .px (numsAt bs 0x38200 13 8)
  let ep := e.1.prog.withImage .ce (numsAt bs 0x38400 6 8)
  { k with
    mx := { m.1 with prog := mp }, mxq := m.2, px := { p.1 with prog := pp }, pxq := p.2, ce := { e.1 with prog := ep }, ceq := e.2
    cxq := (queueFrom .reset k.cxq (part 0x12000 0x6000)).2, weirq := (queueFrom .reset k.weirq (part 0x18000 0x6000)).2
    latches := Vector.ofFn fun n => latchFrom (part (0x1E000 + 0x6800 * n.val) 0x6800) ((numsAt bs 0x38430 4 1).getD n.val 0)
    codebook := ((numsAt bs 0x39000 256 4).zipIdx).foldl (fun (m : Sparse Half) (e : Nat × Nat) => sput 0 m e.2 (BitVec.ofNat 32 (bookWord e.1))) [] }

/-- What an entry of a saved snapshot gives back to the effect that it latched: its SCs, its data and its address. -/
structure SnapBack where
  due : Nat
  issue : Nat
  addr : Nat
  data : VWord

def snapBack (bs : List Byte) (i : Nat) : SnapBack :=
  let ws := numsAt ((bs.drop (192 * i)).take 192) 0 24 8
  { due := ws.getD 1 0, issue := ws.getD 3 0, addr := ws.getD 4 0
    data := BitVec.ofNat 1024 ((List.range 16).foldl (fun a j => a + ws.getD (8 + j) 0 * 2 ^ (64 * j)) 0) }

/-- The results in flight of a bundle engine take the data and SCs of their snapshot entries, which come first. -/
def Be.withLandings (b : Be) (bs : List Byte) : Be :=
  { b with landings := (b.landings.foldl
      (fun (a : List Landing × Nat) l =>
        if l.src.isSome then (a.1 ++ [l], a.2)
        else
          let e := snapBack bs a.2
          (a.1 ++ [{ l with due := e.due, issue := e.issue, data := e.data }], a.2 + 1)) ([], 0)).1 }

/-- A private store takes the data, address and SC of its entry; a store whose data the entry could not hold stays. -/
def SpAccess.withBack (a : SpAccess) (e : SnapBack) : SpAccess :=
  if a.kind = .tagStore then { a with due := e.due, issue := e.issue, addr := e.addr, tag := BitVec.ofNat 16 e.data.toNat }
  else if a.len ≤ 128 then { a with due := e.due, issue := e.issue, addr := e.addr, bytes := bytesOf e.data.toNat a.len }
  else { a with due := e.due, issue := e.issue, addr := e.addr }

end Sys2Proof.Machine
end

