-- ==== Sys2Proof/Machine/Evict.lean ====
section
/-! DEFINITION. Eviction and restore of a frozen domain (R40, R51, R205, R239, R317), and the replies that arrive for an
evicted domain (R370). -/

namespace Sys2Proof.Machine

/-! ### EVICTION -/

/-- Bytes of one core's image. -/
def imageSize : Nat := 0x240000

/-- The cores of a domain, in increasing number. -/
def Domain.sorted (d : Domain) : List Nat := sortBy (fun (a b : Nat) => decide (a < b)) (d.cores.map (·.1))

/-- A Weir or CX sequencer holds a running or stopped entry of the domain (R317). -/
def State.heldShared (s : State) (d : Domain) : Bool :=
  s.seqs.any fun e => !e.2.active.isEmpty && d.cores.any fun k => k.1 == e.2.core

/-- Write the images of a domain's cores from `ia` upwards; false where a store fails. -/
def State.writeImages (s : State) (d : Domain) (ia : Nat) : State × Bool :=
  d.sorted.zipIdx.foldl
    (fun a k =>
      (s.image k.1 d).foldl
        (fun a x =>
          let w := a.1.iaStore d.part (ia + imageSize * k.2 + x.1) x.2
          (w.1, a.2 && w.2)) a) (s, true)

/-- A dirty first-level line of a domain whose write-back its sectors' tags would stop: its address (R51, R297). -/
def State.flushStop (s : State) (d : Domain) : Option Nat :=
  d.sorted.findSome? fun c =>
    ((s.core c).cc.l1.find? fun l =>
      l.2.dirty != 0 &&
        (s.tagStop (s.core c).dom d.part (128 * l.1) 128 l.2.dirty.toNat (s.translateHome d.part (128 * l.1) false true)).isSome).map
      fun l => 128 * l.1

/-- EVICTION: the caches are written back, the images written, a record with status 11 names their base, the cores are
freed and cleared; pins end, bindings stay (R306, R381), and the requests that wait are the domain's (R275). It is refused
with a status while a shared sequencer holds an entry of the domain (R317). An event met on the way is class X (R51). -/
def State.evict (s : State) (id ia : Nat) : State :=
  match s.dom id with
  | none => s
  | some d =>
    if d.phase ≠ .frozen then s
    else if s.heldShared d then s.refuseOrder id
    else
      match s.flushStop d with
      | some a => s.raiseDom id 0 (classXEv 9 0 a)
      | none =>
      let s := d.sorted.foldl (fun s c => s.flushL1 c true) s
      let (s, ok) := s.writeImages d ia
      if !ok then s.raiseDom id 0 (saveEv ia)
      else
        let saved := d.sorted.map fun c => (c, s.core c)
        let s := s.modDom id fun d =>
          { d with phase := .evicted, saveIA := some ia, pins := [], saved, heldReqs := s.mem.reqs.filter fun r => r.dom == some id }
        let s := { s with mem := { s.mem with reqs := s.mem.reqs.filter fun r => r.dom != some id } }
        let old : Cmd := { idx := d.cmdidx, words := d.cmd, at_ := 0, dom := none, written := 0, failed := none }
        let s := s.report d.queue ((s.execOf d.queue d.cmdidx.toNat).getD old) 11 ⟨0, d.mdeliv, d.replays, ia⟩
        (d.sorted.foldl (fun s c => s.clearCore c true) (s.unpin id)).tableWrite

def execEviction (dom ia : Nat) (s : State) : Host.Outcome State Fault Refusal := .next (s.evict dom ia)

/-! ### RESTORE -/

/-- A landing whose reply came during the eviction takes the slot's data; its window ends at DELIVSC (R205). -/
def Core.takeLate (k : Core) (sc : Nat) : Core :=
  let done := k.fab.loads.filter fun l => decide (l.1 < 256) && k.fab.landingValid.getLsbD l.1
  { k with
    be := done.foldl (fun b l => b.supply l.2.2.1 ((sget k.fab.landing l.1).getD 0) sc) k.be
    fab := { k.fab with
      loads := k.fab.loads.filter fun l => !done.contains l
      landingValid := 0 } }

/-- What a core keeps of its own when a saved domain comes back to it. The refetch table is not saved (R327): a refetch
under way goes, and the copy engine's sequencer is as it was before it. -/
def Core.restored (saved now : Core) (id : Nat) : Core :=
  let k := { saved with
    fenced := now.fenced, dom := some id, clearing := false, audcnt := now.audcnt, audofs := now.audofs, audskip := now.audskip
    perfsnap := now.perfsnap, staging := now.staging
    cc := { saved.cc with monMem := now.cc.monMem, monBad := now.cc.monBad }
    eng := { saved.eng with
      refetch := [], redo := none
      ce := match saved.eng.redo with
        | some r => { saved.eng.ce.dropIssue r.act.entry.issue with prog := { saved.eng.ce.prog with state := r.was } }
        | none => saved.eng.ce
      regions := (saved.eng.regions.setIfInBounds 14 ((now.eng.regions[14]?).getD 0)).setIfInBounds 15
        ((now.eng.regions[15]?).getD 0)
      ispad := writeBytes saved.eng.ispad 0x1C000 (readBytes now.eng.ispad 0x1C000 0x4000) } }
  k

/-- The requests of a core take the SCs, addresses and data of their snapshot entries, the first of which is entry `n`. -/
def reqsFrom (bs : List Byte) (c n : Nat) (rs : List LongReq) : List LongReq :=
  (rs.foldl
    (fun (a : List LongReq × Nat) r =>
      if r.core ≠ c then (a.1 ++ [r], a.2)
      else if 3072 ≤ a.2 then (a.1 ++ [r], a.2 + 1)
      else
        let e := snapBack bs a.2
        (a.1 ++ [{ r with due := e.due, issue := e.issue, ia := e.addr, data := if r.kind = .load then r.data else e.data }], a.2 + 1))
    ([], n)).1

/-- A core takes the registers and stores that its image holds. `part` reads bytes of the image, `was` are the control
core's words as they were written, and `others` is the number of entries between its landings and its stores. -/
def Core.withImage (k : Core) (part : Nat → Nat → List Byte) (sc : Nat) (was : List Nat) (others : Nat) : Core :=
  let snaps := part 0x48000 (3072 * 192)
  let first := (k.be.landings.filter fun l => l.src.isNone).length + others
  let k := k.withCc sc was (numsAt (part 0x1000 0x400) 0 (33 + savedCsrs.length + 5) 8)
  let be := (k.be.withImage (part 0x2000 0x3000)).withLandings snaps
  let accesses := (be.accesses.foldl
    (fun (a : List SpAccess × Nat) x =>
      if x.isLoad then (a.1 ++ [x], a.2)
      else (a.1 ++ [if a.2 < 3072 then x.withBack (snapBack snaps a.2) else x], a.2 + 1)) ([], first)).1
  let mask := numsAt (part 64 32) 0 4 8
  let eng := k.eng.withImage (part 0x6000 0x3A000)
  let tags := ((numsAt (part 0x5000 0x800) 0 1024 2).zipIdx).foldl
    (fun (m : Sparse (BitVec 16)) (e : Nat × Nat) => sput 0 m e.2 (BitVec.ofNat 16 e.1)) []
  { k with
    be := { be with accesses }
    eng := { eng with
      tags
      regions := Vector.ofFn fun i =>
        if i.val < 14 then BitVec.ofNat 64 ((numsAt (part 0x5800 0x80) 0 16 8).getD i.val 0) else (eng.regions[i]?).getD 0
      ispad := writeBytes eng.ispad 0 (part 0xE0000 0x1C000)
      spad := writeBytes [] 0 (part 0x100000 0x100000)
      accum := writeBytes [] 0 (part 0x200000 0x40000) }
    fab := { k.fab with
      landingValid := BitVec.ofNat 256 (mask.zipIdx.foldl (fun a (e : Nat × Nat) => a + e.1 * 2 ^ (64 * e.2)) 0)
      landing := k.fab.loads.foldl
        (fun m l => if l.1 < 256 then sinsert m l.1 (BitVec.ofNat 1024 (bytesVal (part (0xD8000 + 128 * l.1) 128))) else m)
        k.fab.landing } }

/-- The front end reads the save area of a domain of `n` cores: where it does not translate, or a sector of it is
uncorrectable, its class X event (R51, R300). -/
def State.readArea (s : State) (d : Domain) (ia n : Nat) : State × Option Ev :=
  let len := imageSize * n
  let hole := (List.range (len / 65536 + 1)).find? fun i =>
    match s.translateHome d.part (ia + min (65536 * i) (len - 1)) true false with
    | .ok .. => false
    | _ => true
  match hole with
  | some i => (s, some (saveEv (ia + 65536 * i)))
  | none =>
    let (s, found) := s.iaRead d.part ia len
    (s, (found.find? fun f => f.2.sev == .h || f.2.sev == .x || f.2.tagst == 2).map fun f => saveEv f.2.ia)

/-- A saved core comes back with what its image holds: the `i`-th of the area (R40, R205). -/
def State.restoreCore (s : State) (d : Domain) (id ia : Nat) (k : Core × Nat × Nat) : State :=
  let c := k.2.1
  let sc := d.sc s.basin
  let part (o n : Nat) : List Byte := s.iaBytes d.part (ia + imageSize * k.2.2 + o) n
  let s := s.modCore c fun now => k.1.restored now id
  let old := s.core c
  let was := numsAt (s.imageCc c) 0 (33 + savedCsrs.length + 5) 8
  let loads := (old.be.accesses.filter SpAccess.isLoad).countP fun a => old.be.landings.any fun l => l.src == some a.id
  let mine := (d.heldReqs.filter fun r => r.core == c).length
  let sampled := s.mem.sampled.countP fun r => r.core == c && r.dom == some id && r.engine == 3
  let first := (old.be.landings.filter fun l => l.src.isNone).length + loads
  let s := s.modCore c fun x => (x.withImage part sc was (loads + mine + sampled)).takeLate sc
  s.modDom id fun x => { x with heldReqs := reqsFrom (part 0x48000 (3072 * 192)) c first x.heldReqs }

/-- RESTORE: onto cores of the same numbers, which must be free; the domain is then frozen as before. The cores take what
their images in the save area hold; what an image has no place for comes back as it was (log 17). -/
def State.restore (s : State) (id : Nat) : State :=
  match s.dom id with
  | none => s
  | some d =>
    if d.phase ≠ .evicted ∨ d.saved.any (fun k => let x := s.core k.1; x.dom.isSome || x.clearing || x.fenced) then s
    else
      let ia := d.saveIA.getD 0
      match s.readArea d ia d.saved.length with
      | (s, some e) => s.raiseDom id 0 e
      | (s, none) =>
        let s := d.saved.zipIdx.foldl (fun s k => s.restoreCore d id ia (k.1.2, k.1.1, k.2)) s
        let back := ((s.dom id).map (·.heldReqs)).getD []
        let s := { s with mem := { s.mem with reqs := s.mem.reqs ++ back } }
        (s.modDom id fun d => { d with phase := .frozen, saved := [], heldReqs := [] }).tableWrite

def execRestore (dom : Nat) (s : State) : Host.Outcome State Fault Refusal := .next (s.restore dom)

/-! ### Late replies (R370) -/

/-- The evicted domain whose saved core `c` awaits a reply in landing slot `slot`. -/
def State.lateDom (s : State) (c slot : Nat) : Option (Nat × Domain) :=
  s.doms.find? fun e => e.2.phase == .evicted &&
    e.2.saved.any fun k => k.1 == c && !k.2.fab.landingValid.getLsbD slot && k.2.fab.loads.any fun l => l.1 == slot

/-- The reply joins the slot of a saved core; its valid bit is set once every part has come. -/
def Fabric.takePart (f : Fabric) (slot : Nat) (data : VWord) : Fabric :=
  let left := ((f.loads.find? fun l => l.1 == slot).map (·.2.2.2)).getD 0 - 1
  { f with
    landing := sinsert f.landing slot ((sget f.landing slot).getD 0 ||| data)
    loads := f.loads.map fun l => if l.1 = slot then (l.1, l.2.1, l.2.2.1, left) else l
    landingValid := if left = 0 then f.landingValid ||| ((1 : BitVec 256) <<< slot) else f.landingValid }

/-- A late reply of the copy engine's (slots from 256 on). -/
def Core.lateCopy (k : Core) (slot : Nat) (data : VWord) : Core :=
  match k.fab.loads.find? fun l => l.1 == slot with
  | none => k
  | some l =>
    { k with
      eng := { k.eng with ce := k.eng.ce.supply l.2.2.1 (bytesOf data.toNat l.2.2.2) false }
      fab := { k.fab with loads := k.fab.loads.filter fun y => y.1 != slot } }

/-- LATE_REPLY: the saved image's landing area takes the data and its header the valid bit; RLDS stays. A store that fails
is an event in the save area (R51). -/
def State.lateReply (s : State) (c slot : Nat) (data : VWord) : State :=
  match s.lateDom c slot with
  | none => s
  | some (id, d) =>
    let take (k : Core) : Core := if slot < 256 then { k with fab := k.fab.takePart slot data } else k.lateCopy slot data
    let saved := d.saved.map fun (k : Nat × Core) => if k.1 = c then (k.1, take k.2) else k
    let s := s.setDom id { d with saved }
    if slot ≥ 256 then s
    else
      let f := ((saved.find? fun k => k.1 == c).map fun k => k.2.fab).getD Fabric.reset
      let base := d.saveIA.getD 0 + imageSize * d.sorted.idxOf c
      let (s, ok0) := s.iaStore d.part (base + 0xD8000 + 128 * slot) (bytesOf ((sget f.landing slot).getD 0).toNat 128)
      let (s, ok1) := s.iaStore d.part (base + 64) (wordBytes ((List.range 4).map fun i => bitsOf f.landingValid.toNat (64 * i) 64))
      if ok0 && ok1 then s else s.raiseDom id 0 (saveEv (base + if ok0 then 64 else 0xD8000 + 128 * slot))

def execLateReply (core slot : Nat) (data : VWord) (s : State) : Host.Outcome State Fault Refusal :=
  if unitsOk (.lateReply core slot data) then .next (s.lateReply core slot data) else .fault .noSuchUnit

end Sys2Proof.Machine
end

