-- ==== Sys2Proof/Machine/Remote.lean ====
section
/-! DEFINITION. The fabric at work (R356 to R371): transfers that arrive, remote accesses at their target, fabric switches
with their collisions, acknowledgements and replies. -/

namespace Sys2Proof.Machine

/-! ### Remote accesses at their target (R365 to R368) -/

/-- The live domain of this module that shares a remote request's launch: the basin domain of its partition and
discipline (log 18). -/
def State.targetDom (s : State) (r : RemoteReq) : Option (Nat × Domain) :=
  s.doms.find? fun e => e.2.basin && e.2.phase == .running && e.2.part == r.part && e.2.timed == r.timed

/-- An event at the target of a remote request. -/
def remoteEv (r : RemoteReq) (cause sub : Nat) : Ev :=
  { cause := BitVec.ofNat 8 cause, subcause := BitVec.ofNat 8 sub, engine := 7, slot := 15, pc := 0
    faddr := BitVec.ofNat 64 r.ia, tcode := 0, issue := 0, tengine := 0, duesc := 0, body := 1, words := [] }

/-- The reply of a load or atomic, at departure + LB: to a core of this module, or out of it. -/
def State.reply (s : State) (r : RemoteReq) (route : Nat) (data : Nat) (poisoned : Bool) : State :=
  let d : VWord := BitVec.ofNat 1024 (data * 2 ^ (8 * r.ofs))
  if r.srcModule = s.moduleId then
    s.schedule (s.basin + max 1 (s.route r.part route).lb) (.op r.srcCore (.replyArrival r.srcCore r.slot d poisoned))
  else s.emit (.reply r.srcModule r.srcCore r.slot d poisoned)

/-- Parts that have arrived and are not yet acknowledged. -/
def State.unackedOf (s : State) (m c x : Nat) : Nat :=
  ((s.io.unacked.find? fun u => u.1 == m && u.2.1 == c && u.2.2.1 == x).map (·.2.2.2)).getD 0

def State.setUnacked (s : State) (m c x n : Nat) : State :=
  let rest := s.io.unacked.filter fun u => !(u.1 == m && u.2.1 == c && u.2.2.1 == x)
  { s with io := { s.io with unacked := if n = 0 then rest else rest ++ [(m, c, x, n)] } }

/-- A store part has performed: one more to acknowledge, at once after the 64th or a part with FL set (R368). -/
def State.partStored (s : State) (r : RemoteReq) : State :=
  let n := s.unackedOf r.srcModule r.srcCore r.stream + 1
  let s := s.setUnacked r.srcModule r.srcCore r.stream n
  if n ≥ 64 ∨ r.fl then s.soon (.op s.cur (.ackSend r.srcModule r.srcCore r.stream false)) else s

/-- An overlap in mixed size of a RAMO whose launch checks for it (R287): the access does not perform. One that a core of
this module issued is an event of its bundle engine, its landing dropped; any other is reported to the target's domain. -/
def State.strongRefused (s : State) (r : RemoteReq) (dom : Option Nat) : State :=
  if r.srcModule = s.moduleId then
    let e : Ev := { remoteEv r 0x0A 0 with engine := 1, slot := r.bslot, pc := r.pc.setWidth 64, faddr := r.va }
    let id := ((s.core r.srcCore).fab.loads.find? fun l => l.1 == r.slot).map fun l => l.2.2.1
    (s.modCore r.srcCore fun k =>
      { k with be := id.elim k.be k.be.dropLanding, fab := { k.fab with loads := k.fab.loads.filter fun l => l.1 != r.slot } }).beLate
        r.srcCore e
  else s.raiseFor dom 0 r.part (remoteEv r 0x0A 0)

/-- A part is served at its home slice with the translation `x` of a request whose target domain is `dom`; `poison` is
the mark of the transfer that brought a store's bytes (R295). -/
def State.servePart (s : State) (r : RemoteReq) (route : Nat) (dom : Option Nat) (x : Xlat) (poison : Bool := false) : State :=
  match r.kind with
  | 0 =>
    let (s, m) := s.memRead dom r.part r.ia r.bytes x
    (s.reportFound dom 0 r.part (remoteEv r 0x0D 0) r.ia true m.found).reply r route (bytesVal m.bytes) (metPoison m.found)
  | 1 =>
    match s.tagStop dom r.part r.ia r.bytes (maskOf r.bytes) x with
    | some i => s.reportFound dom 0 r.part (remoteEv r 0x0D 0) r.ia true [(⟨0, r.bytes⟩, i)]
    | none =>
      let s := s.memWrite dom r.part r.ia (bytesOf r.data.toNat r.bytes) (maskOf r.bytes) x poison
      (s.breakReservations none r.part r.ia r.bytes).partStored r
  | _ =>
    let h := s.home r.part r.ia
    if r.ovldbg && !(s.strongClash h.1 h.2 r.bytes).isEmpty then s.strongRefused r dom
    else
      let (s, old, found) := s.homeRmw true none dom r.part r.ia r.bytes x
        fun m => amoValue false r.op.toNat r.bytes m r.data.toNat r.cmp.toNat
      (s.reportFound dom 0 r.part (remoteEv r 0x0D 0) r.ia true found).reply r route old (metPoison found)

/-- An event at the target of a remote access: of its live domain, or of the latest that has ended, with SECONDARY set and
no response (R403). -/
def State.targetEvent (s : State) (r : RemoteReq) (t : Option (Nat × Domain)) (e : Ev) : State :=
  let ended := (s.doms.filter fun x => x.2.basin && x.2.part == r.part && x.2.timed == r.timed && x.2.phase != .running).getLast?
  match t, ended with
  | some (id, _), _ => s.raiseDom id 0 e
  | none, some (_, d) => s.recordEnded 0 d e
  | none, none => s.raiseNone r.part 0 e

/-- A remote access at its home: a fault or a lease overrun there is the target domain's (R366); in Elastic the target
confirmed it before issue (R367), and one that fails is not served. -/
def State.serveRemote (s : State) (f : Flit) (r : RemoteReq) : State :=
  let rd := r.kind != 1
  let wr := r.kind != 0
  let t := s.targetDom r
  let (s, x) := s.translateNow r.part r.ia rd wr
  let dom := t.map (·.1)
  match s.xlatEvent (remoteEv r 0x06 0) r.part r.ia r.ia x with
  | some e => s.targetEvent r t e
  | none =>
    match (if wr then s.bindForWrite dom r.part r.ia x else .ok s), x, t with
    | .ok s, .ok pa leaf size, some (id, d) =>
      if d.timed then
        (match s.takeLease id d r.part r.ia r.bytes (d.sc s.basin) pa (r.kind == 2) with
         | some s => s.servePart r f.route dom (.ok pa leaf size) f.poisoned
         | none => s.raiseDom id 0 { remoteEv r 0x08 3 with duesc := BitVec.ofNat 64 (d.sc s.basin) })
      else s.servePart r f.route dom (.ok pa leaf size) f.poisoned
    | .ok s, x, _ => s.servePart r f.route dom x f.poisoned
    | .error sub, _, t =>
      s.targetEvent r t { remoteEv r 0x0B sub with body := 9, words := s.shadowWords r.part r.ia r.ia (dom.getD 0) sub }

/-! ### FLIT_ARRIVAL (R364) -/

/-- The schedule fault, SUBCAUSE 4, of an arrival that no RECV takes (R364, R371). -/
def State.arrivalFault (s : State) (f : Flit) (dueSC : Nat) : Ev :=
  { cause := 0x08, subcause := 4, engine := 7, slot := 15, pc := 0, faddr := 0, tcode := 0, issue := 0, tengine := 0
    duesc := BitVec.ofNat 64 dueSC, body := 5
    words := s.fabricWords f.route f.stream 31 31 31 f.seq.toNat f.depSC dueSC }

/-- The domain of core `c` that has ended, or that R57 has ended and replays: the latest that held the core. -/
def State.endedDomain (s : State) (c : Nat) : Option (Nat × Domain) :=
  (s.doms.filter fun e =>
    e.2.cores.any (fun k => k.1 == c) && (e.2.phase == .ended || (e.2.phase == .armed && decide (0 < e.2.replays)))).getLast?

/-- A Timed transfer still in flight when its domain ended: the record of R403, with SECONDARY set and no response. -/
def State.lateArrival (s : State) (f : Flit) : State :=
  match s.endedDomain f.dstCore with
  | none => s
  | some (_, d) =>
    s.recordEnded f.dstCore d (s.arrivalFault f (d.sc s.basin))

/-- A transfer of a stream: held for one SC in Timed; in Elastic it waits until its stream is empty. -/
def State.holdFlit (s : State) (f : Flit) : State :=
  let c := f.dstCore
  let held := ((s.core c).fab.rx[f.stream]?).getD none
  let put (s : State) : State := s.modFab c fun k => { k with rx := k.rx.setIfInBounds f.stream (some ⟨f, s.sc c, none⟩) }
  if (s.core c).dom.isNone || !s.live c then
    if f.timed then s.lateArrival f
    else if (s.core c).dom.isNone then s
    else s.schedule (s.basin + 1) (.op c (.flitArrival f))
  else if s.timed c then
    let s := put s
    { s with agenda := s.agenda ++ [.unmatched c f.stream] }
  else if held.isSome then s.schedule (s.basin + 1) (.op c (.flitArrival f))
  else put s

/-- A Timed remote request that reaches its home after its due cycle is never performed late: class X (R273). -/
def State.requestLate (s : State) (r : RemoteReq) : State :=
  s.targetEvent r (s.targetDom r) { remoteEv r 0x0E 0 with body := 3, words := hopWords 7 }

/-- FLIT_ARRIVAL: a remote access is served from its due cycle on, a Timed one at that cycle alone; a plan's transfer
joins those held for its steps, and any other reaches its stream. -/
def State.flitArrives (s : State) (f : Flit) : State :=
  match f.req with
  | some r =>
    if s.basin < r.due then s.schedule r.due (.op f.dstCore (.flitArrival f))
    else if r.timed && decide (r.due < s.basin) then s.requestLate r
    else s.serveRemote f r
  | none =>
    match f.plan with
    | some _ => s.modFab f.dstCore fun k => { k with plan := k.plan ++ [⟨f, s.sc f.dstCore, none⟩] }
    | none => s.holdFlit f

def execFlitArrival (f : Flit) (s : State) : Host.Outcome State Fault Refusal :=
  if unitsOk (.flitArrival f) then .next (s.flitArrives f) else .fault .noSuchUnit

/-- A Timed arrival that no RECV took by the end of its SC: schedule fault, SUBCAUSE 4, and it is discarded (R364). -/
def State.unmatched (s : State) (c x : Nat) : State :=
  match ((s.core c).fab.rx[x]?).getD none with
  | none => s
  | some h =>
    if h.arr ≠ s.sc c then s
    else
      let s := s.modFab c fun k => { k with rx := k.rx.setIfInBounds x none }
      s.raise c (s.arrivalFault h.flit h.arr)

/-! ### SWITCH_FORWARD (R359, R360, R384) -/

/-- A lease in force on an output link of this module now. -/
def State.linkHeld (s : State) (link : Nat) : Bool :=
  s.doms.any fun e => e.2.timed && e.2.phase == .running && linkLeased e.2 link (e.2.sc s.basin)

/-- The stream of the sending core that a transfer left on. -/
def State.sentOn (s : State) (f : Flit) : Nat :=
  if f.req.isSome then f.stream
  else ((List.range 8).find? fun x => let d := s.stream f.srcCore x; d.route == f.route && d.pstream == f.stream).getD 0

/-- A notice goes out on the next link of its path, in a cycle that no Timed lease holds (R57). -/
def State.sendNotice (s : State) (n : Notice) : State :=
  match n.path with
  | [] => s
  | l :: rest => if s.linkHeld l then s.schedule (s.basin + 1) (.notice n) else s.emit (.notice l { n with path := rest })

/-- Event 0x09 of a dropped transfer, on the run of the domain that sent it (R359, R371, R403). -/
def State.dropped (s : State) (x : PortFlit) (wport : Nat) : State :=
  let f := x.flit
  let own := f.srcModule == s.moduleId
  let l := if own then (s.route (s.partOf f.srcCore) f.route).l else 0
  let ws := s.fabricWords f.route (if own then s.sentOn f else f.stream) wport x.port x.link f.seq.toNat f.depSC (f.depSC + l)
  if own then
    s.reported f.srcCore x.dom x.run
      { cause := 0x09, subcause := 0, engine := 7, slot := 15, pc := 0, faddr := 0, tcode := 0, issue := 0, tengine := 0
        duesc := 0, body := 5, words := ws }
  else s.emit (.collision f.srcModule f.srcCore ws)

/-- The rank of transfers that claim one link: the lower port; on port 17 the lower source core; on port 16 the order in
which the other die's switch ranks them, that of the list. -/
def portBefore (a b : PortFlit) : Bool :=
  decide (a.port < b.port) || (a.port == b.port && a.port == 17 && decide (a.flit.srcCore < b.flit.srcCore))

/-- What a switch's cycle has decided so far: the links taken with their ports, the transfers that go on with the flits
they still have, those that have passed whole, and those dropped with the winning port. -/
structure SwitchCycle where
  taken : List (Nat × Nat)
  stay : List PortFlit
  passed : List Flit
  lost : List (PortFlit × Nat)
deriving DecidableEq, Repr

/-- One flit of transfer `x` passes. -/
def SwitchCycle.pass (a : SwitchCycle) (x : PortFlit) : SwitchCycle :=
  let a := { a with taken := a.taken ++ [(x.link, x.port)] }
  if x.flits ≤ 1 then { a with passed := a.passed ++ [x.flit] }
  else { a with stay := a.stay ++ [{ x with flits := x.flits - 1 }] }

/-- A Timed transfer claims its link: it passes, or is dropped whole for want of a lease or behind a lower port. -/
def State.claim (s : State) (a : SwitchCycle) (x : PortFlit) : SwitchCycle :=
  if !s.linkHeld x.link then { a with lost := a.lost ++ [(x, 31)] }
  else
    match a.taken.find? fun t => t.1 == x.link with
    | some t => { a with lost := a.lost ++ [(x, t.2)] }
    | none => a.pass x

/-- An Elastic transfer takes its link's cycle where no lease holds it, one transfer a cycle, in order of issue. -/
def State.fillCycle (s : State) (a : SwitchCycle) (x : PortFlit) : SwitchCycle :=
  if s.linkHeld x.link || a.taken.any (fun t => t.1 == x.link) then { a with stay := a.stay ++ [x] } else a.pass x

/-- One cycle of the fabric switch of I/O die `io`, with the transfers `xs` from its other ports. -/
def State.switchForward (s : State) (io : Nat) (xs : List PortFlit) : State :=
  let here := s.io.inject.filter (fun x => x.link / 16 == io) ++ xs
  let timed := here.filter fun x => x.flit.timed && decide (x.at_ ≤ s.basin)
  let later := here.filter fun x => x.flit.timed && !decide (x.at_ ≤ s.basin)
  let a := (sortBy portBefore timed).foldl s.claim ⟨[], [], [], []⟩
  let a := (here.filter fun x => !x.flit.timed).foldl s.fillCycle a
  let s := { s with io := { s.io with
    inject := s.io.inject.filter (fun x => x.link / 16 != io) ++ later ++ a.stay
    out := s.io.out ++ a.passed.map OutMsg.flit } }
  a.lost.foldl (fun s x => s.dropped x.1 x.2) s

def execSwitchForward (io : Nat) (xs : List PortFlit) (s : State) : Host.Outcome State Fault Refusal :=
  if unitsOk (.switchForward io xs) then .next (s.switchForward io xs) else .fault .noSuchUnit

/-! ### Acknowledgements (R368) -/

/-- ACK_SEND: one cumulative acknowledgement of a stream's parts; a marker's may cover none. -/
def execAckSend (srcModule srcCore stream : Nat) (flush : Bool) (s : State) : Host.Outcome State Fault Refusal :=
  let n := s.unackedOf srcModule srcCore stream
  .next (if n = 0 ∧ !flush then s
    else
      let s := s.setUnacked srcModule srcCore stream 0
      if srcModule = s.moduleId then
        let r := s.route (s.partOf srcCore) (s.stream srcCore stream).route
        s.schedule (s.basin + max 1 r.lb) (.op srcCore (.ackArrival srcCore stream n))
      else s.emit (.ack srcModule srcCore stream n))

/-- OUT of a stream falls. -/
def Be.acked (b : Be) (x n : Nat) : Be :=
  let r := xfOf ((b.regs.xf[x]?).getD 0)
  { b with regs := { b.regs with xf := b.regs.xf.setIfInBounds x ({ r with out := r.out - n } : XfReg).word } }

/-- The oldest `n` stores of the copy engine are acknowledged (R324, R368). -/
def Core.storesAcked (k : Core) (n : Nat) : Core := { k with fab := { k.fab with ceStores := k.fab.ceStores.drop n } }

/-- An acknowledgement of a stream's parts, or of the copy engine's stores, which take stream number 8. -/
def Core.acked (k : Core) (x n : Nat) : Core := if x = 8 then k.storesAcked n else { k with be := k.be.acked x n }

/-- ACK_ARRIVAL: at a core of a domain that has been evicted, the saved state takes it where its stream awaits one. -/
def State.ackArrival (s : State) (c x n : Nat) : State :=
  let out (k : Core) : Nat := if x = 8 then k.fab.ceStores.length else (xfOf ((k.be.regs.xf[x]?).getD 0)).out
  let awaits (k : Nat × Core) : Bool := k.1 == c && decide (n ≤ out k.2) && decide (0 < n)
  match s.doms.find? fun e => e.2.phase == .evicted && e.2.saved.any awaits with
  | some (id, d) =>
    s.setDom id { d with saved := d.saved.map fun k => if k.1 = c then (k.1, k.2.acked x n) else k }
  | none => s.modCore c fun k => k.acked x n

def execAckArrival (core stream count : Nat) (s : State) : Host.Outcome State Fault Refusal :=
  if unitsOk (.ackArrival core stream count) then .next (s.ackArrival core stream count) else .fault .noSuchUnit

/-! ### Replies (R366, R367, R370) -/

/-- The event of a poisoned reply, the requesting launch being its consumer (R295, R370). -/
def replyEv (cause : BitVec 8) (media : Nat) : Ev :=
  { cause, subcause := 0, engine := 1, slot := 8, pc := 0, faddr := 0, tcode := 0, issue := 0, tengine := 0, duesc := 0
    body := 3, words := [BitVec.ofNat 64 (media * 2 ^ 60), 0, BitVec.ofNat 64 (7 * 2 ^ 48), 0] }

/-- A poisoned reply. The reply carries no more than the mark: SOURCE is Bylor, by which it came (DESIGN CHOICE, log
104). -/
def poisonedReply : Ev := replyEv 0x0D 3

/-- Every part of a load has come: the landing takes the data, and the load leaves the landing area. -/
def Core.replied (k : Core) (slot stream id sc : Nat) : Core :=
  let waits := k.be.landings.any fun l => l.src == some id
  let be := if waits then k.be.supply id ((sget k.fab.landing slot).getD 0) sc
    else
      let r := xfOf ((k.be.regs.xf[stream]?).getD 0)
      { k.be with regs := { k.be.regs with xf := k.be.regs.xf.setIfInBounds stream ({ r with rlds := r.rlds - 1 } : XfReg).word } }
  { k with be, fab := { k.fab with loads := k.fab.loads.filter fun l => l.1 != slot } }

/-- REPLY_ARRIVAL. Slots from 256 on are the copy engine's reads. A reply for an evicted domain is late. Poison is
consumed, and a Timed reply that comes after its landing SC is class X: neither lands (R43, R48, R273, R295). -/
def State.replyArrival (s : State) (c slot : Nat) (data : VWord) (poisoned : Bool) : State :=
  match s.lateDom c slot with
  | some (id, _) =>
    let s := s.soon (.op c (.lateReply c slot data))
    if poisoned then s.raiseDom id c poisonedReply else s
  | none =>
    match (s.core c).fab.loads.find? fun l => l.1 == slot with
    | none => s
    | some l =>
      if slot ≥ 256 then
        let s := s.modFab c fun k => { k with loads := k.loads.filter fun y => y.1 != slot }
        s.modEng c fun k => { k with ce := k.ce.supply l.2.2.1 (bytesOf data.toNat l.2.2.2) poisoned }
      else
        let sc := s.sc c
        let s := s.modFab c fun k =>
          { k with
            landing := sinsert k.landing slot ((sget k.landing slot).getD 0 ||| data)
            loads := k.loads.map fun y => if y.1 = slot then (y.1, y.2.1, y.2.2.1, y.2.2.2 - 1) else y }
        let late := s.timed c && (s.core c).be.landings.any fun y => y.src == some l.2.2.1 && decide (y.due < sc)
        if late || poisoned then
          (s.modCore c fun k =>
            { k with be := k.be.dropLanding l.2.2.1, fab := { k.fab with loads := k.fab.loads.filter fun y => y.1 != slot } }).raise
              c (if late then replyEv 0x0E 4 else poisonedReply)
        else if l.2.2.2 ≤ 1 then s.modCore c fun k => k.replied slot l.2.1 l.2.2.1 sc else s

def execReplyArrival (core slot : Nat) (data : VWord) (poisoned : Bool) (s : State) : Host.Outcome State Fault Refusal :=
  if unitsOk (.replyArrival core slot data poisoned) then .next (s.replyArrival core slot data poisoned)
  else .fault .noSuchUnit

/-! ### ELASTIC_SEND_TIMEOUT (R364) -/

/-- The head bundle's SEND has been blocked for 4,096 cycles: its step raises event 0x09 before any slot executes. -/
def execElasticSendTimeout (s : State) : Host.Outcome State Fault Refusal :=
  let c := s.cur
  .next (if s.live c && !s.timed c && decide ((s.core c).be.sendWait ≥ 4096) then s.bundleStep else s)

end Sys2Proof.Machine
end

