-- ==== Sys2Proof/Machine/Cycle.lean ====
section
/-! DEFINITION. A module cycle (R5, R17, R113, R247, R272): which turns a basin count has, in what order, and the
control core's next instruction. The agenda holds the turns left of this cycle; the calendar those of later ones (log 1). -/

namespace Sys2Proof.Machine

/-! ### The control core's instruction (R181, R183, R190) -/

/-- cal.bestart is the resume form where rs1 holds a set bit 63 (R190). -/
def State.resolve (s : State) (c : Nat) (i : Instr) : Instr :=
  match i with
  | .calBestart rs1 rs2 => if ((s.core c).cc.xr rs1).getLsbD 63 then .calBestartResume rs1 rs2 else i
  | _ => i

/-- Whether the control core of a core executes now: its domain runs, or it inspects a frozen one (R186). -/
def State.ccRuns (s : State) (c : Nat) : Bool :=
  let k := (s.core c).cc
  k.state == .running && (if k.inspect.isSome then s.frozen c else s.live c)

/-- The instruction at the pc, as its meaning takes it; or the state after a fetch that no region holds: mcause 1, event
0x04 (R183). An encoding that is no instruction is an illegal instruction (R79). -/
def State.ccFetch (s : State) (c : Nat) : Except State Instr :=
  let s := { s with cur := c }
  match (s.core c).fetchBytes with
  | none =>
    let pc := (s.core c).cc.pc.toNat
    .error (s.ccTrap 1 pc (s.ccEv 0x04 0 pc))
  | some bs =>
    match decodeCC bs with
    | .ok (i, _) => .ok (s.resolve c i)
    | .error _ => .ok (.controlCoreInstruction ⟨.illegal (BitVec.ofNat 32 (bytesVal bs)), bs.length == 2⟩)

/-! ### The calendar -/

/-- Whether a turn of the calendar is due: at a basin count, or at an SC of a running domain. -/
def State.isDue (s : State) (d : Due) : Bool :=
  match d.clock with
  | none => d.at_ ≤ s.basin
  | some id =>
    match s.dom id with
    | some m => m.phase == .running && decide (d.at_ ≤ m.sc s.basin)
    | none => false

/-- Take the due turns of one kind of clock off the calendar. -/
def State.takeDue (s : State) (timed : Bool) : State × List Turn :=
  let mine (d : Due) : Bool := d.clock.isSome == timed && s.isDue d
  ({ s with calendar := s.calendar.filter fun d => !mine d }, (s.calendar.filter mine).map (·.turn))

/-- A turn that is laid among the memory accesses or switches of its cycle, and not at its beginning (R272). -/
def lateTurn (t : Turn) : Bool :=
  match t with
  | .op _ (.flitArrival f) => match f.req with
    | some r => r.kind != 0 || !r.timed
    | none => false
  | .op _ (.switchForward _ _) => true
  | .op _ (.ethernetFrameReceive _) => true
  | .op _ (.rdmaWrite _ _ _ _) => true
  | .op _ (.rdmaRead _ _ _ _) => true
  | .op _ (.rdmaSend _ _) => true
  | .op _ (.atomicFetchAdd _ _ _ _) => true
  | .op _ (.atomicCompareSwap _ _ _ _ _) => true
  | _ => false

/-- The turns with which a cycle begins: those due at its basin count, then the freezes whose SC has come (R37). -/
def State.freezeTurns (s : State) : List Turn :=
  (s.doms.filter fun e => match e.2.phase, e.2.fpt with
    | .running, some f => decide (f ≤ e.2.sc s.basin)
    | _, _ => false).map fun e => .op 0 (.freeze e.1)

/-- The next basin count (R389), or first the hold cycles that follow this one (R391). The state table follows what the
cycle has changed (R354). -/
def State.nextCycle (s : State) : State :=
  if s.drift.reqs.any fun r => decide (r.b ≤ s.basin) then { s with agenda := [.op s.cur .holdCycles] }
  else
    let s := { s.tableSync with basin := s.basin + 1 }
    let (s, due) := s.takeDue false
    { s with agenda := due.filter (fun t => !lateTurn t) ++ s.freezeTurns ++ [.plan] ++ due.filter lateTurn }

/-! ### The turns of a cycle -/

/-- Whether the clock of island `n` ticks at this basin count: 4, 3, 2 or 1 of every four cycles, or none (R397, R398). -/
def State.islandTicks (s : State) (n : Nat) : Bool :=
  let k := 4 - s.islandFreq n
  k * (s.basin + 1) / 4 != k * s.basin / 4

/-- Whether a core's clock ticks: Elastic work runs at the clock of the core's island; a Timed domain's islands have the
full one (R32, R398; log 112). -/
def State.coreTicks (s : State) (c : Nat) : Bool := s.timed c || s.islandTicks (30 * dieOf c + c / 32 % 16)

/-- The cores that take part in a cycle. -/
def State.coreNos (s : State) : List Nat := (s.cores.map (·.1)).filter s.live

/-- A turn for each core that meets a condition. -/
def State.each (s : State) (p : Core → Nat → Bool) (i : Instr) : List Turn :=
  (s.coreNos.filter fun c => p (s.core c) (s.sc c)).map fun c => .op c i

/-- The sequencers that a core's queues may start on now: its own engines', and in Timed those that its shared entries
name. -/
def State.startSeqs (s : State) (c : Nat) : List Seqr :=
  let k := (s.core c).eng
  let own := [(Eng.mx, k.mxq), (Eng.px, k.pxq), (Eng.ce, k.ceq)].filterMap fun x =>
    if x.2.isEmpty then none else some (⟨x.1, 0, 0⟩ : Seqr)
  let shared (e : Eng) (q : List QEntry) : List Seqr :=
    if s.timed c then
      (q.filter fun x => x.start.toNat == s.sc c).map fun x => ⟨e, s.seqUnit c x.form x.block x.rng, x.seqr⟩
    else []
  own ++ shared .cx k.cxq ++ shared .weir k.weirq

/-- The Elastic queue heads of a shared engine that may start now, in the order of their arrival at it and then by core
(R21). -/
def State.readyHeads (s : State) (cs : List Nat) (e : Eng) : List (Nat × QEntry) :=
  sortBy (fun (a b : Nat × QEntry) => decide (a.2.headAt < b.2.headAt) || (a.2.headAt == b.2.headAt && decide (a.1 < b.1)))
    (cs.filterMap fun c =>
      if s.timed c then none
      else match ((s.core c).eng.queue e).head? with
        | some x => if decide (x.start.toNat ≤ s.sc c) && !s.hazard c e x.issue then some (c, x) else none
        | none => none)

/-- A shared engine's free sequencers go to its heads in turn, each to the first that the head's core may hold (R21,
R312). -/
def State.sharedStarts (s : State) (cs : List Nat) (e : Eng) (n : Nat) : List (Nat × Seqr) :=
  (s.readyHeads cs e).foldl
    (fun given k =>
      let unit := s.seqUnit k.1 k.2.form k.2.block k.2.rng
      let free (i : Nat) : Bool :=
        let x := s.seq k.1 ⟨e, unit, i⟩
        x.active.isEmpty && x.prog.state == 0 && !(e == .weir && s.holdsIndex k.1 i) && !given.any fun g => g.2 == ⟨e, unit, i⟩
      match (List.range n).find? free with
      | some i => given ++ [(k.1, ⟨e, unit, i⟩)]
      | none => given) []

/-- The sequencers that hold an entry, each with its core. -/
def State.heldSeqs (s : State) : List (Nat × Seqr) :=
  (s.coreNos.flatMap fun c =>
    let k := (s.core c).eng
    [(Eng.mx, k.mx), (Eng.px, k.px), (Eng.ce, k.ce)].filterMap fun x =>
      if x.2.active.isEmpty then none else some (c, (⟨x.1, 0, 0⟩ : Seqr))) ++
    s.seqs.filterMap fun e => if e.2.active.isEmpty then none else some (e.2.core, seqrOfKey e.1)

/-- The turns in which a sequencer's steps start and sample, and those in which they commit (R232, R325, R334, R337). -/
def seqSteps (x : Nat × Seqr) : List Turn :=
  match x.2.eng with
  | .mx => [.op x.1 (.tileStepStart .mx), .op x.1 (.tileStepCommit .mx)]
  | .px => [.op x.1 (.tileStepStart .px), .op x.1 (.tileStepCommit .px)]
  | .cx => [.op x.1 (.cxReceiveStep x.2), .op x.1 (.cxSendStep x.2)]
  | _ => [.op x.1 (.chunkCommit x.2)]

/-- What a bundle engine does in a cycle: a micro-step, a trap, or a step (R113, R127, R157, R364). -/
def beTurn (c : Nat) (b : Be) (sc : Nat) (timed : Bool) : List Turn :=
  match b.state with
  | .running => if !timed && b.sendWait ≥ 4096 then [.op c .elasticSendTimeout] else [.op c .bundleStep]
  | .awaiting t => if t ≤ sc then [.op c .bundleStep] else []
  | .micro _ => [.op c .p5MicroStep]
  | .trapping => [.op c .beTrap]
  | _ => []

/-- The slices with a request that is due. -/
def State.dueSlices (s : State) : List (Nat × Nat) :=
  ((s.mem.reqs.filter s.reqDue).map fun r =>
    let h := s.home r.part r.ia
    (h.1, sliceOf h.2)).eraseDups

def sliceTurns (xs : List (Nat × Nat)) (phase : Nat) (below : Nat := 0) : List Turn :=
  xs.map fun x => .slice x.1 x.2 phase below

/-- The switch turns of a cycle: the transfers that came from other ports join their I/O die's own. -/
def switchTurns (late : List Turn) : List Turn :=
  (List.range 2).map fun io => .op 0 (.switchForward io (late.flatMap fun t => match t with
    | .op _ (.switchForward n xs) => if n = io then xs else []
    | _ => []))

/-- What a control core does in a cycle: an interrupt, the end of a wait, its launch's finish, or one instruction. -/
def State.ccTurns (s : State) (c : Nat) : List Turn :=
  let k := s.core c
  if !k.interrupts.isEmpty then [.op c .ccInterruptEntry]
  else if s.waitOver c then [.op c .ccWaitEnd]
  else if k.cc.state == .ending then [.op c .coreFinished]
  else [.cc c]

/-- Whether an instruction comes late in its cycle: it writes at a home slice, or it is a write to the state of a
stochastic-rounding generator, which takes place after a draw of the same cycle (R177). -/
def lateInstr (i : Instr) : Bool :=
  match i with
  | .ccLoadStore m => match m.op with
    | .amo .. => true
    | _ => false
  | .controlCoreInstruction m => match m.op with
    | .csr _ _ _ _ n => decide (0x802 ≤ n.toNat ∧ n.toNat ≤ 0x806)
    | _ => false
  | .sc .. => true
  | .calRel .. => true
  | .calWaitRng .. => true
  | _ => false

/-- The dirty line that an LR reads. -/
def State.lrLine (s : State) (c : Nat) (i : Instr) : Option Nat :=
  match i with
  | .lr _ rs1 sz =>
    let s := { s with cur := c }
    match s.ccPlace ((s.core c).cc.xr rs1).toNat (2 ^ sz.toNat) true false false with
    | .ok (.mem ia) => if (s.l1Line c (ia / 128)).dirty = 0 then none else some (ia / 128)
    | _ => none
  | _ => none

/-- A control core's turns in a cycle, with whether they come among the writes at the home slices (R271, R272). An LR whose
line is dirty has it written back first, and reads in the next cycle. -/
def State.ccPlaced (s : State) (c : Nat) : Bool × List Turn :=
  match s.ccTurns c with
  | [.cc _] =>
    if s.ccRuns c then
      match s.ccFetch c with
      | .error _ => (false, [.cc c])
      | .ok i =>
        match s.lrLine c i with
        | some l => (true, [.op c (.firstLevelEviction l)])
        | none => (lateInstr i, [.cc c])
    else (false, [])
  | ts => (false, ts)

/-- The cores of frozen domains that inspect (R186). -/
def State.inspectors (s : State) : List Nat :=
  (s.cores.filter fun e => e.2.cc.inspect.isSome && s.frozen e.1).map (·.1)

/-- Audits under way (R308, R309). -/
def State.auditTurns (s : State) : List Turn :=
  ((List.range 8).filter fun die => s.cores.any (fun e => dieOf e.1 == die && e.2.staging.isSome) ||
    (sget s.audit die).any fun d => !d.images.isEmpty).map fun die => .op 0 (.auditRecomputation die)

/-- The commands in execution whose conditions hold or whose watchdogs are due. -/
def State.commandTurns (s : State) (q : Nat) (c : Cmd) : List Turn :=
  let idx := c.idx.toNat
  (if c.opcode == 3 && s.barrierMet c then [.op 0 (.barrierCompletion q idx)] else []) ++
    (if c.opcode == 5 && s.fenceMet q idx then [.op 0 (.fenceCompletion q idx)] else []) ++
    (if s.watch1Due q c then [.op 0 (.watchdogStage1 q idx)] else []) ++
    (if s.watch2Due q c then [.op 0 (.watchdogStage2 q idx)] else [])

/-- The front ends' and firmware's turns (R343 to R352). -/
def State.hostTurns (s : State) : List Turn :=
  let mapped := s.io.slots.filterMap fun e => e.2.queue.map fun q => (e.1, q, e.2)
  let fes := (mapped.map fun e => e.1 / 64).eraseDups
  let parts := (List.range 4).filter fun p => bitOf (s.partWord p 0) 63
  (if s.takeoverDue then [.op 0 .headwaterTakeover] else []) ++
    (parts.filter fun p => !(s.part p).pending.isEmpty).map (fun p => .op 0 (.queueMapping p)) ++
    (fes.filter fun fe => (sget s.io.disps fe).isNone && (s.dispatchSlot fe).isSome).map (fun fe => .op 0 (.dispatch fe)) ++
    (parts.filter fun p =>
      let q := bitsOf (s.partWord p 0) 4 10 * cyclesPerUs
      q != 0 && s.basin % q == 0).map (fun p => .op 0 (.ageingQuantum p)) ++
    mapped.flatMap (fun e =>
      (if s.tidleDue e.2.1 then [.op 0 (.tidleExpiry e.2.1)] else []) ++
        (if s.tholdDue e.2.1 then [.op 0 (.tholdExpiry e.2.1)] else []) ++ e.2.2.execs.flatMap (s.commandTurns e.2.1)) ++
    (s.doms.flatMap fun e =>
      (if s.retireReady e.1 e.2 then [.op 0 (.launchRetirement e.1)] else []) ++
        (if s.watch3Due e.2 then [.op 0 (.watchdogStage3 e.1)] else [])) ++
    s.io.qps.flatMap fun e => match e.2.lastCnpRecv with
      | some t => if t + microseconds 55 ≤ s.basin then [.op 0 (.rateIncrease e.1)] else []
      | none => []

/-- Whether a turn of the fabric or the port reads memory, and whether it is a Timed access. -/
def readTurn (t : Turn) : Bool :=
  match t with
  | .op _ (.flitArrival f) => match f.req with
    | some r => r.kind == 0
    | none => false
  | .op _ (.rdmaRead _ _ _ _) => true
  | _ => false

def timedTurn (t : Turn) : Bool :=
  match t with
  | .op _ (.flitArrival f) => f.timed
  | _ => false

/-- The Elastic requests of a cycle at the slices, with the control cores' writes in their places by core number, and then
those of other agents (R272). -/
def elasticTurns (xs : List (Nat × Nat)) (ccs : List (Nat × List Turn)) : List Turn :=
  (sortBy (fun (a b : Nat × List Turn) => decide (a.1 < b.1)) ccs).flatMap (fun k => sliceTurns xs 2 k.1 ++ k.2) ++
    sliceTurns xs 3

/-- The turns of a cycle, in order; `late` holds the remote accesses and switch inputs that are due. Reads sample before
writes perform, in the scratchpads and at the home slices (R247, R271, R272). A control core's instruction comes before the
bundle engine's step, whose accesses take the range registers that it writes (R193). -/
def State.cycleTurns (s : State) (late : List Turn) : List Turn :=
  let cs := s.coreNos
  let remote := late.filter fun t => match t with
    | .op _ (.switchForward _ _) => false
    | _ => true
  let run := cs.filter s.coreTicks
  let starts := (run.flatMap fun c => (s.startSeqs c).map fun q => (c, q)) ++ s.sharedStarts run .cx 16 ++ s.sharedStarts run .weir 8
  let held := (s.heldSeqs ++ starts).eraseDups
  let xs := s.dueSlices
  let ccs := (run ++ s.inspectors).map fun c => (c, s.ccPlaced c)
  s.each (fun k sc => k.be.landings.any fun l => l.isDue sc) .registerLanding ++
    starts.map (fun x => .op x.1 (.macroStart x.2)) ++
    ccs.flatMap (fun k => if k.2.1 then [] else k.2.2) ++
    run.flatMap (fun c => beTurn c (s.core c).be (s.sc c) (s.timed c)) ++
    s.each (fun k sc => k.be.accesses.any fun a => a.isLoad && decide (a.due ≤ sc)) .scratchpadAccess ++
    sliceTurns xs 0 ++ remote.filter readTurn ++ held.flatMap seqSteps ++
    s.each (fun k _ => k.eng.mx.refetchAt.isSome || k.eng.px.refetchAt.isSome || k.eng.redo.isSome) .ceRefetch ++
    s.each (fun _ _ => true) .scratchpadAccess ++
    sliceTurns xs 1 ++ remote.filter (fun t => !readTurn t && timedTurn t) ++
    elasticTurns xs (ccs.filterMap fun k => if k.2.1 then some (k.1, k.2.2) else none) ++
    remote.filter (fun t => !readTurn t && !timedTurn t) ++ switchTurns late ++
    held.flatMap (fun x => [.op x.1 (.macroStop x.2), .op x.1 (.entryComplete x.2)]) ++ s.auditTurns ++ s.hostTurns

/-- A slot's readiness time, and the watchdog counters of its oldest watched command (R347, R352, R392). -/
def State.refreshSlot (s : State) (n : Nat) (x : HwSlot) : HwSlot :=
  let readyAt := if s.slotReady n then some (x.readyAt.getD s.basin) else none
  match x.execs.find? fun c => decide (1 ≤ c.opcode) && decide (c.opcode ≤ 3) with
  | none => { x with readyAt, wdc1 := 0, wdc2 := 0, wdc3 := 0 }
  | some c =>
    let d := c.dom.bind s.dom
    { x with
      readyAt
      wdc1 := BitVec.ofNat 32 ((d.map fun d => d.sc s.basin / watchUnit).getD 0)
      wdc2 := BitVec.ofNat 32 ((s.basin - c.at_) / watchUnit)
      wdc3 := BitVec.ofNat 32 (((d.bind (·.killAt)).map fun t => (s.basin - t) / watchUnit).getD 0) }

/-- The reads that have sampled and whose delivery is still to come: those of a domain that stands still too (R202,
R238). -/
def State.undelivered (s : State) : List LongReq :=
  s.mem.sampled.filter fun r =>
    match r.dom.bind s.dom with
    | some d => decide (d.sc s.basin < r.due + 512)
    | none => decide (s.basin < r.due + 512)

/-- Lay out the cycle: the turns due at an SC first, then the cycle's own. -/
def State.layOut (s : State) : State :=
  let late := s.agenda
  let s := { s with agenda := [] }
  let (s, due) := s.takeDue true
  let s := (s.cores.map (·.1)).foldl (fun s c => if s.live c then s.count c 0 1 else s) s
  let s := { s with mem := { s.mem with sampled := s.undelivered } }
  let s := { s with io := { s.io with slots := s.io.slots.map fun (e : Nat × HwSlot) => (e.1, s.refreshSlot e.1 e.2) } }
  { s with agenda := due ++ s.cycleTurns late }

end Sys2Proof.Machine
end

