-- ==== Sys2Proof/Machine/Tables.lean ====
section
/-! DEFINITION. What Headwater writes into the tables (R339, R374, R377, R379, R382, R385) and into a core's monitor
region (R251). -/

namespace Sys2Proof.Machine

/-- Raw bytes of stack memory, as firmware writes page tables. Each sector's check word follows its data. -/
def State.rawWrite (s : State) (stack pa : Nat) (bs : List Byte) : State :=
  { s with mem := { s.mem with hbm := writeBytes s.mem.hbm (stack * 2 ^ 36 + pa) bs } }

/-- The descriptor of a monitor region: V, KIND and MON set, with its base (R251). -/
def monitorDesc (base : BitVec 32) : Word := 0xE000000000000000 ||| base.setWidth 64

/-- HEADWATER_TABLE_WRITE. -/
def State.writeTable (s : State) (w : TableWrite) : State :=
  match w with
  | .queueRecord q words =>
    let r : QRec := ⟨Vector.ofFn fun (i : Fin 8) => words.getD i.val 0⟩
    if r.state = 2 then (s.disableQueue q r).tableWrite else (s.setQueueRec q r).tableWrite
  | .timetableSlot p i v => (s.iaStore p (s.partWord p 3 % 2 ^ 50 + 8 * i) (bytesOf v.toNat 8)).1
  | .memory p ia bytes => (s.iaStore p ia bytes).1
  | .pageEntry stack pa v => s.rawWrite stack pa (bytesOf v.toNat 8)
  | .route p i w0 w1 =>
    (s.iaStore p (s.partWord p 5 % 2 ^ 50 + 16 * i) (bytesOf w0.toNat 8 ++ bytesOf w1.toNat 8)).1
  | .region i valid key part base len rd wr at_ doorbells =>
    { s with io := { s.io with regions := sinsert s.io.regions i { valid, key, part, base, len, rd, wr, at_, doorbells } } }
  | .shadowFrame p stack frame => s.modPart p fun t => { t with shadow := t.shadow ++ [(stack, frame)] }
  | .walkStore stack ofs bytes =>
    { s with mem := { s.mem with walkStore := writeBytes s.mem.walkStore (stack * 32768 + ofs) bytes } }
  | .monitor c ofs bytes => s.modEng c fun k => { k with ispad := writeBytes k.ispad (14 * 0x2000 + ofs) bytes }
  | .monitorRegion c r base => s.modEng c fun k => { k with regions := k.regions.setIfInBounds r (monitorDesc base) }
  | .imageErrata c e => s.modCore c fun k => { k with errata := e }
  | .recvBuffer qp part ia len =>
    let q := (sget s.io.qps qp).getD ⟨false, part, 0, 0, [], none, none⟩
    { s with io := { s.io with qps := sinsert s.io.qps qp { q with bufs := q.bufs ++ [(ia, len)] } } }
  | .queuePair qp part retry =>
    { s with io := { s.io with qps := sinsert s.io.qps qp ⟨true, part, 800000, retry, [], none, none⟩ } }

/-- The core, region and offsets of a table write exist (R9, R251, R374, R379). -/
def tableWriteOk : TableWrite → Bool
  | .queueRecord q words => q < 131072 && words.length == 8
  | .timetableSlot p i _ => p < 4 && i < 4096
  | .memory p _ _ => p < 4
  | .pageEntry st pa _ => st < 8 && pa % 8 == 0 && decide (pa < 2 ^ 36)
  | .route p i _ _ => p < 4 && i < 4096
  | .region i _ _ p _ _ _ _ _ _ => i < 65536 && p < 4
  | .shadowFrame p st f => p < 4 && st < 8 && decide (f < 2 ^ 20)
  | .walkStore st ofs bs => st < 8 && decide (ofs + bs.length ≤ 32768)
  | .monitor c ofs bs => c < 4096 && decide (ofs + bs.length ≤ 0x4000)
  | .monitorRegion c r _ => c < 4096 && (r == 14 || r == 15)
  | .imageErrata c _ => c < 4096
  | .recvBuffer q p _ _ => q < 32768 && p < 4
  | .queuePair q p r => q < 32768 && p < 4 && r ≤ 7

def execHeadwaterTableWrite (w : TableWrite) (s : State) : Host.Outcome State Fault Refusal :=
  if tableWriteOk w then .next (s.writeTable w) else .fault .noSuchUnit

end Sys2Proof.Machine
end

