-- ==== Sys2Proof/Machine/Dispatch.lean ====
section
/-! DEFINITION. The dispatch of every instruction and event of the opcode table to its meaning, in the table's order. -/

namespace Sys2Proof.Machine

/-- The effect of one instruction or event, one arm for each row of the opcode table. -/
def exec (i : Instr) (s : State) : Host.Outcome State Fault Refusal :=
  match i with
  | .moduleReset => Sys2Proof.Machine.execModuleReset s
  | .functionReady f => Sys2Proof.Machine.execFunctionReady f s
  | .readyBitFall f => Sys2Proof.Machine.execReadyBitFall f s
  | .linkLatencyLoss link => Sys2Proof.Machine.execLinkLatencyLoss link s
  | .driftLock ref => Sys2Proof.Machine.execDriftLock ref s
  | .lockLoss pherr => Sys2Proof.Machine.execLockLoss pherr s
  | .holdCycles => Sys2Proof.Machine.execHoldCycles s
  | .drreq v => Sys2Proof.Machine.execDrreq v s
  | .dataDoorbell q rkey v => Sys2Proof.Machine.execDataDoorbell q rkey v s
  | .controlDoorbell q rkey v => Sys2Proof.Machine.execControlDoorbell q rkey v s
  | .queueMapping part => Sys2Proof.Machine.execQueueMapping part s
  | .dispatch fe => Sys2Proof.Machine.execDispatch fe s
  | .ageingQuantum part => Sys2Proof.Machine.execAgeingQuantum part s
  | .launch fe => Sys2Proof.Machine.execLaunch fe s
  | .copy fe => Sys2Proof.Machine.execCopy fe s
  | .barrier fe => Sys2Proof.Machine.execBarrier fe s
  | .signal fe => Sys2Proof.Machine.execSignal fe s
  | .fence fe => Sys2Proof.Machine.execFence fe s
  | .barrierCompletion q idx => Sys2Proof.Machine.execBarrierCompletion q idx s
  | .copyCompletion q idx => Sys2Proof.Machine.execCopyCompletion q idx s
  | .fenceCompletion q idx => Sys2Proof.Machine.execFenceCompletion q idx s
  | .domainStart dom => Sys2Proof.Machine.execDomainStart dom s
  | .ccEntryStart dom gang => Sys2Proof.Machine.execCcEntryStart dom gang s
  | .coreFinished => Sys2Proof.Machine.execCoreFinished s
  | .launchRetirement dom => Sys2Proof.Machine.execLaunchRetirement dom s
  | .tidleExpiry q => Sys2Proof.Machine.execTidleExpiry q s
  | .tholdExpiry q => Sys2Proof.Machine.execTholdExpiry q s
  | .watchdogStage1 q idx => Sys2Proof.Machine.execWatchdogStage1 q idx s
  | .watchdogStage2 q idx => Sys2Proof.Machine.execWatchdogStage2 q idx s
  | .watchdogStage3 dom => Sys2Proof.Machine.execWatchdogStage3 dom s
  | .faultQueueConsume part n => Sys2Proof.Machine.execFaultQueueConsume part n s
  | .preemptionRequest dom => Sys2Proof.Machine.execPreemptionRequest dom s
  | .freeze dom => Sys2Proof.Machine.execFreeze dom s
  | .resumeOrder dom => Sys2Proof.Machine.execResumeOrder dom s
  | .resume dom => Sys2Proof.Machine.execResume dom s
  | .eviction dom ia => Sys2Proof.Machine.execEviction dom ia s
  | .restore dom => Sys2Proof.Machine.execRestore dom s
  | .lateReply core slot data => Sys2Proof.Machine.execLateReply core slot data s
  | .kill dom status => Sys2Proof.Machine.execKill dom status s
  | .launchReplay dom => Sys2Proof.Machine.execLaunchReplay dom s
  | .basinAbortNotice n => Sys2Proof.Machine.execBasinAbortNotice n s
  | .basinReplayDispatch dom => Sys2Proof.Machine.execBasinReplayDispatch dom s
  | .bundleStep => Sys2Proof.Machine.execBundleStep s
  | .registerLanding => Sys2Proof.Machine.execRegisterLanding s
  | .scratchpadAccess => Sys2Proof.Machine.execScratchpadAccess s
  | .p5MicroStep => Sys2Proof.Machine.execP5MicroStep s
  | .beTrap => Sys2Proof.Machine.execBeTrap s
  | .ccInterruptEntry => Sys2Proof.Machine.execCcInterruptEntry s
  | .ccWaitEnd => Sys2Proof.Machine.execCcWaitEnd s
  | .homeSliceCycle die slice => Sys2Proof.Machine.execHomeSliceCycle die slice s
  | .firstLevelEviction line => Sys2Proof.Machine.execFirstLevelEviction line s
  | .pageWalk id => Sys2Proof.Machine.execPageWalk id s
  | .walkLate id => Sys2Proof.Machine.execWalkLate id s
  | .shootDown stack part lo hi => Sys2Proof.Machine.execShootDown stack part lo hi s
  | .shadowCopy binding sector => Sys2Proof.Machine.execShadowCopy binding sector s
  | .patrolScrub stack sector => Sys2Proof.Machine.execPatrolScrub stack sector s
  | .macroStart q => Sys2Proof.Machine.execMacroStart q s
  | .tileStepStart e => Sys2Proof.Machine.execTileStepStart e s
  | .tileStepCommit e => Sys2Proof.Machine.execTileStepCommit e s
  | .chunkCommit q => Sys2Proof.Machine.execChunkCommit q s
  | .cxSendStep q => Sys2Proof.Machine.execCxSendStep q s
  | .cxReceiveStep q => Sys2Proof.Machine.execCxReceiveStep q s
  | .entryComplete q => Sys2Proof.Machine.execEntryComplete q s
  | .macroStop q => Sys2Proof.Machine.execMacroStop q s
  | .entryReissue q => Sys2Proof.Machine.execEntryReissue q s
  | .entryFlush q => Sys2Proof.Machine.execEntryFlush q s
  | .ceRefetch => Sys2Proof.Machine.execCeRefetch s
  | .auditRecomputation die => Sys2Proof.Machine.execAuditRecomputation die s
  | .flitArrival f => Sys2Proof.Machine.execFlitArrival f s
  | .switchForward io xs => Sys2Proof.Machine.execSwitchForward io xs s
  | .ackSend srcModule srcCore stream flush => Sys2Proof.Machine.execAckSend srcModule srcCore stream flush s
  | .ackArrival core stream count => Sys2Proof.Machine.execAckArrival core stream count s
  | .replyArrival core slot data poisoned => Sys2Proof.Machine.execReplyArrival core slot data poisoned s
  | .elasticSendTimeout => Sys2Proof.Machine.execElasticSendTimeout s
  | .ethernetFrameReceive f => Sys2Proof.Machine.execEthernetFrameReceive f s
  | .rdmaWrite qp rkey addr data => Sys2Proof.Machine.execRdmaWrite qp rkey addr data s
  | .rdmaRead qp rkey addr len => Sys2Proof.Machine.execRdmaRead qp rkey addr len s
  | .rdmaSend qp data => Sys2Proof.Machine.execRdmaSend qp data s
  | .atomicFetchAdd qp rkey addr x => Sys2Proof.Machine.execAtomicFetchAdd qp rkey addr x s
  | .atomicCompareSwap qp rkey addr cmp x => Sys2Proof.Machine.execAtomicCompareSwap qp rkey addr cmp x s
  | .cnpReceive qp => Sys2Proof.Machine.execCnpReceive qp s
  | .rateIncrease qp => Sys2Proof.Machine.execRateIncrease qp s
  | .ackTimeout qp => Sys2Proof.Machine.execAckTimeout qp s
  | .headwaterTakeover => Sys2Proof.Machine.execHeadwaterTakeover s
  | .liveUpdate format => Sys2Proof.Machine.execLiveUpdate format s
  | .merge qmask => Sys2Proof.Machine.execMerge qmask s
  | .split qmask => Sys2Proof.Machine.execSplit qmask s
  | .frequencyRequest isl freq => Sys2Proof.Machine.execFrequencyRequest isl freq s
  | .beirq => Sys2Proof.Machine.execBeirq s
  | .registerWrite r v => Sys2Proof.Machine.execRegisterWrite r v s
  | .ccLoadStore m => Sys2Proof.Machine.execCcLoadStore m s
  | .lr rd rs1 sz => Sys2Proof.Machine.execLr rd rs1 sz s
  | .sc rd rs1 rs2 sz => Sys2Proof.Machine.execSc rd rs1 rs2 sz s
  | .ccFence => Sys2Proof.Machine.execCcFence s
  | .fenceI => Sys2Proof.Machine.execFenceI s
  | .wfi => Sys2Proof.Machine.execWfi s
  | .mret => Sys2Proof.Machine.execMret s
  | .ecall => Sys2Proof.Machine.execEcall s
  | .mmat o => Sys2Proof.Machine.execMmat o s
  | .mconv o => Sys2Proof.Machine.execMconv o s
  | .mattn o => Sys2Proof.Machine.execMattn o s
  | .msort o => Sys2Proof.Machine.execMsort o s
  | .mgath o => Sys2Proof.Machine.execMgath o s
  | .mscat o => Sys2Proof.Machine.execMscat o s
  | .mcopy o => Sys2Proof.Machine.execMcopy o s
  | .mfill o => Sys2Proof.Machine.execMfill o s
  | .movly o => Sys2Proof.Machine.execMovly o s
  | .msel o => Sys2Proof.Machine.execMsel o s
  | .mtopk o => Sys2Proof.Machine.execMtopk o s
  | .mcoll o => Sys2Proof.Machine.execMcoll o s
  | .calBestart rs1 rs2 => Sys2Proof.Machine.execCalBestart rs1 rs2 s
  | .calBestartResume rs1 rs2 => Sys2Proof.Machine.execCalBestartResume rs1 rs2 s
  | .calWaitEng e rs1 => Sys2Proof.Machine.execCalWaitEng e rs1 s
  | .calWaitRng rs1 rs2 => Sys2Proof.Machine.execCalWaitRng rs1 rs2 s
  | .calWaitSc rs1 => Sys2Proof.Machine.execCalWaitSc rs1 s
  | .calPrgrd e rd rs1 => Sys2Proof.Machine.execCalPrgrd e rd rs1 s
  | .calPrgwr e rs1 rs2 => Sys2Proof.Machine.execCalPrgwr e rs1 rs2 s
  | .calRngwr n rs1 rs2 => Sys2Proof.Machine.execCalRngwr n rs1 rs2 s
  | .calRel scope => Sys2Proof.Machine.execCalRel scope s
  | .calAcq scope => Sys2Proof.Machine.execCalAcq scope s
  | .calOvly o => Sys2Proof.Machine.execCalOvly o s
  | .calDrift rs1 rs2 => Sys2Proof.Machine.execCalDrift rs1 rs2 s
  | .nop sl g => Sys2Proof.Machine.execNop sl g s
  | .add f => Sys2Proof.Machine.execAdd f s
  | .sub f => Sys2Proof.Machine.execSub f s
  | .and f => Sys2Proof.Machine.execAnd f s
  | .or f => Sys2Proof.Machine.execOr f s
  | .xor f => Sys2Proof.Machine.execXor f s
  | .sll f => Sys2Proof.Machine.execSll f s
  | .srl f => Sys2Proof.Machine.execSrl f s
  | .sra f => Sys2Proof.Machine.execSra f s
  | .slt f => Sys2Proof.Machine.execSlt f s
  | .sltu f => Sys2Proof.Machine.execSltu f s
  | .min f => Sys2Proof.Machine.execMin f s
  | .max f => Sys2Proof.Machine.execMax f s
  | .minu f => Sys2Proof.Machine.execMinu f s
  | .maxu f => Sys2Proof.Machine.execMaxu f s
  | .mul f => Sys2Proof.Machine.execMul f s
  | .mulh f => Sys2Proof.Machine.execMulh f s
  | .mulhu f => Sys2Proof.Machine.execMulhu f s
  | .div f => Sys2Proof.Machine.execDiv f s
  | .divu f => Sys2Proof.Machine.execDivu f s
  | .rem f => Sys2Proof.Machine.execRem f s
  | .remu f => Sys2Proof.Machine.execRemu f s
  | .clz f => Sys2Proof.Machine.execClz f s
  | .ctz f => Sys2Proof.Machine.execCtz f s
  | .popc f => Sys2Proof.Machine.execPopc f s
  | .bext f => Sys2Proof.Machine.execBext f s
  | .bins f => Sys2Proof.Machine.execBins f s
  | .addi f => Sys2Proof.Machine.execAddi f s
  | .andi f => Sys2Proof.Machine.execAndi f s
  | .ori f => Sys2Proof.Machine.execOri f s
  | .xori f => Sys2Proof.Machine.execXori f s
  | .slli f => Sys2Proof.Machine.execSlli f s
  | .srli f => Sys2Proof.Machine.execSrli f s
  | .srai f => Sys2Proof.Machine.execSrai f s
  | .slti f => Sys2Proof.Machine.execSlti f s
  | .lil f => Sys2Proof.Machine.execLil f s
  | .lih f => Sys2Proof.Machine.execLih f s
  | .lit f => Sys2Proof.Machine.execLit f s
  | .cpx f => Sys2Proof.Machine.execCpx f s
  | .stwr f => Sys2Proof.Machine.execStwr f s
  | .br f => Sys2Proof.Machine.execBr f s
  | .call f => Sys2Proof.Machine.execCall f s
  | .bri f => Sys2Proof.Machine.execBri f s
  | .calli f => Sys2Proof.Machine.execCalli f s
  | .ret g => Sys2Proof.Machine.execRet g s
  | .halt g => Sys2Proof.Machine.execHalt g s
  | .trap g code => Sys2Proof.Machine.execTrap g code s
  | .loop f => Sys2Proof.Machine.execLoop f s
  | .loopr f => Sys2Proof.Machine.execLoopr f s
  | .lstri f => Sys2Proof.Machine.execLstri f s
  | .lstr f => Sys2Proof.Machine.execLstr f s
  | .vadd f => Sys2Proof.Machine.execVadd f s
  | .vsub f => Sys2Proof.Machine.execVsub f s
  | .vmul f => Sys2Proof.Machine.execVmul f s
  | .vfma f => Sys2Proof.Machine.execVfma f s
  | .vfms f => Sys2Proof.Machine.execVfms f s
  | .vfnma f => Sys2Proof.Machine.execVfnma f s
  | .vmin f => Sys2Proof.Machine.execVmin f s
  | .vmax f => Sys2Proof.Machine.execVmax f s
  | .vclamp f => Sys2Proof.Machine.execVclamp f s
  | .vabs f => Sys2Proof.Machine.execVabs f s
  | .vneg f => Sys2Proof.Machine.execVneg f s
  | .vand f => Sys2Proof.Machine.execVand f s
  | .vor f => Sys2Proof.Machine.execVor f s
  | .vxor f => Sys2Proof.Machine.execVxor f s
  | .vandn f => Sys2Proof.Machine.execVandn f s
  | .vsll f => Sys2Proof.Machine.execVsll f s
  | .vsrl f => Sys2Proof.Machine.execVsrl f s
  | .vsra f => Sys2Proof.Machine.execVsra f s
  | .vadds f => Sys2Proof.Machine.execVadds f s
  | .vsubs f => Sys2Proof.Machine.execVsubs f s
  | .vcmp f => Sys2Proof.Machine.execVcmp f s
  | .vsel f => Sys2Proof.Machine.execVsel f s
  | .vperm f => Sys2Proof.Machine.execVperm f s
  | .vshfl f => Sys2Proof.Machine.execVshfl f s
  | .vred f => Sys2Proof.Machine.execVred f s
  | .vscan f => Sys2Proof.Machine.execVscan f s
  | .vdot f => Sys2Proof.Machine.execVdot f s
  | .vcvt f => Sys2Proof.Machine.execVcvt f s
  | .vins f => Sys2Proof.Machine.execVins f s
  | .vext f => Sys2Proof.Machine.execVext f s
  | .vbcst f => Sys2Proof.Machine.execVbcst f s
  | .vcpx f => Sys2Proof.Machine.execVcpx f s
  | .p5dot4 f => Sys2Proof.Machine.execP5dot4 f s
  | .p5hmul f => Sys2Proof.Machine.execP5hmul f s
  | .exp2 f => Sys2Proof.Machine.execExp2 f s
  | .log2 f => Sys2Proof.Machine.execLog2 f s
  | .rcp f => Sys2Proof.Machine.execRcp f s
  | .rsqrt f => Sys2Proof.Machine.execRsqrt f s
  | .sqrt f => Sys2Proof.Machine.execSqrt f s
  | .tanh f => Sys2Proof.Machine.execTanh f s
  | .sigmoid f => Sys2Proof.Machine.execSigmoid f s
  | .erf f => Sys2Proof.Machine.execErf f s
  | .sinpi f => Sys2Proof.Machine.execSinpi f s
  | .cospi f => Sys2Proof.Machine.execCospi f s
  | .lds f => Sys2Proof.Machine.execLds f s
  | .sts f => Sys2Proof.Machine.execSts f s
  | .lda f => Sys2Proof.Machine.execLda f s
  | .sta f => Sys2Proof.Machine.execSta f s
  | .ldl f => Sys2Proof.Machine.execLdl f s
  | .stl f => Sys2Proof.Machine.execStl f s
  | .sld f => Sys2Proof.Machine.execSld f s
  | .ldt f => Sys2Proof.Machine.execLdt f s
  | .stag f => Sys2Proof.Machine.execStag f s
  | .amo f => Sys2Proof.Machine.execAmo f s
  | .rel f => Sys2Proof.Machine.execRel f s
  | .mcpx f => Sys2Proof.Machine.execMcpx f s
  | .maddi f => Sys2Proof.Machine.execMaddi f s
  | .mli f => Sys2Proof.Machine.execMli f s
  | .send f => Sys2Proof.Machine.execSend f s
  | .recv f => Sys2Proof.Machine.execRecv f s
  | .rld f => Sys2Proof.Machine.execRld f s
  | .rst f => Sys2Proof.Machine.execRst f s
  | .ramo f => Sys2Proof.Machine.execRamo f s
  | .flush f => Sys2Proof.Machine.execFlush f s
  | .ackw f => Sys2Proof.Machine.execAckw f s
  | .controlCoreInstruction inst => Sys2Proof.Machine.execControlCoreInstruction inst s
  | .frozenInspection dom => Sys2Proof.Machine.execFrozenInspection dom s
  | .headwaterTableWrite w => Sys2Proof.Machine.execHeadwaterTableWrite w s
  | .launchClearFinished => Sys2Proof.Machine.execLaunchClearFinished s

end Sys2Proof.Machine
end

