-- ==== Sys2Proof/Machine/Integrity.lean ====
section
/-! DEFINITION. Errors of the hardware's own, detected by the checks of its stores and hops (R299, R300). They reach the
machine from outside (log 101); each turn gives one the effect of R299. -/

namespace Sys2Proof.Machine

/-- A class H event of store or hop `source` at byte `a`, met by engine `engine` (R298, R299). -/
def classHEv (engine source a : Nat) : Ev := (classXEv engine source 0).poisoned source a

/-- A class X event of the launch of core `c`, met by engine `engine`. -/
def State.classX (s : State) (c engine source : Nat) : State := s.raise c (classXEv engine source 0)

/-- Two bits of a scratchpad word, `a` within it: the word is poisoned. -/
def Engines.poisonWord (k : Engines) (a : Nat) : Engines :=
  { k with spadPoison := k.spadPoison.filter (· != a / 8) ++ [a / 8] }

/-- An error in the accumulator buffer at byte `a`. In a working copy of an Elastic entry the oldest step that has not
committed is cancelled and runs again, with no refetch; in a committed copy, and in Timed, it is class H (R237, R299). -/
def State.accumulatorUpset (s : State) (c a : Nat) (working : Bool) : State :=
  let ev := classHEv 2 3 a
  if !working || s.timed c then s.raise c ev
  else
    match (s.core c).eng.mx.steps.head? with
    | none => s
    | some st => (s.dropSteps c ⟨.mx, 0, 0⟩ st.issue st.n).raiseAs c { ev with issue := st.issue } 3

/-- Two bits of a first-level line: dirty bytes are class H on the launch, other bytes are poisoned. -/
def State.firstLevelUpset (s : State) (c ia : Nat) : State :=
  match sget (s.core c).cc.l1 (ia / 128) with
  | none => s
  | some l =>
    let w := ia % 128 / 8
    if bitsOf l.dirty.toNat (8 * w) 8 ≠ 0 then s.raise c (classHEv 0 11 0)
    else
      s.modCc c fun k =>
        { k with l1 := sinsert k.l1 (ia / 128) { l with bad := l.bad ||| ((1 : BitVec 16) <<< w) } }

/-- The effect of an error (R299, R300). One bit in a store that corrects one has none that an instruction sees. -/
def State.upset (s : State) (u : Upset) : State :=
  match u with
  | .scratchpad c a two => if two then s.modEng c fun k => k.poisonWord a else s
  | .accumulator c a working => s.accumulatorUpset c a working
  | .l2Data stack pa two =>
    if two then { s with mem := { s.mem with check := sput 0 s.mem.check (sectorKey stack pa) poisonDelta } } else s
  | .firstLevel c ia two => if two then s.firstLevelUpset c ia else s
  | .monitor c a two =>
    if two then s.modCc c fun k => { k with monBad := k.monBad.filter (· != a / 8) ++ [a / 8] } else s
  | .ispad c two => if two then s.classX c 1 5 else s
  | .tagStore c two => if two then s.classX c 1 10 else s
  | .l2Tags id two => if two then s.raiseDom id 0 (classXEv 8 1 0) else s
  | .registers c => s.raise c (classHEv 1 4 0)
  | .matrix c bits => s.modEng c fun k => { k with mxUpset := bits }
  | .auditEngine die a b =>
    { s with audit := sinsert s.audit die { (sget s.audit die).getD default with glitch := (a, b) } }
  | .control c => s.classX c 1 8
  | .walkStore id => s.raiseDom id 0 (classXEv 8 8 0)
  | .shadowPool id => s.raiseDom id 0 (classXEv 9 8 0)
  | .tagSector key => { s with mem := { s.mem with lostTags := s.mem.lostTags.filter (· != key) ++ [key] } }
  | .noc die id =>
    let s := { s with io := { s.io with nocerr := sinsert s.io.nocerr die (satInc ((sget s.io.nocerr die).getD 0)) } }
    match id with
    | some id => s.raiseDom id 0 (classXEv 8 6 0)
    | none => s
  | .fec l lost =>
    if lost then { s with io := { s.io with fecunc := sinsert s.io.fecunc l (satInc ((sget s.io.fecunc l).getD 0)) } }
    else { s with io := { s.io with feccor := sinsert s.io.feccor l (satInc ((sget s.io.feccor l).getD 0)) } }

end Sys2Proof.Machine
end

