-- ==== Sys2Proof/Machine/Step.lean ====
section
/-! DEFINITION. One step of the module: the next turn of its agenda, or the next cycle where none is left (log 1); and a
state whose next step runs a given control-core instruction. -/

namespace Sys2Proof.Machine

/-- A control core's turn: the instruction at its pc, where it executes now (R181). -/
def ccTurn (c : Nat) (s : State) : Host.Outcome State Fault Refusal :=
  if s.ccRuns c then
    match s.ccFetch c with
    | .ok i => exec i { s with cur := c }
    | .error t => .next t
  else .next s

/-- A turn. -/
def runTurn (t : Turn) (s : State) : Host.Outcome State Fault Refusal :=
  match t with
  | .op c i => if c < 4096 then exec i { s with cur := c } else .fault .noSuchUnit
  | .cc c => ccTurn c s
  | .unmatched c x => .next (s.unmatched c x)
  | .report c id n e => .next (s.reported c id n e)
  | .slice die slice phase below => .next (s.slicePhase die slice phase below)
  | .notice n => .next (s.sendNotice n)
  | .upset u => .next (s.upset u)
  | .hostData qp bytes => .next (s.hostData qp bytes)
  | .hostAck qp n => .next (s.hostAck qp n)
  | .plan => .next s.layOut

/-- One step of the module. -/
def step (s : State) : Host.Outcome State Fault Refusal :=
  match s.agenda with
  | [] => .next s.nextCycle
  | t :: rest => runTurn t { s with agenda := rest }

/-- `s` with a control-core instruction of the opcode table as the next that step runs: its bytes stand at the start of
region 0 of core 0's instruction scratchpad, as a load of the overlay would leave them, and core 0's control core is to
take its turn there (log 20). -/
def State.withFetchWord (s : State) (nbits w : Nat) : State :=
  let bs : List Byte := (List.range (max nbits 32 / 8)).map fun i => BitVec.ofNat 8 (w / 2 ^ (8 * i))
  let k := s.core 0
  let k := { k with
    eng := { k.eng with
      ispad := writeBytes k.eng.ispad 0 bs
      regions := k.eng.regions.setIfInBounds 0 0xC000000000000000 }
    cc := { k.cc with pc := 0, state := .running, inspect := none } }
  { s.setCore 0 k with agenda := [.cc 0] }

end Sys2Proof.Machine
end

