-- ==== Sys2Proof/Machine/Smider.lean ====
section
/-! DEFINITION. Smider bundles and their translation at load (R90 to R94, R399, R400): the operations that a bundle
holds and the bundles that the loader refuses, the native operations that each translates to, and the assignment of
Smider registers to native registers and spill slots. -/

namespace Sys2Proof.Machine

/-! ### Operations (R90, R91) -/

/-- A Smider register: s0 to s63 or v0 to v63 (R90). -/
inductive SmReg
  | s (n : Nat)
  | v (n : Nat)
deriving DecidableEq, Repr

/-- A Smider operation with its fields (R91, R93). `opc` is the native OPC of the mapped form. -/
inductive SmOp
  /-- an S3 form -/
  | alu (opc d a b : Nat)
  /-- CLZ, CTZ or POPC -/
  | count (opc d a : Nat)
  | imm (opc d a : Nat) (imm : Int)
  | swap (d a : Nat)
  | mulAdd (d a b c : Nat)
  /-- BR or CALL, by Smider bundles -/
  | jump (opc : Nat) (off : Int)
  /-- BRI, CALLI or RET -/
  | jumpReg (opc a : Nat)
  | halt
  | trap (code : Nat)
  /-- BRZ, or BRNZ where `nz` holds -/
  | branch (nz : Bool) (a : Nat) (off : Int)
  /-- a V form -/
  | vec (opc d a b c type aux : Nat)
  | cvt (d a dtype stype half : Nat)
  | vins (d s type idx : Nat)
  | vext (d a type idx : Nat)
  | vbcst (d s type : Nat)
  | special (opc d a : Nat)
  | dotAcc (d a b : Nat)
  | absDiff (d a b type : Nat)
  /-- LDS, STS, LDA, STA, LDL or STL -/
  | mem (opc : Nat) (vector : Bool) (data base size : Nat) (ofs : Int)
  | amo (data base size op cmp : Nat)
  | rel (scope : Nat)
deriving DecidableEq, Repr

/-- The field of `len` bits at `lo` of an operation word. -/
def smF (w lo len : Nat) : Nat := bitsOf w lo len

/-! ### The native word of an operation (R68 to R74, R92) -/

/-- A native slot word without a guard: opcode and operand bits. -/
def nativeWord (opc bits : Nat) : BitVec 48 := BitVec.ofNat 48 (opc * 2 ^ 28 + bits)

/-- The word of a V form (R70). -/
def vWord (opc d a b c type aux : Nat) : BitVec 48 :=
  nativeWord opc (d * 2 ^ 24 + a * 2 ^ 20 + b * 2 ^ 16 + c * 2 ^ 12 + type * 2 ^ 7 + aux)

/-- The word of VCVT with RND 0 (R70). -/
def cvtWord (d a stype dtype half : Nat) : BitVec 48 :=
  nativeWord 0x1C (d * 2 ^ 24 + a * 2 ^ 20 + stype * 2 ^ 15 + dtype * 2 ^ 7 + half)

/-- A load of a register number into a native field, as a legality check needs it: zero, or not. -/
def someReg (r : Nat) : Nat := if r = 0 then 0 else 1

/-- The mapped native operation of an operation that has one, with `r` in place of a register, at width 1024; none where
the native form rejects the fields. Scalar operands are in slot SA, addresses in MA (R91, R92). -/
def SmOp.checked (o : SmOp) : Bool :=
  let ok (sl : Slot) (w : BitVec 48) : Bool := match decodeSlot sl .w1024 w with
    | .ok _ => true
    | .error _ => false
  let r := someReg
  match o with
  | .imm opc _ _ i => opc < 0x24 || opc = 0x27 || (0 ≤ i && i < 64)
  | .vec opc d a b c type aux => ok .va (vWord opc (r d) (r a) (r b) (r c) type aux)
  | .cvt d a dtype stype half => ok .va (cvtWord (r d) (r a) stype dtype half)
  | .vins d s type idx => ok .va (nativeWord 0x1D (r d * 2 ^ 24 + idx * 2 ^ 17 + r s * 2 ^ 13 + type * 2 ^ 7))
  | .vext d a type idx => ok .va (nativeWord 0x1E (r d * 2 ^ 24 + r a * 2 ^ 20 + idx * 2 ^ 13 + type * 2 ^ 7))
  | .vbcst d s type => ok .va (nativeWord 0x1F (r d * 2 ^ 24 + r s * 2 ^ 16 + type * 2 ^ 7))
  | .dotAcc .. => true
  | .absDiff d a b type => ok .va (vWord 0x02 (r d) (r a) (r b) 0 type 0) && ok .va (vWord 0x09 (r d) (r a) 0 0 type 0)
  | .mem opc vector data _ size _ =>
    ok .ma (nativeWord opc (r data * 2 ^ 24 + (if vector then 0 else 3) * 2 ^ 21 + size * 2 ^ 14))
  | .amo data _ size op cmp =>
    ok .ma (nativeWord 0x0A (r data * 2 ^ 24 + 3 * 2 ^ 21 + size * 2 ^ 14 + op * 2 ^ 10 + r cmp * 2 ^ 6))
  | .rel scope => ok .ma (nativeWord 0x0B scope)
  | .jumpReg opc a => opc ≠ 0x3C || a = 0
  | _ => true

/-! ### Decoding (R91) -/

/-- Whether an operation word of slot 2 needs an XT: the forms that read c, those with an AUX selector, VCVT, VINS, VEXT
and VBCST. -/
def needsXt2 (w : Nat) : Bool :=
  [0x04, 0x05, 0x06, 0x14, 0x16, 0x1B, 0x15, 0x18, 0x19, 0x1A, 0x1C, 0x1D, 0x1E, 0x1F].contains (smF w 24 8)

/-- Whether an operation word of slot 3 needs an XT: AMO.cas. -/
def needsXt3 (w : Nat) : Bool := smF w 24 8 == 0x0A && smF w 4 4 == 7

/-- A scalar operation of slot 0 or 1. -/
def smScalar (w : Nat) : Option SmOp :=
  let opc := smF w 24 8
  let d := smF w 18 6
  let a := smF w 12 6
  let b := smF w 6 6
  let c := smF w 0 6
  if 1 ≤ opc ∧ opc ≤ 0x15 then (if c = 0 then some (.alu opc d a b) else none)
  else if 0x16 ≤ opc ∧ opc ≤ 0x18 then (if b = 0 ∧ c = 0 then some (.count opc d a) else none)
  else if 0x20 ≤ opc ∧ opc ≤ 0x27 then some (.imm opc d a (sext (smF w 0 12) 12))
  else if opc = 0xE2 then (if b = 0 ∧ c = 0 then some (.swap d a) else none)
  else if opc = 0xE3 then some (.mulAdd d a b c)
  else none

/-- A branch form of slot 0. -/
def smBranch (w : Nat) : Option SmOp :=
  let opc := smF w 24 8
  if opc = 0x38 ∨ opc = 0x39 then some (.jump opc (sext (smF w 0 24) 24))
  else if 0x3A ≤ opc ∧ opc ≤ 0x3C then (if smF w 0 18 = 0 then some (.jumpReg opc (smF w 18 6)) else none)
  else if opc = 0x3E then (if smF w 0 24 = 0 then some .halt else none)
  else if opc = 0x3F then (if smF w 16 8 = 0 then some (.trap (smF w 0 16)) else none)
  else if opc = 0xE4 ∨ opc = 0xE5 then some (.branch (opc == 0xE5) (smF w 18 6) (sext (smF w 0 18) 18))
  else none

/-- An operation of slot 2, with the word of its XT where it needs one; the fields of the XT that the form does not use
are zero. The a and b fields that VCVT, VINS, VEXT, VBCST and the special functions have no operand for, and the TYPE field of
the last, are zero as well (DESIGN CHOICE, log 87). -/
def smVector (w : Nat) (x : Nat) : Option SmOp :=
  let opc := smF w 24 8
  let d := smF w 18 6
  let a := smF w 12 6
  let b := smF w 6 6
  let t := smF w 0 6
  let c := smF x 18 6
  let aux := smF x 14 4
  let st := smF x 9 5
  let half := smF x 8 1
  let idx := smF x 1 7
  if smF x 0 1 ≠ 0 ∨ (t ≥ 32 ∧ opc < 0x40) then none
  else if opc = 0x1C then (if b = 0 ∧ c = 0 ∧ aux = 0 ∧ idx = 0 then some (.cvt d a t st half) else none)
  else if opc = 0x1D then (if a = 0 ∧ b = 0 ∧ aux = 0 ∧ st = 0 ∧ half = 0 then some (.vins d c t idx) else none)
  else if opc = 0x1E then (if b = 0 ∧ c = 0 ∧ aux = 0 ∧ st = 0 ∧ half = 0 then some (.vext d a t idx) else none)
  else if opc = 0x1F then
    (if a = 0 ∧ b = 0 ∧ aux = 0 ∧ st = 0 ∧ half = 0 ∧ idx = 0 then some (.vbcst d c t) else none)
  else if 1 ≤ opc ∧ opc ≤ 0x1B then (if st = 0 ∧ half = 0 ∧ idx = 0 then some (.vec opc d a b c t aux) else none)
  else if 0x40 ≤ opc ∧ opc ≤ 0x49 then (if b = 0 ∧ t = 0 then some (.special (opc - 0x3F) d a) else none)
  else if opc = 0xE0 then (if t = 10 then some (.dotAcc d a b) else none)
  else if opc = 0xE1 then (if t < 32 then some (.absDiff d a b t) else none)
  else none

/-- An operation of slot 3, with the word of its XT where it needs one. -/
def smMemory (w : Nat) (x : Nat) : Option SmOp :=
  let opc := smF w 24 8
  let data := smF w 17 6
  let base := smF w 11 6
  let size := smF w 8 3
  if 1 ≤ opc ∧ opc ≤ 6 then some (.mem opc (smF w 23 1 == 1) data base size (sext (smF w 0 8) 8))
  else if opc = 0x0A then
    (if smF w 23 1 = 0 ∧ smF w 0 4 = 0 ∧ smF x 0 18 = 0 then some (.amo data base size (smF w 4 4) (smF x 18 6)) else none)
  else if opc = 0x0B then (if smF w 4 20 = 0 then some (.rel (smF w 0 4)) else none)
  else none

/-- The operation of a slot of a bundle, or none of it where the slot holds NOP or an XT; an error where the loader
refuses it (R91). -/
def smSlot (k w x : Nat) : Except Unit (List SmOp) :=
  let take (o : Option SmOp) : Except Unit (List SmOp) := match o with
    | some p => if p.checked then .ok [p] else .error ()
    | none => .error ()
  if w = 0 then .ok []
  else match k with
    | 0 => take ((smScalar w).or (smBranch w))
    | 1 => if smF w 24 8 = 0xF0 then .ok [] else take (smScalar w)
    | 2 => take (smVector w (if needsXt2 w then x else 0))
    | _ => take (smMemory w (if needsXt3 w then x else 0))

/-- The operations of a Smider bundle in slot order, or a refusal: an XT stands in slot 1 exactly where one of slots 2
and 3 needs it, and not both (R91). -/
def smBundle (v : Nat) : Except Unit (List SmOp) :=
  let w (k : Nat) : Nat := bitsOf v (32 * k) 32
  let hasXt := smF (w 1) 24 8 == 0xF0
  let n2 := needsXt2 (w 2)
  let n3 := needsXt3 (w 3)
  if (n2 && n3) || hasXt != (n2 || n3) then .error ()
  else do
    let a ← smSlot 0 (w 0) (w 1)
    let b ← smSlot 1 (w 1) (w 1)
    let c ← smSlot 2 (w 2) (w 1)
    let d ← smSlot 3 (w 3) (w 1)
    pure (a ++ b ++ c ++ d)

/-- The operations of a kernel, bundle by bundle: the order of R400. -/
def smKernel : List Nat → Except Unit (List SmOp)
  | [] => .ok []
  | v :: vs => do
    let a ← smBundle v
    let b ← smKernel vs
    pure (a ++ b)

/-! ### Live ranges (R400) -/

/-- The registers that an operation names, in the order d, a, b, c, X; s0 is no register to assign. -/
def SmOp.names (o : SmOp) : List SmReg :=
  let l : List SmReg := match o with
    | .alu _ d a b => [.s d, .s a, .s b]
    | .count _ d a => [.s d, .s a]
    | .imm _ d a _ => [.s d, .s a]
    | .swap d a => [.s d, .s a]
    | .mulAdd d a b c => [.s d, .s a, .s b, .s c]
    | .jumpReg _ a => [.s a]
    | .branch _ a _ => [.s a]
    | .vec opc d a b c _ _ =>
      [.v d, .v a] ++ (if [0x09, 0x0A, 0x19, 0x1A].contains opc then [] else [.v b]) ++
        (if [0x04, 0x05, 0x06, 0x14, 0x16, 0x1B].contains opc then [.v c] else [])
    | .cvt d a _ _ _ => [.v d, .v a]
    | .vins d s _ _ => [.v d, .s s]
    | .vext d a _ _ => [.v d, .v a]
    | .vbcst d s _ => [.v d, .s s]
    | .special _ d a => [.v d, .v a]
    | .dotAcc d a b => [.v d, .v a, .v b]
    | .absDiff d a b _ => [.v d, .v a, .v b]
    | .mem _ vector data base _ _ => [if vector then .v data else .s data, .s base]
    | .amo data base _ op cmp => [.s data, .s base] ++ (if op = 7 then [.s cmp] else [])
    | _ => []
  (l.filter fun r => r != SmReg.s 0).eraseDups

/-- The temporaries of an expansion: how many, and whether they are vector registers (R93). -/
def SmOp.temps (o : SmOp) : Nat × Bool :=
  match o with
  | .dotAcc .. => (2, true)
  | .absDiff .. => (1, true)
  | .swap .. => (1, false)
  | .mulAdd .. => (1, false)
  | .branch .. => (1, false)
  | _ => (0, false)

/-- What takes a register: a Smider register, or temporary `k` of operation `n`. -/
inductive SmVal
  | reg (r : SmReg)
  | temp (n k : Nat) (vector : Bool)
deriving DecidableEq, Repr

/-- Whether a value needs a vector register. -/
def SmVal.isVector : SmVal → Bool
  | .reg (.s _) => false
  | .reg (.v _) => true
  | .temp _ _ v => v

/-- A live range: the first and the last operation that names the value, numbered from 1. -/
structure SmRange where
  val : SmVal
  first : Nat
  last : Nat
deriving DecidableEq, Repr

/-- The last operation that names a register, or 0. -/
def lastNamed (r : SmReg) : Nat → List SmOp → Nat
  | _, [] => 0
  | n, o :: os =>
    let m := lastNamed r (n + 1) os
    if m ≠ 0 then m else if o.names.contains r then n else 0

/-- The live ranges in the order in which they are taken: by first operation, then d, a, b, c, X, temporaries last. -/
def smRanges (seen : List SmReg) : Nat → List SmOp → List SmRange
  | _, [] => []
  | n, o :: os =>
    let new := o.names.filter fun r => !seen.contains r
    let (k, v) := o.temps
    (new.map fun r => ⟨.reg r, n, lastNamed r n (o :: os)⟩) ++ (List.range k).map (fun i => ⟨.temp n i v, n, n⟩) ++
      smRanges (seen ++ new) (n + 1) os

/-! ### The load request (R399) -/

/-- The registers that a load request names, as numbers of each file. -/
structure SmRequest where
  sa : List Nat
  sb : List Nat
  va : List Nat
  vb : List Nat
  vc : List Nat
  ma : List Nat
deriving DecidableEq, Repr

/-- The registers without a request: every register but sa0. -/
def SmRequest.all : SmRequest :=
  ⟨(List.range 16).drop 1, List.range 16, List.range 16, List.range 16, List.range 16, List.range 16⟩

/-- A native register: its file code (R67) and number. -/
structure NatReg where
  file : Nat
  num : Nat
deriving DecidableEq, Repr

/-- The numbers named of a file, in increasing order. -/
def inOrder (l : List Nat) : List Nat := (List.range 16).filter fun n => l.contains n

/-- The scalar set: the sa registers, then the sb registers; sa0 reads zero and is never one of them. -/
def SmRequest.scalars (q : SmRequest) : List NatReg :=
  ((inOrder q.sa).filter (· != 0)).map (⟨0, ·⟩) ++ (inOrder q.sb).map (⟨1, ·⟩)

/-- The one vector file in use, with its registers: the first of va, vb and vc that the request names one of. -/
def SmRequest.vectors (q : SmRequest) : List NatReg :=
  if !q.va.isEmpty then (inOrder q.va).map (⟨6, ·⟩)
  else if !q.vb.isEmpty then (inOrder q.vb).map (⟨7, ·⟩)
  else (inOrder q.vc).map (⟨8, ·⟩)

/-- The loader refuses a request of fewer than three scalar, six vector or three address registers. -/
def SmRequest.ok (q : SmRequest) : Bool :=
  3 ≤ q.scalars.length && 6 ≤ q.vectors.length && 3 ≤ (inOrder q.ma).length

/-- The registers that ranges may receive, and the scratch of the class: the last scalar, the highest vector register. -/
def SmRequest.pool (q : SmRequest) (vector : Bool) : List NatReg := (if vector then q.vectors else q.scalars).dropLast

def SmRequest.scratch (q : SmRequest) (vector : Bool) : Option NatReg := (if vector then q.vectors else q.scalars).getLast?

/-- The address register of the spill base, and those that take copies of base registers. -/
def SmRequest.spillBase (q : SmRequest) : Option Nat := (inOrder q.ma).head?

def SmRequest.baseRegs (q : SmRequest) : List Nat := (inOrder q.ma).drop 1

/-! ### Assignment (R400) -/

/-- Where a value stands: in a register, or in spill slot `k` counted from 0 in the order of spilling. -/
inductive SmPlace
  | reg (r : NatReg)
  | spill (k : Nat)
deriving DecidableEq, Repr

/-- An assignment under way: the ranges taken, in order, with their places, and the number of spills. -/
abbrev SmAssign := List (SmRange × SmPlace) × Nat

/-- The range with the latest end, among equals the one taken latest. -/
def latestEnd : List SmRange → SmRange → SmRange
  | [], best => best
  | r :: rs, best => latestEnd rs (if best.last ≤ r.last then r else best)

/-- Take one range: the lowest free register of its class; where there is none, the range with the latest end among the
active ones and the new one spills, and the new one takes its register. -/
def takeRange (q : SmRequest) (a : SmAssign) (r : SmRange) : SmAssign :=
  let active := a.1.filter fun e => e.1.val.isVector == r.val.isVector && decide (r.first ≤ e.1.last)
  let used := active.filterMap fun e => match e.2 with
    | .reg x => some x
    | .spill _ => none
  match (q.pool r.val.isVector).find? fun x => !used.contains x with
  | some x => (a.1 ++ [(r, .reg x)], a.2)
  | none =>
    let held := active.filter fun e => match e.2 with
      | .reg _ => true
      | .spill _ => false
    let out := match held with
      | [] => r
      | e :: es => latestEnd ((es.map (·.1)) ++ [r]) e.1
    if out = r then (a.1 ++ [(r, .spill a.2)], a.2 + 1)
    else
      let freed := (held.find? fun e => e.1 == out).map (·.2)
      ((a.1.map fun e => if e.1 = out then (e.1, .spill a.2) else e) ++ [(r, freed.getD (.spill a.2))], a.2 + 1)

/-- The assignment of a kernel's ranges. -/
def assignRanges (q : SmRequest) (ops : List SmOp) : SmAssign := (smRanges [] 1 ops).foldl (takeRange q) ([], 0)

/-- The place of a value. -/
def SmAssign.place (a : SmAssign) (v : SmVal) : Option SmPlace := (a.1.find? fun e => e.1.val == v).map (·.2)

/-- The spilled ranges in the order in which they spilled. -/
def SmAssign.spilled (a : SmAssign) : List SmRange :=
  (List.range a.2).filterMap fun k => (a.1.find? fun e => e.2 == .spill k).map (·.1)

/-! ### The spill area (R94, R400) -/

/-- The distance of each spill slot from the top of the area, and that of the lowest: slots of 8 bytes, or of 128 for a
vector, downwards, each aligned to its size (DEDUCED, log 87). -/
def slotDepths : List Bool → Nat → List Nat
  | [], _ => []
  | vector :: rs, top =>
    let z := if vector then 128 else 8
    let d := (top + z + z - 1) / z * z
    d :: slotDepths rs d

/-- The classes of the spilled ranges, in order. -/
def SmAssign.classes (a : SmAssign) : List Bool := a.spilled.map fun r => r.val.isVector

/-- The bytes of an area of such slots in units of 64; a vector slot keeps the area's start aligned as well. -/
def areaUnits (l : List Bool) : Nat :=
  let n := ((slotDepths l 0).getLastD 0 + 63) / 64
  if l.contains true then (n + 1) / 2 * 2 else n

/-- The address of spill slot `k` in bank `bank`. -/
def SmAssign.slotAddr (a : SmAssign) (bank k : Nat) : Nat := (bank + 1) * 65536 - (slotDepths a.classes 0).getD k 0

/-! ### Native operations (R92, R93) -/

/-- A guard that holds always: bit 0 of sa0 is zero. -/
def always : Guard := ⟨false, 0, 0⟩

/-- The guard on bit 0 of a scalar register. -/
def onBit0 (r : NatReg) (pol : Bool) : Guard := ⟨pol, BitVec.ofNat 5 (r.file * 16 + r.num), 0⟩

/-- A native operation of a translation: a slot operation, or a branch whose target is a Smider bundle offset. -/
inductive SmNative
  | op (i : Instr)
  | branch (call : Bool) (g : Guard) (off : Int)
deriving DecidableEq, Repr

/-- The slot word `w` of slot `sl` at width 1024, as an operation. -/
def nativeOp (sl : Slot) (w : BitVec 48) : Option SmNative :=
  match decodeSlot sl .w1024 w with
  | .ok i => some (.op i)
  | .error _ => none

/-- Slot of a file: SA, SB, VA, VB or VC. -/
def fileSlot (f : Nat) : Slot :=
  match f with
  | 0 => .sa
  | 1 => .sb
  | 6 => .va
  | 7 => .vb
  | _ => .vc

/-- A memory form's data file code of R73 for a file code of R67. -/
def dataFileOf (f : Nat) : Nat :=
  match f with
  | 0 => 3
  | 1 => 4
  | 6 => 0
  | 7 => 1
  | _ => 2

/-- Where the operands of one operation stand: each register of the operation, its temporaries, and the address register
that holds a copy of its base. -/
structure SmMap where
  reg : SmReg → Option NatReg
  temp : Nat → Option NatReg
  base : Nat

/-- The unit that an operation of a translation runs in: the slot of a scalar or vector file, MA, or FS. -/
inductive NatUnit
  | scalar | vector | memory | special
deriving DecidableEq, Repr

/-- A native operation with values in place of registers: its OPC and constant bits, its destination, the sources of its
slot's own file with their fields, a source of any file with its number and file fields, and the base of an address. The
destination is one of the sources where `tied` holds. For a memory operation `data` is the data register. -/
structure NatOp where
  unit : NatUnit
  opc : Nat
  bits : Nat := 0
  dst : Option SmVal := none
  tied : Bool := false
  own : List (SmVal × Option Nat) := []
  any : Option (SmVal × Nat × Nat) := none
  data : Option SmVal := none
  base : Option SmVal := none
deriving DecidableEq, Repr

/-- Whether element sizes can leave a part of a conversion's destination as it was (R153). -/
def cvtKeeps (dtype stype : Nat) : Bool := isStreamType dtype || isStreamType stype || decide (esize dtype < esize stype)

/-- The native operations of operation `n`: one, or the expansion of R93. A special function's result comes from fs0
(DEDUCED, log 87). Branches, HALT and TRAP have none here but the test of BRZ and BRNZ. -/
def SmOp.parts (n : Nat) (o : SmOp) : List NatOp :=
  let s (r : Nat) : SmVal := .reg (.s r)
  let v (r : Nat) : SmVal := .reg (.v r)
  let t (k : Nat) (vector : Bool) : SmVal := .temp n k vector
  let scalar (opc : Nat) (d a b : SmVal) : NatOp := { unit := .scalar, opc, dst := some d, own := [(a, some 20), (b, some 16)] }
  let copy (d a : SmVal) : NatOp := { unit := .scalar, opc := 0x30, dst := some d, any := some (a, 20, 16) }
  let vec (opc : Nat) (d : SmVal) (own : List (SmVal × Option Nat)) (type aux : Nat) : NatOp :=
    { unit := .vector, opc, bits := type * 2 ^ 7 + aux, dst := some d, own }
  let cvt (d a : SmVal) (dtype stype half : Nat) : NatOp :=
    let keeps := cvtKeeps dtype stype
    { unit := .vector, opc := 0x1C, bits := stype * 2 ^ 15 + dtype * 2 ^ 7 + half, dst := some d, tied := keeps
      own := (a, some 20) :: (if keeps then [(d, none)] else []) }
  match o with
  | .alu opc d a b => [scalar opc (s d) (s a) (s b)]
  | .count opc d a => [{ unit := .scalar, opc, dst := some (s d), own := [(s a, some 20)] }]
  | .imm opc d a i => [{ unit := .scalar, opc, bits := wrapInt i 20, dst := some (s d), own := [(s a, some 20)] }]
  | .swap d a => [copy (t 0 false) (s d), copy (s d) (s a), copy (s a) (t 0 false)]
  | .mulAdd d a b c => [scalar 0x0F (t 0 false) (s a) (s b), scalar 0x01 (s d) (t 0 false) (s c)]
  | .branch _ a _ => [scalar 0x0A (t 0 false) (s 0) (s a)]
  | .vec opc d a b c type aux =>
    let useB := !([0x09, 0x0A, 0x19, 0x1A].contains opc) && !(opc == 0x18 && !shflUsesB aux)
    let useC := [0x04, 0x05, 0x06, 0x14, 0x16, 0x1B].contains opc
    [vec opc (v d) ((v a, some 20) :: ((if useB then [(v b, some 16)] else []) ++ if useC then [(v c, some 12)] else []))
      type aux]
  | .cvt d a dtype stype half => [cvt (v d) (v a) dtype stype half]
  | .vins d r type idx =>
    [{ unit := .vector, opc := 0x1D, bits := idx * 2 ^ 17 + type * 2 ^ 7, dst := some (v d), tied := true
       own := [(v d, none)], any := some (s r, 13, 12) }]
  | .vext d a type idx =>
    [{ unit := .vector, opc := 0x1E, bits := idx * 2 ^ 13 + type * 2 ^ 7, dst := some (v d), own := [(v a, some 20)] }]
  | .vbcst d r type => [{ unit := .vector, opc := 0x1F, bits := type * 2 ^ 7, dst := some (v d), any := some (s r, 16, 12) }]
  | .special opc d a =>
    [{ unit := .special, opc, own := [(v a, some 21)] },
      { unit := .vector, opc := 0x20, bits := 9 * 2 ^ 16, dst := some (v d) }]
  | .dotAcc d a b =>
    let half (h : Nat) : List NatOp :=
      [cvt (t 0 true) (v a) 8 10 h, cvt (t 1 true) (v b) 8 10 h,
        vec 0x04 (v d) [(t 0 true, some 20), (t 1 true, some 16), (v d, some 12)] 8 0]
    half 0 ++ half 1
  | .absDiff d a b type =>
    [vec 0x02 (t 0 true) [(v a, some 20), (v b, some 16)] type 0, vec 0x09 (v d) [(t 0 true, some 20)] type 0]
  | .mem opc vector data base size ofs =>
    let r := if vector then v data else s data
    [{ unit := .memory, opc, bits := size * 2 ^ 14 + wrapInt ofs 14, dst := if opc % 2 = 1 then some r else none
       data := some r, base := some (s base) }]
  | .amo data base size op cmp =>
    [{ unit := .memory, opc := 0x0A, bits := size * 2 ^ 14 + op * 2 ^ 10, dst := some (s data), tied := true
       own := (s data, none) :: (if op = 7 then [(s cmp, some 6)] else []), data := some (s data), base := some (s base) }]
  | .rel scope => [{ unit := .memory, opc := 0x0B, bits := scope }]
  | _ => []

/-- The slot and word of an operation whose own registers are of file `f`, at width 1024; `base` is the number of its
address register. -/
def NatOp.word (o : NatOp) (f : Nat) (reg : SmVal → NatReg) (base : Nat) : Slot × BitVec 48 :=
  let own := o.own.foldl (fun a x => a + match x.2 with
    | some p => (reg x.1).num * 2 ^ p
    | none => 0) 0
  let any := match o.any with
    | some (x, n, g) => (reg x).num * 2 ^ n + (reg x).file * 2 ^ g
    | none => 0
  let d := match o.dst with
    | some x => (reg x).num * 2 ^ 24
    | none => 0
  match o.unit with
  | .scalar => (fileSlot f, nativeWord o.opc (o.bits + d + own + any))
  | .vector => (fileSlot f, nativeWord o.opc (o.bits + d + own + any))
  | .special => (.fs, nativeWord o.opc (o.bits + own + (f - 6) * 2 ^ 19))
  | .memory =>
    let data := match o.data with
      | some x => (reg x).num * 2 ^ 24 + dataFileOf (reg x).file * 2 ^ 21 + base * 2 ^ 17
      | none => 0
    (.ma, nativeWord o.opc (o.bits + data + own))

/-- The native operation of a part whose operands stand as `m` says, in registers of its slot's own file. -/
def NatOp.native (o : NatOp) (m : SmMap) : Option SmNative :=
  let reg (x : SmVal) : Option NatReg := match x with
    | .reg r => if r = .s 0 then some ⟨0, 0⟩ else m.reg r
    | .temp _ k _ => m.temp k
  let mine := (if o.unit = .memory then o.data.toList else o.dst.toList) ++ o.own.map (·.1)
  let all := mine ++ (o.any.map (·.1)).toList
  let f := ((mine.head?.bind reg).map (·.file)).getD 0
  if all.all (fun x => (reg x).isSome) && (o.own.all fun x => (reg x.1).map (·.file) == some f) then
    let w := o.word f (fun x => (reg x).getD ⟨0, 0⟩) m.base
    nativeOp w.1 w.2
  else none

/-- The native operations of a Smider operation whose registers stand in native registers of one file each: one
operation, or the expansion of R93. An operation with a spilled operand finds it in the scratch (R400). -/
def SmOp.native (o : SmOp) (m : SmMap) : Option (List SmNative) :=
  match o with
  | .jump opc off => some [.branch (opc == 0x39) always off]
  | .jumpReg opc a =>
    if opc = 0x3C then some [.op (.ret always)]
    else do
      let r ← m.reg (.s a)
      if r.file = 1 then pure [← nativeOp .sb (nativeWord opc (r.num * 2 ^ 20))] else none
  | .halt => some [.op (.halt always)]
  | .trap code => some [.op (.trap always (BitVec.ofNat 16 code))]
  | .branch nz _ off => do
    let l ← (o.parts 0).mapM fun p => p.native m
    let t ← m.temp 0
    pure (l ++ [.branch false (onBit0 t nz) off])
  | _ => (o.parts 0).mapM fun p => p.native m

/-- Where operation `n` of a kernel finds its operands: assigned registers, or the scratch of the class where the range is
spilled (R400); its base in address register `base`. -/
def SmAssign.operandsOf (q : SmRequest) (a : SmAssign) (n base : Nat) : SmMap :=
  let at_ (v : SmVal) : Option NatReg := (a.place v).bind fun p => match p with
    | .reg r => some r
    | .spill _ => q.scratch v.isVector
  { reg := fun r => at_ (.reg r)
    temp := fun k => (at_ (.temp n k true)).or (at_ (.temp n k false))
    base }

end Sys2Proof.Machine
end

