-- ==== Sys2Proof/Machine/Translate.lean ====
section
/-! DEFINITION. The translation of a Smider kernel to native bundles (R90, R92 to R94, R399, R400): the registers of each
native operation, the copies, spill stores and reloads around it, the order of a bundle's operations, and the map from
native to Smider bundles. Which native bundle holds what is the translator's own choice: here each holds one operation
(DESIGN CHOICE, log 87). -/

namespace Sys2Proof.Machine

/-! ### Items -/

/-- A slot of the spill area: that of a spilled range, or one that keeps a value within a Smider bundle. -/
inductive SpillSlot
  | range (k : Nat)
  | kept (vector : Bool) (k : Nat)
deriving DecidableEq, Repr

/-- What a native bundle of a translation holds. -/
inductive TrItem
  | op (sl : Slot) (w : BitVec 48)
  /-- a spill slot's load into a register or store from it -/
  | slot (load : Bool) (r : NatReg) (k : SpillSlot)
  /-- BR or CALL to the Smider bundle `off` bundles on -/
  | jump (call : Bool) (g : Guard) (off : Int)
  /-- BRI or CALLI to the address in a register of sb; `annul` drops its delay bundles -/
  | jumpReg (call annul : Bool) (a : Nat)
  | nop
deriving DecidableEq, Repr

/-- Where a value stands while its bundle is translated. -/
inductive TrPlace
  | reg (r : NatReg)
  | slot (k : SpillSlot)
deriving DecidableEq, Repr

/-- A translation under way: the items of the Smider bundle so far, the values that a slot holds until the end of
their bundle, the copies of bases in address registers, how many were made, and the kept slots used, scalar and vector. -/
structure TrState where
  items : List TrItem
  held : List (SmVal × SpillSlot)
  copies : List (Nat × SmReg)
  made : Nat
  scalars : Nat
  vectors : Nat
deriving DecidableEq, Repr

def TrState.emit (g : TrState) (l : List TrItem) : TrState := { g with items := g.items ++ l }

/-- A slot that nothing keeps yet. -/
def TrState.keep (g : TrState) (vector : Bool) : TrState × SpillSlot :=
  if vector then ({ g with vectors := g.vectors + 1 }, .kept true g.vectors)
  else ({ g with scalars := g.scalars + 1 }, .kept false g.scalars)

/-- The place of a value outside its bundle; s0 is sa0. -/
def SmAssign.home (a : SmAssign) (v : SmVal) : Option TrPlace :=
  if v = .reg (.s 0) then some (.reg ⟨0, 0⟩)
  else match a.place v with
    | some (.reg r) => some (.reg r)
    | some (.spill k) => some (.slot (.range k))
    | none => none

/-- The place of a value now. -/
def TrState.at_ (g : TrState) (a : SmAssign) (v : SmVal) : Option TrPlace :=
  match g.held.find? fun e => e.1 == v with
  | some e => some (.slot e.2)
  | none => a.home v

/-- Whether a native register is of a vector file. -/
def NatReg.isVector (r : NatReg) : Bool := 6 ≤ r.file

/-- A copy between registers of one class: CPX or VCPX (R92). -/
def copyItem (d r : NatReg) : TrItem :=
  if d.isVector then .op (fileSlot d.file) (nativeWord 0x20 (d.num * 2 ^ 24 + r.num * 2 ^ 20 + r.file * 2 ^ 16))
  else .op (fileSlot d.file) (nativeWord 0x30 (d.num * 2 ^ 24 + r.num * 2 ^ 20 + r.file * 2 ^ 16))

/-- The items that bring a place's value into a register, and that put a register's value into a place. -/
def fetchItem (d : NatReg) : TrPlace → List TrItem
  | .reg r => if r = d then [] else [copyItem d r]
  | .slot k => [.slot true d k]

def putItem (r : NatReg) : TrPlace → List TrItem
  | .reg d => if r = d ∨ d = ⟨0, 0⟩ then [] else [copyItem d r]
  | .slot k => [.slot false r k]

/-! ### Registers of one native operation -/

/-- The registers that the request names of a file. -/
def SmRequest.inFile (q : SmRequest) (f : Nat) : List NatReg := (q.scalars ++ q.vectors).filter fun r => r.file == f

/-- The own operands of an operation that need a register of file `f`, each once. -/
def ownNeeds (f : Nat) (l : List (SmVal × Nat)) : List SmVal :=
  ((l.map (·.1)).filter fun v => !(f == 0 && v == .reg (.s 0))).eraseDups

/-- The file in which an operation runs: that of its registers where they stand in one, else sa where it names enough
registers for the sources, else sb. -/
def NatOp.file (q : SmRequest) (o : NatOp) (home : SmVal → Option TrPlace) : Nat :=
  if o.unit = .vector ∨ o.unit = .special then (q.vectors.head?.map (·.file)).getD 6
  else
    let l := (if o.unit = .memory then o.data.toList else o.dst.toList) ++ o.own.map (·.1)
    let files := l.map fun v => match home v with
      | some (.reg r) => some r.file
      | _ => none
    match files with
    | some f :: rest => if rest.all (· == some f) then f else pick l
    | _ => pick l
where
  pick (l : List SmVal) : Nat :=
    let n := (ownNeeds 0 (o.own.map fun x => (x.1, 0))).length
    if !l.isEmpty && decide (max n 1 ≤ (q.inFile 0).length) then 0 else 1

/-- Registers given to the operands of one operation: the pairs so far, and the registers whose own values wait in slots. -/
structure TrRegs where
  got : List (SmVal × NatReg)
  saved : List (NatReg × SpillSlot)
deriving DecidableEq, Repr

/-- A register of file `f` for a value that does not stand in one: the scratch, a register in `free` whose value is dead,
or another one whose value is kept meanwhile. `busy` are in use. -/
def takeTemp (q : SmRequest) (f : Nat) (free busy : List NatReg) (g : TrState) (r : TrRegs) : Option (TrState × TrRegs × NatReg) :=
  let vector := decide (6 ≤ f)
  let used := busy ++ r.got.map (·.2)
  let cheap := ((q.scratch vector).toList.filter fun x => x.file == f) ++ free
  match cheap.find? fun x => !used.contains x with
  | some x => some (g, r, x)
  | none =>
    match (q.inFile f).find? fun x => !used.contains x with
    | none => none
    | some x =>
      let (g, k) := g.keep vector
      some (g.emit [.slot false x k], { r with saved := r.saved ++ [(x, k)] }, x)

/-- Registers of file `f` for own operands in order, each brought there where it stands elsewhere; a value of `fresh` goes
to a register of its own. -/
def takeOwn (q : SmRequest) (a : SmAssign) (f : Nat) (free busy : List NatReg) (fresh : Option SmVal) :
    List SmVal → TrState → TrRegs → Option (TrState × TrRegs)
  | [], g, r => some (g, r)
  | v :: vs, g, r =>
    if r.got.any fun e => e.1 == v then takeOwn q a f free busy fresh vs g r
    else
      match g.at_ a v with
      | none => none
      | some p =>
        let here : Option NatReg := match p with
          | .reg x => if x.file = f ∧ fresh ≠ some v then some x else none
          | .slot _ => none
        match here with
        | some x => takeOwn q a f free busy fresh vs g { r with got := r.got ++ [(v, x)] }
        | none =>
          match takeTemp q f free busy g r with
          | none => none
          | some (g, r, x) => takeOwn q a f free busy fresh vs (g.emit (fetchItem x p)) { r with got := r.got ++ [(v, x)] }

/-- The address register that holds a copy of a base, made now where none does: the address registers but that of the
spill base in round order (R400). -/
def takeBase (q : SmRequest) (a : SmAssign) (g : TrState) : Option SmVal → Option (TrState × Nat)
  | none => some (g, 0)
  | some v => do
    let r ← match v with
      | .reg r => some r
      | .temp .. => none
    match g.copies.find? fun e => e.2 == r with
    | some e => pure (g, e.1)
    | none =>
      let regs := q.baseRegs
      let m := regs.getD (g.made % max 1 regs.length) 0
      let p ← g.at_ a v
      let scratch ← q.scratch false
      let (pre, x) := match p with
        | .reg x => (([] : List TrItem), x)
        | .slot k => ([.slot true scratch k], scratch)
      let g := g.emit (pre ++ [.op .ma (nativeWord 0x0C (m * 2 ^ 24 + x.num * 2 ^ 20 + x.file * 2 ^ 16))])
      pure ({ g with copies := (g.copies.filter fun e => e.1 != m) ++ [(m, r)], made := g.made + 1 }, m)

/-- A register for an operand that may stand in any file. -/
def takeAny (q : SmRequest) (a : SmAssign) (busy : List NatReg) (g : TrState) (r : TrRegs) (v : SmVal) : Option (TrState × TrRegs) :=
  match g.at_ a v with
  | none => none
  | some (.reg x) => some (g, { r with got := r.got ++ [(v, x)] })
  | some (.slot k) =>
    let f := ((q.scratch v.isVector).map (·.file)).getD 0
    match takeTemp q f [] busy g r with
    | none => none
    | some (g, r, x) => some (g.emit [.slot true x k], { r with got := r.got ++ [(v, x)] })

/-- Where the result of an operation goes in the end: its value's place, or with `late` a slot until the end of its Smider
bundle. -/
def destPlace (a : SmAssign) (late : Bool) (g : TrState) (v : SmVal) : Option (TrState × TrPlace) :=
  if late && v != .reg (.s 0) then
    match g.held.find? fun e => e.1 == v with
    | some e => some (g, .slot e.2)
    | none =>
      let (g, k) := g.keep v.isVector
      some (g, .slot k)
  else (a.home v).map fun p => (g, p)

/-- The register in which a result is formed: its own, that of its tied source, the scratch, that of a source, or another
one whose value is kept meanwhile. -/
def takeDest (q : SmRequest) (o : NatOp) (f : Nat) (p : TrPlace) (v : SmVal) (g : TrState) (r : TrRegs) :
    Option (TrState × TrRegs × NatReg) :=
  let tied := if o.tied then (r.got.find? fun e => e.1 == v).map (·.2) else none
  let direct : Option NatReg := match p with
    | .reg x => if x.file = f ∨ o.unit = .memory then some x else none
    | .slot _ => none
  let f := if o.unit = .memory then ((q.scratch v.isVector).map (·.file)).getD 0 else f
  let scratch := (q.scratch v.isVector).toList.filter fun x => x.file == f
  match tied.or (direct.or scratch.head?) with
  | some x => some (g, r, x)
  | none =>
    match (r.got.map (·.2)).find? fun x => x.file == f && r.saved.any fun e => e.1 == x with
    | some x => some (g, r, x)
    | none =>
      match (q.inFile f).head? with
      | none => none
      | some x =>
        let (g, k) := g.keep (decide (6 ≤ f))
        some (g.emit [.slot false x k], { r with saved := r.saved ++ [(x, k)] }, x)

/-- A native operation with its operands brought to registers, and its result put where it belongs. -/
def emitPart (q : SmRequest) (a : SmAssign) (late : Bool) (g : TrState) (o : NatOp) : Option TrState := do
  let f := o.file q (g.at_ a)
  let (g, base) ← takeBase q a g o.base
  let place (v : SmVal) : List NatReg := match g.at_ a v with
    | some (.reg x) => [x]
    | _ => []
  let own := o.own.map (·.1)
  let others := (o.any.map (·.1)).toList ++ (if o.unit = .memory ∧ !o.tied ∧ o.dst.isNone then o.data.toList else [])
  let busy := (own ++ others).flatMap place
  let free := if o.tied then [] else (o.dst.toList.flatMap place).filter fun x => x.file == f && x != ⟨0, 0⟩ && !busy.contains x
  let fresh := if o.tied && late then o.dst else none
  let (g, r) ← takeOwn q a f (if late then [] else free) busy fresh own g ⟨[], []⟩
  let (g, r) ← others.foldlM (fun (x : TrState × TrRegs) v => takeAny q a busy x.1 x.2 v) (g, r)
  let src := r.got
  let reg (l : List (SmVal × NatReg)) (v : SmVal) : NatReg := ((l.find? fun e => e.1 == v).map (·.2)).getD ⟨0, 0⟩
  match o.dst with
  | none =>
    let w := o.word f (reg src) base
    pure (g.emit ([.op w.1 w.2] ++ r.saved.reverse.map fun e => .slot true e.1 e.2))
  | some v =>
    let (g, p) ← destPlace a late g v
    let (g, r, d) ← takeDest q o f p v g r
    -- a source that is the destination too keeps its own register in its field
    let srcs := { o with dst := none, data := if o.unit = NatUnit.memory then none else o.data }
    let w0 := srcs.word f (reg src) base
    let w1 := { o with own := [], any := none, bits := 0 }.word f (fun _ => d) base
    let w := (w1.1, w0.2 ||| w1.2)
    let g := g.emit ([.op w.1 w.2] ++ putItem d p ++
      (r.saved.reverse.filter fun e => p != .reg e.1).map fun e => .slot true e.1 e.2)
    let held := match p with
      | .slot (.kept c k) => (g.held.filter fun e => e.1 != v) ++ [(v, .kept c k)]
      | _ => g.held
    let copies := if late then g.copies else g.copies.filter fun e => SmVal.reg e.2 != v
    pure { g with held, copies }

/-! ### A Smider bundle (R90) -/

/-- An operation of a Smider bundle that waits for its turn. -/
structure TrPend where
  parts : List NatOp
  late : Bool
deriving DecidableEq, Repr

/-- The places that an operation reads from before it, and those that it writes. -/
def TrPend.reads (a : SmAssign) (p : TrPend) : List TrPlace :=
  (p.parts.flatMap fun o => o.own.map (·.1) ++ (o.any.map (·.1)).toList ++ o.base.toList ++
    (if o.dst.isNone then o.data.toList else [])).filterMap fun v => match v with
      | .temp .. => none
      | v => a.home v

def TrPend.writes (a : SmAssign) (p : TrPend) : List TrPlace :=
  (p.parts.filterMap fun o => o.dst.bind a.home).filter fun x => x != .reg ⟨0, 0⟩

def meets (x y : List TrPlace) : Bool := x.any fun p => y.contains p

/-- Whether `p` may write now: nothing that still waits reads what it writes, and nothing that stands before it and waits
writes there too. -/
def TrPend.mayWrite (a : SmAssign) (before after : List TrPend) (p : TrPend) : Bool :=
  !((before ++ after).any fun y => meets (p.writes a) (y.reads a)) && !(before.any fun y => meets (p.writes a) (y.writes a))

/-- The first operation that may write now, and the others. -/
def nextWrite (a : SmAssign) (before : List TrPend) : List TrPend → Option (TrPend × List TrPend)
  | [] => none
  | p :: ps => if p.late || p.mayWrite a before ps then some (p, before ++ ps) else nextWrite a (before ++ [p]) ps

/-- Whether a value is a Smider register's, and no temporary. -/
def SmVal.isReg : SmVal → Bool
  | .reg _ => true
  | .temp .. => false

/-- Emit the operations of a bundle so that each reads what stood there before the bundle: one that may write, else the first
with its results kept until all have read (R90). Where two write one place the later slot's result stands, as R66 has it for
native slots (DESIGN CHOICE, log 87). `fuel` is their number. -/
def emitPends (q : SmRequest) (a : SmAssign) : Nat → List TrPend → TrState → Option TrState
  | 0, _, g => some g
  | _, [], g => some g
  | fuel + 1, p :: ps, g =>
    let (x, rest) := (nextWrite a [] (p :: ps)).getD ({ p with late := true }, ps)
    match x.parts.foldlM (emitPart q a x.late) { g with held := [] } with
    | none => none
    | some g' =>
      let ws := x.writes a
      let old := g.held.filter fun e => !(e.1.isReg && (a.home e.1).any fun p => ws.contains p)
      emitPends q a fuel rest { g' with held := old ++ g'.held }

/-- Put the kept results in their places. -/
def settleHeld (q : SmRequest) (a : SmAssign) (g : TrState) : Option TrState :=
  (g.held.filter fun e => e.1.isReg).foldlM
    (fun g e => do
      let p ← a.home e.1
      let scratch ← q.scratch e.1.isVector
      let g := { g with held := g.held.filter fun x => x.1 != e.1, copies := g.copies.filter fun x => SmVal.reg x.2 != e.1 }
      match p with
      | .reg r => pure (g.emit [.slot true r e.2])
      | .slot k => pure (g.emit [.slot true scratch e.2, .slot false scratch k]))
    g

/-- Whether an operation ends its bundle: a branch, HALT or TRAP. -/
def SmOp.control (o : SmOp) : Bool :=
  match o with
  | .jump .. => true
  | .jumpReg .. => true
  | .halt => true
  | .trap _ => true
  | .branch .. => true
  | _ => false

/-- Two bundles that do nothing, for the delay bundles of a call or return. -/
def delays : List TrItem := [.nop, .nop]

/-- The bundle's control operation, once all else has written. A branch to a bundle annuls its delay bundles where it is
taken; the delay bundles of the others do nothing, or give back the register that held the target (R92). -/
def emitControl (q : SmRequest) (a : SmAssign) (n : Nat) (o : SmOp) (g : TrState) : Option TrState :=
  match o with
  | .jump opc off => some (g.emit (.jump (opc == 0x39) always off :: (if opc = 0x39 then delays else [])))
  | .halt => some (g.emit [.op .sb (encodeSlot (.halt always))])
  | .trap code => some (g.emit [.op .sb (encodeSlot (.trap always (BitVec.ofNat 16 code)))])
  | .branch nz _ off => do
    let p ← g.at_ a (.temp n 0 false)
    let scratch ← q.scratch false
    match p with
    | .reg r => pure (g.emit [.jump false (onBit0 r nz) off])
    | .slot k => pure (g.emit [.slot true scratch k, .jump false (onBit0 scratch nz) off])
  | .jumpReg opc r =>
    if opc = 0x3C then some (g.emit (.op .sb (encodeSlot (.ret always)) :: delays))
    else do
      let v := if g.held.any fun e => e.1 == .temp n 0 false then SmVal.temp n 0 false else .reg (.s r)
      let p ← g.at_ a v
      let call := opc == 0x3B
      match p with
      | .reg x =>
        if x.file = 1 then pure (g.emit (.jumpReg call true x.num :: delays))
        else viaTemp q call p g
      | .slot _ => viaTemp q call p g
  | _ => some g
where
  /-- The target comes to the scratch, or to a register of sb that the first delay bundle gives back. -/
  viaTemp (q : SmRequest) (call : Bool) (p : TrPlace) (g : TrState) : Option TrState := do
    let (g, r, x) ← takeTemp q 1 [] [] g ⟨[], []⟩
    let g := g.emit (fetchItem x p)
    pure (g.emit (.jumpReg call false x.num :: (match r.saved with
      | [] => delays
      | (y, k) :: _ => [.slot true y k, copyItem y y])))

/-- The items of one Smider bundle, whose operations are numbered. -/
def emitBundle (q : SmRequest) (a : SmAssign) (ops : List (Nat × SmOp)) (g : TrState) : Option TrState := do
  let body : List TrPend := (ops.filter fun o => !o.2.control).map fun o => ⟨o.2.parts o.1, false⟩
  let written := body.flatMap (·.writes a)
  let control := ops.find? fun o => o.2.control
  let test : List TrPend := match control with
    | some (n, .branch nz r off) =>
      let parts := (SmOp.branch nz r off).parts n
      [⟨parts, meets ((TrPend.mk parts false).writes a) written⟩]
    | some (n, .jumpReg opc r) =>
      if opc = 0x3C ∨ !meets ((a.home (.reg (.s r))).toList) written then []
      else [⟨[{ unit := .scalar, opc := 0x30, dst := some (.temp n 0 false), any := some (.reg (.s r), 20, 16) }], true⟩]
    | _ => []
  let pends := body ++ test
  let g ← emitPends q a pends.length pends { g with items := [], held := [] }
  let g ← settleHeld q a g
  match control with
  | some (n, o) => emitControl q a n o g
  | none => pure g

/-! ### A kernel -/

/-- The Smider bundles that a branch, a return or an address in a register may lead to. -/
def trTargets (bundles : List (List (Nat × SmOp))) : List Nat :=
  let all := List.range bundles.length
  if bundles.any fun b => b.any fun o => match o.2 with
      | .jumpReg opc _ => opc != 0x3C
      | _ => false
  then all
  else (bundles.zipIdx.flatMap fun b => b.1.flatMap fun o => match o.2 with
    | .jump opc off => ((b.2 : Int) + off).toNat :: (if opc = 0x39 then [b.2 + 1] else [])
    | .branch _ _ off => [((b.2 : Int) + off).toNat]
    | _ => [])

/-- Whether every branch leads to a bundle of the kernel. -/
def trTargetsOk (bundles : List (List (Nat × SmOp))) : Bool :=
  bundles.zipIdx.all fun b => b.1.all fun o =>
    let ok (off : Int) : Bool := 0 ≤ (b.2 : Int) + off && (b.2 : Int) + off < bundles.length
    match o.2 with
    | .jump _ off => ok off
    | .branch _ _ off => ok off
    | _ => true

/-- Bundle by bundle: a bundle that control may come to from elsewhere takes no base copy for granted. -/
def trBundles (q : SmRequest) (a : SmAssign) (targets : List Nat) :
    Nat → List (List (Nat × SmOp)) → TrState → Option (List (List TrItem) × TrState)
  | _, [], g => some ([], g)
  | j, ops :: rest, g => do
    let start := if targets.contains j then { g with copies := [] } else g
    let g' ← emitBundle q a ops { start with scalars := 0, vectors := 0 }
    let g' := { g' with scalars := max g.scalars g'.scalars, vectors := max g.vectors g'.vectors }
    let (l, g'') ← trBundles q a targets (j + 1) rest g'
    pure (g'.items :: l, g'')

/-- Registers that an item reads, and those that it writes, as (file, number). -/
def TrItem.reads (i : TrItem) : List (Nat × Nat) :=
  match i with
  | .op sl w => match decodeSlot sl .w1024 w with
    | .ok x => slotReads Be.reset x
    | .error _ => []
  | .slot load r _ => if load then [] else [(r.file, r.num)]
  | .jump _ g _ => [guardReg g]
  | .jumpReg _ _ n => [(1, n)]
  | .nop => []

def TrItem.writes (i : TrItem) : List (Nat × Nat) :=
  match i with
  | .op sl w => match decodeSlot sl .w1024 w with
    | .ok x => (slotWrites x).filter fun r => r != (0, 0) && r.1 != 9 && r.1 != 2
    | .error _ => []
  | .slot load r _ => if load then [(r.file, r.num)] else []
  | _ => []

/-- Whether control may leave the sequence after an item. -/
def TrItem.leaves (i : TrItem) : Bool :=
  match i with
  | .jump .. => true
  | .jumpReg .. => true
  | .op .sb w => w == encodeSlot (.ret always)
  | _ => false

/-- A read of a register, so that no write of it is under way afterwards under WAIT (R99). -/
def awaitReg (r : Nat × Nat) : TrItem := copyItem ⟨r.1, r.2⟩ ⟨r.1, r.2⟩

/-- An earlier result that lands later would undo a later one (R66): a register is read before its next write, and before
control leaves or another bundle may come to the code that follows. `open_` are the registers written and not yet read. -/
def closeWrites (endJoin : Bool) : List TrItem → List (Nat × Nat) → List TrItem × List (Nat × Nat)
  | [], open_ => if endJoin then (open_.map awaitReg, []) else ([], open_)
  | i :: is, open_ =>
    let rd := i.reads
    let wr := i.writes
    let first := if i.leaves then open_.filter fun r => !rd.contains r else open_.filter fun r => wr.contains r && !rd.contains r
    let open' := if i.leaves then [] else (open_.filter fun r => !rd.contains r && !wr.contains r) ++ wr
    let (rest, o) := closeWrites endJoin is open'
    (first.map awaitReg ++ i :: rest, o)

/-- The same for the bundles of a kernel. -/
def closeBundles (targets : List Nat) : Nat → List (List TrItem) → List (Nat × Nat) → List (List TrItem)
  | _, [], _ => []
  | j, b :: bs, open_ =>
    let (l, o) := closeWrites (targets.contains (j + 1)) b open_
    l :: closeBundles targets (j + 1) bs o

/-- The operations of a kernel by bundle, numbered in bundle and slot order (R400). -/
def smBundles : Nat → List Nat → Except Unit (List (List (Nat × SmOp)))
  | _, [] => .ok []
  | n, v :: vs => do
    let ops ← smBundle v
    let rest ← smBundles (n + ops.length) vs
    pure (ops.zipIdx.map (fun o => (n + o.2, o.1)) :: rest)

/-- A translated kernel before its addresses are known: its items by Smider bundle, and the kept slots that it uses. -/
structure TrKernel where
  items : List (List TrItem)
  kept : List Bool
deriving DecidableEq, Repr

/-- Whether it uses the spill area. -/
def TrKernel.spills (k : TrKernel) : Bool := k.items.any fun b => b.any fun i => match i with
  | .slot .. => true
  | _ => false

/-- Translate the bundles of a kernel; none where no register of the request can hold what an operation needs. -/
def trKernel (q : SmRequest) (a : SmAssign) (bundles : List (List (Nat × SmOp))) : Option TrKernel :=
  if !trTargetsOk bundles then none
  else
    let targets := trTargets bundles
    match trBundles q a targets 0 bundles ⟨[], [], [], 0, 0, 0⟩ with
    | none => none
    | some (l, g) =>
      some ⟨closeBundles targets 0 l [], List.replicate g.scalars false ++ List.replicate g.vectors true⟩

/-! ### Words and the map (R92, R94) -/

/-- The depth of a slot under the top of the spill area. -/
def slotDepth (ranges kept : List Bool) (k : SpillSlot) : Nat :=
  let d := slotDepths (ranges ++ kept) 0
  let s := kept.filter fun v => !v
  match k with
  | .range k => d.getD k 0
  | .kept false k => d.getD (ranges.length + k) 0
  | .kept true k => d.getD (ranges.length + s.length + k) 0

/-- A bundle of one slot word at width 1024. -/
def oneSlot (sl : Slot) (w : BitVec 48) : Nat :=
  let width := match sl with
    | .va => 3
    | .vb => 12
    | .vc => 48
    | _ => 0
  2 ^ (6 + sl.rank) + width + w.toNat * 2 ^ (32 + 48 * sl.rank)

/-- Where the bundles of each Smider bundle begin. -/
def itemStarts (at_ : Nat) : List (List TrItem) → List Nat
  | [] => []
  | b :: bs => at_ :: itemStarts (at_ + b.length) bs

/-- The native bundle of an item at address `pc` of Smider bundle `j`; the area holds `units` units. -/
def TrItem.bundle (q : SmRequest) (ranges kept : List Bool) (units : Nat) (starts : List Nat) (j pc : Nat) (i : TrItem) : Nat :=
  match i with
  | .op sl w => oneSlot sl w
  | .nop => 0
  | .slot load r k =>
    let size := if r.isVector then 6 else 3
    let z := if r.isVector then 128 else 8
    let ofs := (64 * units - slotDepth ranges kept k) / z
    oneSlot .ma (nativeWord (if load then 1 else 2) (r.num * 2 ^ 24 + dataFileOf r.file * 2 ^ 21 + (q.spillBase.getD 0) * 2 ^ 17 +
      size * 2 ^ 14 + ofs))
  | .jump call g off =>
    let delta := (starts.getD ((j : Int) + off).toNat 0 : Int) - pc
    let f : FBJ := ⟨g, 2, BitVec.ofInt 26 delta⟩
    oneSlot .sb (encodeSlot (if call then .call f else .br f))
  | .jumpReg call annul n =>
    let f : FBI := ⟨always, if annul then 2 else 0, BitVec.ofNat 4 n⟩
    oneSlot .sb (encodeSlot (if call then .calli f else .bri f))

/-- The native bundles of a translated kernel whose spill area ends bank `bank`, and the Smider bundle of each, which the
.cx.smider section's map gives (R92). The first bundle sets the spill base where there is one, and two bundles at the end
stand where a last branch's delay bundles are fetched. -/
def TrKernel.assemble (q : SmRequest) (ranges : List Bool) (bank : Nat) (k : TrKernel) : List Nat × List Nat :=
  let units := areaUnits (ranges ++ k.kept)
  let base := (bank + 1) * 65536 - 64 * units
  let first := if k.spills then [oneSlot .ma (nativeWord 0x0E ((q.spillBase.getD 0) * 2 ^ 24 + base))] else []
  let starts := itemStarts first.length k.items
  let body := (k.items.zip starts).zipIdx.flatMap fun x =>
    x.1.1.zipIdx.map fun i => (i.1.bundle q ranges k.kept units starts x.2 (x.1.2 + i.2), x.2)
  let pad := if ((k.items.getLast?.bind (·.getLast?)).map (·.leaves)).getD false then [0, 0] else []
  (first ++ body.map (·.1) ++ pad, first.map (fun _ => 0) ++ body.map (·.2) ++ pad.map fun _ => k.items.length - 1)

end Sys2Proof.Machine
end

