-- ==== Sys2Proof/Machine/Loader.lean ====
section
/-! DEFINITION. The loader's work on an image (R84 to R89, R94, R161, R401): header and sections, the scratchpad plan and its
placement on a core, Smider kernels, timing profiles and errata. It is done before a launch; what it gives is written into
memory by HEADWATER_TABLE_WRITE and the overlay loads. -/

namespace Sys2Proof.Machine

/-! ### Header and sections (R84, R85) -/

/-- The header fields that a loadable image fixes. -/
structure ImageHeader where
  class64 : Bool
  lsb : Bool
  osabi : Nat
  machine : Nat
  exec : Bool
  flags : Half
deriving DecidableEq, Repr

/-- The timing profile, e_flags[3:0]. -/
def ImageHeader.profile (h : ImageHeader) : Nat := bitsOf h.flags.toNat 0 4

/-- The image holds only Smider bundle code, e_flags[4]. -/
def ImageHeader.smider (h : ImageHeader) : Bool := h.flags.getLsbD 4

/-- The headers that the loader takes (R84). -/
def ImageHeader.ok (h : ImageHeader) : Bool :=
  h.class64 && h.lsb && h.osabi == 0 && h.machine == 0xCA70 && h.exec && (h.profile == 5 || h.profile == 7)
    && bitsOf h.flags.toNat 5 27 == 0

/-- The sections of R85. -/
inductive ImageSection
  | bundle | cc | opblk | plan | timetable | smider | profile | errata
deriving DecidableEq, Repr

/-- A section's sh_type, its ALLOC and EXECINSTR flags, and its alignment. -/
def ImageSection.row : ImageSection → Nat × Bool × Bool × Nat
  | .bundle => (1, true, true, 64)
  | .cc => (1, true, true, 4)
  | .opblk => (1, true, false, 64)
  | .plan => (0x70000001, false, false, 8)
  | .timetable => (0x70000002, false, false, 64)
  | .smider => (0x70000003, false, false, 16)
  | .profile => (0x70000004, false, false, 8)
  | .errata => (0x70000005, false, false, 4)

/-- The bytes of the fourteen instruction-scratchpad regions left to kernels and control-core code (R85, R251). -/
def kernelBytes : Nat := 14 * 8192

/-- Whether the bundles between two overlay boundaries and the control-core code resident with them fit (R85). -/
def residentOk (bundles ccBytes : Nat) : Bool := 64 * bundles + ccBytes ≤ kernelBytes

/-! ### The scratchpad plan (R86, R87) -/

/-- A plan record. -/
structure PlanRec where
  kernel : Nat
  bank : Nat
  phase : Nat
  reloc : Bool
  offset : Nat
  size : Nat
  first : Nat
  last : Nat
deriving DecidableEq, Repr

/-- The record of two words (R86). -/
def planRec (w0 w1 : Nat) : PlanRec :=
  { kernel := bitsOf w0 48 16, bank := bitsOf w0 44 4, phase := bitsOf w0 42 2, reloc := bitOf w0 41
    offset := bitsOf w0 30 10, size := bitsOf w0 15 15, first := bitsOf w1 0 32, last := bitsOf w1 32 32 }

/-- The words of a record; reserved bits are zero. -/
def PlanRec.words (r : PlanRec) : Nat × Nat :=
  (r.kernel * 2 ^ 48 + r.bank * 2 ^ 44 + r.phase * 2 ^ 42 + natOfBool r.reloc * 2 ^ 41 + r.offset * 2 ^ 30 + r.size * 2 ^ 15,
    r.last * 2 ^ 32 + r.first)

/-- The first byte of a buffer, and the byte after its last: banks are 64 KiB, and a buffer runs on into the next. -/
def PlanRec.lo (r : PlanRec) : Nat := r.bank * 65536 + r.offset * 64
def PlanRec.hi (r : PlanRec) : Nat := r.lo + r.size * 64

/-- A record's own rules: PHASE 0 to 2, 1 to 16,384 units, FIRST not above LAST, and no byte past bank 15. -/
def PlanRec.ok (r : PlanRec) : Bool :=
  r.phase ≤ 2 && 1 ≤ r.size && r.size ≤ 16384 && r.first ≤ r.last && r.hi ≤ 16 * 65536

/-- Byte ranges that meet. -/
def PlanRec.meets (a b : PlanRec) : Bool := a.lo < b.hi && b.lo < a.hi

/-- Live ranges that meet; both ends belong to a range. -/
def PlanRec.livesWith (a b : PlanRec) : Bool := a.first ≤ b.last && b.first ≤ a.last

/-- The plan of one kernel: buffers whose bytes meet live apart (R87). -/
def planOk : List PlanRec → Bool
  | [] => true
  | r :: rs => r.ok && rs.all (fun x => !(r.meets x && r.livesWith x)) && planOk rs

/-- A record `k` banks further up. -/
def PlanRec.rebase (k : Nat) (r : PlanRec) : PlanRec := { r with bank := r.bank + k }

/-- The bank offset at which a second kernel is placed beside a first on one core: 0 where no bytes meet; else, where
every buffer may be rebased, the least of 1 to 15 that keeps every buffer within bank 15 and removes every overlap; none
where the loader refuses the placement (R87). -/
def placeKernel (there new : List PlanRec) : Option Nat :=
  let free (k : Nat) : Bool :=
    (new.map (PlanRec.rebase k)).all fun r => decide (r.hi ≤ 16 * 65536) && there.all fun x => !x.meets r
  if free 0 then some 0
  else if new.all (·.reloc) then ((List.range 16).drop 1).find? free
  else none

/-- The fields of an operand block that hold a scratchpad byte address, as word, lowest bit and length, where the block uses
them: descriptors with their scales, the epilogue vectors or mask, D, buffers and tables (R87, R218 to R229, R320, R329,
R335). -/
def spadFields (form : Nat) (b : Block) : List (Nat × Nat × Nat) :=
  let on (p : Bool) (f : Nat × Nat × Nat) : List (Nat × Nat × Nat) := if p then [f] else []
  let desc (i : Nat) (scales : Bool) : List (Nat × Nat × Nat) :=
    (i, 40, 20) :: on (scales && (descAt b i).scaled) (i + 1, 44, 20)
  match formEng form with
  | .mx =>
    desc 2 true ++ desc 4 (form != 2) ++ (if form = 3 then desc 10 false else []) ++
      on (if form = 3 then mxMask b == 2 else mxFscale b || mxBias b || mxInit b == 2) (8, 12, 20) ++
      on (mxDfmt b != 0 && !dMem b) (6, 0, 57)
  | .px =>
    if form = 8 then [(2, 0, 57), (4, 0, 57)] ++ on (decide (1 ≤ sortP b)) (3, 0, 57)
    else on (!pxTmem b) (2, 0, 57) ++ [(4, 0, 57), (5, 0, 57)]
  | .ce =>
    if form = 0x12 then []
    else
      on (form == 0x10 && (ceSrc b).space == 0) (2, 0, 57) ++ on (ceSrcScaled form b && (ceSrc b).scsp == 0) (3, 0, 57) ++
        on ((ceDst b).space == 0) (4, 0, 57) ++ on (ceDstScaled b && (ceDst b).scsp == 0) (5, 0, 57)
  | .weir => on (wrSpad b) (7, 0, 57)
  | .cx => on (!(clBuf b false).1) (2, 0, 57) ++ on (!(clBuf b true).1) (3, 0, 57)

/-- The bases of the block's range entries that lie in the scratchpad (R223). -/
def spadRanges (form : Nat) (b : Block) : List (Nat × Nat × Nat) :=
  (List.range (rangeCount form b)).filterMap fun i =>
    let w := rangeBase form b + 2 * i
    if bf b w 62 2 = 0 then some (w, 0, 57) else none

/-- Add to a field of a word, modulo its size. -/
def addToField (v lo len n : Nat) : Nat := v - bitsOf v lo len * 2 ^ lo + (bitsOf v lo len + n) % 2 ^ len * 2 ^ lo

/-- An operand block of a kernel moved `k` banks up (R87). -/
def rebaseBlock (k form : Nat) (b : Block) : Block :=
  (spadFields form b ++ spadRanges form b).foldl
    (fun b' f => b'.set f.1 (BitVec.ofNat 64 (addToField (b'.getD f.1 0).toNat f.2.1 f.2.2 (65536 * k)))) b

/-- An immediate that holds a scratchpad address: its lowest bit in its section, its length, and log2 of the bytes that one
of it stands for, 0 in MLI and ADDI and 12 in LUI. Which immediates these are the image's own list says (DESIGN CHOICE,
log 88): the form of an instruction does not show it. -/
structure AddrImm where
  bit : Nat
  len : Nat
  unit : Nat
deriving DecidableEq, Repr

/-- A section's bytes, as one number, with an address immediate moved `k` banks up (R87). -/
def rebaseImm (k : Nat) (bytes : Nat) (m : AddrImm) : Nat := addToField bytes m.bit m.len (65536 * k / 2 ^ m.unit)

/-- What the loader moves of a kernel: its plan, its operand blocks with their forms, and the sections of its code with
their address immediates. -/
structure Placed where
  plan : List PlanRec
  blocks : List (Nat × Block)
  code : List (Nat × List AddrImm)
deriving DecidableEq, Repr

/-- A second kernel on a core that holds buffers `there`: moved as `placeKernel` finds, or refused (R87). -/
def placeImage (there : List PlanRec) (x : Placed) : Option Placed :=
  (placeKernel there x.plan).map fun k =>
    { plan := x.plan.map (PlanRec.rebase k), blocks := x.blocks.map fun e => (e.1, rebaseBlock k e.1 e.2)
      code := x.code.map fun e => (e.2.foldl (rebaseImm k) e.1, e.2) }

/-! ### The spill area of a translated kernel (R94) -/

/-- The highest bank of which the plan covers no byte. -/
def freeBank (plan : List PlanRec) : Option Nat :=
  (List.range 16).reverse.find? fun b => plan.all fun r => !(decide (r.lo < (b + 1) * 65536) && decide (b * 65536 < r.hi))

/-- The plan record of a spill area of `units` 64-byte units at the top of the highest free bank, live in all of a kernel
of `bundles` bundles; none where no bank is free or the area exceeds 64 KiB (R94). -/
def spillRecord (kernel units bundles : Nat) (plan : List PlanRec) : Option PlanRec :=
  if units > 1024 then none
  else (freeBank plan).map fun b =>
    { kernel, bank := b, phase := 0, reloc := true, offset := 1024 - units, size := units, first := 0, last := bundles - 1 }

/-- A loaded Smider kernel: its operations and their places, its spill record where it has one, its native bundles, and the
Smider bundle of each of them, which the .cx.smider section's map gives (R92). -/
structure SmLoaded where
  ops : List SmOp
  assign : SmAssign
  spill : Option PlanRec
  bundles : List Nat
  map : List Nat
  /-- the immediate of the spill base, bit 320 of the first bundle -/
  imms : List AddrImm
deriving DecidableEq, Repr

/-- A Smider kernel as the loader takes it, or a refusal: for a Timed launch (R26, R90), of a bundle that R91 refuses, of too
few registers, or where no bank can hold its spill area (R94, R399, R400). A kernel that spills nothing needs no area. -/
def loadSmider (timed : Bool) (bundles : List Nat) (q : SmRequest) (kernel : Nat) (plan : List PlanRec) : Except Unit SmLoaded := do
  if timed || !q.ok then .error ()
  else
    let bs ← smBundles 1 bundles
    let ops := bs.flatten.map (·.2)
    let a := assignRanges q ops
    match trKernel q a bs with
    | none => .error ()
    | some k =>
      if !k.spills then
        let w := k.assemble q a.classes 0
        pure ⟨ops, a, none, w.1, w.2, []⟩
      else
        let n := (k.assemble q a.classes 0).1.length
        match spillRecord kernel (areaUnits (a.classes ++ k.kept)) n plan with
        | none => .error ()
        | some r =>
          let w := k.assemble q a.classes r.bank
          pure ⟨ops, a, some r, w.1, w.2, [⟨320, 24, 0⟩]⟩

/-! ### Profiles and errata (R88, R89) -/

/-- The discipline that a profile record permits. -/
inductive Permits | either | elastic | timed
deriving DecidableEq, Repr

/-- The profile record, 8 bytes, of an image with profile `p` (R88). -/
def profileRec (p : Nat) (w : Nat) : Option Permits :=
  if bitsOf w 0 8 ≠ p ∨ bitsOf w 16 48 ≠ 0 then none
  else match bitsOf w 8 8 with
    | 0 => some .either
    | 1 => some .elastic
    | 2 => some .timed
    | _ => none

/-- The errata that an image of profile `p` lists, as Core.errata holds them, or a load error (R89). -/
def imageErrata (p : Nat) (ids : List Nat) : Option (BitVec 3) :=
  if p ≠ 5 ∧ !ids.isEmpty then none
  else if ids.all fun i => i == 0x00050003 || i == 0x00050011 || i == 0x00050024 then
    some (BitVec.ofNat 3 (natOfBool (ids.contains 0x00050003) + 2 * natOfBool (ids.contains 0x00050011) +
      4 * natOfBool (ids.contains 0x00050024)))
  else none

/-- The latency of a scratchpad load in profile 5, and in profile 7 (R88, R256). -/
def ldsLatency (p : Nat) : Nat := if p = 5 then 4 else 6

/-- Whether a bundle reads or writes a register: an operand, a guard, or a destination. Which registers a narrow form
reads beside depends on its stream register, so every register of its own file counts (DEDUCED, log 87). -/
def touches (v : Nat) (r : Nat × Nat) : Bool :=
  (legalOps v).any fun i =>
    (guardReg i.form.2.guard == r) || (operandReads Be.reset i).contains r || (slotWrites i).contains r ||
      (match i.form.2 with
       | .v f => isStreamType f.type.toNat && r.1 == f.sl.toSlot.file
       | .vx f => (isStreamType f.stype.toNat || isStreamType f.dtype.toNat) && r.1 == f.sl.toSlot.file
       | _ => false)

/-! #### Control paths (R88, R113)

A point of a path: the three entries of the next-PC queue, each an address with its ANNUL bit. -/

abbrev PathPt := List (Nat × Bool)

/-- Where a branch of a bundle may go, with the annulment of its delay bundles: taken, or not taken. None as the target
stands for a register's. -/
structure PathBr where
  target : Option (Option Nat)
  annul : Bool
deriving DecidableEq, Repr

/-- The ways on from a bundle at `pc`: by its branch, by a LOOP that skips its body, or in sequence; HALT ends a path. -/
def pathBrs (pc v : Nat) : List PathBr :=
  let sure (g : Guard) : Bool := g == always
  let br (g : Guard) (variant : Nat) (t : Option Nat) : List PathBr :=
    ⟨some t, variant == 2⟩ :: (if sure g then [] else [⟨none, variant == 1⟩])
  let ops := legalOps v
  let skip := ops.filterMap fun i => match i with
    | .loop f => if f.count = 0 then some (pc + f.len1.toNat + 4, sure f.g) else none
    | .loopr f => some (pc + f.len1.toNat + 4, false)
    | _ => none
  match ops.find? (fun i => i.form.2.slot == .sb && (0x38 ≤ i.form.1.toNat && i.form.1.toNat ≤ 0x3E)) with
  | some (.br f) => br f.g f.variant.toNat (some ((pc : Int) + f.off.toInt).toNat)
  | some (.call f) => br f.g f.variant.toNat (some ((pc : Int) + f.off.toInt).toNat)
  | some (.bri f) => br f.g f.variant.toNat none
  | some (.calli f) => br f.g f.variant.toNat none
  | some (.ret g) => br g 0 none
  | some (.halt g) => if sure g then [] else [⟨none, false⟩]
  | _ => match skip with
    | (t, s) :: _ => ⟨some (some t), false⟩ :: (if s then [] else [⟨none, false⟩])
    | [] => [⟨none, false⟩]

/-- The bundles that may follow address `a` in sequence: the next one, and the first of each loop body that ends at `a`. -/
def seqTargets (kernel : List Nat) (a : Nat) : List Nat :=
  (a + 1) :: ((List.range kernel.length).flatMap fun p =>
    (legalOps (kernel.getD p 0)).filterMap fun i => match i with
      | .loop f => if p + f.len1.toNat + 3 = a then some (p + 3) else none
      | .loopr f => if p + f.len1.toNat + 3 = a then some (p + 3) else none
      | _ => none)

/-- The points that may follow a point. A target that a register holds may be any bundle of the kernel. -/
def pathNext (kernel : List Nat) (p : PathPt) : List PathPt :=
  match p with
  | [(a, an), (b, bn), (c, cn)] =>
    let brs := if an then [⟨none, false⟩] else pathBrs a (kernel.getD a 0)
    brs.flatMap fun x =>
      let ts := match x.target with
        | some (some t) => [t]
        | some none => List.range kernel.length
        | none => seqTargets kernel c
      ts.map fun t => [(b, bn || x.annul), (c, cn || x.annul), (t, false)]
  | _ => []

/-- The points that a kernel may come to from its entry bundle, in at most `fuel` rounds. -/
def pathReach (kernel : List Nat) : Nat → List PathPt → List PathPt → List PathPt
  | 0, seen, _ => seen
  | fuel + 1, seen, new =>
    let next := ((new.flatMap (pathNext kernel)).eraseDups).filter fun p => !seen.contains p
    if next.isEmpty then seen else pathReach kernel fuel (seen ++ next) next

/-- The steps that an entry of the next-PC queue takes: the M steps of its profile-5 operations, else one (R157, R161). -/
def entrySteps (kernel : List Nat) (h : Nat × Bool) : Nat :=
  if h.2 then 1 else max 1 (microSteps (legalOps (kernel.getD h.1 0)))

/-- Whether some path touches a register in the fourth or fifth step after a load, from a point whose bundle begins `t`
steps after it; `fuel` bounds the bundles. -/
def pathTouches (kernel : List Nat) (r : Nat × Nat) : Nat → Nat → PathPt → Bool
  | 0, _, _ => false
  | _, _, [] => false
  | fuel + 1, t, h :: p =>
    let n := entrySteps kernel h
    (!h.2 && decide (t ≤ 5) && decide (4 < t + n) && touches (kernel.getD h.1 0) r) ||
      (decide (t + n ≤ 5) && (pathNext kernel (h :: p)).any (pathTouches kernel r fuel (t + n)))

/-- The same from the load's own bundle on, of whose operations a micro-sequence alone reaches the fourth step. -/
def loadTouched (kernel : List Nat) (r : Nat × Nat) (p : PathPt) : Bool :=
  let h := p.headD (0, true)
  ((legalOps (kernel.getD h.1 0)).any fun i => decide (4 < microStepsOf i) && (slotWrites i).contains r) ||
    (pathNext kernel p).any (pathTouches kernel r 5 (entrySteps kernel h))

/-- Whether a kernel of profile 5 runs exactly: no LDS has its destination read or written 4 or 5 bundles after it on any
control path, delay slots included (R88), where a bundle counts its M steps (R161). -/
def exactLoads (kernel : List Nat) : Bool :=
  let start : PathPt := [(0, false), (1, false), (2, false)]
  let pts := pathReach kernel (8 * kernel.length * kernel.length + 8) [start] [start]
  pts.all fun p => match p with
    | (a, false) :: _ =>
      (legalOps (kernel.getD a 0)).all fun i => match i with
        | .lds f => !loadTouched kernel (dfileCode f.dfile, f.dreg.toNat) p
        | _ => true
    | _ => true

/-- How the loader runs a profile-5 kernel. -/
inductive ProfilePlan
  /-- with profile-5 results and cycle counts, as it stands -/
  | exactly
  /-- under window-read mode WAIT: profile-5 results, more cycles -/
  | wait
  /-- as a profile-7 kernel of another schedule -/
  | rescheduled (kernel : List Nat)
  | refused
deriving DecidableEq, Repr

/-- Whether a kernel holds a profile-5 operation (R72, R157). -/
def hasP5 (kernel : List Nat) : Bool :=
  kernel.any fun v => (legalOps v).any fun i => match i with
    | .p5dot4 _ => true
    | .p5hmul _ => true
    | _ => false

/-- The rule of R88, R161 and R401: a kernel whose loads are exact runs as it stands, but in Timed not with a profile-5
operation; any other is rescheduled in Timed, and in Elastic where its load request sets the option; where rescheduling
fails a Timed kernel is refused and an Elastic one runs under WAIT. How Asistim finds another schedule is its own: `found`
is what it found (log 88). -/
def profile5 (timed option : Bool) (found : Option (List Nat)) (kernel : List Nat) : ProfilePlan :=
  if exactLoads kernel && !(timed && hasP5 kernel) then .exactly
  else if timed || option then
    match found with
    | some k => .rescheduled k
    | none => if timed then .refused else .wait
  else .wait

end Sys2Proof.Machine
end

