-- ==== Sys2Proof/Safety.lean ====
section
/-! DEFINITION. What a safe run is: every step answers a next state, and what holds of every state that the module can
be in; and when a slot operation runs its effect. -/

namespace Sys2Proof.Machine

/-- Stack memory stands in its one canonical form. -/
def State.memoryCanonical (s : State) : Bool := Memory.wf s.mem.hbm

/-- Every outcome but a refusal and a fault: the module goes on. -/
def goesOn (o : Host.Outcome State Fault Refusal) : Prop := ∃ t, o = .next t

/-- A run of `k` steps that never stops. -/
def safeRun (k : Nat) (s : State) : Prop := ∃ t, Host.Core.run Sys2Proof.core k s = .next t

/-- The guard of an operation holds, and it reads no register inside a write window, or WRMODE lets it (R64, R98 to
R101). -/
def State.clearFor (s : State) (i : Instr) : Prop :=
  s.guardOn i = true ∧ (s.wrmode s.cur = 1 ∨ s.wrmode s.cur = 2 → s.readsWindow i = false)

/-- An operation runs its effect now: its guard holds, no event stops it and nothing holds its bundle back. -/
def State.issues (s : State) (i : Instr) : Prop :=
  s.guardOn i = true ∧ slotEvents s i = [] ∧ slotStall s i = false

/-- The control core runs its own instructions, outside frozen inspection (R186). -/
def State.notInspecting (s : State) : Prop := (s.core s.cur).cc.inspect = none

end Sys2Proof.Machine
end

