-- ==== Sys2Proof/Certificates/Slice0/Obligations.lean ====
section
/-! DEFINITION. The statements for the provers. Each `Obligations.<Name>` formalises rules of the specification or what
the model draws from them; the operations they speak of are written out again here from the specification's words,
apart from the model's own. -/

open Sys2Proof Sys2Proof.Machine

namespace Sys2Proof.Spec

/-! ### The scalar forms (R103 to R111) -/

/-- W(n) of R104: an integer reduced to a 64-bit pattern. -/
def W (n : Int) : Word := BitVec.ofInt 64 n

/-- S(x) of R104: a 64-bit pattern read as a two's-complement integer. -/
def S (x : Word) : Int := if x.toNat < 2 ^ 63 then (x.toNat : Int) else (x.toNat : Int) - 2 ^ 64

/-- TruncDiv(p, q) of R104: the quotient rounded towards zero. -/
def truncDiv (p q : Int) : Int := Int.sign (p * q) * ((p.natAbs / q.natAbs : Nat) : Int)

/-- A three-operand scalar form: its constructor, its result from X and Y, and its latency. -/
structure ScalarRow where
  instr : FS3 → Instr
  value : Word → Word → Word
  lat : Nat

/-- R105, R106 and R107, row by row, with the latencies of R103. -/
def scalarRows : List ScalarRow :=
  [⟨.add, fun x y => W (x.toNat + y.toNat), 1⟩, ⟨.sub, fun x y => W (x.toNat - y.toNat), 1⟩,
    ⟨.and, fun x y => x &&& y, 1⟩, ⟨.or, fun x y => x ||| y, 1⟩, ⟨.xor, fun x y => x ^^^ y, 1⟩,
    ⟨.sll, fun x y => W (x.toNat * 2 ^ (y.toNat % 2 ^ 6)), 1⟩,
    ⟨.srl, fun x y => W (x.toNat / 2 ^ (y.toNat % 2 ^ 6)), 1⟩,
    ⟨.sra, fun x y => W (S x / 2 ^ (y.toNat % 2 ^ 6)), 1⟩,
    ⟨.slt, fun x y => if S x < S y then 1 else 0, 1⟩, ⟨.sltu, fun x y => if x.toNat < y.toNat then 1 else 0, 1⟩,
    ⟨.min, fun x y => W (min (S x) (S y)), 1⟩, ⟨.max, fun x y => W (max (S x) (S y)), 1⟩,
    ⟨.minu, fun x y => W (min x.toNat y.toNat), 1⟩, ⟨.maxu, fun x y => W (max x.toNat y.toNat), 1⟩,
    ⟨.mul, fun x y => W (x.toNat * y.toNat), 3⟩, ⟨.mulh, fun x y => W (S x * S y / 2 ^ 64), 3⟩,
    ⟨.mulhu, fun x y => W (x.toNat * y.toNat / 2 ^ 64), 3⟩,
    ⟨.div, fun x y => if y = 0 then 0xFFFFFFFFFFFFFFFF else if S x = -2 ^ 63 ∧ S y = -1 then x
        else W (truncDiv (S x) (S y)), 18⟩,
    ⟨.divu, fun x y => if y = 0 then 0xFFFFFFFFFFFFFFFF else W (x.toNat / y.toNat), 18⟩,
    ⟨.rem, fun x y => if y = 0 then x else if S x = -2 ^ 63 ∧ S y = -1 then 0
        else W (S x - truncDiv (S x) (S y) * S y), 18⟩,
    ⟨.remu, fun x y => if y = 0 then x else W (x.toNat - x.toNat / y.toNat * y.toNat), 18⟩]

/-- The bundle engine of the core whose turn it is. -/
def be (s : State) : Be := (s.core s.cur).be

/-- Register `r` of scalar file `f` (0 sa, 1 sb); sa0 reads as zero (R95). -/
def scalarReg (s : State) (f r : Nat) : Word :=
  if f = 0 then (if r = 0 then 0 else ((be s).regs.sa[r]?).getD 0) else ((be s).regs.sb[r]?).getD 0

/-- The file and the place of a scalar slot. -/
def sFile : SSlot → Nat
  | .sa => 0
  | .sb => 1

/-- A result of slot `rank` that lands in register `reg` of file `file`, bits `lo` to `lo + len − 1`, at issue SC + `lat`,
with flags `fl` for the slot's byte of VFLAGS: the one change of the state at issue. -/
def landing (s : State) (rank file reg lo len : Nat) (data : VWord) (lat : Nat) (fl : FlagSet := 0) : State :=
  s.setCore s.cur { s.core s.cur with
    be := { be s with
      landings := (be s).landings ++
        [{ file, reg, lo, len, data, due := s.sc s.cur + lat, issue := s.sc s.cur, rank, flags := fl
           flagSlot := rank - 2, src := none }] } }

/-- Land(d, v, L) of R104 for scalar slot `sl`: a result for sa0 is discarded. -/
def landScalar (s : State) (sl : SSlot) (d : BitVec 4) (v : Word) (lat : Nat) : State :=
  if sFile sl = 0 ∧ d = 0 then s else landing s (sFile sl) (sFile sl) d.toNat 0 64 (v.setWidth 1024) lat

end Sys2Proof.Spec

/-- R103 to R107: every three-operand scalar form, whatever its registers, lands its result at its latency in the slot's
own file, discards it when the destination is sa0, and changes nothing else: no flag, no trap. -/
def Obligations.ScalarThreeOperand : Prop :=
  ∀ row ∈ Spec.scalarRows, ∀ (f : FS3) (s : State), s.clearFor (row.instr f) →
    exec (row.instr f) s = .next (Spec.landScalar s f.sl f.d
      (row.value (Spec.scalarReg s (Spec.sFile f.sl) f.a.toNat) (Spec.scalarReg s (Spec.sFile f.sl) f.b.toNat)) row.lat)

namespace Sys2Proof.Spec

/-- The operations of the SI forms (R105): Y is the sign-extended immediate, and a shift takes imm[5:0]. -/
def immediateRows : List ((FSI → Instr) × (Word → BitVec 20 → Word)) :=
  [(.addi, fun x k => W (x.toNat + k.toInt)), (.andi, fun x k => x &&& W k.toInt), (.ori, fun x k => x ||| W k.toInt),
    (.xori, fun x k => x ^^^ W k.toInt), (.slli, fun x k => W (x.toNat * 2 ^ (k.toNat % 2 ^ 6))),
    (.srli, fun x k => W (x.toNat / 2 ^ (k.toNat % 2 ^ 6))), (.srai, fun x k => W (S x / 2 ^ (k.toNat % 2 ^ 6))),
    (.slti, fun x k => if S x < k.toInt then 1 else 0)]

/-- CLZ, CTZ and POPC (R108), as relations of X and the result. -/
def countRows : List ((FS2 → Instr) × (Word → Word → Prop)) :=
  [(.clz, fun x v => (x = 0 ∧ v = 64) ∨
      ∃ k < 64, x.getLsbD k = true ∧ (∀ j < 64, k < j → x.getLsbD j = false) ∧ v = W (63 - k)),
    (.ctz, fun x v => (x = 0 ∧ v = 64) ∨ ∃ k < 64, x.getLsbD k = true ∧ (∀ j < k, x.getLsbD j = false) ∧ v = W k),
    (.popc, fun x v => v = W ((Finset.univ.filter fun i : Fin 64 => x.getLsbD i = true).card))]

/-- `v` is `d` with the `len` bits from `pos` upwards replaced by the low bits of `x`. -/
def insertsField (d x v : Word) (pos len : Nat) : Prop :=
  ∀ j < 64, v.getLsbD j = if pos ≤ j ∧ j < pos + len then x.getLsbD (j - pos) else d.getLsbD j

/-- The source of CPX by file code and number (R111): bits [63:0], a narrower register zero-extended. -/
def copySource (s : State) (file r : Nat) : Word :=
  let b := be s
  let level := (b.loops[r % 4]?).getD LoopLevel.reset
  match file with
  | 0 => scalarReg s 0 r
  | 1 => scalarReg s 1 r
  | 2 => ((b.regs.ma[r]?).getD 0).setWidth 64
  | 3 => ((b.regs.mb[r]?).getD 0).setWidth 64
  | 4 => (b.regs.xf[r]?).getD 0
  | 5 => if r < 4 then W ((if level.act then 2 ^ 32 else 0) + level.lc.toNat)
         else if r < 8 then W level.li.toNat else if r < 12 then W level.lb.toNat else W level.le.toNat
  | 6 => ((b.regs.va[r]?).getD 0).setWidth 64
  | 7 => ((b.regs.vb[r]?).getD 0).setWidth 64
  | 8 => ((b.regs.vc[r]?).getD 0).setWidth 64
  | 9 => ((b.regs.fs[r]?).getD 0).setWidth 64
  | _ => (b.regs.st[r]?).getD 0

/-- A word with bits [21:8] forced to zero (R166). -/
def streamWord (v : Word) : Word := W (v.toNat / 2 ^ 22 * 2 ^ 22 + v.toNat % 2 ^ 8)

/-- The state with the bundle engine of the current core replaced. -/
def setBe (s : State) (b : Be) : State := s.setCore s.cur { s.core s.cur with be := b }

/-- A taken branch of variant `v` to `target` (R113, R116): the redirect of the step; variant 2 annuls both delay
bundles. -/
def taken (s : State) (v : BitVec 2) (target : Half) : State :=
  setBe s { be s with taken := some target, annulTwo := (be s).annulTwo || v == 2 }

/-- A branch not taken (R116): variant 1 annuls both delay bundles. -/
def notTaken (s : State) (v : BitVec 2) : State := if v = 1 then setBe s { be s with annulTwo := true } else s

/-- The link of CALL and CALLI: sb15 := PC + 3, at latency 1 (R115). -/
def linked (s : State) : State := landing s 1 1 15 0 64 (((be s).pc + 3).setWidth 1024) 1

/-- PC plus the signed offset, in bundles, modulo 2^32. -/
def relative (s : State) (off : BitVec 26) : Half := BitVec.ofInt 32 ((be s).pc.toNat + off.toInt)

/-- Bits [31:0] of register sb[r]. -/
def sbTarget (s : State) (r : Nat) : Half := (scalarReg s 1 r).setWidth 32

/-- A guard that fails, with no read inside a window that WRMODE stops (R64, R99). -/
def guardedOff (s : State) (i : Instr) : Prop :=
  s.guardOn i = false ∧ (s.wrmode s.cur = 1 ∨ s.wrmode s.cur = 2 → s.readsWindow i = false)

/-- Arming level `level` from the bundle at PC (R120): with count 0 the level is cleared and the body skipped. -/
def armed (s : State) (level : BitVec 2) (len : Nat) (count : Half) : State :=
  let b := be s
  let l := (b.loops[level.toNat]?).getD LoopLevel.reset
  if count = 0 then
    setBe s { b with loops := b.loops.setIfInBounds level.toNat { l with act := false }
                     skip := some (b.pc + BitVec.ofNat 32 len + 3) }
  else
    setBe s { b with loops := b.loops.setIfInBounds level.toNat
                      { act := true, lc := count - 1, li := 0, lb := b.pc + 3, le := b.pc + BitVec.ofNat 32 len + 2, str := l.str } }

end Sys2Proof.Spec

/-- R105 and R103: the immediate forms land their result at latency 1 in the slot's own file and change nothing else. -/
def Sys2Proof.Spec.ScalarImmediate : Prop :=
  ∀ row ∈ Spec.immediateRows, ∀ (f : FSI) (s : State), s.clearFor (row.1 f) →
    exec (row.1 f) s =
      .next (Spec.landScalar s f.sl f.d (row.2 (Spec.scalarReg s (Spec.sFile f.sl) f.a.toNat) f.imm) 1)

/-- R108: CLZ, CTZ and POPC, at latency 1. -/
def Sys2Proof.Spec.ScalarBitCounts : Prop :=
  ∀ row ∈ Spec.countRows, ∀ (f : FS2) (s : State), s.clearFor (row.1 f) →
    ∃ v, row.2 (Spec.scalarReg s (Spec.sFile f.sl) f.a.toNat) v ∧ exec (row.1 f) s = .next (Spec.landScalar s f.sl f.d v 1)

/-- R109 and R110: BEXT, BINS and the constants, at latency 1; BINS, LIH and LIT keep the other bits of d. -/
def Sys2Proof.Spec.ScalarFieldsAndConstants : Prop :=
  (∀ (f : FSF) (s : State), WellFormed (.bext f) = true → s.clearFor (.bext f) →
    exec (.bext f) s = .next (Spec.landScalar s f.sl f.d
      (Spec.W ((Spec.scalarReg s (Spec.sFile f.sl) f.a.toNat).toNat / 2 ^ f.pos.toNat % 2 ^ (f.len1.toNat + 1))) 1)) ∧
  (∀ (f : FSF) (s : State), WellFormed (.bins f) = true → s.clearFor (.bins f) →
    ∃ v, Spec.insertsField (Spec.scalarReg s (Spec.sFile f.sl) f.d.toNat) (Spec.scalarReg s (Spec.sFile f.sl) f.a.toNat) v
        f.pos.toNat (f.len1.toNat + 1) ∧ exec (.bins f) s = .next (Spec.landScalar s f.sl f.d v 1)) ∧
  (∀ (f : FSL) (s : State), s.clearFor (.lil f) →
    exec (.lil f) s = .next (Spec.landScalar s f.sl f.d (Spec.W f.imm.toNat) 1)) ∧
  (∀ (f : FSL) (s : State), s.clearFor (.lih f) →
    ∃ v, Spec.insertsField (Spec.scalarReg s (Spec.sFile f.sl) f.d.toNat) (Spec.W f.imm.toNat) v 24 24 ∧
      exec (.lih f) s = .next (Spec.landScalar s f.sl f.d v 1)) ∧
  (∀ (f : FSL) (s : State), s.clearFor (.lit f) →
    ∃ v, Spec.insertsField (Spec.scalarReg s (Spec.sFile f.sl) f.d.toNat) (Spec.W f.imm.toNat) v 48 16 ∧
      exec (.lit f) s = .next (Spec.landScalar s f.sl f.d v 1))

/-- R111 and R166: CPX copies bits [63:0] of a register of any file at latency 2; STWR writes stream register N at latency
2 with bits [21:8] forced to zero. -/
def Sys2Proof.Spec.CopyAndStreamWrite : Prop :=
  (∀ (f : FCP) (s : State), WellFormed (.cpx f) = true → s.clearFor (.cpx f) →
    exec (.cpx f) s = .next (Spec.landScalar s f.sl f.d (Spec.copySource s f.file.toNat f.src.toNat) 2)) ∧
  (∀ (f : FSW) (s : State), s.clearFor (.stwr f) →
    exec (.stwr f) s = .next (Spec.landing s (Spec.sFile f.sl) 10 f.n.toNat 0 64
      ((Spec.streamWord (Spec.scalarReg s (Spec.sFile f.sl) f.a.toNat)).setWidth 1024) 2))

/-- All four of the statements ScalarImmediate, ScalarBitCounts, ScalarFieldsAndConstants and CopyAndStreamWrite. -/
def Obligations.ScalarOtherForms : Prop := Spec.ScalarImmediate ∧ Spec.ScalarBitCounts ∧ Spec.ScalarFieldsAndConstants ∧ Spec.CopyAndStreamWrite

/-- R115 and R116: a branch whose guard holds is taken, to PC plus its offset or to bits [31:0] of its register; CALL and
CALLI land PC + 3 in sb15 at latency 1, after CALLI's own read; variant .t annuls both delay bundles. -/
def Sys2Proof.Spec.BranchesTaken : Prop :=
  (∀ (f : FBJ) (s : State), s.clearFor (.br f) →
    exec (.br f) s = .next (Spec.taken s f.variant (Spec.relative s f.off))) ∧
  (∀ (f : FBJ) (s : State), s.clearFor (.call f) →
    exec (.call f) s = .next (Spec.taken (Spec.linked s) f.variant (Spec.relative s f.off))) ∧
  (∀ (f : FBI) (s : State), s.clearFor (.bri f) →
    exec (.bri f) s = .next (Spec.taken s f.variant (Spec.sbTarget s f.a.toNat))) ∧
  (∀ (f : FBI) (s : State), s.clearFor (.calli f) →
    exec (.calli f) s = .next (Spec.taken (Spec.linked s) f.variant (Spec.sbTarget s f.a.toNat))) ∧
  ∀ (g : Guard) (s : State), s.clearFor (.ret g) →
    exec (.ret g) s = .next (Spec.taken s 0 (Spec.sbTarget s 15))

/-- R64 and R116: a branch whose guard fails is not taken and writes no link; a .nt branch then annuls both delay
bundles. -/
def Sys2Proof.Spec.BranchesNotTaken : Prop :=
  (∀ (f : FBJ) (s : State), Spec.guardedOff s (.br f) → exec (.br f) s = .next (Spec.notTaken s f.variant)) ∧
  (∀ (f : FBJ) (s : State), Spec.guardedOff s (.call f) → exec (.call f) s = .next (Spec.notTaken s f.variant)) ∧
  (∀ (f : FBI) (s : State), Spec.guardedOff s (.bri f) → exec (.bri f) s = .next (Spec.notTaken s f.variant)) ∧
  (∀ (f : FBI) (s : State), Spec.guardedOff s (.calli f) → exec (.calli f) s = .next (Spec.notTaken s f.variant)) ∧
  ∀ (g : Guard) (s : State), Spec.guardedOff s (.ret g) → exec (.ret g) s = .next s

/-- R63, R124 and R125: NOP has no effect; HALT ends issue after its step; a TRAP pends event 0x14 with SUBCAUSE 1 and its
code from the SC at which it executes, and in Timed sets mip bit 16; while another is pending it is discarded. -/
def Sys2Proof.Spec.NopHaltTrap : Prop :=
  (∀ (k : Slot) (g : Guard) (s : State), s.clearFor (.nop k g) → exec (.nop k g) s = .next s) ∧
  (∀ (g : Guard) (s : State), s.clearFor (.halt g) →
    exec (.halt g) s = .next (Spec.setBe s { Spec.be s with halted := true })) ∧
  (∀ (g : Guard) (code : BitVec 16) (s : State), s.clearFor (.trap g code) → (Spec.be s).pend14.isSome = true →
    exec (.trap g code) s = .next s) ∧
  ∀ (g : Guard) (code : BitVec 16) (s : State), s.clearFor (.trap g code) → (Spec.be s).pend14 = none →
    ∃ t e, exec (.trap g code) s = .next t ∧ (t.core s.cur).be = { Spec.be s with pend14 := some (e, s.sc s.cur) } ∧
      e.cause = 0x14 ∧ e.subcause = 1 ∧ e.tcode = code ∧ e.engine = 1 ∧
      (s.timed s.cur = true → (t.core s.cur).cc.mip = (s.core s.cur).cc.mip ||| 0x10000)

/-- All three of the statements BranchesTaken, BranchesNotTaken and NopHaltTrap. -/
def Obligations.BranchesAndEnds : Prop := Spec.BranchesTaken ∧ Spec.BranchesNotTaken ∧ Spec.NopHaltTrap

/-- R69, R120 and R123: LOOP and LOOPR arm their level from PC with body length LEN + 1, or with count 0 clear it and skip
the body; LSTRI and LSTR write a stride register at latency 1. -/
def Obligations.LoopsAndStrides : Prop :=
  (∀ (f : FLoop) (s : State), s.clearFor (.loop f) →
    exec (.loop f) s = .next (Spec.armed s f.level (f.len1.toNat + 1) (f.count.setWidth 32))) ∧
  (∀ (f : FLoopR) (s : State), s.clearFor (.loopr f) →
    exec (.loopr f) s = .next (Spec.armed s f.level (f.len1.toNat + 1) (Spec.sbTarget s f.sb.toNat))) ∧
  (∀ (f : FLstrI) (s : State), s.clearFor (.lstri f) →
    exec (.lstri f) s = .next (Spec.landing s 9 16 (32 * f.level.toNat + f.sel.toNat) 0 48
      ((BitVec.ofInt 48 f.stride.toInt).setWidth 1024) 1)) ∧
  ∀ (f : FLstr) (s : State), s.clearFor (.lstr f) →
    exec (.lstr f) s = .next (Spec.landing s 9 16 (32 * f.level.toNat + f.sel.toNat) 0 48
      (((Spec.scalarReg s 1 f.sb.toNat).setWidth 48).setWidth 1024) 1)

namespace Sys2Proof.Spec

/-! ### The vector forms (R131 to R158) -/

/-- The place of a vector slot (R61) and the code of its file (R67). -/
def vRank : VSlot → Nat
  | .va => 2
  | .vb => 3
  | .vc => 4

def vFile : VSlot → Nat
  | .va => 6
  | .vb => 7
  | .vc => 8

/-- A register of a vector slot's own file. -/
def vReg (s : State) (sl : VSlot) (r : BitVec 4) : VWord :=
  match sl with
  | .va => ((be s).regs.va[r.toNat]?).getD 0
  | .vb => ((be s).regs.vb[r.toNat]?).getD 0
  | .vc => ((be s).regs.vc[r.toNat]?).getD 0

/-- El(x, T, i) (R135): bits [es × (i + 1) − 1 : es × i]. -/
def el (es : Nat) (v : VWord) (i : Nat) : Nat := v.toNat / 2 ^ (es * i) % 2 ^ es

/-- ESize(T) in bits (R135). -/
def eSize (t : Nat) : Nat :=
  if t = 3 ∨ t = 7 then 64 else if t = 2 ∨ t = 6 ∨ t = 8 then 32 else if t = 1 ∨ t = 5 ∨ t = 9 ∨ t = 10 then 16 else 8

/-- Bits of a slot's width (R62). -/
def wBits : Width → Nat
  | .w256 => 256
  | .w512 => 512
  | .w1024 => 1024

/-- An `n`-bit pattern read as a two's-complement integer. -/
def signed (n p : Nat) : Int := if p < 2 ^ (n - 1) then (p : Int) else (p : Int) - 2 ^ n

/-- Val(p, T) of an integer type (R136): .i types are codes 0 to 3, .n types 4 to 7. -/
def val (t p : Nat) : Int := if t ≤ 3 then signed (eSize t) p else (p : Int)

/-- An integer reduced to ESize(T) bits. -/
def wrap (t : Nat) (v : Int) : Nat := (v % (2 ^ eSize t : Nat)).toNat

/-- The least and the greatest value of an integer type (R145). -/
def least (t : Nat) : Int := if t ≤ 3 then -(2 ^ (eSize t - 1) : Nat) else 0

def greatest (t : Nat) : Int := if t ≤ 3 then (2 ^ (eSize t - 1) : Nat) - 1 else (2 ^ eSize t : Nat) - 1

/-- The conditions of VCMP on two integers by AUX: eq, ne, lt, le, gt, ge (R70, R146). -/
def compares (aux : Nat) (x y : Int) : Bool :=
  match aux with
  | 0 => decide (x = y)
  | 1 => decide (x ≠ y)
  | 2 => decide (x < y)
  | 3 => decide (x ≤ y)
  | 4 => decide (x > y)
  | _ => decide (x ≥ y)

/-- One result element of an element-wise form on an integer type, from A, B and C: the exact integer before it is reduced
to the element (R141 to R147). The first argument is erratum 0x0005_0011 of R89, under which VSRA.i64 by 64 or more leaves
the element. -/
def intRows : List ((FV → Instr) × (Bool → FV → Nat → Nat → Nat → Int)) :=
  let ty (f : FV) : Nat := f.type.toNat
  let es (f : FV) : Nat := eSize f.type.toNat
  [(.vadd, fun _ f a b _ => val (ty f) a + val (ty f) b), (.vsub, fun _ f a b _ => val (ty f) a - val (ty f) b),
    (.vmul, fun _ f a b _ => val (ty f) a * val (ty f) b), (.vmin, fun _ f a b _ => min (val (ty f) a) (val (ty f) b)),
    (.vmax, fun _ f a b _ => max (val (ty f) a) (val (ty f) b)),
    (.vclamp, fun _ f a b c => min (max (val (ty f) a) (val (ty f) b)) (val (ty f) c)),
    (.vabs, fun _ f a _ _ => |val (ty f) a|), (.vneg, fun _ f a _ _ => -(val (ty f) a)),
    (.vsll, fun _ f a b _ => if b < es f then (a * 2 ^ b : Nat) else 0),
    (.vsrl, fun _ f a b _ => if b < es f then (a / 2 ^ b : Nat) else 0),
    (.vsra, fun x f a b _ => if x ∧ ty f = 3 ∧ 64 ≤ b then a else if b < es f then signed (es f) a / 2 ^ b else if signed (es f) a < 0 then -1 else 0),
    (.vadds, fun _ f a b _ => max (least (ty f)) (min (greatest (ty f)) (val (ty f) a + val (ty f) b))),
    (.vsubs, fun _ f a b _ => max (least (ty f)) (min (greatest (ty f)) (val (ty f) a - val (ty f) b))),
    (.vcmp, fun _ f a b _ => if compares f.aux.toNat (val (ty f) a) (val (ty f) b) then -1 else 0),
    (.vsel, fun _ f a b c => if 2 ^ (es f - 1) ≤ c then a else b)]

/-- Whether element `i` of VADDS or VSUBS is clamped (R145). -/
def clamps (f : FV) (v : Int) : Prop := v < least f.type.toNat ∨ greatest f.type.toNat < v

/-- Elements A, B and C of a V form. -/
def elA (s : State) (f : FV) (i : Nat) : Nat := el (eSize f.type.toNat) (vReg s f.sl f.a) i
def elB (s : State) (f : FV) (i : Nat) : Nat := el (eSize f.type.toNat) (vReg s f.sl f.b) i
def elC (s : State) (f : FV) (i : Nat) : Nat := el (eSize f.type.toNat) (vReg s f.sl f.c) i

/-- The elements of a form at its width: n = W / ESize(T) (R135). -/
def count (f : FV) : Nat := wBits f.w / eSize f.type.toNat

/-- `t` is `s` with one result of a V form on its way to bits [W−1:0] of d: its elements are `r`, its flags `fl`. -/
def lands (s : State) (f : FV) (r : Nat → Nat) (lat : Nat) (fl : FlagSet) (t : State) : Prop :=
  ∃ data : VWord, (∀ i < count f, el (eSize f.type.toNat) data i = r i) ∧
    t = landing s (vRank f.sl) (vFile f.sl) f.d.toNat 0 (wBits f.w) data lat fl

/-- The rounded float forms (R141): the exact value and whether it is invalid, from the values of A, B and C; `rd` is true
under RD, which makes an exact zero sum of opposite signs −0 (R136). -/
def roundedRows : List ((FV → Instr) × (Bool → FVal → FVal → FVal → FVal × Bool)) :=
  [(.vadd, fun rd a b _ => fAdd rd a b), (.vsub, fun rd a b _ => fAdd rd a (fNeg b)), (.vmul, fun _ a b _ => fMul a b),
    (.vfma, fun rd a b c => fFma rd a b c), (.vfms, fun rd a b c => fFma rd a b (fNeg c)),
    (.vfnma, fun rd a b c => fFma rd (fNeg a) b c)]

/-- The formats of the float types: 8 .f32, 9 .bf16, 10 .f16 (R70, R168). -/
def format (t : Nat) : FFmt := if t = 8 then ⟨8, 23, 127⟩ else if t = 9 then ⟨8, 7, 127⟩ else ⟨5, 10, 15⟩

/-- The generator of a slot after `k` draws, and the word of draw `k` (R177). -/
def genAfter (g : Half) : Nat → Half
  | 0 => g
  | k + 1 => (srDraw (genAfter g k)).1

def word (g : Half) (k : Nat) : Nat := (srDraw (genAfter g k)).2

/-- The generator of a vector slot: SRGA, SRGB or SRGC (R177). -/
def gen (s : State) (sl : VSlot) : Half :=
  match sl with
  | .va => (s.core s.cur).cc.srga
  | .vb => (s.core s.cur).cc.srgb
  | .vc => (s.core s.cur).cc.srgc

/-- The state with a vector slot's generator set. -/
def withGen (s : State) (sl : VSlot) (g : Half) : State :=
  let k := s.core s.cur
  s.setCore s.cur { k with cc := match sl with
    | .va => { k.cc with srga := g }
    | .vb => { k.cc with srgb := g }
    | .vc => { k.cc with srgc := g } }

/-- The state after `k` draws of a slot's generator where the rounding is SR, and unchanged under any other (R177). -/
def drawn (s : State) (sl : VSlot) (rnd : BitVec 3) (k : Nat) : State :=
  if rnd = 4 then withGen s sl (genAfter (gen s sl) k) else s

/-- RoundF of an exact value with its invalid flag (R136, R141), with the random word `r`. -/
def rounded (s : State) (t : Nat) (rnd : BitVec 3) (r : Nat) (v : FVal × Bool) : Nat × FlagSet :=
  let p := roundF (format t) (s.fz s.cur) (rndOf rnd) r v.1
  (p.1, p.2 ||| if v.2 then 0x10 else 0)

/-- The smaller or the larger of two float patterns (R142): −0 below +0, a NaN gives way, two NaNs give QNaN(T). -/
def floatPick (t : Nat) (smaller : Bool) (a b : Nat) : Nat :=
  let x := decodeF (format t) a
  let y := decodeF (format t) b
  if x = .nan ∧ y = .nan then qnan (format t) else if x = .nan then b else if y = .nan then a
  else if (if smaller then fLtZ y x else fLtZ x y) then b else a

/-- The conditions of VCMP on two float patterns (R146). -/
def floatCompares (t aux a b : Nat) : Bool :=
  let x := decodeF (format t) a
  let y := decodeF (format t) b
  let nan : Bool := decide (x = .nan) || decide (y = .nan)
  match aux with
  | 0 => !nan && fEq x y
  | 1 => nan || !fEq x y
  | 2 => !nan && fLt x y
  | 3 => !nan && (fLt x y || fEq x y)
  | 4 => !nan && fLt y x
  | 5 => !nan && (fLt y x || fEq x y)
  | _ => nan

/-- One result element of an unrounded form on a float type (R142, R143, R146, R147). -/
def floatRows : List ((FV → Instr) × (FV → Nat → Nat → Nat → Nat)) :=
  let ty (f : FV) : Nat := f.type.toNat
  let half (f : FV) : Nat := 2 ^ (eSize f.type.toNat - 1)
  [(.vmin, fun f a b _ => floatPick (ty f) true a b), (.vmax, fun f a b _ => floatPick (ty f) false a b),
    (.vclamp, fun f a b c => floatPick (ty f) true (floatPick (ty f) false a b) c), (.vabs, fun f a _ _ => a % half f),
    (.vneg, fun f a _ _ => if a < half f then a + half f else a - half f),
    (.vcmp, fun f a b _ => if floatCompares (ty f) f.aux.toNat a b then 2 ^ eSize (ty f) - 1 else 0),
    (.vsel, fun f a b c => if half f ≤ c then a else b)]

/-- The bitwise forms (R144). -/
def bitRows : List ((FV → Instr) × (Bool → Bool → Bool)) :=
  [(.vand, fun a b => a && b), (.vor, fun a b => a || b), (.vxor, fun a b => a ^^ b), (.vandn, fun a b => a && !b)]

/-- El(d, T, i) of VSHFL with pattern `p`, `n` elements (R149). -/
def shuffled (p n : Nat) (a b : Nat → Nat) (i : Nat) : Nat :=
  let h := n / 2
  match p with
  | 0 => a (n - 1 - i)
  | 1 => a (if i % 2 = 0 then i + 1 else i - 1)
  | 2 => if i % 2 = 0 then a (i / 2) else b ((i - 1) / 2)
  | 3 => if i % 2 = 0 then a (h + i / 2) else b (h + (i - 1) / 2)
  | 4 => if i < h then a (2 * i) else b (2 * (i - h))
  | 5 => if i < h then a (2 * i + 1) else b (2 * (i - h) + 1)
  | 6 => a (if i = 0 then n - 1 else i - 1)
  | 7 => a (if i + 1 = n then 0 else i + 1)
  | _ => a 0

/-- Op of VRED and VSCAN by AUX (R70, R150): add, min, max, and, or, xor; `r` is the node's random word. -/
def nodeOp (s : State) (f : FV) (r a b : Nat) : Nat × FlagSet :=
  let t := f.type.toNat
  match f.aux.toNat with
  | 0 => if t ≤ 7 then (wrap t (val t a + val t b), 0)
    else rounded s t f.rnd r (fAdd (decide (f.rnd = 3)) (decodeF (format t) a) (decodeF (format t) b))
  | 1 => (if t ≤ 7 then wrap t (min (val t a) (val t b)) else floatPick t true a b, 0)
  | 2 => (if t ≤ 7 then wrap t (max (val t a) (val t b)) else floatPick t false a b, 0)
  | 3 => (a &&& b, 0)
  | 4 => (a ||| b, 0)
  | _ => (a ^^^ b, 0)

/-- Whether the nodes of a reduction draw: sums of a float type under SR (R150). -/
def nodesDraw (f : FV) : Prop := f.aux = 0 ∧ 8 ≤ f.type.toNat ∧ f.rnd = 4

/-- The value of node `j` of level `l` of VRED's tree: level 0 holds the elements, and n / 2^(l−1) − (n / 2^l) draws were
made in each earlier level, n − n / 2^(l−1) in all (R150). -/
def treeNode (s : State) (f : FV) : Nat → Nat → Nat
  | 0, j => elA s f j
  | l + 1, j => (nodeOp s f (word (gen s f.sl) (count f - count f / 2 ^ l + j)) (treeNode s f l (2 * j))
      (treeNode s f l (2 * j + 1))).1

/-- The flags of that node. -/
def treeFlags (s : State) (f : FV) (l j : Nat) : FlagSet :=
  (nodeOp s f (word (gen s f.sl) (count f - count f / 2 ^ l + j)) (treeNode s f l (2 * j)) (treeNode s f l (2 * j + 1))).2

/-- Element `i` of VSCAN after `l` levels, with distances 1, 2, 4 and so on (R151); the levels before level `l` drew
`l × n − (2^l − 1)` words. -/
def scanned (s : State) (f : FV) : Nat → Nat → Nat
  | 0, i => elA s f i
  | l + 1, i =>
    if i < 2 ^ l then scanned s f l i
    else (nodeOp s f (word (gen s f.sl) (l * count f - (2 ^ l - 1) + (i - 2 ^ l))) (scanned s f l (i - 2 ^ l))
      (scanned s f l i)).1

/-- The flags of the node of element `i` in level `l`. -/
def scanFlags (s : State) (f : FV) (l i : Nat) : FlagSet :=
  (nodeOp s f (word (gen s f.sl) (l * count f - (2 ^ l - 1) + (i - 2 ^ l))) (scanned s f l (i - 2 ^ l)) (scanned s f l i)).2

end Sys2Proof.Spec

/-- R138 and R141 to R147: every element-wise form on an integer type, at every width, lands n elements at latency 2, each
the exact integer of its rule reduced to the element; only VADDS and VSUBS set a flag, SAT, and only where they clamp. On a
core whose image lists erratum 0x0005_0011, VSRA.i64 by 64 or more leaves the element (R89). -/
def Obligations.VectorInteger : Prop :=
  ∀ row ∈ Spec.intRows, ∀ (f : FV) (s : State), WellFormed (row.1 f) = true → f.type.toNat ≤ 7 →
    s.clearFor (row.1 f) →
    ∃ t fl, exec (row.1 f) s = .next t ∧
      Spec.lands s f (fun i => Spec.wrap f.type.toNat (row.2 ((s.core s.cur).errata.getLsbD 1) f (Spec.elA s f i) (Spec.elB s f i) (Spec.elC s f i))) 2 fl t ∧
      (row.1 f = .vadds f → ((∃ i < Spec.count f, Spec.clamps f
          (Spec.val f.type.toNat (Spec.elA s f i) + Spec.val f.type.toNat (Spec.elB s f i))) ↔ fl = 0x20)) ∧
      (row.1 f = .vsubs f → ((∃ i < Spec.count f, Spec.clamps f
          (Spec.val f.type.toNat (Spec.elA s f i) - Spec.val f.type.toNat (Spec.elB s f i))) ↔ fl = 0x20)) ∧
      (fl = 0 ∨ fl = 0x20 ∧ (row.1 f = .vadds f ∨ row.1 f = .vsubs f))

/-- R136, R138, R141 and R177: the rounded forms on a float type land n elements at latency 4, each the exact result rounded
once by RoundF; under SR element i takes the i-th word of the slot's generator, which advances by n; the flags of all
elements are joined. -/
def Sys2Proof.Spec.VectorFloatRounded : Prop :=
  ∀ row ∈ Spec.roundedRows, ∀ (f : FV) (s : State), WellFormed (row.1 f) = true → 8 ≤ f.type.toNat → s.clearFor (row.1 f) →
    let fmt := Spec.format f.type.toNat
    let r (i : Nat) := Spec.rounded s f.type.toNat f.rnd (Spec.word (Spec.gen s f.sl) i)
      (row.2 (decide (f.rnd = 3)) (decodeF fmt (Spec.elA s f i)) (decodeF fmt (Spec.elB s f i)) (decodeF fmt (Spec.elC s f i)))
    ∃ t fl, exec (row.1 f) s = .next t ∧
      Spec.lands (Spec.drawn s f.sl f.rnd (Spec.count f)) f (fun i => (r i).1) 4 fl t ∧
      ∀ b < 6, (fl.getLsbD b = true ↔ ∃ i < Spec.count f, (r i).2.getLsbD b = true)

/-- R138, R142, R143, R146 and R147: VMIN, VMAX, VCLAMP, VABS, VNEG, VCMP and VSEL on a float type, at latency 2, without a
flag. -/
def Sys2Proof.Spec.VectorFloatUnrounded : Prop :=
  ∀ row ∈ Spec.floatRows, ∀ (f : FV) (s : State), WellFormed (row.1 f) = true → 8 ≤ f.type.toNat → s.clearFor (row.1 f) →
    ∃ t, exec (row.1 f) s = .next t ∧
      Spec.lands s f (fun i => row.2 f (Spec.elA s f i) (Spec.elB s f i) (Spec.elC s f i)) 2 0 t

/-- Both of the statements VectorFloatRounded and VectorFloatUnrounded. -/
def Obligations.VectorFloat : Prop := Spec.VectorFloatRounded ∧ Spec.VectorFloatUnrounded

/-- R144: VAND, VOR, VXOR and VANDN combine bits [W−1:0] bit by bit, at latency 2, whatever the type. -/
def Sys2Proof.Spec.VectorBitwise : Prop :=
  ∀ row ∈ Spec.bitRows, ∀ (f : FV) (s : State), s.clearFor (row.1 f) →
    ∃ data : VWord, (∀ j < Spec.wBits f.w, data.getLsbD j = row.2 ((Spec.vReg s f.sl f.a).getLsbD j)
        ((Spec.vReg s f.sl f.b).getLsbD j)) ∧
      exec (row.1 f) s = .next (Spec.landing s (Spec.vRank f.sl) (Spec.vFile f.sl) f.d.toNat 0 (Spec.wBits f.w) data 2)

/-- R148 and R149: VPERM takes element j of a where j < n and zero otherwise; VSHFL rearranges by its pattern; both at
latency 2. -/
def Sys2Proof.Spec.VectorRearrange : Prop :=
  (∀ (f : FV) (s : State), WellFormed (.vperm f) = true → s.clearFor (.vperm f) →
    ∃ t, exec (.vperm f) s = .next t ∧
      Spec.lands s f (fun i => if Spec.elB s f i < Spec.count f then Spec.elA s f (Spec.elB s f i) else 0) 2 0 t) ∧
  ∀ (f : FV) (s : State), WellFormed (.vshfl f) = true → s.clearFor (.vshfl f) →
    ∃ t, exec (.vshfl f) s = .next t ∧
      Spec.lands s f (Spec.shuffled f.aux.toNat (Spec.count f) (Spec.elA s f) (Spec.elB s f)) 2 0 t

/-- Both of the statements VectorBitwise and VectorRearrange. -/
def Obligations.VectorBitwiseAndRearrange : Prop := Spec.VectorBitwise ∧ Spec.VectorRearrange

/-- R150 and R138: VRED lands at latency 6 the value of the fixed pairwise tree in element 0 and zero in the others; each node
rounds once and sets its own flags; sums of a float type under SR draw one word a node, level by level. -/
def Sys2Proof.Spec.VectorReduction : Prop :=
  ∀ (f : FV) (s : State), WellFormed (.vred f) = true → s.clearFor (.vred f) →
    ∀ m, 2 ^ m = Spec.count f →
    ∃ t fl, exec (.vred f) s = .next t ∧
      (Spec.nodesDraw f →
        Spec.lands (Spec.withGen s f.sl (Spec.genAfter (Spec.gen s f.sl) (Spec.count f - 1))) f
          (fun i => if i = 0 then Spec.treeNode s f m 0 else 0) 6 fl t) ∧
      (¬ Spec.nodesDraw f → Spec.lands s f (fun i => if i = 0 then Spec.treeNode s f m 0 else 0) 6 fl t) ∧
      ∀ b < 6, (fl.getLsbD b = true ↔
        ∃ l < m, ∃ j < Spec.count f / 2 ^ (l + 1), (Spec.treeFlags s f l j).getLsbD b = true)

/-- R151 and R138: VSCAN lands at latency 6 the inclusive prefix by distances 1, 2, 4 and so on, each node reading the level
before it. -/
def Sys2Proof.Spec.VectorScan : Prop :=
  ∀ (f : FV) (s : State), WellFormed (.vscan f) = true → s.clearFor (.vscan f) →
    ∀ m, 2 ^ m = Spec.count f →
    ∃ t fl, exec (.vscan f) s = .next t ∧
      (Spec.nodesDraw f →
        Spec.lands (Spec.withGen s f.sl (Spec.genAfter (Spec.gen s f.sl) (m * Spec.count f - (2 ^ m - 1)))) f
          (Spec.scanned s f m) 6 fl t) ∧
      (¬ Spec.nodesDraw f → Spec.lands s f (Spec.scanned s f m) 6 fl t) ∧
      ∀ b < 6, (fl.getLsbD b = true ↔
        ∃ l < m, ∃ i < Spec.count f, 2 ^ l ≤ i ∧ (Spec.scanFlags s f l i).getLsbD b = true)

namespace Sys2Proof.Spec

/-- The fields of stream register `n` (R162). -/
def streamBits (s : State) (n lo len : Nat) : Nat := (((be s).regs.st[n]?).getD 0).toNat / 2 ^ lo % 2 ^ len

/-- Block size B of a BLK code (R164). -/
def blockSize (blk : Nat) : Nat := if blk = 1 then 32 else if blk = 2 then 16 else 64

/-- NarrowValue (R165) of the code `p` of element `i`, with the scale byte index `ofs` of block 0 in scale register `reg`
of the slot's file: the exact value, and NV where ScaleNaN of a kind without NaN gives +0. -/
def narrow (s : State) (sl : VSlot) (n reg ofs i p : Nat) : FVal × FlagSet :=
  match kindOf (streamBits s n 0 4) with
  | none => (.nan, 0)
  | some k =>
    let blk := streamBits s n 4 4
    if blk = 0 then (kindValue k p, 0)
    else
      let e := el 8 (vReg s sl (BitVec.ofNat 4 reg)) (ofs + i / blockSize blk * streamBits s n 30 4)
      if e = 0xFF then (if k = .e4m3 ∨ k = .e5m2 then (.nan, 0) else (.fin false 0 0, 0x10))
      else (fScale ((e : Int) - 127) (kindValue k p), 0)

/-- Narrow element `i` of a VDOT operand: `isB` names operand b. -/
def dotValue (s : State) (f : FV) (isB : Bool) (i : Nat) : FVal × FlagSet :=
  let n := f.type.toNat - 16
  narrow s f.sl n (streamBits s n (if isB then 26 else 22) 4) (streamBits s n (if isB then 41 else 34) 7) i
    (el 8 (vReg s f.sl (if isB then f.b else f.a)) i)

/-- Lane `j` of VDOT (R152): c and the four exact products added exactly and rounded once; a product of 0 and ∞, or
infinities of both signs among the terms, gives QNaN with NV. -/
def dotLane (s : State) (f : FV) (j : Nat) : Nat × FlagSet :=
  let c := decodeF (format 8) (el 32 (vReg s f.sl f.c) j)
  let ps := (List.range 4).map fun k => fMul (dotValue s f false (4 * j + k)).1 (dotValue s f true (4 * j + k)).1
  let terms := c :: ps.map (·.1)
  let invalid := ps.any (·.2) || (terms.contains (.inf false) && terms.contains (.inf true))
  let scaleFlags := (List.range 4).foldl (fun a k => a ||| (dotValue s f false (4 * j + k)).2 |||
    (dotValue s f true (4 * j + k)).2) (0 : FlagSet)
  let sum := if invalid then .nan else (ps.map (·.1)).foldl (fun v p => (fAdd (decide (f.rnd = 3)) v p).1) c
  let r := roundF (format 8) (s.fz s.cur) (rndOf f.rnd) (word (gen s f.sl) j) sum
  (r.1, r.2 ||| scaleFlags ||| if invalid then 0x10 else 0)

/-- An integer clamped to the range of a type (R145, R153): the pattern, and whether it was clamped. -/
def clamped (t : Nat) (v : Int) : Nat × Bool :=
  (wrap t (max (least t) (min (greatest t) v)), decide (v < least t ∨ greatest t < v))

/-- A value converted to a type 0 to 10 under RND (R153). -/
def toType (s : State) (t : Nat) (rnd : BitVec 3) (r : Nat) (v : FVal) : Nat × FlagSet :=
  if 8 ≤ t then roundF (format t) (s.fz s.cur) (rndOf rnd) r v
  else
    match v with
    | .nan => (0, 0x10)
    | .inf neg => (wrap t (if neg then least t else greatest t), 0x10)
    | .fin neg mag e =>
      let n := roundInt (rndOf rnd) r neg mag e
      let c := clamped t n.1
      (c.1, (if c.2 then 0x10 else 0) ||| if n.2 then 0x01 else 0)

/-- Element `p` of a VCVT with narrow index `i` (R153). -/
def converted (s : State) (f : FVX) (r i p : Nat) : Nat × FlagSet :=
  let st := f.stype.toNat
  let dt := f.dtype.toNat
  let n := (if 16 ≤ st then st else dt) - 16
  let own := streamBits s n 22 4
  let ofs := streamBits s n 34 7
  if 16 ≤ st then
    let v := narrow s f.sl n own ofs i p
    let q := toType s dt f.rnd r v.1
    (q.1, q.2 ||| v.2)
  else if 16 ≤ dt then
    match kindOf (streamBits s n 0 4) with
    | none => (0, 0)
    | some k =>
      let v := decodeF (format st) p
      let blk := streamBits s n 4 4
      let e := el 8 (vReg s f.sl (BitVec.ofNat 4 own)) (ofs + i / blockSize blk * streamBits s n 30 4)
      if v = .nan ∨ (blk ≠ 0 ∧ e = 0xFF) then
        (if k = .e4m3 ∨ k = .e5m2 then (if p < 2 ^ (eSize st - 1) then 0x7F else 0xFF, 0) else (0, 0x10))
      else toKind k (s.fz s.cur) (rndOf f.rnd) r (some (if blk = 0 then 0 else (e : Int) - 127)) v
  else if st ≤ 7 then
    if dt ≤ 7 then let c := clamped dt (val st p); (c.1, if c.2 then 0x20 else 0)
    else toType s dt f.rnd r (.fin (decide (val st p < 0)) (val st p).natAbs 0)
  else toType s dt f.rnd r (decodeF (format st) p)

/-- The special results of R156, and NaN for a NaN: the pattern and the flags. `erratum` is 0x0005_0003 of R89, under which
LOG2 of +0 gives the most negative finite value. -/
def special (erratum : Bool) (op : SfOp) (p : Nat) : Option (Nat × FlagSet) :=
  let neg := decide (2 ^ 31 ≤ p)
  let zero := p % 2 ^ 31 = 0
  let inf := p % 2 ^ 31 = 0x7F800000
  let sign := if neg then 0x80000000 else 0
  if 0x7F800000 < p % 2 ^ 31 then some (0x7FC00000, 0)
  else
    match op with
    | .exp2 => if inf then some (if neg then 0 else 0x7F800000, 0) else none
    | .log2 => if erratum ∧ p = 0 then some (0xFF7FFFFF, 0) else if zero then some (0xFF800000, 0x08) else if neg then some (0x7FC00000, 0x10)
        else if inf then some (0x7F800000, 0) else if p = 0x3F800000 then some (0, 0) else none
    | .rcp => if zero then some (sign + 0x7F800000, 0x08) else if inf then some (sign, 0) else none
    | .rsqrt => if zero then some (sign + 0x7F800000, 0x08) else if neg then some (0x7FC00000, 0x10)
        else if inf then some (0, 0) else none
    | .sqrt => if zero then some (sign, 0) else if neg then some (0x7FC00000, 0x10)
        else if inf then some (0x7F800000, 0) else none
    | .tanh => if zero then some (sign, 0) else if inf then some (sign + 0x3F800000, 0) else none
    | .sigmoid => if inf then some (if neg then 0 else 0x3F800000, 0) else none
    | .erf => if zero then some (sign, 0) else if inf then some (sign + 0x3F800000, 0) else none
    | .sinpi => if inf then some (0x7FC00000, 0x10) else if zero then some (sign, 0) else none
    | .cospi => if inf then some (0x7FC00000, 0x10) else none

/-- The FS forms (R71, R155). -/
def fsRows : List ((FFS → Instr) × SfOp) :=
  [(.exp2, .exp2), (.log2, .log2), (.rcp, .rcp), (.rsqrt, .rsqrt), (.sqrt, .sqrt), (.tanh, .tanh), (.sigmoid, .sigmoid),
    (.erf, .erf), (.sinpi, .sinpi), (.cospi, .cospi)]

/-- The source of an FS form: va, vb, vc or fs (R71). -/
def fsSource (s : State) (f : FFS) : VWord :=
  match f.file.toNat with
  | 0 => vReg s .va f.src
  | 1 => vReg s .vb f.src
  | 2 => vReg s .vc f.src
  | _ => ((be s).regs.fs[f.src.toNat]?).getD 0

/-- A scalar register of VINS and VBCST. -/
def scalarOf (s : State) (isSb : Bool) (r : BitVec 4) : Nat := (scalarReg s (if isSb then 1 else 0) r.toNat).toNat

/-- The source of VCPX: va, vb, vc or fs by file code 6 to 9. -/
def vcpxSource (s : State) (file : Nat) (r : BitVec 4) : VWord :=
  match file with
  | 6 => vReg s .va r
  | 7 => vReg s .vb r
  | 8 => vReg s .vc r
  | _ => ((be s).regs.fs[r.toNat]?).getD 0

/-- The two holding registers of a slot (R129). -/
def holding (s : State) (sl : VSlot) (n : Nat) : VWord := ((be s).regs.mh[2 * (vRank sl - 2) + n]?).getD 0

/-- Lane `j` of micro-step `k` of P5DOT4 (R158). -/
def dot4Lane (s : State) (f : FV) (k j : Nat) : Nat :=
  wrap 2 (signed 32 (el 32 (vReg s f.sl f.d) j) +
    signed 8 (el 8 (holding s f.sl 0) (4 * j + k - 1)) * signed 8 (el 8 (holding s f.sl 1) (4 * j + k - 1)))

/-- An f16 subnormal taken as zero of its sign (R158). -/
def flushed (p : Nat) : Nat := if p % 2 ^ 15 < 2 ^ 10 then p / 2 ^ 15 * 2 ^ 15 else p

/-- H(i) of R158. -/
def hmul (s : State) (f : FV) (i : Nat) : Nat × FlagSet :=
  let v := fMul (decodeF (format 10) (flushed (el 16 (holding s f.sl 0) i))) (decodeF (format 10) (flushed (el 16 (holding s f.sl 1) i)))
  let r := roundF (format 10) (s.fz s.cur) .rne 0 v.1
  let fl := r.2 ||| if v.2 then 0x10 else 0
  if r.1 % 2 ^ 15 < 2 ^ 10 ∧ r.1 % 2 ^ 15 ≠ 0 then (r.1 / 2 ^ 15 * 2 ^ 15, fl ||| 0x03) else (r.1, fl)

/-- A bundle engine after micro-step `u.index` of `m` (R157, R160): the next micro-step, or after the last one the next step
of the queue, or the halt of the bundle, where an event detected after issue traps (R127); a resumed sequence clears MSTEP. -/
def afterMicro (b : Be) (u : Micro) (m : Nat) : Be :=
  if u.index + 1 < m then { b with micro := some { u with index := u.index + 1 } }
  else { b with micro := none, mstep := if u.resumed then 0 else b.mstep, state := if !b.halted then .running else
      if b.trapEv = [] then .idle else .trapping }

/-- A bundle engine in a micro-sequence of `m` steps, at step `u.index`, that no BE interrupt stops. -/
def inMicro (s : State) (u : Micro) (m : Nat) : Prop :=
  s.live s.cur = true ∧ (be s).state = .micro m ∧ (be s).micro = some u ∧ (be s).pend14 = none

/-- A bundle that begins a micro-sequence of `m` steps with operation `i` of slot `sl` alone (R157). -/
def begun (b : Be) (sl : VSlot) (m : Nat) (i : Instr) : Be :=
  { b with micro := some { slots := BitVec.ofNat 3 (2 ^ (vRank sl - 2)), index := 1, pc := b.pc, ops := [i], resumed := false }
           state := .micro m }

end Sys2Proof.Spec

/-- R152, R138 and R177: VDOT lands W / 32 lanes of f32 at latency 4, each c plus four exact products of narrow values
rounded once; under SR lane j takes the j-th word of the slot's generator. A stream register that R164 rejects is left
out: the form is an illegal instruction there. -/
def Sys2Proof.Spec.VectorDot : Prop :=
  ∀ (f : FV) (s : State), WellFormed (.vdot f) = true → s.clearFor (.vdot f) →
    streamIllegal (Spec.be s) (.vdot f) = false →
    ∃ fl, ∃ data : VWord, (∀ j < Spec.wBits f.w / 32, Spec.el 32 data j = (Spec.dotLane s f j).1) ∧
      exec (.vdot f) s = .next (Spec.landing (Spec.drawn s f.sl f.rnd (Spec.wBits f.w / 32)) (Spec.vRank f.sl)
        (Spec.vFile f.sl) f.d.toNat 0 (Spec.wBits f.w) data 4 fl) ∧
      ∀ b < 6, (fl.getLsbD b = true ↔ ∃ j < Spec.wBits f.w / 32, (Spec.dotLane s f j).2.getLsbD b = true)

/-- All three of the statements VectorReduction, VectorScan and VectorDot. -/
def Obligations.VectorReductionScanAndDot : Prop := Spec.VectorReduction ∧ Spec.VectorScan ∧ Spec.VectorDot

/-- R153 and R138: VCVT converts n = W / max(ESize) elements at latency 3, from the lower or upper half of a wider source and
to the lower or upper half of a narrower destination, whose other elements it leaves. -/
def Sys2Proof.Spec.VectorConvert : Prop :=
  ∀ (f : FVX) (s : State), WellFormed (.vcvt f) = true → s.clearFor (.vcvt f) →
    streamIllegal (Spec.be s) (.vcvt f) = false →
    let es := Spec.eSize f.stype.toNat
    let ed := Spec.eSize f.dtype.toNat
    let n := Spec.wBits f.w / max es ed
    let h := if f.half then n else 0
    let src (i : Nat) := if es < ed then h + i else i
    let dst := if ed < es then h else 0
    let narrowAt (i : Nat) := if 16 ≤ f.stype.toNat then src i else dst + i
    let sr := f.rnd = 4 ∧ ¬(f.stype.toNat ≤ 7 ∧ f.dtype.toNat ≤ 7)
    let r (i : Nat) := Spec.converted s f (Spec.word (Spec.gen s f.sl) i) (narrowAt i)
      (Spec.el es (Spec.vReg s f.sl f.a) (src i))
    ∃ t fl, ∃ data : VWord, exec (.vcvt f) s = .next t ∧ (∀ i < n, Spec.el ed data i = (r i).1) ∧
      (sr → t = Spec.landing (Spec.withGen s f.sl (Spec.genAfter (Spec.gen s f.sl) n)) (Spec.vRank f.sl) (Spec.vFile f.sl)
        f.d.toNat (dst * ed) (n * ed) data 3 fl) ∧
      (¬ sr → t = Spec.landing s (Spec.vRank f.sl) (Spec.vFile f.sl) f.d.toNat (dst * ed) (n * ed) data 3 fl) ∧
      ∀ b < 6, (fl.getLsbD b = true ↔ ∃ i < n, (r i).2.getLsbD b = true)

/-- R154: VINS writes the bits of one element and no other; VEXT moves one element down with zeros above; VBCST fills every
element; VCPX copies bits [W−1:0]; each at latency 2, without a flag. -/
def Sys2Proof.Spec.VectorMove : Prop :=
  (∀ (f : FVI) (s : State), WellFormed (.vins f) = true → s.clearFor (.vins f) →
    ∃ data : VWord, Spec.el (Spec.eSize f.type.toNat) data 0 = Spec.scalarOf s f.isSb f.s % 2 ^ Spec.eSize f.type.toNat ∧
      exec (.vins f) s = .next (Spec.landing s (Spec.vRank f.sl) (Spec.vFile f.sl) f.d.toNat
        (f.idx.toNat * Spec.eSize f.type.toNat) (Spec.eSize f.type.toNat) data 2)) ∧
  (∀ (f : FVE) (s : State), WellFormed (.vext f) = true → s.clearFor (.vext f) →
    let es := Spec.eSize f.type.toNat
    ∃ data : VWord, (∀ i < Spec.wBits f.w / es, Spec.el es data i =
        if i = 0 then Spec.el es (Spec.vReg s f.sl f.a) f.idx.toNat else 0) ∧
      exec (.vext f) s = .next (Spec.landing s (Spec.vRank f.sl) (Spec.vFile f.sl) f.d.toNat 0 (Spec.wBits f.w) data 2)) ∧
  (∀ (f : FVB) (s : State), WellFormed (.vbcst f) = true → s.clearFor (.vbcst f) →
    let es := Spec.eSize f.type.toNat
    ∃ data : VWord, (∀ i < Spec.wBits f.w / es, Spec.el es data i = Spec.scalarOf s f.isSb f.s % 2 ^ es) ∧
      exec (.vbcst f) s = .next (Spec.landing s (Spec.vRank f.sl) (Spec.vFile f.sl) f.d.toNat 0 (Spec.wBits f.w) data 2)) ∧
  ∀ (f : FVCP) (s : State), WellFormed (.vcpx f) = true → s.clearFor (.vcpx f) →
    ∃ data : VWord, (∀ j < Spec.wBits f.w, data.getLsbD j = (Spec.vcpxSource s f.file.toNat f.src).getLsbD j) ∧
      exec (.vcpx f) s = .next (Spec.landing s (Spec.vRank f.sl) (Spec.vFile f.sl) f.d.toNat 0 (Spec.wBits f.w) data 2)

/-- Both of the statements VectorConvert and VectorMove. -/
def Obligations.VectorConvertAndMove : Prop := Spec.VectorConvert ∧ Spec.VectorMove

/-- R155 and R156: an FS form lands 32 f32 results in fsD at latency 8; every special source gives the pattern and sets the
flags of R156, and a NaN gives 0x7FC0_0000; on a core whose image lists erratum 0x0005_0003, LOG2 of +0 gives 0xFF7F_FFFF
(R89). -/
def Obligations.SpecialFunctions : Prop :=
  ∀ row ∈ Spec.fsRows, ∀ (f : FFS) (s : State), WellFormed (row.1 f) = true →
    s.clearFor (row.1 f) →
    ∃ fl, ∃ data : VWord, exec (row.1 f) s = .next (Spec.landing s 5 9 f.d.toNat 0 1024 data 8 fl) ∧
      ∀ i < 32, ∀ r, Spec.special ((s.core s.cur).errata.getLsbD 0) row.2 (Spec.el 32 (Spec.fsSource s f) i) = some r →
        Spec.el 32 data i = r.1 ∧ ∀ b < 6, r.2.getLsbD b = true → fl.getLsbD b = true

/-- R157 and R158: micro-step 0 of a profile-5 operation alone in its bundle latches its sources in the holding registers, and
for P5DOT4 moves c to d, at latency 1; the micro-sequence of 5 or 3 steps begins. -/
def Sys2Proof.Spec.ProfileFiveStart : Prop :=
  (∀ (f : FV) (s : State), s.clearFor (.p5dot4 f) → (Spec.be s).micro = none → (Spec.be s).state = .running →
    ∃ c : VWord, (∀ j < Spec.wBits f.w, c.getLsbD j = (Spec.vReg s f.sl f.c).getLsbD j) ∧
      let s1 := Spec.landing s (Spec.vRank f.sl) 11 (2 * (Spec.vRank f.sl - 2)) 0 (Spec.wBits f.w) (Spec.vReg s f.sl f.a) 1
      let s2 := Spec.landing s1 (Spec.vRank f.sl) 11 (2 * (Spec.vRank f.sl - 2) + 1) 0 (Spec.wBits f.w)
        (Spec.vReg s f.sl f.b) 1
      let s3 := Spec.landing s2 (Spec.vRank f.sl) (Spec.vFile f.sl) f.d.toNat 0 (Spec.wBits f.w) c 1
      exec (.p5dot4 f) s = .next (Spec.setBe s3 (Spec.begun (Spec.be s3) f.sl 5 (.p5dot4 f)))) ∧
  ∀ (f : FV) (s : State), s.clearFor (.p5hmul f) → (Spec.be s).micro = none → (Spec.be s).state = .running →
    let s1 := Spec.landing s (Spec.vRank f.sl) 11 (2 * (Spec.vRank f.sl - 2)) 0 (Spec.wBits f.w) (Spec.vReg s f.sl f.a) 1
    let s2 := Spec.landing s1 (Spec.vRank f.sl) 11 (2 * (Spec.vRank f.sl - 2) + 1) 0 (Spec.wBits f.w) (Spec.vReg s f.sl f.b) 1
    exec (.p5hmul f) s = .next (Spec.setBe s2 (Spec.begun (Spec.be s2) f.sl 3 (.p5hmul f)))

/-- R157, R158 and R160: micro-step k of a pending P5DOT4 adds the k-th byte products to the lanes of d modulo 2^32; micro-steps
1 and 2 of P5HMUL write the lower and the upper half of the f16 products; both at latency 1. The index then advances, and
after the last micro-step the queue goes on. -/
def Sys2Proof.Spec.ProfileFiveMicroSteps : Prop :=
  (∀ (f : FV) (s : State) (u : Micro), Spec.inMicro s u 5 → u.ops = [.p5dot4 f] → 1 ≤ u.index → u.index ≤ 4 →
    ∃ data : VWord, (∀ j < Spec.wBits f.w / 32, Spec.el 32 data j = Spec.dot4Lane s f u.index j) ∧
      let s1 := Spec.landing s (Spec.vRank f.sl) (Spec.vFile f.sl) f.d.toNat 0 (Spec.wBits f.w) data 1
      exec .p5MicroStep s = .next (Spec.setBe s1 (Spec.afterMicro (Spec.be s1) u 5))) ∧
  ∀ (f : FV) (s : State) (u : Micro), Spec.inMicro s u 3 → u.ops = [.p5hmul f] → 1 ≤ u.index → u.index ≤ 2 →
    let h := Spec.wBits f.w / 32
    let first := if u.index = 1 then 0 else h
    ∃ fl, ∃ data : VWord, (∀ i < h, Spec.el 16 data i = (Spec.hmul s f (first + i)).1) ∧
      (∀ b < 6, (fl.getLsbD b = true ↔ ∃ i < h, (Spec.hmul s f (first + i)).2.getLsbD b = true)) ∧
      let s1 := Spec.landing s (Spec.vRank f.sl) (Spec.vFile f.sl) f.d.toNat (16 * first) (16 * h) data 1 fl
      exec .p5MicroStep s = .next (Spec.setBe s1 (Spec.afterMicro (Spec.be s1) u 3))

/-- Both of the statements ProfileFiveStart and ProfileFiveMicroSteps. -/
def Obligations.ProfileFive : Prop := Spec.ProfileFiveStart ∧ Spec.ProfileFiveMicroSteps

namespace Sys2Proof.Spec

/-! ### Memory slots (R256 to R268) and fabric slot (R361 to R369) -/

/-- The place of a memory slot (R61); its file has the codes 2 and 3 (R67). -/
def mRank : MSlot → Nat
  | .ma => 6
  | .mb => 7

def mFile : MSlot → Nat
  | .ma => 2
  | .mb => 3

/-- An address register of a memory slot. -/
def aReg (s : State) (sl : MSlot) (r : BitVec 4) : Nat :=
  match sl with
  | .ma => (((be s).regs.ma[r.toNat]?).getD 0).toNat
  | .mb => (((be s).regs.mb[r.toNat]?).getD 0).toNat

/-- The file code of a 3-bit data file: 0 va, 1 vb, 2 vc, 3 sa, 4 sb, 5 fs (R67). -/
def dataFile (d : BitVec 3) : Nat :=
  if d = 0 then 6 else if d = 1 then 7 else if d = 2 then 8 else if d = 3 then 0 else if d = 4 then 1 else 9

/-- Bytes(SIZE): 1, 2, 4, 8, 32, 64 or 128 (R261). -/
def bytes (z : BitVec 3) : Nat := if z.toNat < 4 then 2 ^ z.toNat else 2 ^ (z.toNat + 1)

/-- A data register as the bits that a store takes from. -/
def dataReg (s : State) (d : BitVec 3) (r : BitVec 4) : VWord :=
  match dataFile d with
  | 6 => vReg s .va r
  | 7 => vReg s .vb r
  | 8 => vReg s .vc r
  | 0 => (scalarReg s 0 r.toNat).setWidth 1024
  | 1 => (scalarReg s 1 r.toNat).setWidth 1024
  | _ => ((be s).regs.fs[r.toNat]?).getD 0

/-- EA of R261: (register + offset × bytes) mod 2^48. -/
def ea (s : State) (sl : MSlot) (a : BitVec 4) (ofs : Int) (n : Nat) : Nat :=
  (((aReg s sl a : Int) + ofs * n) % (2 ^ 48 : Nat)).toNat

/-- Bytes of a number, byte 0 least significant (R4). -/
def bytesFrom (v : VWord) (n : Nat) : List Byte := (List.range n).map fun i => BitVec.ofNat 8 (v.toNat / 2 ^ (8 * i))

/-- A private-store access of a memory slot on its way: it samples or performs at issue + 2 (R256). -/
def access (s : State) (sl : MSlot) (kind : SpKind) (addr n : Nat) (bs : List Byte) (tag : BitVec 16) : SpAccess :=
  { kind, addr, bytes := bs, len := n, tag, due := s.sc s.cur + 2, issue := s.sc s.cur, rank := mRank sl
    id := (be s).nextId, pc := (be s).pc, poison := false, keep := 0 }

/-- The bundle engine once an access has started. -/
def started (s : State) (a : SpAccess) : Be :=
  { be s with nextId := (be s).nextId + 1, accesses := (be s).accesses ++ [a] }

/-- A landing that waits for access `id` (LoadInto, R261): a scalar register takes the bytes zero-extended, a vector register
keeps its other bits; nothing lands in sa0. -/
def awaiting (s : State) (b : Be) (rank : Nat) (d : BitVec 3) (r : BitVec 4) (n lat id flagSlot : Nat) : Be :=
  if dataFile d = 0 ∧ r = 0 then b
  else
    { b with landings := b.landings ++
      [{ file := dataFile d, reg := r.toNat, lo := 0, len := if dataFile d ≤ 1 then 64 else 8 * n, data := 0
         due := s.sc s.cur + lat, issue := s.sc s.cur, rank, flags := 0, flagSlot, src := some id }] }

/-- A private-store access is aligned and inside its store (R246, R249, R261). -/
def inStore (ea n size : Nat) : Prop := ea % n = 0 ∧ ea < size

/-- A long-class access reaches its home (R243, R257, R258, R303): the range registers give `ia`, its page is present and
admits it, a write finds its shadow binding, and a Timed launch has a lease left for it. -/
def reaches (s : State) (i : Instr) (ia : Nat) (rd wr atomic : Bool) : Prop :=
  s.longIA i = .ok ia ∧
    ∃ pa leaf size, s.translateHome (s.partOf s.cur) ia rd wr = .ok pa leaf size ∧
      (wr = true → ∃ u, s.bindForWrite (s.core s.cur).dom (s.partOf s.cur) ia (.ok pa leaf size) = .ok u) ∧
      ∀ id d, (s.core s.cur).dom = some id → s.domOf s.cur = some d → d.timed = true →
        (s.takeLease id d (s.partOf s.cur) ia (slotBytes i) (s.sc s.cur + 512) pa atomic).isSome = true

/-- The request of a long-class access of a memory slot, due at issue + 512 with its issue SC as its stamp (R256). -/
def isRequest (s : State) (sl : MSlot) (kind : ReqKind) (ea ia n : Nat) (data : VWord) (op : BitVec 4) (cmp : Word)
    (r : LongReq) : Prop :=
  r.core = s.cur ∧ r.dom = (s.core s.cur).dom ∧ r.part = s.partOf s.cur ∧ r.kind = kind ∧ r.ia = ia ∧ r.bytes = n ∧
    r.va % 2 ^ 48 = ea ∧ r.data = data ∧ r.op = op ∧ r.cmp = cmp ∧ r.due = s.sc s.cur + 512 ∧ r.issue = s.sc s.cur ∧
    r.rank = mRank sl ∧ r.id = (be s).nextId ∧ r.timed = s.timed s.cur ∧ r.pc = (be s).pc

/-- The fields of a stream's state register (R362), as numbers. -/
def txseq (s : State) (x : BitVec 3) : Nat := (((be s).regs.xf[x.toNat]?).getD 0).toNat / 2 ^ 48
def rxseq (s : State) (x : BitVec 3) : Nat := (((be s).regs.xf[x.toNat]?).getD 0).toNat / 2 ^ 32 % 2 ^ 16
def outOf (s : State) (x : BitVec 3) : Nat := (((be s).regs.xf[x.toNat]?).getD 0).toNat / 2 ^ 8 % 2 ^ 10
def rlds (s : State) (x : BitVec 3) : Nat := (((be s).regs.xf[x.toNat]?).getD 0).toNat % 2 ^ 8

/-- A state register of the given fields; reserved bits read zero. -/
def xfWord (tx rx out rl : Nat) : Word := W ((tx % 2 ^ 16 * 2 ^ 48 + rx % 2 ^ 16 * 2 ^ 32 + out % 2 ^ 10 * 2 ^ 8 + rl % 2 ^ 8 : Nat))

/-- The bundle engine with the state register of stream `x` set. -/
def withXf (b : Be) (x : BitVec 3) (v : Word) : Be :=
  { b with regs := { b.regs with xf := b.regs.xf.setIfInBounds x.toNat v } }

/-- The flit of a SEND (R364). -/
def sendFlit (s : State) (f : FXD) : Flit :=
  let x := s.stream s.cur f.x.toNat
  { route := x.route, srcModule := s.moduleId, srcCore := s.cur, dstCore := x.pcore, stream := x.pstream
    seq := BitVec.ofNat 16 (txseq s f.x), bytes := bytes f.size
    data := BitVec.ofNat 1024 ((dataReg s f.dfile f.dreg).toNat % 2 ^ (8 * bytes f.size)), poisoned := false
    depSC := s.sc s.cur, timed := s.timed s.cur, req := none, plan := none }

/-- The delivery of a flit inside the module after the route's latency L: at an SC of the launch's domain where the receiver
shares it (R364), else at a basin count. -/
def deliveryOf (s : State) (f : Flit) (l : Nat) : Due :=
  if (s.core s.cur).dom = (s.core f.dstCore).dom ∧ (s.core s.cur).dom ≠ none then
    ⟨(s.core s.cur).dom, s.sc s.cur + l, .op f.dstCore (.flitArrival f)⟩
  else ⟨none, s.basin + l, .op f.dstCore (.flitArrival f)⟩

/-- The number of parts of a remote access (R365): one as an RDMA operation on a KIND 2 stream. -/
def parts (s : State) (i : Instr) (x : BitVec 3) : Nat :=
  if (s.stream s.cur x.toNat).kind = 2 then 1
  else match s.xfParts i with
    | .ok ps => ps.length
    | .error _ => 0

/-- A landing at SC `due` comes no earlier than 514 SC and the L + LB of each part of a KIND 1 access after issue (R366). -/
def afterParts (s : State) (i : Instr) (x : BitVec 3) (due : Nat) : Prop :=
  s.sc s.cur + 514 ≤ due ∧ ((s.stream s.cur x.toNat).kind ≠ 2 → ∀ ps, s.xfParts i = .ok ps → ∀ q ∈ ps,
    let r := s.route (s.partOf s.cur) q.route
    s.sc s.cur + 514 + r.l + r.lb ≤ due)

/-- The message of an RDMA operation on a KIND 2 stream leaves the module (R365). -/
def leaves (s : State) (x : BitVec 3) (m : OutMsg) (t : State) : Prop :=
  (s.stream s.cur x.toNat).kind = 2 → t.io.out = s.io.out ++ [m]

end Sys2Proof.Spec

/-- R256, R261 and R263 to R266: the scratchpad, accumulator and tag forms, aligned and inside their store, start one access
that samples or performs at issue + 2; a load's register waits for it, to land at +6 (LDS, SLD, LDT) or +4 (LDA); SLD
advances its address register at +1. -/
def Sys2Proof.Spec.PrivateMemoryForms : Prop :=
  (∀ (f : FM) (s : State), WellFormed (.lds f) = true → s.clearFor (.lds f) → memStall s (.lds f) = false →
    let n := Spec.bytes f.size
    let a := Spec.ea s f.sl f.areg f.ofs.toInt n
    Spec.inStore a n (2 ^ 20) →
    exec (.lds f) s = .next (Spec.setBe s
      (Spec.awaiting s (Spec.started s (Spec.access s f.sl .load a n [] 0)) (Spec.mRank f.sl) f.dfile f.dreg n 6 (Spec.be s).nextId 4))) ∧
  (∀ (f : FM) (s : State), WellFormed (.lda f) = true → s.clearFor (.lda f) → memStall s (.lda f) = false →
    let n := Spec.bytes f.size
    let a := Spec.ea s f.sl f.areg f.ofs.toInt n
    Spec.inStore a n (2 ^ 17) →
    exec (.lda f) s = .next (Spec.setBe s
      (Spec.awaiting s (Spec.started s (Spec.access s f.sl .accLoad a n [] 0)) (Spec.mRank f.sl) f.dfile f.dreg n 4 (Spec.be s).nextId 4))) ∧
  (∀ (f : FLdt) (s : State), WellFormed (.ldt f) = true → s.clearFor (.ldt f) → memStall s (.ldt f) = false →
    let n := Spec.bytes f.size
    let a := Spec.ea s f.sl f.areg f.ofs.toInt n
    Spec.inStore a n (2 ^ 20) →
    exec (.ldt f) s = .next (Spec.setBe s
      (Spec.awaiting s (Spec.started s (Spec.access s f.sl .tagLoad a n [] ((Spec.scalarReg s 1 f.t.toNat).setWidth 16)))
        (Spec.mRank f.sl) f.dfile f.dreg n 6 (Spec.be s).nextId 4))) ∧
  (∀ (f : FSld) (s : State), WellFormed (.sld f) = true → s.clearFor (.sld f) → memStall s (.sld f) = false →
    let n := Spec.bytes f.size
    let a := Spec.aReg s f.sl f.areg
    Spec.inStore a n (2 ^ 20) →
    exec (.sld f) s = .next (Spec.landing (Spec.setBe s
        (Spec.awaiting s (Spec.started s (Spec.access s f.sl .load a n [] 0)) (Spec.mRank f.sl) f.dfile f.dreg n 6 (Spec.be s).nextId 4))
      (Spec.mRank f.sl) (Spec.mFile f.sl) f.areg.toNat 0 48
      (BitVec.ofNat 1024 (((a : Int) + Spec.signed 16 (Spec.streamBits s f.st.toNat 48 16)) % (2 ^ 48 : Nat)).toNat) 1)) ∧
  (∀ (f : FM) (s : State), WellFormed (.sts f) = true → s.clearFor (.sts f) → memStall s (.sts f) = false →
    let n := Spec.bytes f.size
    let a := Spec.ea s f.sl f.areg f.ofs.toInt n
    Spec.inStore a n (2 ^ 20) →
    exec (.sts f) s = .next (Spec.setBe s
      (Spec.started s (Spec.access s f.sl .store a n (Spec.bytesFrom (Spec.dataReg s f.dfile f.dreg) n) 0)))) ∧
  (∀ (f : FM) (s : State), WellFormed (.sta f) = true → s.clearFor (.sta f) → memStall s (.sta f) = false →
    let n := Spec.bytes f.size
    let a := Spec.ea s f.sl f.areg f.ofs.toInt n
    Spec.inStore a n (2 ^ 17) →
    exec (.sta f) s = .next (Spec.setBe s
      (Spec.started s (Spec.access s f.sl .accStore a n (Spec.bytesFrom (Spec.dataReg s f.dfile f.dreg) n) 0)))) ∧
  ∀ (f : FM) (s : State), WellFormed (.stag f) = true → s.clearFor (.stag f) → memStall s (.stag f) = false →
    let a := Spec.ea s f.sl f.areg f.ofs.toInt 2
    Spec.inStore a 2 (2 ^ 20) →
    exec (.stag f) s = .next (Spec.setBe s
      (Spec.started s (Spec.access s f.sl .tagStore a 2 [] ((Spec.dataReg s f.dfile f.dreg).setWidth 16))))

/-- R246, R249 and R261: a private-store access that is misaligned is a range fault with SUBCAUSE 4, one beyond the store
SUBCAUSE 3, and it has no effect but the event. -/
def Sys2Proof.Spec.PrivateMemoryFaults : Prop :=
  ∀ (f : FM) (i : Instr) (size : Nat) (s : State), (i, size) ∈ [(.lds f, 2 ^ 20), (.sts f, 2 ^ 20), (.lda f, 2 ^ 17), (.sta f, 2 ^ 17)] →
    WellFormed i = true → s.clearFor i →
    let n := Spec.bytes f.size
    let a := Spec.ea s f.sl f.areg f.ofs.toInt n
    ¬ Spec.inStore a n size →
    ∃ e, exec i s = .next (s.beRaise s.cur e) ∧ e.cause = 0x05 ∧ e.subcause = (if a % n = 0 then 3 else 4) ∧
      e.engine = 1 ∧ e.slot = Spec.mRank f.sl ∧ e.faddr = BitVec.ofNat 64 a

/-- Both of the statements PrivateMemoryForms and PrivateMemoryFaults. -/
def Obligations.PrivateMemory : Prop := Spec.PrivateMemoryForms ∧ Spec.PrivateMemoryFaults

/-- R256, R263 and R267: a long-class access that reaches its home leaves one request there, due at issue + 512, and for LDL
and AMO a register that waits for its data, to land at +1024. -/
def Sys2Proof.Spec.LongMemoryForms : Prop :=
  (∀ (f : FM) (s : State) (ia : Nat), WellFormed (.ldl f) = true → s.issues (.ldl f) →
    Spec.reaches s (.ldl f) ia true false false →
    let n := Spec.bytes f.size
    ∃ t r, exec (.ldl f) s = .next t ∧ t.mem.reqs = s.mem.reqs ++ [r] ∧
      Spec.isRequest s f.sl .load (Spec.ea s f.sl f.areg f.ofs.toInt n) ia n 0 0 0 r ∧
      Spec.be t = Spec.awaiting s { Spec.be s with nextId := (Spec.be s).nextId + 1 } (Spec.mRank f.sl) f.dfile f.dreg n 1024
        (Spec.be s).nextId 4) ∧
  (∀ (f : FM) (s : State) (ia : Nat), WellFormed (.stl f) = true → s.issues (.stl f) →
    Spec.reaches s (.stl f) ia false true false →
    let n := Spec.bytes f.size
    ∃ t r, exec (.stl f) s = .next t ∧ t.mem.reqs = s.mem.reqs ++ [r] ∧
      Spec.isRequest s f.sl .store (Spec.ea s f.sl f.areg f.ofs.toInt n) ia n (Spec.dataReg s f.dfile f.dreg) 0 0 r ∧
      Spec.be t = { Spec.be s with nextId := (Spec.be s).nextId + 1 }) ∧
  ∀ (f : FAmo) (s : State) (ia : Nat), WellFormed (.amo f) = true → s.issues (.amo f) →
    Spec.reaches s (.amo f) ia true true true →
    let n := Spec.bytes f.size
    ∃ t r, exec (.amo f) s = .next t ∧ t.mem.reqs = s.mem.reqs ++ [r] ∧
      Spec.isRequest s f.sl .atomic (Spec.ea s f.sl f.areg f.ofs.toInt n) ia n (Spec.dataReg s f.dfile f.dreg) f.op
        ((Spec.dataReg s f.dfile f.cmp).setWidth 64) r ∧
      Spec.be t = Spec.awaiting s { Spec.be s with nextId := (Spec.be s).nextId + 1 } (Spec.mRank f.sl) f.dfile f.dreg n 1024
        (Spec.be s).nextId 4

/-- R262 and R268: MLI, MADDI and MCPX write an address register modulo 2^48 at latency 1, 1 and 2; REL in Elastic holds
back later accesses until those issued up to its SC have performed, and in Timed never stalls. -/
def Sys2Proof.Spec.AddressFormsAndRelease : Prop :=
  (∀ (f : FMli) (s : State), s.clearFor (.mli f) →
    exec (.mli f) s = .next (Spec.landing s (Spec.mRank f.sl) (Spec.mFile f.sl) f.d.toNat 0 48 (BitVec.ofNat 1024 f.imm.toNat) 1)) ∧
  (∀ (f : FMadd) (s : State), s.clearFor (.maddi f) →
    exec (.maddi f) s = .next (Spec.landing s (Spec.mRank f.sl) (Spec.mFile f.sl) f.d.toNat 0 48
      (BitVec.ofNat 1024 (((Spec.aReg s f.sl f.a : Int) + f.imm.toInt) % (2 ^ 48 : Nat)).toNat) 1)) ∧
  (∀ (f : FMCP) (s : State), WellFormed (.mcpx f) = true → s.clearFor (.mcpx f) →
    exec (.mcpx f) s = .next (Spec.landing s (Spec.mRank f.sl) (Spec.mFile f.sl) f.d.toNat 0 48
      (((Spec.copySource s f.file.toNat f.src.toNat).setWidth 48).setWidth 1024) 2)) ∧
  ∀ (f : FRel) (s : State), s.clearFor (.rel f) →
    exec (.rel f) s = .next (if s.timed s.cur then s else Spec.setBe s { Spec.be s with relIds := [s.sc s.cur] })

/-- Both of the statements LongMemoryForms and AddressFormsAndRelease. -/
def Obligations.LongMemory : Prop := Spec.LongMemoryForms ∧ Spec.AddressFormsAndRelease

/-- R364: a SEND that issues sends one flit with TXSEQ, which advances modulo 2^16: on a usable on-module route it arrives
after L, on a usable Bylor route it goes to the switch of its first link; an unusable route loses it (R396). A RECV takes
the transfer that its stream holds, advances RXSEQ, and lands the low bytes at +2, zeros where the transfer is shorter. -/
def Sys2Proof.Spec.FabricSendReceive : Prop :=
  (∀ (f : FXD) (s : State), WellFormed (.send f) = true → s.issues (.send f) →
    let x := s.stream s.cur f.x.toNat
    let r := s.route (s.partOf s.cur) x.route
    ∃ t, exec (.send f) s = .next t ∧
      Spec.be t = { Spec.withXf (Spec.be s) f.x (Spec.xfWord (Spec.txseq s f.x + 1) (Spec.rxseq s f.x) (Spec.outOf s f.x)
        (Spec.rlds s f.x)) with sendWait := 0 } ∧
      ((r.v = true ∧ (x.kind = 0 ∨ r.bylor = false)) →
        t.calendar = s.calendar ++ [Spec.deliveryOf s (Spec.sendFlit s f) r.l] ∧ t.io = s.io) ∧
      ((r.v = true ∧ x.kind ≠ 0 ∧ r.bylor = true) → t.calendar = s.calendar ∧
        t.io.inject = s.io.inject ++ [⟨Spec.sendFlit s f, 17, r.link0, s.basin, max 1 ((Spec.bytes f.size + 127) / 128),
          (s.core s.cur).dom, ((s.domOf s.cur).map (·.replays)).getD 0⟩]) ∧
      (r.v = false → t.calendar = s.calendar ∧ t.io = s.io)) ∧
  ∀ (f : FXD) (s : State) (h : Held), WellFormed (.recv f) = true → s.issues (.recv f) →
    s.recvHeld s.cur f.x.toNat = some h → h.flit.poisoned = false →
    let b := Spec.withXf (Spec.be s) f.x (Spec.xfWord (Spec.txseq s f.x) (Spec.rxseq s f.x + 1) (Spec.outOf s f.x)
      (Spec.rlds s f.x))
    ∃ t, exec (.recv f) s = .next t ∧
      (t.core s.cur).fab = { (s.core s.cur).fab with rx := (s.core s.cur).fab.rx.setIfInBounds f.x.toNat none } ∧
      t.mem = s.mem ∧
      Spec.be t = if Spec.dataFile f.dfile = 0 ∧ f.dreg = 0 then b
        else { b with landings := b.landings ++
          [{ file := Spec.dataFile f.dfile, reg := f.dreg.toNat, lo := 0
             len := if Spec.dataFile f.dfile ≤ 1 then 64 else 8 * Spec.bytes f.size
             data := BitVec.ofNat 1024 (h.flit.data.toNat % 2 ^ (8 * min h.flit.bytes (Spec.bytes f.size)))
             due := s.sc s.cur + 2, issue := s.sc s.cur, rank := 8, flags := 0, flagSlot := 6, src := none }] }

/-- R365 to R367: an RLD or RAMO that issues takes a landing-area slot, raises RLDS by one, and leaves its register waiting for
the reply, to land no earlier than issue + 514 plus the largest L + LB of its parts; an RST raises OUT by the number of
its parts; on a KIND 2 stream each becomes an RDMA READ, ATOMIC or WRITE on QPN. -/
def Sys2Proof.Spec.FabricRemoteForms : Prop :=
  (∀ (f : FXO) (s : State) (slot : Nat), WellFormed (.rld f) = true → s.issues (.rld f) → freeLanding (s.core s.cur) = some slot →
    ∃ t, exec (.rld f) s = .next t ∧
      (t.core s.cur).fab.loads = (s.core s.cur).fab.loads ++ [(slot, f.x.toNat, (Spec.be s).nextId, Spec.parts s (.rld f) f.x)] ∧
      (Spec.be t).regs = (Spec.withXf (Spec.be s) f.x (Spec.xfWord (Spec.txseq s f.x) (Spec.rxseq s f.x) (Spec.outOf s f.x)
        (Spec.rlds s f.x + 1))).regs ∧
      (¬(Spec.dataFile f.dfile = 0 ∧ f.dreg = 0) → ∃ l, (Spec.be t).landings.getLast? = some l ∧
        l.file = Spec.dataFile f.dfile ∧ l.reg = f.dreg.toNat ∧ l.src = some (Spec.be s).nextId ∧
        Spec.afterParts s (.rld f) f.x l.due ∧ l.flagSlot = 16 + f.x.toNat) ∧
      Spec.leaves s f.x (.hostRead (s.stream s.cur f.x.toNat).qpn (s.stream s.cur f.x.toNat).rkey (xfVa (s.stream s.cur f.x.toNat) (.rld f)) (Spec.bytes f.size)) t) ∧
  (∀ (f : FXA) (s : State) (slot : Nat), WellFormed (.ramo f) = true → s.issues (.ramo f) → freeLanding (s.core s.cur) = some slot →
    ∃ t, exec (.ramo f) s = .next t ∧
      (t.core s.cur).fab.loads = (s.core s.cur).fab.loads ++ [(slot, f.x.toNat, (Spec.be s).nextId, Spec.parts s (.ramo f) f.x)] ∧
      (Spec.be t).regs = (Spec.withXf (Spec.be s) f.x (Spec.xfWord (Spec.txseq s f.x) (Spec.rxseq s f.x) (Spec.outOf s f.x)
        (Spec.rlds s f.x + 1))).regs ∧
      (¬(Spec.dataFile f.dfile = 0 ∧ f.dreg = 0) → ∃ l, (Spec.be t).landings.getLast? = some l ∧
        l.file = Spec.dataFile f.dfile ∧ l.reg = f.dreg.toNat ∧ l.src = some (Spec.be s).nextId ∧
        Spec.afterParts s (.ramo f) f.x l.due ∧ l.flagSlot = 16 + f.x.toNat) ∧
      Spec.leaves s f.x (.hostAtomic (s.stream s.cur f.x.toNat).qpn (s.stream s.cur f.x.toNat).rkey (xfVa (s.stream s.cur f.x.toNat) (.ramo f)) (f.op == 7)
        ((Spec.dataReg s f.dfile f.dreg).setWidth 64) ((Spec.dataReg s f.dfile f.cmp).setWidth 64)) t) ∧
  ∀ (f : FXO) (s : State), WellFormed (.rst f) = true → s.issues (.rst f) →
    ∃ t, exec (.rst f) s = .next t ∧
      Spec.be t = Spec.withXf (Spec.be s) f.x (Spec.xfWord (Spec.txseq s f.x) (Spec.rxseq s f.x)
        (Spec.outOf s f.x + Spec.parts s (.rst f) f.x) (Spec.rlds s f.x)) ∧
      Spec.leaves s f.x (.hostWrite (s.stream s.cur f.x.toNat).qpn (s.stream s.cur f.x.toNat).rkey (xfVa (s.stream s.cur f.x.toNat) (.rst f))
        (Spec.bytesFrom (Spec.dataReg s f.dfile f.dreg) (Spec.bytes f.size))) t

/-- R368 and R369: a FLUSH that issues sends one marker on each of the stream's routes, in order, or asks for the
acknowledgement of a KIND 2 stream's queue pair; an ACKW that issues changes no state. -/
def Sys2Proof.Spec.FabricFlushAckWait : Prop :=
  (∀ (f : FXF) (s : State), s.issues (.flush f) →
    let x := s.stream s.cur f.x.toNat
    let own (k : Nat) : Bool := (s.route (s.partOf s.cur) (x.route + k)).dmod == s.moduleId
    ∃ t, exec (.flush f) s = .next t ∧ t.cores = s.cores ∧ t.mem = s.mem ∧
      (x.kind = 2 → t.io.out = s.io.out ++ [.marker 0 s.cur f.x.toNat] ∧ t.calendar = s.calendar) ∧
      (x.kind ≠ 2 →
        t.io.out = s.io.out ++ ((List.range x.stripes).filter fun k => !own k).map (fun k => .marker (x.route + k) s.cur f.x.toNat) ∧
        t.calendar.length = s.calendar.length + ((List.range x.stripes).filter own).length)) ∧
  ∀ (f : FXW) (s : State), s.issues (.ackw f) → exec (.ackw f) s = .next s

/-- All three of the statements FabricSendReceive, FabricRemoteForms and FabricFlushAckWait. -/
def Obligations.FabricForms : Prop := Spec.FabricSendReceive ∧ Spec.FabricRemoteForms ∧ Spec.FabricFlushAckWait

namespace Sys2Proof.Spec

/-! ### Steps of the bundle engine (R66, R113, R114, R127, R140, R247) -/

/-- Whether register `r` exists in the file of code `f` (R67; 11 the holding registers, 16 the stride registers) and takes
writes: sa0 discards them (R95). -/
def writable (f r : Nat) : Prop :=
  match f with
  | 0 => 1 ≤ r ∧ r < 16
  | 1 => r < 16
  | 2 => r < 16
  | 3 => r < 16
  | 6 => r < 16
  | 7 => r < 16
  | 8 => r < 16
  | 9 => r < 8
  | 10 => r < 16
  | 11 => r < 6
  | 16 => r < 128
  | _ => False

/-- A landing whose SC has come and whose data are there. -/
def landsNow (s : State) (l : Landing) : Prop :=
  l ∈ (be s).landings ∧ l.due ≤ s.sc s.cur ∧ l.src = none

/-- `l` is issued later than `k`, or in the same bundle by a later slot (R66). -/
def laterThan (l k : Landing) : Prop := k.issue < l.issue ∨ (k.issue = l.issue ∧ k.rank < l.rank)

/-- Bits `lo` to `lo + len − 1` of `old` replaced by the low bits of `data` (R131). -/
def merged (old : VWord) (lo len : Nat) (data new : VWord) (width : Nat) : Prop :=
  ∀ j < width, new.getLsbD j = if lo ≤ j ∧ j < lo + len then data.getLsbD (j - lo) else old.getLsbD j

/-- The width in bits of a register of a file (R67). -/
def widthOf (f : Nat) : Nat := if f = 0 ∨ f = 1 ∨ f = 10 then 64 else if f = 2 ∨ f = 3 ∨ f = 16 then 48 else 1024

/-- No performance counter of the current core is enabled (R394). -/
def noCounters (s : State) : Prop := (s.core s.cur).pcsel.toList.all (fun x => !x.getLsbD 8) = true

/-- Byte `a` of the current core's scratchpad; an unlisted byte reads zero. -/
def spadByte (s : State) (a : Nat) : Byte := byteAt (s.core s.cur).eng.spad a

/-- A bundle engine that is about to take a step: running, in a core whose domain runs, with no trap to take at the
boundary (R113, R127). -/
def atStep (s : State) : Prop :=
  s.live s.cur = true ∧ (be s).state = .running ∧ (s.timed s.cur = true ∨ ((be s).trapEv = [] ∧ (be s).pend14 = none))

/-- The queue entry NPQ[n]. -/
def npq (b : Be) (n : Nat) : NpqEntry := (b.npq[n]?).getD ⟨0, false, 0⟩

/-- SeqNext of R121 for an address that no armed level ends at. -/
def sequential (b : Be) (a : Half) : Prop :=
  ∀ n < 4, let l := (b.loops[n]?).getD LoopLevel.reset; ¬(l.act = true ∧ l.le = a)

/-- A queue entry as epc0 to epc2 hold it (R126). -/
def epcWord (e : NpqEntry) : Word := W ((if e.annul then 2 ^ 63 else 0) + e.ends.toNat * 2 ^ 32 + e.addr.toNat : Nat)

end Sys2Proof.Spec

/-- R66, R98, R131, R132 and R95: the results whose SC has come land, and nothing else changes a register: of those that meet
in one register the later-issued stands and changes only its own bits; a register that no result names keeps its value;
sa0 keeps reading zero; every other core, and memory, keep theirs. xf registers, which replies count in, are left out. -/
def Sys2Proof.Spec.RegisterLanding : Prop :=
  ∀ s : State, s.live s.cur = true → ∃ t, exec .registerLanding s = .next t ∧
    (Spec.be t).landings = (Spec.be s).landings.filter (fun l => !(decide (l.due ≤ s.sc s.cur) && decide (l.src = none))) ∧
    (∀ l, Spec.landsNow s l → Spec.writable l.file l.reg →
      (∀ k, Spec.landsNow s k → k.file = l.file → k.reg = l.reg → k = l ∨ Spec.laterThan l k) →
      Spec.merged ((Spec.be s).read l.file l.reg) l.lo l.len l.data ((Spec.be t).read l.file l.reg) (Spec.widthOf l.file)) ∧
    (∀ f r, f ≠ 4 → f ≠ 5 → (∀ l, Spec.landsNow s l → ¬(l.file = f ∧ l.reg = r)) → (Spec.be t).read f r = (Spec.be s).read f r) ∧
    (Spec.be t).read 0 0 = 0 ∧ t.mem = s.mem ∧ ∀ c, c ≠ s.cur → t.core c = s.core c

/-- R140 and R139: a landing ORs its flags into its slot's byte of VFLAGS, even where its result is discarded, and clears
none. -/
def Sys2Proof.Spec.FlagsLand : Prop :=
  ∀ s : State, s.live s.cur = true → ∃ t, exec .registerLanding s = .next t ∧
    ∀ j < 64, ((Spec.be t).vflags.getLsbD j = true ↔ (Spec.be s).vflags.getLsbD j = true ∨
      ∃ l, Spec.landsNow s l ∧ 8 * l.flagSlot ≤ j ∧ l.flags.getLsbD (j - 8 * l.flagSlot) = true)

/-- Both of the statements RegisterLanding and FlagsLand. -/
def Obligations.LandingOfResults : Prop := Spec.RegisterLanding ∧ Spec.FlagsLand

/-- R247, R256, R250 and R249: a store of the scratchpad that is due writes its bytes and no other; a tag store its granule's
tag; an accumulator store its bytes of the committed copy; a load hands its bytes to the result that waits for it; and of
a load and a store due at one SC the load samples first. -/
def Obligations.PrivateStoresPerform : Prop :=
  (∀ (s : State) (a : SpAccess), s.live s.cur = true → (Spec.be s).accesses = [a] → a.due ≤ s.sc s.cur → a.kind = .store →
    a.keep = 0 → a.poison = false → Memory.wf (s.core s.cur).eng.spad = true →
    ∃ t, exec .scratchpadAccess s = .next t ∧ (Spec.be t).accesses = [] ∧ (Spec.be t).regs = (Spec.be s).regs ∧ t.mem = s.mem ∧
      Memory.wf (t.core s.cur).eng.spad = true ∧
      ∀ j, Spec.spadByte t j = if a.addr ≤ j ∧ j < a.addr + a.bytes.length then a.bytes.getD (j - a.addr) 0 else Spec.spadByte s j) ∧
  (∀ (s : State) (a : SpAccess), s.live s.cur = true → (Spec.be s).accesses = [a] → a.due ≤ s.sc s.cur → a.kind = .tagStore →
    swf 0 (s.core s.cur).eng.tags = true →
    ∃ t, exec .scratchpadAccess s = .next t ∧ (t.core s.cur).eng.spad = (s.core s.cur).eng.spad ∧ t.mem = s.mem ∧
      ∀ j, (t.core s.cur).eng.tagAt j = if j / 1024 = a.addr / 1024 then a.tag else (s.core s.cur).eng.tagAt j) ∧
  (∀ (s : State) (a : SpAccess), s.live s.cur = true → (Spec.be s).accesses = [a] → a.due ≤ s.sc s.cur → a.kind = .accStore →
    Memory.wf (s.core s.cur).eng.accum = true →
    ∃ t, exec .scratchpadAccess s = .next t ∧ (t.core s.cur).eng.spad = (s.core s.cur).eng.spad ∧
      ∀ j, byteAt (t.core s.cur).eng.accum j =
        let p := (s.core s.cur).eng.accAddr a.addr
        if p ≤ j ∧ j < p + a.bytes.length then a.bytes.getD (j - p) 0 else byteAt (s.core s.cur).eng.accum j) ∧
  ∀ (s : State) (a w : SpAccess), s.live s.cur = true → (Spec.be s).accesses = [w, a] → a.due = s.sc s.cur → w.due = s.sc s.cur →
    a.kind = .load → w.kind = .store → (s.core s.cur).eng.spadPoison = [] →
    ∃ t, exec .scratchpadAccess s = .next t ∧ (Spec.be t).accesses = [w] ∧ (t.core s.cur).eng = (s.core s.cur).eng ∧
      ∀ l ∈ (Spec.be s).landings, l.src = some a.id → ∃ m ∈ (Spec.be t).landings, m.file = l.file ∧ m.reg = l.reg ∧ m.src = none ∧
        m.due = max l.due (s.sc s.cur) ∧
        m.data = BitVec.ofNat 1024 (bytesVal ((List.range a.len).map fun i => Spec.spadByte s (a.addr + i)))

/-- R113 and R114: an annulled entry takes its step and executes nothing: the queue moves up by one, its third entry is what
follows the second, and no register, store or event changes. -/
def Sys2Proof.Spec.AnnulledEntry : Prop :=
  ∀ s : State, Spec.atStep s → (Spec.npq (Spec.be s) 0).annul = true →
    Spec.sequential (Spec.be s) (Spec.npq (Spec.be s) 2).addr →
    ∃ t, exec .bundleStep s = .next t ∧ Spec.npq (Spec.be t) 0 = Spec.npq (Spec.be s) 1 ∧
      Spec.npq (Spec.be t) 1 = Spec.npq (Spec.be s) 2 ∧
      (Spec.npq (Spec.be t) 2).addr = (Spec.npq (Spec.be s) 2).addr + 1 ∧ (Spec.npq (Spec.be t) 2).annul = false ∧
      (Spec.be t).regs = (Spec.be s).regs ∧ (Spec.be t).landings = (Spec.be s).landings ∧
      (Spec.be t).state = .running ∧ (t.core s.cur).eng = (s.core s.cur).eng ∧ (t.core s.cur).cc = (s.core s.cur).cc ∧
      t.mem = s.mem ∧ t.parts = s.parts

/-- R61, R64, R98 and R113: a bundle that no rule of R65 forbids, with legal words and no event or stall, executes its
operations in slot order, each on the registers as they stood before any write of the bundle lands, applies the strides of
its ENDS set, and the queue takes its append. -/
def Sys2Proof.Spec.BundleExecutes : Prop :=
  ∀ (s : State) (v : Nat), Spec.atStep s → Spec.noCounters s → (Spec.npq (Spec.be s) 0).annul = false →
    let e := Spec.npq (Spec.be s) 0
    let s0 := s.modBe s.cur fun b => b.beginStep e.addr
    (s.core s.cur).eng.bundleAt e.addr = some v → forbidden v = false → illegalSlots v = [] →
    (s.wrmode s.cur = 2 → (legalOps v).any s0.readsWindow = false) →
    (legalOps v).flatMap (slotEvents s0) = [] → (legalOps v).any (fun i => slotStall s0 i) = false →
    exec .bundleStep s =
      .next ((((legalOps v).foldl State.execSlot s0).applyStrides e.ends).modBe s.cur Be.append)

/-- R65, R46 and R127: in Elastic a forbidden bundle raises event 0x01 before any slot executes: no register, result in flight
or store changes, the queue stays as it is, and the engine stops to take the trap. -/
def Sys2Proof.Spec.ForbiddenBundleTraps : Prop :=
  ∀ (s : State) (v : Nat), Spec.atStep s → s.timed s.cur = false → (s.core s.cur).dom = none →
    (Spec.npq (Spec.be s) 0).annul = false →
    (s.core s.cur).eng.bundleAt (Spec.npq (Spec.be s) 0).addr = some v → forbidden v = true →
    ∃ t e, exec .bundleStep s = .next t ∧ (Spec.be t).state = .trapping ∧ (Spec.be t).trapEv = [(e, s.sc s.cur)] ∧
      e.cause = 0x01 ∧ e.slot = 15 ∧ (Spec.be t).npq = (Spec.be s).npq ∧ (Spec.be t).regs = (Spec.be s).regs ∧
      (Spec.be t).landings = (Spec.be s).landings ∧ (Spec.be t).accesses = (Spec.be s).accesses ∧
      (t.core s.cur).eng = (s.core s.cur).eng

/-- R126, R127 and R185: once every earlier result has landed, the trap copies the queue, annul flags and ENDS sets included,
to epc0 to epc2, stops the engine, makes interrupt 16 pending with its events, and leaves the registers as they are. -/
def Sys2Proof.Spec.BundleEngineTrap : Prop :=
  ∀ s : State, s.live s.cur = true → (Spec.be s).state = .trapping → (Spec.be s).landings = [] →
    ∃ t, exec .beTrap s = .next t ∧ (Spec.be t).state = .trapped ∧ (Spec.be t).trapEv = [] ∧ (Spec.be t).micro = none ∧
      (∀ n < 3, (Spec.be t).epc[n]? = some (Spec.epcWord (Spec.npq (Spec.be s) n))) ∧ (Spec.be t).npq = (Spec.be s).npq ∧
      (Spec.be t).regs = (Spec.be s).regs ∧ (Spec.be t).loops = (Spec.be s).loops ∧
      ((Spec.be s).micro = none → (Spec.be t).mstep = (Spec.be s).mstep) ∧
      (t.core s.cur).cc.mip = (s.core s.cur).cc.mip ||| 0x10000 ∧
      (t.core s.cur).cc.pendMacro = (s.core s.cur).cc.pendMacro ++ (Spec.be s).trapEv.map (fun x => (x.1, x.2, 0)) ∧
      t.mem = s.mem ∧ ∀ c, c ≠ s.cur → t.core c = s.core c


/-- All four of the statements AnnulledEntry, BundleExecutes, ForbiddenBundleTraps and BundleEngineTrap. -/
def Obligations.BundleStepsAndTraps : Prop := Spec.AnnulledEntry ∧ Spec.BundleExecutes ∧ Spec.ForbiddenBundleTraps ∧ Spec.BundleEngineTrap

namespace Sys2Proof.Spec

/-! ### The control core (R181 to R187) -/

/-- The control core whose turn it is. -/
def cc (s : State) : Cc := (s.core s.cur).cc

/-- Register x[r]; x0 reads zero (RV64I). -/
def xReg (s : State) (r : BitVec 5) : Word := if r = 0 then 0 else ((cc s).x[r.toNat]?).getD 0

/-- The control core replaced, and nothing else. -/
def setCc (s : State) (k : Cc) : State := s.setCore s.cur { s.core s.cur with cc := k }

/-- An instruction retires: x[rd] takes `v`, unless rd is x0, the pc moves to `pc` and instret counts one (R184). -/
def retired (s : State) (rd : BitVec 5) (v pc : Word) : State :=
  setCc s { cc s with
    x := if rd = 0 then (cc s).x else (cc s).x.setIfInBounds rd.toNat v
    pc, minstret := (cc s).minstret + 1, state := .running }

/-- The pc after an instruction of two or four bytes. -/
def pcNext (s : State) (c : Bool) : Word := W ((cc s).pc.toNat + if c then 2 else 4)

/-- A 32-bit two's-complement integer, and an integer reduced to 32 bits and sign-extended to 64. -/
def S32 (x : Word) : Int := if x.toNat % 2 ^ 32 < 2 ^ 31 then ((x.toNat % 2 ^ 32 : Nat) : Int) else ((x.toNat % 2 ^ 32 : Nat) : Int) - 2 ^ 32
def W32 (n : Int) : Word := W (if n % 2 ^ 32 < 2 ^ 31 then n % 2 ^ 32 else n % 2 ^ 32 - 2 ^ 32)

/-- The 64-bit operations of RV64I and M. -/
def rv64 (op : AluOp) (a b : Word) : Word :=
  match op with
  | .add => W (a.toNat + b.toNat)
  | .sub => W (a.toNat - b.toNat)
  | .sll => W (a.toNat * 2 ^ (b.toNat % 64))
  | .slt => if S a < S b then 1 else 0
  | .sltu => if a.toNat < b.toNat then 1 else 0
  | .xor => a ^^^ b
  | .srl => W (a.toNat / 2 ^ (b.toNat % 64))
  | .sra => W (S a / 2 ^ (b.toNat % 64))
  | .or => a ||| b
  | .and => a &&& b
  | .mul => W (S a * S b)
  | .mulh => W (S a * S b / 2 ^ 64)
  | .mulhsu => W (S a * b.toNat / 2 ^ 64)
  | .mulhu => W (a.toNat * b.toNat / 2 ^ 64)
  | .div => if b = 0 then W (-1) else W (truncDiv (S a) (S b))
  | .divu => if b = 0 then W (-1) else W (a.toNat / b.toNat)
  | .rem => if b = 0 then a else W (S a - truncDiv (S a) (S b) * S b)
  | .remu => if b = 0 then a else W (a.toNat % b.toNat)

/-- The operations with a 32-bit form. -/
def wordOps : List AluOp := [.add, .sub, .sll, .srl, .sra, .mul, .div, .divu, .rem, .remu]

/-- The 32-bit forms of RV64I and M: the low words' result, sign-extended. -/
def rv32 (op : AluOp) (a b : Word) : Word :=
  let ua : Nat := a.toNat % 2 ^ 32
  let ub : Nat := b.toNat % 2 ^ 32
  match op with
  | .add => W32 (ua + ub)
  | .sub => W32 (ua - ub)
  | .sll => W32 (ua * 2 ^ (ub % 32))
  | .srl => W32 (ua / 2 ^ (ub % 32))
  | .sra => W32 (S32 a / 2 ^ (ub % 32))
  | .mul => W32 (S32 a * S32 b)
  | .div => if ub = 0 then W (-1) else W32 (truncDiv (S32 a) (S32 b))
  | .divu => if ub = 0 then W (-1) else W32 (ua / ub)
  | .rem => if ub = 0 then W32 ua else W32 (S32 a - truncDiv (S32 a) (S32 b) * S32 b)
  | .remu => if ub = 0 then W32 ua else W32 (ua % ub)
  | _ => 0

/-- A branch condition of RV64I. -/
def branchTaken (c : BrCond) (a b : Word) : Prop :=
  match c with
  | .eq => a = b
  | .ne => a ≠ b
  | .lt => S a < S b
  | .ge => S b ≤ S a
  | .ltu => a.toNat < b.toNat
  | .geu => b.toNat ≤ a.toNat

/-- The CSRs that a write sets but for reserved bits, with their mask of writable bits (R126, R159, R184, R197 to R201). -/
def csrMasks : List (Nat × Word) :=
  [(0x304, 0x70000), (0x340, 0xFFFFFFFFFFFFFFFF), (0x341, 0xFFFFFFFFFFFFFFFE), (0x342, 0xFFFFFFFFFFFFFFFF),
    (0x343, 0xFFFFFFFFFFFFFFFF), (0x801, 1), (0x802, 0xFFFFFFFF), (0x803, 0xFFFFFFFF), (0x804, 0xFFFFFFFF),
    (0x805, 0xFFFFFFFF), (0x806, 0xFFFFFFFF), (0x7C1, 0xFFFFFFFFFF000000), (0x7C2, 0xFFFFFFFFFFFFFFFF),
    (0x7C3, 0xFFFFFFFFFFFFFFFF), (0x7C4, 0xFFFFFFFFFFFFFFFF), (0x7CB, 0x0FFF001F), (0x7C6, 0x8000000FFFFFFFFF),
    (0x7C7, 0x8000000FFFFFFFFF), (0x7C8, 0x8000000FFFFFFFFF), (0x7C9, 0x8000007FFFFFFFFF)]

/-- The CSRs that read a value of fixed rule, with their value (R184, R197). -/
def csrFixed (s : State) : List (Nat × Word) :=
  [(0x301, 0x8000000000901105), (0xF11, 0), (0xF12, 0x7408), (0xF13, 0x100), (0xF14, BitVec.ofNat 64 s.cur), (0x306, 7),
    (0xC01, BitVec.ofNat 64 s.basin), (0xCC0, BitVec.ofNat 64 (s.sc s.cur)), (0xCC1, BitVec.ofNat 64 s.basin),
    (0xCC2, (cc s).rank), (0xCC3, (cc s).gsize), (0xCC4, (cc s).ggeo), (0xC02, (cc s).minstret), (0xB02, (cc s).minstret),
    (0x800, (be s).vflags), (0x180, 0), (0x320, 0), (0x323, 0), (0x33F, 0), (0xB03, 0), (0xB1F, 0)]

/-- The mode admits CSR `n`: U mode those of the lowest privilege but hpmcounter3 to 31 (R184). -/
def csrReachable (s : State) (n : Nat) : Prop := (cc s).mode = .m ∨ (n / 256 % 4 = 0 ∧ ¬(0xC03 ≤ n ∧ n ≤ 0xC1F))

/-- The value that a CSR instruction writes (Zicsr). -/
def csrWritten (k : CsrKind) (old v : Word) : Word :=
  match k with
  | .rw => v
  | .rs => old ||| v
  | .rc => old &&& ~~~v

/-- A trap of the control core to M mode has been taken, with its cause, its event's code and its event's address (R184, R185,
R199): mepc holds the pc, mstatus is pushed, the pc is the base of the monitor region, and the reservation is gone. -/
def trapTaken (s t : State) (mcause mtval : Word) (code : Nat) (faddr : Word) : Prop :=
  let k := cc s
  let m := cc t
  m.mepc = k.pc ∧ m.mcause = mcause ∧ m.mtval = mtval ∧ m.mode = .m ∧ m.state = .running ∧
    m.pc = BitVec.ofNat 64 ((((s.core s.cur).eng.regions[14]?).getD 0).toNat % 2 ^ 32) ∧
    (m.mstatus.getLsbD 7 = k.mstatus.getLsbD 3 ∧ m.mstatus.getLsbD 3 = false) ∧
    (m.mstatus.getLsbD 11 = decide (k.mode = .m) ∧ m.mstatus.getLsbD 12 = decide (k.mode = .m)) ∧
    (m.mstatus.getLsbD 17 = k.mstatus.getLsbD 17 ∧ m.mstatus.getLsbD 21 = k.mstatus.getLsbD 21) ∧ m.resv = none ∧
    m.tcause = BitVec.ofNat 64 (code * 2 ^ 40 + 15 * 2 ^ 24) ∧ m.faddr = faddr ∧ m.fcoord = 0 ∧
    m.fsc = BitVec.ofNat 64 (s.sc s.cur) ∧ m.x = k.x ∧ m.minstret = k.minstret ∧ m.mie = k.mie ∧ m.mip = k.mip ∧
    m.mscratch = k.mscratch ∧ m.calctl = k.calctl ∧ m.monMem = k.monMem ∧ m.l1 = k.l1 ∧ be t = be s ∧
    (t.core s.cur).eng = (s.core s.cur).eng

end Sys2Proof.Spec

/-- R181: every integer instruction of RV64I and M, compressed or not, writes its result to rd, discards it where rd is x0,
moves the pc past the instruction, counts one retired, and changes nothing else. -/
def Sys2Proof.Spec.ControlCoreIntegers : Prop :=
  ∀ (s : State) (c : Bool) (rd : BitVec 5),
    (∀ imm, exec (.controlCoreInstruction ⟨.lui rd imm, c⟩) s = .next (Spec.retired s rd imm (Spec.pcNext s c))) ∧
    (∀ imm, exec (.controlCoreInstruction ⟨.auipc rd imm, c⟩) s =
      .next (Spec.retired s rd (Spec.W ((Spec.cc s).pc.toNat + imm.toNat)) (Spec.pcNext s c))) ∧
    (∀ op rs1 imm, exec (.controlCoreInstruction ⟨.alui op false rd rs1 imm, c⟩) s =
      .next (Spec.retired s rd (Spec.rv64 op (Spec.xReg s rs1) imm) (Spec.pcNext s c))) ∧
    (∀ op rs1 rs2, exec (.controlCoreInstruction ⟨.alu op false rd rs1 rs2, c⟩) s =
      .next (Spec.retired s rd (Spec.rv64 op (Spec.xReg s rs1) (Spec.xReg s rs2)) (Spec.pcNext s c))) ∧
    (∀ op ∈ Spec.wordOps, ∀ rs1 imm, exec (.controlCoreInstruction ⟨.alui op true rd rs1 imm, c⟩) s =
      .next (Spec.retired s rd (Spec.rv32 op (Spec.xReg s rs1) imm) (Spec.pcNext s c))) ∧
    ∀ op ∈ Spec.wordOps, ∀ rs1 rs2, exec (.controlCoreInstruction ⟨.alu op true rd rs1 rs2, c⟩) s =
      .next (Spec.retired s rd (Spec.rv32 op (Spec.xReg s rs1) (Spec.xReg s rs2)) (Spec.pcNext s c))

/-- R181: JAL and JALR write the address after themselves to rd and go to their target, JALR's with bit 0 clear; a branch goes
to its target where its condition holds and past itself elsewhere; nothing else changes. -/
def Sys2Proof.Spec.ControlCoreJumps : Prop :=
  ∀ (s : State) (c : Bool),
    (∀ rd off, exec (.controlCoreInstruction ⟨.jal rd off, c⟩) s =
      .next (Spec.retired s rd (Spec.pcNext s c) (Spec.W ((Spec.cc s).pc.toNat + off.toNat)))) ∧
    (∀ rd rs1 off, exec (.controlCoreInstruction ⟨.jalr rd rs1 off, c⟩) s =
      .next (Spec.retired s rd (Spec.pcNext s c) (Spec.W ((((Spec.xReg s rs1).toNat + off.toNat) / 2 * 2 : Nat))))) ∧
    (∀ k a b off, Spec.branchTaken k (Spec.xReg s a) (Spec.xReg s b) →
      exec (.controlCoreInstruction ⟨.branch k a b off, c⟩) s =
        .next (Spec.retired s 0 0 (Spec.W ((Spec.cc s).pc.toNat + off.toNat)))) ∧
    ∀ k a b off, ¬ Spec.branchTaken k (Spec.xReg s a) (Spec.xReg s b) →
      exec (.controlCoreInstruction ⟨.branch k a b off, c⟩) s = .next (Spec.retired s 0 0 (Spec.pcNext s c))

/-- R184, R197 to R201, R126 and R159: a CSR instruction that writes a CSR its mode reaches gives rd the value before it and leaves its
writable bits set, every other of the listed CSRs as it was (MSTEP of a frozen core shows what the freeze latched); a CSR of fixed contents reads what its rule gives, and a
CSR instruction that writes nothing changes nothing but rd and the pc. -/
def Sys2Proof.Spec.ControlCoreCsrs : Prop :=
  (∀ (s : State) (k : CsrKind) (isImm c : Bool) (rd src : BitVec 5) (n : BitVec 12) (m old : Word),
    (n.toNat, m) ∈ Spec.csrMasks → Spec.csrReachable s n.toNat → s.notInspecting → (n = 0x7C9 → s.frozen s.cur = false) →
    (k = .rw ∨ src ≠ 0) →
    s.csrRead s.cur n.toNat = some old →
    ∃ t, exec (.controlCoreInstruction ⟨.csr k isImm rd src n, c⟩) s = .next t ∧
      (Spec.cc t).pc = Spec.pcNext s c ∧ (rd ≠ 0 → Spec.xReg t rd = old) ∧ (∀ r, r ≠ rd → Spec.xReg t r = Spec.xReg s r) ∧
      t.csrRead s.cur n.toNat =
        some (Spec.csrWritten k old (if isImm then src.setWidth 64 else Spec.xReg s src) &&& m) ∧
      (∀ e ∈ Spec.csrMasks, e.1 ≠ n.toNat → t.csrRead s.cur e.1 = s.csrRead s.cur e.1) ∧
      (Spec.cc t).mstatus = (Spec.cc s).mstatus ∧ t.mem = s.mem ∧ (Spec.be t).regs = (Spec.be s).regs ∧
      (t.core s.cur).eng = (s.core s.cur).eng) ∧
  (∀ (s : State) (k : CsrKind) (isImm c : Bool) (rd src : BitVec 5) (n : BitVec 12) (old : Word),
    n = 0xB00 ∨ n = 0xB02 ∨ n = 0x300 → (Spec.cc s).mode = .m → s.notInspecting → (k = .rw ∨ src ≠ 0) →
    s.csrRead s.cur n.toNat = some old →
    let v := Spec.csrWritten k old (if isImm then src.setWidth 64 else Spec.xReg s src)
    ∃ t, exec (.controlCoreInstruction ⟨.csr k isImm rd src n, c⟩) s = .next t ∧ (rd ≠ 0 → Spec.xReg t rd = old) ∧
      (n = 0xB00 ∨ n = 0xB02 → t.csrRead s.cur n.toNat = some v) ∧
      (n = 0x300 ∧ (v &&& 0x1800 = 0 ∨ v &&& 0x1800 = 0x1800) → t.csrRead s.cur n.toNat = some (v &&& 0x221888))) ∧
  ∀ (s : State) (k : CsrKind) (isImm c : Bool) (rd : BitVec 5) (n : BitVec 12) (v : Word),
    (n.toNat, v) ∈ Spec.csrFixed s → Spec.csrReachable s n.toNat → k ≠ .rw →
    exec (.controlCoreInstruction ⟨.csr k isImm rd 0 n, c⟩) s = .next (Spec.retired s rd v (Spec.pcNext s c))

/-- R184: a CSR instruction on an M-mode CSR or hpmcounter3 to 31 in U mode, or that writes a read-only CSR, is an illegal instruction, mcause 2 and
code 0x02; rd keeps its value. -/
def Sys2Proof.Spec.ControlCoreCsrFaults : Prop :=
  ∀ (s : State) (k : CsrKind) (isImm c : Bool) (rd src : BitVec 5) (n : BitVec 12),
    ¬ Spec.csrReachable s n.toNat ∨ ((k = .rw ∨ src ≠ 0) ∧ (n.toNat / 1024 = 3 ∨ n = 0x301 ∨ n = 0x305)) →
    ∃ t, exec (.controlCoreInstruction ⟨.csr k isImm rd src n, c⟩) s = .next t ∧ Spec.trapTaken s t 2 0 0x02 0

/-- Both of the statements ControlCoreCsrs and ControlCoreCsrFaults. -/
def Obligations.ControlCoreCsrAccess : Prop := Spec.ControlCoreCsrs ∧ Spec.ControlCoreCsrFaults

/-- R181, R184, R185 and R187: EBREAK, an illegal instruction, ECALL in M mode and ECALL in U mode with a7 not 0 take their
exceptions; ECALL in U mode with a7 = 0 asks for launch end with the program status a0[15:0] and takes none. -/
def Sys2Proof.Spec.ControlCoreTraps : Prop :=
  (∀ (s : State) (c : Bool),
    ∃ t, exec (.controlCoreInstruction ⟨.ebreak, c⟩) s = .next t ∧ Spec.trapTaken s t 3 0 0x13 0) ∧
  (∀ (s : State) (c : Bool) (w : BitVec 32),
    ∃ t, exec (.controlCoreInstruction ⟨.illegal w, c⟩) s = .next t ∧ Spec.trapTaken s t 2 (w.setWidth 64) 0x02 0) ∧
  (∀ s : State, (Spec.cc s).mode = .m →
    ∃ t, exec .ecall s = .next t ∧ Spec.trapTaken s t 11 0 0x13 0) ∧
  (∀ s : State, (Spec.cc s).mode = .u → Spec.xReg s 17 ≠ 0 →
    ∃ t, exec .ecall s = .next t ∧ Spec.trapTaken s t 8 0 0x13 0) ∧
  ∀ s : State, (Spec.cc s).mode = .u → Spec.xReg s 17 = 0 →
    exec .ecall s = .next (Spec.setCc s { Spec.cc s with state := .ending, pstat := (Spec.xReg s 10).setWidth 16 })

/-- R182 and R184: FENCE retires; FENCE.I retires where no overlay load of the core is under way and waits elsewhere; WFI
retires where an enabled interrupt is pending and waits at the next instruction elsewhere, and is illegal in U mode with TW;
MRET restores the pc, the mode and mstatus, and is illegal in U mode. -/
def Sys2Proof.Spec.ControlCoreSystem : Prop :=
  (∀ s : State, exec .ccFence s = .next (Spec.retired s 0 0 (Spec.pcNext s false))) ∧
  (∀ s : State, (∀ e ∈ (s.core s.cur).eng.ceq, e.form ≠ 0x12) → (∀ a ∈ (s.core s.cur).eng.ce.active, a.entry.form ≠ 0x12) →
    exec .fenceI s = .next (Spec.retired s 0 0 (Spec.pcNext s false))) ∧
  (∀ s : State, (∃ e ∈ (s.core s.cur).eng.ceq, e.form = 0x12) →
    exec .fenceI s = .next (Spec.setCc s { Spec.cc s with state := .waitFenceI })) ∧
  (∀ s : State, ¬((Spec.cc s).mode = .u ∧ (Spec.cc s).mstatus.getLsbD 21 = true) →
    exec .wfi s = .next (Spec.setCc s { Spec.cc s with
      pc := Spec.pcNext s false, minstret := (Spec.cc s).minstret + 1
      state := if (Spec.cc s).mip &&& (Spec.cc s).mie = 0 then .waitWfi else .running })) ∧
  (∀ s : State, (Spec.cc s).mode = .u → (Spec.cc s).mstatus.getLsbD 21 = true →
    ∃ t, exec .wfi s = .next t ∧ Spec.trapTaken s t 2 0 0x02 0) ∧
  (∀ s : State, (Spec.cc s).mode = .u →
    ∃ t, exec .mret s = .next t ∧ Spec.trapTaken s t 2 0 0x02 0) ∧
  ∀ s : State, (Spec.cc s).mode = .m → s.notInspecting →
    ∃ t, exec .mret s = .next t ∧ (Spec.cc t).pc = (Spec.cc s).mepc ∧
      ((Spec.cc t).mode = .m ↔ (Spec.cc s).mstatus.getLsbD 11 = true ∧ (Spec.cc s).mstatus.getLsbD 12 = true) ∧
      (Spec.cc t).mstatus.getLsbD 3 = (Spec.cc s).mstatus.getLsbD 7 ∧ (Spec.cc t).mstatus.getLsbD 7 = true ∧
      (Spec.cc t).mstatus.getLsbD 11 = false ∧ (Spec.cc t).mstatus.getLsbD 12 = false ∧
      (Spec.cc t).mstatus.getLsbD 21 = (Spec.cc s).mstatus.getLsbD 21 ∧
      ((Spec.cc t).mode = .u → (Spec.cc t).mstatus.getLsbD 17 = false) ∧
      (Spec.cc t).x = (Spec.cc s).x ∧ (Spec.cc t).mepc = (Spec.cc s).mepc ∧ (Spec.cc t).mcause = (Spec.cc s).mcause ∧
      (Spec.cc t).monMem = (Spec.cc s).monMem ∧ Spec.be t = Spec.be s ∧ t.mem = s.mem

/-- All three of the statements ControlCoreIntegers, ControlCoreJumps and ControlCoreSystem. -/
def Obligations.ControlCoreBaseInstructions : Prop := Spec.ControlCoreIntegers ∧ Spec.ControlCoreJumps ∧ Spec.ControlCoreSystem

namespace Sys2Proof.Spec

/-! ### Loads, stores and atomics of the control core (R182, R252, R278) -/

/-- Byte `a` of the monitor data memory of the core whose turn it is. -/
def monByte (s : State) (a : Nat) : Byte := byteAt (cc s).monMem a

/-- The number that `n` bytes from `a` of a store hold, byte 0 least significant (R4). -/
def number (byte : Nat → Byte) (a n : Nat) : Nat := ((List.range n).map fun i => (byte (a + i)).toNat * 2 ^ (8 * i)).sum

/-- A loaded number of `n` bytes as a register holds it: zero- or sign-extended (RV64I). -/
def extended (v n : Nat) (unsigned : Bool) : Word :=
  if unsigned = true ∨ v < 2 ^ (8 * n - 1) then W v else W ((v : Int) - (2 ^ (8 * n) : Nat))

/-- An AMO's new value of `n` bytes (RV64A). -/
def amoNew (op : RvAmo) (n m x : Nat) : Nat :=
  let w := 2 ^ (8 * n)
  let sg (v : Nat) : Int := if v % w < w / 2 then ((v % w : Nat) : Int) else ((v % w : Nat) : Int) - w
  match op with
  | .swap => x % w
  | .add => (m + x) % w
  | .xor => (m ^^^ x) % w
  | .and => (m &&& x) % w
  | .or => (m ||| x) % w
  | .min => if sg m ≤ sg x then m % w else x % w
  | .max => if sg x ≤ sg m then m % w else x % w
  | .minu => min (m % w) (x % w)
  | .maxu => max (m % w) (x % w)

/-- An access of `n` bytes at `va` reaches the monitor data memory: M mode for accesses, aligned, below 0x2000 (R182). -/
def inMonitor (s : State) (va n : Nat) : Prop :=
  (cc s).mode = .m ∧ (cc s).mstatus.getLsbD 17 = false ∧ va % n = 0 ∧ va + n ≤ 0x2000

/-- No word of the monitor data memory that an access of `n` bytes at `a` reads is poisoned (R299). -/
def cleanMonitor (s : State) (a n : Nat) : Prop := ∀ w ∈ (cc s).monBad, ¬(8 * w < a + n ∧ a < 8 * w + 8)

/-- The monitor data memory takes the low `n` bytes of `v` from `a` and keeps every other byte. -/
def monWritten (s t : State) (a n v : Nat) : Prop :=
  ∀ j, monByte t j = if a ≤ j ∧ j < a + n then BitVec.ofNat 8 (v / 2 ^ (8 * (j - a))) else monByte s j

/-- The rest of an instruction that writes rd and the monitor data memory. -/
def onlyMonitor (s t : State) (rd : BitVec 5) (v : Word) (c : Bool) : Prop :=
  t.mem = s.mem ∧ (cc t).pc = pcNext s c ∧ (cc t).l1 = (cc s).l1 ∧ (cc t).mstatus = (cc s).mstatus ∧ (cc t).mode = .m ∧
    (∀ r, xReg t r = if r = rd ∧ r ≠ 0 then v else xReg s r) ∧ be t = be s ∧ (t.core s.cur).eng = (s.core s.cur).eng

/-- The interrupt of a pending event (R185): 16 of the bundle engine, 18 of frozen inspection, 17 of a stopped engine. -/
def irqOf (e : Ev) : Nat := if e.engine = 1 then 16 else if e.engine = 10 then 18 else 17

/-- The rank of a pending event: its priority of R46, frozen inspection last (log 89). -/
def pendRank (e : Ev) : Nat := if e.engine = 10 then 20 else evPrio e.cause

/-- Sum of a register and an offset, as an address. -/
def addr (s : State) (rs1 : BitVec 5) (off : Word) : Nat := (W ((xReg s rs1).toNat + off.toNat)).toNat

end Sys2Proof.Spec

/-- R182: in M mode loads, stores, AMOs, LR and SC on virtual addresses below 0x2000 act on the core's monitor data memory and on
no other memory: a load extends its bytes, a store changes its own bytes alone, an AMO gives rd the old value, LR reserves
the line, SC writes and gives 0 where the reservation holds, gives 1 and writes nothing where it does not, and ends it. A
load, AMO or LR of a poisoned word is left to R299. -/
def Obligations.ControlCoreMonitorMemory : Prop :=
  (∀ (s : State) (c : Bool) (rd rs1 : BitVec 5) (off : Word) (sz : BitVec 2) (u : Bool),
    let n := 2 ^ sz.toNat
    let a := Spec.addr s rs1 off
    Spec.inMonitor s a n → Spec.cleanMonitor s a n →
    exec (.ccLoadStore ⟨.load rd rs1 off sz u, c⟩) s =
      .next (Spec.retired s rd (Spec.extended (Spec.number (Spec.monByte s) a n) n u) (Spec.pcNext s c))) ∧
  (∀ (s : State) (c : Bool) (rs1 rs2 : BitVec 5) (off : Word) (sz : BitVec 2),
    let n := 2 ^ sz.toNat
    let a := Spec.addr s rs1 off
    Spec.inMonitor s a n → Memory.wf (Spec.cc s).monMem = true →
    ∃ t, exec (.ccLoadStore ⟨.store rs1 rs2 off sz, c⟩) s = .next t ∧ Spec.monWritten s t a n (Spec.xReg s rs2).toNat ∧
      Memory.wf (Spec.cc t).monMem = true ∧ Spec.onlyMonitor s t 0 0 c) ∧
  (∀ (s : State) (c : Bool) (op : RvAmo) (rd rs1 rs2 : BitVec 5) (sz : BitVec 2),
    let n := 2 ^ sz.toNat
    let a := (Spec.xReg s rs1).toNat
    let old := Spec.number (Spec.monByte s) a n
    Spec.inMonitor s a n → Spec.cleanMonitor s a n → Memory.wf (Spec.cc s).monMem = true →
    ∃ t, exec (.ccLoadStore ⟨.amo op rd rs1 rs2 sz, c⟩) s = .next t ∧
      Spec.monWritten s t a n (Spec.amoNew op n old (Spec.xReg s rs2).toNat) ∧
      Spec.onlyMonitor s t rd (Spec.extended old n false) c) ∧
  (∀ (s : State) (rd rs1 : BitVec 5) (sz : BitVec 2),
    let n := 2 ^ sz.toNat
    let a := (Spec.xReg s rs1).toNat
    Spec.inMonitor s a n → Spec.cleanMonitor s a n →
    ∃ t, exec (.lr rd rs1 sz) s = .next t ∧ t.cur = s.cur ∧ (Spec.cc t).resv ≠ none ∧ (Spec.cc t).monMem = (Spec.cc s).monMem ∧
      Spec.onlyMonitor s t rd (Spec.extended (Spec.number (Spec.monByte s) a n) n false) false ∧
      ∀ (rd' rs1' rs2' : BitVec 5) (sz' : BitVec 2),
        let a' := (Spec.xReg t rs1').toNat
        let n' := 2 ^ sz'.toNat
        Spec.inMonitor t a' n' → Memory.wf (Spec.cc t).monMem = true →
        ∃ w, exec (.sc rd' rs1' rs2' sz') t = .next w ∧ (Spec.cc w).resv = none ∧
          (a' / 128 = a / 128 → Spec.monWritten t w a' n' (Spec.xReg t rs2').toNat ∧ Spec.onlyMonitor t w rd' 0 false) ∧
          (a' / 128 ≠ a / 128 → (Spec.cc w).monMem = (Spec.cc t).monMem ∧ Spec.onlyMonitor t w rd' 1 false)) ∧
  ∀ (s : State) (rd rs1 rs2 : BitVec 5) (sz : BitVec 2),
    Spec.inMonitor s (Spec.xReg s rs1).toNat (2 ^ sz.toNat) → (Spec.cc s).resv = none →
    ∃ t, exec (.sc rd rs1 rs2 sz) s = .next t ∧ (Spec.cc t).resv = none ∧ (Spec.cc t).monMem = (Spec.cc s).monMem ∧
      Spec.onlyMonitor s t rd 1 false

/-- R125, R127, R184, R185 and R199: in U mode, or in M mode with MIE, an enabled pending event is taken as interrupt 16 (the bundle
engine's), 17, or 18 (frozen inspection, which comes last: log 89), by priority and then in order of arrival: the trap's registers and TCAUSE, FADDR, FCOORD and FSC are
written together, the event is pending no longer, and mip shows what still is; with MIE clear in M mode, or nothing
pending, nothing happens. -/
def Sys2Proof.Spec.ControlCoreInterrupts : Prop :=
  (∀ (s : State) (a b : List (Ev × Nat × Word)) (x : Ev × Nat × Word),
    (Spec.cc s).mode = .u ∨ (Spec.cc s).mstatus.getLsbD 3 = true → s.notInspecting → (Spec.cc s).state = .running →
    (Spec.cc s).mie.getLsbD 16 = true → (Spec.cc s).mie.getLsbD 17 = true → (Spec.cc s).mie.getLsbD 18 = true →
    (Spec.be s).pend14 = none →
    (Spec.cc s).pendMacro = a ++ x :: b → (∀ y ∈ a, Spec.pendRank x.1 < Spec.pendRank y.1) →
    (∀ y ∈ b, Spec.pendRank x.1 ≤ Spec.pendRank y.1) →
    ∃ t, exec .ccInterruptEntry s = .next t ∧ (Spec.cc t).mepc = (Spec.cc s).pc ∧
      (Spec.cc t).mcause = BitVec.ofNat 64 (2 ^ 63 + Spec.irqOf x.1) ∧ (Spec.cc t).mtval = 0 ∧
      (Spec.cc t).mode = .m ∧ (Spec.cc t).mstatus.getLsbD 3 = false ∧
      (Spec.cc t).mstatus.getLsbD 7 = (Spec.cc s).mstatus.getLsbD 3 ∧
      (Spec.cc t).pc = BitVec.ofNat 64 ((((s.core s.cur).eng.regions[14]?).getD 0).toNat % 2 ^ 32) ∧
      (Spec.cc t).tcause = Spec.W ((x.1.tcode.toNat * 2 ^ 48 + x.1.cause.toNat * 2 ^ 40 + x.1.subcause.toNat * 2 ^ 32 +
        x.1.engine * 2 ^ 28 + x.1.slot * 2 ^ 24 : Nat)) ∧
      (Spec.cc t).faddr = x.1.faddr ∧ (Spec.cc t).fcoord = x.2.2 ∧ (Spec.cc t).fsc = BitVec.ofNat 64 x.2.1 ∧
      (Spec.cc t).pendMacro = a ++ b ∧
      (Spec.cc t).mip.getLsbD 16 = (a ++ b).any (fun y => Spec.irqOf y.1 == 16) ∧
      (Spec.cc t).mip.getLsbD 17 = (a ++ b).any (fun y => Spec.irqOf y.1 == 17) ∧
      (Spec.cc t).mip.getLsbD 18 = (a ++ b).any (fun y => Spec.irqOf y.1 == 18) ∧
      (Spec.cc t).x = (Spec.cc s).x ∧ Spec.be t = Spec.be s ∧ (t.core s.cur).eng = (s.core s.cur).eng ∧ t.mem = s.mem) ∧
  ∀ s : State, ((Spec.cc s).mode = .m ∧ (Spec.cc s).mstatus.getLsbD 3 = false) ∨
      ((Spec.cc s).pendMacro = [] ∧ (Spec.be s).pend14 = none) ∨ (Spec.cc s).mie = 0 →
    exec .ccInterruptEntry s = .next s

/-- Both of the statements ControlCoreTraps and ControlCoreInterrupts. -/
def Obligations.ControlCoreTrapEntries : Prop := Spec.ControlCoreTraps ∧ Spec.ControlCoreInterrupts

namespace Sys2Proof.Spec

/-! ### Macro-instructions and the other extension instructions (R186 to R196) -/

/-- The macro-instructions with their funct7 (R76). -/
def macros : List ((FR3 → Instr) × Nat) :=
  [(.mmat, 0x01), (.mconv, 0x02), (.mattn, 0x03), (.msort, 0x08), (.mgath, 0x09), (.mscat, 0x0A), (.mcopy, 0x10),
    (.mfill, 0x11), (.movly, 0x12), (.msel, 0x18), (.mtopk, 0x19), (.mcoll, 0x20)]

/-- The issue counter of an engine, and the number after it, which skips zero (R188). -/
def counter (s : State) (e : Eng) : Half := ((cc s).cnt[engCode e - 2]?).getD 0
def numberAfter (n : Half) : Half := if n = 0xFFFFFFFF then 1 else n + 1

/-- The block at `va` has been read by control-core loads: the state they leave and its words (R189). -/
def blockRead (s : State) (form va : Nat) (s' : State) (b : List Word) : Prop :=
  va % 64 = 0 ∧ ∃ s1 h, s.blockWord va = .ok (s1, h) ∧ headerOk form [h] = true ∧
    s1.blockWords va (8 * blkLen [h]) = .ok (s', b)

/-- A block that R189 admits: it keeps its rules, its addresses translate, its range list covers it, a shared sequencer is
leased in Timed, the queue and the scoreboard have room, and a Timed start lies in its window (R27). -/
def admitted (s : State) (form : Nat) (b : List Word) (start : Word) : Prop :=
  let e := formEng form
  let ls := levelsOf (cc s).geo form b
  s.blockOk s.cur form b ls = true ∧ s.areasFault s.cur form (s.areasOf s.cur form b ls) = none ∧
    (s.areasOf s.cur form b ls).all (areaListed (rangesOf form b)) = true ∧
    (s.timed s.cur = true → e = .cx ∨ e = .weir →
      s.leasedSeqr s.cur e (s.seqUnit s.cur form b (s.core s.cur).rng) (blkSeqr b) = true) ∧
    ((s.core s.cur).eng.queue e).length < 8 ∧
    (s.core s.cur).eng.sboard.length + (scoreEntries form b (numberAfter (counter s e)) (s.sc s.cur)).length ≤ 32 ∧
    (s.timed s.cur = true → s.sc s.cur + 64 ≤ start.toNat ∧ start.toNat ≤ s.sc s.cur + 2 ^ 31)

/-- What an accepted issue changes: one entry behind those of its engine's queue, with the block, the range registers as they
stand, the start SC and its number; its scoreboard entries; the counter; rd; and the pc (R188, R189, R208). -/
def accepted (s : State) (form : Nat) (b : List Word) (start : Word) (rd : BitVec 5) (st : CcState) : State :=
  let k := s.core s.cur
  let e := formEng form
  let m := numberAfter (counter s e)
  let ent : QEntry :=
    { form, block := b, rng := k.rng, start, issue := m, seqr := blkSeqr b, headAt := s.basin }
  let q (f : Eng) (l : List QEntry) : List QEntry := if f = e then l ++ [ent] else l
  s.setCore s.cur { k with
    eng := { k.eng with
      mxq := q .mx k.eng.mxq, pxq := q .px k.eng.pxq, ceq := q .ce k.eng.ceq, cxq := q .cx k.eng.cxq
      weirq := q .weir k.eng.weirq, sboard := k.eng.sboard ++ scoreEntries form b m (s.sc s.cur) }
    cc := { k.cc with
      x := if rd = 0 then k.cc.x else k.cc.x.setIfInBounds rd.toNat (m.setWidth 64)
      cnt := k.cc.cnt.setIfInBounds (engCode e - 2) m, pc := W (k.cc.pc.toNat + 4), minstret := k.cc.minstret + 1
      state := st } }

end Sys2Proof.Spec

/-- R188, R189, R208 and R195: a macro-instruction whose block is admitted enters its engine's queue and its number is written
to rd; cal.ovly issues a MOVLY in the same way and waits for it; nothing else changes after the block has been read. -/
def Sys2Proof.Spec.MacroIssue : Prop :=
  (∀ row ∈ Spec.macros, ∀ (o : FR3) (s s' : State) (b : List Word), s.notInspecting →
    Spec.blockRead s row.2 (Spec.xReg s o.rs1).toNat s' b → Spec.admitted s' row.2 b (Spec.xReg s o.rs2) →
    exec (row.1 o) s = .next (Spec.accepted s' row.2 b (Spec.xReg s o.rs2) o.rd .running)) ∧
  ∀ (o : FR3) (s s' : State) (b : List Word), s.notInspecting →
    Spec.blockRead s 0x12 (Spec.xReg s o.rs1).toNat s' b → Spec.admitted s' 0x12 b (Spec.xReg s o.rs2) →
    exec (.calOvly o) s =
      .next (Spec.accepted s' 0x12 b (Spec.xReg s o.rs2) o.rd (.waitOvly (Spec.numberAfter (Spec.counter s' .ce))))

/-- R189, R47, R185 and R186: in Elastic a block that is not 64-byte aligned, or whose header breaks R77, makes an issue fault:
exception 24 with code 0x07, no entry and rd unchanged; in frozen inspection every macro-instruction is illegal. -/
def Sys2Proof.Spec.MacroIssueFaults : Prop :=
  ∀ row ∈ Spec.macros, ∀ (o : FR3) (s : State),
    (s.notInspecting → s.timed s.cur = false → (Spec.xReg s o.rs1).toNat % 64 ≠ 0 →
      ∃ t, exec (row.1 o) s = .next t ∧ Spec.trapTaken s t 24 0 0x07 (Spec.xReg s o.rs1)) ∧
    (s.notInspecting → s.timed s.cur = false → (Spec.xReg s o.rs1).toNat % 64 = 0 →
      (∃ h, s.blockWord (Spec.xReg s o.rs1).toNat = .ok (s, h) ∧ headerOk row.2 [h] = false) →
      ∃ t, exec (row.1 o) s = .next t ∧ Spec.trapTaken s t 24 0 0x07 (Spec.xReg s o.rs1)) ∧
    (¬ s.notInspecting → ∃ t, exec (row.1 o) s = .next t ∧ Spec.trapTaken s t 2 0 0x02 0)

/-- Both of the statements MacroIssue and MacroIssueFaults. -/
def Obligations.MacroIssuing : Prop := Spec.MacroIssue ∧ Spec.MacroIssueFaults

namespace Sys2Proof.Spec

/-- The bundle engine is idle, halted or stopped by a trap, with every result landed (R124, R127). -/
def beIdle (s : State) : Prop := ((be s).state = .idle ∨ (be s).state = .trapped) ∧ (be s).landings = []

/-- A start SC that the bundle engine can take (R27, R190). -/
def startInTime (s : State) (start : Word) : Prop :=
  s.timed s.cur = true → s.sc s.cur + 64 ≤ start.toNat ∧ start.toNat ≤ s.sc s.cur + 2 ^ 31

/-- The control core takes `rd := v` and goes on, and the bundle engine is replaced. -/
def retiredWithBe (s : State) (b : Be) : State :=
  (retired s 0 0 (pcNext s false)).setCore s.cur { (retired s 0 0 (pcNext s false)).core s.cur with be := b }

/-- A queue entry from a word of epc0 to epc2 (R126). -/
def fromEpc (w : Word) : NpqEntry := ⟨BitVec.ofNat 32 (w.toNat % 2 ^ 32), w.getLsbD 63, w.extractLsb' 32 4⟩

end Sys2Proof.Spec

/-- R118, R190, R126, R128 and R160: with the bundle engine idle the start form fills the queue from its address and leaves the
engine to begin at the start SC; the resume form brings the queue back from epc0 to epc2, for its start SC, after the
micro-steps that MSTEP holds; with the engine not idle either waits in place; a start address above 32 bits, or the resume form in U mode or
in Timed, is illegal. -/
def Obligations.BundleEngineStart : Prop :=
  (∀ (s : State) (rs1 rs2 : BitVec 5), s.notInspecting → (Spec.xReg s rs1).toNat < 2 ^ 32 → Spec.beIdle s →
    Spec.startInTime s (Spec.xReg s rs2) →
    ∃ b, exec (.calBestart rs1 rs2) s = .next (Spec.retiredWithBe s b) ∧
      b.state = .awaiting (Spec.xReg s rs2).toNat ∧ b.micro = none ∧ b.regs = (Spec.be s).regs ∧ b.epc = (Spec.be s).epc ∧ b.landings = [] ∧
      (Spec.npq b 0).addr = (Spec.xReg s rs1).setWidth 32 ∧ (∀ n < 3, (Spec.npq b n).annul = false) ∧
      (Spec.sequential (Spec.be s) ((Spec.xReg s rs1).setWidth 32) →
        Spec.sequential (Spec.be s) ((Spec.xReg s rs1).setWidth 32 + 1) →
        (Spec.npq b 1).addr = (Spec.xReg s rs1).setWidth 32 + 1 ∧ (Spec.npq b 2).addr = (Spec.xReg s rs1).setWidth 32 + 2 ∧
          b.loops = (Spec.be s).loops)) ∧
  (∀ (s : State) (rs1 rs2 : BitVec 5), s.notInspecting → (Spec.xReg s rs1).toNat = 2 ^ 63 → Spec.beIdle s →
    (Spec.cc s).mode = .m → s.timed s.cur = false →
    ∃ b, exec (.calBestartResume rs1 rs2) s = .next (Spec.retiredWithBe s b) ∧
      (∀ n < 3, Spec.npq b n = Spec.fromEpc (((Spec.be s).epc[n]?).getD 0)) ∧ b.regs = (Spec.be s).regs ∧
      b.loops = (Spec.be s).loops ∧ b.epc = (Spec.be s).epc ∧
      b.state = .awaiting (Spec.xReg s rs2).toNat ∧ ((Spec.be s).mstep.getLsbD 63 = false → b.micro = none) ∧
      ((Spec.be s).mstep.getLsbD 63 = true → ∃ u, b.micro = some u ∧
        u.pc = (Spec.be s).mstep.setWidth 32 ∧ u.slots = (Spec.be s).mstep.extractLsb' 36 3 ∧
        u.index = (Spec.be s).mstep.toNat / 2 ^ 32 % 2 ^ 4)) ∧
  (∀ (s : State) (rs1 rs2 : BitVec 5), s.notInspecting → (Spec.xReg s rs1).toNat < 2 ^ 32 → ¬ Spec.beIdle s →
    exec (.calBestart rs1 rs2) s = .next s) ∧
  (∀ (s : State) (rs1 rs2 : BitVec 5), s.notInspecting → (Spec.xReg s rs1).toNat = 2 ^ 63 → ¬ Spec.beIdle s →
    (Spec.cc s).mode = .m → s.timed s.cur = false → exec (.calBestartResume rs1 rs2) s = .next s) ∧
  (∀ (s : State) (rs1 rs2 : BitVec 5), 2 ^ 32 ≤ (Spec.xReg s rs1).toNat →
    ∃ t, exec (.calBestart rs1 rs2) s = .next t ∧ Spec.trapTaken s t 2 0 0x02 0) ∧
  ∀ (s : State) (rs1 rs2 : BitVec 5), (Spec.xReg s rs1).toNat ≠ 2 ^ 63 ∨ (Spec.cc s).mode = .u ∨ s.timed s.cur = true →
    ∃ t, exec (.calBestartResume rs1 rs2) s = .next t ∧ Spec.trapTaken s t 2 0 0x02 0

namespace Sys2Proof.Spec

/-- A wait retires where it may end and stands in place elsewhere (R191). -/
def waits (i : Instr) (s : State) (done : Prop) (st : CcState) : Prop :=
  (done → exec i s = .next (retired s 0 0 (pcNext s false))) ∧ (¬ done → exec i s = .next (setCc s { cc s with state := st }))

/-- The entries of an engine that the core issued and that are not complete (R188). -/
def incomplete (s : State) (e : Eng) (n : Half) : Prop := n ∈ s.openIssues s.cur e

/-- Number `n` is `m` or earlier; number `m` has been issued (R188). -/
def notAfter (n m : Half) : Prop := (m - n).toNat < 2 ^ 31
def issuedNo (s : State) (e : Eng) (m : Half) : Prop := (counter s e - m).toNat < 2 ^ 31

/-- A memory-slot write of the core that has not performed and that meets `p` (R191, R194). -/
def storing (s : State) (p : LongReq → Prop) : Prop :=
  ∃ r ∈ s.mem.reqs, r.core = s.cur ∧ r.dom = (s.core s.cur).dom ∧ r.engine = 1 ∧ r.kind ≠ .load ∧ p r

/-- Two byte ranges meet. -/
def meet (a n b m : Nat) : Prop := a < b + m ∧ b < a + n

/-- A range that no write of the core issued before SC `sc` is on its way to and that no incomplete entry of the core reads or writes (R191). -/
def rangeQuiet (s : State) (a n sc : Nat) : Prop :=
  ¬ storing s (fun r => r.issue < sc ∧ meet (r.va % 2 ^ 57) r.bytes a n) ∧
    ∀ x ∈ (s.core s.cur).eng.sboard, x.space = 2 → ¬ meet x.base x.len a n

/-- No overlay load of the core waits or runs (R182, R195). -/
def noOverlay (s : State) : Prop :=
  (∀ e ∈ (s.core s.cur).eng.ceq, e.form ≠ 0x12) ∧ ∀ a ∈ (s.core s.cur).eng.ce.active, a.entry.form ≠ 0x12

/-- Every dirty byte of the first-level cache is written back (R194, R252). -/
def nothingDirty (s : State) : Prop := ∀ key, (s.l1Line s.cur key).dirty = 0

end Sys2Proof.Spec

/-- R191, R188 and R196: the waits retire where their condition holds and stand in place elsewhere, changing nothing; a number
not issued, or a range above 2^48 bytes, is illegal. The range wait also writes the core's dirty bytes of the range back. -/
def Sys2Proof.Spec.Waits : Prop :=
  (∀ (s : State) (rs1 : BitVec 5), s.notInspecting → Spec.xReg s rs1 = 0 →
    Spec.waits (.calWaitEng 1 rs1) s (Spec.beIdle s) (.waitEng 1 0)) ∧
  (∀ (s : State) (e : BitVec 7) (rs1 : BitVec 5), s.notInspecting → 2 ≤ e.toNat → e.toNat ≤ 6 → Spec.xReg s rs1 = 0 →
    Spec.waits (.calWaitEng e rs1) s (∀ n, ¬ Spec.incomplete s (engOf e.toNat) n) (.waitEng e.toNat 0)) ∧
  (∀ (s : State) (e : BitVec 7) (rs1 : BitVec 5), s.notInspecting → 2 ≤ e.toNat → e.toNat ≤ 6 →
    Spec.xReg s rs1 ≠ 0 → (Spec.xReg s rs1).toNat < 2 ^ 32 →
    let m : Half := (Spec.xReg s rs1).setWidth 32
    (Spec.issuedNo s (engOf e.toNat) m →
      Spec.waits (.calWaitEng e rs1) s (∀ n, Spec.notAfter n m → ¬ Spec.incomplete s (engOf e.toNat) n) (.waitEng e.toNat m)) ∧
    (¬ Spec.issuedNo s (engOf e.toNat) m →
      ∃ t, exec (.calWaitEng e rs1) s = .next t ∧ Spec.trapTaken s t 2 0 0x02 0)) ∧
  (∀ (s : State) (rs1 : BitVec 5), s.notInspecting →
    Spec.waits (.calWaitSc rs1) s ((Spec.xReg s rs1).toNat ≤ s.sc s.cur) (.waitSc (Spec.xReg s rs1))) ∧
  (∀ (s : State) (rs1 rs2 : BitVec 5), s.notInspecting → Spec.xReg s rs2 = 0 →
    exec (.calWaitRng rs1 rs2) s = .next (Spec.retired s 0 0 (Spec.pcNext s false))) ∧
  (∀ (s : State) (rs1 rs2 : BitVec 5), 2 ^ 48 < (Spec.xReg s rs2).toNat →
    ∃ t, exec (.calWaitRng rs1 rs2) s = .next t ∧ Spec.trapTaken s t 2 0 0x02 0) ∧
  ∀ (s : State) (rs1 rs2 : BitVec 5),
    let a := (Spec.xReg s rs1).toNat % 2 ^ 57
    let n := (Spec.xReg s rs2).toNat
    s.notInspecting → 0 < n → n ≤ 2 ^ 48 → canonicalVA (Spec.xReg s rs1).toNat = true →
    s.spanFault (s.partOf s.cur) (s.core s.cur).rng .engine a (a + n - 1) false false = none →
    ∃ t, exec (.calWaitRng rs1 rs2) s = .next t ∧ (∀ r, Spec.xReg t r = Spec.xReg s r) ∧ Spec.be t = Spec.be s ∧
      (Spec.rangeQuiet s a n (s.sc s.cur) → (Spec.cc t).pc = Spec.pcNext s false ∧ (Spec.cc t).state = .running) ∧
      (¬ Spec.rangeQuiet s a n (s.sc s.cur) → (Spec.cc t).pc = (Spec.cc s).pc ∧
        (Spec.cc t).state = .waitRng a n (s.sc s.cur))

/-- R191 and R194: a core that waits goes on, at the next instruction, in the first cycle in which its condition holds, and
stands in place before it; a WFI and a cal.ovly, which have moved the pc already, then simply run. -/
def Sys2Proof.Spec.WaitsEnd : Prop :=
  (∀ s : State, s.live s.cur = true → s.waitOver s.cur = true →
    (∃ e m, (Spec.cc s).state = .waitEng e m) ∨ (∃ a n x, (Spec.cc s).state = .waitRng a n x) ∨
      (∃ x, (Spec.cc s).state = .waitSc x) ∨ (∃ p x, (Spec.cc s).state = .waitRel p x) ∨ (Spec.cc s).state = .waitFenceI →
    exec .ccWaitEnd s = .next (Spec.retired s 0 0 (Spec.pcNext s false))) ∧
  (∀ s : State, s.live s.cur = true → s.waitOver s.cur = true →
    (∃ m, (Spec.cc s).state = .waitOvly m) ∨ (Spec.cc s).state = .waitWfi →
    exec .ccWaitEnd s = .next (Spec.setCc s { Spec.cc s with state := .running })) ∧
  (∀ s : State, s.live s.cur = false ∨ s.waitOver s.cur = false → exec .ccWaitEnd s = .next s) ∧
  (∀ (s : State) (m : Half), (Spec.cc s).state = .waitEng 1 m → (s.waitOver s.cur = true ↔ Spec.beIdle s)) ∧
  (∀ (s : State) (x : Word), (Spec.cc s).state = .waitSc x → (s.waitOver s.cur = true ↔ x.toNat ≤ s.sc s.cur)) ∧
  (∀ (s : State) (a n x : Nat), (Spec.cc s).state = .waitRng a n x → (s.waitOver s.cur = true ↔ Spec.rangeQuiet s a n x)) ∧
  (∀ (s : State) (p x : Nat), (Spec.cc s).state = .waitRel p x →
    (s.waitOver s.cur = true ↔ ¬ Spec.storing s (fun r => r.issue < x))) ∧
  (∀ (s : State) (m : Half), (Spec.cc s).state = .waitOvly m → (s.waitOver s.cur = true ↔ ¬ Spec.incomplete s .ce m ∧ Spec.noOverlay s)) ∧
  ∀ s : State, (Spec.cc s).state = .waitWfi → (s.waitOver s.cur = true ↔ (Spec.cc s).mip &&& (Spec.cc s).mie ≠ 0)

/-- R194 and R252: cal.rel at a scope beyond core writes every dirty byte of the first-level cache back, and retires once no
memory-slot write issued before it is on its way; cal.acq at such a scope drops the clean bytes of every line and keeps the
dirty ones; at scope core both retire and change nothing else. -/
def Sys2Proof.Spec.ReleaseAndAcquire : Prop :=
  (∀ s : State, s.notInspecting →
    exec (.calRel 0) s = .next (Spec.retired s 0 0 (Spec.pcNext s false)) ∧
    exec (.calAcq 0) s = .next (Spec.retired s 0 0 (Spec.pcNext s false))) ∧
  (∀ (s : State) (scope : BitVec 7), s.notInspecting → 1 ≤ scope.toNat → scope.toNat ≤ 5 →
    ∃ t, exec (.calRel scope) s = .next t ∧ Spec.nothingDirty t ∧ (∀ r, Spec.xReg t r = Spec.xReg s r) ∧
      Spec.be t = Spec.be s ∧
      (¬ Spec.storing s (fun r => r.issue < s.sc s.cur) → (Spec.cc t).pc = Spec.pcNext s false ∧ (Spec.cc t).state = .running) ∧
      (Spec.storing s (fun r => r.issue < s.sc s.cur) →
        (Spec.cc t).pc = (Spec.cc s).pc ∧ (Spec.cc t).state = .waitRel scope.toNat (s.sc s.cur))) ∧
  ∀ (s : State) (scope : BitVec 7), s.notInspecting → 1 ≤ scope.toNat → scope.toNat ≤ 5 →
    ((Spec.cc s).l1.map Prod.fst).Nodup →
    ∃ t, exec (.calAcq scope) s = .next t ∧ (Spec.cc t).pc = Spec.pcNext s false ∧ (Spec.cc t).state = .running ∧
      t.mem = s.mem ∧ (∀ r, Spec.xReg t r = Spec.xReg s r) ∧ Spec.be t = Spec.be s ∧
      ∀ key, let l := s.l1Line s.cur key
        t.l1Line s.cur key = if l.dirty = 0 then { data := 0, valid := 0, dirty := 0 } else { l with valid := l.dirty, bad := 0 }

/-- All three of the statements Waits, WaitsEnd and ReleaseAndAcquire. -/
def Obligations.WaitsAndReleases : Prop := Spec.Waits ∧ Spec.WaitsEnd ∧ Spec.ReleaseAndAcquire

namespace Sys2Proof.Spec

/-- The progress registers of one of the core's own sequencers: MX, PX or CE (R20). -/
def ownProg (s : State) (e : Nat) : Prog :=
  if e = 2 then (s.core s.cur).eng.mx.prog else if e = 3 then (s.core s.cur).eng.px.prog else (s.core s.cur).eng.ce.prog

/-- STATUS of R210. -/
def statusWord (p : Prog) : Word :=
  BitVec.ofNat 64 (p.cause.toNat * 2 ^ 56 + p.state.toNat * 2 ^ 53 + (if p.resumed then 2 ^ 52 else 0) +
    p.flags.toNat * 2 ^ 46 + p.issue.toNat)

/-- A core that may ask for hold cycles (R79, R196). -/
def mayDrift (s : State) : Prop := (cc s).mode = .m ∧ (cc s).calctl.getLsbD 8 = true

/-- A request that the drift unit accepts (R196, R391). -/
def driftAccepts (s : State) (b n : Nat) : Prop :=
  s.basin + 4096 ≤ b ∧ s.drift.reqs.length < 4 ∧ ∀ r ∈ s.drift.reqs, b + n < r.b ∨ r.b + r.n < b

end Sys2Proof.Spec

/-- R192, R193, R209 and R210: cal.prgrd gives rd the STATUS or the step count of the core's own sequencers; cal.prgwr in M mode
sets the step count of one that is idle or stopped; in U mode, or while the sequencer runs, it is illegal; cal.rngwr sets
one range register and no other, and the reserved bits of its first word read zero (R242, R6). -/
def Sys2Proof.Spec.ProgressAndRangeRegisters : Prop :=
  (∀ (s : State) (e : BitVec 7) (rd rs1 : BitVec 5), s.notInspecting → 2 ≤ e.toNat → e.toNat ≤ 4 →
    (Spec.xReg s rs1 = 0 → exec (.calPrgrd e rd rs1) s =
      .next (Spec.retired s rd (Spec.statusWord (Spec.ownProg s e.toNat)) (Spec.pcNext s false))) ∧
    (Spec.xReg s rs1 = 1 → exec (.calPrgrd e rd rs1) s =
      .next (Spec.retired s rd ((Spec.ownProg s e.toNat).steps.setWidth 64) (Spec.pcNext s false))) ∧
    (0x100 ≤ (Spec.xReg s rs1).toNat → ∃ t, exec (.calPrgrd e rd rs1) s = .next t ∧ Spec.trapTaken s t 2 0 0x02 0)) ∧
  (∀ (s : State) (e : BitVec 7) (rs1 rs2 : BitVec 5), s.notInspecting → 2 ≤ e.toNat → e.toNat ≤ 4 →
    Spec.xReg s rs1 = 1 → (Spec.cc s).mode = .m →
    (Spec.ownProg s e.toNat).state = 0 ∨ (Spec.ownProg s e.toNat).state = 2 →
    ∃ t, exec (.calPrgwr e rs1 rs2) s = .next t ∧ (Spec.cc t).pc = Spec.pcNext s false ∧ t.mem = s.mem ∧ t.agenda = s.agenda ∧
      Spec.be t = Spec.be s ∧ (∀ r, Spec.xReg t r = Spec.xReg s r) ∧
      ∀ f, 2 ≤ f → f ≤ 4 → Spec.ownProg t f =
        if f = e.toNat then { Spec.ownProg s f with steps := (Spec.xReg s rs2).setWidth 32 } else Spec.ownProg s f) ∧
  (∀ (s : State) (e : BitVec 7) (rs1 rs2 : BitVec 5), 2 ≤ e.toNat → e.toNat ≤ 4 → Spec.xReg s rs1 = 1 →
    (Spec.cc s).mode = .u ∨ (Spec.ownProg s e.toNat).state = 1 →
    ∃ t, exec (.calPrgwr e rs1 rs2) s = .next t ∧ Spec.trapTaken s t 2 0 0x02 0) ∧
  ∀ (s : State) (n : BitVec 7) (rs1 rs2 : BitVec 5), s.notInspecting → n.toNat ≤ 15 →
    exec (.calRngwr n rs1 rs2) s = .next ((Spec.retired s 0 0 (Spec.pcNext s false)).modCore s.cur fun k =>
      { k with
      rng := (s.core s.cur).rng.setIfInBounds n.toNat {
        w0 := Spec.W ((Spec.xReg s rs1).toNat / 2 ^ 61 * 2 ^ 61 + (Spec.xReg s rs1).toNat % 2 ^ 57 / 2 ^ 16 * 2 ^ 16 : Nat)
        w1 := Spec.xReg s rs2 } })

/-- R196, R200 and R391: cal.drift of a core that may asks for hold cycles: an accepted request joins the drift unit's and
counts in DRIFTS.PEND, a refused one sets DRIFTS.REF; in U mode, without DRIFTEN, or with a number of holds outside 1 to
255 it is illegal. DRREQ asks for its N low bits at the B written before, with DRREJ for a refusal. -/
def Sys2Proof.Spec.DriftRequests : Prop :=
  (∀ (s : State) (rs1 rs2 : BitVec 5),
    let b := (Spec.xReg s rs1).toNat
    let n := (Spec.xReg s rs2).toNat
    s.notInspecting → Spec.mayDrift s → 1 ≤ n → n ≤ 255 →
    ∃ t, exec (.calDrift rs1 rs2) s = .next t ∧ (Spec.cc t).pc = Spec.pcNext s false ∧ t.mem = s.mem ∧ Spec.be t = Spec.be s ∧
      (∀ r, Spec.xReg t r = Spec.xReg s r) ∧
      (Spec.driftAccepts s b n → t.drift = { s.drift with reqs := s.drift.reqs ++ [⟨b, n, some s.cur⟩] } ∧
        (Spec.cc t).drifts = (Spec.cc s).drifts + 1) ∧
      (¬ Spec.driftAccepts s b n → t.drift = s.drift ∧ (Spec.cc t).drifts = (Spec.cc s).drifts ||| 0x100)) ∧
  (∀ (s : State) (rs1 rs2 : BitVec 5), ¬ Spec.mayDrift s ∨ (Spec.xReg s rs2).toNat = 0 ∨ 255 < (Spec.xReg s rs2).toNat →
    ∃ t, exec (.calDrift rs1 rs2) s = .next t ∧ Spec.trapTaken s t 2 0 0x02 0) ∧
  ∀ (s : State) (v : Word),
    let b := s.drift.reqB.toNat
    let n := v.toNat % 256
    (Spec.driftAccepts s b n → 1 ≤ n →
      exec (.drreq v) s = .next { s with drift := { s.drift with reqs := s.drift.reqs ++ [⟨b, n, none⟩] } }) ∧
    (¬ Spec.driftAccepts s b n ∨ n = 0 → exec (.drreq v) s = .next { s with drift := { s.drift with rej := true } })

/-- Both of the statements ProgressAndRangeRegisters and DriftRequests. -/
def Obligations.RangesProgressAndDrift : Prop := Spec.ProgressAndRangeRegisters ∧ Spec.DriftRequests

namespace Sys2Proof.Spec

/-! ### The module: readiness, time and firmware (R389 to R398, R354, R355, R387, R402) -/

/-- The ready bit of a function (R395). -/
def readyBit (s : State) (f : Func) : Bool :=
  match f with
  | .link n => s.ready.link.getLsbD n
  | .fe n => s.ready.fe.getLsbD n
  | .die n => s.ready.die.getLsbD n
  | .stack n => s.ready.stack.getLsbD n
  | .hwa => s.ready.hwa
  | .hwb => s.ready.hwb
  | .eth => s.ready.eth

/-- A function that exists (R9, R395). -/
def exists_ (f : Func) : Prop :=
  match f with
  | .link n => n < 32
  | .fe n => n < 16
  | .die n => n < 8
  | .stack n => n < 8
  | _ => True

/-- One ready bit takes value `v` and no other changes. -/
def oneBit (s t : State) (f : Func) (v : Bool) : Prop :=
  ∀ g, exists_ g → readyBit t g = if g = f then v else readyBit s g

/-- PEND of DRIFTS of core `c` (R200). -/
def pending (s : State) (c : Nat) : Nat := (s.core c).cc.drifts.toNat % 8

/-- The frequency code of an island, 0 (1.6 GHz) where nothing was asked (R397), and its REF. -/
def freqOf (s : State) (n : Nat) : Nat := ((sget s.islands n).map (·.freq.toNat)).getD 0
def refOf (s : State) (n : Nat) : Bool := ((sget s.islands n).map (·.ref)).getD false

end Sys2Proof.Spec

/-- R395, R396, R357, R389 and R390: a function that becomes ready sets its own bit and no other; one that fails clears it, a
failed die with every core of it fenced; a link that loses its latency clears its bit; drift lock loads the basin count and
sets LOCK and DRLOCK, and a phase error of half a cycle or more clears both. -/
def Sys2Proof.Spec.Readiness : Prop :=
  (∀ (s : State) (f : Func), Spec.exists_ f → ∃ t, exec (.functionReady f) s = .next t ∧ Spec.oneBit s t f true ∧
    t.ready.drlock = s.ready.drlock ∧ t.cores = s.cores ∧ t.mem.hbm = s.mem.hbm ∧ t.basin = s.basin ∧
    ∀ n, f = .die n → ∀ k, k / 2 ^ 30 = n → sget t.mem.check k = none) ∧
  (∀ (s : State) (f : Func), Spec.exists_ f → ∃ t, exec (.readyBitFall f) s = .next t ∧ Spec.oneBit s t f false ∧
    t.ready.drlock = s.ready.drlock ∧ t.basin = s.basin ∧
    ∀ n, f = .die n → t.mem = s.mem ∧ (∀ c, dieOf c = n → (t.core c).fenced = true) ∧ ∀ c, dieOf c ≠ n → t.core c = s.core c) ∧
  (∀ (s : State) (n : Nat), n < 32 → ∃ t, exec (.linkLatencyLoss n) s = .next t ∧ Spec.oneBit s t (.link n) false ∧
    t.ready.drlock = s.ready.drlock ∧ t.basin = s.basin) ∧
  (∀ (s : State) (ref : Word), exec (.driftLock ref) s = .next { s with
    basin := ref.toNat, drift := { s.drift with lock := true }, ready := { s.ready with drlock := true } }) ∧
  ∀ (s : State) (e : BitVec 16), ∃ t, exec (.lockLoss e) s = .next t ∧ t.drift.pherr = e ∧ t.basin = s.basin ∧
    t.drift.reqs = s.drift.reqs ∧ t.drift.holds = s.drift.holds ∧ t.cores = s.cores ∧ t.mem = s.mem ∧
    (128 ≤ e.toInt.natAbs → t.drift.lock = false ∧ t.ready.drlock = false) ∧
    (e.toInt.natAbs < 128 → t.drift.lock = s.drift.lock ∧ t.ready.drlock = s.ready.drlock)

/-- R391, R196 and R5: the hold cycles that follow the cycle at hand are inserted: the requests whose basin count has come
leave the drift unit, DRSTAT counts their holds, the PEND of a core that asked falls, and neither the basin count nor any
domain, memory or register else changes. -/
def Sys2Proof.Spec.HoldCycles : Prop :=
  ∀ s : State, ∃ t, exec .holdCycles s = .next t ∧
    t.drift.reqs = s.drift.reqs.filter (fun r => !decide (r.b ≤ s.basin)) ∧
    t.drift.holds.toNat =
      (s.drift.holds.toNat + ((s.drift.reqs.filter fun r => decide (r.b ≤ s.basin)).map (·.n)).sum) % 2 ^ 32 ∧
    t.basin = s.basin ∧ t.doms = s.doms ∧ t.mem = s.mem ∧ t.io = s.io ∧ t.agenda = s.agenda ∧ t.drift.lock = s.drift.lock ∧
    ∀ c, (t.core c).be = (s.core c).be ∧ (t.core c).cc.x = (s.core c).cc.x ∧ (t.core c).cc.pc = (s.core c).cc.pc ∧
      Spec.pending t c = Spec.pending s c -
        (s.drift.reqs.filter fun r => decide (r.b ≤ s.basin) && decide (r.core = some c)).length

/-- Both of the statements Readiness and HoldCycles. -/
def Obligations.ReadinessAndHold : Prop := Spec.Readiness ∧ Spec.HoldCycles

namespace Sys2Proof.Spec

/-- No domain of a partition of `ps` is left, and no hardware slot of theirs is busy (R387, step 2). -/
def quiet (s : State) (ps : List Nat) : Prop :=
  (∀ e ∈ s.doms, e.2.part ∈ ps → e.2.phase = .ended) ∧
    ∀ e ∈ s.io.slots, ∀ q p, e.2.queue = some q → s.partOfQueue q = some p → p ∈ ps → e.2.idle = true

/-- A partition that holds exactly the quarters of `q` (R14, R386). -/
def holds (s : State) (p q : Nat) : Prop := bitOf (s.partWord p 0) 63 = true ∧ s.partWord p 0 / 2 ^ 56 % 16 = q

/-- The pairs of stacks and dies of the quarters of `q`, two of each a quarter, and its front ends, four a quarter (R14). -/
def dieSet (q n : Nat) : Bool := decide (n < 8) && bitOf q (n / 2)
def feSet (q n : Nat) : Bool := decide (n < 16) && bitOf q (n / 4)

/-- Partition `p` owns the quarters of `q` and nothing else: SIZE, QMASK, SMASK, FMASK and DMASK of its table (R386). -/
def owns (t : State) (p q size : Nat) : Prop :=
  holds t p q ∧ t.partWord p 0 / 2 ^ 61 % 4 = size ∧
    (∀ n < 8, bitOf (t.partWord p 0) (48 + n) = dieSet q n ∧ bitOf (t.partWord p 0) (24 + n) = dieSet q n) ∧
    ∀ n < 16, bitOf (t.partWord p 0) (32 + n) = feSet q n

/-- The merge unit reports a status and lifts every quiesce (R387, step 7; R402). -/
def ended (t : State) (st : Nat) : Prop :=
  t.hw.mgDone = true ∧ t.hw.mgStatus.toNat = st ∧ ∀ p < 4, (t.part p).quiesced = false

/-- The merges of R387: the target, its two parts, and the SIZE after and before. -/
def joins : List (Nat × Nat × Nat × Nat) := [(3, 1, 2, 1), (12, 4, 8, 1), (15, 3, 12, 2)]

end Sys2Proof.Spec

/-- R14, R386, R387 and R402: a merge of the partitions that hold the two parts of its target, quiet and with no update in
progress, gives the lower one the target's stacks, dies, front ends and quarters and takes V from the other, status 0; a
split gives them back; while a domain of theirs has not ended either ends with status 2, the tables untouched. -/
def Obligations.MergeAndSplit : Prop :=
  ∀ row ∈ Spec.joins, ∀ (s : State) (lo hi : Nat),
    let q := row.1
    let a := row.2.1
    let b := row.2.2.1
    (lo < 4 → hi < 4 → lo < hi → s.hw.updating = false → Spec.holds s lo a → Spec.holds s hi b →
      (∀ p < 4, p ≠ lo → p ≠ hi → bitOf (s.partWord p 0) 63 = true → s.partWord p 0 / 2 ^ 56 % 16 &&& q = 0) →
      bitOf a lo = true → (∀ k < lo, bitOf q k = false) →
      (Spec.quiet s [lo, hi] → ∃ t, exec (.merge (BitVec.ofNat 4 q)) s = .next t ∧ Spec.owns t lo q row.2.2.2 ∧
        bitOf (t.partWord hi 0) 63 = false ∧ Spec.ended t 0 ∧ t.cores = s.cores ∧ t.mem.hbm = s.mem.hbm ∧
        t.hw.version = s.hw.version + 1 ∧ ∀ p < 4, p ≠ lo → p ≠ hi → (t.part p).words = (s.part p).words) ∧
      ((∃ e ∈ s.doms, (e.2.part = lo ∨ e.2.part = hi) ∧ e.2.phase ≠ .ended) →
        ∃ t, exec (.merge (BitVec.ofNat 4 q)) s = .next t ∧ Spec.ended t 2 ∧
          (∀ p < 4, (t.part p).words = (s.part p).words) ∧ t.mem = s.mem ∧ t.io = s.io)) ∧
    (lo < 4 → s.hw.updating = false → Spec.holds s lo q → bitOf a lo = true → (∀ k < lo, bitOf q k = false) →
      (∀ p < 4, p ≠ lo → bitOf (s.partWord p 0) 63 = true → s.partWord p 0 / 2 ^ 56 % 16 &&& q = 0) →
      hi < 4 → bitOf b hi = true → (∀ k < hi, bitOf b k = false) →
      (Spec.quiet s [lo] → ∃ t, exec (.split (BitVec.ofNat 4 q)) s = .next t ∧ Spec.owns t lo a (row.2.2.2 - 1) ∧
        Spec.owns t hi b (row.2.2.2 - 1) ∧ Spec.ended t 0 ∧ t.cores = s.cores ∧ t.mem.hbm = s.mem.hbm) ∧
      ((∃ e ∈ s.doms, e.2.part = lo ∧ e.2.phase ≠ .ended) →
        ∃ t, exec (.split (BitVec.ofNat 4 q)) s = .next t ∧ Spec.ended t 2 ∧
          (∀ p < 4, (t.part p).words = (s.part p).words) ∧ t.mem = s.mem ∧ t.io = s.io))

/-- R354, R355 and R388: 100 µs without a heartbeat, a running standby takes over, and nothing else starts it; a live update of
FORMAT 1 boots the standby and hands over at the next boundary, any other FORMAT is aborted; the state table's copies are
written in turn with the next VERSION, and after each cycle the last one says how the module stands. R125, R397 and R398: BEIRQ leaves a
bundle-engine interrupt pending; a frequency request takes effect, and clears the ready bits behind a stopped clock, unless
Timed work uses the island or the code is reserved, which set REF. -/
def Obligations.FirmwareRequests : Prop :=
  (∀ s : State, exec .headwaterTakeover s =
    .next (if s.hw.heartbeat = false ∧ (if s.hw.activeB then s.ready.hwa else s.ready.hwb) = true ∧
        s.hw.silentAt + 160000 ≤ s.basin then
      { s with hw := { s.hw with activeB := !s.hw.activeB, heartbeat := true } } else s)) ∧
  (∀ (s : State) (format : Nat), s.hw.updating = false →
    (format = 1 → ∃ t, exec (.liveUpdate format) s = .next t ∧ t.hw = { s.hw with updating := true } ∧ t.cores = s.cores ∧
      t.calendar = s.calendar ++ [⟨none, s.basin + 1, .op s.cur (.liveUpdate format)⟩]) ∧
    (format ≠ 1 → exec (.liveUpdate format) s = .next s)) ∧
  (∀ (s : State) (format : Nat), s.hw.updating = true → ∃ t, exec (.liveUpdate format) s = .next t ∧
    (∃ a b, t.hw = { s.hw with
      activeB := !s.hw.activeB, updating := false, heartbeat := true, version := s.hw.version + 1, copyB := !s.hw.copyB
      tableA := a, tableB := b }) ∧ t.hw.table = ⟨s.hw.version + 1, s.tableBody⟩ ∧
    (if s.hw.copyB then t.hw.tableB = s.hw.tableB else t.hw.tableA = s.hw.tableA) ∧
    t.cores = s.cores ∧ t.doms = s.doms ∧ t.mem = s.mem ∧ t.io = s.io) ∧
  (∀ s : State, s.agenda = [] → (∀ r ∈ s.drift.reqs, s.basin < r.b) →
    ∃ t, step s = .next t ∧ t.basin = s.basin + 1 ∧ t.hw.table.body = s.tableBody) ∧
  (∀ s : State, s.timed s.cur = false → (Spec.be s).pend14 = none →
    ∃ e, exec .beirq s = .next (Spec.setBe s { Spec.be s with pend14 := some (e, s.sc s.cur) }) ∧ e.cause = 0x14 ∧
      e.subcause = 0 ∧ e.engine = 1) ∧
  (∀ s : State, (Spec.be s).pend14 ≠ none → exec .beirq s = .next s) ∧
  ∀ (s : State) (n : Nat) (f : BitVec 4), n < 256 →
    (s.islandTimed n = true ∨ 5 ≤ f.toNat → ∃ t, exec (.frequencyRequest n f) s = .next t ∧ Spec.refOf t n = true ∧
      Spec.freqOf t n = Spec.freqOf s n ∧ t.ready = s.ready ∧ t.cores = s.cores ∧ t.mem = s.mem) ∧
    (s.islandTimed n = false → f.toNat < 5 → ∃ t, exec (.frequencyRequest n f) s = .next t ∧ Spec.freqOf t n = f.toNat ∧
      Spec.refOf t n = Spec.refOf s n ∧ (∀ m, m ≠ n → Spec.freqOf t m = Spec.freqOf s m) ∧ t.cores = s.cores ∧
      (f ≠ 4 ∨ (∀ l, Func.link l ∉ islandFuncs n) → t.mem = s.mem) ∧ (f.toNat < 4 → t.ready = s.ready) ∧
      (f = 4 → ∀ g, Spec.exists_ g → Spec.readyBit t g = (Spec.readyBit s g && !(islandFuncs n).contains g)))

namespace Sys2Proof.Spec

/-- The registers of the module that read back what a write leaves in their writable bits (R6, R254, R386, R392 to R394). -/
def plainRegister (r : RegTarget) : Option Word :=
  match r with
  | .partTable p i =>
    if p < 4 ∧ i < 16 then
      some (if i = 0 then 0xFFFFFFFFFFFFFFFF else if i = 6 then 0x1FFFFFFFF else if i ≤ 7 then 0x3FFFFFFFFFFFF
        else 0xF000000FFFFFC000)
    else none
  | .boundary d => if d < 8 then some 0x3FF else none
  | .res _ n i => if n < 8 ∧ i < 2 then some (if i = 0 then 0xFF00FFFFFFFFF000 else 0xFFFFFFFFF) else none
  | .ecc _ _ => some 0xFFFFFFFF
  | .pgovf _ => some 0xFFFFFFFF
  | .fec _ _ => some 0xFFFFFFFF
  | .nocerr _ => some 0xFFFFFFFF
  | .lost p => if p < 4 then some 0xFFFFFFFF else none
  | .audofs _ => some 0xFFFFF
  | .audskip _ => some 0xFFFFFFFF
  | .auddone _ => some 0xFFFFFFFF
  | .audmis _ => some 0xFFFFFFFF
  | .pcsel _ n => if n < 8 then some 0x1FF else none
  | .pc _ n => if n < 8 then some 0xFFFFFFFFFFFF else none
  | .driften _ => some 1
  | _ => none

end Sys2Proof.Spec

/-- R6, R251, R254, R374, R386 and R391 to R394: a write of a register of the module leaves its writable bits as written, no
byte of stack memory changed, and a write of a read-only one changes nothing; a write that sets QUAR has every domain of
the partition killed with status 16 (R45); a table write of the firmware sets a
region entry, a core's errata, a monitor region, bytes of the walk store or the monitor region, and adds a shadow
frame. -/
def Obligations.RegisterAndTableWrites : Prop :=
  (∀ (s : State) (r : RegTarget) (v m : Word), Spec.plainRegister r = some m →
    swf (⟨0, 0⟩ : Rng) s.mem.res = true →
    (∀ p, r = .partTable p 0 → v.getLsbD 60 = true → bitOf (s.partWord p 0) 60 = true) →
    ∃ t, exec (.registerWrite r v) s = .next t ∧ t.regRead r = v &&& m ∧ t.mem.hbm = s.mem.hbm ∧ t.basin = s.basin ∧
      t.doms = s.doms ∧ t.io.slots = s.io.slots ∧ ∀ c, (t.core c).be = (s.core c).be ∧ (t.core c).eng = (s.core c).eng) ∧
  (∀ (s : State) (v : Word) (p : Nat), p < 4 → v.getLsbD 60 = true → bitOf (s.partWord p 0) 60 = false →
    ∃ t, exec (.registerWrite (.partTable p 0) v) s = .next t ∧ t.regRead (.partTable p 0) = v ∧ t.doms = s.doms ∧
      (∀ e ∈ s.doms, e.2.part = p → e.2.phase ≠ .ended → Turn.op 0 (.kill e.1 16) ∈ t.agenda) ∧
      ∀ c, (t.core c).be = (s.core c).be ∧ (t.core c).eng = (s.core c).eng) ∧
  (∀ (s : State) (v : Word) (n st : Nat), exec (.registerWrite (.audcnt n) v) s = .next s ∧
    exec (.registerWrite (.audfail n) v) s = .next s ∧ exec (.registerWrite (.wdc n st) v) s = .next s ∧ exec (.registerWrite .drstat v) s = .next s ∧
    exec (.registerWrite (.ready 0) v) s = .next s ∧ exec (.registerWrite .mgstat v) s = .next s) ∧
  (∀ (s : State) (i : Nat) (valid : Bool) (key : BitVec 16) (p base len : Nat) (rd wr a d : Bool), i < 65536 → p < 4 →
    exec (.headwaterTableWrite (.region i valid key p base len rd wr a d)) s =
      .next { s with io := { s.io with regions := sinsert s.io.regions i ⟨valid, key, p, base, len, rd, wr, a, d⟩ } }) ∧
  (∀ (s : State) (p st f : Nat), p < 4 → st < 8 → f < 2 ^ 20 →
    exec (.headwaterTableWrite (.shadowFrame p st f)) s =
      .next (s.modPart p fun t => { t with shadow := t.shadow ++ [(st, f)] })) ∧
  (∀ (s : State) (c : Nat) (e : BitVec 3), c < 4096 →
    exec (.headwaterTableWrite (.imageErrata c e)) s = .next (s.modCore c fun k => { k with errata := e })) ∧
  (∀ (s : State) (c r : Nat) (b : BitVec 32), c < 4096 → r = 14 ∨ r = 15 →
    exec (.headwaterTableWrite (.monitorRegion c r b)) s =
      .next (s.modEng c fun k => { k with
        regions := k.regions.setIfInBounds r (Spec.W ((2 ^ 63 + 2 ^ 62 + 2 ^ 61 + b.toNat : Nat))) })) ∧
  (∀ (s : State) (c ofs : Nat) (bs : List Byte), c < 4096 → ofs + bs.length ≤ 0x4000 →
    Memory.wf (s.core c).eng.ispad = true →
    ∃ t, exec (.headwaterTableWrite (.monitor c ofs bs)) s = .next t ∧ t.mem = s.mem ∧
      ∀ j, byteAt (t.core c).eng.ispad j =
        if 0x1C000 + ofs ≤ j ∧ j < 0x1C000 + ofs + bs.length then bs.getD (j - (0x1C000 + ofs)) 0
        else byteAt (s.core c).eng.ispad j) ∧
  ∀ (s : State) (st ofs : Nat) (bs : List Byte), st < 8 → ofs + bs.length ≤ 32768 → Memory.wf s.mem.walkStore = true →
    ∃ t, exec (.headwaterTableWrite (.walkStore st ofs bs)) s = .next t ∧ t.mem.hbm = s.mem.hbm ∧ t.cores = s.cores ∧
      ∀ j, byteAt t.mem.walkStore j =
        if st * 32768 + ofs ≤ j ∧ j < st * 32768 + ofs + bs.length then bs.getD (j - (st * 32768 + ofs)) 0
        else byteAt s.mem.walkStore j

namespace Sys2Proof.Spec

/-! ### Host queues (R339 to R353) -/

/-- Word `i` of a queue record with bits `lo` to `lo + len − 1` replaced (R339). -/
def recSet (r : QRec) (i lo len v : Nat) : QRec :=
  let w := ((r.w[i]?).getD 0).toNat
  ⟨r.w.setIfInBounds i (BitVec.ofNat 64 (w % 2 ^ lo + v % 2 ^ len * 2 ^ lo + w / 2 ^ (lo + len) * 2 ^ (lo + len)))⟩

/-- Field of a queue record. -/
def recGet (r : QRec) (i lo len : Nat) : Nat := ((r.w[i]?).getD 0).toNat / 2 ^ lo % 2 ^ len

/-- TAIL, HEAD, CHEAD, CTAIL, SEQ and STATE (R339). -/
def tail (r : QRec) : Nat := recGet r 1 0 32
def head (r : QRec) : Nat := recGet r 1 32 32
def chead (r : QRec) : Nat := recGet r 3 32 32
def ctail (r : QRec) : Nat := recGet r 2 0 32
def seqOf (r : QRec) : Nat := recGet r 2 32 32
def stateOf (r : QRec) : Nat := recGet r 0 58 2

/-- Queue `q` is mapped in slot `n` and belongs to a partition. -/
def mapped (s : State) (q n : Nat) : Prop :=
  s.slotOf q = some n ∧ (s.slot n).queue = some q ∧ (s.partOfQueue q).isSome = true ∧ q < 131072

/-- A doorbell that the port lets through: V and the key match, and the record keeps its ranges (R339, R341). -/
def doorbellOk (s : State) (n : Nat) (rkey : BitVec 32) : Prop :=
  recGet (s.slot n).rec_ 0 63 1 = 1 ∧ recGet (s.slot n).rec_ 5 0 32 = rkey.toNat ∧ (s.slot n).rec_.inRange = true

/-- The data doorbell's conditions (R341). -/
def accepted341 (r : QRec) (v : Word) : Prop :=
  ((BitVec.ofNat 32 (v.toNat % 2 ^ 32) - BitVec.ofNat 32 (head r)) : Half).toNat ≤ 2 ^ recGet r 0 54 4 ∧
    ((BitVec.ofNat 32 (v.toNat % 2 ^ 32) - BitVec.ofNat 32 (tail r)) : Half).toNat < 2 ^ 31 ∧
    ((BitVec.ofNat 32 (v.toNat / 2 ^ 32) - BitVec.ofNat 32 (chead r)) : Half).toNat ≤ 2 ^ recGet r 0 50 4

/-- The slot's record replaced, and nothing else. -/
def withRec (s : State) (n : Nat) (r : QRec) : State := s.setSlot n { s.slot n with rec_ := r }

/-- The records that leave for the host in a step, and the status of the last. -/
def sentAll (s t : State) (q : Nat) (k : Nat) : Prop :=
  ∃ ms : List OutMsg, t.io.out = s.io.out ++ ms ∧ ms.length = k ∧ ∀ m ∈ ms, ∃ qp rkey a ws, m = .completion q qp rkey a ws
def lastStatus (t : State) (q st : Nat) : Prop :=
  ∃ qp rkey a w0 ws, t.io.out.getLast? = some (.completion q qp rkey a (w0 :: ws)) ∧ w0.toNat / 2 ^ 8 % 2 ^ 8 = st

end Sys2Proof.Spec

/-- R341 and R345: an accepted data doorbell on a mapped queue sets TAIL and CHEAD and nothing else; one out of range puts the
queue in STATE 1 and sends every held record and one with status 13; the control doorbell's 1 sets HEAD to TAIL and STATE to
0, on a queue in STATE 0 or 1, any other value does nothing; a wrong key, or a queue of no partition, gets a NAK. -/
def Sys2Proof.Spec.Doorbells : Prop :=
  (∀ (s : State) (q n : Nat) (rkey : BitVec 32) (v : Word), Spec.mapped s q n → Spec.doorbellOk s n rkey →
    (Spec.accepted341 (s.slot n).rec_ v → exec (.dataDoorbell q rkey v) s =
      .next (Spec.withRec s n (Spec.recSet (Spec.recSet (s.slot n).rec_ 1 0 32 v.toNat) 3 32 32 (v.toNat / 2 ^ 32)))) ∧
    (¬ Spec.accepted341 (s.slot n).rec_ v → ∃ t, exec (.dataDoorbell q rkey v) s = .next t ∧
      Spec.stateOf (t.slot n).rec_ = 1 ∧ (t.slot n).held = [] ∧ Spec.sentAll s t q ((s.slot n).held.length + 1) ∧
      Spec.lastStatus t q 13 ∧ t.cores = s.cores ∧ t.mem = s.mem)) ∧
  (∀ (s : State) (q n : Nat) (rkey : BitVec 32) (v : Word), Spec.mapped s q n → Spec.doorbellOk s n rkey →
    (v = 1 → Spec.stateOf (s.slot n).rec_ ≤ 1 → exec (.controlDoorbell q rkey v) s =
      .next (Spec.withRec s n
        (Spec.recSet (Spec.recSet (s.slot n).rec_ 1 32 32 (Spec.tail (s.slot n).rec_)) 0 58 2 0))) ∧
    (v ≠ 1 ∨ 2 ≤ Spec.stateOf (s.slot n).rec_ → exec (.controlDoorbell q rkey v) s = .next s)) ∧
  (∀ (s : State) (q : Nat) (rkey : BitVec 32) (v : Word), q < 131072 →
    s.partOfQueue q = none ∨ Spec.recGet (s.queueRec q) 0 63 1 = 0 ∨ Spec.recGet (s.queueRec q) 5 0 32 ≠ rkey.toNat →
    exec (.dataDoorbell q rkey v) s = .next (s.emit (.doorbellNak q)) ∧
    exec (.controlDoorbell q rkey v) s = .next (s.emit (.doorbellNak q)))

/-- R343, R345 to R348: firmware loads the queue whose doorbell came first into a free slot at its PRIO; a free dispatcher takes
the ready command of its front end that R347 puts first, consumes it, HEAD going on by one, and carries it out, or ends it
with status 12 and STATE 1 where it is invalid, memory but for the decode of the command's sectors as it was; an ageing quantum raises the level of every slot of the partition with a
ready command, to 7 at most, and of no other. -/
def Obligations.MappingAndDispatch : Prop :=
  (∀ (s : State) (p q n : Nat) (rest : List Nat), p < 4 → (s.part p).pending = q :: rest → s.hw.updating = false →
    s.mapSlot p = some n → (s.slot n).queue = none → (s.queueRec q).inRange = true → Spec.recGet (s.queueRec q) 0 63 1 = 1 →
    ∃ t, exec (.queueMapping p) s = .next t ∧ (t.slot n).queue = some q ∧ (t.slot n).rec_ = s.queueRec q ∧
      (t.slot n).level = Spec.recGet (s.queueRec q) 0 60 3 ∧ (t.slot n).execs = [] ∧ (t.slot n).held = [] ∧
      (∀ m, m ≠ n → t.slot m = s.slot m) ∧ (t.part p).pending = (q :: rest).filter (· != q) ∧ t.mem = s.mem ∧
      t.cores = s.cores) ∧
  (∀ (s : State) (fe n q : Nat), fe < 16 → sget s.io.disps fe = none → s.dispatchSlot fe = some n →
    (s.slot n).queue = some q →
    let p := (s.partOfQueue q).getD 0
    let c := s.nextCmd p (s.slot n).rec_
    let r := Spec.recSet (s.slot n).rec_ 1 32 32 (Spec.head (s.slot n).rec_ + 1)
    let read := (s.iaRead p (Spec.recGet (s.slot n).rec_ 0 0 50 +
      64 * (Spec.head (s.slot n).rec_ % 2 ^ Spec.recGet (s.slot n).rec_ 0 54 4)) 64).1
    (s.cmdValid p c = true → ∃ t, exec (.dispatch fe) s = .next t ∧ (t.slot n).rec_ = r ∧
      (t.slot n).execs = (s.slot n).execs ++ [c] ∧ (t.slot n).level = Spec.recGet r 0 60 3 ∧ (t.slot n).lastDispatch = s.basin ∧
      sget t.io.disps fe = some ⟨n, c⟩ ∧ t.agenda = .op s.cur (commandEvent fe c.opcode) :: s.agenda ∧
      (∀ m, m ≠ n → t.slot m = s.slot m) ∧ t.mem = read.mem ∧ t.cores = s.cores) ∧
    (s.cmdValid p c = false → s.slotOf q = some n → ∃ t, exec (.dispatch fe) s = .next t ∧
      Spec.stateOf (t.slot n).rec_ = 1 ∧ Spec.head (t.slot n).rec_ = Spec.head r ∧ Spec.lastStatus t q 12 ∧
      t.mem = read.mem ∧ t.cores = s.cores)) ∧
  (∀ (s : State) (fe : Nat), fe < 16 → (sget s.io.disps fe).isSome = true ∨ s.dispatchSlot fe = none →
    exec (.dispatch fe) s = .next s) ∧
  ∀ (s : State) (p : Nat), p < 4 → ∃ t, exec (.ageingQuantum p) s = .next t ∧ t.mem = s.mem ∧ t.cores = s.cores ∧
    ∀ n, t.slot n = if n ∈ s.slotsOf p ∧ s.slotReady n = true then { s.slot n with level := min 7 ((s.slot n).level + 1) }
      else s.slot n

namespace Sys2Proof.Spec

/-- The command of opcode `op` that front end `fe` has at hand, of the queue mapped in slot `n`. -/
def hand (s : State) (fe n q op : Nat) (c : Cmd) : Prop :=
  fe < 16 ∧ sget s.io.disps fe = some ⟨n, c⟩ ∧ (s.slot n).queue = some q ∧ s.slotOf q = some n ∧ c.opcode = op

/-- The dispatcher of `fe` alone is freed. -/
def handedOver (s : State) (fe : Nat) : State := { s with io := { s.io with disps := serase s.io.disps fe } }

/-- CMPL and CIMM of a command (R342). -/
def cmplOf (c : Cmd) : Bool := (c.words.getD 0 0).getLsbD 8
def cimmOf (c : Cmd) : Bool := (c.words.getD 0 0).getLsbD 10

/-- Command `c` of the queue in slot `n` has completed with a status: it is in execution no longer; its record was created where
it failed or carries CMPL, is held until it is sent, and was sent at once with every held one where it failed, carries
CIMM or is the 32nd (R343, R350, R351). -/
def recorded (s t : State) (n q : Nat) (c : Cmd) (st : Nat) : Prop :=
  (t.slot n).execs = (s.slot n).execs.filter (fun e => e.idx != c.idx) ∧ (t.slot n).queue = some q ∧
    (let k := (s.slot n).held.length + 1
      if st = 0 ∧ cmplOf c = false then (t.slot n).held = (s.slot n).held ∧ t.io.out = s.io.out
      else if st = 0 ∧ cimmOf c = false ∧ k < 32 then
        t.io.out = s.io.out ∧ ∃ w0 ws, (t.slot n).held = (s.slot n).held ++ [⟨w0 :: ws, s.basin⟩] ∧
          w0.toNat = c.idx.toNat * 2 ^ 32 + (c.words.getD 0 0).toNat / 2 ^ 48 * 2 ^ 16 + st * 2 ^ 8 + (c.words.getD 0 0).toNat % 2 ^ 8
      else (t.slot n).held = [] ∧ sentAll s t q k ∧ lastStatus t q st ∧
        ctail (t.slot n).rec_ = (ctail (s.slot n).rec_ + k) % 2 ^ 32) ∧
    ∀ m, m ≠ n → t.slot m = s.slot m

/-- The same, where no core is touched. -/
def completed (s t : State) (n q : Nat) (c : Cmd) (st : Nat) : Prop := recorded s t n q c st ∧ t.cores = s.cores

/-- Command `c` of opcode `op` of the queue in slot `n` is in execution. -/
def executing (s : State) (n q op : Nat) (c : Cmd) : Prop :=
  s.slotOf q = some n ∧ (s.slot n).queue = some q ∧ c.opcode = op ∧ s.execOf q c.idx.toNat = some c

/-- No answer of the host is awaited for a COPY (R344). -/
def noHostSide (s : State) (q : Nat) (c : Cmd) : Prop := ∀ x ∈ s.io.copies, ¬(x.queue = q ∧ x.idx = c.idx)

/-- The walk of an address, where the translation cache does not hold its result, meets no error in its tables (R292). -/
def walkClean (s : State) (p ia : Nat) : Prop :=
  let h := s.home p ia
  let root := s.partWord p (8 + h.1)
  (s.cachedLeaf p h.1 h.2).isSome = true ∨ root / 2 ^ 60 ≠ 0 ∨
    ∀ a ∈ walkPath s.mem h.1 h.2 4 0 (root / 2 ^ 14 % 2 ^ 22 * 2 ^ 14), s.mem.delta ((h.1 * 2 ^ 36 + a) / 64) 0 0 = 0

/-- The sector of `ia`, at physical address `pa` under a leaf, differs in no bit from its check word (R291, R292). -/
def cleanAt (s : State) (p ia pa : Nat) (leaf : Word) (size : Nat) : Prop :=
  let h := s.home p ia
  s.mem.delta ((h.1 * 2 ^ 36 + pa) / 64) (leaf.toNat / 2 ^ 54 % 16) (h.2 % 2 ^ (16 + 5 * size) / 64 * 512) = 0

/-- One sector of partition memory that a copy reaches: its page is present and not encrypted, and neither it nor its
page's tables have an error (R292). -/
def plainSector (s : State) (p ia n : Nat) (rd wr : Bool) (a : Nat) : Prop :=
  0 < n ∧ ia % 64 + n ≤ 64 ∧ ∃ pa leaf size, s.translateHome p ia rd wr = .ok pa leaf size ∧ leaf.getLsbD 59 = false ∧
    a = (s.home p ia).1 * 2 ^ 36 + pa ∧ walkClean s p ia ∧ cleanAt s p ia pa leaf size ∧ pa % 64 = ia % 64

end Sys2Proof.Spec

/-- R343, R344, R350 and R351: BARRIER and FENCE free their dispatcher and wait; SIGNAL sets or adds to SEQ and completes; a
BARRIER completes where the SEQ that it names has come, a FENCE where it is the oldest in execution, a COPY where it has
written every byte or failed and the host has answered; a COPY within one sector moves its bytes and changes no other. -/
def Obligations.HostCommands : Prop :=
  (∀ (s : State) (fe n q : Nat) (c : Cmd),
    (Spec.hand s fe n q 3 c → exec (.barrier fe) s = .next (Spec.handedOver s fe)) ∧
    (Spec.hand s fe n q 5 c → exec (.fence fe) s = .next (Spec.handedOver s fe))) ∧
  (∀ (s : State) (fe n q : Nat) (c : Cmd), Spec.hand s fe n q 4 c → ∃ t, exec (.signal fe) s = .next t ∧
    Spec.completed s t n q c 0 ∧ t.mem = s.mem ∧
    Spec.seqOf (t.slot n).rec_ = (if (c.words.getD 1 0).getLsbD 32 then
      Spec.seqOf (s.slot n).rec_ + (c.words.getD 2 0).toNat else (c.words.getD 2 0).toNat) % 2 ^ 32) ∧
  (∀ (s : State) (n q : Nat) (c : Cmd), Spec.executing s n q 3 c →
    let m := s.queueRec (c.words.getD 1 0).toNat
    let met := ((BitVec.ofNat 32 (Spec.seqOf m) - (c.words.getD 2 0).setWidth 32) : Half).toNat < 2 ^ 31
    (c.words.getD 2 0).toNat < 2 ^ 32 →
    (met → ∃ t, exec (.barrierCompletion q c.idx.toNat) s = .next t ∧ Spec.completed s t n q c 0 ∧ t.mem = s.mem) ∧
    (¬ met → exec (.barrierCompletion q c.idx.toNat) s = .next s)) ∧
  (∀ (s : State) (n q : Nat) (c : Cmd), Spec.executing s n q 5 c →
    ((s.slot n).execs.head? = some c → ∃ t, exec (.fenceCompletion q c.idx.toNat) s = .next t ∧ Spec.completed s t n q c 0 ∧
      t.mem = s.mem) ∧
    ((∀ e, (s.slot n).execs.head? = some e → e.idx ≠ c.idx) → exec (.fenceCompletion q c.idx.toNat) s = .next s)) ∧
  (∀ (s : State) (n q : Nat) (c : Cmd), Spec.executing s n q 2 c →
    (c.failed = none → c.written = (c.words.getD 3 0).toNat % 2 ^ 32 →
      Spec.noHostSide s q c →
      ∃ t, exec (.copyCompletion q c.idx.toNat) s = .next t ∧ Spec.completed s t n q c 0 ∧ t.mem = s.mem) ∧
    (∀ st : BitVec 8, c.failed = some st → st ≠ 0 → Spec.noHostSide s q c →
      ∃ t, exec (.copyCompletion q c.idx.toNat) s = .next t ∧ Spec.completed s t n q c st.toNat ∧ t.mem = s.mem)) ∧
  ∀ (s : State) (fe n q : Nat) (c : Cmd) (a b : Nat),
    let p := (s.partOfQueue q).getD 0
    let src := (c.words.getD 1 0).toNat
    let dst := (c.words.getD 2 0).toNat
    let len := (c.words.getD 3 0).toNat % 2 ^ 32
    Spec.hand s fe n q 2 c → (c.words.getD 4 0).toNat / 2 ^ 62 = 0 → Spec.plainSector s p src len true false a →
    Spec.plainSector s p dst len false true b → Memory.wf s.mem.hbm = true →
    ∃ t, exec (.copy fe) s = .next t ∧ t.io.disps = serase s.io.disps fe ∧
      (∀ j, byteAt t.mem.hbm j = if b ≤ j ∧ j < b + len then byteAt s.mem.hbm (a + (j - b)) else byteAt s.mem.hbm j) ∧
      (∀ e ∈ (t.slot n).execs, e.idx = c.idx → e.written = len ∧ e.failed = none) ∧
      t.calendar = s.calendar ++ [⟨none, s.basin + 1, .op s.cur (.copyCompletion q c.idx.toNat)⟩] ∧
      ∀ i, (t.core i).be = (s.core i).be ∧ (t.core i).eng = (s.core i).eng

/-- R351: held records are sent together, oldest first, once TIDLE has passed since the newest or THOLD since the oldest, and not
before; CTAIL counts them. R353: the records that firmware consumes leave the fault ring and no other. -/
def Sys2Proof.Spec.Coalescing : Prop :=
  (∀ (s : State) (q n : Nat) (first last : CRec), s.slotOf q = some n → (s.slot n).held.head? = some first →
    (s.slot n).held.getLast? = some last →
    let k := (s.slot n).held.length
    let tidle := Spec.recGet (s.slot n).rec_ 7 8 8
    let thold := Spec.recGet (s.slot n).rec_ 7 0 8
    let sent (t : State) : Prop := (t.slot n).held = [] ∧ Spec.sentAll s t q k ∧
      Spec.ctail (t.slot n).rec_ = (Spec.ctail (s.slot n).rec_ + k) % 2 ^ 32 ∧ (t.slot n).execs = (s.slot n).execs ∧
      t.cores = s.cores ∧ t.mem = s.mem
    (last.at_ + tidle * 1600 ≤ s.basin → ∃ t, exec (.tidleExpiry q) s = .next t ∧ sent t) ∧
    (s.basin < last.at_ + tidle * 1600 → exec (.tidleExpiry q) s = .next s) ∧
    (first.at_ + thold * 1600 ≤ s.basin → ∃ t, exec (.tholdExpiry q) s = .next t ∧ sent t) ∧
    (s.basin < first.at_ + thold * 1600 → exec (.tholdExpiry q) s = .next s)) ∧
  ∀ (s : State) (p n : Nat), p < 4 → n ≤ (s.part p).fqCount → ∃ t, exec (.faultQueueConsume p n) s = .next t ∧
    (t.part p).fqCount = (s.part p).fqCount - n ∧
    (t.part p).fqHead = ((s.part p).fqHead + n) % 2 ^ (8 + s.partWord p 0 % 16) ∧ (t.part p).seq = (s.part p).seq ∧
    (t.part p).words = (s.part p).words ∧ t.mem = s.mem ∧ t.cores = s.cores ∧ ∀ r, r < 4 → r ≠ p → t.part r = s.part r

/-- Both of the statements Doorbells and Coalescing. -/
def Obligations.DoorbellsAndCoalescing : Prop := Spec.Doorbells ∧ Spec.Coalescing

namespace Sys2Proof.Spec

/-! ### Launches (R16, R17, R30 to R44, R52 to R57, R202 to R205) -/

/-- A core as the clear between launches leaves it (R30): every register zero, every private store empty, U mode; the monitor
data memory, DRIFTEN and the monitor regions stay. -/
def clearedCore (k k' : Core) : Prop :=
  k'.be = Be.reset ∧ k'.cc.x = Vector.replicate 32 0 ∧ k'.cc.mode = .u ∧ k'.cc.mepc = 0 ∧ k'.cc.mstatus = 0 ∧ k'.cc.l1 = [] ∧
    k'.cc.monMem = k.cc.monMem ∧ k'.cc.calctl = k.cc.calctl &&& 0x100 ∧ k'.eng.spad = [] ∧ k'.eng.accum = [] ∧
    k'.eng.tags = [] ∧ k'.eng.codebook = [] ∧ k'.eng.latches = Vector.replicate 4 ⟨[], [], 0⟩ ∧ k'.eng.sboard = [] ∧
    k'.eng.regions[14]? = k.eng.regions[14]? ∧ k'.eng.regions[15]? = k.eng.regions[15]? ∧
    (∀ i < 14, ((k'.eng.regions[i]?).getD 0).getLsbD 63 = false) ∧ k'.fab.streams = Vector.replicate 8 ⟨0, 0, 0⟩ ∧
    k'.rng = Vector.replicate 16 ⟨0, 0⟩ ∧ k'.clearing = true ∧ k'.fenced = k.fenced

/-- Every core of a list is cleared from what it was, and belongs to `dom`. -/
def allCleared (s t : State) (cs : List (Nat × Nat)) (dom : Option Nat) : Prop :=
  ∀ k ∈ cs, clearedCore (s.core k.1) (t.core k.1) ∧ (t.core k.1).dom = dom

/-- The cores of a list stand once each. -/
def once (cs : List (Nat × Nat)) : Prop := (cs.map Prod.fst).Nodup

end Sys2Proof.Spec

/-- R16, R30 to R34 and R344: a LAUNCH that a check refuses completes with its status and touches no core; any other makes the
domain of its timetable's cores, armed, each core of it cleared, and one whose timetable cannot be read completes with status 10; when the last clear has finished the domain starts, its
SC 0 at that cycle, and each gang's control cores begin in U mode at its entry address once its START has come. -/
def Obligations.LaunchBegins : Prop :=
  (∀ (s : State) (fe n q st : Nat) (c : Cmd), Spec.hand s fe n q 1 c →
    let p := (s.partOfQueue q).getD 0
    let s1 := Spec.handedOver s fe
    let read := s1.readTimetable p ((c.words.getD 1 0).toNat % 2 ^ 12)
    s1.launchStatus fe p c (s1.timetable p ((c.words.getD 1 0).toNat % 2 ^ 12)) = st → st ≠ 0 → st < 256 →
    read.2 = none →
    ∃ t, exec (.launch fe) s = .next t ∧ Spec.completed s t n q c st ∧ t.doms = s.doms ∧ t.mem = read.1.mem) ∧
  (∀ (s : State) (fe n q : Nat) (c : Cmd) (e : Ev), Spec.hand s fe n q 1 c →
    let p := (s.partOfQueue q).getD 0
    let s1 := Spec.handedOver s fe
    (s1.readTimetable p ((c.words.getD 1 0).toNat % 2 ^ 12)).2 = some e →
    ∃ t, exec (.launch fe) s = .next t ∧ Spec.lastStatus t q 10 ∧ t.doms = s.doms ∧ t.nextDom = s.nextDom) ∧
  (∀ (s : State) (fe n q : Nat) (c : Cmd) (tt : Timetable), Spec.hand s fe n q 1 c →
    let p := (s.partOfQueue q).getD 0
    let s1 := Spec.handedOver s fe
    s1.timetable p ((c.words.getD 1 0).toNat % 2 ^ 12) = some tt → s1.launchStatus fe p c (some tt) = 0 →
    (s1.readTimetable p ((c.words.getD 1 0).toNat % 2 ^ 12)).2 = none →
    ∃ t d, exec (.launch fe) s = .next t ∧ t.dom s.nextDom = some d ∧ d.phase = .armed ∧ d.cores = tt.cores ∧ d.part = p ∧
      d.queue = q ∧ d.cmdidx = c.idx ∧ d.timed = tt.disc ∧ d.replays = 0 ∧ d.resp = none ∧ t.nextDom = s.nextDom + 1 ∧
      Spec.allCleared s t tt.cores (some s.nextDom) ∧
      ∀ e ∈ (t.slot n).execs, e.idx = c.idx → e.dom = some s.nextDom) ∧
  (∀ s : State, (s.core s.cur).clearing = true → s.domOf s.cur = none →
    exec .launchClearFinished s = .next (s.modCore s.cur fun k => { k with clearing := false })) ∧
  (∀ (s : State) (id : Nat) (d : Domain) (tt : Timetable), (s.core s.cur).clearing = true → (s.core s.cur).dom = some id →
    s.dom id = some d → d.phase = .armed → d.basin = false →
    let u := s.modCore s.cur fun k => { k with clearing := false }
    u.timetable d.part d.timetable = some tt → (u.readTimetable d.part d.timetable).2 = none →
    (∀ k ∈ d.cores, k.1 ≠ s.cur → (s.core k.1).clearing = false) →
    ∃ t, exec .launchClearFinished s = .next t ∧ (t.core s.cur).clearing = false ∧ (t.core s.cur).rng = tt.ranges ∧
      (t.core s.cur).cc.mie = 0x70000 ∧ (t.core s.cur).cc.mode = .u ∧
      .op s.cur (.domainStart id) ∈ t.agenda ∧
      ∀ c, c ≠ s.cur → (t.core c).be = (s.core c).be ∧ (t.core c).eng = (s.core c).eng ∧ (t.core c).rng = (s.core c).rng) ∧
  (∀ (s : State) (id : Nat) (d : Domain), s.dom id = some d → d.phase = .armed → d.basin = false →
    (∀ k ∈ d.cores, (s.core k.1).clearing = false) →
    ∃ t d', exec (.domainStart id) s = .next t ∧ t.dom id = some d' ∧ d'.phase = .running ∧ d'.sc t.basin = 0 ∧
      d'.cores = d.cores ∧ t.basin = s.basin ∧ t.cores = s.cores ∧ t.mem = s.mem ∧
      ∀ g start entry, d.gangs[g]? = some (start, entry) →
        ⟨some id, start.toNat, .op s.cur (.ccEntryStart id g)⟩ ∈ t.calendar) ∧
  ∀ (s : State) (id g : Nat) (d : Domain) (start entry : Word), s.dom id = some d → d.phase = .running →
    d.gangs[g]? = some (start, entry) →
    (start.toNat ≤ d.sc s.basin → ∃ t, exec (.ccEntryStart id g) s = .next t ∧ t.mem = s.mem ∧ t.doms = s.doms ∧
      ∀ c, if (c, g) ∈ d.cores ∧ (s.core c).cc.state = .stopped then
          (t.core c).cc = { (s.core c).cc with pc := entry, mode := .u, state := .running } ∧ (t.core c).be = (s.core c).be
        else t.core c = s.core c) ∧
    (d.sc s.basin < start.toNat → exec (.ccEntryStart id g) s = .next s)

namespace Sys2Proof.Spec

/-- The command that a domain runs is in execution in slot `n` (R343). -/
def runs (s : State) (n : Nat) (d : Domain) (c : Cmd) : Prop := executing s n d.queue 1 c ∧ c.idx = d.cmdidx

/-- A domain has ended and holds nothing: no request, no binding, no pin (R44, R306). -/
def atEnd (t : State) (id : Nat) : Prop :=
  (∃ d', t.dom id = some d' ∧ d'.phase = .ended ∧ d'.leases = [] ∧ d'.pins = []) ∧ (∀ r ∈ t.mem.reqs, r.dom ≠ some id) ∧
    (∀ b ∈ t.mem.bindings, b.dom ≠ id) ∧ ∀ e ∈ t.mem.tlb, id ∉ e.pins

/-- The cores of a domain that are still its own. -/
def ownCores (s : State) (id : Nat) (d : Domain) : List (Nat × Nat) := d.cores.filter fun k => (s.core k.1).dom == some id

/-- A launch's frames are back in its partition's pool, and with no line in any first-level cache, memory is as it was:
no block is switched (R306). -/
def framesBack (s t : State) (id part : Nat) : Prop :=
  (part < 4 → ∀ b ∈ s.mem.bindings, b.dom = id → (b.stack, b.frame) ∈ (t.part part).shadow) ∧
    ((∀ c, (s.core c).cc.l1 = []) → t.mem.hbm = s.mem.hbm)

/-- The first-level write-backs of a launch's cores meet no event: its response and its phase stand (R252). -/
def flushes (s : State) (id : Nat) (d : Domain) : Prop :=
  ∃ e, (d.cores.foldl (fun s k => s.flushL1 k.1 true) s).dom id = some e ∧ e.resp = d.resp ∧ e.phase = d.phase

/-- The module has not ended the run of a notice already (R57). -/
def fresh (s : State) (n : Notice) : Prop := (n.timetable, n.run, n.replays) ∉ s.io.endedRuns

/-- The run and the key of a notice name this domain (R57). -/
def noticed (n : Notice) (d : Domain) : Bool :=
  d.basin && d.timetable == n.timetable && d.b0 == n.run && d.phase != .ended

end Sys2Proof.Spec

/-- R41, R44, R53, R54, R57 and R306: a core whose program has asked for the end and whose engines are idle has finished; a
launch whose cores have finished, whose writes have performed and whose last write-backs meet no event retires with status
0, and a killed one with its status: the domain has ended and holds nothing, its frames are back and of a killed launch no
block is switched, and its cores are cleared and free; a replay arms the domain again, cleared, one replay more; a notice of
a kill, of a run not ended already, ends its run with status 10, one of a replay arms it again from the notice's Ba, and one
for another module goes on; a basin replay waits for 2^20 cycles and then agrees on the least multiple of 2^22 at or after
Ba + 2^22. -/
def Obligations.LaunchEnds : Prop :=
  (∀ (s : State) (id : Nat) (d : Domain), (s.core s.cur).dom = some id → s.dom id = some d → s.canFinish s.cur = true →
    ∃ t, exec .coreFinished s = .next t ∧ (t.core s.cur).cc = { (s.core s.cur).cc with state := .finished } ∧
      (t.core s.cur).be = (s.core s.cur).be ∧ t.mem = s.mem ∧ (∀ c, c ≠ s.cur → t.core c = s.core c) ∧
      t.agenda = if (∀ k ∈ d.cores, k.1 = s.cur ∨ (s.core k.1).cc.state = .finished) then
        .op s.cur (.launchRetirement id) :: s.agenda else s.agenda) ∧
  (∀ s : State, s.canFinish s.cur = false → exec .coreFinished s = .next s) ∧
  (∀ (s : State) (id n : Nat) (d : Domain) (c : Cmd), s.dom id = some d → s.retireReady id d = true →
    Spec.runs s n d c → Spec.flushes s id d → Spec.once d.cores →
    ∃ t, exec (.launchRetirement id) s = .next t ∧ Spec.recorded s t n d.queue c 0 ∧ Spec.atEnd t id ∧
      Spec.allCleared s t (Spec.ownCores s id d) none) ∧
  (∀ (s : State) (id : Nat) (d : Domain), s.dom id = some d → s.retireReady id d = false →
    exec (.launchRetirement id) s = .next s) ∧
  (∀ (s : State) (id n : Nat) (d : Domain) (c : Cmd) (st : BitVec 8), s.dom id = some d → d.phase ≠ .ended →
    Spec.runs s n d c → Spec.once d.cores → st ≠ 0 → st ≠ 9 →
    ∃ t, exec (.kill id st) s = .next t ∧ Spec.recorded s t n d.queue c st.toNat ∧ Spec.atEnd t id ∧
      Spec.framesBack s t id d.part ∧ Spec.allCleared s t (Spec.ownCores s id d) none) ∧
  (∀ (s : State) (id : Nat) (d : Domain) (st : BitVec 8), s.dom id = some d → d.phase = .ended →
    exec (.kill id st) s = .next s) ∧
  (∀ (s : State) (id : Nat) (d : Domain), s.dom id = some d → d.phase ≠ .ended → d.phase ≠ .evicted → d.basin = false →
    Spec.once d.cores →
    ∃ t d', exec (.launchReplay id) s = .next t ∧ t.dom id = some d' ∧ d'.phase = .armed ∧ d'.replays = d.replays + 1 ∧
      d'.resp = none ∧ d'.unsafe_ = false ∧ d'.queue = d.queue ∧ d'.cmdidx = d.cmdidx ∧
      (∀ r ∈ t.mem.reqs, r.dom ≠ some id) ∧ (∀ b ∈ t.mem.bindings, b.dom ≠ id) ∧ Spec.framesBack s t id d.part ∧
      (∀ k ∈ Spec.ownCores s id d, (t.core k.1).be = Be.reset ∧ (t.core k.1).eng.spad = []) ∧
      ∀ k ∈ d'.cores, (t.core k.1).dom = some id ∧ (t.core k.1).clearing = true) ∧
  (∀ (s : State) (n : Notice) (id : Nat) (d : Domain), n.target = s.moduleId →
    s.doms.find? (fun e => Spec.noticed n e.2) = some (id, d) → s.dom id = some d → n.resp = 5 →
    (d.replayBa = none → d.replays = n.replays ∧ Spec.fresh s n) → Spec.once d.cores →
    ∃ t, exec (.basinAbortNotice n) s = .next t ∧ Spec.atEnd t id ∧ Spec.allCleared s t (Spec.ownCores s id d) none) ∧
  (∀ (s : State) (n : Notice) (id : Nat) (d : Domain), n.target = s.moduleId →
    s.doms.find? (fun e => Spec.noticed n e.2) = some (id, d) → s.dom id = some d → n.resp = 4 → d.replayBa = none →
    d.phase ≠ .evicted → d.replays = n.replays → Spec.fresh s n →
    ∃ t d', exec (.basinAbortNotice n) s = .next t ∧ t.dom id = some d' ∧ d'.phase = .armed ∧ d'.replayBa = some n.ba ∧
      d'.replays = d.replays + 1 ∧ d'.resp = none) ∧
  (∀ (s : State) (n : Notice), n.target = s.moduleId → (∀ e ∈ s.doms, Spec.noticed n e.2 = false) →
    exec (.basinAbortNotice n) s = .next s) ∧
  (∀ (s : State) (n : Notice), n.target ≠ s.moduleId → exec (.basinAbortNotice n) s = .next (s.soon (.notice n))) ∧
  ∀ (s : State) (id ba : Nat) (d : Domain), s.dom id = some d → d.phase = .armed → d.replayBa = some ba →
    (ba + 2 ^ 20 < s.basin → ∃ t b, exec (.basinReplayDispatch id) s = .next t ∧ b % 2 ^ 22 = 0 ∧ ba + 2 ^ 22 ≤ b ∧
      b < ba + 2 ^ 22 + 2 ^ 22 ∧ t.dom id = some { d with b0 := b, replayBa := none } ∧
      t.calendar = s.calendar ++ [⟨none, b, .op s.cur (.domainStart id)⟩] ∧ t.cores = s.cores ∧ t.mem = s.mem) ∧
    (s.basin ≤ ba + 2 ^ 20 → exec (.basinReplayDispatch id) s = .next s)

namespace Sys2Proof.Spec

/-- A control core that takes interrupt 18 at once (R185, R186). -/
def inspectable (k : Core) : Prop :=
  k.cc.mie.getLsbD 18 = true ∧ (k.cc.mode = .u ∨ k.cc.mstatus.getLsbD 3 = true) ∧ k.cc.inspect = none

end Sys2Proof.Spec

/-- R37 to R39, R47, R185, R186, R202 and R204: a pre-emption request of a running domain sets its freeze point 256 SC ahead, and
is refused with a status for a basin timetable; at its freeze point the SC stands still, no register or store changed; a resume ordered
for the next cycle lets the SC go on from where it stood, once no core is in frozen inspection (log 97); frozen inspection interrupts a core that takes it, remembering
where it stood, and is pending for the others. -/
def Obligations.FreezeAndResume : Prop :=
  (∀ (s : State) (id : Nat) (d : Domain), s.dom id = some d →
    (d.phase = .running → d.basin = false → ∃ t d', exec (.preemptionRequest id) s = .next t ∧ t.dom id = some d' ∧
      d'.fpt = some (d.fpt.getD (d.sc s.basin + 256)) ∧ d'.phase = .running ∧ d'.b0 = d.b0 ∧ d'.h = d.h ∧
      ∀ c, (t.core c).be = (s.core c).be ∧ (t.core c).eng = (s.core c).eng) ∧
    (d.phase = .running → d.basin = true → ∃ t st, exec (.preemptionRequest id) s = .next t ∧
      t.io.out = s.io.out ++ [.orderRefused id st] ∧ t.doms = s.doms ∧ t.cores = s.cores ∧ t.mem = s.mem) ∧
    (d.phase ≠ .running → exec (.preemptionRequest id) s = .next s)) ∧
  (∀ (s : State) (id f : Nat) (d : Domain), s.dom id = some d → d.phase = .running → d.fpt = some f →
    (f ≤ d.sc s.basin → ∃ t d', exec (.freeze id) s = .next t ∧ t.dom id = some d' ∧ d'.phase = .frozen ∧
      d'.frozenAt = s.basin ∧ (∀ b, d'.sc b = d.sc s.basin) ∧ t.cores = s.cores ∧ t.mem = s.mem ∧
      (d.resp = none → t.agenda = s.agenda)) ∧
    (d.sc s.basin < f → exec (.freeze id) s = .next s)) ∧
  (∀ (s : State) (id : Nat) (d : Domain), s.dom id = some d → d.phase = .frozen → (∀ r ∈ s.mem.reqs, r.dom ≠ some id) →
    ∃ t, exec (.resumeOrder id) s = .next t ∧ t.dom id = some { d with resumeAt := some (s.basin + 1) } ∧
      t.calendar = s.calendar ++ [⟨none, s.basin + 1, .op s.cur (.resume id)⟩] ∧ t.cores = s.cores ∧ t.mem = s.mem) ∧
  (∀ (s : State) (id br : Nat) (d : Domain), s.dom id = some d → d.phase = .frozen → d.resumeAt = some br → br ≤ s.basin →
    s.inspecting d = true → exec (.resume id) s =
      .next ((s.setDom id { d with resumeAt := some (s.basin + 1) }).schedule (s.basin + 1) (.op s.cur (.resume id)))) ∧
  (∀ (s : State) (id br : Nat) (d : Domain), s.dom id = some d → d.phase = .frozen → d.resumeAt = some br → br ≤ s.basin →
    d.b0 + d.h ≤ d.frozenAt → d.frozenAt ≤ s.basin → d.later = [] → s.inspecting d = false →
    ∃ t d', exec (.resume id) s = .next t ∧ t.dom id = some d' ∧ d'.phase = .running ∧ d'.sc s.basin = d.sc s.basin ∧
      d'.sc (s.basin + 1) = d.sc s.basin + 1 ∧ d'.fpt = none ∧ t.mem = s.mem ∧
      ∀ c, (t.core c).be = (s.core c).be ∧ (t.core c).eng = (s.core c).eng ∧
        (t.core c).cc = if c ∈ d.cores.map Prod.fst ∧ (s.core c).cc.state = .stalled then
          { (s.core c).cc with state := .running } else (s.core c).cc) ∧
  ∀ (s : State) (id : Nat) (d : Domain), s.dom id = some d →
    (d.phase ≠ .frozen → exec (.frozenInspection id) s = .next s) ∧
    (d.phase = .frozen → Spec.once d.cores → ∃ t ev, exec (.frozenInspection id) s = .next t ∧ t.mem = s.mem ∧ t.doms = s.doms ∧
      (∀ c, c ∉ d.cores.map Prod.fst → t.core c = s.core c) ∧
      ∀ c ∈ d.cores.map Prod.fst, (t.core c).be = (s.core c).be ∧ (t.core c).cc.x = (s.core c).cc.x ∧
        (Spec.inspectable (s.core c) → (t.core c).cc.mode = .m ∧ (t.core c).cc.mcause = 0x8000000000000012 ∧
          (t.core c).cc.mepc = (s.core c).cc.pc ∧ (t.core c).cc.pc = mtvecOf (s.core c) ∧
          (t.core c).cc.inspect = some ((s.core c).cc.pc, (s.core c).cc.mode, (s.core c).cc.state)) ∧
        (¬ Spec.inspectable (s.core c) → (t.core c).cc.mip.getLsbD 18 = true ∧
          (t.core c).cc.pendMacro = (s.core c).cc.pendMacro ++ [(ev, d.sc s.basin, 0)] ∧ (t.core c).cc.pc = (s.core c).cc.pc ∧
          (t.core c).cc.mode = (s.core c).cc.mode ∧ (t.core c).cc.state = (s.core c).cc.state ∧
          (t.core c).cc.inspect = (s.core c).cc.inspect))

/-- R40, R205, R239 and R370: an eviction whose images are written keeps the cores' state, names the save area, and leaves the
cores cleared and free, and none of its requests with the memory; a restore onto free cores of the same numbers brings back
what the save area holds, frozen as before; a domain that is not frozen is not evicted, one that holds a shared sequencer is
refused with a status, and none is restored whose cores are taken; a reply that comes in between
joins the saved landing area, and is dropped where no saved core awaits it. -/
def Obligations.EvictionAndRestore : Prop :=
  (∀ (s : State) (id ia n : Nat) (d : Domain) (c : Cmd), s.dom id = some d → d.phase = .frozen → s.heldShared d = false →
    s.flushStop d = none → Spec.runs s n d c → Spec.once d.cores →
    ((d.sorted.foldl (fun s c => s.flushL1 c true) s).writeImages d ia).2 = true →
    ∃ t d', exec (.eviction id ia) s = .next t ∧ t.dom id = some d' ∧ d'.phase = .evicted ∧ d'.saveIA = some ia ∧
      Spec.lastStatus t d.queue 11 ∧ (∀ b, d'.sc b = d.sc b) ∧
      (∀ k ∈ d.cores, ∃ sv, (k.1, sv) ∈ d'.saved ∧ sv.be = (s.core k.1).be ∧ sv.eng = (s.core k.1).eng ∧
        sv.fab = (s.core k.1).fab ∧ sv.rng = (s.core k.1).rng ∧ sv.cc.x = (s.core k.1).cc.x ∧ sv.cc.pc = (s.core k.1).cc.pc ∧
        sv.cc.mode = (s.core k.1).cc.mode) ∧
      Spec.allCleared s t d.cores none ∧ ∀ r ∈ t.mem.reqs, r.dom ≠ some id) ∧
  (∀ (s : State) (id ia : Nat) (d : Domain), s.dom id = some d →
    (d.phase ≠ .frozen → exec (.eviction id ia) s = .next s) ∧
    (d.phase = .frozen → s.heldShared d = true → ∃ t st, exec (.eviction id ia) s = .next t ∧
      t.io.out = s.io.out ++ [.orderRefused id st] ∧ t.doms = s.doms ∧ t.cores = s.cores ∧ t.mem = s.mem)) ∧
  (∀ (s : State) (id ia : Nat) (d : Domain), s.dom id = some d → d.phase = .evicted → d.saveIA = some ia →
    (d.saved.map Prod.fst).Nodup →
    (∀ k ∈ d.saved, (s.core k.1).dom = none ∧ (s.core k.1).clearing = false ∧ (s.core k.1).fenced = false) →
    (s.readArea d ia d.saved.length).2 = none →
    let area (i o n : Nat) : List Byte := (s.readArea d ia d.saved.length).1.iaBytes d.part (ia + 0x240000 * i + o) n
    ∃ t d', exec (.restore id) s = .next t ∧ t.dom id = some d' ∧ d'.phase = .frozen ∧ d'.saved = [] ∧
      (∀ b, d'.sc b = d.sc b) ∧
      (∀ k ∈ d.saved.zipIdx, (t.core k.1.1).dom = some id ∧ (t.core k.1.1).clearing = false ∧
        (t.core k.1.1).eng.spad = writeBytes [] 0 (area k.2 0x100000 0x100000) ∧
        (t.core k.1.1).eng.accum = writeBytes [] 0 (area k.2 0x200000 0x40000) ∧
        (t.core k.1.1).cc.pc = BitVec.ofNat 64 (bytesVal (((area k.2 0x1000 0x400).drop 248).take 8)) ∧
        (t.core k.1.1).cc.monMem = (s.core k.1.1).cc.monMem ∧ (t.core k.1.1).rng = k.1.2.rng) ∧
      ∀ c, c ∉ d.saved.map Prod.fst → t.core c = s.core c) ∧
  (∀ (s : State) (id : Nat) (d : Domain), s.dom id = some d →
    d.phase ≠ .evicted ∨ (∃ k ∈ d.saved, (s.core k.1).dom ≠ none ∨ (s.core k.1).clearing = true ∨ (s.core k.1).fenced = true) →
    exec (.restore id) s = .next s) ∧
  (∀ (s : State) (c slot id x lid : Nat) (data : VWord) (d : Domain) (sv : Core), c < 4096 → slot < 256 →
    s.lateDom c slot = some (id, d) → d.saved = [(c, sv)] → sv.fab.loads = [(slot, x, lid, 1)] →
    ∃ t d' sv', exec (.lateReply c slot data) s = .next t ∧ t.dom id = some d' ∧ d'.saved = [(c, sv')] ∧
      sget sv'.fab.landing slot = some ((sget sv.fab.landing slot).getD 0 ||| data) ∧
      sv'.fab.landingValid.getLsbD slot = true ∧ sv'.be = sv.be ∧ sv'.fab.loads = [(slot, x, lid, 0)]) ∧
  ∀ (s : State) (c slot : Nat) (data : VWord), c < 4096 → s.lateDom c slot = none →
    exec (.lateReply c slot data) s = .next s

/-- R352: stage 1 of the watchdog asks for a freeze of a launch whose SC has reached W1, once; stage 2 kills a launch, or ends a
BARRIER or COPY with status 8 and its queue in STATE 1, W2 after its dispatch; stage 3 fences the cores whose clear has
not finished W3 after the kill; none acts before its limit. -/
def Obligations.Watchdog : Prop :=
  (∀ (s : State) (n q id : Nat) (c : Cmd) (d : Domain), Spec.executing s n q 1 c → c.dom = some id → s.dom id = some d →
    d.phase = .running → d.basin = false → d.stage1Done = false →
    let w1 := Spec.recGet (s.slot n).rec_ 6 40 20
    let w2 := Spec.recGet (s.slot n).rec_ 6 20 20
    0 < w1 → w2 = 0 ∨ s.basin < c.at_ + w2 * 16384 →
    (w1 * 16384 ≤ d.sc s.basin → ∃ t d', exec (.watchdogStage1 q c.idx.toNat) s = .next t ∧ t.dom id = some d' ∧
      d'.stage1Done = true ∧ d'.fpt = some (d.fpt.getD (d.sc s.basin + 256)) ∧ d'.phase = .running) ∧
    (d.sc s.basin < w1 * 16384 → exec (.watchdogStage1 q c.idx.toNat) s = .next s)) ∧
  (∀ (s : State) (n q id : Nat) (c : Cmd) (d : Domain), Spec.executing s n q 1 c → c.dom = some id → s.dom id = some d →
    d.phase ≠ .ended → d.resp = none →
    let w2 := Spec.recGet (s.slot n).rec_ 6 20 20
    0 < w2 →
    (c.at_ + w2 * 16384 ≤ s.basin → ∃ t, exec (.watchdogStage2 q c.idx.toNat) s = .next t ∧
      t.agenda.head? = some (.op 0 (.kill id 8))) ∧
    (s.basin < c.at_ + w2 * 16384 → exec (.watchdogStage2 q c.idx.toNat) s = .next s)) ∧
  (∀ (s : State) (n q op : Nat) (c : Cmd), op = 2 ∨ op = 3 → Spec.executing s n q op c →
    let w2 := Spec.recGet (s.slot n).rec_ 6 20 20
    0 < w2 → c.at_ + w2 * 16384 ≤ s.basin →
    ∃ t, exec (.watchdogStage2 q c.idx.toNat) s = .next t ∧ Spec.recorded s t n q c 8 ∧ Spec.stateOf (t.slot n).rec_ = 1) ∧
  ∀ (s : State) (n id k : Nat) (d : Domain), s.dom id = some d → d.phase = .ended → d.killAt = some k →
    s.slotOf d.queue = some n → Spec.once d.cores →
    let w3 := Spec.recGet (s.slot n).rec_ 6 0 20
    0 < w3 →
    (k + w3 * 16384 ≤ s.basin → ∃ t, exec (.watchdogStage3 id) s = .next t ∧ ∀ c, (t.core c).fenced =
      if c ∈ d.cores.map Prod.fst ∧ (s.core c).clearing = true ∧ ((s.core c).dom = none ∨ (s.core c).dom = some id) then true
      else (s.core c).fenced) ∧
    (s.basin < k + w3 * 16384 → exec (.watchdogStage3 id) s = .next s)

namespace Sys2Proof.Spec

/-! ### The memory side (R271, R272, R290 to R293, R303, R376 to R381) -/

/-- A request that its home slice takes up now: translated, its domain running and its SC come, or without a domain (R272). -/
def dueAt (s : State) (die slice : Nat) (r : LongReq) (pa : Nat) (leaf : Word) (size : Nat) : Prop :=
  s.home r.part r.ia = (die, (s.home r.part r.ia).2) ∧ (s.home r.part r.ia).2 / 256 % 48 = slice ∧ r.xlat = .ok pa leaf size ∧
    match r.dom with
    | some id => ∃ d, s.dom id = some d ∧ d.phase = .running ∧ r.due ≤ d.sc s.basin
    | none => r.due ≤ s.sc r.core

/-- The sector under an access is without error and not encrypted, and the access stays inside it (R255, R292, R296). -/
def cleanPiece (s : State) (r : LongReq) (pa : Nat) (leaf : Word) (size : Nat) : Prop :=
  0 < r.bytes ∧ r.ia % 64 + r.bytes ≤ 64 ∧ pa % 64 = r.ia % 64 ∧ leaf.getLsbD 59 = false ∧ cleanAt s r.part r.ia pa leaf size

/-- The landings of a bundle engine once the bytes at `a` have come for the access `r` (R256). -/
def delivered (s : State) (r : LongReq) (a : Nat) : List Landing :=
  (s.core r.core).be.landings.map fun l =>
    if l.src = some r.id then
      { l with
        data := BitVec.ofNat 1024 (number (fun j => byteAt s.mem.hbm j) a r.bytes), src := none, due := max l.due (s.sc r.core) }
    else l

/-- No launch has a shadow binding. -/
def unbound (s : State) : Prop := s.mem.bindings = []

end Sys2Proof.Spec

/-- R271, R272, R256 and R294: a home slice performs a store by writing exactly the bytes of its mask; a load hands the bytes that it
samples to the result that waits for them; of a Timed load and a Timed store due at one cycle the load samples first; a
request that is not due stays, and nothing changes. -/
def Obligations.HomeSlice : Prop :=
  (∀ (s : State) (die slice pa size : Nat) (leaf : Word) (r : LongReq), die < 8 → slice < 48 → s.mem.reqs = [r] →
    Spec.dueAt s die slice r pa leaf size → r.kind = .store → r.keep = 0 → r.poison = false → r.bytes ≤ 128 →
    Spec.cleanPiece s r pa leaf size → Spec.unbound s → Memory.wf s.mem.hbm = true →
    ∃ t, exec (.homeSliceCycle die slice) s = .next t ∧ t.mem.reqs = [] ∧ Memory.wf t.mem.hbm = true ∧
      (∀ j, byteAt t.mem.hbm j =
        let o := die * 2 ^ 36 + pa
        if o ≤ j ∧ j < o + r.bytes ∧ r.mask.getLsbD (j - o) = true then BitVec.ofNat 8 (r.data.toNat / 2 ^ (8 * (j - o)))
        else byteAt s.mem.hbm j) ∧
      ∀ c, (t.core c).be = (s.core c).be ∧ (t.core c).eng = (s.core c).eng) ∧
  (∀ (s : State) (die slice pa size : Nat) (leaf : Word) (r : LongReq), die < 8 → slice < 48 → s.mem.reqs = [r] →
    Spec.dueAt s die slice r pa leaf size → r.kind = .load → r.engine = 1 → Spec.cleanPiece s r pa leaf size →
    Spec.unbound s →
    ∃ t, exec (.homeSliceCycle die slice) s = .next t ∧ t.mem.reqs = [] ∧ t.mem.hbm = s.mem.hbm ∧
      (t.core r.core).be.regs = (s.core r.core).be.regs ∧ (∀ c, c ≠ r.core → t.core c = s.core c) ∧
      (t.core r.core).be.landings = Spec.delivered s r (die * 2 ^ 36 + pa)) ∧
  (∀ (s : State) (die slice pa pa' size size' : Nat) (leaf leaf' : Word) (r w : LongReq), die < 8 → slice < 48 →
    s.mem.reqs = [w, r] → Spec.dueAt s die slice r pa leaf size → Spec.dueAt s die slice w pa' leaf' size' →
    r.kind = .load → r.timed = true → r.engine = 1 → w.kind = .store → w.timed = true →
    Spec.cleanPiece s r pa leaf size → Spec.unbound s →
    ∃ t, exec (.homeSliceCycle die slice) s = .next t ∧ t.mem.reqs = [] ∧
      (t.core r.core).be.landings = Spec.delivered s r (die * 2 ^ 36 + pa)) ∧
  ∀ (s : State) (die slice : Nat), die < 8 → slice < 48 →
    (∀ r ∈ s.mem.reqs, ∀ pa leaf size, ¬ Spec.dueAt s die slice r pa leaf size) → exec (.homeSliceCycle die slice) s = .next s

/-- R252, R292, R293, R303, R380 and R381: a clean first-level line leaves its cache and nothing else changes, a dirty one writes
exactly its dirty bytes back first; a shoot-down drops the cached results of its partition and range, pins excepted; a
walk translates a request that waits and keeps its leaf; one that comes late for a Timed request is event 0x06, which sets
the freeze point; a shadow copy moves a sector into its frame once; the patrol scrub leaves a clean sector, and corrects and
counts a correctable one. -/
def Obligations.MemorySide : Prop :=
  (∀ (s : State) (line : Nat) (l : L1Line), ((Spec.cc s).l1.map Prod.fst).Nodup → sget (Spec.cc s).l1 line = some l →
    (l.dirty = 0 → ∃ t, exec (.firstLevelEviction line) s = .next t ∧ t.mem = s.mem ∧ sget (Spec.cc t).l1 line = none ∧
      (∀ k, k ≠ line → sget (Spec.cc t).l1 k = sget (Spec.cc s).l1 k) ∧ (∀ r, Spec.xReg t r = Spec.xReg s r) ∧
      Spec.be t = Spec.be s) ∧
    (∀ pa leaf size, s.translateHome (s.partOf s.cur) (128 * line) false true = .ok pa leaf size → pa % 128 = 0 →
      let o := (s.home (s.partOf s.cur) (128 * line)).1 * 2 ^ 36 + pa
      leaf.getLsbD 59 = false → Spec.cleanAt s (s.partOf s.cur) (128 * line) pa leaf size →
      Spec.cleanAt s (s.partOf s.cur) (128 * line + 64) (pa + 64) leaf size → Spec.walkClean s (s.partOf s.cur) (128 * line) →
      Spec.unbound s →
      Memory.wf s.mem.hbm = true →
      ∃ t, exec (.firstLevelEviction line) s = .next t ∧ sget (Spec.cc t).l1 line = none ∧
        (∀ k, k ≠ line → sget (Spec.cc t).l1 k = sget (Spec.cc s).l1 k) ∧ (∀ r, Spec.xReg t r = Spec.xReg s r) ∧
        ∀ j, byteAt t.mem.hbm j =
          if o ≤ j ∧ j < o + 128 ∧ l.dirty.getLsbD (j - o) = true then BitVec.ofNat 8 (l.data.toNat / 2 ^ (8 * (j - o)))
          else byteAt s.mem.hbm j)) ∧
  (∀ (s : State) (stack part lo hi : Nat), stack < 8 → part < 4 → ∃ t, exec (.shootDown stack part lo hi) s = .next t ∧
    t.mem.hbm = s.mem.hbm ∧ t.cores = s.cores ∧
    ∀ e, e ∈ t.mem.tlb ↔ e ∈ s.mem.tlb ∧
      ¬(e.stack = stack ∧ e.part = part ∧ e.block * 65536 ≤ hi ∧ lo < (e.block + 1) * 65536 ∧ e.pins = [])) ∧
  (∀ (s : State) (r : LongReq) (pa size : Nat) (leaf : Word), s.mem.reqs = [r] → r.xlat = .waiting → r.engine = 1 →
    r.core = s.cur → r.kind = .load → r.dom = none →
    s.translateHome r.part r.ia true false = .ok pa leaf size → Spec.walkClean s r.part r.ia →
    ∃ t, exec (.pageWalk (2 * r.id + 1)) s = .next t ∧ t.mem.reqs = [{ r with xlat := .ok pa leaf size }] ∧
      t.mem.hbm = s.mem.hbm ∧ t.cores = s.cores ∧
      (∃ e ∈ t.mem.tlb, e.stack = (s.home r.part r.ia).1 ∧ e.part = r.part ∧ e.block = (s.home r.part r.ia).2 / 65536)) ∧
  (∀ (s : State) (r : LongReq) (id : Nat) (d : Domain), s.mem.reqs = [r] → r.xlat = .waiting → r.engine = 1 → r.core = s.cur →
    r.timed = true → r.dom = some id → (s.core s.cur).dom = some id → s.dom id = some d → d.phase = .running →
    d.timed = true → d.basin = false →
    (r.issue + 256 ≤ s.sc s.cur → ∃ t d', exec (.walkLate (2 * r.id + 1)) s = .next t ∧ t.dom id = some d' ∧
      d'.fpt = some (d.fpt.getD (d.sc s.basin + 256)) ∧ d'.phase = .running ∧ t.mem.reqs = [{ r with xlat := .fault 3 0 }] ∧ Spec.be t = Spec.be s) ∧
    (s.sc s.cur < r.issue + 256 → exec (.walkLate (2 * r.id + 1)) s = .next s)) ∧
  (∀ (s : State) (b : Binding) (i w size : Nat), s.mem.bindings = [b] → i < 1024 → Memory.wf s.mem.hbm = true →
    s.leafAt b.part b.stack (b.block * 65536 + 64 * i) = some (w, size) →
    let pa := leafPa w size (b.block * 65536 + 64 * i)
    let src := b.stack * 2 ^ 36 + pa
    let dst := b.stack * 2 ^ 36 + b.frame * 65536 + 64 * i
    s.mem.delta (src / 64) (w / 2 ^ 54 % 16) ((b.block * 65536 + 64 * i) % 2 ^ (16 + 5 * size) / 64 * 512) = 0 → pa % 64 = 0 →
    (b.copied.getLsbD i = false → ∃ t, exec (.shadowCopy 0 i) s = .next t ∧
      (∀ j, byteAt t.mem.hbm j = if dst ≤ j ∧ j < dst + 64 then byteAt s.mem.hbm (src + (j - dst)) else byteAt s.mem.hbm j) ∧
      ∃ b', t.mem.bindings = [b'] ∧ b'.frame = b.frame ∧ b'.dom = b.dom ∧
        ∀ j < 1024, b'.copied.getLsbD j = (b.copied.getLsbD j || decide (j = i))) ∧
    (b.copied.getLsbD i = true → exec (.shadowCopy 0 i) s = .next s)) ∧
  ∀ (s : State) (stack sector : Nat), stack < 8 → sector < 2 ^ 30 →
    let pg := s.sectorPage stack (64 * sector)
    let delta := s.mem.delta (stack * 2 ^ 30 + sector) pg.1 pg.2.1
    (delta = 0 → exec (.patrolScrub stack sector) s = .next s) ∧
    ((decodeSector pg.1 pg.2.1 delta).sev = .c → ∃ t, exec (.patrolScrub stack sector) s = .next t ∧
      t.cores = s.cores ∧ t.doms = s.doms ∧ t.io = s.io ∧
      (∃ e, sget t.mem.err stack = some e ∧ e.c = satInc (((sget s.mem.err stack).map (·.c)).getD 0)) ∧
      (swf (0 : Word) s.mem.check = true → sget t.mem.check (stack * 2 ^ 30 + sector) = none))

namespace Sys2Proof.Spec

/-! ### Engines at work (R206 to R239, R312 to R338) -/

/-- The engines of core `s.cur` that a core has of its own, each with its one sequencer (R206). -/
def own (e : Eng) : Seqr := ⟨e, 0, 0⟩

/-- What the start of an entry changes: it leaves the head of its queue, and its sequencer runs it from step 0; the scoreboard
keeps it; nothing else changes (R21, R206, R211). -/
def startsNow (s t : State) (q : Seqr) (ent : QEntry) (rest : List QEntry) : Prop :=
  let x := t.seq s.cur q
  x.prog.state = 1 ∧ x.prog.issue = ent.issue ∧ x.prog.steps = 0 ∧ x.prog.count = 0 ∧ x.prog.cause = 0 ∧
    x.prog.resumed = false ∧ x.prog.flags = 0 ∧ x.prog.hsel = (s.seq s.cur q).prog.hsel ∧
    x.prog.total = BitVec.ofNat 32 (s.entrySteps s.cur ent) ∧ x.core = s.cur ∧
    (∃ n, x.active = (s.seq s.cur q).active ++ [⟨ent, s.sc s.cur, 0, 0, n, []⟩]) ∧ x.steps = (s.seq s.cur q).steps ∧
    ((t.core s.cur).eng.queue q.eng).map (·.issue) = rest.map (·.issue) ∧
    (t.core s.cur).eng.sboard = (s.core s.cur).eng.sboard ∧ (t.core s.cur).eng.spad = (s.core s.cur).eng.spad ∧
    (t.core s.cur).eng.accum = (s.core s.cur).eng.accum ∧ be t = be s ∧ cc t = cc s ∧ t.mem = s.mem ∧
    ∀ c, c ≠ s.cur → t.core c = s.core c

/-- The sequencer may run an entry of core `s.cur`: a core's own engine, the CX unit of its die, or the Weir unit of the entry's
region, of which the core does not hold this index (R206, R312). -/
def fits (s : State) (q : Seqr) (ent : QEntry) : Prop :=
  match q.eng with
  | .cx => q.unit = dieOf s.cur
  | .weir => s.seqUnit s.cur ent.form ent.block ent.rng = q.unit ∧ s.holdsIndex s.cur q.idx = false
  | _ => True

/-- A range of the scoreboard is of this entry. -/
def rangeOf (e : Eng) (issue : Half) (x : SbEntry) : Prop := x.eng = engCode e ∧ x.issue = issue

/-- The sequencer with no entry: STATE 0 and the position fields zero; the others stay until the next start (R211). -/
def idleProg (p : Prog) : Prog :=
  { p with state := 0, issue := 0, lidx := Vector.replicate 6 0, whalf := false, slot := 0, nexttag := 0, par := false, pass := 0
           chunk := 0 }

end Sys2Proof.Spec

/-- R21, R26, R27, R206, R207 and R211: in Elastic the head of a queue starts once its start SC has come, its sequencer is free and
no hazard is open, and otherwise waits; a range of an earlier entry that overlaps one of its own, one of them written,
is a hazard. In Timed an entry starts exactly at its start SC, or makes a schedule fault that freezes its domain and
leaves its queue and the scoreboard. -/
def Obligations.EngineStarts : Prop :=
  (∀ (s : State) (q : Seqr) (ent : QEntry) (rest : List QEntry), s.live s.cur = true → s.timed s.cur = false →
    (s.core s.cur).eng.queue q.eng = ent :: rest → (∀ e ∈ rest, e.issue ≠ ent.issue) →
    ((s.seq s.cur q).active = [] → (s.seq s.cur q).prog.state = 0 → Spec.fits s q ent → ent.start.toNat ≤ s.sc s.cur →
      s.hazard s.cur q.eng ent.issue = false →
      ∃ t, exec (.macroStart q) s = .next t ∧ Spec.startsNow s t q ent rest) ∧
    ((s.seq s.cur q).active ≠ [] ∨ (s.seq s.cur q).prog.state ≠ 0 ∨ ¬ Spec.fits s q ent ∨ s.sc s.cur < ent.start.toNat →
      exec (.macroStart q) s = .next s) ∧
    ∀ (a l : List SbEntry) (o m : SbEntry), (s.core s.cur).eng.sboard = a ++ o :: l → m ∈ l →
      (∀ x ∈ a ++ [o], ¬ Spec.rangeOf q.eng ent.issue x) → Spec.rangeOf q.eng ent.issue m → o.space = m.space →
      o.base < m.base + m.len → m.base < o.base + o.len → (o.wr = true ∧ (m.rd = true ∨ m.wr = true)) ∨ (o.rd = true ∧ m.wr = true) →
      exec (.macroStart q) s = .next s) ∧
  (∀ (s : State) (e : Eng) (ent : QEntry) (rest : List QEntry), e = .mx ∨ e = .px ∨ e = .ce → s.live s.cur = true →
    s.timed s.cur = true → (s.core s.cur).eng.queue e = ent :: rest → (∀ x ∈ rest, x.issue ≠ ent.issue) →
    ent.start.toNat = s.sc s.cur → (s.seq s.cur (Spec.own e)).nextFree ≤ s.sc s.cur →
    s.hazard s.cur e ent.issue = false →
    ∃ t, exec (.macroStart (Spec.own e)) s = .next t ∧ Spec.startsNow s t (Spec.own e) ent rest) ∧
  (∀ (s : State) (e : Eng), e = .mx ∨ e = .px ∨ e = .ce → s.timed s.cur = true →
    (∀ x ∈ (s.core s.cur).eng.queue e, x.start.toNat ≠ s.sc s.cur) → exec (.macroStart (Spec.own e)) s = .next s) ∧
  ∀ (s : State) (e : Eng) (ent : QEntry) (rest : List QEntry) (id : Nat) (d : Domain), e = .mx ∨ e = .px ∨ e = .ce →
    (s.core s.cur).dom = some id → s.dom id = some d → d.phase = .running → d.timed = true → s.timed s.cur = true →
    d.basin = false → (s.core s.cur).eng.queue e = ent :: rest → ent.start.toNat = s.sc s.cur →
    s.sc s.cur < (s.seq s.cur (Spec.own e)).nextFree →
    ∃ t d', exec (.macroStart (Spec.own e)) s = .next t ∧ t.dom id = some d' ∧
      d'.fpt = some (d.fpt.getD (d.sc s.basin + 256)) ∧ d'.phase = .running ∧
      t.seq s.cur (Spec.own e) = s.seq s.cur (Spec.own e) ∧
      (∀ x, x ∈ (t.core s.cur).eng.sboard ↔ x ∈ (s.core s.cur).eng.sboard ∧ ¬ Spec.rangeOf e ent.issue x) ∧
      ∀ x ∈ (t.core s.cur).eng.queue e, x.issue ≠ ent.issue

/-- R188, R206, R211 and R234 to R236: an entry that has committed every step, its writes performed, leaves its sequencer and the
scoreboard; a macro stop writes STATE 2 and CAUSE, keeps the entry, its queue and its ranges, and pends interrupt 17 with
STEPS and ISSUE; a reissue runs the entry again from the step that the progress registers name, RESUMED set; a flush
removes the stopped entry, the later ones of its queue and their ranges. -/
def Obligations.EngineEnds : Prop :=
  ∀ (s : State) (q : Seqr),
    let c := s.seqCore q
    let x := s.seq c q
    (∀ a, s.live c = true → x.active = [a] → a.total ≤ a.committed → x.steps = [] → x.stopEv = none → x.prog.state ≠ 2 →
      x.prog.state ≠ 3 → s.pendingBytes c q.eng a.entry.issue = 0 →
      ∃ t, exec (.entryComplete q) s = .next t ∧ (t.seq c q).active = [] ∧ (t.seq c q).prog = Spec.idleProg x.prog ∧
        (∀ y, y ∈ (t.core c).eng.sboard ↔ y ∈ (s.core c).eng.sboard ∧ ¬ Spec.rangeOf q.eng a.entry.issue y) ∧
        (t.core c).eng.queue q.eng = (s.core c).eng.queue q.eng ∧ (t.core c).eng.spad = (s.core c).eng.spad ∧
        (t.core c).eng.accum = (s.core c).eng.accum ∧ (t.core c).be = (s.core c).be ∧ (t.core c).cc = (s.core c).cc ∧
        t.mem = s.mem ∧ ∀ k, k ≠ c → t.core k = s.core k) ∧
    ((∀ a ∈ x.active, a.committed < a.total ∨ s.pendingBytes c q.eng a.entry.issue ≠ 0 ∨ x.prog.state = 2) →
      exec (.entryComplete q) s = .next s) ∧
    (∀ a ev, s.live c = true → x.active = [a] → x.stopEv = some ev → x.steps = [] → s.pendingBytes c q.eng a.entry.issue = 0 →
      ∃ t, exec (.macroStop q) s = .next t ∧ (t.seq c q).prog = { x.prog with state := 2, cause := ev.cause } ∧
        (t.seq c q).active = [{ a with started := a.committed }] ∧ (t.seq c q).stopEv = none ∧
        (t.core c).cc.mip = (s.core c).cc.mip ||| 0x20000 ∧
        (t.core c).cc.pendMacro =
          (s.core c).cc.pendMacro ++ [(ev, s.sc c, Spec.W ((x.prog.steps.toNat * 2 ^ 32 + a.entry.issue.toNat : Nat)))] ∧
        (t.core c).cc.pc = (s.core c).cc.pc ∧ (t.core c).cc.x = (s.core c).cc.x ∧ (t.core c).be = (s.core c).be ∧
        (t.core c).eng.queue q.eng = (s.core c).eng.queue q.eng ∧ (t.core c).eng.sboard = (s.core c).eng.sboard) ∧
    (x.stopEv = none ∨ x.steps ≠ [] ∨ (∀ a ∈ x.active, s.pendingBytes c q.eng a.entry.issue ≠ 0) →
      exec (.macroStop q) s = .next s) ∧
    (∀ a, x.active = [a] → x.prog.state = 2 →
      ∃ t, exec (.entryReissue q) s = .next t ∧ (t.seq c q).prog.state = 1 ∧ (t.seq c q).prog.resumed = true ∧
        (t.seq c q).prog.steps = x.prog.steps ∧ (t.seq c q).prog.issue = x.prog.issue ∧ (t.seq c q).prog.cause = x.prog.cause ∧
        (let n := s.stepOf c a.entry x.prog
         (t.seq c q).active = [{ a with started := n, committed := n, draws := a.draws.take n }]) ∧
        (q.eng = .ce ∨ q.eng = .weir ∨ q.eng = .cx → formEng a.entry.form = q.eng →
          (t.seq c q).active = [{ a with
            started := x.prog.steps.toNat, committed := x.prog.steps.toNat, draws := a.draws.take x.prog.steps.toNat }]) ∧
        (∀ k, (t.core k).be = (s.core k).be ∧ (t.core k).cc = (s.core k).cc ∧ (t.core k).eng.sboard = (s.core k).eng.sboard ∧
          (t.core k).eng.queue q.eng = (s.core k).eng.queue q.eng) ∧ t.mem = s.mem) ∧
    (x.prog.state = 2 →
      ∃ t, exec (.entryFlush q) s = .next t ∧ (t.seq c q).prog = Spec.idleProg x.prog ∧ (t.seq c q).active = [] ∧
        (t.seq c q).steps = [] ∧ (t.core c).eng.queue q.eng = [] ∧
        (∀ y, y ∈ (t.core c).eng.sboard ↔ y ∈ (s.core c).eng.sboard ∧
          ¬((∃ a ∈ x.active, Spec.rangeOf q.eng a.entry.issue y) ∨
            ∃ e ∈ (s.core c).eng.queue q.eng, Spec.rangeOf q.eng e.issue y)) ∧
        (t.core c).be = (s.core c).be ∧ (t.core c).cc = (s.core c).cc ∧ (t.core c).eng.spad = (s.core c).eng.spad ∧
        (t.core c).eng.accum = (s.core c).eng.accum ∧ t.mem = s.mem) ∧
    (x.prog.state ≠ 2 → exec (.entryReissue q) s = .next s ∧ exec (.entryFlush q) s = .next s)

namespace Sys2Proof.Spec

/-- The sequencer of an engine that runs one entry in Elastic, with the steps in flight that are given. -/
def elastic (s : State) (q : Seqr) (a : ActiveEntry) (steps : List StepState) : Prop :=
  s.live (s.seqCore q) = true ∧ s.timed (s.seqCore q) = false ∧ (s.seq (s.seqCore q) q).active = [a] ∧
    (s.seq (s.seqCore q) q).steps = steps ∧ ∀ st ∈ steps, st.issue = a.entry.issue

/-- The next step of the entry may begin (R206). -/
def nextDue (s : State) (q : Seqr) (a : ActiveEntry) : Prop :=
  a.started < a.total ∧ a.started = a.committed ∧ (s.seq (s.seqCore q) q).prog.state = 1 ∧ (s.seq (s.seqCore q) q).stopEv = none

/-- The step is in flight: step `n` of the entry, begun at the SC now, at stage `g`. -/
def stepBegun (s t : State) (q : Seqr) (a : ActiveEntry) (g : Nat) (st : StepState) : Prop :=
  (t.seq (s.seqCore q) q).active = [{ a with started := a.started + 1 }] ∧ (t.seq (s.seqCore q) q).steps = [st] ∧
    st.issue = a.entry.issue ∧ st.n = a.started ∧ st.t0 = s.sc (s.seqCore q) ∧ st.stage = g ∧ st.flags = 0

/-- A step has committed: no step is in flight, STEPS is one more, and FLAGS takes the step's flags (R211, R233). -/
def stepCommitted (s t : State) (q : Seqr) (a : ActiveEntry) (st : StepState) : Prop :=
  let p := (s.seq (s.seqCore q) q).prog
  let p' := (t.seq (s.seqCore q) q).prog
  (t.seq (s.seqCore q) q).active = [{ a with committed := st.n + 1 }] ∧ (t.seq (s.seqCore q) q).steps = [] ∧
    p'.steps = p.steps + 1 ∧ p'.flags = p.flags ||| st.flags ∧ p'.state = p.state ∧ p'.issue = p.issue ∧ p'.cause = p.cause

/-- One sort key comes before another (R230): by value, NaN last, −0 below +0. -/
def keyLess (t : Nat) (desc : Bool) (a b : Nat) : Bool :=
  if t ≤ 7 then (if desc then decide (val t b < val t a) else decide (val t a < val t b))
  else
    let n := eSize t
    let x := decodeF (format t) a
    let y := decodeF (format t) b
    let neg (p : Nat) : Bool := p / 2 ^ (n - 1) % 2 == 1
    let less (u v : FVal) (p r : Nat) : Bool := fLt u v || (fEq u v && neg p && !neg r)
    !x.isNan && (y.isNan || if desc then less y x b a else less x y a b)

/-- Word `i` of the committed copy of an accumulator slot (R212, R213). -/
def accWord (k : Engines) (slot i : Nat) : Nat := readNat k.accum (accPhys (k.half slot) slot (4 * i)) 4

/-- The accumulator of row `r` and column `col` of a step: from what the sample points took, the sums of the eight k-groups in
order, each rounded once, each added with RNE (R180, R225). -/
def accumulated (fz : Bool) (b : Block) (kg : Nat) (st : StepState) (r col : Nat) : Nat :=
  (List.range 8).foldl
    (fun acc g =>
      let ps := (List.range kg).map fun j =>
        (mxValue (mxAfmt b) ((st.sample g).getD (r * kg + j) 0), mxValue (mxBfmt b) ((st.sample (8 + g)).getD (col * kg + j) 0))
      (f32Add fz acc (groupSum fz ps).1).1)
    ((st.sample 16).getD (64 * r + col) 0)

/-- What the sample points of an MMAT step have taken: eight groups of each operand and the accumulator that it begins with. -/
def sampled (b : Block) (kg : Nat) (st : StepState) : Prop :=
  st.stage = (mxPoints 1 b).length ∧ (∀ g < 8, (st.sample g).length = 32 * kg ∧ (st.sample (8 + g)).length = 64 * kg) ∧
    (st.sample 16).length = 2048

end Sys2Proof.Spec

/-- R211 to R213, R225, R230, R232 and R233: a tile step begins once the earlier ones have committed; a pass 0 step of MSORT
samples its 256 elements sorted stably by key, and stores them at its commit point; an MMAT step accumulates the eight
rounded group sums in order and commits them to its slot's working copy, which becomes the committed one, no other slot
changing; a commit counts in STEPS. -/
def Obligations.TileSteps : Prop :=
  (∀ (s : State) (a : ActiveEntry), Spec.elastic s (Spec.own .mx) a [] → Spec.nextDue s (Spec.own .mx) a →
    formEng a.entry.form = .mx → (s.core s.cur).eng.spadPoison = [] →
    (descA a.entry.block).tagchk = false → (descB a.entry.block).tagchk = false →
    ∃ t st, exec (.tileStepStart .mx) s = .next t ∧ Spec.stepBegun s t (Spec.own .mx) a 1 st ∧ t.mem = s.mem ∧
      (t.core s.cur).eng.spad = (s.core s.cur).eng.spad ∧ (t.core s.cur).eng.accum = (s.core s.cur).eng.accum) ∧
  (∀ (s : State) (a : ActiveEntry), Spec.elastic s (Spec.own .px) a [] → Spec.nextDue s (Spec.own .px) a →
    let b := a.entry.block
    let p := pxPos 8 b a.started
    let lo := 256 * p.chunk
    let hi := min (pxN b) (lo + 256)
    let eb := pxEB b
    a.entry.form = 8 → (s.core s.cur).eng.spadPoison = [] → p.pass = 0 → lo ≤ hi → pxKtype b ≤ 10 → 0 < eb →
    ∃ t st, exec (.tileStepStart .px) s = .next t ∧ Spec.stepBegun s t (Spec.own .px) a 1 st ∧ t.mem = s.mem ∧
      (t.core s.cur).eng.spad = (s.core s.cur).eng.spad ∧
      (st.sample 0).Perm ((List.range (hi - lo)).map fun i =>
        Spec.number (Spec.spadByte s) ((pxAddr b 2 Level.sa (s.entryLevels s.cur a.entry) p.t).toNat + (lo + i) * eb) eb
          + 2 ^ (8 * eb) * (lo + i)) ∧
      (st.sample 0).Pairwise fun x y =>
        let key (e : Nat) := e % 2 ^ Spec.eSize (pxKtype b)
        Spec.keyLess (pxKtype b) (pxDesc b) (key y) (key x) = false ∧
          (Spec.keyLess (pxKtype b) (pxDesc b) (key x) (key y) = false → x / 2 ^ (8 * eb) < y / 2 ^ (8 * eb))) ∧
  (∀ (s : State) (a : ActiveEntry) (st : StepState), Spec.elastic s (Spec.own .px) a [st] → a.entry.form = 8 → st.stage = 1 →
    st.reads = [] → st.n < 2 ^ 32 → st.t0 + 48 + 4 * pxEB a.entry.block ≤ s.sc s.cur →
    let b := a.entry.block
    let p := pxPos 8 b st.n
    ∃ t, exec (.tileStepCommit .px) s = .next t ∧ (t.seq s.cur (Spec.own .px)).steps = [{ st with stage := 2 }] ∧
      (t.seq s.cur (Spec.own .px)).prog = (s.seq s.cur (Spec.own .px)).prog ∧
      ∃ x, Spec.be t = { Spec.be s with accesses := (Spec.be s).accesses ++ [x] } ∧ x.kind = .store ∧ x.due = s.sc s.cur ∧
        x.addr = sortOut b (s.entryLevels s.cur a.entry) p.t p.pass + 256 * p.chunk * pxEB b ∧
        x.bytes = (st.sample 0).flatMap fun e => bytesOf e (pxEB b)) ∧
  (∀ (s : State) (a : ActiveEntry) (st : StepState), Spec.elastic s (Spec.own .px) a [st] → formEng a.entry.form = .px →
    (pxPoints a.entry.form a.entry.block (pxPos a.entry.form a.entry.block st.n).chunk).length < st.stage →
    st.readsCome = true → st.t0 + commitOfs a.entry.form a.entry.block st.n ≤ s.sc s.cur →
    (Spec.be s).accesses = [] → s.mem.reqs = [] →
    ∃ t, exec (.tileStepCommit .px) s = .next t ∧ Spec.stepCommitted s t (Spec.own .px) a st ∧
      (t.core s.cur).eng.spad = (s.core s.cur).eng.spad ∧ t.mem = s.mem) ∧
  ∀ (s : State) (a : ActiveEntry) (st : StepState), Spec.elastic s (Spec.own .mx) a [st] → a.entry.form = 1 →
    let b := a.entry.block
    let ls := s.entryLevels s.cur a.entry
    let kg := mxWidth 1 b / 8
    let slot := (mxSlot b ls st.n).toNat
    Spec.sampled b kg st → mxDfmt b = 0 → mxDtag b = false → (s.core s.cur).eng.mxUpset = 0 →
    Memory.wf (s.core s.cur).eng.accum = true → slot < 16 → st.t0 + 225 + mxFill b ≤ s.sc s.cur →
    (Spec.be s).accesses = [] → s.mem.reqs = [] →
    ∃ t fl, exec (.tileStepCommit .mx) s = .next t ∧ Spec.stepCommitted s t (Spec.own .mx) a { st with flags := fl } ∧
      (∀ r < 32, ∀ col < 64, Spec.accWord (t.core s.cur).eng slot (64 * r + col) =
        Spec.accumulated (s.fz s.cur) b kg st r col % 2 ^ 32) ∧
      (t.core s.cur).eng.half slot = 1 - (s.core s.cur).eng.half slot ∧
      (∀ n < 16, n ≠ slot → (t.core s.cur).eng.half n = (s.core s.cur).eng.half n ∧
        ∀ i < 2048, Spec.accWord (t.core s.cur).eng n i = Spec.accWord (s.core s.cur).eng n i) ∧
      (t.core s.cur).eng.spad = (s.core s.cur).eng.spad ∧ t.mem = s.mem ∧ Spec.be t = Spec.be s

namespace Sys2Proof.Spec

/-- The transfer of a plan step: its bytes with the plan and the step number (R336). -/
def planFlit (s : State) (q : Seqr) (a : ActiveEntry) (ps : PlanStep) (bs : List Byte) (poisoned : Bool) : Flit :=
  let c := s.seqCore q
  { route := ps.route, srcModule := s.moduleId, srcCore := c, dstCore := ps.pcore, stream := q.idx, seq := 0, bytes := bs.length
    data := 0, poisoned, depSC := s.sc c, timed := false, req := none, plan := some (clPlan a.entry.block, ps.stepno, bs) }

/-- Where and how many bytes a plan step's elements are: those of SBUF or DBUF, from element OFS (R336). -/
def planSpan (b : Block) (ps : PlanStep) : Bool × Nat × Nat :=
  let w := ((b[if ps.fromD || ps.recv then 3 else 2]?).getD 0).toNat
  (w / 2 ^ 63 == 1, w % 2 ^ 57 + clBytes (clEtype b) * ps.ofs, clBytes (clEtype b) * ps.count)

/-- A plan step of the entry in flight at stage `g`. -/
def planStepAt (s : State) (q : Seqr) (a : ActiveEntry) (st : StepState) (ps : PlanStep) (recv : Bool) (g : Nat) : Prop :=
  q.eng = .cx ∧ elastic s q a [st] ∧ (s.entryPlan (s.seqCore q) a.entry)[st.n]? = some ps ∧ ps.recv = recv ∧ st.stage = g ∧
    st.n = a.committed ∧ st.n < 2 ^ 32 ∧ st.reads = []

/-- Nothing of core `c` is on its way to memory. -/
def nothingOut (s : State) (c : Nat) : Prop := (s.core c).be.accesses = [] ∧ s.mem.reqs = []

end Sys2Proof.Spec

/-- R24, R314, R325, R328, R331, R334 and R336 to R338: a fill chunk takes its pattern and begins; a copy chunk whose writes are out
commits, and an overlay chunk makes its region valid with the bytes that it read; an MSEL chunk stores the pairs of its
qualifying elements behind the earlier ones, and COUNT takes them in at its commit; a plan's send departs once, with
its plan and step number, and a receive takes its transfer, writes it 8 cycles later and then commits. -/
def Obligations.ChunksAndTransfers : Prop :=
  (∀ (s : State) (a : ActiveEntry), let b := a.entry.block
    Spec.elastic s (Spec.own .ce) a [] → Spec.nextDue s (Spec.own .ce) a → a.entry.form = 0x11 → ceDstScaled b = false →
    ceDfmt b ≠ 3 →
    ∃ t st, exec (.chunkCommit (Spec.own .ce)) s = .next t ∧ Spec.stepBegun s t (Spec.own .ce) a 1 st ∧ t.mem = s.mem ∧
      Spec.be t = Spec.be s ∧
      st.sample 51 = List.replicate (min 256 (totalOf (s.entryLevels s.cur a.entry) - 256 * a.started))
        (((b[2]?).getD 0).toNat % 2 ^ ceBits (ceDfmt b))) ∧
  (∀ (s : State) (a : ActiveEntry) (st : StepState), Spec.elastic s (Spec.own .ce) a [st] →
    a.entry.form = 0x10 ∨ a.entry.form = 0x11 → st.stage = 2 → Spec.nothingOut s s.cur →
    ∃ t, exec (.chunkCommit (Spec.own .ce)) s = .next t ∧
      Spec.stepCommitted s t (Spec.own .ce) { a with draws := a.draws ++ [BitVec.ofNat 32 ((st.sample 97).getD 0 0)] } st ∧
      Spec.cc t = Spec.cc s ∧
      (t.core s.cur).eng.spad = (s.core s.cur).eng.spad ∧ t.mem = s.mem) ∧
  (∀ (s : State) (a : ActiveEntry) (st : StepState), let b := a.entry.block
    Spec.elastic s (Spec.own .ce) a [st] → a.entry.form = 0x12 → st.t0 + 520 ≤ s.sc s.cur → st.readsCome = true →
    ovRegion b + st.n < 16 → Memory.wf (s.core s.cur).eng.ispad = true →
    ∃ t, exec (.chunkCommit (Spec.own .ce)) s = .next t ∧ Spec.stepCommitted s t (Spec.own .ce) a st ∧
      (t.core s.cur).eng.regions[ovRegion b + st.n]? = some (Spec.W ((2 ^ 63 + (if ovKind b then 2 ^ 62 else 0) +
        (ovBase b + (if ovKind b then 8192 else 128) * st.n) % 2 ^ 32 : Nat))) ∧
      (∀ j, byteAt (t.core s.cur).eng.ispad j =
        let o := 8192 * (ovRegion b + st.n)
        if o ≤ j ∧ j < o + 8192 then (st.readBytes)[j - o]?.getD 0 else byteAt (s.core s.cur).eng.ispad j) ∧ t.mem = s.mem) ∧
  (∀ (s : State) (q : Seqr) (a : ActiveEntry) (st : StepState), let b := a.entry.block
    let c := s.seqCore q
    let n0 := (s.seq c q).prog.count.toNat
    let found := (wrRead b st.n st).filter fun e => wrQualifies b e.1.toNat
    let pairs := (found.take (wrOcap b - n0)).flatMap fun e => bytesOf e.1.toNat 4 ++ bytesOf e.2.toNat 4
    let n1 := n0 + found.length
    q.eng = .weir → Spec.elastic s q a [st] → a.entry.form = 0x18 → wrSpad b = true → st.stage = 1 → st.n < 2 ^ 32 →
    st.readsCome = true → st.t0 + commitOfs 0x18 b st.n ≤ s.sc c → st.n + 1 = a.total ∨ pairs ≠ [] →
    ∃ t st', exec (.chunkCommit q) s = .next t ∧ (t.seq c q).steps = [st'] ∧ st'.stage = 2 ∧ st'.n = st.n ∧
      st'.sample 71 = [n1, 0] ∧ (t.seq c q).prog = (s.seq c q).prog ∧
      (t.core c).be.accesses.map (fun x => (x.addr, x.bytes)) = (s.core c).be.accesses.map (fun x => (x.addr, x.bytes)) ++
        (if pairs = [] then [] else [(wrObase b + 16 + 8 * n0, pairs)]) ++
        (if st.n + 1 = a.total then
          [(wrObase b, bytesOf (n1 % 2 ^ 32 + if wrOcap b < n1 then 2 ^ 32 else 0) 8 ++ bytesOf (wrElems b % 2 ^ 32) 8)] else [])) ∧
  (∀ (s : State) (q : Seqr) (a : ActiveEntry) (st : StepState), q.eng = .weir → Spec.elastic s q a [st] → st.stage = 2 →
    formEng a.entry.form = .weir → st.readsCome = true → wrElems a.entry.block ≠ 0 →
    st.t0 + commitOfs a.entry.form a.entry.block st.n ≤ s.sc (s.seqCore q) → Spec.nothingOut s (s.seqCore q) →
    ∃ t, exec (.chunkCommit q) s = .next t ∧ Spec.stepCommitted s t q a st ∧
      (t.seq (s.seqCore q) q).prog.count = BitVec.ofNat 32 ((st.sample 71).getD 0 0) ∧ t.mem = s.mem) ∧
  (∀ (s : State) (q : Seqr) (a : ActiveEntry) (st : StepState) (ps : PlanStep), Spec.planStepAt s q a st ps false 1 →
    let c := s.seqCore q
    let sp := Spec.planSpan a.entry.block ps
    let rt := s.route (s.partOf c) ps.route
    let f := Spec.planFlit s q a ps ((st.sample 0).map (BitVec.ofNat 8)) ((st.sample 1).getD 0 0 == 1)
    sp.1 = false → a.startSC + ps.delta ≤ s.sc c → s.planBytes (dieOf ps.pcore) q.idx + sp.2.2 ≤ 65536 → rt.v = true →
    ∃ t, exec (.cxSendStep q) s = .next t ∧ Spec.stepCommitted s t q a st ∧ t.mem = s.mem ∧
      (t.core c).eng.spad = (s.core c).eng.spad ∧
      (rt.bylor = false → ps.pmod = s.moduleId →
        t.calendar = s.calendar ++
          [if (s.core c).dom = (s.core ps.pcore).dom ∧ (s.core c).dom ≠ none then
            ⟨(s.core c).dom, s.sc c + rt.l, .op ps.pcore (.flitArrival f)⟩
          else ⟨none, s.basin + rt.l, .op ps.pcore (.flitArrival f)⟩]) ∧
      (rt.bylor = true → t.calendar = s.calendar ∧
        t.io.inject = s.io.inject ++ [⟨f, 17, rt.link0, s.basin, max 1 ((f.bytes + 127) / 128), (s.core c).dom,
          ((s.domOf c).map (·.replays)).getD 0⟩])) ∧
  (∀ (s : State) (q : Seqr) (a : ActiveEntry) (st : StepState) (ps : PlanStep) (h : Held) (bs : List Byte),
    Spec.planStepAt s q a st ps true 0 → (s.core (s.seqCore q)).fab.plan = [h] →
    h.flit.plan = some (clPlan a.entry.block, ps.stepno, bs) → h.flit.srcModule = ps.pmod → h.flit.srcCore = ps.pcore →
    h.flit.stream = q.idx → h.takenBy = none →
    ∃ t st', exec (.cxReceiveStep q) s = .next t ∧
      (t.core (s.seqCore q)).fab.plan = [{ h with takenBy := some (st.issue, st.n) }] ∧
      (t.seq (s.seqCore q) q).steps = [st'] ∧ st'.stage = 1 ∧ st'.t0 = s.sc (s.seqCore q) ∧ st'.n = st.n ∧
      st'.sample 0 = bs.map BitVec.toNat ∧ (t.seq (s.seqCore q) q).prog = (s.seq (s.seqCore q) q).prog ∧ t.mem = s.mem) ∧
  (∀ (s : State) (q : Seqr) (a : ActiveEntry) (st : StepState) (ps : PlanStep), Spec.planStepAt s q a st ps true 1 →
    let c := s.seqCore q
    let sp := Spec.planSpan a.entry.block ps
    let bs := ((st.sample 0).take sp.2.2).map (BitVec.ofNat 8)
    sp.1 = false → st.t0 + 4 ≤ s.sc c → (st.sample 1).getD 0 0 = 0 → (s.core c).eng.spadPoison = [] →
    ∃ t fl x, exec (.cxReceiveStep q) s = .next t ∧ (t.seq c q).steps = [{ st with stage := 2, flags := fl }] ∧
      (t.core c).be = { (s.core c).be with accesses := (s.core c).be.accesses ++ [x] } ∧ x.kind = .store ∧ x.addr = sp.2.1 ∧
      x.due = st.t0 + 8 ∧ (ps.combine = false → x.bytes = bs ∧ fl = 0) ∧
      (ps.combine = true → x.bytes.length = bs.length / clBytes (clEtype a.entry.block) * clBytes (clEtype a.entry.block) ∧
        ∀ i < bs.length / clBytes (clEtype a.entry.block), let z := clBytes (clEtype a.entry.block)
          (x.bytes.drop (z * i)).take z = bytesOf (combineElem (clComb a.entry.block + 1) (clType (clEtype a.entry.block)) (s.fz c)
            (bytesVal (((readBytes (s.core c).eng.spad sp.2.1 bs.length).drop (z * i)).take z))
            (bytesVal ((bs.drop (z * i)).take z))).1 z)) ∧
  ∀ (s : State) (q : Seqr) (a : ActiveEntry) (st : StepState) (ps : PlanStep), Spec.planStepAt s q a st ps true 2 →
    Spec.nothingOut s (s.seqCore q) →
    ∃ t, exec (.cxReceiveStep q) s = .next t ∧ Spec.stepCommitted s t q a st ∧ t.mem = s.mem

/-- R237, R308 to R310 and R327: an audit recomputation takes the oldest image of its die, a staged one with it, and computes
its result again; equal signatures count in AUDDONE alone; different ones count in AUDMIS as well, and where a second
recomputation agrees with the first they fence the core, else the audit engine has failed and its audits stop; with no
image nothing changes. A refetch begins between two chunks of the copy engine, which takes STATE 3, and once its copy is
complete the cancelled step may run again; where no copy covers the bytes the launch is replayed. A die that does not exist
stops the model's event by name. -/
def Obligations.AuditAndRefetch : Prop :=
  (∀ (s : State) (die : Nat), die < 8 → (∀ e ∈ s.cores, (s.core e.1).staging = none) →
    let d := (sget s.audit die).getD default
    let sig (im : AuditImage) := auditSignature ((mxResult im.form im.block im.fz im.inputs).map fun y => BitVec.ofNat 32 y.1)
    (d.images = [] → exec (.auditRecomputation die) s = .next s) ∧
    (∀ im rest, d.images = im :: rest → d.glitch = (0, 0) → sig im = auditSignature im.result →
      ∃ t, exec (.auditRecomputation die) s = .next t ∧ t.cores = s.cores ∧ t.doms = s.doms ∧ t.mem = s.mem ∧ t.io = s.io ∧
        sget t.audit die = some { d with images := rest, done := satInc d.done } ∧ ∀ n, n ≠ die → sget t.audit n = sget s.audit n) ∧
    (∀ im rest, d.images = im :: rest → d.glitch = (0, 0) →
      BitVec.ofNat 64 (sig im) ≠ BitVec.ofNat 64 (auditSignature im.result) →
      ∃ t, exec (.auditRecomputation die) s = .next t ∧ (t.core im.core).fenced = true ∧
        sget t.audit die = some { d with images := rest, done := satInc d.done, mis := satInc d.mis }) ∧
    ∀ im rest, d.images = im :: rest →
      BitVec.ofNat 64 (sig im) ^^^ d.glitch.1 ≠ BitVec.ofNat 64 (auditSignature im.result) → d.glitch.1 ≠ d.glitch.2 →
      ∃ t, exec (.auditRecomputation die) s = .next t ∧ (∀ c, (t.core c).fenced = (s.core c).fenced) ∧
        sget t.audit die = some { d with
          images := [], done := satInc d.done, mis := satInc d.mis, glitch := (0, 0), fail := true }) ∧
  (∀ (s : State) (die c : Nat) (k : Core) (im : AuditImage), die < 8 → dieOf c = die → s.cores = [(c, k)] →
    k.staging = some im →
    let d := (sget s.audit die).getD default
    d.images = [] → d.fail = false → d.glitch = (0, 0) →
    auditSignature ((mxResult im.form im.block im.fz im.inputs).map fun y => BitVec.ofNat 32 y.1) = auditSignature im.result →
    ∃ t, exec (.auditRecomputation die) s = .next t ∧ (t.core c).staging = none ∧
      sget t.audit die = some { d with done := satInc d.done }) ∧
  (∀ (s : State) (die : Nat), 8 ≤ die → exec (.auditRecomputation die) s = .fault .noSuchUnit) ∧
  (∀ (s : State) (w : Nat) (r : Refetch), let k := (s.core s.cur).eng
    s.live s.cur = true → s.timed s.cur = false → k.redo = none → k.mx.refetchAt = some w → k.mx.prog.state = 3 →
    k.refetchable w = some r → k.ce.steps = [] → k.ce.stopEv = none → k.ce.prog.state.toNat ≤ 1 →
    ∃ t x, exec .ceRefetch s = .next t ∧ (t.core s.cur).eng.redo = some x ∧ x.mx = true ∧ x.was = k.ce.prog.state ∧
      x.act.entry.form = 0x10 ∧ x.act.entry.block = r.block ∧ x.act.entry.rng = r.rng ∧ x.act.started = 0 ∧ x.act.committed = 0 ∧
      (t.core s.cur).eng.ce = { k.ce with prog := { k.ce.prog with state := 3 } } ∧ (t.core s.cur).eng.mx = k.mx ∧
      (t.core s.cur).eng.spad = k.spad ∧ (t.core s.cur).eng.accum = k.accum ∧ t.mem = s.mem ∧ Spec.be t = Spec.be s ∧
      t.doms = s.doms) ∧
  (∀ (s : State) (x : Redo), let k := (s.core s.cur).eng
    s.live s.cur = true → s.timed s.cur = false → k.redo = some x → x.mx = true → x.act.total ≤ x.act.committed →
    ∃ t, exec .ceRefetch s = .next t ∧ (t.core s.cur).eng.redo = none ∧ (t.core s.cur).eng.mx.refetchAt = none ∧
      (t.core s.cur).eng.mx.prog = { k.mx.prog with state := 1 } ∧ (t.core s.cur).eng.mx.active = k.mx.active ∧
      (t.core s.cur).eng.ce.prog = { k.ce.prog with state := x.was } ∧ (t.core s.cur).eng.spad = k.spad ∧
      (t.core s.cur).eng.accum = k.accum ∧ t.mem.hbm = s.mem.hbm ∧ t.doms = s.doms) ∧
  (∀ (s : State) (w id : Nat) (d : Domain), let k := (s.core s.cur).eng
    s.live s.cur = true → s.timed s.cur = false → k.redo = none → k.mx.refetchAt = some w → k.mx.prog.state = 3 →
    k.refetchable w = none → (s.core s.cur).dom = some id → s.dom id = some d → d.timed = false → d.basin = false →
    d.resp = none → d.unsafe_ = false → d.replays < s.partWord d.part 0 / 2 ^ 21 % 8 →
    ∃ t, exec .ceRefetch s = .next t ∧ t.agenda = .op s.cur (.launchReplay id) :: s.agenda ∧
      (t.core s.cur).eng.mx.refetchAt = none ∧ t.mem = s.mem) ∧
  ∀ (s : State), (s.core s.cur).eng.redo = none → (s.core s.cur).eng.mx.refetchAt = none →
    (s.core s.cur).eng.px.refetchAt = none → exec .ceRefetch s = .next s

namespace Sys2Proof.Spec

/-! ### The fabric and the Ethernet port at work (R356 to R375) -/

/-- Another core, and the engines of every one, are as they were. -/
def noEngine (s t : State) : Prop := ∀ k, (t.core k).be = (s.core k).be ∧ (t.core k).eng = (s.core k).eng

/-- Memory holds `n` bytes of `f` at `a`, and every other byte as before. -/
def memWritten (s t : State) (a n : Nat) (f : Nat → Byte) : Prop :=
  ∀ j, byteAt t.mem.hbm j = if a ≤ j ∧ j < a + n then f (j - a) else byteAt s.mem.hbm j

/-- A request of a remote access that its home serves now, in Elastic, with no domain of its launch on this module. -/
def servedNow (s : State) (f : Flit) (r : RemoteReq) (kind a : Nat) : Prop :=
  f.dstCore < 4096 ∧ f.req = some r ∧ r.kind = kind ∧ r.timed = false ∧ r.due ≤ s.basin ∧ (∀ e ∈ s.doms, e.2.basin = false) ∧
    plainSector s r.part r.ia r.bytes (decide (kind ≠ 1)) (decide (kind ≠ 0)) a ∧ Memory.wf s.mem.hbm = true ∧ s.mem.strong = []

/-- The reply of a load or atomic: to a core of this module at departure + LB, or out of the module (R366). -/
def replied (s t : State) (f : Flit) (r : RemoteReq) (data : Nat) : Prop :=
  let d : VWord := BitVec.ofNat 1024 (data * 2 ^ (8 * r.ofs))
  if r.srcModule = s.moduleId then
    t.calendar = s.calendar ++
      [⟨none, s.basin + max 1 (s.route r.part f.route).lb, .op r.srcCore (.replyArrival r.srcCore r.slot d false)⟩]
  else t.io.out = s.io.out ++ [.reply r.srcModule r.srcCore r.slot d false]

/-- Parts of a stream of core `c` of module `m` that have arrived and are not acknowledged (R368). -/
def unacked (s : State) (m c x : Nat) : Nat :=
  ((s.io.unacked.find? fun u => u.1 == m && u.2.1 == c && u.2.2.1 == x).map (·.2.2.2)).getD 0

/-- No domain on this module has been evicted. -/
def noneEvicted (s : State) : Prop := ∀ e ∈ s.doms, e.2.phase ≠ .evicted

end Sys2Proof.Spec

/-- R363 to R368: a transfer joins its stream's receive buffer when it arrives, in Elastic once that is empty, and a plan's
joins the transfers that its core holds; a remote access is served from its due cycle on: a store writes its bytes and
counts in the acknowledgement of its stream, a load or atomic replies with the bytes that it found; an acknowledgement
covers every part outstanding and takes them from OUT; the last reply of a load supplies its landing. -/
def Obligations.FabricArrivals : Prop :=
  (∀ (s : State) (f : Flit), f.dstCore < 4096 → f.req = none → f.plan = none → f.stream < 8 → s.live f.dstCore = true →
    (s.core f.dstCore).dom ≠ none →
    (((s.core f.dstCore).fab.rx[f.stream]?).getD none = none ∨ s.timed f.dstCore = true →
      ∃ t, exec (.flitArrival f) s = .next t ∧
        (t.core f.dstCore).fab.rx = (s.core f.dstCore).fab.rx.setIfInBounds f.stream (some ⟨f, s.sc f.dstCore, none⟩) ∧
        (t.core f.dstCore).be = (s.core f.dstCore).be ∧ (∀ c, c ≠ f.dstCore → t.core c = s.core c) ∧ t.mem = s.mem) ∧
    (∀ h, ((s.core f.dstCore).fab.rx[f.stream]?).getD none = some h → s.timed f.dstCore = false →
      exec (.flitArrival f) s =
        .next { s with calendar := s.calendar ++ [⟨none, s.basin + 1, .op f.dstCore (.flitArrival f)⟩] })) ∧
  (∀ (s : State) (f : Flit), f.dstCore < 4096 → f.req = none → f.plan ≠ none →
    ∃ t, exec (.flitArrival f) s = .next t ∧
      (t.core f.dstCore).fab.plan = (s.core f.dstCore).fab.plan ++ [⟨f, s.sc f.dstCore, none⟩] ∧
      (t.core f.dstCore).fab.rx = (s.core f.dstCore).fab.rx ∧ (t.core f.dstCore).be = (s.core f.dstCore).be ∧
      (∀ c, c ≠ f.dstCore → t.core c = s.core c) ∧ t.mem = s.mem) ∧
  (∀ (s : State) (f : Flit) (r : RemoteReq), f.dstCore < 4096 → f.req = some r → s.basin < r.due →
    exec (.flitArrival f) s = .next { s with calendar := s.calendar ++ [⟨none, r.due, .op f.dstCore (.flitArrival f)⟩] }) ∧
  (∀ (s : State) (f : Flit) (r : RemoteReq) (a : Nat),
    (Spec.servedNow s f r 0 a → ∃ t, exec (.flitArrival f) s = .next t ∧ t.mem.hbm = s.mem.hbm ∧
      Spec.replied s t f r (Spec.number (byteAt s.mem.hbm) a r.bytes) ∧ Spec.noEngine s t) ∧
    (Spec.servedNow s f r 1 a → ∃ t, exec (.flitArrival f) s = .next t ∧
      Spec.memWritten s t a r.bytes (fun i => BitVec.ofNat 8 (r.data.toNat / 2 ^ (8 * i))) ∧
      (let n := Spec.unacked s r.srcModule r.srcCore r.stream + 1
       Spec.unacked t r.srcModule r.srcCore r.stream = n ∧ t.agenda =
        (if 64 ≤ n ∨ r.fl = true then [Turn.op s.cur (.ackSend r.srcModule r.srcCore r.stream false)] else []) ++ s.agenda) ∧
      Spec.noEngine s t) ∧
    (Spec.servedNow s f r 2 a → r.bytes = 4 ∨ r.bytes = 8 → ∃ t, exec (.flitArrival f) s = .next t ∧
      (let old := Spec.number (byteAt s.mem.hbm) a r.bytes
       let new := amoValue false r.op.toNat r.bytes old r.data.toNat r.cmp.toNat
       Spec.memWritten s t a r.bytes (fun i => BitVec.ofNat 8 (new / 2 ^ (8 * i))) ∧ Spec.replied s t f r old) ∧
      Spec.noEngine s t)) ∧
  (∀ (s : State) (m c x : Nat) (flush : Bool), let n := Spec.unacked s m c x
    (n = 0 → flush = false → exec (.ackSend m c x flush) s = .next s) ∧
    (0 < n ∨ flush = true → ∃ t, exec (.ackSend m c x flush) s = .next t ∧ Spec.unacked t m c x = 0 ∧ t.cores = s.cores ∧
      t.mem = s.mem ∧
      (m = s.moduleId → t.io.out = s.io.out ∧ t.calendar = s.calendar ++
        [⟨none, s.basin + max 1 (s.route (s.partOf c) (s.stream c x).route).lb, .op c (.ackArrival c x n)⟩]) ∧
      (m ≠ s.moduleId → t.calendar = s.calendar ∧ t.io.out = s.io.out ++ [.ack m c x n]))) ∧
  (∀ (s : State) (x : BitVec 3) (n : Nat), s.cur < 4096 → Spec.noneEvicted s → n ≤ Spec.outOf s x →
    ∃ t, exec (.ackArrival s.cur x.toNat n) s = .next t ∧
      Spec.be t = Spec.withXf (Spec.be s) x
        (Spec.xfWord (Spec.txseq s x) (Spec.rxseq s x) (Spec.outOf s x - n) (Spec.rlds s x)) ∧
      (∀ c, c ≠ s.cur → t.core c = s.core c) ∧ t.mem = s.mem) ∧
  (∀ (s : State) (slot stream id : Nat) (data : VWord) (l : Landing), s.cur < 4096 → slot < 256 → Spec.noneEvicted s →
    (s.core s.cur).fab.loads = [(slot, stream, id, 1)] → (Spec.be s).landings = [l] → l.src = some id →
    (s.timed s.cur = true → s.sc s.cur ≤ l.due) →
    ∃ t l', exec (.replyArrival s.cur slot data false) s = .next t ∧ (t.core s.cur).fab.loads = [] ∧
      (Spec.be t).landings = [l'] ∧ l'.file = l.file ∧ l'.reg = l.reg ∧ l'.src = none ∧
      l'.data = ((sget (s.core s.cur).fab.landing slot).getD 0 ||| data) ∧ (Spec.be t).regs = (Spec.be s).regs ∧ t.mem = s.mem) ∧
  ∀ (s : State) (c slot x n : Nat) (data : VWord) (p : Bool) (f : Flit), 4096 ≤ c → 4096 ≤ f.dstCore →
    exec (.ackArrival c x n) s = .fault .noSuchUnit ∧ exec (.replyArrival c slot data p) s = .fault .noSuchUnit ∧
      exec (.flitArrival f) s = .fault .noSuchUnit

namespace Sys2Proof.Spec

/-- No transfer waits at the switch of an I/O die but these. -/
def atSwitch (s : State) (io : Nat) (xs : List PortFlit) : Prop := io < 2 ∧ s.io.inject = xs ∧ ∀ x ∈ xs, x.link / 16 = io

/-- What a switch cycle leaves at the switch and sends, everything else unchanged. -/
def switched (s : State) (stay : List PortFlit) (sent : List Flit) : State :=
  { s with io := { s.io with inject := stay, out := s.io.out ++ sent.map OutMsg.flit } }

end Sys2Proof.Spec

/-- R359, R360, R364 and R384: in a cycle of a switch each output link carries one flit: an Elastic transfer takes a link that
no lease holds, the earlier first, and leaves whole with its last flit; a leased link holds it back; of two Timed
transfers on a leased link the lower port passes; a SEND that has been blocked for 4,096 cycles raises event 0x09 before
any slot of its bundle executes. -/
def Obligations.FabricSwitch : Prop :=
  (∀ (s : State) (io : Nat), Spec.atSwitch s io [] → exec (.switchForward io []) s = .next (Spec.switched s [] [])) ∧
  (∀ (s : State) (io : Nat) (x : PortFlit), Spec.atSwitch s io [x] → x.flit.timed = false →
    (s.linkHeld x.link = false → x.flits ≤ 1 → exec (.switchForward io []) s = .next (Spec.switched s [] [x.flit])) ∧
    (s.linkHeld x.link = false → 1 < x.flits →
      exec (.switchForward io []) s = .next (Spec.switched s [{ x with flits := x.flits - 1 }] [])) ∧
    (s.linkHeld x.link = true → exec (.switchForward io []) s = .next (Spec.switched s [x] []))) ∧
  (∀ (s : State) (io : Nat) (x y : PortFlit), Spec.atSwitch s io [x, y] → x.flit.timed = false → y.flit.timed = false →
    s.linkHeld x.link = false → s.linkHeld y.link = false → x.flits ≤ 1 → y.flits ≤ 1 →
    (x.link = y.link → exec (.switchForward io []) s = .next (Spec.switched s [y] [x.flit])) ∧
    (x.link ≠ y.link → exec (.switchForward io []) s = .next (Spec.switched s [] [x.flit, y.flit]))) ∧
  (∀ (s : State) (io : Nat) (x y : PortFlit), Spec.atSwitch s io [x, y] → x.flit.timed = true → y.flit.timed = true →
    x.at_ ≤ s.basin → y.at_ ≤ s.basin → x.link = y.link → s.linkHeld x.link = true → x.port < y.port → x.flits ≤ 1 →
    y.flit.srcModule ≠ s.moduleId →
    ∃ t ws, exec (.switchForward io []) s = .next t ∧ t.io.inject = [] ∧
      t.io.out = s.io.out ++ [.flit x.flit, .collision y.flit.srcModule y.flit.srcCore ws] ∧ t.cores = s.cores ∧ t.mem = s.mem) ∧
  (∀ (s : State) (io : Nat) (xs : List PortFlit), 2 ≤ io → exec (.switchForward io xs) s = .fault .noSuchUnit) ∧
  (∀ (s : State) (v : Nat) (e : Ev), Spec.atStep s → s.timed s.cur = false → (s.core s.cur).dom = none →
    4096 ≤ (Spec.be s).sendWait → (Spec.npq (Spec.be s) 0).annul = false →
    (s.core s.cur).eng.bundleAt (Spec.npq (Spec.be s) 0).addr = some v → forbidden v = false → illegalSlots v = [] →
    s.wrmode s.cur ≠ 2 →
    (legalOps v).flatMap (slotEvents (s.modBe s.cur fun b => b.beginStep (Spec.npq (Spec.be s) 0).addr)) = [e] → e.cause = 0x09 →
    ∃ t, exec .elasticSendTimeout s = .next t ∧ (Spec.be t).state = .trapping ∧ (Spec.be t).trapEv = [(e, s.sc s.cur)] ∧
      (Spec.be t).npq = (Spec.be s).npq ∧ (Spec.be t).regs = (Spec.be s).regs ∧ (Spec.be t).landings = (Spec.be s).landings ∧
      (t.core s.cur).eng = (s.core s.cur).eng) ∧
  ∀ s : State, s.timed s.cur = true ∨ (Spec.be s).sendWait < 4096 → exec .elasticSendTimeout s = .next s

namespace Sys2Proof.Spec

/-- An inbound operation of a queue pair whose region admits it (R374): the partition and the address. -/
def regionAt (s : State) (qp : Nat) (rkey : BitVec 32) (addr n : Nat) (k : Region → Bool) (p ia : Nat) : Prop :=
  ∃ r, sget s.io.regions (rkey.toNat % 65536) = some r ∧ r.valid = true ∧ r.doorbells = false ∧ r.key.toNat = rkey.toNat / 65536 ∧ addr + n ≤ r.len ∧
    k r = true ∧ (s.qp qp).part = r.part ∧ p = r.part ∧ ia = r.base + addr

/-- The operation names a region that is not there, or not with this key. -/
def regionWrong (s : State) (rkey : BitVec 32) : Prop :=
  ∀ r, sget s.io.regions (rkey.toNat % 65536) = some r → r.valid = false ∨ r.key.toNat ≠ rkey.toNat / 65536

/-- A message leaves the module, and nothing else changes. -/
def nowSays (s : State) (m : OutMsg) : State := { s with io := { s.io with out := s.io.out ++ [m] } }

/-- A message leaves the module behind the earlier ones, and no engine's state changes. -/
def saysOnly (s t : State) (m : OutMsg) : Prop := t.io.out = s.io.out ++ [m] ∧ noEngine s t

/-- A frame that the port accepts (R372). -/
def goodFrame (f : EthFrame) : Prop :=
  f.pause = false ∧ f.fcsOk = true ∧ 64 ≤ f.length ∧ f.length ≤ 9216 ∧ f.vlanTags ≤ 1 ∧ f.ipOk = true ∧ f.fragment = false ∧
    f.udp4791 = true ∧ f.icrcOk = true

end Sys2Proof.Spec

/-- R372 to R375: the port drops and counts a bad frame and answers a marked one with at most one CNP a queue pair in 50 µs; an
RDMA write, read or send moves exactly its bytes and is answered, an atomic returns the old word and leaves the new one;
an operation that its region refuses is answered with a NAK, a send without a buffer with an RNR NAK; a CNP halves the
rate, down to 1 Gb/s, and it rises by 5 percent of the line rate 55 µs later; a timeout retransmits while a retry is left. -/
def Obligations.EthernetPort : Prop :=
  (∀ (s : State) (f : EthFrame),
    (f.pause = true → exec (.ethernetFrameReceive f) s = .next s) ∧
    (f.pause = false → ¬ Spec.goodFrame f →
      exec (.ethernetFrameReceive f) s = .next { s with io := { s.io with ethDrop := s.io.ethDrop + 1 } }) ∧
    (Spec.goodFrame f →
      let q := s.qp f.qp
      let owed := f.ce = true ∧ q.valid = true ∧ ∀ t, q.lastCnpSent = some t → t + 80000 ≤ s.basin
      (owed → ∃ t, exec (.ethernetFrameReceive f) s = .next t ∧ Spec.saysOnly s t (.cnp f.qp) ∧
        t.qp f.qp = { q with lastCnpSent := some s.basin } ∧ t.mem = s.mem ∧ ∀ n, n ≠ f.qp → t.qp n = s.qp n) ∧
      (¬ owed → exec (.ethernetFrameReceive f) s = .next s))) ∧
  (∀ (s : State) (qp p ia a addr : Nat) (rkey : BitVec 32) (data : List Byte), (s.qp qp).valid = true →
    Spec.regionAt s qp rkey addr data.length (·.wr) p ia → Spec.plainSector s p ia data.length false true a →
    Memory.wf s.mem.hbm = true →
    ∃ t, exec (.rdmaWrite qp rkey addr data) s = .next t ∧ Spec.memWritten s t a data.length (fun i => data[i]?.getD 0) ∧
      Spec.saysOnly s t (.rdmaAck qp)) ∧
  (∀ (s : State) (qp p ia a addr n : Nat) (rkey : BitVec 32), (s.qp qp).valid = true →
    Spec.regionAt s qp rkey addr n (·.rd) p ia → Spec.plainSector s p ia n true false a →
    ∃ t, exec (.rdmaRead qp rkey addr n) s = .next t ∧ t.mem.hbm = s.mem.hbm ∧
      Spec.saysOnly s t (.rdmaData qp ((List.range n).map fun i => byteAt s.mem.hbm (a + i)))) ∧
  (∀ (s : State) (qp a b len : Nat) (bs : List (Nat × Nat)) (data : List Byte), (s.qp qp).valid = true →
    ((s.qp qp).bufs = [] → exec (.rdmaSend qp data) s = .next (Spec.nowSays s (.rnrNak qp))) ∧
    ((s.qp qp).bufs = (b, len) :: bs → data.length ≤ len → Spec.plainSector s (s.qp qp).part b data.length false true a →
      Memory.wf s.mem.hbm = true →
      ∃ t, exec (.rdmaSend qp data) s = .next t ∧ Spec.memWritten s t a data.length (fun i => data[i]?.getD 0) ∧
        Spec.saysOnly s t (.rdmaAck qp) ∧ t.qp qp = { s.qp qp with bufs := bs })) ∧
  (∀ (s : State) (qp p ia a addr : Nat) (rkey : BitVec 32) (x cmp : Word), (s.qp qp).valid = true →
    Spec.regionAt s qp rkey addr 8 (fun r => r.at_ && addr % 8 == 0) p ia → Spec.plainSector s p ia 8 true true a →
    Memory.wf s.mem.hbm = true → s.mem.strong = [] →
    let old := BitVec.ofNat 64 (Spec.number (byteAt s.mem.hbm) a 8)
    (∃ t, exec (.atomicFetchAdd qp rkey addr x) s = .next t ∧ Spec.saysOnly s t (.rdmaOld qp old) ∧
      Spec.memWritten s t a 8 (fun i => (old + x).extractLsb' (8 * i) 8)) ∧
    (∃ t, exec (.atomicCompareSwap qp rkey addr cmp x) s = .next t ∧ Spec.saysOnly s t (.rdmaOld qp old) ∧
      Spec.memWritten s t a 8 (fun i => (if old = cmp then x else old).extractLsb' (8 * i) 8))) ∧
  (∀ (s : State) (qp addr n : Nat) (rkey : BitVec 32) (data : List Byte) (x cmp : Word),
    ((s.qp qp).valid = true → Spec.regionWrong s rkey → ∀ i ∈ [Instr.rdmaWrite qp rkey addr data, .rdmaRead qp rkey addr n,
      .atomicFetchAdd qp rkey addr x, .atomicCompareSwap qp rkey addr cmp x], exec i s = .next (Spec.nowSays s (.nak qp false))) ∧
    ((s.qp qp).valid = false → ∀ i ∈ [Instr.rdmaWrite qp rkey addr data, .rdmaRead qp rkey addr n, .rdmaSend qp data,
      .atomicFetchAdd qp rkey addr x, .atomicCompareSwap qp rkey addr cmp x, .cnpReceive qp, .rateIncrease qp, .ackTimeout qp],
      exec i s = .next s)) ∧
  ∀ (s : State) (qp : Nat), (s.qp qp).valid = true →
    (∃ t, exec (.cnpReceive qp) s = .next t ∧
      t.qp qp = { s.qp qp with rate := max 1000 ((s.qp qp).rate / 2), lastCnpRecv := some s.basin } ∧
      t.mem = s.mem ∧ t.cores = s.cores ∧ ∀ n, n ≠ qp → t.qp n = s.qp n) ∧
    (∀ u, (s.qp qp).lastCnpRecv = some u → u + 88000 ≤ s.basin → ∃ t, exec (.rateIncrease qp) s = .next t ∧
      (t.qp qp).rate = min 800000 ((s.qp qp).rate + 40000) ∧ t.mem = s.mem ∧ t.cores = s.cores ∧
      ∀ n, n ≠ qp → t.qp n = s.qp n) ∧
    (∀ u, (s.qp qp).lastCnpRecv = some u → s.basin < u + 88000 → exec (.rateIncrease qp) s = .next s) ∧
    (0 < (s.qp qp).retry → ∃ t, exec (.ackTimeout qp) s = .next t ∧ t.qp qp = { s.qp qp with retry := (s.qp qp).retry - 1 } ∧
      Spec.saysOnly s t (.retransmit qp)) ∧
    ((s.qp qp).retry = 0 → ∃ t, exec (.ackTimeout qp) s = .next t ∧ t.qp qp = { s.qp qp with valid := false } ∧
      t.io.out = s.io.out ∧ t.mem = s.mem ∧ t.cores = s.cores)

namespace Sys2Proof.Spec

/-- Every register of a bundle engine that R95, R129, R162, R260 and R362 clear reads zero. -/
def zeroRegisters (b : BeRegs) : Prop :=
  (∀ n < 16, b.sa[n]? = some 0 ∧ b.sb[n]? = some 0 ∧ b.va[n]? = some 0 ∧ b.vb[n]? = some 0 ∧ b.vc[n]? = some 0 ∧
    b.ma[n]? = some 0 ∧ b.mb[n]? = some 0 ∧ b.st[n]? = some 0) ∧ ∀ n < 8, b.fs[n]? = some 0 ∧ b.xf[n]? = some 0

/-- A control core's turn at an instruction: its core executes, and the bytes at its pc decode. -/
def fetches (s : State) (c : Nat) (i : Instr) : Prop :=
  s.ccRuns c = true ∧ ∃ bs n, (s.core c).fetchBytes = some bs ∧ decodeCC bs = .ok (i, n)

/-- The form that runs: cal.bestart resumes where bit 63 of rs1 is set (R190). -/
def formOf (s : State) (c : Nat) (i : Instr) : Instr :=
  match i with
  | .calBestart rs1 rs2 => if ((if rs1 = 0 then 0 else ((s.core c).cc.x[rs1.toNat]?).getD 0) : Word).getLsbD 63 = true then
      .calBestartResume rs1 rs2 else i
  | _ => i

end Sys2Proof.Spec

/-- R389, R395, R386, R209 and R313: after reset the basin count is 0 and LOCK is 0, no ready bit is set, every progress register
and every register of a bundle engine is zero, and the memory form is canonical; a module reset brings the same back and
clears fences and failed audit engines, and the stacks keep what they hold. The last is the model's choice (log 2). -/
def Obligations.ResetState : Prop :=
  (State.reset.basin = 0 ∧ State.reset.drift.lock = false ∧ State.reset.ready.link = 0 ∧ State.reset.ready.fe = 0 ∧
    State.reset.ready.die = 0 ∧ State.reset.ready.stack = 0 ∧ State.reset.ready.drlock = false ∧ State.reset.mem.hbm = [] ∧
    State.reset.memoryCanonical = true ∧
    (∀ p < 4, State.reset.partWord p 0 = 0x460320 ∧ State.reset.partWord p 6 = 2 ^ 32) ∧
    ∀ c, Spec.zeroRegisters (State.reset.core c).be.regs ∧ (State.reset.core c).eng.mx.prog = Prog.reset ∧
      (State.reset.core c).eng.ce.prog = Prog.reset ∧ (State.reset.core c).be.state = .idle ∧
      (State.reset.core c).fenced = false) ∧
  ∀ s : State, ∃ t, exec .moduleReset s = .next t ∧ t.basin = 0 ∧ t.drift = State.reset.drift ∧ t.ready = State.reset.ready ∧
    t.cores = [] ∧ t.doms = [] ∧ t.audit = [] ∧ t.parts = State.reset.parts ∧ t.mem.hbm = s.mem.hbm

/-- R63, R68 to R74, R76, R78 and R181: words written out from the encodings decode to the instructions that they stand for, one of
each slot class and of the control core, and words that no table assigns to none. -/
def Obligations.DecodedWords : Prop :=
  decodeSlot .sa .w256 0x000013120000 = .ok (.add ⟨.sa, ⟨false, 0, 0⟩, 3, 1, 2⟩) ∧
  decodeSlot .sb .w256 0xD11387FFFFFB = .ok (.br ⟨⟨true, 20, 17⟩, 1, -5⟩) ∧
  decodeSlot .va .w1024 0x000041234400 = .ok (.vfma ⟨.va, .w1024, ⟨false, 0, 0⟩, 1, 2, 3, 4, 8, 0, 0⟩) ∧
  decodeSlot .ma .w256 0x000015058001 = .ok (.lds ⟨.ma, ⟨false, 0, 0⟩, 5, 0, 2, 6, 1⟩) ∧
  decodeSlot .xf .w256 0x000013070000 = .ok (.send ⟨⟨false, 0, 0⟩, 3, 0, 1, 6⟩) ∧
  decodeSlot .sb .w256 0x0003E0000000 = .ok (.halt ⟨false, 0, 0⟩) ∧
  decodeSlot .sa .w256 0x0003E0000000 = .error .unassigned ∧
  decodeCC32 0x04C5850B = .ok (.mconv ⟨10, 11, 12⟩) ∧ decodeCC32 0x0405002B = .ok (.calWaitEng 2 10) ∧
  decodeCC32 0x05C3D02B = .ok (.calPrgwr 2 7 28) ∧ decodeCC32 0x00000073 = .ok .ecall ∧
  decodeCC32 0x30200073 = .ok .mret ∧ decodeCC32 0x0000007F = .error .unassigned ∧
  decodeTableWord 32 0x04C5850B = some (.mconv ⟨10, 11, 12⟩)

/-- R62, R63 and R68 to R75: the word of a slot operation that its form's rules allow decodes in its slot, at its width, to that
operation; and a word that decodes to an operation is that operation's word: no bit of it is dropped. -/
def Sys2Proof.Spec.SlotWordsRoundTrip : Prop :=
  (∀ (i : Instr) (wd : Width), i.form.2 ≠ .notSlot → slotLegal i = true → (∀ v, i.form.2.width = some v → v = wd) →
    decodeSlot i.form.2.slot wd (encodeSlot i) = .ok i) ∧
  ∀ (sl : Slot) (wd : Width) (w : BitVec 48) (i : Instr), decodeSlot sl wd w = .ok i → encodeSlot i = w ∧ i.form.2.slot = sl

/-- R76, R78 and R79: the word of an extension instruction whose codes are allowed decodes to it. -/
def Sys2Proof.Spec.ExtensionWordsRoundTrip : Prop :=
  ∀ (i : Instr) (w : BitVec 32), encodeExt i = some w → ccLegal i = true → decodeCC32 w = .ok i

/-- Both of the statements SlotWordsRoundTrip and ExtensionWordsRoundTrip. -/
def Obligations.WordsRoundTrip : Prop := Spec.SlotWordsRoundTrip ∧ Spec.ExtensionWordsRoundTrip

/-- R5 and R181: a step runs the next turn of the cycle; a control core's turn is exec of the instruction that the bytes at its pc
decode to, cal.bestart in its resume form where rs1 asks for it; an event's turn is exec of that event; a cycle whose turns
are over counts one module cycle and lays out the next, or begins the hold cycles that are due (R389, R391). -/
def Obligations.StepRunsDecoded : Prop :=
  (∀ (s : State) (c : Nat) (i : Instr) (rest : List Turn), s.agenda = .cc c :: rest → Spec.fetches s c i →
    step s = exec (Spec.formOf s c i) { s with agenda := rest, cur := c }) ∧
  (∀ (s : State) (c : Nat) (rest : List Turn), s.agenda = .cc c :: rest → s.ccRuns c = false →
    step s = .next { s with agenda := rest }) ∧
  (∀ (s : State) (c : Nat) (i : Instr) (rest : List Turn), s.agenda = .op c i :: rest → c < 4096 →
    step s = exec i { s with agenda := rest, cur := c }) ∧
  (∀ s : State, s.agenda = [] → (∀ r ∈ s.drift.reqs, s.basin < r.b) →
    ∃ t, step s = .next t ∧ t.basin = s.basin + 1 ∧ t.cores = s.cores ∧ t.mem = s.mem ∧ t.parts = s.parts ∧ t.doms = s.doms) ∧
  (∀ s : State, s.agenda = [] → (∃ r ∈ s.drift.reqs, r.b ≤ s.basin) →
    step s = .next { s with agenda := [.op s.cur .holdCycles] }) ∧
  ∀ (nbits w : Nat) (i : Instr), decodeTableWord nbits w = some i → nbits ≤ 32 →
    let s := State.reset.withFetchWord nbits w
    step s = exec (Spec.formOf s 0 i) { s with agenda := [], cur := 0 }

namespace Sys2Proof.Spec

/-- The units, tables and cores that an instruction or event names exist (R9, R10, R251, R374, R379). -/
def named (i : Instr) : Prop := unitsOk i = true ∧ ∀ w, i = .headwaterTableWrite w → tableWriteOk w = true

end Sys2Proof.Spec

/-- R5 and R75: every instruction and event that names what the module has answers a next state in every state; one is never
refused, and none of them stops but an event of a unit that does not exist. -/
def Obligations.EveryInstructionAnswers : Prop :=
  (∀ (i : Instr) (s : State), Spec.named i → ∃ t, exec i s = .next t) ∧
  ∀ (i : Instr) (s : State), ¬ Spec.named i → exec i s = .fault .noSuchUnit ∨ ∃ t, exec i s = .next t

/-- R4 and R240: every step keeps the one form of stack memory, in which an address stands once, in order, and only where its byte
is not the one that an unlisted address reads as: equal memories are equal data. -/
def Obligations.StepKeepsMemoryForm : Prop :=
  ∀ s t : State, s.memoryCanonical = true → step s = .next t → t.memoryCanonical = true

namespace Sys2Proof.Spec

/-- Native operations that a Smider operation translates to: one, or its expansion of R93; a special function is followed by
the copy of its result. -/
def nativeCount (o : SmOp) : Nat :=
  match o with
  | .swap .. => 3
  | .mulAdd .. => 2
  | .branch .. => 2
  | .special .. => 2
  | .dotAcc .. => 6
  | .absDiff .. => 2
  | _ => 1

/-- Two live ranges meet. -/
def liveTogether (x y : SmRange) : Prop := x.first ≤ y.last ∧ y.first ≤ x.last

/-- The bytes of two buffers meet, the second `k` banks further up. -/
def bytesMeet (k : Nat) (x y : PlanRec) : Prop := x.lo < y.hi + 65536 * k ∧ y.lo + 65536 * k < x.hi

end Sys2Proof.Spec

/-- R87, R92, R93, R399 and R400: of a translated kernel every register named has a place; a register is one of the set that
the load request names, less the scratch; two ranges that live together never share one, and no two share a spill slot; a
Smider operation becomes one native operation or its expansion. A second kernel on a core is placed at the least bank
offset at which no bytes meet and no buffer passes bank 15, offset 0 where no buffer needs another, and moves only where
every buffer of it may. -/
def Obligations.LoadedKernels : Prop :=
  (∀ (q : SmRequest) (ops : List SmOp),
    let a := assignRanges q ops
    (∀ o ∈ ops, ∀ r ∈ o.names, ∃ p, a.place (.reg r) = some p) ∧
    (∀ e ∈ a.1, ∀ x, e.2 = .reg x → x ∈ q.pool e.1.val.isVector) ∧
    (∀ e ∈ a.1, ∀ f ∈ a.1, e ≠ f → e.2 = f.2 → (∃ x, e.2 = .reg x) ∧ ¬ Spec.liveTogether e.1 f.1)) ∧
  (∀ (o : SmOp) (m : SmMap) (l : List SmNative), o.native m = some l → l.length = Spec.nativeCount o) ∧
  ∀ (there new : List PlanRec) (k : Nat), placeKernel there new = some k →
    (∀ x ∈ there, ∀ y ∈ new, ¬ Spec.bytesMeet k x y) ∧ (∀ y ∈ new, y.hi + 65536 * k ≤ 1048576) ∧
    (0 < k → ∀ y ∈ new, y.reloc = true) ∧
    ∀ j < k, (∃ x ∈ there, ∃ y ∈ new, Spec.bytesMeet j x y) ∨ ∃ y ∈ new, 1048576 < y.hi + 65536 * j

namespace Sys2Proof.Spec

/-! ### Every event completes (R5) -/

/-- The domain `id` of `t` is in a phase. -/
def phaseIs (t : State) (id : Nat) (p : Phase) : Prop := ∃ d, t.dom id = some d ∧ d.phase = p

/-- The one entry of a sequencer. -/
def runsOne (s : State) (q : Seqr) (a : ActiveEntry) : Prop :=
  s.live (s.seqCore q) = true ∧ (s.seq (s.seqCore q) q).active = [a]

/-- The steps that the progress registers of a sequencer count. -/
def stepsOf (s t : State) (q : Seqr) : Half := (t.seq (s.seqCore q) q).prog.steps

end Sys2Proof.Spec

/-- R342, R345 and R347: where a doorbell waits and a slot is free the queue is mapped there and waits no longer; a free
dispatcher with a valid command ready takes it; an ageing quantum raises the level of each slot with a ready command. -/
def Obligations.QueueEventsComplete : Prop :=
  (∀ (s : State) (p q n : Nat), p < 4 → (s.part p).pending.head? = some q → s.mapSlot p = some n → (s.slot n).queue = none →
    s.hw.updating = false → (s.queueRec q).v = true → (s.queueRec q).inRange = true →
    ∃ t, exec (.queueMapping p) s = .next t ∧ (t.slot n).queue = some q ∧ (t.slot n).rec_ = s.queueRec q ∧
      q ∉ (t.part p).pending) ∧
  (∀ (s : State) (fe n q : Nat), fe < 16 → sget s.io.disps fe = none → s.dispatchSlot fe = some n →
    (s.slot n).queue = some q →
    let c := s.nextCmd ((s.partOfQueue q).getD 0) (s.slot n).rec_
    s.cmdValid ((s.partOfQueue q).getD 0) c = true →
    ∃ t, exec (.dispatch fe) s = .next t ∧ sget t.io.disps fe = some ⟨n, c⟩ ∧ (t.slot n).execs = (s.slot n).execs ++ [c]) ∧
  ∀ (s : State) (p n : Nat), p < 4 → n ∈ s.slotsOf p → s.slotReady n = true →
    ∃ t, exec (.ageingQuantum p) s = .next t ∧ (t.slot n).level = min 7 ((s.slot n).level + 1) ∧
      (t.slot n).queue = (s.slot n).queue ∧ (t.slot n).rec_ = (s.slot n).rec_

/-- R41, R44, R45, R53 and R57: a core that may finish has finished; a launch that may retire and
whose last write-backs meet no event, and one that is killed, has ended;
one that replays is armed again, one replay more; a notice of a kill ends the run that it names, one of a replay arms it again
for its Ba, and one for another module goes on; a basin replay whose 2^20 cycles have passed has an agreed B0 at which it
starts. -/
def Obligations.LaunchEventsComplete : Prop :=
  (∀ s : State, s.canFinish s.cur = true → ∃ t, exec .coreFinished s = .next t ∧ (Spec.cc t).state = .finished) ∧
  (∀ (s : State) (id : Nat) (d : Domain), s.dom id = some d →
    (s.retireReady id d = true → Spec.flushes s id d →
      ∃ t, exec (.launchRetirement id) s = .next t ∧ Spec.phaseIs t id .ended) ∧
    (∀ st, d.phase ≠ .ended → ∃ t, exec (.kill id st) s = .next t ∧ Spec.phaseIs t id .ended) ∧
    (d.phase ≠ .ended → d.phase ≠ .evicted → d.basin = false → ∃ t d', exec (.launchReplay id) s = .next t ∧
      t.dom id = some d' ∧ d'.phase = .armed ∧ d'.replays = d.replays + 1)) ∧
  (∀ (s : State) (n : Notice), n.target ≠ s.moduleId →
    exec (.basinAbortNotice n) s = .next { s with agenda := .notice n :: s.agenda }) ∧
  (∀ (s : State) (n : Notice) (id : Nat) (d : Domain), n.target = s.moduleId → s.doms = [(id, d)] → Spec.noticed n d = true →
    d.replayBa = none → d.replays = n.replays → Spec.fresh s n → d.phase ≠ .evicted →
    (n.resp ≠ 4 → ∃ t, exec (.basinAbortNotice n) s = .next t ∧ Spec.phaseIs t id .ended) ∧
    (n.resp = 4 → ∃ t d', exec (.basinAbortNotice n) s = .next t ∧ t.dom id = some d' ∧ d'.phase = .armed ∧
      d'.replayBa = some n.ba)) ∧
  ∀ (s : State) (id ba : Nat) (d : Domain), s.dom id = some d → d.replayBa = some ba → d.phase = .armed → ba + 2 ^ 20 < s.basin →
    ∃ t d' k, exec (.basinReplayDispatch id) s = .next t ∧ t.dom id = some d' ∧ d'.b0 = 2 ^ 22 * k ∧ ba + 2 ^ 22 ≤ d'.b0 ∧
      d'.b0 < ba + 2 * 2 ^ 22 ∧ d'.replayBa = none ∧ ⟨none, d'.b0, .op s.cur (.domainStart id)⟩ ∈ t.calendar

/-- R252, R292, R293, R303, R380 and R381: a line that leaves its cache is there no more; a request whose walk finds a leaf is
translated; one whose walk comes late in Timed faults and sets the freeze point; a shoot-down leaves no result of its
partition and range but the pinned ones; a shadow copy sets its bit; the patrol scrub leaves a clean sector as it is. -/
def Obligations.MemoryEventsComplete : Prop :=
  (∀ (s : State) (line : Nat) (l : L1Line), ((Spec.cc s).l1.map Prod.fst).Nodup → sget (Spec.cc s).l1 line = some l →
    l.dirty = 0 → ∃ t, exec (.firstLevelEviction line) s = .next t ∧ sget (Spec.cc t).l1 line = none ∧ t.mem = s.mem) ∧
  (∀ (s : State) (r : LongReq) (pa size : Nat) (leaf : Word), s.mem.reqs = [r] → r.xlat = .waiting → r.engine = 1 →
    r.core = s.cur → r.kind = .load → r.dom = none → s.translateHome r.part r.ia true false = .ok pa leaf size →
    ∃ t, exec (.pageWalk (2 * r.id + 1)) s = .next t ∧ t.mem.reqs = [{ r with xlat := .ok pa leaf size }]) ∧
  (∀ (s : State) (r : LongReq) (id : Nat) (d : Domain), s.mem.reqs = [r] → r.xlat = .waiting → r.engine = 1 → r.core = s.cur →
    r.timed = true → r.dom = some id → (s.core s.cur).dom = some id → s.dom id = some d → d.phase = .running →
    d.timed = true → d.basin = false → r.issue + 256 ≤ s.sc s.cur →
    ∃ t d', exec (.walkLate (2 * r.id + 1)) s = .next t ∧ t.mem.reqs = [{ r with xlat := .fault 3 0 }] ∧
      t.dom id = some d' ∧ d'.fpt = some (d.fpt.getD (d.sc s.basin + 256))) ∧
  (∀ (s : State) (stack part lo hi : Nat), stack < 8 → part < 4 → ∃ t, exec (.shootDown stack part lo hi) s = .next t ∧
    t.mem.hbm = s.mem.hbm ∧ t.cores = s.cores ∧
    ∀ e ∈ t.mem.tlb, e.stack = stack → e.part = part → e.block * 65536 ≤ hi → lo < (e.block + 1) * 65536 → e.pins ≠ []) ∧
  (∀ (s : State) (b : Binding) (i w size : Nat), s.mem.bindings = [b] → i < 1024 → b.copied.getLsbD i = false →
    s.leafAt b.part b.stack (b.block * 65536 + 64 * i) = some (w, size) →
    ∃ t b', exec (.shadowCopy 0 i) s = .next t ∧ t.mem.bindings = [b'] ∧ b'.frame = b.frame ∧
      ∀ j < 1024, b'.copied.getLsbD j = (b.copied.getLsbD j || decide (j = i))) ∧
  ∀ (s : State) (stack sector : Nat), stack < 8 →
    s.mem.delta (stack * 2 ^ 30 + sector % 2 ^ 30) (s.sectorPage stack (64 * sector)).1 (s.sectorPage stack (64 * sector)).2.1 = 0 →
    sector < 2 ^ 30 → exec (.patrolScrub stack sector) s = .next s

/-- R21, R188, R206, R211, R233 to R236, R310, R314, R327 and R337: an entry that may start runs on its sequencer; a step that may
begin is in flight; a step whose writes have performed commits, and STEPS counts it; an entry that has committed every step
leaves, one that stops takes STATE 2 and interrupt 17, one that is reissued runs, and one that is flushed goes; a refetch
whose copy is complete lets its step run again; an audit recomputation takes the oldest image and counts it. -/
def Obligations.EngineEventsComplete : Prop :=
  (∀ (s : State) (q : Seqr) (ent : QEntry), s.live s.cur = true → s.timed s.cur = false → s.canStart s.cur q = some ent →
    ∃ t a, exec (.macroStart q) s = .next t ∧ (t.seq s.cur q).active = [a] ∧ a.entry = ent ∧ a.startSC = s.sc s.cur ∧
      (t.seq s.cur q).prog.state = 1 ∧ (t.seq s.cur q).prog.issue = ent.issue) ∧
  (∀ (s : State) (e : Eng) (a : ActiveEntry), e = .mx ∧ formEng a.entry.form = .mx ∨ e = .px ∧ a.entry.form = 8 →
    Spec.elastic s (Spec.own e) a [] → Spec.nextDue s (Spec.own e) a → (s.core s.cur).eng.spadPoison = [] →
    (descA a.entry.block).tagchk = false → (descB a.entry.block).tagchk = false →
    ∃ t st, exec (.tileStepStart e) s = .next t ∧ (t.seq s.cur (Spec.own e)).steps = [st] ∧ st.issue = a.entry.issue ∧
      st.n = a.started ∧ st.t0 = s.sc s.cur) ∧
  (∀ (s : State) (a : ActiveEntry) (st : StepState), Spec.elastic s (Spec.own .px) a [st] →
    (pxPoints a.entry.form a.entry.block (pxPos a.entry.form a.entry.block st.n).chunk).length < st.stage →
    st.readsCome = true → st.t0 + commitOfs a.entry.form a.entry.block st.n ≤ s.sc s.cur → Spec.nothingOut s s.cur →
    ∃ t, exec (.tileStepCommit .px) s = .next t ∧ (t.seq s.cur (Spec.own .px)).steps = [] ∧
      (t.seq s.cur (Spec.own .px)).prog.steps = (s.seq s.cur (Spec.own .px)).prog.steps + 1) ∧
  (∀ (s : State) (a : ActiveEntry) (st : StepState), Spec.elastic s (Spec.own .ce) a [st] →
    a.entry.form = 0x10 ∨ a.entry.form = 0x11 → st.stage = 2 → Spec.nothingOut s s.cur →
    ∃ t, exec (.chunkCommit (Spec.own .ce)) s = .next t ∧ (t.seq s.cur (Spec.own .ce)).steps = [] ∧
      (t.seq s.cur (Spec.own .ce)).prog.steps = (s.seq s.cur (Spec.own .ce)).prog.steps + 1) ∧
  (∀ (s : State) (q : Seqr) (a : ActiveEntry) (st : StepState) (ps : PlanStep), Spec.planStepAt s q a st ps false 1 →
    let c := s.seqCore q
    let sp := Spec.planSpan a.entry.block ps
    sp.1 = false → a.startSC + ps.delta ≤ s.sc c → s.planBytes (dieOf ps.pcore) q.idx + sp.2.2 ≤ 65536 →
    (s.route (s.partOf c) ps.route).v = true →
    ∃ t, exec (.cxSendStep q) s = .next t ∧ (t.seq c q).steps = [] ∧ (t.seq c q).prog.steps = (s.seq c q).prog.steps + 1) ∧
  (∀ (s : State) (q : Seqr) (a : ActiveEntry) (st : StepState) (ps : PlanStep), Spec.planStepAt s q a st ps true 2 →
    Spec.nothingOut s (s.seqCore q) →
    ∃ t, exec (.cxReceiveStep q) s = .next t ∧ (t.seq (s.seqCore q) q).steps = [] ∧
      (t.seq (s.seqCore q) q).prog.steps = (s.seq (s.seqCore q) q).prog.steps + 1) ∧
  (∀ (s : State) (q : Seqr) (a : ActiveEntry),
    let c := s.seqCore q
    let x := s.seq c q
    Spec.runsOne s q a →
    (a.total ≤ a.committed → x.steps = [] → x.stopEv = none → x.prog.state = 1 → s.pendingBytes c q.eng a.entry.issue = 0 →
      ∃ t, exec (.entryComplete q) s = .next t ∧ (t.seq c q).active = [] ∧ (t.seq c q).prog.state = 0) ∧
    (∀ ev, x.stopEv = some ev → x.steps = [] → s.pendingBytes c q.eng a.entry.issue = 0 →
      ∃ t, exec (.macroStop q) s = .next t ∧ (t.core c).cc.mip.getLsbD 17 = true ∧
        (t.core c).cc.pendMacro ≠ []) ∧
    (x.prog.state = 2 →
      (∃ t, exec (.entryReissue q) s = .next t ∧ (t.seq c q).prog.state = 1 ∧ (t.seq c q).prog.resumed = true) ∧
      ∃ t, exec (.entryFlush q) s = .next t ∧ (t.seq c q).prog.state = 0 ∧ (t.seq c q).active = [] ∧
        (t.core c).eng.queue q.eng = [])) ∧
  (∀ (s : State) (x : Redo), s.live s.cur = true → s.timed s.cur = false → (s.core s.cur).eng.redo = some x →
    x.mx = true → x.act.total ≤ x.act.committed →
    ∃ t, exec .ceRefetch s = .next t ∧ (t.core s.cur).eng.redo = none ∧ (t.core s.cur).eng.mx.prog.state = 1) ∧
  ∀ (s : State) (die : Nat) (im : AuditImage) (rest : List AuditImage), die < 8 →
    (∀ e ∈ s.cores, (s.core e.1).staging = none) → ((sget s.audit die).getD default).images = im :: rest →
    ((sget s.audit die).getD default).glitch = (0, 0) →
    ∃ t d', exec (.auditRecomputation die) s = .next t ∧ sget t.audit die = some d' ∧ d'.images = rest ∧
      d'.done = satInc ((sget s.audit die).getD default).done

/-- R359, R364 to R368 and R370: a transfer joins the buffer of its stream or the transfers of its plan; what a switch may send it
sends; an acknowledgement is sent for the parts outstanding and takes them from OUT; the last reply of a load supplies its
landing; a SEND blocked for 4,096 cycles raises event 0x09. -/
def Obligations.FabricEventsComplete : Prop :=
  (∀ (s : State) (f : Flit), f.dstCore < 4096 → f.req = none → f.plan = none → f.stream < 8 → s.live f.dstCore = true →
    (s.core f.dstCore).dom ≠ none → ((s.core f.dstCore).fab.rx[f.stream]?).getD none = none →
    ∃ t, exec (.flitArrival f) s = .next t ∧
      (t.core f.dstCore).fab.rx[f.stream]? = some (some ⟨f, s.sc f.dstCore, none⟩)) ∧
  (∀ (s : State) (f : Flit), f.dstCore < 4096 → f.req = none → f.plan ≠ none →
    ∃ t, exec (.flitArrival f) s = .next t ∧
      (t.core f.dstCore).fab.plan = (s.core f.dstCore).fab.plan ++ [⟨f, s.sc f.dstCore, none⟩]) ∧
  (∀ (s : State) (io : Nat) (x : PortFlit), io < 2 → s.io.inject = [x] → x.link / 16 = io → x.flit.timed = false →
    s.linkHeld x.link = false → x.flits ≤ 1 →
    ∃ t, exec (.switchForward io []) s = .next t ∧ t.io.out = s.io.out ++ [.flit x.flit] ∧ t.io.inject = []) ∧
  (∀ (s : State) (m c x : Nat) (flush : Bool), 0 < Spec.unacked s m c x → m ≠ s.moduleId →
    ∃ t, exec (.ackSend m c x flush) s = .next t ∧ t.io.out = s.io.out ++ [.ack m c x (Spec.unacked s m c x)] ∧
      Spec.unacked t m c x = 0) ∧
  (∀ (s : State) (x : BitVec 3) (n : Nat), s.cur < 4096 → Spec.noneEvicted s → n ≤ Spec.outOf s x →
    ∃ t, exec (.ackArrival s.cur x.toNat n) s = .next t ∧ Spec.outOf t x = Spec.outOf s x - n) ∧
  (∀ (s : State) (slot stream id : Nat) (data : VWord) (l : Landing), s.cur < 4096 → slot < 256 → Spec.noneEvicted s →
    (s.core s.cur).fab.loads = [(slot, stream, id, 1)] → (Spec.be s).landings = [l] → l.src = some id →
    s.timed s.cur = false →
    ∃ t l', exec (.replyArrival s.cur slot data false) s = .next t ∧ (t.core s.cur).fab.loads = [] ∧
      (Spec.be t).landings = [l'] ∧ l'.src = none ∧ l'.data = ((sget (s.core s.cur).fab.landing slot).getD 0 ||| data)) ∧
  ∀ (s : State) (v : Nat) (e : Ev), Spec.atStep s → s.timed s.cur = false → (s.core s.cur).dom = none →
    4096 ≤ (Spec.be s).sendWait → (Spec.npq (Spec.be s) 0).annul = false →
    (s.core s.cur).eng.bundleAt (Spec.npq (Spec.be s) 0).addr = some v → forbidden v = false → illegalSlots v = [] →
    s.wrmode s.cur ≠ 2 →
    (legalOps v).flatMap (slotEvents (s.modBe s.cur fun b => b.beginStep (Spec.npq (Spec.be s) 0).addr)) = [e] → e.cause = 0x09 →
    ∃ t, exec .elasticSendTimeout s = .next t ∧ (Spec.be t).state = .trapping ∧ (Spec.be t).trapEv = [(e, s.sc s.cur)]

/-- R372 to R375: a bad frame is counted and a marked one of a live queue pair answered with a CNP; an operation that its region
admits, on memory that translates, is answered; a CNP lowers the rate, a rise lifts it, and a timeout with a retry left
retransmits. -/
def Obligations.EthernetEventsComplete : Prop :=
  (∀ (s : State) (f : EthFrame),
    (f.pause = false → ¬ Spec.goodFrame f → ∃ t, exec (.ethernetFrameReceive f) s = .next t ∧ t.io.ethDrop = s.io.ethDrop + 1) ∧
    (Spec.goodFrame f → f.ce = true → (s.qp f.qp).valid = true → (s.qp f.qp).lastCnpSent = none →
      ∃ t, exec (.ethernetFrameReceive f) s = .next t ∧ t.io.out = s.io.out ++ [.cnp f.qp] ∧
        (t.qp f.qp).lastCnpSent = some s.basin)) ∧
  (∀ (s : State) (qp p ia a addr : Nat) (rkey : BitVec 32) (data : List Byte), (s.qp qp).valid = true →
    Spec.regionAt s qp rkey addr data.length (·.wr) p ia → Spec.plainSector s p ia data.length false true a →
    Memory.wf s.mem.hbm = true →
    ∃ t, exec (.rdmaWrite qp rkey addr data) s = .next t ∧ Spec.memWritten s t a data.length (fun i => data[i]?.getD 0) ∧
      t.io.out = s.io.out ++ [.rdmaAck qp]) ∧
  (∀ (s : State) (qp p ia a addr n : Nat) (rkey : BitVec 32), (s.qp qp).valid = true →
    Spec.regionAt s qp rkey addr n (·.rd) p ia → Spec.plainSector s p ia n true false a →
    ∃ t, exec (.rdmaRead qp rkey addr n) s = .next t ∧
      t.io.out = s.io.out ++ [.rdmaData qp ((List.range n).map fun i => byteAt s.mem.hbm (a + i))]) ∧
  (∀ (s : State) (qp a b len : Nat) (bs : List (Nat × Nat)) (data : List Byte), (s.qp qp).valid = true →
    (s.qp qp).bufs = (b, len) :: bs → data.length ≤ len → Spec.plainSector s (s.qp qp).part b data.length false true a →
    ∃ t, exec (.rdmaSend qp data) s = .next t ∧ (t.qp qp).bufs = bs ∧ t.io.out = s.io.out ++ [.rdmaAck qp]) ∧
  (∀ (s : State) (qp p ia a addr : Nat) (rkey : BitVec 32) (x cmp : Word), (s.qp qp).valid = true →
    Spec.regionAt s qp rkey addr 8 (fun r => r.at_ && addr % 8 == 0) p ia → Spec.plainSector s p ia 8 true true a →
    s.mem.strong = [] →
    (∃ t, exec (.atomicFetchAdd qp rkey addr x) s = .next t ∧
      t.io.out = s.io.out ++ [.rdmaOld qp (BitVec.ofNat 64 (Spec.number (byteAt s.mem.hbm) a 8))]) ∧
    (∃ t, exec (.atomicCompareSwap qp rkey addr cmp x) s = .next t ∧
      t.io.out = s.io.out ++ [.rdmaOld qp (BitVec.ofNat 64 (Spec.number (byteAt s.mem.hbm) a 8))])) ∧
  ∀ (s : State) (qp : Nat), (s.qp qp).valid = true →
    (∃ t, exec (.cnpReceive qp) s = .next t ∧ (t.qp qp).rate = max 1000 ((s.qp qp).rate / 2)) ∧
    (∀ u, (s.qp qp).lastCnpRecv = some u → u + 88000 ≤ s.basin → ∃ t, exec (.rateIncrease qp) s = .next t ∧
      (t.qp qp).rate = min 800000 ((s.qp qp).rate + 40000)) ∧
    (0 < (s.qp qp).retry → ∃ t, exec (.ackTimeout qp) s = .next t ∧ (t.qp qp).retry = (s.qp qp).retry - 1 ∧
      t.io.out = s.io.out ++ [.retransmit qp])
end

