-- ==== Sys2Proof/Laws/Sparse.lean ====
section
/-! SUPPORT. Sparse tables: what a read finds after an insertion or a removal, and that both keep the form of the table:
keys strictly rising, and for a store of bytes no entry equal to what an unlisted key reads as. -/

namespace Sys2Proof.Machine

variable {α : Type}

@[simp] theorem sget_nil (k : Nat) : sget ([] : Sparse α) k = none := rfl

theorem sget_cons (j : Nat) (v : α) (t : Sparse α) (k : Nat) :
    sget ((j, v) :: t) k = if j = k then some v else sget t k := rfl

/-- Reading after an insertion: the inserted value at its key, the old entry elsewhere. -/
@[simp] theorem sget_sinsert (l : Sparse α) (k j : Nat) (v : α) :
    sget (sinsert l k v) j = if k = j then some v else sget l j := by
  induction l with
  | nil => simp [sinsert, sget_cons]
  | cons x t ih =>
    obtain ⟨i, w⟩ := x
    simp only [sinsert]
    split
    · simp [sget_cons]
    · split
      · subst_vars; simp only [sget_cons]; split <;> rfl
      · simp only [sget_cons, ih]
        split
        · split <;> first | rfl | omega
        · rfl

theorem sget_sinsert_self (l : Sparse α) (k : Nat) (v : α) : sget (sinsert l k v) k = some v := by simp

theorem sget_sinsert_of_ne (l : Sparse α) {k j : Nat} (v : α) (h : k ≠ j) : sget (sinsert l k v) j = sget l j := by
  simp [h]

section Form

variable [DecidableEq α]

theorem swfFrom_mono {d : α} {l : Sparse α} {lo hi : Nat} (h : swfFrom d hi l = true) (hl : lo ≤ hi) :
    swfFrom d lo l = true := by
  cases l with
  | nil => rfl
  | cons x t =>
    obtain ⟨j, v⟩ := x
    simp only [swfFrom, Bool.and_eq_true, decide_eq_true_eq] at h ⊢
    exact ⟨⟨by omega, h.1.2⟩, h.2⟩

/-- Below its least key a table in the form lists nothing. -/
theorem sget_eq_none_of_lt {d : α} {l : Sparse α} {lo k : Nat} (h : swfFrom d lo l = true) (hk : k < lo) :
    sget l k = none := by
  induction l generalizing lo with
  | nil => rfl
  | cons x t ih =>
    obtain ⟨j, v⟩ := x
    simp only [swfFrom, Bool.and_eq_true, decide_eq_true_eq] at h
    rw [sget_cons, if_neg (by omega)]
    exact ih h.2 (by omega)

theorem swfFrom_sinsert {d : α} {l : Sparse α} {lo k : Nat} {v : α} (h : swfFrom d lo l = true) (hk : lo ≤ k)
    (hv : v ≠ d) : swfFrom d lo (sinsert l k v) = true := by
  induction l generalizing lo with
  | nil => simp [sinsert, swfFrom, hk, hv]
  | cons x t ih =>
    obtain ⟨j, w⟩ := x
    have h' := h
    simp only [swfFrom, Bool.and_eq_true, decide_eq_true_eq] at h
    obtain ⟨⟨hj, hw⟩, ht⟩ := h
    simp only [sinsert]
    split
    · simp only [swfFrom, Bool.and_eq_true, decide_eq_true_eq]
      exact ⟨⟨hk, hv⟩, ⟨by omega, hw⟩, ht⟩
    · split
      · subst_vars
        simp only [swfFrom, Bool.and_eq_true, decide_eq_true_eq]
        exact ⟨⟨hk, hv⟩, ht⟩
      · simp only [swfFrom, Bool.and_eq_true, decide_eq_true_eq]
        exact ⟨⟨hj, hw⟩, ih ht (by omega)⟩

theorem swfFrom_serase {d : α} {l : Sparse α} {lo k : Nat} (h : swfFrom d lo l = true) :
    swfFrom d lo (serase l k) = true := by
  induction l generalizing lo with
  | nil => rfl
  | cons x t ih =>
    obtain ⟨j, w⟩ := x
    simp only [swfFrom, Bool.and_eq_true, decide_eq_true_eq] at h
    obtain ⟨⟨hj, hw⟩, ht⟩ := h
    simp only [serase]
    split
    · exact swfFrom_mono ht (by omega)
    · simp only [swfFrom, Bool.and_eq_true, decide_eq_true_eq]
      exact ⟨⟨hj, hw⟩, ih ht⟩

/-- A removal leaves every other key as it was, and its own unlisted, in a table of the form. -/
theorem sget_serase {d : α} {l : Sparse α} {lo : Nat} (h : swfFrom d lo l = true) (k j : Nat) :
    sget (serase l k) j = if k = j then none else sget l j := by
  induction l generalizing lo with
  | nil => simp [serase]
  | cons x t ih =>
    obtain ⟨i, w⟩ := x
    simp only [swfFrom, Bool.and_eq_true, decide_eq_true_eq] at h
    obtain ⟨⟨-, -⟩, ht⟩ := h
    simp only [serase]
    split
    · subst_vars
      split
      · subst_vars; exact sget_eq_none_of_lt ht (by omega)
      · rw [sget_cons, if_neg ‹_›]
    · simp only [sget_cons, ih ht]
      split
      · split <;> first | rfl | omega
      · rfl

/-- Writing `v` where unlisted keys read `d`: the write keeps the canonical form. -/
theorem swf_sput {d : α} {l : Sparse α} (h : swf d l = true) (k : Nat) (v : α) : swf d (sput d l k v) = true := by
  unfold swf at h ⊢
  unfold sput
  split
  · exact swfFrom_serase h
  · exact swfFrom_sinsert h (Nat.zero_le k) ‹_›

/-- Reading after such a write. -/
theorem getD_sput {d : α} {l : Sparse α} (h : swf d l = true) (k j : Nat) (v : α) :
    (sget (sput d l k v) j).getD d = if k = j then v else (sget l j).getD d := by
  unfold sput
  split
  · rw [sget_serase h]; split <;> simp_all
  · rw [sget_sinsert]; split <;> simp

end Form

end Sys2Proof.Machine
end

