-- ==== Sys2Proof/Laws/State.lean ====
section
/-! SUPPORT. One lemma for each field of the state under each named update, and what reads of a core, a domain and the
time find after an update of a core. -/

namespace Sys2Proof.Machine

variable (s : State)

@[simp] theorem State.setCore_basin (c : Nat) (k : Core) : (s.setCore c k).basin = s.basin := rfl
@[simp] theorem State.setCore_drift (c : Nat) (k : Core) : (s.setCore c k).drift = s.drift := rfl
@[simp] theorem State.setCore_ready (c : Nat) (k : Core) : (s.setCore c k).ready = s.ready := rfl
@[simp] theorem State.setCore_islands (c : Nat) (k : Core) : (s.setCore c k).islands = s.islands := rfl
@[simp] theorem State.setCore_hw (c : Nat) (k : Core) : (s.setCore c k).hw = s.hw := rfl
@[simp] theorem State.setCore_parts (c : Nat) (k : Core) : (s.setCore c k).parts = s.parts := rfl
@[simp] theorem State.setCore_boundary (c : Nat) (k : Core) : (s.setCore c k).boundary = s.boundary := rfl
@[simp] theorem State.setCore_doms (c : Nat) (k : Core) : (s.setCore c k).doms = s.doms := rfl
@[simp] theorem State.setCore_nextDom (c : Nat) (k : Core) : (s.setCore c k).nextDom = s.nextDom := rfl
@[simp] theorem State.setCore_mem (c : Nat) (k : Core) : (s.setCore c k).mem = s.mem := rfl
@[simp] theorem State.setCore_io (c : Nat) (k : Core) : (s.setCore c k).io = s.io := rfl
@[simp] theorem State.setCore_seqs (c : Nat) (k : Core) : (s.setCore c k).seqs = s.seqs := rfl
@[simp] theorem State.setCore_audit (c : Nat) (k : Core) : (s.setCore c k).audit = s.audit := rfl
@[simp] theorem State.setCore_moduleId (c : Nat) (k : Core) : (s.setCore c k).moduleId = s.moduleId := rfl
@[simp] theorem State.setCore_agenda (c : Nat) (k : Core) : (s.setCore c k).agenda = s.agenda := rfl
@[simp] theorem State.setCore_calendar (c : Nat) (k : Core) : (s.setCore c k).calendar = s.calendar := rfl
@[simp] theorem State.setCore_cur (c : Nat) (k : Core) : (s.setCore c k).cur = s.cur := rfl
@[simp] theorem State.setCore_freeCount (c : Nat) (k : Core) : (s.setCore c k).freeCount = s.freeCount := rfl

@[simp] theorem State.modCore_basin (c : Nat) (f : Core → Core) : (s.modCore c f).basin = s.basin := rfl
@[simp] theorem State.modCore_drift (c : Nat) (f : Core → Core) : (s.modCore c f).drift = s.drift := rfl
@[simp] theorem State.modCore_ready (c : Nat) (f : Core → Core) : (s.modCore c f).ready = s.ready := rfl
@[simp] theorem State.modCore_islands (c : Nat) (f : Core → Core) : (s.modCore c f).islands = s.islands := rfl
@[simp] theorem State.modCore_hw (c : Nat) (f : Core → Core) : (s.modCore c f).hw = s.hw := rfl
@[simp] theorem State.modCore_parts (c : Nat) (f : Core → Core) : (s.modCore c f).parts = s.parts := rfl
@[simp] theorem State.modCore_boundary (c : Nat) (f : Core → Core) : (s.modCore c f).boundary = s.boundary := rfl
@[simp] theorem State.modCore_doms (c : Nat) (f : Core → Core) : (s.modCore c f).doms = s.doms := rfl
@[simp] theorem State.modCore_nextDom (c : Nat) (f : Core → Core) : (s.modCore c f).nextDom = s.nextDom := rfl
@[simp] theorem State.modCore_mem (c : Nat) (f : Core → Core) : (s.modCore c f).mem = s.mem := rfl
@[simp] theorem State.modCore_io (c : Nat) (f : Core → Core) : (s.modCore c f).io = s.io := rfl
@[simp] theorem State.modCore_seqs (c : Nat) (f : Core → Core) : (s.modCore c f).seqs = s.seqs := rfl
@[simp] theorem State.modCore_audit (c : Nat) (f : Core → Core) : (s.modCore c f).audit = s.audit := rfl
@[simp] theorem State.modCore_moduleId (c : Nat) (f : Core → Core) : (s.modCore c f).moduleId = s.moduleId := rfl
@[simp] theorem State.modCore_agenda (c : Nat) (f : Core → Core) : (s.modCore c f).agenda = s.agenda := rfl
@[simp] theorem State.modCore_calendar (c : Nat) (f : Core → Core) : (s.modCore c f).calendar = s.calendar := rfl
@[simp] theorem State.modCore_cur (c : Nat) (f : Core → Core) : (s.modCore c f).cur = s.cur := rfl
@[simp] theorem State.modCore_freeCount (c : Nat) (f : Core → Core) : (s.modCore c f).freeCount = s.freeCount := rfl

@[simp] theorem State.modBe_basin (c : Nat) (f : Be → Be) : (s.modBe c f).basin = s.basin := rfl
@[simp] theorem State.modBe_drift (c : Nat) (f : Be → Be) : (s.modBe c f).drift = s.drift := rfl
@[simp] theorem State.modBe_ready (c : Nat) (f : Be → Be) : (s.modBe c f).ready = s.ready := rfl
@[simp] theorem State.modBe_islands (c : Nat) (f : Be → Be) : (s.modBe c f).islands = s.islands := rfl
@[simp] theorem State.modBe_hw (c : Nat) (f : Be → Be) : (s.modBe c f).hw = s.hw := rfl
@[simp] theorem State.modBe_parts (c : Nat) (f : Be → Be) : (s.modBe c f).parts = s.parts := rfl
@[simp] theorem State.modBe_boundary (c : Nat) (f : Be → Be) : (s.modBe c f).boundary = s.boundary := rfl
@[simp] theorem State.modBe_doms (c : Nat) (f : Be → Be) : (s.modBe c f).doms = s.doms := rfl
@[simp] theorem State.modBe_nextDom (c : Nat) (f : Be → Be) : (s.modBe c f).nextDom = s.nextDom := rfl
@[simp] theorem State.modBe_mem (c : Nat) (f : Be → Be) : (s.modBe c f).mem = s.mem := rfl
@[simp] theorem State.modBe_io (c : Nat) (f : Be → Be) : (s.modBe c f).io = s.io := rfl
@[simp] theorem State.modBe_seqs (c : Nat) (f : Be → Be) : (s.modBe c f).seqs = s.seqs := rfl
@[simp] theorem State.modBe_audit (c : Nat) (f : Be → Be) : (s.modBe c f).audit = s.audit := rfl
@[simp] theorem State.modBe_moduleId (c : Nat) (f : Be → Be) : (s.modBe c f).moduleId = s.moduleId := rfl
@[simp] theorem State.modBe_agenda (c : Nat) (f : Be → Be) : (s.modBe c f).agenda = s.agenda := rfl
@[simp] theorem State.modBe_calendar (c : Nat) (f : Be → Be) : (s.modBe c f).calendar = s.calendar := rfl
@[simp] theorem State.modBe_cur (c : Nat) (f : Be → Be) : (s.modBe c f).cur = s.cur := rfl
@[simp] theorem State.modBe_freeCount (c : Nat) (f : Be → Be) : (s.modBe c f).freeCount = s.freeCount := rfl

@[simp] theorem State.modCc_basin (c : Nat) (f : Cc → Cc) : (s.modCc c f).basin = s.basin := rfl
@[simp] theorem State.modCc_drift (c : Nat) (f : Cc → Cc) : (s.modCc c f).drift = s.drift := rfl
@[simp] theorem State.modCc_ready (c : Nat) (f : Cc → Cc) : (s.modCc c f).ready = s.ready := rfl
@[simp] theorem State.modCc_islands (c : Nat) (f : Cc → Cc) : (s.modCc c f).islands = s.islands := rfl
@[simp] theorem State.modCc_hw (c : Nat) (f : Cc → Cc) : (s.modCc c f).hw = s.hw := rfl
@[simp] theorem State.modCc_parts (c : Nat) (f : Cc → Cc) : (s.modCc c f).parts = s.parts := rfl
@[simp] theorem State.modCc_boundary (c : Nat) (f : Cc → Cc) : (s.modCc c f).boundary = s.boundary := rfl
@[simp] theorem State.modCc_doms (c : Nat) (f : Cc → Cc) : (s.modCc c f).doms = s.doms := rfl
@[simp] theorem State.modCc_nextDom (c : Nat) (f : Cc → Cc) : (s.modCc c f).nextDom = s.nextDom := rfl
@[simp] theorem State.modCc_mem (c : Nat) (f : Cc → Cc) : (s.modCc c f).mem = s.mem := rfl
@[simp] theorem State.modCc_io (c : Nat) (f : Cc → Cc) : (s.modCc c f).io = s.io := rfl
@[simp] theorem State.modCc_seqs (c : Nat) (f : Cc → Cc) : (s.modCc c f).seqs = s.seqs := rfl
@[simp] theorem State.modCc_audit (c : Nat) (f : Cc → Cc) : (s.modCc c f).audit = s.audit := rfl
@[simp] theorem State.modCc_moduleId (c : Nat) (f : Cc → Cc) : (s.modCc c f).moduleId = s.moduleId := rfl
@[simp] theorem State.modCc_agenda (c : Nat) (f : Cc → Cc) : (s.modCc c f).agenda = s.agenda := rfl
@[simp] theorem State.modCc_calendar (c : Nat) (f : Cc → Cc) : (s.modCc c f).calendar = s.calendar := rfl
@[simp] theorem State.modCc_cur (c : Nat) (f : Cc → Cc) : (s.modCc c f).cur = s.cur := rfl
@[simp] theorem State.modCc_freeCount (c : Nat) (f : Cc → Cc) : (s.modCc c f).freeCount = s.freeCount := rfl

@[simp] theorem State.modEng_basin (c : Nat) (f : Engines → Engines) : (s.modEng c f).basin = s.basin := rfl
@[simp] theorem State.modEng_drift (c : Nat) (f : Engines → Engines) : (s.modEng c f).drift = s.drift := rfl
@[simp] theorem State.modEng_ready (c : Nat) (f : Engines → Engines) : (s.modEng c f).ready = s.ready := rfl
@[simp] theorem State.modEng_islands (c : Nat) (f : Engines → Engines) : (s.modEng c f).islands = s.islands := rfl
@[simp] theorem State.modEng_hw (c : Nat) (f : Engines → Engines) : (s.modEng c f).hw = s.hw := rfl
@[simp] theorem State.modEng_parts (c : Nat) (f : Engines → Engines) : (s.modEng c f).parts = s.parts := rfl
@[simp] theorem State.modEng_boundary (c : Nat) (f : Engines → Engines) : (s.modEng c f).boundary = s.boundary := rfl
@[simp] theorem State.modEng_doms (c : Nat) (f : Engines → Engines) : (s.modEng c f).doms = s.doms := rfl
@[simp] theorem State.modEng_nextDom (c : Nat) (f : Engines → Engines) : (s.modEng c f).nextDom = s.nextDom := rfl
@[simp] theorem State.modEng_mem (c : Nat) (f : Engines → Engines) : (s.modEng c f).mem = s.mem := rfl
@[simp] theorem State.modEng_io (c : Nat) (f : Engines → Engines) : (s.modEng c f).io = s.io := rfl
@[simp] theorem State.modEng_seqs (c : Nat) (f : Engines → Engines) : (s.modEng c f).seqs = s.seqs := rfl
@[simp] theorem State.modEng_audit (c : Nat) (f : Engines → Engines) : (s.modEng c f).audit = s.audit := rfl
@[simp] theorem State.modEng_moduleId (c : Nat) (f : Engines → Engines) : (s.modEng c f).moduleId = s.moduleId := rfl
@[simp] theorem State.modEng_agenda (c : Nat) (f : Engines → Engines) : (s.modEng c f).agenda = s.agenda := rfl
@[simp] theorem State.modEng_calendar (c : Nat) (f : Engines → Engines) : (s.modEng c f).calendar = s.calendar := rfl
@[simp] theorem State.modEng_cur (c : Nat) (f : Engines → Engines) : (s.modEng c f).cur = s.cur := rfl
@[simp] theorem State.modEng_freeCount (c : Nat) (f : Engines → Engines) : (s.modEng c f).freeCount = s.freeCount := rfl

@[simp] theorem State.modFab_basin (c : Nat) (f : Fabric → Fabric) : (s.modFab c f).basin = s.basin := rfl
@[simp] theorem State.modFab_drift (c : Nat) (f : Fabric → Fabric) : (s.modFab c f).drift = s.drift := rfl
@[simp] theorem State.modFab_ready (c : Nat) (f : Fabric → Fabric) : (s.modFab c f).ready = s.ready := rfl
@[simp] theorem State.modFab_islands (c : Nat) (f : Fabric → Fabric) : (s.modFab c f).islands = s.islands := rfl
@[simp] theorem State.modFab_hw (c : Nat) (f : Fabric → Fabric) : (s.modFab c f).hw = s.hw := rfl
@[simp] theorem State.modFab_parts (c : Nat) (f : Fabric → Fabric) : (s.modFab c f).parts = s.parts := rfl
@[simp] theorem State.modFab_boundary (c : Nat) (f : Fabric → Fabric) : (s.modFab c f).boundary = s.boundary := rfl
@[simp] theorem State.modFab_doms (c : Nat) (f : Fabric → Fabric) : (s.modFab c f).doms = s.doms := rfl
@[simp] theorem State.modFab_nextDom (c : Nat) (f : Fabric → Fabric) : (s.modFab c f).nextDom = s.nextDom := rfl
@[simp] theorem State.modFab_mem (c : Nat) (f : Fabric → Fabric) : (s.modFab c f).mem = s.mem := rfl
@[simp] theorem State.modFab_io (c : Nat) (f : Fabric → Fabric) : (s.modFab c f).io = s.io := rfl
@[simp] theorem State.modFab_seqs (c : Nat) (f : Fabric → Fabric) : (s.modFab c f).seqs = s.seqs := rfl
@[simp] theorem State.modFab_audit (c : Nat) (f : Fabric → Fabric) : (s.modFab c f).audit = s.audit := rfl
@[simp] theorem State.modFab_moduleId (c : Nat) (f : Fabric → Fabric) : (s.modFab c f).moduleId = s.moduleId := rfl
@[simp] theorem State.modFab_agenda (c : Nat) (f : Fabric → Fabric) : (s.modFab c f).agenda = s.agenda := rfl
@[simp] theorem State.modFab_calendar (c : Nat) (f : Fabric → Fabric) : (s.modFab c f).calendar = s.calendar := rfl
@[simp] theorem State.modFab_cur (c : Nat) (f : Fabric → Fabric) : (s.modFab c f).cur = s.cur := rfl
@[simp] theorem State.modFab_freeCount (c : Nat) (f : Fabric → Fabric) : (s.modFab c f).freeCount = s.freeCount := rfl

@[simp] theorem State.setDom_basin (d : Nat) (v : Domain) : (s.setDom d v).basin = s.basin := rfl
@[simp] theorem State.setDom_drift (d : Nat) (v : Domain) : (s.setDom d v).drift = s.drift := rfl
@[simp] theorem State.setDom_ready (d : Nat) (v : Domain) : (s.setDom d v).ready = s.ready := rfl
@[simp] theorem State.setDom_islands (d : Nat) (v : Domain) : (s.setDom d v).islands = s.islands := rfl
@[simp] theorem State.setDom_hw (d : Nat) (v : Domain) : (s.setDom d v).hw = s.hw := rfl
@[simp] theorem State.setDom_parts (d : Nat) (v : Domain) : (s.setDom d v).parts = s.parts := rfl
@[simp] theorem State.setDom_boundary (d : Nat) (v : Domain) : (s.setDom d v).boundary = s.boundary := rfl
@[simp] theorem State.setDom_cores (d : Nat) (v : Domain) : (s.setDom d v).cores = s.cores := rfl
@[simp] theorem State.setDom_nextDom (d : Nat) (v : Domain) : (s.setDom d v).nextDom = s.nextDom := rfl
@[simp] theorem State.setDom_mem (d : Nat) (v : Domain) : (s.setDom d v).mem = s.mem := rfl
@[simp] theorem State.setDom_io (d : Nat) (v : Domain) : (s.setDom d v).io = s.io := rfl
@[simp] theorem State.setDom_seqs (d : Nat) (v : Domain) : (s.setDom d v).seqs = s.seqs := rfl
@[simp] theorem State.setDom_audit (d : Nat) (v : Domain) : (s.setDom d v).audit = s.audit := rfl
@[simp] theorem State.setDom_moduleId (d : Nat) (v : Domain) : (s.setDom d v).moduleId = s.moduleId := rfl
@[simp] theorem State.setDom_agenda (d : Nat) (v : Domain) : (s.setDom d v).agenda = s.agenda := rfl
@[simp] theorem State.setDom_calendar (d : Nat) (v : Domain) : (s.setDom d v).calendar = s.calendar := rfl
@[simp] theorem State.setDom_cur (d : Nat) (v : Domain) : (s.setDom d v).cur = s.cur := rfl
@[simp] theorem State.setDom_freeCount (d : Nat) (v : Domain) : (s.setDom d v).freeCount = s.freeCount := rfl

@[simp] theorem State.modPart_basin (p : Nat) (f : Part → Part) : (s.modPart p f).basin = s.basin := rfl
@[simp] theorem State.modPart_drift (p : Nat) (f : Part → Part) : (s.modPart p f).drift = s.drift := rfl
@[simp] theorem State.modPart_ready (p : Nat) (f : Part → Part) : (s.modPart p f).ready = s.ready := rfl
@[simp] theorem State.modPart_islands (p : Nat) (f : Part → Part) : (s.modPart p f).islands = s.islands := rfl
@[simp] theorem State.modPart_hw (p : Nat) (f : Part → Part) : (s.modPart p f).hw = s.hw := rfl
@[simp] theorem State.modPart_boundary (p : Nat) (f : Part → Part) : (s.modPart p f).boundary = s.boundary := rfl
@[simp] theorem State.modPart_cores (p : Nat) (f : Part → Part) : (s.modPart p f).cores = s.cores := rfl
@[simp] theorem State.modPart_doms (p : Nat) (f : Part → Part) : (s.modPart p f).doms = s.doms := rfl
@[simp] theorem State.modPart_nextDom (p : Nat) (f : Part → Part) : (s.modPart p f).nextDom = s.nextDom := rfl
@[simp] theorem State.modPart_mem (p : Nat) (f : Part → Part) : (s.modPart p f).mem = s.mem := rfl
@[simp] theorem State.modPart_io (p : Nat) (f : Part → Part) : (s.modPart p f).io = s.io := rfl
@[simp] theorem State.modPart_seqs (p : Nat) (f : Part → Part) : (s.modPart p f).seqs = s.seqs := rfl
@[simp] theorem State.modPart_audit (p : Nat) (f : Part → Part) : (s.modPart p f).audit = s.audit := rfl
@[simp] theorem State.modPart_moduleId (p : Nat) (f : Part → Part) : (s.modPart p f).moduleId = s.moduleId := rfl
@[simp] theorem State.modPart_agenda (p : Nat) (f : Part → Part) : (s.modPart p f).agenda = s.agenda := rfl
@[simp] theorem State.modPart_calendar (p : Nat) (f : Part → Part) : (s.modPart p f).calendar = s.calendar := rfl
@[simp] theorem State.modPart_cur (p : Nat) (f : Part → Part) : (s.modPart p f).cur = s.cur := rfl
@[simp] theorem State.modPart_freeCount (p : Nat) (f : Part → Part) : (s.modPart p f).freeCount = s.freeCount := rfl

@[simp] theorem State.soon_basin (t : Turn) : (s.soon t).basin = s.basin := rfl
@[simp] theorem State.soon_drift (t : Turn) : (s.soon t).drift = s.drift := rfl
@[simp] theorem State.soon_ready (t : Turn) : (s.soon t).ready = s.ready := rfl
@[simp] theorem State.soon_islands (t : Turn) : (s.soon t).islands = s.islands := rfl
@[simp] theorem State.soon_hw (t : Turn) : (s.soon t).hw = s.hw := rfl
@[simp] theorem State.soon_parts (t : Turn) : (s.soon t).parts = s.parts := rfl
@[simp] theorem State.soon_boundary (t : Turn) : (s.soon t).boundary = s.boundary := rfl
@[simp] theorem State.soon_cores (t : Turn) : (s.soon t).cores = s.cores := rfl
@[simp] theorem State.soon_doms (t : Turn) : (s.soon t).doms = s.doms := rfl
@[simp] theorem State.soon_nextDom (t : Turn) : (s.soon t).nextDom = s.nextDom := rfl
@[simp] theorem State.soon_mem (t : Turn) : (s.soon t).mem = s.mem := rfl
@[simp] theorem State.soon_io (t : Turn) : (s.soon t).io = s.io := rfl
@[simp] theorem State.soon_seqs (t : Turn) : (s.soon t).seqs = s.seqs := rfl
@[simp] theorem State.soon_audit (t : Turn) : (s.soon t).audit = s.audit := rfl
@[simp] theorem State.soon_moduleId (t : Turn) : (s.soon t).moduleId = s.moduleId := rfl
@[simp] theorem State.soon_calendar (t : Turn) : (s.soon t).calendar = s.calendar := rfl
@[simp] theorem State.soon_cur (t : Turn) : (s.soon t).cur = s.cur := rfl
@[simp] theorem State.soon_freeCount (t : Turn) : (s.soon t).freeCount = s.freeCount := rfl

@[simp] theorem State.schedule_basin (b : Nat) (t : Turn) : (s.schedule b t).basin = s.basin := rfl
@[simp] theorem State.schedule_drift (b : Nat) (t : Turn) : (s.schedule b t).drift = s.drift := rfl
@[simp] theorem State.schedule_ready (b : Nat) (t : Turn) : (s.schedule b t).ready = s.ready := rfl
@[simp] theorem State.schedule_islands (b : Nat) (t : Turn) : (s.schedule b t).islands = s.islands := rfl
@[simp] theorem State.schedule_hw (b : Nat) (t : Turn) : (s.schedule b t).hw = s.hw := rfl
@[simp] theorem State.schedule_parts (b : Nat) (t : Turn) : (s.schedule b t).parts = s.parts := rfl
@[simp] theorem State.schedule_boundary (b : Nat) (t : Turn) : (s.schedule b t).boundary = s.boundary := rfl
@[simp] theorem State.schedule_cores (b : Nat) (t : Turn) : (s.schedule b t).cores = s.cores := rfl
@[simp] theorem State.schedule_doms (b : Nat) (t : Turn) : (s.schedule b t).doms = s.doms := rfl
@[simp] theorem State.schedule_nextDom (b : Nat) (t : Turn) : (s.schedule b t).nextDom = s.nextDom := rfl
@[simp] theorem State.schedule_mem (b : Nat) (t : Turn) : (s.schedule b t).mem = s.mem := rfl
@[simp] theorem State.schedule_io (b : Nat) (t : Turn) : (s.schedule b t).io = s.io := rfl
@[simp] theorem State.schedule_seqs (b : Nat) (t : Turn) : (s.schedule b t).seqs = s.seqs := rfl
@[simp] theorem State.schedule_audit (b : Nat) (t : Turn) : (s.schedule b t).audit = s.audit := rfl
@[simp] theorem State.schedule_moduleId (b : Nat) (t : Turn) : (s.schedule b t).moduleId = s.moduleId := rfl
@[simp] theorem State.schedule_agenda (b : Nat) (t : Turn) : (s.schedule b t).agenda = s.agenda := rfl
@[simp] theorem State.schedule_cur (b : Nat) (t : Turn) : (s.schedule b t).cur = s.cur := rfl
@[simp] theorem State.schedule_freeCount (b : Nat) (t : Turn) : (s.schedule b t).freeCount = s.freeCount := rfl

@[simp] theorem State.emit_basin (m : OutMsg) : (s.emit m).basin = s.basin := rfl
@[simp] theorem State.emit_drift (m : OutMsg) : (s.emit m).drift = s.drift := rfl
@[simp] theorem State.emit_ready (m : OutMsg) : (s.emit m).ready = s.ready := rfl
@[simp] theorem State.emit_islands (m : OutMsg) : (s.emit m).islands = s.islands := rfl
@[simp] theorem State.emit_hw (m : OutMsg) : (s.emit m).hw = s.hw := rfl
@[simp] theorem State.emit_parts (m : OutMsg) : (s.emit m).parts = s.parts := rfl
@[simp] theorem State.emit_boundary (m : OutMsg) : (s.emit m).boundary = s.boundary := rfl
@[simp] theorem State.emit_cores (m : OutMsg) : (s.emit m).cores = s.cores := rfl
@[simp] theorem State.emit_doms (m : OutMsg) : (s.emit m).doms = s.doms := rfl
@[simp] theorem State.emit_nextDom (m : OutMsg) : (s.emit m).nextDom = s.nextDom := rfl
@[simp] theorem State.emit_mem (m : OutMsg) : (s.emit m).mem = s.mem := rfl
@[simp] theorem State.emit_seqs (m : OutMsg) : (s.emit m).seqs = s.seqs := rfl
@[simp] theorem State.emit_audit (m : OutMsg) : (s.emit m).audit = s.audit := rfl
@[simp] theorem State.emit_moduleId (m : OutMsg) : (s.emit m).moduleId = s.moduleId := rfl
@[simp] theorem State.emit_agenda (m : OutMsg) : (s.emit m).agenda = s.agenda := rfl
@[simp] theorem State.emit_calendar (m : OutMsg) : (s.emit m).calendar = s.calendar := rfl
@[simp] theorem State.emit_cur (m : OutMsg) : (s.emit m).cur = s.cur := rfl
@[simp] theorem State.emit_freeCount (m : OutMsg) : (s.emit m).freeCount = s.freeCount := rfl

@[simp] theorem State.setDom_doms (d : Nat) (v : Domain) : (s.setDom d v).doms = sinsert s.doms d v := rfl

@[simp] theorem State.soon_agenda (t : Turn) : (s.soon t).agenda = t :: s.agenda := rfl

/-! ### Reading a core after an update of one -/

@[simp] theorem State.core_setCore (c j : Nat) (k : Core) :
    (s.setCore c k).core j = if c = j then k else s.core j := by
  simp only [State.core, State.setCore, sget_sinsert]; split <;> rfl

@[simp] theorem State.core_modCore (c j : Nat) (f : Core → Core) :
    (s.modCore c f).core j = if c = j then f (s.core c) else s.core j := by
  simp [State.modCore]

@[simp] theorem State.core_modBe (c j : Nat) (f : Be → Be) :
    (s.modBe c f).core j = if c = j then { s.core c with be := f (s.core c).be } else s.core j := by
  simp [State.modBe]

@[simp] theorem State.core_modCc (c j : Nat) (f : Cc → Cc) :
    (s.modCc c f).core j = if c = j then { s.core c with cc := f (s.core c).cc } else s.core j := by
  simp [State.modCc]

@[simp] theorem State.core_modEng (c j : Nat) (f : Engines → Engines) :
    (s.modEng c f).core j = if c = j then { s.core c with eng := f (s.core c).eng } else s.core j := by
  simp [State.modEng]

@[simp] theorem State.core_modFab (c j : Nat) (f : Fabric → Fabric) :
    (s.modFab c f).core j = if c = j then { s.core c with fab := f (s.core c).fab } else s.core j := by
  simp [State.modFab]

/-! ### The domain and the time of a core do not change with its registers -/

theorem State.core_dom_modBe (c j : Nat) (f : Be → Be) : ((s.modBe c f).core j).dom = (s.core j).dom := by
  rw [State.core_modBe]; split
  · subst_vars; rfl
  · rfl

theorem State.core_dom_modCc (c j : Nat) (f : Cc → Cc) : ((s.modCc c f).core j).dom = (s.core j).dom := by
  rw [State.core_modCc]; split
  · subst_vars; rfl
  · rfl

@[simp] theorem State.domOf_modBe (c j : Nat) (f : Be → Be) : (s.modBe c f).domOf j = s.domOf j := by
  unfold State.domOf; rw [State.core_dom_modBe]; rfl

@[simp] theorem State.domOf_modCc (c j : Nat) (f : Cc → Cc) : (s.modCc c f).domOf j = s.domOf j := by
  unfold State.domOf; rw [State.core_dom_modCc]; rfl

@[simp] theorem State.sc_modBe (c j : Nat) (f : Be → Be) : (s.modBe c f).sc j = s.sc j := by
  unfold State.sc; rw [State.domOf_modBe]; rfl

@[simp] theorem State.sc_modCc (c j : Nat) (f : Cc → Cc) : (s.modCc c f).sc j = s.sc j := by
  unfold State.sc; rw [State.domOf_modCc]; rfl

@[simp] theorem State.live_modBe (c j : Nat) (f : Be → Be) : (s.modBe c f).live j = s.live j := by
  unfold State.live; rw [State.domOf_modBe]

theorem State.cc_modBe (c j : Nat) (f : Be → Be) : ((s.modBe c f).core j).cc = (s.core j).cc := by
  rw [State.core_modBe]; split
  · subst_vars; rfl
  · rfl

@[simp] theorem State.timed_modBe (c j : Nat) (f : Be → Be) : (s.modBe c f).timed j = s.timed j := by
  unfold State.timed; rw [State.cc_modBe]

@[simp] theorem State.wrmode_modBe (c j : Nat) (f : Be → Be) : (s.modBe c f).wrmode j = s.wrmode j := by
  unfold State.wrmode; rw [State.cc_modBe]

@[simp] theorem State.fz_modBe (c j : Nat) (f : Be → Be) : (s.modBe c f).fz j = s.fz j := by
  unfold State.fz; rw [State.cc_modBe]

/-! ### Domains -/

@[simp] theorem State.dom_setDom (d j : Nat) (v : Domain) : (s.setDom d v).dom j = if d = j then some v else s.dom j := by
  simp [State.dom]

theorem State.modDom_of_some {d : Nat} {v : Domain} (h : s.dom d = some v) (f : Domain → Domain) :
    s.modDom d f = s.setDom d (f v) := by
  simp [State.modDom, h]

theorem State.modDom_of_none {d : Nat} (h : s.dom d = none) (f : Domain → Domain) : s.modDom d f = s := by
  simp [State.modDom, h]

/-! ### A result on its way to a register -/

/-- A landing changes the landings of the current core and nothing else. -/
theorem State.land_eq (rank file reg lo len : Nat) (data : VWord) (lat : Nat) (fl : FlagSet) :
    s.land rank file reg lo len data lat fl = s.modBe s.cur fun b =>
      { b with landings := b.landings ++
        [{ file, reg, lo, len, data, due := s.sc s.cur + lat, issue := s.sc s.cur, rank, flags := fl
           flagSlot := rank - 2, src := none }] } := rfl

@[simp] theorem State.land_cur (rank file reg lo len : Nat) (data : VWord) (lat : Nat) (fl : FlagSet) :
    (s.land rank file reg lo len data lat fl).cur = s.cur := rfl

@[simp] theorem State.land_mem (rank file reg lo len : Nat) (data : VWord) (lat : Nat) (fl : FlagSet) :
    (s.land rank file reg lo len data lat fl).mem = s.mem := rfl

@[simp] theorem State.land_agenda (rank file reg lo len : Nat) (data : VWord) (lat : Nat) (fl : FlagSet) :
    (s.land rank file reg lo len data lat fl).agenda = s.agenda := rfl

/-- Register x0 reads zero, whatever is written (RV64I). -/
@[simp] theorem Cc.xr_zero (k : Cc) : k.xr 0 = 0 := rfl

@[simp] theorem Cc.setX_zero (k : Cc) (v : Word) : k.setX 0 v = k := rfl

/-- Reading a register of the control core after a write of one. -/
theorem Cc.xr_setX (k : Cc) (r q : BitVec 5) (v : Word) :
    (k.setX r v).xr q = if q = r ∧ q ≠ 0 then v else k.xr q := by
  have hr : r.toNat < 32 := r.isLt
  have hq : q.toNat < 32 := q.isLt
  unfold Cc.xr Cc.setX
  by_cases h0 : q = 0
  · rw [if_pos h0, if_pos h0, if_neg (by simp [h0])]
  · rw [if_neg h0, if_neg h0]
    by_cases hr0 : r = 0
    · rw [if_pos hr0, if_neg (by rintro ⟨rfl, -⟩; exact h0 hr0)]
    · rw [if_neg hr0]
      by_cases h : q = r
      · subst h
        rw [if_pos ⟨rfl, h0⟩]
        simp [hq]
      · have hne : r.toNat ≠ q.toNat := fun e => h (BitVec.eq_of_toNat_eq e).symm
        rw [if_neg (fun e => h e.1)]
        simp [hne]

/-- Register sa0 reads zero. -/
@[simp] theorem Be.read_sa0 (b : Be) : b.read 0 0 = 0 := rfl

/-- A write to sa0 is discarded. -/
@[simp] theorem Be.write_sa0 (b : Be) (v : VWord) : b.write 0 0 v = b := rfl

/-- Taking a trap: the pc becomes the monitor's base, and mepc saves it. -/
theorem Core.takeTrap_pc (k : Core) (cause tval : Word) (info : Option TrapInfo) :
    (k.takeTrap cause tval info).cc.pc = mtvecOf k := by
  unfold Core.takeTrap; cases info <;> rfl

theorem Core.takeTrap_mepc (k : Core) (cause tval : Word) (info : Option TrapInfo) :
    (k.takeTrap cause tval info).cc.mepc = k.cc.pc := by
  unfold Core.takeTrap; cases info <;> rfl

end Sys2Proof.Machine
end

