-- ==== Sys2Proof/Laws/Access.lean ====
section
/-! SUPPORT. What an access to the memory of a partition can change: a read only the memory side and the count of free
values, a front end's store besides them only the reservations of the control cores. -/

namespace Sys2Proof.Machine

/-- Nothing but the memory side and the count of free values differs. -/
def MemOnly (s t : State) : Prop := t = { s with mem := t.mem, freeCount := t.freeCount }

variable {s t u : State}

theorem MemOnly.refl (s : State) : MemOnly s s := rfl

theorem MemOnly.trans (h : MemOnly s t) (k : MemOnly t u) : MemOnly s u := by
  unfold MemOnly at *; rw [k, h]

theorem MemOnly.of_mem (s : State) (m : Mem) : MemOnly s { s with mem := m } := rfl

theorem MemOnly.parts (h : MemOnly s t) : t.parts = s.parts := by rw [h]
theorem MemOnly.io (h : MemOnly s t) : t.io = s.io := by rw [h]
theorem MemOnly.cores (h : MemOnly s t) : t.cores = s.cores := by rw [h]
theorem MemOnly.doms (h : MemOnly s t) : t.doms = s.doms := by rw [h]
theorem MemOnly.agenda (h : MemOnly s t) : t.agenda = s.agenda := by rw [h]
theorem MemOnly.calendar (h : MemOnly s t) : t.calendar = s.calendar := by rw [h]
theorem MemOnly.basin (h : MemOnly s t) : t.basin = s.basin := by rw [h]
theorem MemOnly.seqs (h : MemOnly s t) : t.seqs = s.seqs := by rw [h]
theorem MemOnly.cur (h : MemOnly s t) : t.cur = s.cur := by rw [h]
theorem MemOnly.moduleId (h : MemOnly s t) : t.moduleId = s.moduleId := by rw [h]

/-- A fold of steps of which each changes only the memory side. -/
theorem MemOnly.foldl {α : Type} {f : State → α → State} (hf : ∀ s x, MemOnly s (f s x)) (l : List α) (s : State) :
    MemOnly s (l.foldl f s) := by
  induction l generalizing s with
  | nil => exact MemOnly.refl s
  | cons x l ih => exact (hf s x).trans (ih _)

/-! ### One sector -/

theorem State.countDecode_memOnly (s : State) (stack block : Nat) (sev : Severity) : MemOnly s (s.countDecode stack block sev) := by
  unfold State.countDecode
  split <;> exact rfl

theorem State.decodeAt_memOnly (s : State) (stack pa layout p0 block : Nat) (held : Bool) :
    MemOnly s (s.decodeAt stack pa layout p0 block held).1 := by
  unfold State.decodeAt
  dsimp only
  split
  · exact rfl
  · exact (MemOnly.of_mem s _).trans (State.countDecode_memOnly _ _ _ _)

theorem State.l2Keep_memOnly (s : State) (stack L pa : Nat) (cls : Option Nat) : MemOnly s (s.l2Keep stack L pa cls) := rfl

theorem State.countRes_memOnly (s : State) (p ia : Nat) : MemOnly s (s.countRes p ia) := by
  unfold State.countRes
  refine MemOnly.foldl (fun s n => ?_) _ s
  dsimp only
  split <;> exact rfl

theorem State.noteWalk_memOnly (s : State) (p ia : Nat) : MemOnly s (s.noteWalk p ia) := by
  unfold State.noteWalk
  dsimp only
  split
  · exact rfl
  · exact MemOnly.foldl (fun s a => State.decodeAt_memOnly s _ _ _ _ _ _) _ s

/-- A sector that decodes clean is left as it is. -/
theorem State.decodeAt_clean {stack pa layout p0 block : Nat} {held : Bool}
    (h : (decodeSector layout p0 (s.mem.delta (sectorKey stack pa) layout p0)).sev = .clean) :
    (s.decodeAt stack pa layout p0 block held).1 = s := by
  unfold State.decodeAt
  simp [h]

/-! ### Reads -/

theorem State.readPiece_memOnly (s : State) (dom : Option Nat) (p ia pa : Nat) (leaf : Word) (size : Nat) (cls : Option Nat)
    (q : Piece) : MemOnly s (s.readPiece dom p ia pa leaf size cls q).1 := by
  have free (u : State) (h : MemOnly s u) : MemOnly s u.drawFree.1 := by unfold MemOnly at h ⊢; rw [h]; rfl
  have keep (stack at_ layout p0 block L : Nat) (hit : Bool) :
      MemOnly s ((s.decodeAt stack (at_ / 64 * 64) layout p0 block hit).1.l2Keep stack L at_ cls) :=
    (State.decodeAt_memOnly s _ _ _ _ _ _).trans (State.l2Keep_memOnly _ _ _ _ _)
  unfold State.readPiece
  generalize s.home p (ia + q.ofs) = h
  obtain ⟨stack, L⟩ := h
  dsimp only
  have both {α : Type} (c : Bool) {x y : State × α} (hx : MemOnly s x.1) (hy : MemOnly s y.1) :
      MemOnly s (if c = true then x else y).1 := by cases c <;> assumption
  have both' {α : Type} (c : Prop) [Decidable c] {x y : State × α} (hx : MemOnly s x.1) (hy : MemOnly s y.1) :
      MemOnly s (if c then x else y).1 := by split <;> assumption
  cases s.bindingOf dom p stack L with
  | none => exact both _ (keep ..) (both' _ (keep ..) (free _ (keep ..)))
  | some b =>
    cases b.copied.getLsbD (sectorIn L) <;> exact both _ (keep ..) (both' _ (keep ..) (free _ (keep ..)))

theorem State.readPieces_memOnly (dom : Option Nat) (p ia pa : Nat) (leaf : Word) (size : Nat) (cls : Option Nat)
    (qs : List Piece) (s : State) : MemOnly s (s.readPieces dom p ia pa leaf size cls qs).1 := by
  induction qs generalizing s with
  | nil => exact MemOnly.refl s
  | cons q qs ih => exact (State.readPiece_memOnly s dom p ia pa leaf size cls q).trans (ih _)

theorem State.memRead_memOnly (s : State) (dom : Option Nat) (p ia n : Nat) (x : Xlat) :
    MemOnly s (s.memRead dom p ia n x).1 := by
  unfold State.memRead State.memReadAs
  cases x with
  | ok pa leaf size => exact (State.countRes_memOnly s p ia).trans (State.readPieces_memOnly ..)
  | _ => exact State.countRes_memOnly s p ia

/-- A front end's read changes the memory side alone. -/
theorem State.iaRead_memOnly (s : State) (p ia n : Nat) : MemOnly s (s.iaRead p ia n).1 := by
  unfold State.iaRead
  suffices h : ∀ (qs : List Piece) (a : State × List (Piece × SectorInfo)), MemOnly a.1 (qs.foldl
      (fun (a : State × List (Piece × SectorInfo)) q =>
        let (s, x) := a.1.translateNow p (ia + q.ofs) true false
        let (s, r) := s.memRead none p (ia + q.ofs) q.len x
        (s, a.2 ++ r.found.map fun f => (⟨q.ofs + f.1.ofs, f.1.len⟩, f.2))) a).1 from h _ (s, [])
  intro qs
  induction qs with
  | nil => intro a; exact MemOnly.refl _
  | cons q qs ih =>
    intro a
    exact ((State.noteWalk_memOnly a.1 p (ia + q.ofs)).trans (State.memRead_memOnly _ none p (ia + q.ofs) q.len _)).trans
      (ih _)

/-! ### Reads that find nothing -/

/-- Only the lines that the L2 slices hold and the counters of the residency registers differ. -/
def LinesOnly (s t : State) : Prop := t = { s with mem := { s.mem with l2 := t.mem.l2, resCnt := t.mem.resCnt } }

theorem LinesOnly.trans {s t u : State} (h : LinesOnly s t) (k : LinesOnly t u) : LinesOnly s u := by
  unfold LinesOnly at *; rw [k, h]

theorem Mem.delta_clean {m : Mem} (hc : m.check = []) (hl : m.lay = []) (k p0 : Nat) : m.delta k 0 p0 = 0 := by
  have : codeKey 0 p0 = 0 := rfl
  simp [Mem.delta, hc, hl, this]

theorem decodeSector_clean (p0 : Nat) : decodeSector 0 p0 0 = ⟨.clean, [], 0, 0⟩ := by simp [decodeSector]

theorem State.decodeAt_plain {s : State} (hc : s.mem.check = []) (hl : s.mem.lay = []) (stack pa p0 block : Nat) (held : Bool) :
    (s.decodeAt stack pa 0 p0 block held).1 = s ∧ (s.decodeAt stack pa 0 p0 block held).2.sev = .clean := by
  unfold State.decodeAt
  dsimp only
  rw [Mem.delta_clean hc hl, decodeSector_clean]
  exact ⟨rfl, rfl⟩

theorem State.noteWalk_plain {s : State} (hc : s.mem.check = []) (hl : s.mem.lay = []) (p ia : Nat) : s.noteWalk p ia = s := by
  unfold State.noteWalk
  dsimp only
  split
  · rfl
  · generalize walkPath _ _ _ _ _ _ = l
    induction l with
    | nil => rfl
    | cons a l ih => simpa [(State.decodeAt_plain hc hl _ _ _ _ _).1] using ih

theorem State.countRes_lines (s : State) (p ia : Nat) : LinesOnly s (s.countRes p ia) := by
  unfold State.countRes
  dsimp only
  generalize List.range 8 = l
  suffices h : ∀ t, LinesOnly s t → LinesOnly s (l.foldl _ t) from h s rfl
  induction l with
  | nil => intro t h; exact h
  | cons n l ih =>
    intro t h
    refine ih _ (h.trans ?_)
    dsimp only
    split <;> exact rfl

/-- A read of a sector without error in a page of layout 0 that is not encrypted. -/
theorem State.readPiece_plain {s : State} (hc : s.mem.check = []) (hl : s.mem.lay = []) (p ia pa size : Nat) (leaf : Word)
    (cls : Option Nat) (q : Piece) (h0 : bitsOf leaf.toNat 54 4 = 0) (he : leaf.getLsbD 59 = false) :
    LinesOnly s (s.readPiece none p ia pa leaf size cls q).1 ∧ (s.readPiece none p ia pa leaf size cls q).2.2.sev = .clean ∧
      (s.readPiece none p ia pa leaf size cls q).2.2.tagst = 0 := by
  simp only [State.readPiece, h0, he, State.decodeAt_plain hc hl, Bool.not_false, if_true]
  exact ⟨rfl, by trivial, by trivial⟩

theorem State.readPieces_plain (p ia pa size : Nat) (leaf : Word) (cls : Option Nat) (h0 : bitsOf leaf.toNat 54 4 = 0)
    (he : leaf.getLsbD 59 = false) (qs : List Piece) {s : State} (hc : s.mem.check = []) (hl : s.mem.lay = []) :
    LinesOnly s (s.readPieces none p ia pa leaf size cls qs).1 ∧ (s.readPieces none p ia pa leaf size cls qs).2.found = [] := by
  induction qs generalizing s with
  | nil => exact ⟨rfl, rfl⟩
  | cons q qs ih =>
    obtain ⟨h1, h2, h3⟩ := State.readPiece_plain hc hl p ia pa size leaf cls q h0 he
    have hm := congrArg State.mem h1
    have := ih (s := (s.readPiece none p ia pa leaf size cls q).1) (by rw [hm]; exact hc) (by rw [hm]; exact hl)
    refine ⟨h1.trans this.1, ?_⟩
    simp [State.readPieces, h2, h3, this.2]

theorem mem_pieces_lt {ia n : Nat} (fuel ofs : Nat) {q : Piece} (h : q ∈ pieces ia n fuel ofs) : q.ofs < n := by
  induction fuel generalizing ofs with
  | zero => cases h
  | succ f ih =>
    simp only [pieces] at h
    split at h
    · cases h
    · rcases List.mem_cons.mp h with rfl | h
      · simp; omega
      · exact ih _ h

/-- A front end's read of bytes in pages of layout 0 that are not encrypted, where no sector has an error, finds nothing. -/
theorem State.iaRead_plain {s : State} (hc : s.mem.check = []) (hl : s.mem.lay = []) (p ia n : Nat)
    (hx : ∀ o < n, ∃ pa leaf size, s.translateHome p (ia + o) true false = .ok pa leaf size ∧ bitsOf leaf.toNat 54 4 = 0 ∧
      leaf.getLsbD 59 = false) :
    LinesOnly s (s.iaRead p ia n).1 ∧ (s.iaRead p ia n).2 = [] := by
  unfold State.iaRead
  suffices h : ∀ (qs : List Piece), (∀ q ∈ qs, q.ofs < n) → ∀ a : State × List (Piece × SectorInfo), LinesOnly s a.1 → a.2 = [] →
      LinesOnly s (qs.foldl
      (fun (a : State × List (Piece × SectorInfo)) q =>
        let (s, x) := a.1.translateNow p (ia + q.ofs) true false
        let (s, r) := s.memRead none p (ia + q.ofs) q.len x
        (s, a.2 ++ r.found.map fun f => (⟨q.ofs + f.1.ofs, f.1.len⟩, f.2))) a).1 ∧ (qs.foldl
      (fun (a : State × List (Piece × SectorInfo)) q =>
        let (s, x) := a.1.translateNow p (ia + q.ofs) true false
        let (s, r) := s.memRead none p (ia + q.ofs) q.len x
        (s, a.2 ++ r.found.map fun f => (⟨q.ofs + f.1.ofs, f.1.len⟩, f.2))) a).2 = [] from
    h _ (fun q hq => mem_pieces_lt _ _ hq) (s, []) rfl rfl
  intro qs
  induction qs with
  | nil => intro _ a h1 h2; exact ⟨h1, h2⟩
  | cons q qs ih =>
    intro hq a h1 h2
    obtain ⟨pa, leaf, size, ht, h0, he⟩ := hx _ (hq q (List.mem_cons_self ..))
    have hm := congrArg State.mem h1
    have hc' : a.1.mem.check = [] := by rw [hm]; exact hc
    have hl' : a.1.mem.lay = [] := by rw [hm]; exact hl
    have ht' : a.1.translateHome p (ia + q.ofs) true false = .ok pa leaf size := by rw [← ht, h1]; rfl
    have hr := State.countRes_lines a.1 p (ia + q.ofs)
    have hm := congrArg State.mem hr
    have hp := State.readPieces_plain p (ia + q.ofs) pa size leaf (a.1.resClass p (ia + q.ofs)) h0 he (piecesOf (ia + q.ofs) q.len)
      (s := a.1.countRes p (ia + q.ofs)) (by rw [hm]; exact hc') (by rw [hm]; exact hl')
    refine ih (fun q h => hq q (List.mem_cons_of_mem _ h)) _ ?_ ?_
    · simp only [State.translateNow, State.noteWalk_plain hc' hl', ht', State.memRead, State.memReadAs]
      exact (h1.trans hr).trans hp.1
    · simp only [State.translateNow, State.noteWalk_plain hc' hl', ht', State.memRead, State.memReadAs, hp.2, h2]
      rfl

end Sys2Proof.Machine
end

