-- ==== Sys2Proof/Laws/Memory.lean ====
section
/-! SUPPORT. Stores of bytes: read after write, and that every write keeps the canonical form. -/

namespace Sys2Proof.Machine

theorem wf_setByte {m : Sparse Byte} (h : Memory.wf m = true) (a : Nat) (b : Byte) : Memory.wf (setByte m a b) = true :=
  swf_sput h a b

theorem byteAt_setByte {m : Sparse Byte} (h : Memory.wf m = true) (a j : Nat) (b : Byte) :
    byteAt (setByte m a b) j = if a = j then b else byteAt m j :=
  getD_sput h a j b

theorem wf_writeBytes {m : Sparse Byte} (h : Memory.wf m = true) (a : Nat) (bs : List Byte) :
    Memory.wf (writeBytes m a bs) = true := by
  induction bs generalizing m a with
  | nil => exact h
  | cons b bs ih => exact ih (wf_setByte h a b) (a + 1)

theorem wf_writeMasked {m : Sparse Byte} (h : Memory.wf m = true) (a mask : Nat) (bs : List Byte) :
    Memory.wf (writeMasked m a mask bs) = true := by
  induction bs generalizing m a mask with
  | nil => exact h
  | cons b bs ih =>
    refine ih ?_ (a + 1) (mask / 2)
    split
    · exact wf_setByte h a b
    · exact h

/-- A store of bytes: its bytes are read at their addresses, and every other address reads as before. -/
theorem byteAt_writeBytes {m : Sparse Byte} (h : Memory.wf m = true) (a : Nat) (bs : List Byte) (j : Nat) :
    byteAt (writeBytes m a bs) j = if a ≤ j ∧ j < a + bs.length then bs.getD (j - a) 0 else byteAt m j := by
  induction bs generalizing m a with
  | nil => simp [writeBytes]
  | cons b bs ih =>
    rw [writeBytes, ih (wf_setByte h a b) (a + 1), byteAt_setByte h]
    by_cases h1 : j = a
    · subst h1; simp
    · by_cases h2 : a + 1 ≤ j ∧ j < a + 1 + bs.length
      · rw [if_pos h2, if_pos ⟨by omega, by simp; omega⟩]
        have : j - a = (j - (a + 1)) + 1 := by omega
        rw [this, List.getD_cons_succ]
      · rw [if_neg h2, if_neg (by omega), if_neg]
        simp only [List.length_cons]; omega

theorem byteAt_writeBytes_outside {m : Sparse Byte} (h : Memory.wf m = true) {a j : Nat} {bs : List Byte}
    (hj : j < a ∨ a + bs.length ≤ j) : byteAt (writeBytes m a bs) j = byteAt m j := by
  rw [byteAt_writeBytes h, if_neg (by omega)]

theorem readBytes_length (m : Sparse Byte) (a n : Nat) : (readBytes m a n).length = n := by
  induction n generalizing a with
  | zero => rfl
  | succ n ih => simp [readBytes, ih]

theorem bytesOf_length (v n : Nat) : (bytesOf v n).length = n := by
  induction n generalizing v with
  | zero => rfl
  | succ n ih => simp [bytesOf, ih]

/-- The bytes of a number hold it, reduced to their width. -/
theorem bytesVal_bytesOf (v n : Nat) : bytesVal (bytesOf v n) = v % 256 ^ n := by
  induction n generalizing v with
  | zero => simp [bytesOf, bytesVal, Nat.mod_one]
  | succ n ih =>
    simp only [bytesOf, bytesVal, ih, BitVec.toNat_ofNat]
    rw [show (256 : Nat) ^ (n + 1) = 256 * 256 ^ n by rw [Nat.pow_succ, Nat.mul_comm], Nat.mod_mul]

/-- Reading back what was stored. -/
theorem readBytes_writeBytes {m : Sparse Byte} (h : Memory.wf m = true) (a : Nat) (bs : List Byte) :
    readBytes (writeBytes m a bs) a bs.length = bs := by
  have key : ∀ (k : Nat) (cs : List Byte), cs = bs.drop k → k ≤ bs.length →
      readBytes (writeBytes m a bs) (a + k) cs.length = cs := by
    intro k cs
    induction cs generalizing k with
    | nil => intros; rfl
    | cons c cs ih =>
      intro hc hk
      have hlt : k < bs.length := by
        rcases Nat.lt_or_ge k bs.length with h' | h'
        · exact h'
        · rw [List.drop_eq_nil_of_le h'] at hc; cases hc
      have hd := List.drop_eq_getElem_cons hlt
      rw [hd] at hc
      injection hc with h1 h2
      simp only [List.length_cons, readBytes]
      rw [byteAt_writeBytes h, if_pos ⟨by omega, by omega⟩, Nat.add_sub_cancel_left, Nat.add_assoc, ih (k + 1) h2 hlt]
      rw [h1]; congr 1; simp [hlt]
  simpa using key 0 bs rfl (Nat.zero_le _)

theorem wf_nil : Memory.wf [] = true := rfl

/-- Stack memory at reset has the canonical form. -/
theorem wf_reset : Memory.wf State.reset.mem.hbm = true := rfl

end Sys2Proof.Machine
end

