-- ==== Sys2Proof/Laws/Slot.lean ====
section
/-! SUPPORT. What the run of one slot operation answers, and when an operation of a form without an access issues. -/

namespace Sys2Proof.Machine

/-- A slot operation always answers a next state. -/
theorem runSlot_next (i : Instr) (eff off : State → State) (s : State) : ∃ t, runSlot i eff off s = .next t := by
  unfold runSlot
  split
  · exact ⟨_, rfl⟩
  · split
    · exact ⟨_, rfl⟩
    · split <;> exact ⟨_, rfl⟩

/-- An operation that issues has its effect. -/
theorem runSlot_issues {i : Instr} {s : State} (h : s.issues i) (eff off : State → State) :
    runSlot i eff off s = .next (eff s) := by
  obtain ⟨hg, he, hs⟩ := h
  have hw : ¬(s.wrmode s.cur = 2 ∧ s.readsWindow i = true) := by
    rintro ⟨h1, h2⟩
    simp [slotStall, h1, h2] at hs
  simp [runSlot, hw, he, hs, hg, firstEvent]

/-- An operation whose guard fails, outside a window, has the effect of a failed guard. -/
theorem runSlot_off {i : Instr} {s : State} (hg : s.guardOn i = false)
    (hw : s.wrmode s.cur = 1 ∨ s.wrmode s.cur = 2 → s.readsWindow i = false)
    (hi : streamIllegal (s.core s.cur).be i = false) (eff off : State → State) : runSlot i eff off s = .next (off s) := by
  by_cases h1 : s.wrmode s.cur = 1
  · have := hw (.inl h1); simp [runSlot, slotEvents, slotStall, hg, hi, h1, this, firstEvent]
  · by_cases h2 : s.wrmode s.cur = 2
    · have := hw (.inr h2); simp [runSlot, slotEvents, slotStall, hg, hi, h2, this, firstEvent]
    · simp [runSlot, slotEvents, slotStall, hg, hi, h1, h2, firstEvent]

/-- A clear operation issues where its access meets no fault and nothing holds it back. -/
theorem State.clearFor.issues {s : State} {i : Instr} (h : s.clearFor i)
    (hi : streamIllegal (s.core s.cur).be i = false) (hm : memEvents s i = []) (hf : fabricEvents s i = [])
    (hms : memStall s i = false) (hfs : fabricStall s i = false) : s.issues i := by
  obtain ⟨hg, hw⟩ := h
  refine ⟨hg, ?_, ?_⟩
  · by_cases h1 : s.wrmode s.cur = 1
    · simp [slotEvents, hi, hm, hf, hw (.inl h1)]
    · simp [slotEvents, hi, hm, hf, h1]
  · by_cases h2 : s.wrmode s.cur = 2
    · simp [slotStall, hms, hfs, hw (.inr h2)]
    · simp [slotStall, hms, hfs, h2]

/-- An operation of a form with no access: no memory event, no fabric event, no stall. -/
theorem State.clearFor.issues_plain {s : State} {i : Instr} (h : s.clearFor i)
    (hi : streamIllegal (s.core s.cur).be i = false) (hl : storeLimit i = none) (hk : longKind i = none)
    (hm : memSpan s i = none) (hf : fabricEvents s i = []) (hfs : fabricStall s i = false) : s.issues i :=
  h.issues hi (by simp [memEvents, hl, hk]) hf (by simp [memStall, relStall, scoreboardHazard, hl, hk, hm]) hfs

end Sys2Proof.Machine
end

