-- ==== Sys2Proof/Laws/Updates.lean ====
section
/-! SUPPORT. One lemma for each field of the state under the updates of slots, sequencers, requests and tables, and what the
named reads find after an update. -/

namespace Sys2Proof.Machine

variable (s : State)

/-! ### Slots, sequencers, free values and requests -/

@[simp] theorem State.setSlot_basin (n : Nat) (x : HwSlot) : (s.setSlot n x).basin = s.basin := rfl
@[simp] theorem State.setSlot_drift (n : Nat) (x : HwSlot) : (s.setSlot n x).drift = s.drift := rfl
@[simp] theorem State.setSlot_ready (n : Nat) (x : HwSlot) : (s.setSlot n x).ready = s.ready := rfl
@[simp] theorem State.setSlot_islands (n : Nat) (x : HwSlot) : (s.setSlot n x).islands = s.islands := rfl
@[simp] theorem State.setSlot_hw (n : Nat) (x : HwSlot) : (s.setSlot n x).hw = s.hw := rfl
@[simp] theorem State.setSlot_parts (n : Nat) (x : HwSlot) : (s.setSlot n x).parts = s.parts := rfl
@[simp] theorem State.setSlot_boundary (n : Nat) (x : HwSlot) : (s.setSlot n x).boundary = s.boundary := rfl
@[simp] theorem State.setSlot_cores (n : Nat) (x : HwSlot) : (s.setSlot n x).cores = s.cores := rfl
@[simp] theorem State.setSlot_doms (n : Nat) (x : HwSlot) : (s.setSlot n x).doms = s.doms := rfl
@[simp] theorem State.setSlot_nextDom (n : Nat) (x : HwSlot) : (s.setSlot n x).nextDom = s.nextDom := rfl
@[simp] theorem State.setSlot_mem (n : Nat) (x : HwSlot) : (s.setSlot n x).mem = s.mem := rfl
@[simp] theorem State.setSlot_seqs (n : Nat) (x : HwSlot) : (s.setSlot n x).seqs = s.seqs := rfl
@[simp] theorem State.setSlot_audit (n : Nat) (x : HwSlot) : (s.setSlot n x).audit = s.audit := rfl
@[simp] theorem State.setSlot_moduleId (n : Nat) (x : HwSlot) : (s.setSlot n x).moduleId = s.moduleId := rfl
@[simp] theorem State.setSlot_agenda (n : Nat) (x : HwSlot) : (s.setSlot n x).agenda = s.agenda := rfl
@[simp] theorem State.setSlot_calendar (n : Nat) (x : HwSlot) : (s.setSlot n x).calendar = s.calendar := rfl
@[simp] theorem State.setSlot_cur (n : Nat) (x : HwSlot) : (s.setSlot n x).cur = s.cur := rfl
@[simp] theorem State.setSlot_freeCount (n : Nat) (x : HwSlot) : (s.setSlot n x).freeCount = s.freeCount := rfl

@[simp] theorem State.modSlot_basin (n : Nat) (f : HwSlot → HwSlot) : (s.modSlot n f).basin = s.basin := rfl
@[simp] theorem State.modSlot_drift (n : Nat) (f : HwSlot → HwSlot) : (s.modSlot n f).drift = s.drift := rfl
@[simp] theorem State.modSlot_ready (n : Nat) (f : HwSlot → HwSlot) : (s.modSlot n f).ready = s.ready := rfl
@[simp] theorem State.modSlot_islands (n : Nat) (f : HwSlot → HwSlot) : (s.modSlot n f).islands = s.islands := rfl
@[simp] theorem State.modSlot_hw (n : Nat) (f : HwSlot → HwSlot) : (s.modSlot n f).hw = s.hw := rfl
@[simp] theorem State.modSlot_parts (n : Nat) (f : HwSlot → HwSlot) : (s.modSlot n f).parts = s.parts := rfl
@[simp] theorem State.modSlot_boundary (n : Nat) (f : HwSlot → HwSlot) : (s.modSlot n f).boundary = s.boundary := rfl
@[simp] theorem State.modSlot_cores (n : Nat) (f : HwSlot → HwSlot) : (s.modSlot n f).cores = s.cores := rfl
@[simp] theorem State.modSlot_doms (n : Nat) (f : HwSlot → HwSlot) : (s.modSlot n f).doms = s.doms := rfl
@[simp] theorem State.modSlot_nextDom (n : Nat) (f : HwSlot → HwSlot) : (s.modSlot n f).nextDom = s.nextDom := rfl
@[simp] theorem State.modSlot_mem (n : Nat) (f : HwSlot → HwSlot) : (s.modSlot n f).mem = s.mem := rfl
@[simp] theorem State.modSlot_seqs (n : Nat) (f : HwSlot → HwSlot) : (s.modSlot n f).seqs = s.seqs := rfl
@[simp] theorem State.modSlot_audit (n : Nat) (f : HwSlot → HwSlot) : (s.modSlot n f).audit = s.audit := rfl
@[simp] theorem State.modSlot_moduleId (n : Nat) (f : HwSlot → HwSlot) : (s.modSlot n f).moduleId = s.moduleId := rfl
@[simp] theorem State.modSlot_agenda (n : Nat) (f : HwSlot → HwSlot) : (s.modSlot n f).agenda = s.agenda := rfl
@[simp] theorem State.modSlot_calendar (n : Nat) (f : HwSlot → HwSlot) : (s.modSlot n f).calendar = s.calendar := rfl
@[simp] theorem State.modSlot_cur (n : Nat) (f : HwSlot → HwSlot) : (s.modSlot n f).cur = s.cur := rfl
@[simp] theorem State.modSlot_freeCount (n : Nat) (f : HwSlot → HwSlot) : (s.modSlot n f).freeCount = s.freeCount := rfl

@[simp] theorem State.setSeq_basin (c : Nat) (q : Seqr) (x : SeqState) : (s.setSeq c q x).basin = s.basin := by
  unfold State.setSeq; split <;> rfl
@[simp] theorem State.setSeq_drift (c : Nat) (q : Seqr) (x : SeqState) : (s.setSeq c q x).drift = s.drift := by
  unfold State.setSeq; split <;> rfl
@[simp] theorem State.setSeq_ready (c : Nat) (q : Seqr) (x : SeqState) : (s.setSeq c q x).ready = s.ready := by
  unfold State.setSeq; split <;> rfl
@[simp] theorem State.setSeq_islands (c : Nat) (q : Seqr) (x : SeqState) : (s.setSeq c q x).islands = s.islands := by
  unfold State.setSeq; split <;> rfl
@[simp] theorem State.setSeq_hw (c : Nat) (q : Seqr) (x : SeqState) : (s.setSeq c q x).hw = s.hw := by
  unfold State.setSeq; split <;> rfl
@[simp] theorem State.setSeq_parts (c : Nat) (q : Seqr) (x : SeqState) : (s.setSeq c q x).parts = s.parts := by
  unfold State.setSeq; split <;> rfl
@[simp] theorem State.setSeq_boundary (c : Nat) (q : Seqr) (x : SeqState) : (s.setSeq c q x).boundary = s.boundary := by
  unfold State.setSeq; split <;> rfl
@[simp] theorem State.setSeq_doms (c : Nat) (q : Seqr) (x : SeqState) : (s.setSeq c q x).doms = s.doms := by
  unfold State.setSeq; split <;> rfl
@[simp] theorem State.setSeq_nextDom (c : Nat) (q : Seqr) (x : SeqState) : (s.setSeq c q x).nextDom = s.nextDom := by
  unfold State.setSeq; split <;> rfl
@[simp] theorem State.setSeq_mem (c : Nat) (q : Seqr) (x : SeqState) : (s.setSeq c q x).mem = s.mem := by
  unfold State.setSeq; split <;> rfl
@[simp] theorem State.setSeq_io (c : Nat) (q : Seqr) (x : SeqState) : (s.setSeq c q x).io = s.io := by
  unfold State.setSeq; split <;> rfl
@[simp] theorem State.setSeq_audit (c : Nat) (q : Seqr) (x : SeqState) : (s.setSeq c q x).audit = s.audit := by
  unfold State.setSeq; split <;> rfl
@[simp] theorem State.setSeq_moduleId (c : Nat) (q : Seqr) (x : SeqState) : (s.setSeq c q x).moduleId = s.moduleId := by
  unfold State.setSeq; split <;> rfl
@[simp] theorem State.setSeq_agenda (c : Nat) (q : Seqr) (x : SeqState) : (s.setSeq c q x).agenda = s.agenda := by
  unfold State.setSeq; split <;> rfl
@[simp] theorem State.setSeq_calendar (c : Nat) (q : Seqr) (x : SeqState) : (s.setSeq c q x).calendar = s.calendar := by
  unfold State.setSeq; split <;> rfl
@[simp] theorem State.setSeq_cur (c : Nat) (q : Seqr) (x : SeqState) : (s.setSeq c q x).cur = s.cur := by
  unfold State.setSeq; split <;> rfl
@[simp] theorem State.setSeq_freeCount (c : Nat) (q : Seqr) (x : SeqState) : (s.setSeq c q x).freeCount = s.freeCount := by
  unfold State.setSeq; split <;> rfl

@[simp] theorem State.modSeq_basin (c : Nat) (q : Seqr) (f : SeqState → SeqState) : (s.modSeq c q f).basin = s.basin := by
  simp [State.modSeq]
@[simp] theorem State.modSeq_drift (c : Nat) (q : Seqr) (f : SeqState → SeqState) : (s.modSeq c q f).drift = s.drift := by
  simp [State.modSeq]
@[simp] theorem State.modSeq_ready (c : Nat) (q : Seqr) (f : SeqState → SeqState) : (s.modSeq c q f).ready = s.ready := by
  simp [State.modSeq]
@[simp] theorem State.modSeq_islands (c : Nat) (q : Seqr) (f : SeqState → SeqState) : (s.modSeq c q f).islands = s.islands := by
  simp [State.modSeq]
@[simp] theorem State.modSeq_hw (c : Nat) (q : Seqr) (f : SeqState → SeqState) : (s.modSeq c q f).hw = s.hw := by
  simp [State.modSeq]
@[simp] theorem State.modSeq_parts (c : Nat) (q : Seqr) (f : SeqState → SeqState) : (s.modSeq c q f).parts = s.parts := by
  simp [State.modSeq]
@[simp] theorem State.modSeq_boundary (c : Nat) (q : Seqr) (f : SeqState → SeqState) : (s.modSeq c q f).boundary = s.boundary := by
  simp [State.modSeq]
@[simp] theorem State.modSeq_doms (c : Nat) (q : Seqr) (f : SeqState → SeqState) : (s.modSeq c q f).doms = s.doms := by
  simp [State.modSeq]
@[simp] theorem State.modSeq_nextDom (c : Nat) (q : Seqr) (f : SeqState → SeqState) : (s.modSeq c q f).nextDom = s.nextDom := by
  simp [State.modSeq]
@[simp] theorem State.modSeq_mem (c : Nat) (q : Seqr) (f : SeqState → SeqState) : (s.modSeq c q f).mem = s.mem := by
  simp [State.modSeq]
@[simp] theorem State.modSeq_io (c : Nat) (q : Seqr) (f : SeqState → SeqState) : (s.modSeq c q f).io = s.io := by
  simp [State.modSeq]
@[simp] theorem State.modSeq_audit (c : Nat) (q : Seqr) (f : SeqState → SeqState) : (s.modSeq c q f).audit = s.audit := by
  simp [State.modSeq]
@[simp] theorem State.modSeq_moduleId (c : Nat) (q : Seqr) (f : SeqState → SeqState) : (s.modSeq c q f).moduleId = s.moduleId := by
  simp [State.modSeq]
@[simp] theorem State.modSeq_agenda (c : Nat) (q : Seqr) (f : SeqState → SeqState) : (s.modSeq c q f).agenda = s.agenda := by
  simp [State.modSeq]
@[simp] theorem State.modSeq_calendar (c : Nat) (q : Seqr) (f : SeqState → SeqState) : (s.modSeq c q f).calendar = s.calendar := by
  simp [State.modSeq]
@[simp] theorem State.modSeq_cur (c : Nat) (q : Seqr) (f : SeqState → SeqState) : (s.modSeq c q f).cur = s.cur := by
  simp [State.modSeq]
@[simp] theorem State.modSeq_freeCount (c : Nat) (q : Seqr) (f : SeqState → SeqState) : (s.modSeq c q f).freeCount = s.freeCount := by
  simp [State.modSeq]

@[simp] theorem State.setReq_basin (r : LongReq) : (s.setReq r).basin = s.basin := rfl
@[simp] theorem State.setReq_drift (r : LongReq) : (s.setReq r).drift = s.drift := rfl
@[simp] theorem State.setReq_ready (r : LongReq) : (s.setReq r).ready = s.ready := rfl
@[simp] theorem State.setReq_islands (r : LongReq) : (s.setReq r).islands = s.islands := rfl
@[simp] theorem State.setReq_hw (r : LongReq) : (s.setReq r).hw = s.hw := rfl
@[simp] theorem State.setReq_parts (r : LongReq) : (s.setReq r).parts = s.parts := rfl
@[simp] theorem State.setReq_boundary (r : LongReq) : (s.setReq r).boundary = s.boundary := rfl
@[simp] theorem State.setReq_cores (r : LongReq) : (s.setReq r).cores = s.cores := rfl
@[simp] theorem State.setReq_doms (r : LongReq) : (s.setReq r).doms = s.doms := rfl
@[simp] theorem State.setReq_nextDom (r : LongReq) : (s.setReq r).nextDom = s.nextDom := rfl
@[simp] theorem State.setReq_io (r : LongReq) : (s.setReq r).io = s.io := rfl
@[simp] theorem State.setReq_seqs (r : LongReq) : (s.setReq r).seqs = s.seqs := rfl
@[simp] theorem State.setReq_audit (r : LongReq) : (s.setReq r).audit = s.audit := rfl
@[simp] theorem State.setReq_moduleId (r : LongReq) : (s.setReq r).moduleId = s.moduleId := rfl
@[simp] theorem State.setReq_agenda (r : LongReq) : (s.setReq r).agenda = s.agenda := rfl
@[simp] theorem State.setReq_calendar (r : LongReq) : (s.setReq r).calendar = s.calendar := rfl
@[simp] theorem State.setReq_cur (r : LongReq) : (s.setReq r).cur = s.cur := rfl
@[simp] theorem State.setReq_freeCount (r : LongReq) : (s.setReq r).freeCount = s.freeCount := rfl

@[simp] theorem State.drawFree_basin : s.drawFree.1.basin = s.basin := rfl
@[simp] theorem State.drawFree_drift : s.drawFree.1.drift = s.drift := rfl
@[simp] theorem State.drawFree_ready : s.drawFree.1.ready = s.ready := rfl
@[simp] theorem State.drawFree_islands : s.drawFree.1.islands = s.islands := rfl
@[simp] theorem State.drawFree_hw : s.drawFree.1.hw = s.hw := rfl
@[simp] theorem State.drawFree_parts : s.drawFree.1.parts = s.parts := rfl
@[simp] theorem State.drawFree_boundary : s.drawFree.1.boundary = s.boundary := rfl
@[simp] theorem State.drawFree_cores : s.drawFree.1.cores = s.cores := rfl
@[simp] theorem State.drawFree_doms : s.drawFree.1.doms = s.doms := rfl
@[simp] theorem State.drawFree_nextDom : s.drawFree.1.nextDom = s.nextDom := rfl
@[simp] theorem State.drawFree_mem : s.drawFree.1.mem = s.mem := rfl
@[simp] theorem State.drawFree_io : s.drawFree.1.io = s.io := rfl
@[simp] theorem State.drawFree_seqs : s.drawFree.1.seqs = s.seqs := rfl
@[simp] theorem State.drawFree_audit : s.drawFree.1.audit = s.audit := rfl
@[simp] theorem State.drawFree_moduleId : s.drawFree.1.moduleId = s.moduleId := rfl
@[simp] theorem State.drawFree_agenda : s.drawFree.1.agenda = s.agenda := rfl
@[simp] theorem State.drawFree_calendar : s.drawFree.1.calendar = s.calendar := rfl
@[simp] theorem State.drawFree_cur : s.drawFree.1.cur = s.cur := rfl
@[simp] theorem State.drawFree_freeCount : s.drawFree.1.freeCount = s.freeCount + 1 := rfl

@[simp] theorem State.tableWrite_basin : s.tableWrite.basin = s.basin := rfl
@[simp] theorem State.tableWrite_drift : s.tableWrite.drift = s.drift := rfl
@[simp] theorem State.tableWrite_ready : s.tableWrite.ready = s.ready := rfl
@[simp] theorem State.tableWrite_islands : s.tableWrite.islands = s.islands := rfl
@[simp] theorem State.tableWrite_parts : s.tableWrite.parts = s.parts := rfl
@[simp] theorem State.tableWrite_boundary : s.tableWrite.boundary = s.boundary := rfl
@[simp] theorem State.tableWrite_cores : s.tableWrite.cores = s.cores := rfl
@[simp] theorem State.tableWrite_doms : s.tableWrite.doms = s.doms := rfl
@[simp] theorem State.tableWrite_nextDom : s.tableWrite.nextDom = s.nextDom := rfl
@[simp] theorem State.tableWrite_mem : s.tableWrite.mem = s.mem := rfl
@[simp] theorem State.tableWrite_io : s.tableWrite.io = s.io := rfl
@[simp] theorem State.tableWrite_seqs : s.tableWrite.seqs = s.seqs := rfl
@[simp] theorem State.tableWrite_audit : s.tableWrite.audit = s.audit := rfl
@[simp] theorem State.tableWrite_moduleId : s.tableWrite.moduleId = s.moduleId := rfl
@[simp] theorem State.tableWrite_agenda : s.tableWrite.agenda = s.agenda := rfl
@[simp] theorem State.tableWrite_calendar : s.tableWrite.calendar = s.calendar := rfl
@[simp] theorem State.tableWrite_cur : s.tableWrite.cur = s.cur := rfl
@[simp] theorem State.tableWrite_freeCount : s.tableWrite.freeCount = s.freeCount := rfl

@[simp] theorem State.emit_out (m : OutMsg) : (s.emit m).io.out = s.io.out ++ [m] := rfl
@[simp] theorem State.schedule_calendar (b : Nat) (t : Turn) : (s.schedule b t).calendar = s.calendar ++ [⟨none, b, t⟩] := rfl

/-! ### What a read finds after an update -/

@[simp] theorem State.slot_setSlot (n j : Nat) (x : HwSlot) : (s.setSlot n x).slot j = if n = j then x else s.slot j := by
  simp only [State.slot, State.setSlot, sget_sinsert]; split <;> rfl

@[simp] theorem State.slot_modSlot (n j : Nat) (f : HwSlot → HwSlot) :
    (s.modSlot n f).slot j = if n = j then f (s.slot n) else s.slot j := by
  simp [State.modSlot]

theorem State.part_modPart (p j : Nat) (f : Part → Part) (h : p < 4) :
    (s.modPart p f).part j = if p = j then f (s.part p) else s.part j := by
  simp only [State.part, State.modPart, Vector.getElem?_setIfInBounds]
  split
  · subst_vars; simp [h]
  · rfl

@[simp] theorem State.seq_setSeq (c : Nat) (q : Seqr) (x : SeqState) : (s.setSeq c q x).seq c q = x := by
  cases hq : q.eng <;> simp [State.setSeq, State.seq, hq]

@[simp] theorem State.seq_modSeq (c : Nat) (q : Seqr) (f : SeqState → SeqState) : (s.modSeq c q f).seq c q = f (s.seq c q) := by
  simp [State.modSeq]

@[simp] theorem State.dom_modCore (c : Nat) (f : Core → Core) (j : Nat) : (s.modCore c f).dom j = s.dom j := rfl
@[simp] theorem State.slot_modCore (c : Nat) (f : Core → Core) (j : Nat) : (s.modCore c f).slot j = s.slot j := rfl
@[simp] theorem State.part_modCore (c : Nat) (f : Core → Core) (j : Nat) : (s.modCore c f).part j = s.part j := rfl
@[simp] theorem State.dom_modBe (c : Nat) (f : Be → Be) (j : Nat) : (s.modBe c f).dom j = s.dom j := rfl
@[simp] theorem State.slot_modBe (c : Nat) (f : Be → Be) (j : Nat) : (s.modBe c f).slot j = s.slot j := rfl
@[simp] theorem State.part_modBe (c : Nat) (f : Be → Be) (j : Nat) : (s.modBe c f).part j = s.part j := rfl
@[simp] theorem State.dom_modCc (c : Nat) (f : Cc → Cc) (j : Nat) : (s.modCc c f).dom j = s.dom j := rfl
@[simp] theorem State.slot_modCc (c : Nat) (f : Cc → Cc) (j : Nat) : (s.modCc c f).slot j = s.slot j := rfl
@[simp] theorem State.part_modCc (c : Nat) (f : Cc → Cc) (j : Nat) : (s.modCc c f).part j = s.part j := rfl
@[simp] theorem State.dom_modEng (c : Nat) (f : Engines → Engines) (j : Nat) : (s.modEng c f).dom j = s.dom j := rfl
@[simp] theorem State.slot_modEng (c : Nat) (f : Engines → Engines) (j : Nat) : (s.modEng c f).slot j = s.slot j := rfl
@[simp] theorem State.part_modEng (c : Nat) (f : Engines → Engines) (j : Nat) : (s.modEng c f).part j = s.part j := rfl
@[simp] theorem State.dom_modFab (c : Nat) (f : Fabric → Fabric) (j : Nat) : (s.modFab c f).dom j = s.dom j := rfl
@[simp] theorem State.slot_modFab (c : Nat) (f : Fabric → Fabric) (j : Nat) : (s.modFab c f).slot j = s.slot j := rfl
@[simp] theorem State.part_modFab (c : Nat) (f : Fabric → Fabric) (j : Nat) : (s.modFab c f).part j = s.part j := rfl
@[simp] theorem State.core_setDom (d : Nat) (v : Domain) (j : Nat) : (s.setDom d v).core j = s.core j := rfl
@[simp] theorem State.slot_setDom (d : Nat) (v : Domain) (j : Nat) : (s.setDom d v).slot j = s.slot j := rfl
@[simp] theorem State.part_setDom (d : Nat) (v : Domain) (j : Nat) : (s.setDom d v).part j = s.part j := rfl
@[simp] theorem State.core_modPart (p : Nat) (f : Part → Part) (j : Nat) : (s.modPart p f).core j = s.core j := rfl
@[simp] theorem State.dom_modPart (p : Nat) (f : Part → Part) (j : Nat) : (s.modPart p f).dom j = s.dom j := rfl
@[simp] theorem State.slot_modPart (p : Nat) (f : Part → Part) (j : Nat) : (s.modPart p f).slot j = s.slot j := rfl
@[simp] theorem State.core_setSlot (n : Nat) (x : HwSlot) (j : Nat) : (s.setSlot n x).core j = s.core j := rfl
@[simp] theorem State.dom_setSlot (n : Nat) (x : HwSlot) (j : Nat) : (s.setSlot n x).dom j = s.dom j := rfl
@[simp] theorem State.part_setSlot (n : Nat) (x : HwSlot) (j : Nat) : (s.setSlot n x).part j = s.part j := rfl
@[simp] theorem State.core_modSlot (n : Nat) (f : HwSlot → HwSlot) (j : Nat) : (s.modSlot n f).core j = s.core j := rfl
@[simp] theorem State.dom_modSlot (n : Nat) (f : HwSlot → HwSlot) (j : Nat) : (s.modSlot n f).dom j = s.dom j := rfl
@[simp] theorem State.part_modSlot (n : Nat) (f : HwSlot → HwSlot) (j : Nat) : (s.modSlot n f).part j = s.part j := rfl
@[simp] theorem State.core_soon (t : Turn) (j : Nat) : (s.soon t).core j = s.core j := rfl
@[simp] theorem State.dom_soon (t : Turn) (j : Nat) : (s.soon t).dom j = s.dom j := rfl
@[simp] theorem State.slot_soon (t : Turn) (j : Nat) : (s.soon t).slot j = s.slot j := rfl
@[simp] theorem State.part_soon (t : Turn) (j : Nat) : (s.soon t).part j = s.part j := rfl
@[simp] theorem State.core_schedule (b : Nat) (t : Turn) (j : Nat) : (s.schedule b t).core j = s.core j := rfl
@[simp] theorem State.dom_schedule (b : Nat) (t : Turn) (j : Nat) : (s.schedule b t).dom j = s.dom j := rfl
@[simp] theorem State.slot_schedule (b : Nat) (t : Turn) (j : Nat) : (s.schedule b t).slot j = s.slot j := rfl
@[simp] theorem State.part_schedule (b : Nat) (t : Turn) (j : Nat) : (s.schedule b t).part j = s.part j := rfl
@[simp] theorem State.core_emit (m : OutMsg) (j : Nat) : (s.emit m).core j = s.core j := rfl
@[simp] theorem State.dom_emit (m : OutMsg) (j : Nat) : (s.emit m).dom j = s.dom j := rfl
@[simp] theorem State.slot_emit (m : OutMsg) (j : Nat) : (s.emit m).slot j = s.slot j := rfl
@[simp] theorem State.part_emit (m : OutMsg) (j : Nat) : (s.emit m).part j = s.part j := rfl
@[simp] theorem State.core_setReq (r : LongReq) (j : Nat) : (s.setReq r).core j = s.core j := rfl
@[simp] theorem State.dom_setReq (r : LongReq) (j : Nat) : (s.setReq r).dom j = s.dom j := rfl
@[simp] theorem State.slot_setReq (r : LongReq) (j : Nat) : (s.setReq r).slot j = s.slot j := rfl
@[simp] theorem State.part_setReq (r : LongReq) (j : Nat) : (s.setReq r).part j = s.part j := rfl
@[simp] theorem State.core_drawFree (j : Nat) : s.drawFree.1.core j = s.core j := rfl
@[simp] theorem State.core_tableWrite (j : Nat) : s.tableWrite.core j = s.core j := rfl
@[simp] theorem State.dom_drawFree (j : Nat) : s.drawFree.1.dom j = s.dom j := rfl
@[simp] theorem State.dom_tableWrite (j : Nat) : s.tableWrite.dom j = s.dom j := rfl
@[simp] theorem State.slot_drawFree (j : Nat) : s.drawFree.1.slot j = s.slot j := rfl
@[simp] theorem State.slot_tableWrite (j : Nat) : s.tableWrite.slot j = s.slot j := rfl
@[simp] theorem State.part_drawFree (j : Nat) : s.drawFree.1.part j = s.part j := rfl
@[simp] theorem State.part_tableWrite (j : Nat) : s.tableWrite.part j = s.part j := rfl

end Sys2Proof.Machine
end

