-- ==== Sys2Proof/Tests/Slice0.lean ====
section
/-! SUPPORT. Small states that meet the hypotheses of the statements, decoding tests, and tests of single steps. -/

namespace Sys2Proof.Tests

set_option Elab.async false

open Sys2Proof Sys2Proof.Machine

/-! ### Helpers -/

/-- The guard that always holds. -/
def g0 : Guard := ⟨false, 0, 0⟩

/-- The guard `(sa0.0)` on true, which never holds: sa0 reads zero. -/
def gOff : Guard := ⟨true, 0, 0⟩

/-- Core 0 replaced. -/
def onCore (f : Core → Core) : State := State.reset.setCore 0 (f Core.reset)

/-- Bytes of doublewords laid out from address `a`. -/
def words (m : Sparse Byte) (a : Nat) (ws : List Nat) : Sparse Byte := writeBytes m a (ws.flatMap fun w => bytesOf w 8)

/-- A module whose partition 0 holds stack 0, with blocks 0 to 3 of its memory cached as readable and writable, a route
table at 0x20000 and a plan table at 0x21000; range register 0 of core 0 maps the first 256 KiB, and its monitor memory
holds `b` at 0. -/
def world (b : List Nat) : State :=
  let s := State.reset.modPart 0 fun p =>
    { p with words := (((p.words.set 0 0x8001000001460320).set 4 0x21000).set 5 0x20000) }
  let k := Core.reset
  let s := s.setCore 0 { k with
    rng := k.rng.set 0 ⟨0xE000000000000000, 0x0000000C00000000⟩
    cc := { k.cc with state := .running, monMem := words [] 0 b } }
  { s with
    ready := { s.ready with stack := 1 }
    mem := { s.mem with
      tlb := (List.range 4).map fun n =>
        { stack := 0, part := 0, block := n, leaf := BitVec.ofNat 64 (0xF000000000000000 + n * 65536), size := 0, pins := [] }
      hbm := words (words (words [] 0x20000 [0x8000000000000000 + 100 * 2 ^ 20, 0])
        0x21000 [0x8000000000022000]) 0x22000
          ([4 * 2 ^ 61 + 64 * 2 ^ 32, 0, 0, 0, 0, 0, 0, 0] ++ [2 ^ 24, 0, 64]) } }

/-- A block that each macro-instruction admits, by its funct7. -/
def blockFor (form : Nat) : List Nat :=
  let r0 := 0x2000000000000000
  let w0 := 0x1000000000000000
  let sp := 2 ^ 20
  let pad (n : Nat) (l : List Nat) : List Nat := l ++ List.replicate (n - l.length) 0
  match form with
  | 0x01 => pad 16 [0x201, 2 ^ 16, 256 * 2 ^ 24, 0, 0x10000 * 2 ^ 40 + 256 * 2 ^ 24, 0, 0, 0, 0, 0, 0, 0,
      r0, sp, 0x4000000000000000 + w0, 2 ^ 17]
  | 0x02 => pad 16 [0x202, 2 ^ 16, 256 * 2 ^ 24, 0, 0x10000 * 2 ^ 40 + 64 * 2 ^ 24 + 4096 + 1, 2 ^ 52 + 4096 + 1, 0, 0, 0,
      63 * 2 ^ 52, 0, 0, r0, sp, 0x4000000000000000 + w0, 2 ^ 17]
  | 0x03 => pad 24 [0x303, 2 ^ 17 + 2 ^ 52, 64 * 2 ^ 24, 0, 0x10000 * 2 ^ 40 + 64 * 2 ^ 24, 0, 0x40000, 256 * 2 ^ 36, 0, 0,
      0x20000 * 2 ^ 40 + 64 * 2 ^ 24, 0, r0, 0x40000, w0 + 0x40000, 2 ^ 17, 0x4000000000000000 + w0, 2 ^ 17]
  | 0x08 => pad 16 [0x208, 2 ^ 57 + 256 * 2 ^ 24, 0, 0x1000, 0x2000, 0, 0, 0, 0, 0, 0, 0, r0 + w0, sp]
  | 0x09 => pad 16 [0x209, 2 ^ 48 + 64 * 2 ^ 24, 0, 64 * 2 ^ 32 + 16, 0x1000, 0x2000, 0, 0, 0, 0, 0, 0, r0 + w0, sp]
  | 0x0A => pad 16 [0x20A, 2 ^ 48 + 64 * 2 ^ 24, 0, 64 * 2 ^ 32 + 16, 0x1000, 0x2000, 0, 0, 0, 0, 0, 0, r0 + w0, sp]
  | 0x10 => pad 8 [0x110, 2 ^ 60 + 2 ^ 56, 0, 0, 0x1000, 0, r0 + w0, sp]
  | 0x11 => pad 8 [0x111, 2 ^ 60 + 2 ^ 56, 0x1234, 0, 0x1000, 0, w0, sp]
  | 0x12 => pad 8 [0x112, 0, 0x10000, 0, 0x8000000000000000 + r0 + 0x10000, 8192]
  | 0x18 => pad 16 [0x218, 2 ^ 50, 0x10000, 2 ^ 32 + 16, 0, 0, 0, 0, 16, 0, 0x8000000000000000 + r0 + 0x10000, 4096, w0, sp] |>.set 1 (2 ^ 50 + 2 ^ 16)
  | 0x19 => pad 16 [0x219, 2 ^ 50 + 2 ^ 16 + 3 * 2 ^ 40, 0x10000, 2 ^ 32 + 16, 0, 0, 0, 0, 0, 0, 0x8000000000000000 + r0 + 0x10000, 4096,
      w0, sp]
  | _ => pad 8 [0x120, 4 * 2 ^ 61, 0, 0x1000, 64, 0, r0, sp]

/-- A record of a queue with its doorbell key 0xABCD, rings of 64 entries, the command ring at 0x30000, watchdog limits 1, 2
and 3 and TIDLE 1, THOLD 2; HEAD, TAIL and STATE as given. -/
def rec0 (head tail state : Nat) : QRec :=
  ⟨#v[BitVec.ofNat 64 (2 ^ 63 + state * 2 ^ 58 + 6 * 2 ^ 54 + 6 * 2 ^ 50 + 0x30000), BitVec.ofNat 64 (head * 2 ^ 32 + tail), 0, 0, 0,
    0xABCD, BitVec.ofNat 64 (2 ^ 40 + 2 * 2 ^ 20 + 3), 0x102]⟩

/-- A command of queue 0: its words, index 7. -/
def cmd0 (ws : List Nat) : Cmd :=
  { idx := 7, words := (ws ++ List.replicate (8 - ws.length) 0).map (BitVec.ofNat 64), at_ := 100, dom := none, written := 0
    failed := none }

/-- Partition 0 with stack 0, die 0, front end 0 and the first quarter of the queues; queue 0 mapped in slot 0. -/
def queues (r : QRec) (execs : List Cmd) (held : List CRec) (disp : Option Cmd) : State :=
  let s := (world []).modPart 0 fun p => { p with words := (p.words.set 0 0x8101000101460320).set 3 0x23000 }
  { s with
    basin := 100000
    io := { s.io with
      slots := [(0, { HwSlot.reset with queue := some 0, rec_ := r, execs, held })]
      disps := match disp with
        | some c => [(0, ⟨0, c⟩)]
        | none => [] } }

/-- A domain of core 0 of queue 0, running command 7, with a gang that starts at SC 50 at 0x400. -/
def domain0 (phase : Phase) (timed basin : Bool) : Domain :=
  { part := 0, fe := 0, queue := 0, cmdidx := 7, timetable := 5, cmd := [], dispAt := 0, params := [], timed, wrmode := 1, ovldbg := false
    basin, cores := [(0, 0)], gangs := [(50, 0x400)], b0 := 1000, h := 0, phase, fpt := none, frozenAt := 2000
    resumeAt := none, resp := none, saveIA := none, replays := 0, unsafe_ := false, mdeliv := false, stage1Done := false
    killAt := none, replayBa := none, leases := [0x40], linkLeases := [], seqLeases := [], pins := [], resRegs := []
    saved := [], later := [], heldReqs := [] }

/-- Domain 3, its core 0 one of it. -/
def inDomain (s : State) (d : Domain) : State := { s with doms := [(3, d)] }.modCore 0 fun k => { k with dom := some 3 }

/-- The queues with the command `c` at hand on front end 0, and timetable 5 of partition 0 resident: one gang of core 0 in
Elastic, WRMODE 1, with START 50 and its entry address 0x400 in one overlay page; the table of plans is in no page. -/
def launches (c : Cmd) : State :=
  let s := queues (rec0 3 5 0) [c] [] (some c)
  let s := s.modPart 0 fun p => { p with words := p.words.set 4 0x100000 }
  { s with
    ready := { s.ready with die := 1, fe := 1 }
    mem := { s.mem with
      hbm := words (words (words (words s.mem.hbm 0x23028 [0x8000000000024000]) 0x24000 [2 ^ 61, 256 * 2 ^ 48, 0x28000])
        0x24140 [50 * 2 ^ 32 + 0x400, 2 ^ 55, 0x10000]) 0x24340 [0] } }

/-- A LAUNCH of timetable 5 with one parameter unit. -/
def launch5 : Cmd := cmd0 [1 + 2 ^ 8, 5 + 2 ^ 16, 0x2E000]

/-- Queue 0 with launch 5 in execution as domain 3 in a phase. -/
def launched (d : Domain) : State := inDomain (queues (rec0 3 5 0) [{ launch5 with dom := some 3 }] [] none) d

/-- A bundle of a header and words with their slots (R61). -/
def bundle (hdr : Nat) (ws : List (Nat × Nat)) : Nat := ws.foldl (fun v w => v + w.2 * 2 ^ (32 + 48 * w.1)) hdr

/-- Core 0 with its bundle engine running at address 0 of a region that holds the bundle `v` there. -/
def running (v : Nat) : State :=
  onCore fun k => { k with
    eng := { k.eng with regions := k.eng.regions.set 0 0x8000000000000000, ispad := writeBytes [] 0 (bytesOf v 64) }
    be := { k.be with
      state := .running, npq := #v[⟨0, false, 0⟩, ⟨1, false, 0⟩, ⟨2, false, 0⟩]
      regs := { k.be.regs with sa := (k.be.regs.sa.set 1 7).set 2 8 } } }

/-- An entry of the block that `blockFor` gives the form, issue number 9, start SC 20. -/
def entry0 (form : Nat) : QEntry :=
  { form, block := (blockFor form).map (BitVec.ofNat 64), rng := ((world []).core 0).rng, start := 20, issue := 9, seqr := 0, headAt := 0 }

/-- An engine's queue of core 0 replaced. -/
def setQueue (e : Eng) (l : List QEntry) (k : Core) : Core :=
  { k with eng := match e with
      | .mx => { k.eng with mxq := l }
      | .px => { k.eng with pxq := l }
      | .ce => { k.eng with ceq := l }
      | .cx => { k.eng with cxq := l }
      | .weir => { k.eng with weirq := l } }

/-- The world at SC `n` of core 0 with an entry of a form at the head of its queue. -/
def waitingAt (form n : Nat) : State :=
  let s := ({ world [] with basin := n }).modCore 0 (setQueue (formEng form) [entry0 form])
  s

/-- The same entry in a Timed domain, at SC `sc`. -/
def timedAt (form sc : Nat) : State :=
  (inDomain { waitingAt form 20 with basin := 1000 + sc } (domain0 .running true false)).modCore 0 fun k =>
    { k with cc := { k.cc with calctl := 8 } }

/-- The entry of a form that runs, `n` of its steps committed and `m` started, with the steps in flight given. -/
def runs0 (form total m n : Nat) (sc : Nat) (steps : List StepState) : State :=
  let s := { world [] with basin := sc }
  let q : Seqr := ⟨formEng form, 0, 0⟩
  s.setSeq 0 q { s.seq 0 q with
    prog := { (s.seq 0 q).prog with state := 1, issue := 9, total := BitVec.ofNat 32 total, steps := BitVec.ofNat 32 n }
    active := [⟨entry0 form, 20, m, n, total, []⟩], steps }

/-- A step in flight. -/
def step0 (n t0 stage : Nat) (samples : Sparse (List Nat)) : StepState :=
  { issue := 9, n, t0, samples, reads := [], stage, flags := 3 }

/-! ### The hypotheses of the scalar and control statements are met -/

/-- The reset state, in which core 0 has its turn. -/
abbrev s0 : State := State.reset

theorem meets_ScalarThreeOperand : ∀ row ∈ Spec.scalarRows, s0.clearFor (row.instr ⟨.sa, g0, 1, 2, 3⟩) ∧
    s0.clearFor (row.instr ⟨.sb, g0, 0, 15, 15⟩) := by
  simp only [State.clearFor]; decide +kernel

theorem meets_ScalarImmediate : ∀ row ∈ Spec.immediateRows, s0.clearFor (row.1 ⟨.sb, g0, 1, 2, 0x80000⟩) := by
  simp only [State.clearFor]; decide +kernel

theorem meets_ScalarBitCounts : ∀ row ∈ Spec.countRows, s0.clearFor (row.1 ⟨.sa, g0, 1, 2⟩) := by
  simp only [State.clearFor]; decide +kernel

theorem meets_ScalarFieldsAndConstants :
    (WellFormed (.bext ⟨.sa, g0, 1, 2, 0, 63⟩) = true ∧ s0.clearFor (.bext ⟨.sa, g0, 1, 2, 0, 63⟩)) ∧
    (WellFormed (.bins ⟨.sb, g0, 1, 2, 63, 0⟩) = true ∧ s0.clearFor (.bins ⟨.sb, g0, 1, 2, 63, 0⟩)) ∧
    ∀ c ∈ [Instr.lil, .lih, .lit], s0.clearFor (c ⟨.sa, g0, 1, 0xFFFFFF⟩) := by
  simp only [State.clearFor]; decide +kernel

theorem meets_CopyAndStreamWrite :
    (WellFormed (.cpx ⟨.sa, g0, 1, 3, 1⟩) = true ∧ s0.clearFor (.cpx ⟨.sa, g0, 1, 3, 1⟩)) ∧ s0.clearFor (.stwr ⟨.sb, g0, 15, 2⟩) := by
  simp only [State.clearFor]; decide +kernel

theorem meets_BranchesTaken : s0.clearFor (.br ⟨g0, 2, -5⟩) ∧ s0.clearFor (.call ⟨g0, 1, 5⟩) ∧ s0.clearFor (.bri ⟨g0, 0, 3⟩) ∧
    s0.clearFor (.calli ⟨g0, 2, 15⟩) ∧ s0.clearFor (.ret g0) := by
  simp only [State.clearFor]; decide +kernel

theorem meets_BranchesNotTaken : Spec.guardedOff s0 (.br ⟨gOff, 1, 5⟩) ∧ Spec.guardedOff s0 (.call ⟨gOff, 1, 5⟩) ∧
    Spec.guardedOff s0 (.bri ⟨gOff, 0, 3⟩) ∧ Spec.guardedOff s0 (.calli ⟨gOff, 2, 3⟩) ∧ Spec.guardedOff s0 (.ret gOff) := by
  simp only [Spec.guardedOff]; decide +kernel

theorem meets_NopHaltTrap : s0.clearFor (.nop .va g0) ∧ s0.clearFor (.halt g0) ∧
    (s0.clearFor (.trap g0 5) ∧ (Spec.be s0).pend14 = none) ∧
    (let s := onCore fun k => { k with be := { k.be with pend14 := some (default, 3) } }
     s.clearFor (.trap g0 5) ∧ (Spec.be s).pend14.isSome = true) := by
  simp only [State.clearFor]; decide +kernel

theorem meets_LoopsAndStrides : s0.clearFor (.loop ⟨g0, 3, 1023, 0⟩) ∧ s0.clearFor (.loopr ⟨g0, 0, 0, 4⟩) ∧
    s0.clearFor (.lstri ⟨g0, 1, 31, 0x100000⟩) ∧ s0.clearFor (.lstr ⟨g0, 2, 0, 7⟩) := by
  simp only [State.clearFor]; decide +kernel

/-! ### The hypotheses of the vector statements are met -/

/-- A vector operation of va with sources 1 and 2. -/
def fv (type : BitVec 5) : FV := ⟨.va, .w256, g0, 3, 1, 2, 0, type, 0, 0⟩

theorem meets_VectorInteger : ∀ row ∈ Spec.intRows, WellFormed (row.1 { fv 0 with b := 0 }) = true ∧
    (s0.core s0.cur).errata = 0 ∧ s0.clearFor (row.1 { fv 0 with b := 0 }) := by
  simp only [State.clearFor]; decide +kernel

theorem meets_VectorFloatRounded : ∀ row ∈ Spec.roundedRows, WellFormed (row.1 { fv 8 with rnd := 4 }) = true ∧
    s0.clearFor (row.1 { fv 8 with rnd := 4 }) := by
  simp only [State.clearFor]; decide +kernel

theorem meets_VectorFloatUnrounded : ∀ row ∈ Spec.floatRows, WellFormed (row.1 { fv 10 with b := 0 }) = true ∧
    s0.clearFor (row.1 { fv 10 with b := 0 }) := by
  simp only [State.clearFor]; decide +kernel

theorem meets_VectorBitwise : ∀ row ∈ Spec.bitRows, s0.clearFor (row.1 (fv 0)) := by
  simp only [State.clearFor]; decide +kernel

theorem meets_VectorRearrange : (WellFormed (.vperm (fv 1)) = true ∧ s0.clearFor (.vperm (fv 1))) ∧
    WellFormed (.vshfl { fv 2 with aux := 5 }) = true ∧ s0.clearFor (.vshfl { fv 2 with aux := 5 }) := by
  simp only [State.clearFor]; decide +kernel

theorem meets_VectorReduction :
    let f : FV := { fv 8 with b := 0, rnd := 4 }
    WellFormed (.vred f) = true ∧ s0.clearFor (.vred f) ∧ 2 ^ 3 = Spec.count f ∧ Spec.nodesDraw f ∧
      ¬ Spec.nodesDraw { f with rnd := 0 } := by
  simp only [State.clearFor, Spec.nodesDraw]; decide +kernel

theorem meets_VectorScan :
    let f : FV := { fv 0 with b := 0, aux := 5, w := .w1024 }
    WellFormed (.vscan f) = true ∧ s0.clearFor (.vscan f) ∧ 2 ^ 7 = Spec.count f := by
  simp only [State.clearFor]; decide +kernel

/-- Core 0 whose stream registers 0 and 1 select E4M3 without scales. -/
def sStream : State := onCore fun k => { k with be := { k.be with regs := { k.be.regs with st := (k.be.regs.st.set 0 1).set 1 1 } } }

theorem meets_VectorDot :
    let f : FV := { fv 16 with c := 4 }
    WellFormed (.vdot f) = true ∧ sStream.clearFor (.vdot f) ∧ streamIllegal (Spec.be sStream) (.vdot f) = false := by
  simp only [State.clearFor]; decide +kernel

theorem meets_VectorConvert :
    let f : FVX := ⟨.vb, .w512, g0, 3, 1, 17, 10, 0, true⟩
    let g : FVX := ⟨.vb, .w512, g0, 3, 1, 8, 10, 4, true⟩
    (WellFormed (.vcvt f) = true ∧ sStream.clearFor (.vcvt f) ∧ streamIllegal (Spec.be sStream) (.vcvt f) = false) ∧
    WellFormed (.vcvt g) = true ∧ sStream.clearFor (.vcvt g) ∧ streamIllegal (Spec.be sStream) (.vcvt g) = false := by
  simp only [State.clearFor]; decide +kernel

theorem meets_VectorMove :
    (WellFormed (.vins ⟨.va, .w256, g0, 3, 31, 2, true, 0⟩) = true ∧ s0.clearFor (.vins ⟨.va, .w256, g0, 3, 31, 2, true, 0⟩)) ∧
    (WellFormed (.vext ⟨.vb, .w1024, g0, 3, 1, 15, 3⟩) = true ∧ s0.clearFor (.vext ⟨.vb, .w1024, g0, 3, 1, 15, 3⟩)) ∧
    (WellFormed (.vbcst ⟨.vc, .w512, g0, 3, 2, false, 9⟩) = true ∧ s0.clearFor (.vbcst ⟨.vc, .w512, g0, 3, 2, false, 9⟩)) ∧
    WellFormed (.vcpx ⟨.va, .w256, g0, 3, 7, 9⟩) = true ∧ s0.clearFor (.vcpx ⟨.va, .w256, g0, 3, 7, 9⟩) := by
  simp only [State.clearFor]; decide +kernel

theorem meets_SpecialFunctions : ∀ row ∈ Spec.fsRows, WellFormed (row.1 ⟨g0, 7, 5, 1⟩) = true ∧ (s0.core s0.cur).errata = 0 ∧
    s0.clearFor (row.1 ⟨g0, 7, 5, 1⟩) := by
  simp only [State.clearFor]; decide +kernel

theorem meets_ProfileFiveStart :
    let s := onCore fun k => { k with be := { k.be with state := .running } }
    s.clearFor (.p5dot4 (fv 2)) ∧ s.clearFor (.p5hmul (fv 10)) ∧ (Spec.be s).micro = none ∧ (Spec.be s).state = .running := by
  simp only [State.clearFor]; decide +kernel

/-- Core 0 in a micro-sequence of `m` steps of the operation `i`, at step `n`. -/
def micro0 (m n : Nat) (i : Instr) : State :=
  onCore fun k => { k with be := { k.be with state := .micro m, micro := some ⟨1, n, 0, [i], false⟩ } }

theorem meets_ProfileFiveMicroSteps :
    (∀ n ∈ [1, 4], Spec.inMicro (micro0 5 n (.p5dot4 (fv 2))) ⟨1, n, 0, [.p5dot4 (fv 2)], false⟩ 5) ∧
    ∀ n ∈ [1, 2], Spec.inMicro (micro0 3 n (.p5hmul (fv 10))) ⟨1, n, 0, [.p5hmul (fv 10)], false⟩ 3 := by
  simp only [Spec.inMicro]; decide +kernel

/-! ### The hypotheses of the memory and fabric statements are met -/

/-- A memory-slot form of ma: data register 5 of va, address register 2, size 16 bytes up to `size`. -/
def fm (size : BitVec 3) (ofs : BitVec 14) : FM := ⟨.ma, g0, 5, 0, 2, size, ofs⟩

theorem meets_PrivateMemoryForms :
    (∀ c ∈ [Instr.lds, .sts], WellFormed (c (fm 4 1)) = true ∧ s0.clearFor (c (fm 4 1)) ∧ memStall s0 (c (fm 4 1)) = false ∧
      Spec.inStore (Spec.ea s0 .ma 2 1 (Spec.bytes 4)) (Spec.bytes 4) (2 ^ 20)) ∧
    (∀ c ∈ [Instr.lda, .sta], WellFormed (c (fm 6 3)) = true ∧ s0.clearFor (c (fm 6 3)) ∧ memStall s0 (c (fm 6 3)) = false ∧
      Spec.inStore (Spec.ea s0 .ma 2 3 (Spec.bytes 6)) (Spec.bytes 6) (2 ^ 17)) ∧
    (let f : FLdt := ⟨.ma, g0, 5, 3, 2, 1, 4, 7⟩
     WellFormed (.ldt f) = true ∧ s0.clearFor (.ldt f) ∧ memStall s0 (.ldt f) = false ∧
       Spec.inStore (Spec.ea s0 .ma 2 7 (Spec.bytes 1)) (Spec.bytes 1) (2 ^ 20)) ∧
    (let f : FSld := ⟨.mb, g0, 5, 0, 2, 4, 9⟩
     WellFormed (.sld f) = true ∧ s0.clearFor (.sld f) ∧ memStall s0 (.sld f) = false ∧
       Spec.inStore (Spec.aReg s0 .mb 2) (Spec.bytes 4) (2 ^ 20)) ∧
    (let f : FM := ⟨.ma, g0, 5, 3, 2, 1, 4⟩
     WellFormed (.stag f) = true ∧ s0.clearFor (.stag f) ∧ memStall s0 (.stag f) = false ∧
       Spec.inStore (Spec.ea s0 .ma 2 4 2) 2 (2 ^ 20)) := by
  simp only [State.clearFor, Spec.inStore]; decide +kernel

/-- Core 0 with ma2 one byte behind the accumulators' end, and mb2 at an odd address. -/
def sOdd : State := onCore fun k => { k with be := { k.be with regs := { k.be.regs with ma := k.be.regs.ma.set 2 0x100000, mb := k.be.regs.mb.set 2 3 } } }

theorem meets_PrivateMemoryFaults : ∀ f ∈ [(⟨.ma, g0, 5, 0, 2, 4, 0⟩ : FM), ⟨.mb, g0, 5, 0, 2, 4, 0⟩],
    ∀ x ∈ [(Instr.lds f, 2 ^ 20), (.sts f, 2 ^ 20), (.lda f, 2 ^ 17), (.sta f, 2 ^ 17)],
      WellFormed x.1 = true ∧ sOdd.clearFor x.1 ∧ ¬ Spec.inStore (Spec.ea sOdd f.sl f.areg f.ofs.toInt 32) 32 x.2 := by
  simp only [State.clearFor, Spec.inStore]; decide +kernel

/-- The world with ma2 at 0x10000. -/
def sLong : State :=
  (world []).modCore 0 fun k => { k with be := { k.be with regs := { k.be.regs with ma := k.be.regs.ma.set 2 0x10000 } } }

theorem reaches0 {i : Instr} {ia : Nat} {rd wr at_ : Bool} (h : sLong.longIA i = .ok ia)
    (x : sLong.translateHome 0 ia rd wr = .ok 0x10000 0xF000000000010000 0) : Spec.reaches sLong i ia rd wr at_ := by
  have hp : sLong.partOf sLong.cur = 0 := by decide +kernel
  have hd : (sLong.core sLong.cur).dom = none := by decide +kernel
  refine ⟨h, 0x10000, 0xF000000000010000, 0, by rw [hp]; exact x, fun _ => ?_, ?_⟩
  · rw [hd]; exact ⟨_, rfl⟩
  · intro id d h; rw [hd] at h; cases h

theorem meets_LongMemoryForms :
    (WellFormed (.ldl (fm 3 0)) = true ∧ sLong.issues (.ldl (fm 3 0)) ∧ Spec.reaches sLong (.ldl (fm 3 0)) 0x10000 true false false) ∧
    (WellFormed (.stl (fm 4 0)) = true ∧ sLong.issues (.stl (fm 4 0)) ∧ Spec.reaches sLong (.stl (fm 4 0)) 0x10000 false true false) ∧
    (let f : FAmo := ⟨.ma, g0, 5, 3, 2, 3, 1, 0, 0⟩
     WellFormed (.amo f) = true ∧ sLong.issues (.amo f) ∧ Spec.reaches sLong (.amo f) 0x10000 true true true) := by
  simp only [State.issues]
  refine ⟨⟨?_, ?_, reaches0 ?_ ?_⟩, ⟨?_, ?_, reaches0 ?_ ?_⟩, ?_, ?_, reaches0 ?_ ?_⟩ <;> decide +kernel

theorem meets_AddressFormsAndRelease : s0.clearFor (.mli ⟨.ma, g0, 3, 0xFFFFFF⟩) ∧ s0.clearFor (.maddi ⟨.mb, g0, 3, 4, 0x80000⟩) ∧
    (WellFormed (.mcpx ⟨.ma, g0, 3, 4, 1⟩) = true ∧ s0.clearFor (.mcpx ⟨.ma, g0, 3, 4, 1⟩)) ∧ s0.clearFor (.rel ⟨.ma, g0, 2⟩) := by
  simp only [State.clearFor]; decide +kernel

/-- The world with streams 0 to 2 of kinds 0 to 2 on route 0, and a transfer of stream 0 that has come; ma2, sa2 zero. -/
def sFab : State :=
  (world []).modCore 0 fun k => { k with
    rng := k.rng.set 1 ⟨0xE000000000040000, 0xE00000000⟩
    fab := { k.fab with
      streams := ((k.fab.streams.set 0 ⟨0x8000000000000000, 0, 0⟩).set 1 ⟨0xA000000010000000, 0x40000, 0x10000000000⟩).set 2 ⟨0xC000000000000000, 0, 5⟩
      rx := k.fab.rx.set 0 (some ⟨⟨0, 0, 1, 0, 0, 0, 8, 0x77, false, 0, false, none, none⟩, 0, none⟩) } }

/-- SEND and RECV of va5 with 32 bytes on stream `x`. -/
def fx (x : BitVec 3) : FXD := ⟨g0, 5, 0, x, 4⟩

theorem meets_FabricSendReceive :
    (WellFormed (.send (fx 1)) = true ∧ sFab.issues (.send (fx 1)) ∧ (sFab.route (sFab.partOf sFab.cur) (sFab.stream 0 1).route).v = true) ∧
    (WellFormed (.recv (fx 0)) = true ∧ sFab.issues (.recv (fx 0)) ∧
      ∃ h, sFab.recvHeld sFab.cur 0 = some h ∧ h.flit.poisoned = false) := by
  simp only [State.issues]
  refine ⟨by decide +kernel, by decide +kernel, by decide +kernel, ⟨⟨0, 0, 1, 0, 0, 0, 8, 0x77, false, 0, false, none, none⟩, 0, none⟩, ?_⟩
  decide +kernel

theorem meets_FabricRemoteForms : ∀ x ∈ [(1 : BitVec 3), 2],
    (WellFormed (.rld ⟨g0, 5, 0, x, 4, false, 0⟩) = true ∧ sFab.issues (.rld ⟨g0, 5, 0, x, 4, false, 0⟩)) ∧
    (WellFormed (.ramo ⟨g0, 5, 3, x, 0, 0, 0⟩) = true ∧ sFab.issues (.ramo ⟨g0, 5, 3, x, 0, 0, 0⟩)) ∧
    freeLanding (sFab.core sFab.cur) = some 0 ∧
    WellFormed (.rst ⟨g0, 5, 0, x, 4, true, 0⟩) = true ∧ sFab.issues (.rst ⟨g0, 5, 0, x, 4, true, 0⟩) := by
  simp only [State.issues]; decide +kernel

theorem meets_FabricFlushAckWait : (∀ x ∈ [(0 : BitVec 3), 1, 2], sFab.issues (.flush ⟨g0, x⟩)) ∧ sFab.issues (.ackw ⟨g0, 1, 3⟩) := by
  simp only [State.issues]; decide +kernel

/-! ### The hypotheses of the bundle-engine statements are met -/

/-- A landing of sa3 that is due, issued at SC `n`. -/
def landing0 (n : Nat) : Landing :=
  { file := 0, reg := 3, lo := 0, len := 64, data := 7, due := 0, issue := n, rank := 0, flags := 1, flagSlot := 2, src := none }

/-- Core 0 with the landings given. -/
def landingIn (l : List Landing) : State := onCore fun k => { k with be := { k.be with landings := l } }

theorem meets_LandingOfResults :
    let s := landingIn [landing0 0, landing0 1]
    s.live s.cur = true ∧ Spec.landsNow s (landing0 0) ∧ Spec.landsNow s (landing0 1) ∧ Spec.writable 0 3 ∧
      Spec.laterThan (landing0 1) (landing0 0) := by
  simp only [Spec.landsNow, Spec.writable, Spec.laterThan]; decide +kernel

/-- A private-store access of one byte at `addr`, due now. -/
def access0 (kind : SpKind) (addr : Nat) : SpAccess :=
  { kind, addr, bytes := [5], len := 1, tag := 9, due := 0, issue := 0, rank := 6, id := 4, pc := 0, poison := false, keep := 0 }

/-- Core 0 with the accesses given, and a landing that waits for access 4. -/
def accessing (as : List SpAccess) : State :=
  onCore fun k => { k with be := { k.be with accesses := as, landings := [{ landing0 0 with src := some 4 }] } }

theorem meets_PrivateStoresPerform :
    (∀ x ∈ [(SpKind.store, 0xFFFFF), (.tagStore, 0xFFFFE), (.accStore, 0x1FFFF)],
      let s := accessing [access0 x.1 x.2]
      s.live s.cur = true ∧ (Spec.be s).accesses = [access0 x.1 x.2] ∧ 0 ≤ s.sc s.cur ∧
        Memory.wf (s.core s.cur).eng.spad = true ∧ Memory.wf (s.core s.cur).eng.accum = true ∧
        swf 0 (s.core s.cur).eng.tags = true) ∧
    (let s := accessing [access0 .store 3, access0 .load 3]
     s.live s.cur = true ∧ (Spec.be s).accesses = [access0 .store 3, access0 .load 3] ∧ 0 = s.sc s.cur ∧
       (s.core s.cur).eng.spadPoison = [] ∧ ∃ l ∈ (Spec.be s).landings, l.src = some 4) := by
  decide +kernel

/-- A bundle of ADD sa3, sa1, sa2 alone (R61, R105). -/
def bAdd : Nat := bundle 0x40 [(0, 0x000013120000)]

theorem meets_AnnulledEntry :
    let s := (running bAdd).modBe 0 fun b => { b with npq := #v[⟨0, true, 0⟩, ⟨1, false, 0⟩, ⟨2, false, 0⟩] }
    Spec.atStep s ∧ (Spec.npq (Spec.be s) 0).annul = true ∧ Spec.sequential (Spec.be s) (Spec.npq (Spec.be s) 2).addr := by
  simp only [Spec.atStep, Spec.sequential]; decide +kernel

theorem meets_BundleExecutes :
    let s := running bAdd
    let e := Spec.npq (Spec.be s) 0
    let s1 := s.modBe s.cur fun b => b.beginStep e.addr
    (Spec.atStep s ∧ Spec.noCounters s ∧ e.annul = false ∧ (s.core s.cur).eng.bundleAt e.addr = some bAdd ∧ forbidden bAdd = false ∧
      illegalSlots bAdd = []) ∧ s.wrmode s.cur ≠ 2 ∧ (legalOps bAdd).flatMap (slotEvents s1) = [] ∧
      (legalOps bAdd).any (fun i => slotStall s1 i) = false ∧ legalOps bAdd ≠ [] := by
  simp only [Spec.atStep, Spec.noCounters]; decide +kernel

theorem meets_ForbiddenBundleTraps :
    let v := bundle 0x10040 [(0, 0x000013120000)]
    let s := running v
    Spec.atStep s ∧ s.timed s.cur = false ∧ (s.core s.cur).dom = none ∧ (Spec.npq (Spec.be s) 0).annul = false ∧
      (s.core s.cur).eng.bundleAt (Spec.npq (Spec.be s) 0).addr = some v ∧ forbidden v = true := by
  simp only [Spec.atStep]; decide +kernel

theorem meets_BundleEngineTrap :
    let s := (running bAdd).modBe 0 fun b => { b with state := .trapping, trapEv := [(default, 5)] }
    s.live s.cur = true ∧ (Spec.be s).state = .trapping ∧ (Spec.be s).landings = [] ∧ (Spec.be s).micro = none := by
  decide +kernel

/-! ### The hypotheses of the control-core statements are met -/

/-- Core 0 in a mode, running, at 0x100, with x17 and mstatus as given. -/
def ccIn (mode : Mode) (a7 mstatus : Word) : State :=
  onCore fun k => { k with cc := { k.cc with
    mode, state := .running, pc := 0x100, mstatus, x := (k.cc.x.set 17 a7).set 10 0x40, mepc := 0x204, mip := 0x10000 } }

theorem meets_ControlCoreJumps : Spec.branchTaken .eq 3 3 ∧ ¬ Spec.branchTaken .eq 3 4 ∧ Spec.branchTaken .lt (-1) 0 ∧
    ¬ Spec.branchTaken .ltu (-1) 0 := by
  simp only [Spec.branchTaken]; decide +kernel

theorem meets_ControlCoreCsrs :
    let s := ccIn .m 0 0
    (∀ e ∈ Spec.csrMasks, Spec.csrReachable s e.1 ∧ (s.csrRead s.cur e.1).isSome = true) ∧ s.notInspecting ∧
      s.frozen s.cur = false ∧
      (∀ n ∈ [0xB00, 0xB02, 0x300], (Spec.cc s).mode = .m ∧ (s.csrRead s.cur n).isSome = true) ∧
      ∀ e ∈ Spec.csrFixed s, Spec.csrReachable s e.1 := by
  simp only [Spec.csrReachable, State.notInspecting]; decide +kernel

theorem meets_ControlCoreCsrFaults : ¬ Spec.csrReachable (ccIn .u 0 0) 0x300 ∧ ¬ Spec.csrReachable (ccIn .u 0 0) 0xC1F ∧
    Spec.csrReachable (ccIn .u 0 0) 0xC02 ∧ (0xC02 : BitVec 12).toNat / 1024 = 3 := by
  simp only [Spec.csrReachable]; decide +kernel

theorem meets_ControlCoreTraps : (Spec.cc (ccIn .m 0 0)).mode = .m ∧ ((Spec.cc (ccIn .u 5 0)).mode = .u ∧ Spec.xReg (ccIn .u 5 0) 17 ≠ 0) ∧
    (Spec.cc (ccIn .u 0 0)).mode = .u ∧ Spec.xReg (ccIn .u 0 0) 17 = 0 := by
  decide +kernel

theorem meets_ControlCoreSystem :
    let s := ccIn .m 0 0x1888
    let t := ccIn .u 0 0x200000
    let o := (ccIn .u 0 0).modCore 0 (setQueue .ce [entry0 0x12])
    ((s.core s.cur).eng.ceq = [] ∧ (s.core s.cur).eng.ce.active = []) ∧ (∃ e ∈ (o.core o.cur).eng.ceq, e.form = 0x12) ∧
      ((Spec.cc s).mode = .m ∧ s.notInspecting) ∧ (Spec.cc t).mode = .u ∧ (Spec.cc t).mstatus.getLsbD 21 = true := by
  simp only [State.notInspecting]; decide +kernel

/-- Core 0 in M mode, its monitor data memory holding 5 at its last doubleword, x10 the address of that. -/
def sMon : State := (ccIn .m 0 0).modCore 0 fun k => { k with cc := { k.cc with monMem := words [] 0x1FF8 [5], x := k.cc.x.set 10 0x1FF8 } }

theorem meets_ControlCoreMonitorMemory : Spec.inMonitor sMon (Spec.addr sMon 10 0) 8 ∧ Spec.inMonitor sMon (Spec.addr sMon 10 4) 4 ∧
    Spec.inMonitor sMon (Spec.xReg sMon 10).toNat 8 ∧ Memory.wf (Spec.cc sMon).monMem = true ∧ (Spec.cc sMon).resv = none ∧
    Spec.cleanMonitor sMon (Spec.addr sMon 10 0) 8 ∧
    Spec.cleanMonitor (sMon.modCore 0 fun k => { k with cc := { k.cc with monBad := [0x3FE] } }) (Spec.addr sMon 10 0) 8 := by
  simp only [Spec.inMonitor, Spec.cleanMonitor]; decide +kernel

/-- Core 0 in U mode with a stopped macro's event pending behind a bundle engine's. -/
def sIrq : State := (ccIn .u 0 0).modCore 0 fun k => { k with cc := { k.cc with
  mie := 0x70000, pendMacro := [({ (default : Ev) with cause := 0x14, engine := 2 }, 5, 6), ({ (default : Ev) with cause := 1, engine := 1 }, 7, 0)] } }

theorem meets_ControlCoreInterrupts :
    ((Spec.cc sIrq).mode = .u ∧ sIrq.notInspecting ∧ (Spec.cc sIrq).state = .running ∧ (Spec.cc sIrq).mie.getLsbD 16 = true ∧
      (Spec.cc sIrq).mie.getLsbD 17 = true ∧ (Spec.cc sIrq).mie.getLsbD 18 = true ∧ (Spec.be sIrq).pend14 = none) ∧
    (Spec.cc sIrq).pendMacro = [({ (default : Ev) with cause := 0x14, engine := 2 }, 5, 6)] ++ ({ (default : Ev) with cause := 1, engine := 1 }, 7, 0) :: [] ∧
    Spec.pendRank { (default : Ev) with cause := 1, engine := 1 } < Spec.pendRank { (default : Ev) with cause := 0x14, engine := 2 } ∧ ((Spec.cc (ccIn .m 0 0)).mode = .m ∧ (Spec.cc (ccIn .m 0 0)).mstatus.getLsbD 3 = false) := by
  simp only [State.notInspecting]; decide +kernel

/-! ### The hypotheses of the extension statements are met -/

/-- What `Spec.blockRead` asks for, computed: the reads of the block at `va` leave the state as it is and give `b`. -/
def readsBlock (s : State) (form va : Nat) (b : List Word) : Bool :=
  match s.blockWord va with
  | .ok (s1, h) => headerOk form [h] && match s1.blockWords va (8 * blkLen [h]) with
    | .ok (s2, b2) => decide (s2 = s ∧ b2 = b)
    | .error _ => false
  | .error _ => false

theorem blockRead_of {s : State} {form va : Nat} {b : List Word} (ha : va % 64 = 0) (h : readsBlock s form va b = true) :
    Spec.blockRead s form va s b := by
  unfold readsBlock at h
  refine ⟨ha, ?_⟩
  split at h
  · rename_i s1 w hw
    simp only [Bool.and_eq_true] at h
    obtain ⟨h1, h2⟩ := h
    split at h2
    · rename_i s2 b2 hb
      obtain ⟨rfl, rfl⟩ := of_decide_eq_true h2
      exact ⟨s1, w, hw, h1, hb⟩
    · cases h2
  · cases h

/-- The block of a form in the monitor memory of its world, as words. -/
def block0 (form : Nat) : List Word := (blockFor form).map (BitVec.ofNat 64)

theorem meets_MacroIssue : ∀ row ∈ Spec.macros, (world (blockFor row.2)).notInspecting ∧
    Spec.blockRead (world (blockFor row.2)) row.2 (Spec.xReg (world (blockFor row.2)) 0).toNat (world (blockFor row.2)) (block0 row.2) ∧
    Spec.admitted (world (blockFor row.2)) row.2 (block0 row.2) (Spec.xReg (world (blockFor row.2)) 0) := by
  have h : ∀ row ∈ Spec.macros, (world (blockFor row.2)).notInspecting ∧ (Spec.xReg (world (blockFor row.2)) 0).toNat % 64 = 0 ∧
      readsBlock (world (blockFor row.2)) row.2 (Spec.xReg (world (blockFor row.2)) 0).toNat (block0 row.2) = true ∧
      Spec.admitted (world (blockFor row.2)) row.2 (block0 row.2) (Spec.xReg (world (blockFor row.2)) 0) := by
    simp only [State.notInspecting, Spec.admitted]; decide +kernel
  exact fun row hr => ⟨(h row hr).1, blockRead_of (h row hr).2.1 (h row hr).2.2.1, (h row hr).2.2.2⟩

/-- Whether the word at `va` is `w` and reading it leaves the state as it is. -/
def readsWord (s : State) (va : Nat) (w : Word) : Bool :=
  match s.blockWord va with
  | .ok (s1, h) => decide (s1 = s ∧ h = w)
  | .error _ => false

theorem wordRead_of {s : State} {va : Nat} {w : Word} (h : readsWord s va w = true) : s.blockWord va = .ok (s, w) := by
  unfold readsWord at h
  split at h
  · rename_i s1 w1 hw
    obtain ⟨rfl, rfl⟩ := of_decide_eq_true h
    exact hw
  · cases h

/-- The monitor memory holding zeros, and x10 = 8. -/
def sBad : State := (world []).modCore 0 fun k => { k with cc := { k.cc with x := k.cc.x.set 10 8 } }

theorem meets_MacroIssueFaults :
    (sBad.notInspecting ∧ sBad.timed sBad.cur = false ∧ (Spec.xReg sBad 10).toNat % 64 ≠ 0) ∧
    (∀ row ∈ Spec.macros, (Spec.xReg sBad 0).toNat % 64 = 0 ∧
      ∃ h, sBad.blockWord (Spec.xReg sBad 0).toNat = .ok (sBad, h) ∧ headerOk row.2 [h] = false) ∧
    ¬ (sBad.modCore 0 fun k => { k with cc := { k.cc with inspect := some (0, .u, .running) } }).notInspecting := by
  have h : ∀ row ∈ Spec.macros, headerOk row.2 [0] = false := by decide +kernel
  have hb : sBad.blockWord 0 = .ok (sBad, 0) := wordRead_of (by decide +kernel)
  refine ⟨by simp only [State.notInspecting]; decide +kernel, fun row hr => ⟨by decide +kernel, 0, ?_, h row hr⟩, ?_⟩
  · have : (Spec.xReg sBad 0).toNat = 0 := by decide +kernel
    rw [this]; exact hb
  · simp only [State.notInspecting]; decide +kernel

/-- Core 0 with x10 = 2^63, x11 = 1, x12 = 9, x13 = 2^48 + 1, x14 = 300 and x15 = 5000; the bundle engine in a state. -/
def sExt (b : BeState) (mode : Mode) : State :=
  onCore fun k => { k with
    be := { k.be with state := b, epc := k.be.epc.set 0 0x8000000300000005, mstep := 0xA200000010 }
    cc := { k.cc with
      mode, calctl := 0x100, cnt := k.cc.cnt.set 0 4
      x := (((((k.cc.x.set 10 0x8000000000000000).set 11 1).set 12 9).set 13 0x1000000000001).set 14 300).set 15 5000 } }

theorem meets_BundleEngineStart :
    let s := sExt .idle .m
    let b := sExt .running .m
    (s.notInspecting ∧ (Spec.xReg s 12).toNat < 2 ^ 32 ∧ Spec.beIdle s ∧ Spec.startInTime s (Spec.xReg s 15) ∧
      Spec.sequential (Spec.be s) ((Spec.xReg s 12).setWidth 32) ∧ Spec.sequential (Spec.be s) ((Spec.xReg s 12).setWidth 32 + 1)) ∧
    ((Spec.xReg s 10).toNat = 2 ^ 63 ∧ (Spec.cc s).mode = .m ∧ s.timed s.cur = false) ∧
    (b.notInspecting ∧ ¬ Spec.beIdle b ∧ (Spec.cc b).mode = .m) ∧ 2 ^ 32 ≤ (Spec.xReg s 10).toNat ∧
    (Spec.cc (sExt .idle .u)).mode = .u := by
  simp only [State.notInspecting, Spec.beIdle, Spec.startInTime, Spec.sequential]; decide +kernel

/-- A store of a memory slot of core 0 on its way to virtual address 0x100. -/
def store0 : LongReq :=
  { id := 1, core := 0, dom := none, part := 0, timed := false, kind := .store, va := 0x100, ia := 0x100, bytes := 8, data := 0
    mask := 0xFF, keep := 0, op := 0, cmp := 0, due := 0, issue := 0, rank := 6, slot := 6, pc := 0, engine := 1, entry := 0
    xlat := .waiting, poison := false }

theorem meets_Waits :
    let s := sExt .idle .m
    let w := (world []).modCore 0 fun k => { k with cc := { k.cc with x := (k.cc.x.set 10 0x100).set 11 8 } }
    (s.notInspecting ∧ Spec.xReg s 0 = 0 ∧ Spec.beIdle s ∧ ¬ Spec.beIdle (sExt .running .m)) ∧
    (Spec.xReg s 11 ≠ 0 ∧ (Spec.xReg s 11).toNat < 2 ^ 32 ∧ Spec.issuedNo s .mx ((Spec.xReg s 11).setWidth 32) ∧
      ¬ Spec.issuedNo s .mx ((Spec.xReg s 12).setWidth 32)) ∧
    (2 ^ 48 < (Spec.xReg s 13).toNat) ∧
    (w.notInspecting ∧ 0 < (Spec.xReg w 11).toNat ∧ (Spec.xReg w 11).toNat ≤ 2 ^ 48 ∧ canonicalVA (Spec.xReg w 10).toNat = true ∧
      w.spanFault (w.partOf w.cur) (w.core w.cur).rng .engine ((Spec.xReg w 10).toNat % 2 ^ 57)
        ((Spec.xReg w 10).toNat % 2 ^ 57 + (Spec.xReg w 11).toNat - 1) false false = none) := by
  simp only [State.notInspecting, Spec.beIdle, Spec.issuedNo]; decide +kernel

theorem meets_WaitsEnd :
    (∀ st ∈ [CcState.waitEng 1 0, .waitRng 0 8 0, .waitSc 0, .waitRel 1 0, .waitFenceI, .waitOvly 1],
      let s := onCore fun k => { k with cc := { k.cc with state := st } }
      s.live s.cur = true ∧ s.waitOver s.cur = true ∧ (Spec.cc s).state = st) ∧
    let s := onCore fun k => { k with cc := { k.cc with state := .waitSc 9 } }
    s.live s.cur = true ∧ s.waitOver s.cur = false := by
  decide +kernel

theorem meets_ReleaseAndAcquire :
    let s := { world [] with mem := { (world []).mem with reqs := [{ store0 with issue := 0 }] }, basin := 4 }
    s.notInspecting ∧ ((Spec.cc s).l1.map Prod.fst).Nodup ∧ Spec.storing s (fun r => r.issue < s.sc s.cur) ∧
      ¬ Spec.storing (world []) (fun r => r.issue < (world []).sc (world []).cur) := by
  simp only [State.notInspecting, Spec.storing]; decide +kernel

theorem meets_RangesProgressAndDrift :
    let s := sExt .idle .m
    let u := sExt .idle .u
    s.notInspecting ∧ Spec.xReg s 0 = 0 ∧ Spec.xReg s 11 = 1 ∧ 0x100 ≤ (Spec.xReg s 14).toNat ∧ (Spec.cc s).mode = .m ∧
      (∀ e ∈ [2, 3, 4], (Spec.ownProg s e).state = 0) ∧ (Spec.cc u).mode = .u ∧ Spec.mayDrift s ∧ ¬ Spec.mayDrift u ∧
      Spec.driftAccepts s (Spec.xReg s 15).toNat 1 ∧ ¬ Spec.driftAccepts s (Spec.xReg s 14).toNat 1 ∧
      Spec.driftAccepts { s with drift := { s.drift with reqB := 4096 } } 4096 255 := by
  simp only [State.notInspecting, Spec.mayDrift, Spec.driftAccepts]; decide +kernel

/-! ### The hypotheses of the module statements are met -/

/-- Partition `p` of the reset state valid, with the quarters `q`. -/
def owning (s : State) (p size q : Nat) : State :=
  s.modPart p fun t => { t with words := t.words.set 0 (BitVec.ofNat 64 (2 ^ 63 + size * 2 ^ 61 + q * 2 ^ 56 + 0x460320)) }

/-- The module before each merge of R387, with the two partitions that join. -/
def joining : List (Nat × Nat × Nat × State) :=
  [(3, 0, 1, owning (owning State.reset 0 0 1) 1 0 2), (12, 2, 3, owning (owning State.reset 2 0 4) 3 0 8),
    (15, 0, 2, owning (owning State.reset 0 1 3) 2 1 12)]

/-- The module before each split, with the partition that is split and the one that takes its upper half. -/
def splitting : List (Nat × Nat × Nat × State) :=
  [(3, 0, 1, owning State.reset 0 1 3), (12, 2, 3, owning State.reset 2 1 12), (15, 0, 2, owning State.reset 0 2 15)]

/-- One domain of partition `p` running. -/
def busyIn (s : State) (p : Nat) : State := { s with doms := [(3, { domain0 .running false false with part := p })] }

theorem meets_ReadinessAndHold : Spec.exists_ (.link 31) ∧ Spec.exists_ (.fe 15) ∧ Spec.exists_ (.die 7) ∧
    Spec.exists_ (.stack 7) ∧ Spec.exists_ .hwa ∧ Spec.exists_ .hwb ∧ Spec.exists_ .eth ∧
    128 ≤ (128 : BitVec 16).toInt.natAbs ∧ 128 ≤ (0x8000 : BitVec 16).toInt.natAbs ∧ (0xFF81 : BitVec 16).toInt.natAbs < 128 := by
  simp only [Spec.exists_]; decide

theorem meets_MergeAndSplit :
    Spec.joins.map Prod.fst = joining.map Prod.fst ∧ Spec.joins.map Prod.fst = splitting.map Prod.fst ∧
    (∀ n ∈ [0, 1, 2], let row := Spec.joins.getD n (0, 0, 0, 0); let (q, lo, hi, s) := joining.getD n (0, 0, 0, .reset)
      lo < 4 ∧ hi < 4 ∧ lo < hi ∧ s.hw.updating = false ∧ Spec.holds s lo row.2.1 ∧ Spec.holds s hi row.2.2.1 ∧
      (∀ p < 4, p ≠ lo → p ≠ hi → bitOf (s.partWord p 0) 63 = true → s.partWord p 0 / 2 ^ 56 % 16 &&& q = 0) ∧
      bitOf row.2.1 lo = true ∧ (∀ k < lo, bitOf q k = false) ∧ Spec.quiet s [lo, hi] ∧
      (∃ e ∈ (busyIn s hi).doms, (e.2.part = lo ∨ e.2.part = hi) ∧ e.2.phase ≠ .ended)) ∧
    ∀ n ∈ [0, 1, 2], let row := Spec.joins.getD n (0, 0, 0, 0); let (q, lo, hi, s) := splitting.getD n (0, 0, 0, .reset)
      lo < 4 ∧ s.hw.updating = false ∧ Spec.holds s lo q ∧ bitOf row.2.1 lo = true ∧ (∀ k < lo, bitOf q k = false) ∧
      (∀ p < 4, p ≠ lo → bitOf (s.partWord p 0) 63 = true → s.partWord p 0 / 2 ^ 56 % 16 &&& q = 0) ∧ hi < 4 ∧
      bitOf row.2.2.1 hi = true ∧ (∀ k < hi, bitOf row.2.2.1 k = false) ∧ Spec.quiet s [lo] ∧
      (∃ e ∈ (busyIn s lo).doms, e.2.part = lo ∧ e.2.phase ≠ .ended) := by
  have hs : ∀ n ∈ [0, 1, 2], (joining.getD n (0, 0, 0, .reset)).2.2.2.io.slots = [] ∧ (splitting.getD n (0, 0, 0, .reset)).2.2.2.io.slots = [] ∧
      (joining.getD n (0, 0, 0, .reset)).2.2.2.doms = [] ∧ (splitting.getD n (0, 0, 0, .reset)).2.2.2.doms = [] := by decide +kernel
  have hq : ∀ (s : State) ps, s.doms = [] → s.io.slots = [] → Spec.quiet s ps := fun s ps h1 h2 => by
    refine ⟨?_, ?_⟩ <;> simp [h1, h2]
  refine ⟨by decide, by decide, fun n hn => ?_, fun n hn => ?_⟩
  · have h := hs n hn
    have : let row := Spec.joins.getD n (0, 0, 0, 0); let (q, lo, hi, s) := joining.getD n (0, 0, 0, .reset)
      (lo < 4 ∧ hi < 4 ∧ lo < hi ∧ s.hw.updating = false ∧ Spec.holds s lo row.2.1 ∧ Spec.holds s hi row.2.2.1 ∧
      (∀ p < 4, p ≠ lo → p ≠ hi → bitOf (s.partWord p 0) 63 = true → s.partWord p 0 / 2 ^ 56 % 16 &&& q = 0) ∧
      bitOf row.2.1 lo = true ∧ (∀ k < lo, bitOf q k = false)) ∧ 
      (∃ e ∈ (busyIn s hi).doms, (e.2.part = lo ∨ e.2.part = hi) ∧ e.2.phase ≠ .ended) := by
      revert n; simp only [Spec.holds]; decide +kernel
    obtain ⟨⟨a, b, c, d, e, f, g, i, j⟩, k⟩ := this
    exact ⟨a, b, c, d, e, f, g, i, j, hq _ _ h.2.2.1 h.1, k⟩
  · have h := hs n hn
    have : let row := Spec.joins.getD n (0, 0, 0, 0); let (q, lo, hi, s) := splitting.getD n (0, 0, 0, .reset)
      (lo < 4 ∧ s.hw.updating = false ∧ Spec.holds s lo q ∧ bitOf row.2.1 lo = true ∧ (∀ k < lo, bitOf q k = false) ∧
      (∀ p < 4, p ≠ lo → bitOf (s.partWord p 0) 63 = true → s.partWord p 0 / 2 ^ 56 % 16 &&& q = 0) ∧ hi < 4 ∧
      bitOf row.2.2.1 hi = true ∧ (∀ k < hi, bitOf row.2.2.1 k = false)) ∧
      (∃ e ∈ (busyIn s lo).doms, e.2.part = lo ∧ e.2.phase ≠ .ended) := by
      revert n; simp only [Spec.holds]; decide +kernel
    obtain ⟨⟨a, b, c, d, e, f, g, i, j⟩, k⟩ := this
    exact ⟨a, b, c, d, e, f, g, i, j, hq _ _ h.2.2.2 h.2.1, k⟩

theorem meets_FirmwareRequests :
    let s := State.reset
    let t := inDomain (world []) (domain0 .running true false)
    s.hw.updating = false ∧ s.agenda = [] ∧ s.drift.reqs = [] ∧ { s.hw with updating := true }.updating = true ∧ s.timed s.cur = false ∧ (Spec.be s).pend14 = none ∧
    (Spec.be (Spec.setBe s { Spec.be s with pend14 := some (default, 0) })).pend14 ≠ none ∧
    t.islandTimed 0 = true ∧ s.islandTimed 0 = false := by
  decide +kernel

theorem meets_RegisterAndTableWrites :
    swf (⟨0, 0⟩ : Rng) State.reset.mem.res = true ∧ Memory.wf (State.reset.core 0).eng.ispad = true ∧
    Memory.wf State.reset.mem.walkStore = true ∧
    ∀ r ∈ [RegTarget.partTable 3 15, .partTable 0 0, .boundary 7, .res 3 7 1, .ecc 3 0, .pgovf 2, .lost 3, .pcsel 5 7, .driften 9],
      (Spec.plainRegister r).isSome = true ∧
      (∀ p, r = .partTable p 0 → (5 : Word).getLsbD 60 = true → bitOf (State.reset.partWord p 0) 60 = true) ∧
    (∀ p < 4, (0x1000000000000000 : Word).getLsbD 60 = true ∧ bitOf (State.reset.partWord p 0) 60 = false) := by
  have h : (5 : Word).getLsbD 60 = false := by decide
  have hr : swf (⟨0, 0⟩ : Rng) State.reset.mem.res = true ∧ Memory.wf (State.reset.core 0).eng.ispad = true ∧
      Memory.wf State.reset.mem.walkStore = true ∧
      (∀ r ∈ [RegTarget.partTable 3 15, .partTable 0 0, .boundary 7, .res 3 7 1, .ecc 3 0, .pgovf 2, .lost 3, .pcsel 5 7, .driften 9],
        (Spec.plainRegister r).isSome = true) ∧
      (∀ p < 4, (0x1000000000000000 : Word).getLsbD 60 = true ∧ bitOf (State.reset.partWord p 0) 60 = false) := by decide +kernel
  exact ⟨hr.1, hr.2.1, hr.2.2.1, fun r m => ⟨hr.2.2.2.1 r m, fun p _ h5 => (by rw [h] at h5; cases h5), hr.2.2.2.2⟩⟩

/-! ### The hypotheses of the host statements are met -/

/-- Queue 0 with two records held since basin counts 90 and 95. -/
def sHeld : State := queues (rec0 3 5 0) [] [⟨[1, 2, 3, 4], 90⟩, ⟨[5, 6, 7, 8], 95⟩] none

/-- The value of a data doorbell. -/
def dbv (tail chead : Nat) : Word := BitVec.ofNat 64 (chead * 2 ^ 32 + tail)

theorem meets_Doorbells :
    (Spec.mapped sHeld 0 0 ∧ Spec.doorbellOk sHeld 0 0xABCD) ∧
    (Spec.accepted341 (sHeld.slot 0).rec_ (dbv 5 0) ∧ Spec.accepted341 (sHeld.slot 0).rec_ (dbv 67 64)) ∧
    (¬ Spec.accepted341 (sHeld.slot 0).rec_ (dbv 68 0) ∧ ¬ Spec.accepted341 (sHeld.slot 0).rec_ (dbv 4 0) ∧
      ¬ Spec.accepted341 (sHeld.slot 0).rec_ (dbv 5 65)) ∧
    (Spec.stateOf (rec0 3 5 0) = 0 ∧ Spec.stateOf (rec0 3 5 1) = 1 ∧ Spec.stateOf (rec0 3 5 2) = 2) ∧
    Spec.recGet (sHeld.queueRec 0) 5 0 32 ≠ (1 : BitVec 32).toNat ∧ sHeld.partOfQueue 40000 = none := by
  have hr : (sHeld.slot 0).rec_ = rec0 3 5 0 := by decide +kernel
  refine ⟨by simp only [Spec.mapped, Spec.doorbellOk]; decide +kernel, ?_, ?_, by decide +kernel, by decide +kernel, by decide +kernel⟩ <;>
    rw [hr] <;> unfold Spec.accepted341
  · exact ⟨by decide +kernel, by decide +kernel⟩
  · exact ⟨by decide +kernel, by decide +kernel, by decide +kernel⟩

/-- Queue 9 waiting to be mapped, its record in the table of partition 0. -/
def sMap : State :=
  let s := (queues (rec0 0 0 0) [] [] none).modPart 0 fun t => { t with pending := [9, 4, 9], words := t.words.set 1 0x2F000 }
  { s with mem := { s.mem with hbm := words s.mem.hbm (0x2F000 + 64 * 9) ((rec0 1 4 0).w.toList.map BitVec.toNat) } }

/-- Queue 0 with a command at the head of its ring. -/
def sRing (ws : List Nat) : State :=
  let s := queues (rec0 0 5 0) [] [] none
  { s with mem := { s.mem with hbm := words s.mem.hbm 0x30000 ws } }

theorem meets_MappingAndDispatch :
    ((sMap.part 0).pending = [9, 4, 9] ∧ sMap.hw.updating = false ∧ sMap.mapSlot 0 = some 1 ∧ (sMap.slot 1).queue = none ∧
      (sMap.queueRec 9).inRange = true ∧ Spec.recGet (sMap.queueRec 9) 0 63 1 = 1) ∧
    (∀ ws ∈ [[4 + 256], [5], [3, 0, 7], [6]], let s := sRing ws
      sget s.io.disps 0 = none ∧ s.dispatchSlot 0 = some 0 ∧ (s.slot 0).queue = some 0 ∧ s.slotOf 0 = some 0 ∧
      s.cmdValid ((s.partOfQueue 0).getD 0) (s.nextCmd ((s.partOfQueue 0).getD 0) (s.slot 0).rec_) = decide (ws ≠ [6])) ∧
    (sget (launches launch5).io.disps 0).isSome = true ∧ (sRing [5]).dispatchSlot 1 = none ∧ (sRing [5]).slotReady 0 = true := by
  decide +kernel

/-- Queue 0 with a command in execution and at hand. -/
def sHand (c : Cmd) : State := queues (rec0 3 5 0) [c] [] (some c)

/-- Whether the sector at `ia` is one that `Spec.plainSector` describes, with `a` its byte's place. -/
def sectorAt (s : State) (p ia n : Nat) (rd wr : Bool) (a : Nat) : Bool :=
  match s.translateHome p ia rd wr with
  | .ok pa leaf size => decide (0 < n ∧ ia % 64 + n ≤ 64 ∧ leaf.getLsbD 59 = false ∧ a = (s.home p ia).1 * 2 ^ 36 + pa ∧
      (s.cachedLeaf p (s.home p ia).1 (s.home p ia).2).isSome = true ∧
      s.mem.delta (((s.home p ia).1 * 2 ^ 36 + pa) / 64) (leaf.toNat / 2 ^ 54 % 16)
        ((s.home p ia).2 % 2 ^ (16 + 5 * size) / 64 * 512) = 0 ∧ pa % 64 = ia % 64)
  | _ => false

theorem plainSector_of {s : State} {p ia n : Nat} {rd wr : Bool} {a : Nat} (h : sectorAt s p ia n rd wr a = true) :
    Spec.plainSector s p ia n rd wr a := by
  unfold sectorAt at h
  split at h
  · rename_i pa leaf size ht
    obtain ⟨h1, h2, h3, h4, h5, h6, h7⟩ := of_decide_eq_true h
    exact ⟨h1, h2, pa, leaf, size, ht, h3, h4, .inl h5, h6, h7⟩
  · cases h

theorem meets_HostCommands :
    (∀ op ∈ [2, 3, 4, 5], Spec.hand (sHand (cmd0 [op])) 0 0 0 op (cmd0 [op]) ∧
      Spec.executing (sHand (cmd0 [op])) 0 0 op (cmd0 [op])) ∧
    (Spec.executing (sHand (cmd0 [3, 0, 0])) 0 0 3 (cmd0 [3, 0, 0]) ∧ Spec.executing (sHand (cmd0 [3, 0, 1])) 0 0 3 (cmd0 [3, 0, 1]) ∧
      Spec.seqOf ((sHand (cmd0 [3, 0, 0])).queueRec 0) = 0 ∧ Spec.seqOf ((sHand (cmd0 [3, 0, 1])).queueRec 0) = 0 ∧
      ((BitVec.ofNat 32 0 - ((cmd0 [3, 0, 0]).words.getD 2 0).setWidth 32) : Half).toNat < 2 ^ 31 ∧
      ¬ ((BitVec.ofNat 32 0 - ((cmd0 [3, 0, 1]).words.getD 2 0).setWidth 32) : Half).toNat < 2 ^ 31) ∧
    (let c := cmd0 [5]; let o := { cmd0 [4] with idx := 2 }; let s := queues (rec0 3 5 0) [o, c] [] none
      ((sHand c).slot 0).execs.head? = some c ∧ Spec.executing s 0 0 5 c ∧
      ∀ e, (s.slot 0).execs.head? = some e → e.idx ≠ c.idx) ∧
    (let c := { cmd0 [2, 0, 0, 100] with written := 100 }; Spec.executing (sHand c) 0 0 2 c ∧ Spec.noHostSide (sHand c) 0 c ∧
      c.failed = none ∧ c.written = (c.words.getD 3 0).toNat % 2 ^ 32) ∧
    (let c := { cmd0 [2, 0, 0, 100] with failed := some 14 }; Spec.executing (sHand c) 0 0 2 c ∧ Spec.noHostSide (sHand c) 0 c ∧
      c.failed = some 14) ∧
    let c := cmd0 [2, 0x1008, 0x2010, 48]
    let s := sHand c
    Spec.hand s 0 0 0 2 c ∧ (c.words.getD 4 0).toNat / 2 ^ 62 = 0 ∧ Spec.plainSector s 0 0x1008 48 true false 0x1008 ∧
      Spec.plainSector s 0 0x2010 48 false true 0x2010 ∧ Memory.wf s.mem.hbm = true := by
  have hp : sectorAt (sHand (cmd0 [2, 0x1008, 0x2010, 48])) 0 0x1008 48 true false 0x1008 = true ∧
    sectorAt (sHand (cmd0 [2, 0x1008, 0x2010, 48])) 0 0x2010 48 false true 0x2010 = true ∧
    Memory.wf (sHand (cmd0 [2, 0x1008, 0x2010, 48])).mem.hbm = true := by decide +kernel
  have hh : ∀ c ∈ [cmd0 [2], cmd0 [3], cmd0 [4], cmd0 [5], cmd0 [3, 0, 0], cmd0 [3, 0, 1],
      { cmd0 [2, 0, 0, 100] with written := 100 }, { cmd0 [2, 0, 0, 100] with failed := some 14 }, cmd0 [2, 0x1008, 0x2010, 48]],
      Spec.hand (sHand c) 0 0 0 c.opcode c ∧ Spec.executing (sHand c) 0 0 c.opcode c := by
    simp only [Spec.hand, Spec.executing]; decide +kernel
  refine ⟨?_, ?_, ?_, ?_, ?_, ?_⟩
  · simp only [Spec.hand, Spec.executing]; decide +kernel
  · exact ⟨(hh _ (by simp)).2, (hh _ (by simp)).2, by decide +kernel, by decide +kernel, by decide +kernel, by decide +kernel⟩
  · refine ⟨by decide +kernel, by simp only [Spec.executing]; decide +kernel, ?_⟩
    intro e he
    have : ∀ e ∈ ((queues (rec0 3 5 0) [{ cmd0 [4] with idx := 2 }, cmd0 [5]] [] none).slot 0).execs.head?, e.idx ≠ (cmd0 [5]).idx := by
      decide +kernel
    exact this e he
  · exact ⟨(hh _ (by simp)).2, fun _ h => (nomatch h), rfl, by decide⟩
  · exact ⟨(hh _ (by simp)).2, fun _ h => (nomatch h), rfl⟩
  · exact ⟨(hh _ (by simp)).1, by decide, plainSector_of hp.1, plainSector_of hp.2.1, hp.2.2⟩

theorem meets_Coalescing :
    let r := (sHeld.slot 0).rec_
    (sHeld.slotOf 0 = some 0 ∧ (sHeld.slot 0).held.head? = some ⟨[1, 2, 3, 4], 90⟩ ∧
      (sHeld.slot 0).held.getLast? = some ⟨[5, 6, 7, 8], 95⟩) ∧
    (∀ b ∈ [95 + 1600, 90 + 3200], 95 + Spec.recGet r 7 8 8 * 1600 ≤ b) ∧ 95 + 1599 < 95 + Spec.recGet r 7 8 8 * 1600 ∧
    90 + Spec.recGet r 7 0 8 * 1600 ≤ 90 + 3200 ∧ 90 + 3199 < 90 + Spec.recGet r 7 0 8 * 1600 ∧
    9 ≤ ((sHeld.modPart 0 fun p => { p with fqHead := 250, fqCount := 9 }).part 0).fqCount := by
  decide +kernel

/-! ### The hypotheses of the launch statements are met -/

/-- A timetable entry, `gangs`, and `d` of `domain0`, of core 0, with a phase. -/
def armedIn (clearing : Bool) : State :=
  (inDomain (launches launch5) (domain0 .armed false false)).modCore 0 fun k => { k with clearing }

theorem lone_piece (a : Nat) (h : a % 64 ≤ 56) : piecesOf a 8 = [⟨0, 8⟩] := by
  simp [piecesOf, pieces]; omega

/-- Partition 0 has its table of plans where no page is present. -/
def unplanned (s : State) : Prop :=
  s.stacksOf 0 = [0] ∧ (∀ t ∈ s.mem.tlb, t.block < 16) ∧ s.partWord 0 8 = 0 ∧ s.mem.tableWord 0 0 = some 0 ∧
    s.ready.stack.getLsbD 0 = true ∧ s.partWord 0 4 = 0x100000

theorem not_translated {s : State} (hs : unplanned s) (a : Nat) (h1 : 0x100000 ≤ a) (h2 : a < 0x110000) :
    s.translateHome 0 a true false = .fault 1 0 := by
  obtain ⟨hk, ht, hr, h0, hrd, -⟩ := hs
  have hh : s.home 0 a = (0, a) := by
    simp [State.home, hk]; omega
  have hc : s.cachedLeaf 0 0 a = none := by
    simp only [State.cachedLeaf, List.find?_eq_none]
    intro t h
    have := ht t h
    simp; omega
  have hi : walkIndex 0 a = 0 := by simp [walkIndex, bitsOf]; omega
  have hw : s.walk 0 0 a true false = .notPresent 0 := by
    have h63 : bitOf 0 63 = false := by decide
    simp [State.walk, hr, bitsOf, walkFrom, hi, h0, h63]
  simp [State.translateHome, hh, hrd, hc, hw]

theorem planRoutes_none {s : State} (hs : unplanned s) (cs : List Nat) : s.planRoutes 0 cs = [] := by
  have h : ∀ i ∈ List.range 4096, s.planRecord 0 i = none := by
    intro i hi
    have hi := List.mem_range.mp hi
    have : s.iaWord 0 (0x100000 + 8 * i) = 0 := by
      have := not_translated hs (0x100000 + 8 * i) (by omega) (by omega)
      simp [State.iaWord, State.iaBytes, lone_piece (0x100000 + 8 * i) (by omega), this, State.memRead, State.memReadAs]
      decide
    simp [State.planRecord, hs.2.2.2.2.2, this, bitOf]
  have : s.plansOf 0 cs = [] := by
    simp only [State.plansOf, List.filter_eq_nil_iff, List.mem_filterMap]
    rintro a ⟨i, hi, ha⟩
    simp [h i hi] at ha
  simp [State.planRoutes, this]

theorem launches_unplanned : unplanned (Spec.handedOver (launches launch5) 0) := by unfold unplanned; decide +kernel

/-- The record of launch 5 with an uncorrectable sector. -/
def launchesBad : State :=
  let s := launches launch5
  { s with mem := { s.mem with check := [(0x24000 / 64, 0x0101010101010101)] } }

theorem meets_LaunchBegins :
    (let s := { launches launch5 with ready := { (launches launch5).ready with die := 0 } }; let s1 := Spec.handedOver s 0
      Spec.hand s 0 0 0 1 launch5 ∧ s1.launchStatus 0 0 launch5 (s1.timetable 0 5) = 4 ∧
      (s1.readTimetable 0 5).2 = none) ∧
    (Spec.hand launchesBad 0 0 0 1 launch5 ∧ (((Spec.handedOver launchesBad 0).readTimetable 0 5).2.isSome = true)) ∧
    (let s := launches launch5; let s1 := Spec.handedOver s 0
      Spec.hand s 0 0 0 1 launch5 ∧ (s.partOfQueue 0).getD 0 = 0 ∧ ∃ tt, s1.timetable 0 5 = some tt ∧
      s1.launchStatus 0 0 launch5 (some tt) = 0 ∧ tt.cores = [(0, 0)] ∧ (s1.readTimetable 0 5).2 = none) ∧
    (let s := (world []).modCore 0 (fun k => { k with clearing := true }); (s.core s.cur).clearing = true ∧ s.domOf s.cur = none) ∧
    (let s := armedIn true; let d := domain0 .armed false false
      (s.core s.cur).clearing = true ∧ (s.core s.cur).dom = some 3 ∧ s.dom 3 = some d ∧ d.phase = .armed ∧ d.basin = false ∧
      (let u := s.modCore s.cur fun k => { k with clearing := false }; (u.timetable d.part d.timetable).isSome = true ∧ (u.readTimetable d.part d.timetable).2 = none) ∧ ∀ k ∈ d.cores, k.1 ≠ s.cur → (s.core k.1).clearing = false) ∧
    (let s := armedIn false; let d := domain0 .armed false false
      s.dom 3 = some d ∧ (∀ k ∈ d.cores, (s.core k.1).clearing = false) ∧ d.gangs[0]? = some (50, 0x400)) ∧
    let s := { inDomain (launches launch5) (domain0 .running false false) with basin := 1050 }
    let d := domain0 .running false false
    s.dom 3 = some d ∧ d.phase = .running ∧ (50 : Word).toNat ≤ d.sc s.basin ∧ d.sc 1049 < (50 : Word).toNat := by
  have h : ((Spec.handedOver (launches launch5) 0).timetable 0 5).any (fun tt =>
      decide ((Spec.handedOver (launches launch5) 0).launchStatus 0 0 launch5 (some tt) = 0 ∧ tt.cores = [(0, 0)])) = true := by
    simp only [State.launchStatus, State.launchReady, planRoutes_none launches_unplanned, List.all_nil, Bool.and_true]
    decide +kernel
  refine ⟨by simp only [Spec.hand]; decide +kernel, by simp only [Spec.hand]; decide +kernel,
    ⟨by simp only [Spec.hand]; decide +kernel, by decide +kernel, ?_⟩, by decide +kernel,
    by decide +kernel, by decide +kernel, by decide +kernel⟩
  obtain ⟨tt, h1, h2⟩ := (Option.any_eq_true _ _).mp h
  have h2 := of_decide_eq_true h2
  exact ⟨tt, h1, h2.1, h2.2, by decide +kernel⟩

/-- Launch 5 in execution as domain 3 in a phase. -/
def cmd3 : Cmd := { launch5 with dom := some 3 }

/-- Domain 3 with its core in a state. -/
def launchedAt (d : Domain) (st : CcState) : State :=
  (launched d).modCore 0 fun k => { k with cc := { k.cc with state := st } }

/-- Domain 3 and its launch in a phase. -/
theorem launched_runs : ∀ ph ∈ [Phase.armed, .running, .frozen, .evicted, .ended], let d := domain0 ph false false
    (launchedAt d .finished).dom 3 = some d ∧ Spec.runs (launchedAt d .finished) 0 d cmd3 ∧ Spec.once d.cores := by
  simp only [Spec.runs, Spec.executing, Spec.once]; decide +kernel

theorem meets_LaunchEnds :
    (let d := domain0 .running false false; let s := launchedAt d .ending
      (s.core s.cur).dom = some 3 ∧ s.dom 3 = some d ∧ s.canFinish s.cur = true ∧
      (launchedAt d .running).canFinish (launchedAt d .running).cur = false) ∧
    (let d := domain0 .running false false; let s := launchedAt d .finished
      s.dom 3 = some d ∧ s.retireReady 3 d = true ∧ Spec.runs s 0 d cmd3 ∧ Spec.flushes s 3 d ∧ Spec.once d.cores ∧
      (launchedAt d .ending).retireReady 3 d = false) ∧
    (∀ ph ∈ [Phase.armed, .running, .frozen, .evicted], let d := domain0 ph false false
      (launchedAt d .finished).dom 3 = some d ∧ Spec.runs (launchedAt d .finished) 0 d cmd3 ∧ d.phase ≠ .ended ∧
      Spec.once d.cores) ∧
    (let d := domain0 .ended false false; (launchedAt d .finished).dom 3 = some d ∧ d.phase = .ended) ∧
    (let d := domain0 .running false true; let s := launched d
      let n : Notice := { target := (launched d).moduleId, path := [], timetable := 5, run := 1000, resp := 5, replays := 0, ba := 0, cause := 1, subcause := 0 }
      s.doms.find? (fun e => Spec.noticed n e.2) = some (3, d) ∧ s.dom 3 = some d ∧ n.resp = 5 ∧ d.replays = n.replays ∧ Spec.fresh s n ∧
      d.replayBa = none ∧ d.phase ≠ .evicted ∧ n.target = s.moduleId ∧
      s.doms.find? (fun e => Spec.noticed { n with resp := 4 } e.2) = some (3, d) ∧ 7 ≠ s.moduleId ∧
      Spec.once d.cores ∧ ∀ e ∈ (launched (domain0 .running false false)).doms, Spec.noticed n e.2 = false) ∧
    let d := { domain0 .armed false true with replayBa := some 5 }
    (launched d).dom 3 = some d ∧ d.phase = .armed ∧ d.replayBa = some 5 ∧ 5 + 2 ^ 20 < { launched d with basin := 2 ^ 21 }.basin ∧
      (launched d).basin ≤ 5 + 2 ^ 20 := by
  refine ⟨by decide +kernel, ?_, ?_, by decide +kernel, by simp only [Spec.once, Spec.fresh]; decide +kernel, by decide +kernel⟩
  · have h := launched_runs .running (by simp)
    exact ⟨h.1, by decide +kernel, h.2.1, ⟨_, rfl, by decide +kernel, by decide +kernel⟩, h.2.2, by decide +kernel⟩
  · intro ph hp
    have h := launched_runs ph (by revert ph; decide)
    exact ⟨h.1, h.2.1, by clear h; revert ph; decide, h.2.2⟩

theorem meets_FreezeAndResume :
    (∀ ph ∈ [Phase.running, .frozen], (launched (domain0 ph false false)).dom 3 = some (domain0 ph false false)) ∧
    (launched (domain0 .running false true)).dom 3 = some (domain0 .running false true) ∧
    (let d := { domain0 .running false false with fpt := some 99000 }; let s := launched d
      s.dom 3 = some d ∧ d.phase = .running ∧ d.fpt = some 99000 ∧ 99000 ≤ d.sc s.basin ∧ d.sc (s.basin - 1) < 99000) ∧
    (let s := launched (domain0 .frozen false false); ∀ r ∈ s.mem.reqs, r.dom ≠ some 3) ∧
    (let d := { domain0 .frozen false false with resumeAt := some 100000 }; let s := launched d
      s.dom 3 = some d ∧ d.phase = .frozen ∧ d.resumeAt = some 100000 ∧ 100000 ≤ s.basin ∧ d.b0 + d.h ≤ d.frozenAt ∧
      d.frozenAt ≤ s.basin ∧ d.later = [] ∧ s.inspecting d = false ∧
      (s.modCore 0 fun k => { k with cc := { k.cc with inspect := some (0, .u, .running) } }).inspecting d = true) ∧
    let s := launched (domain0 .frozen false false)
    Spec.once (domain0 .frozen false false).cores ∧ ¬ Spec.inspectable (s.core 0) ∧
      Spec.inspectable ((s.modCore 0 fun k => { k with cc := { k.cc with mie := 0x70000, mode := .u } }).core 0) := by
  simp only [Spec.once, Spec.inspectable]; decide +kernel

/-- A core as an eviction saved it. -/
def saved0 : Core :=
  let k := (launched (domain0 .frozen false false)).core 0
  { k with cc := { k.cc with pc := 0x444 } }

/-- Domain 3 evicted, its core 0 free again. -/
def evictedAs (k : Core) : State :=
  { queues (rec0 3 5 0) [cmd3] [] none with
    doms := [(3, { domain0 .evicted false false with saveIA := some 0x10000, saved := [(0, k)] })] }

/-- A core saved while it waited for one late reply into its landing slot 255. -/
def savedLate : Core :=
  { saved0 with fab := { saved0.fab with loads := [(255, 4, 9, 1)], landing := [(255, 0xF0)] } }

/-- A domain evicted to 0x10000, the pages of its save area present. -/
def evictedPaged (k : Core) : State :=
  let s := evictedAs k
  { s with mem := { s.mem with
      tlb := (List.range 40).map fun n =>
        { stack := 0, part := 0, block := n, leaf := BitVec.ofNat 64 (0xF000000000000000 + n * 65536), size := 0, pins := [] } } }

theorem paged_translates (k : Core) (a : Nat) (h : a < 40 * 65536) :
    ∃ pa leaf size, (evictedPaged k).translateHome 0 a true false = .ok pa leaf size ∧ bitsOf leaf.toNat 54 4 = 0 ∧
      leaf.getLsbD 59 = false := by
  have hk : (evictedPaged k).stacksOf 0 = [0] := (by decide +kernel : (evictedPaged Core.reset).stacksOf 0 = [0])
  have hr : (evictedPaged k).ready.stack.getLsbD 0 = true := (by decide +kernel : (evictedPaged Core.reset).ready.stack.getLsbD 0 = true)
  have hh : (evictedPaged k).home 0 a = (0, a) := by simp [State.home, hk]; omega
  have hc : ∀ n, n < 40 → ((evictedPaged Core.reset).mem.tlb.find? fun t => t.stack == 0 && t.part == 0 && t.block == n).any fun e =>
      (bitOf e.leaf.toNat 61 && bitsOf e.leaf.toNat 54 4 == 0 && !e.leaf.getLsbD 59 &&
        decide (BitVec.ofNat 64 e.leaf.toNat = e.leaf)) = true := by decide +kernel
  obtain ⟨e, he, hb⟩ := (Option.any_eq_true _ _).mp (hc (a / 65536) (by omega))
  have he : (evictedPaged k).cachedLeaf 0 0 a = some e := he
  simp only [Bool.and_eq_true, decide_eq_true_eq, Bool.not_eq_true', beq_iff_eq] at hb
  obtain ⟨⟨⟨h61, h54⟩, h59⟩, hw⟩ := hb
  refine ⟨leafPa e.leaf.toNat e.size a, e.leaf, e.size, ?_, h54, h59⟩
  simp [State.translateHome, hh, hr, he, leafXlat, h61]

theorem paged_clean (k : Core) (n : Nat) (h : n ≤ imageSize) : ((evictedPaged k).iaRead 0 0x10000 n).2 = [] :=
  (State.iaRead_plain (s := evictedPaged k) rfl rfl 0 0x10000 n
    (fun o ho => paged_translates k _ (by unfold imageSize at h; omega))).2

/-- A save area that is present and without error is readable. -/
theorem readArea_none {s : State} {d : Domain} {ia n : Nat}
    (h : ∀ i, ∃ pa leaf size, s.translateHome d.part (ia + min (65536 * i) (imageSize * n - 1)) true false = .ok pa leaf size)
    (hr : (s.iaRead d.part ia (imageSize * n)).2 = []) : (s.readArea d ia n).2 = none := by
  unfold State.readArea
  dsimp only
  split
  · rename_i i hi
    have hi := List.find?_some hi
    obtain ⟨pa, leaf, size, ht⟩ := h i
    rw [ht] at hi
    cases hi
  · rw [hr]; rfl

theorem paged_readable (k : Core) (d : Domain) (hp : d.part = 0) : ((evictedPaged k).readArea d 0x10000 1).2 = none := by
  refine readArea_none (fun i => ?_) ?_ <;> rw [hp]
  · obtain ⟨pa, leaf, size, h, -⟩ := paged_translates k (0x10000 + min (65536 * i) (imageSize * 1 - 1)) (by unfold imageSize; omega)
    exact ⟨pa, leaf, size, h⟩
  · exact paged_clean k _ (by omega)

theorem meets_EvictionAndRestore :
    (let d := { domain0 .frozen false false with cores := [] }
      let s := (launched d).modCore 0 fun k => { k with dom := none }
      s.dom 3 = some d ∧ d.phase = .frozen ∧ s.heldShared d = false ∧ s.flushStop d = none ∧ Spec.runs s 0 d cmd3 ∧ Spec.once d.cores ∧
      ((d.sorted.foldl (fun s c => s.flushL1 c true) s).writeImages d 0x10000).2 = true) ∧
    (launched (domain0 .running false false)).dom 3 = some (domain0 .running false false) ∧
    (let s := evictedPaged saved0; let d := { domain0 .evicted false false with saveIA := some 0x10000, saved := [(0, saved0)] }
      s.dom 3 = some d ∧ d.phase = .evicted ∧ (d.saved.map Prod.fst).Nodup ∧
      (∀ k ∈ d.saved, (s.core k.1).dom = none ∧ (s.core k.1).clearing = false ∧ (s.core k.1).fenced = false ∧
        k.2.fab.landingValid = 0) ∧ (s.readArea d 0x10000 d.saved.length).2 = none ∧
      ∃ k ∈ d.saved, ((s.modCore 0 fun k => { k with clearing := true }).core k.1).clearing = true) ∧
    (let s := evictedAs savedLate
      let d := { domain0 .evicted false false with saveIA := some 0x10000, saved := [(0, savedLate)] }
      s.lateDom 0 255 = some (3, d) ∧ d.saved = [(0, savedLate)] ∧ savedLate.fab.loads = [(255, 4, 9, 1)] ∧
      s.lateDom 0 254 = none) ∧
    let d := domain0 .frozen false false
    let s := { launched d with seqs := [(0, { SeqState.reset with active := [⟨entry0 0x20, 20, 0, 0, 1, []⟩] })] }
    s.dom 3 = some d ∧ d.phase = .frozen ∧ s.heldShared d = true := by
  refine ⟨by simp only [Spec.runs, Spec.executing, Spec.once]; decide +kernel, by decide +kernel,
    ⟨by decide +kernel, by decide +kernel, by decide +kernel, by decide +kernel, paged_readable _ _ (by decide +kernel),
      by decide +kernel⟩, by decide +kernel, by decide +kernel⟩

/-- Queue 0 with the watchdog limits `w1`, `w2` and `w3`, a command in execution and domain 3, at a basin count. -/
def watched (w1 w2 w3 : Nat) (d : Domain) (b : Nat) (c : Cmd) : State :=
  inDomain { queues ⟨(rec0 3 5 0).w.set 6 (BitVec.ofNat 64 (w1 * 2 ^ 40 + w2 * 2 ^ 20 + w3))⟩ [c] [] none with basin := b } d

theorem meets_Watchdog :
    (let d := domain0 .running false false; let s := watched 1 0 0 d (1000 + 16384) cmd3
      Spec.executing s 0 0 1 cmd3 ∧ s.dom 3 = some d ∧ d.phase = .running ∧ d.basin = false ∧ d.stage1Done = false ∧
      Spec.recGet (s.slot 0).rec_ 6 40 20 = 1 ∧
      Spec.recGet (s.slot 0).rec_ 6 20 20 = 0 ∧ 1 * 16384 ≤ d.sc s.basin ∧ d.sc (1000 + 16383) < 1 * 16384) ∧
    (let d := domain0 .running false false; let s := watched 1 2 0 d (100 + 2 * 16384) cmd3
      Spec.executing s 0 0 1 cmd3 ∧ s.dom 3 = some d ∧ d.phase ≠ .ended ∧ d.resp = none ∧ Spec.recGet (s.slot 0).rec_ 6 20 20 = 2 ∧
      cmd3.at_ + 2 * 16384 ≤ s.basin ∧ 99 + 2 * 16384 < cmd3.at_ + 2 * 16384) ∧
    (∀ op ∈ [2, 3], let c := cmd0 [op, 0, 0]; let s := watched 1 2 0 (domain0 .running false false) (100 + 2 * 16384) c
      Spec.executing s 0 0 op c ∧ Spec.recGet (s.slot 0).rec_ 6 20 20 = 2 ∧ c.at_ + 2 * 16384 ≤ s.basin) ∧
    let d := { domain0 .ended false false with killAt := some 50 }
    let s := watched 1 2 3 d (50 + 3 * 16384) cmd3
    s.dom 3 = some d ∧ d.phase = .ended ∧ d.killAt = some 50 ∧ s.slotOf d.queue = some 0 ∧ Spec.once d.cores ∧
      Spec.recGet (s.slot 0).rec_ 6 0 20 = 3 ∧ 50 + 3 * 16384 ≤ s.basin ∧ 49 + 3 * 16384 < 50 + 3 * 16384 := by
  simp only [Spec.executing, Spec.once]; decide +kernel

/-! ### The hypotheses of the memory-side statements are met -/

/-- A request of a memory slot of core 0 for the 8 bytes at 0x30010, translated. -/
def req0 (k : ReqKind) (id : Nat) : LongReq :=
  { store0 with id, kind := k, va := 0x10, ia := 0x30010, data := 0x8877665544332211, mask := 0xF3, xlat := .ok 0x30010 0xF000000000030000 0 }

/-- The world at basin count 1000 with requests under way. -/
def asking (rs : List LongReq) : State :=
  { world [] with basin := 1000, mem := { (world []).mem with reqs := rs } }

/-- What `Spec.dueAt` asks for, computed. -/
def dueNow (s : State) (die slice : Nat) (r : LongReq) (pa : Nat) (leaf : Word) (size : Nat) : Bool :=
  decide (s.home r.part r.ia = (die, (s.home r.part r.ia).2) ∧ (s.home r.part r.ia).2 / 256 % 48 = slice ∧ r.xlat = .ok pa leaf size) &&
    match r.dom with
    | some id => match s.dom id with
      | some d => decide (d.phase = .running ∧ r.due ≤ d.sc s.basin)
      | none => false
    | none => decide (r.due ≤ s.sc r.core)

theorem dueAt_of {s : State} {die slice : Nat} {r : LongReq} {pa : Nat} {leaf : Word} {size : Nat}
    (h : dueNow s die slice r pa leaf size = true) : Spec.dueAt s die slice r pa leaf size := by
  unfold dueNow at h
  rw [Bool.and_eq_true] at h
  obtain ⟨h1, h2⟩ := h
  obtain ⟨h3, h4, h5⟩ := of_decide_eq_true h1
  refine ⟨h3, h4, h5, ?_⟩
  split at h2
  · rename_i id hid
    try simp only [hid]
    split at h2
    · rename_i d hd; exact ⟨d, hd, of_decide_eq_true h2⟩
    · cases h2
  · rename_i hid
    try simp only [hid]
    exact of_decide_eq_true h2

theorem meets_HomeSlice :
    let leaf : Word := 0xF000000000030000
    let st := req0 .store 1
    let ld := req0 .load 4
    let tl := { req0 .load 4 with timed := true }
    let ts := { req0 .store 7 with timed := true }
    (Spec.dueAt (asking [st]) 0 0 st 0x30010 leaf 0 ∧ st.kind = .store ∧ st.keep = 0 ∧ st.poison = false ∧ st.bytes ≤ 128 ∧
      Spec.cleanPiece (asking [st]) st 0x30010 leaf 0 ∧ Spec.unbound (asking [st]) ∧
      Memory.wf (asking [st]).mem.hbm = true) ∧
    (Spec.dueAt (asking [ld]) 0 0 ld 0x30010 leaf 0 ∧ ld.kind = .load ∧ ld.engine = 1 ∧
      Spec.cleanPiece (asking [ld]) ld 0x30010 leaf 0 ∧ Spec.unbound (asking [ld])) ∧
    (Spec.dueAt (asking [ts, tl]) 0 0 tl 0x30010 leaf 0 ∧ Spec.dueAt (asking [ts, tl]) 0 0 ts 0x30010 leaf 0 ∧
      tl.timed = true ∧ ts.timed = true ∧ tl.engine = 1 ∧ Spec.cleanPiece (asking [ts, tl]) tl 0x30010 leaf 0 ∧ Spec.unbound (asking [ts, tl])) ∧
    (let d := inDomain (asking [{ st with dom := some 3, due := 3 }]) (domain0 .running true false);
      Spec.dueAt { d with basin := 1003 } 0 0 { st with dom := some 3, due := 3 } 0x30010 leaf 0) ∧
    ∀ r ∈ (asking [{ st with xlat := .waiting }]).mem.reqs, ∀ pa leaf size,
      ¬ Spec.dueAt (asking [{ st with xlat := .waiting }]) 0 0 r pa leaf size := by
  refine ⟨⟨dueAt_of (by decide +kernel), rfl, rfl, rfl, by decide, ?_, rfl, by decide +kernel⟩,
    ⟨dueAt_of (by decide +kernel), rfl, rfl, ?_, rfl⟩,
    ⟨dueAt_of (by decide +kernel), dueAt_of (by decide +kernel), rfl, rfl, rfl, ?_, rfl⟩,
    dueAt_of (by decide +kernel), fun r hr pa leaf size h => ?_⟩
  · simp only [Spec.cleanPiece, Spec.cleanAt]; decide +kernel
  · simp only [Spec.cleanPiece, Spec.cleanAt]; decide +kernel
  · simp only [Spec.cleanPiece, Spec.cleanAt]; decide +kernel
  · rw [List.mem_singleton.mp hr] at h; cases h.2.2.1

/-- Core 0 with two first-level lines, the first with the dirty bytes `d`. -/
def lined (d : BitVec 128) : State :=
  (world []).modCore 0 fun k => { k with cc := { k.cc with
    l1 := [(0x30080 / 128, { data := 0xAABBCCDD, valid := 0xF, dirty := d }), (0x30100 / 128, { data := 1, valid := 1, dirty := 1 })] } }

/-- A shadow binding of block 2 to frame 7, with the sectors `c` copied. -/
def bound (c : BitVec 1024) : State :=
  { world [] with mem := { (world []).mem with bindings := [⟨0, 0, 2, 3, 7, c⟩] } }

theorem meets_MemorySide :
    (let s := lined 5; let l : L1Line := { data := 0xAABBCCDD, valid := 0xF, dirty := 5 }
      ((Spec.cc s).l1.map Prod.fst).Nodup ∧ sget (Spec.cc s).l1 (0x30080 / 128) = some l ∧
      s.translateHome (s.partOf s.cur) (128 * (0x30080 / 128)) false true = .ok 0x30080 0xF000000000030000 0 ∧
      (0xF000000000030000 : Word).getLsbD 59 = false ∧ (s.home (s.partOf s.cur) 0x30080).1 = 0 ∧
      Spec.cleanAt s (s.partOf s.cur) (128 * (0x30080 / 128)) 0x30080 0xF000000000030000 0 ∧
      Spec.cleanAt s (s.partOf s.cur) (128 * (0x30080 / 128) + 64) (0x30080 + 64) 0xF000000000030000 0 ∧
      Spec.walkClean s (s.partOf s.cur) (128 * (0x30080 / 128)) ∧ Spec.unbound s ∧
      Memory.wf s.mem.hbm = true ∧ (sget (Spec.cc (lined 0)).l1 (0x30080 / 128)).any (fun l => decide (l.dirty = 0)) = true) ∧
    (let r := { req0 .load 4 with xlat := .waiting }; let s := asking [r]
      s.mem.reqs = [r] ∧ r.xlat = .waiting ∧ r.engine = 1 ∧ r.core = s.cur ∧ r.kind = .load ∧ r.dom = none ∧
      s.translateHome r.part r.ia true false = .ok 0x30010 0xF000000000030000 0 ∧ Spec.walkClean s r.part r.ia) ∧
    (let r := { req0 .load 4 with xlat := .waiting, timed := true, dom := some 3, issue := 100 }
      let d := domain0 .running true false
      let s := { inDomain (asking [r]) d with basin := 1356 }
      s.mem.reqs = [r] ∧ (s.core s.cur).dom = some 3 ∧ s.dom 3 = some d ∧ d.phase = .running ∧ d.timed = true ∧ d.basin = false ∧
      r.issue + 256 ≤ s.sc s.cur ∧ { s with basin := 1355 }.sc s.cur < r.issue + 256) ∧
    (let s := bound 4; let b : Binding := ⟨0, 0, 2, 3, 7, 4⟩
      s.mem.bindings = [b] ∧ Memory.wf s.mem.hbm = true ∧ (s.leafAt b.part b.stack (b.block * 65536 + 64 * 0)).isSome = true ∧
      (s.leafAt b.part b.stack (b.block * 65536 + 64 * 0)).all (fun w =>
        decide (s.mem.delta ((b.stack * 2 ^ 36 + leafPa w.1 w.2 (b.block * 65536)) / 64) (w.1 / 2 ^ 54 % 16)
          ((b.block * 65536) % 2 ^ (16 + 5 * w.2) / 64 * 512) = 0 ∧
          leafPa w.1 w.2 (b.block * 65536) % 64 = 0)) = true ∧
      b.copied.getLsbD 0 = false ∧ b.copied.getLsbD 2 = true) ∧
    let s := { world [] with mem := { (world []).mem with check := [(5, 1)] } }
    let pg := s.sectorPage 0 (64 * 5)
    s.mem.delta (0 * 2 ^ 30 + 5) pg.1 pg.2.1 = 1 ∧ (decodeSector pg.1 pg.2.1 1).sev = .c ∧ swf (0 : Word) s.mem.check = true ∧
      s.mem.delta (0 * 2 ^ 30 + 6) pg.1 pg.2.1 = 0 := by
  simp only [Spec.unbound, Spec.cleanAt, Spec.walkClean]; decide +kernel

/-! ### The hypotheses of the engine statements are met -/

/-- What `Spec.fits` asks for, computed. -/
def fitsNow (s : State) (q : Seqr) (ent : QEntry) : Bool :=
  match q.eng with
  | .cx => decide (q.unit = dieOf s.cur)
  | .weir => decide (s.seqUnit s.cur ent.form ent.block ent.rng = q.unit ∧ s.holdsIndex s.cur q.idx = false)
  | _ => true

theorem fits_of {s : State} {q : Seqr} {ent : QEntry} (h : fitsNow s q ent = true) : Spec.fits s q ent := by
  unfold fitsNow at h
  unfold Spec.fits
  cases hq : q.eng <;> simp only [hq, decide_eq_true_eq] at h ⊢ <;> exact h

/-- A range of the scoreboard, of 16 bytes of scratchpad at `base`. -/
def range0 (eng issue base : Nat) (rd wr : Bool) : SbEntry :=
  { eng, issue := BitVec.ofNat 32 issue, space := 0, rd, wr, base, len := 16, accept := 0 }

/-- The first sequencer of a form's engine. -/
def seqrOf (f : Nat) : Seqr := ⟨formEng f, 0, 0⟩

/-- The forms of the macro-instructions. -/
def forms : List Nat := [1, 2, 3, 8, 9, 10, 0x10, 0x11, 0x12, 0x18, 0x19, 0x20]

theorem meets_EngineStarts :
    (∀ f ∈ forms, let s := waitingAt f 20; let q := seqrOf f; let ent := entry0 f
      s.live s.cur = true ∧ s.timed s.cur = false ∧ (s.core s.cur).eng.queue q.eng = [ent] ∧ (s.seq s.cur q).active = [] ∧
      (s.seq s.cur q).prog.state = 0 ∧ Spec.fits s q ent ∧ ent.start.toNat ≤ s.sc s.cur ∧ s.hazard s.cur q.eng ent.issue = false ∧
      (waitingAt f 19).sc (waitingAt f 19).cur < ent.start.toNat) ∧
    (¬ Spec.fits (waitingAt 0x20 20) ⟨.cx, 1, 0⟩ (entry0 0x20) ∧ ¬ Spec.fits (waitingAt 0x18 20) ⟨.weir, 1, 0⟩ (entry0 0x18)) ∧
    (let s := (waitingAt 8 20).modEng 0 fun k => { k with sboard := [range0 2 4 8 true false, range0 3 9 0 false true] };
      (s.core s.cur).eng.sboard = [] ++ range0 2 4 8 true false :: [range0 3 9 0 false true] ∧
      (∀ x ∈ [] ++ [range0 2 4 8 true false], ¬ Spec.rangeOf .px (entry0 8).issue x) ∧
      Spec.rangeOf .px (entry0 8).issue (range0 3 9 0 false true)) ∧
    (∀ f ∈ [1, 8, 0x10], let s := timedAt f 20; let e := formEng f; let ent := entry0 f
      (e = .mx ∨ e = .px ∨ e = .ce) ∧ s.live s.cur = true ∧ s.timed s.cur = true ∧ (s.core s.cur).eng.queue e = [ent] ∧
      ent.start.toNat = s.sc s.cur ∧ (s.seq s.cur (Spec.own e)).nextFree ≤ s.sc s.cur ∧ s.hazard s.cur e ent.issue = false ∧
      ∀ x ∈ ((timedAt f 21).core 0).eng.queue e, x.start.toNat ≠ (timedAt f 21).sc 0) ∧
    ∀ f ∈ [1, 8, 0x10],
      let s := (timedAt f 20).setSeq 0 (seqrOf f) { (timedAt f 20).seq 0 (seqrOf f) with nextFree := 21 }
      let d := domain0 .running true false
      (s.core s.cur).dom = some 3 ∧ s.dom 3 = some d ∧ d.phase = .running ∧ d.timed = true ∧ s.timed s.cur = true ∧
      d.basin = false ∧ (s.core s.cur).eng.queue (formEng f) = [entry0 f] ∧ (entry0 f).start.toNat = s.sc s.cur ∧
      s.sc s.cur < (s.seq s.cur (Spec.own (formEng f))).nextFree := by
  have h : ∀ f ∈ forms, let s := waitingAt f 20; let q := seqrOf f; let ent := entry0 f
      (s.live s.cur = true ∧ s.timed s.cur = false ∧ (s.core s.cur).eng.queue q.eng = [ent] ∧ (s.seq s.cur q).active = [] ∧
      (s.seq s.cur q).prog.state = 0) ∧ fitsNow s q ent = true ∧ (ent.start.toNat ≤ s.sc s.cur ∧ s.hazard s.cur q.eng ent.issue = false ∧
      (waitingAt f 19).sc (waitingAt f 19).cur < ent.start.toNat) := by decide +kernel
  refine ⟨fun f hf => ?_, ⟨?_, ?_⟩, ?_, by decide +kernel, by decide +kernel⟩
  · obtain ⟨⟨h1, h2, h3, h4, h5⟩, h6, h7⟩ := h f hf
    exact ⟨h1, h2, h3, h4, h5, fits_of h6, h7⟩
  · simp only [Spec.fits]; decide +kernel
  · simp only [Spec.fits]; decide +kernel
  · simp only [Spec.rangeOf]; decide +kernel

/-- An event of an engine. -/
def event0 : Ev :=
  { cause := 0x44, subcause := 0, engine := 10, slot := 15, pc := 0, faddr := 0, tcode := 0, issue := 0, tengine := 0, duesc := 0
    body := 0, words := [] }

/-- An entry of a form with every step but `n` committed, a later one in its queue, and their ranges. -/
def finishing (f n : Nat) : State :=
  (runs0 f 5 (5 - n) (5 - n) 1000 []).modCore 0 fun k =>
    let k := setQueue (formEng f) [{ entry0 f with issue := 10 }] k
    { k with eng := { k.eng with sboard := [range0 2 4 8 true false, range0 (engCode (formEng f)) 9 0 true false] } }

/-- An entry of a form that is about to stop at an event, or that has stopped. -/
def stopping (f : Nat) (ev : Option Ev) : State :=
  (finishing f 2).modSeq 0 (seqrOf f) fun x => { x with stopEv := ev, prog := if ev = none then { x.prog with state := 2 } else x.prog }

theorem meets_EngineEnds :
    (∀ f ∈ forms, let s := finishing f 0; let q := seqrOf f; let a : ActiveEntry := ⟨entry0 f, 20, 5, 5, 5, []⟩
      s.seqCore q = 0 ∧ s.live 0 = true ∧ (s.seq 0 q).active = [a] ∧ a.total ≤ a.committed ∧ (s.seq 0 q).steps = [] ∧
      (s.seq 0 q).stopEv = none ∧ (s.seq 0 q).prog.state ≠ 2 ∧ (s.seq 0 q).prog.state ≠ 3 ∧ s.pendingBytes 0 q.eng a.entry.issue = 0 ∧
      (∀ a ∈ ((finishing f 1).seq 0 q).active, a.committed < a.total)) ∧
    (∀ f ∈ forms, let s := stopping f (some event0); let q := seqrOf f; let a : ActiveEntry := ⟨entry0 f, 20, 3, 3, 5, []⟩
      s.seqCore q = 0 ∧ s.live 0 = true ∧ (s.seq 0 q).active = [a] ∧ (s.seq 0 q).stopEv = some event0 ∧ (s.seq 0 q).steps = [] ∧
      s.pendingBytes 0 q.eng a.entry.issue = 0) ∧
    ∀ f ∈ forms, let s := stopping f none; let q := seqrOf f; let a : ActiveEntry := ⟨entry0 f, 20, 3, 3, 5, []⟩
      s.seqCore q = 0 ∧ (s.seq 0 q).active = [a] ∧ (s.seq 0 q).stopEv = none ∧ (s.seq 0 q).prog.state = 2 ∧
      formEng a.entry.form = q.eng ∧ ((finishing f 0).seq 0 q).prog.state ≠ 2 := by
  decide +kernel

/-- A step in flight, number `n` of an entry of a form with `total` steps, begun at SC 900. -/
def inFlight (f total n stage sc : Nat) (samples : Sparse (List Nat)) : State := runs0 f total (n + 1) n sc [step0 n 900 stage samples]

/-- The entry as its sequencer holds it. -/
def active0 (f total m n : Nat) : ActiveEntry := ⟨entry0 f, 20, m, n, total, []⟩

/-- What the sample points of a step of the block of MMAT take. -/
def samples0 : Sparse (List Nat) :=
  (List.range 17).map fun i => (i, List.replicate (if i < 8 then 1024 else 2048) (16 + i))

theorem meets_TileSteps :
    (let s := runs0 1 5 0 0 1000 []; let a := active0 1 5 0 0
      Spec.elastic s (Spec.own .mx) a [] ∧ Spec.nextDue s (Spec.own .mx) a ∧ formEng a.entry.form = .mx ∧
      (s.core s.cur).eng.spadPoison = [] ∧ (descA a.entry.block).tagchk = false ∧ (descB a.entry.block).tagchk = false) ∧
    (let s := runs0 8 5 0 0 1000 []; let a := active0 8 5 0 0; let b := a.entry.block; let p := pxPos 8 b 0
      Spec.elastic s (Spec.own .px) a [] ∧ Spec.nextDue s (Spec.own .px) a ∧ a.entry.form = 8 ∧ p.pass = 0 ∧
      256 * p.chunk ≤ min (pxN b) (256 * p.chunk + 256) ∧ pxKtype b ≤ 10 ∧ 0 < pxEB b) ∧
    (let sm : Sparse (List Nat) := [(0, List.range 256)]; let s := inFlight 8 5 2 1 956 sm; let a := active0 8 5 3 2
      let st := step0 2 900 1 sm
      Spec.elastic s (Spec.own .px) a [st] ∧ st.stage = 1 ∧ st.reads = [] ∧ st.n < 2 ^ 32 ∧
      st.t0 + 48 + 4 * pxEB a.entry.block ≤ s.sc s.cur) ∧
    (∀ f ∈ [8, 9, 10], let b := (entry0 f).block; let g := (pxPoints f b (pxPos f b 2).chunk).length + 1
      let s := inFlight f 5 2 g (900 + commitOfs f b 2) []; let a := active0 f 5 3 2; let st := step0 2 900 g []
      Spec.elastic s (Spec.own .px) a [st] ∧ formEng a.entry.form = .px ∧ st.readsCome = true ∧
      st.t0 + commitOfs f b st.n ≤ s.sc s.cur ∧ (Spec.be s).accesses = [] ∧ s.mem.reqs = []) ∧
    let b := (entry0 1).block; let g := (mxPoints 1 b).length
    let st := step0 0 900 g samples0
    let s := inFlight 1 5 0 g (900 + 225 + mxFill b) samples0; let a := active0 1 5 1 0
    Spec.elastic s (Spec.own .mx) a [st] ∧ Spec.sampled b (mxWidth 1 b / 8) st ∧ mxDfmt b = 0 ∧ mxDtag b = false ∧ (s.core s.cur).eng.mxUpset = 0 ∧
      Memory.wf (s.core s.cur).eng.accum = true ∧ (mxSlot b (s.entryLevels s.cur a.entry) st.n).toNat < 16 ∧ st.t0 + 225 + mxFill b ≤ s.sc s.cur ∧
      (Spec.be s).accesses = [] ∧ s.mem.reqs = [] := by
  refine ⟨?_, ?_, ?_, ?_, ?_⟩ <;>
  · simp only [Spec.elastic, Spec.nextDue, Spec.sampled]; decide +kernel

/-- A plan of one step with the words `w0` and `w1`, and the entry of MCOLL that runs it. -/
def planned (w0 w1 stage sc : Nat) (samples : Sparse (List Nat)) : State :=
  let s := runs0 0x20 1 1 0 sc [step0 0 900 stage samples]
  { s with mem := { s.mem with hbm := words s.mem.hbm 0x22048 [w0, w1] } }

/-- A transfer of plan 0 that a core holds. -/
def held0 (step core : Nat) (bs : List Byte) : Held :=
  ⟨⟨0, 0, core, 0, 0, 0, bs.length, 0, false, 0, false, none, some (0, step, bs)⟩, 0, none⟩

/-- What `Spec.planStepAt` asks for, computed, with a condition on the plan step. -/
def planStepIs (s : State) (q : Seqr) (a : ActiveEntry) (st : StepState) (recv : Bool) (g : Nat) (p : PlanStep → Bool) : Bool :=
  match (s.entryPlan (s.seqCore q) a.entry)[st.n]? with
  | some ps => decide (q.eng = .cx ∧ (s.live (s.seqCore q) = true ∧ s.timed (s.seqCore q) = false ∧
      (s.seq (s.seqCore q) q).active = [a] ∧ (s.seq (s.seqCore q) q).steps = [st] ∧ st.issue = a.entry.issue) ∧ ps.recv = recv ∧
      st.stage = g ∧ st.n = a.committed ∧ st.n < 2 ^ 32 ∧ st.reads = []) && p ps
  | none => false

theorem planStepAt_of {s : State} {q : Seqr} {a : ActiveEntry} {st : StepState} {recv : Bool} {g : Nat} {p : PlanStep → Bool}
    (h : planStepIs s q a st recv g p = true) : ∃ ps, Spec.planStepAt s q a st ps recv g ∧ p ps = true := by
  unfold planStepIs at h
  split at h
  · rename_i ps hp
    rw [Bool.and_eq_true] at h
    obtain ⟨h1, ⟨h2, h3, h4, h5, h6⟩, h7⟩ := of_decide_eq_true h.1
    exact ⟨ps, ⟨h1, ⟨h2, h3, h4, h5, fun x hx => by rw [List.mem_singleton.mp hx]; exact h6⟩, hp, h7⟩, h.2⟩
  · cases h

theorem meets_ChunksAndTransfers :
    (let s := runs0 0x11 5 1 1 1000 []; let a := active0 0x11 5 1 1; let b := a.entry.block
      Spec.elastic s (Spec.own .ce) a [] ∧ Spec.nextDue s (Spec.own .ce) a ∧ a.entry.form = 0x11 ∧ ceDstScaled b = false ∧
      ceDfmt b ≠ 3) ∧
    (∀ f ∈ [0x10, 0x11], let b := (entry0 f).block; let sm : Sparse (List Nat) := [(98, [55, 3])]
      let s := inFlight f 5 2 2 (900 + commitOfs f b 2) sm; let st := step0 2 900 2 sm
      Spec.elastic s (Spec.own .ce) (active0 f 5 3 2) [st] ∧ st.stage = 2 ∧ st.t0 + commitOfs f b st.n ≤ s.sc s.cur ∧
      Spec.nothingOut s s.cur) ∧
    (let b := (entry0 0x12).block; let st := { step0 1 900 1 [] with reads := [(5, some [1, 2, 3])] }
      let s := runs0 0x12 2 2 1 1420 [st]; let a := active0 0x12 2 2 1
      Spec.elastic s (Spec.own .ce) a [st] ∧ a.entry.form = 0x12 ∧ st.t0 + 520 ≤ s.sc s.cur ∧ st.readsCome = true ∧
      ovRegion b + st.n < 16 ∧ Memory.wf (s.core s.cur).eng.ispad = true) ∧
    (let b : Block := (entry0 0x18).block.set 10 0xA000000000001000; let q := seqrOf 0x18; let st := step0 4 900 1 []
      let a : ActiveEntry := ⟨{ entry0 0x18 with block := b }, 20, 5, 4, 5, []⟩
      let s := (runs0 0x18 5 5 4 100000 [st]).modSeq 0 q fun x => { x with active := [a] }
      q.eng = .weir ∧ Spec.elastic s q a [st] ∧ a.entry.form = 0x18 ∧ wrSpad b = true ∧ st.stage = 1 ∧ st.n < 2 ^ 32 ∧ st.readsCome = true ∧
      st.t0 + commitOfs 0x18 b st.n ≤ s.sc (s.seqCore q) ∧ st.n + 1 = a.total) ∧
    (∀ f ∈ [0x18, 0x19], let b := (entry0 f).block; let q := seqrOf f; let sm : Sparse (List Nat) := [(71, [9, 0])]
      let st := step0 2 900 2 sm; let s := inFlight f 5 2 2 (900 + commitOfs f b 2) sm
      q.eng = .weir ∧ Spec.elastic s q (active0 f 5 3 2) [st] ∧ formEng f = .weir ∧ st.readsCome = true ∧ wrElems b ≠ 0 ∧
      st.t0 + commitOfs f b st.n ≤ s.sc (s.seqCore q) ∧ Spec.nothingOut s (s.seqCore q)) ∧
    (let sm : Sparse (List Nat) := [(0, List.range 64), (1, [1])]; let s := planned 0 64 1 20 sm; let a := active0 0x20 1 1 0
      let q := seqrOf 0x20
      ∃ ps, Spec.planStepAt s q a (step0 0 900 1 sm) ps false 1 ∧ decide ((Spec.planSpan a.entry.block ps).1 = false ∧
        a.startSC + ps.delta ≤ s.sc (s.seqCore q) ∧
        s.planBytes (dieOf ps.pcore) q.idx + (Spec.planSpan a.entry.block ps).2.2 ≤ 65536 ∧
        (s.route (s.partOf (s.seqCore q)) ps.route).v = true) = true) ∧
    (let s := (planned (2 ^ 63 + 5 * 2 ^ 28) (3 * 2 ^ 48 + 64) 0 950 []).modCore 0 fun k =>
        { k with fab := { k.fab with plan := [held0 3 5 [1, 2, 3]] } }
      let q := seqrOf 0x20
      ∃ ps, Spec.planStepAt s q (active0 0x20 1 1 0) (step0 0 900 0 []) ps true 0 ∧
        decide ((s.core (s.seqCore q)).fab.plan = [held0 3 5 [1, 2, 3]] ∧ ps.stepno = 3 ∧ ps.pmod = 0 ∧ ps.pcore = 5 ∧
          (held0 3 5 [1, 2, 3]).flit.stream = q.idx ∧ (held0 3 5 [1, 2, 3]).takenBy = none) = true) ∧
    (∀ comb ∈ [false, true], let sm : Sparse (List Nat) := [(0, List.range 64), (1, [0])]
      let s := planned (2 ^ 63 + if comb then 2 ^ 62 else 0) (3 * 2 ^ 48 + 64) 1 904 sm
      ∃ ps, Spec.planStepAt s (seqrOf 0x20) (active0 0x20 1 1 0) (step0 0 900 1 sm) ps true 1 ∧
        decide ((Spec.planSpan (entry0 0x20).block ps).1 = false ∧ ps.combine = comb ∧ (s.core 0).eng.spadPoison = []) = true) ∧
    let s := planned (2 ^ 63) (3 * 2 ^ 48 + 64) 2 904 []
    ∃ ps, Spec.planStepAt s (seqrOf 0x20) (active0 0x20 1 1 0) (step0 0 900 2 []) ps true 2 ∧
      decide ((s.core (s.seqCore (seqrOf 0x20))).be.accesses = [] ∧ s.mem.reqs = []) = true := by
  refine ⟨?_, ?_, ?_, ?_, ?_, planStepAt_of (by decide +kernel), planStepAt_of (by decide +kernel),
    fun comb _ => planStepAt_of (by cases comb <;> decide +kernel), planStepAt_of (by decide +kernel)⟩ <;>
  · simp only [Spec.elastic, Spec.nextDue, Spec.nothingOut]; decide +kernel

/-- An image of a step of MMAT that took its samples from zeros, with a result. -/
def image0 (result : List Half) : AuditImage :=
  { core := 0, dom := none, audcnt := 7, issue := 8, form := 1, block := block0 1, fz := false, inputs := [], result }

/-- The image of the step whose result stands, and the signature of what its recomputation gives. -/
def imageOk : AuditImage :=
  image0 ((mxResult (image0 []).form (image0 []).block (image0 []).fz (image0 []).inputs).map fun y => BitVec.ofNat 32 y.1)

def signature0 : Nat :=
  auditSignature ((mxResult (image0 []).form (image0 []).block (image0 []).fz (image0 []).inputs).map fun y => BitVec.ofNat 32 y.1)

/-- The audit of die 0 with images and errors to come. -/
def auditing (ims : List AuditImage) (glitch : Word × Word) : State :=
  { world [] with audit := [(0, { done := 4, mis := 5, fail := false, glitch, images := ims }), (2, default)] }

/-- A chunk of a copy from stack memory into scratchpad. -/
def copyBlock : Block := [0x110, 2 ^ 60 + 2 ^ 56, 0, 0, 0x1000, 0, 64, 0].map (BitVec.ofNat 64)

/-- The MX engine in STATE 3, a refetch of the byte at 0x1000 awaited or under way, in a running domain. -/
def refetching (table : List Refetch) (at_ : Option Nat) (redo : Option Redo) : State :=
  (inDomain (world []) (domain0 .running false false)).modEng 0 fun k => { k with
    refetch := table, redo
    mx := { k.mx with refetchAt := at_, prog := { k.mx.prog with state := 3 } } }

/-- The entry of the refetch table that holds the byte at 0x1000. -/
def copied0 : Refetch := ⟨copyBlock, ((world []).core 0).rng, 0x1000, 4, [], false⟩

/-- A refetch whose one chunk has been copied. -/
def redo0 : Redo := ⟨true, ⟨{ entry0 0x10 with block := copyBlock }, 20, 1, 1, 1, []⟩, 1⟩

theorem meets_AuditAndRefetch :
    ((∀ e ∈ (auditing [imageOk] (0, 0)).cores, ((auditing [imageOk] (0, 0)).core e.1).staging = none) ∧
      (let d := (sget (auditing [imageOk] (0, 0)).audit 0).getD default;
        d.images = [imageOk] ∧ d.glitch = (0, 0) ∧ signature0 = auditSignature imageOk.result) ∧
      (∃ r ∈ [[(0 : Half)], [1]], let d := (sget (auditing [image0 r] (0, 0)).audit 0).getD default;
        d.images = [image0 r] ∧ d.glitch = (0, 0) ∧
          BitVec.ofNat 64 signature0 ≠ BitVec.ofNat 64 (auditSignature (image0 r).result)) ∧
      (let d := (sget (auditing [imageOk] (1, 0)).audit 0).getD default;
        d.images = [imageOk] ∧ BitVec.ofNat 64 signature0 ^^^ d.glitch.1 ≠ BitVec.ofNat 64 (auditSignature imageOk.result) ∧
          d.glitch.1 ≠ d.glitch.2) ∧
      ((sget (auditing [] (0, 0)).audit 0).getD default).images = []) ∧
    (let k := { (world []).core 0 with staging := some imageOk };
      let s := { auditing [] (0, 0) with cores := [(0, k)] };
      let d := (sget s.audit 0).getD default;
      dieOf 0 = 0 ∧ s.cores = [(0, k)] ∧ k.staging = some imageOk ∧ d.images = [] ∧ d.fail = false ∧ d.glitch = (0, 0) ∧
        signature0 = auditSignature imageOk.result) ∧
    (let s := refetching [copied0] (some 0x1000) none; let k := (s.core s.cur).eng;
      s.live s.cur = true ∧ s.timed s.cur = false ∧ k.redo = none ∧ k.mx.refetchAt = some 0x1000 ∧ k.mx.prog.state = 3 ∧
      k.refetchable 0x1000 = some copied0 ∧ k.ce.steps = [] ∧ k.ce.stopEv = none ∧ k.ce.prog.state.toNat ≤ 1) ∧
    (let s := refetching [copied0] (some 0x1000) (some redo0); let k := (s.core s.cur).eng;
      s.live s.cur = true ∧ s.timed s.cur = false ∧ k.redo = some redo0 ∧ redo0.mx = true ∧
      redo0.act.total ≤ redo0.act.committed) ∧
    (let s := refetching [] (some 0x1000) none; let k := (s.core s.cur).eng; let d := domain0 .running false false;
      s.live s.cur = true ∧ s.timed s.cur = false ∧ k.redo = none ∧ k.mx.refetchAt = some 0x1000 ∧ k.mx.prog.state = 3 ∧
      k.refetchable 0x1000 = none ∧ (s.core s.cur).dom = some 3 ∧ s.dom 3 = some d ∧ d.timed = false ∧ d.basin = false ∧
      d.resp = none ∧ d.unsafe_ = false ∧ d.replays < s.partWord d.part 0 / 2 ^ 21 % 8) ∧
    ((world []).core 0).eng.redo = none ∧ ((world []).core 0).eng.mx.refetchAt = none ∧
    ((world []).core 0).eng.px.refetchAt = none := by
  have hs (ims g) : ∀ e ∈ (auditing ims g).cores, ((auditing ims g).core e.1).staging = none := by
    show ∀ e ∈ (world []).cores, ((world []).core e.1).staging = none
    decide +kernel
  have hx (x : Word) : x ^^^ 1 ≠ x := by
    intro h
    have : (x ^^^ 1).getLsbD 0 = x.getLsbD 0 := by rw [h]
    simp at this
  have hr : BitVec.ofNat 64 (auditSignature [0]) ≠ BitVec.ofNat 64 (auditSignature [1]) := by decide +kernel
  refine ⟨⟨hs _ _, ⟨rfl, rfl, rfl⟩, ?_, ⟨rfl, hx _, by decide⟩, rfl⟩, ⟨rfl, rfl, rfl, rfl, rfl, rfl, rfl⟩, by decide +kernel,
    by decide +kernel, by decide +kernel, by decide +kernel⟩
  by_cases h : BitVec.ofNat 64 signature0 = BitVec.ofNat 64 (auditSignature [0])
  · exact ⟨[1], by simp, rfl, rfl, by rw [h]; exact hr⟩
  · exact ⟨[0], by simp, rfl, rfl, h⟩

/-! ### The hypotheses of the fabric and port statements are met -/

/-- A transfer from core 5 of this module. -/
def flit0 (dst stream : Nat) (req : Option RemoteReq) (plan : Option (Nat × Nat × List Byte)) : Flit :=
  ⟨0, 0, 5, dst, stream, 3, 16, 0x99, false, 40, false, req, plan⟩

/-- The world with domain 3 running, at basin count 3000. -/
def sDom : State := inDomain { world [] with basin := 3000 } (domain0 .running false false)

/-- The world with domain 3, and its core 0's receive buffer of stream 3 holding a transfer. -/
def received (calctl : Word) : State :=
  (sDom.modCore 0 fun k => { k with cc := { k.cc with calctl } }).modFab 0 fun k =>
    { k with rx := k.rx.setIfInBounds 3 (some ⟨flit0 0 3 none none, 0, none⟩) }

/-- A remote request of 8 bytes at 0x22000. -/
def remote0 (kind due : Nat) : RemoteReq := ⟨kind, 0, 5, 2, 9, 0, 0, 0x22000, 8, 0x99, 0, 0, false, false, due, false, 0, 0, 0⟩

theorem meets_FabricArrivals :
    (let f := flit0 0 3 none none;
      sDom.live f.dstCore = true ∧ (sDom.core f.dstCore).dom ≠ none ∧ ((sDom.core f.dstCore).fab.rx[f.stream]?).getD none = none ∧
      (received 8).timed f.dstCore = true ∧ (received 8).live f.dstCore = true ∧ (received 8).dom 3 ≠ none ∧
      ((received 0).core f.dstCore).fab.rx[f.stream]? = some (some ⟨f, 0, none⟩) ∧ (received 0).timed f.dstCore = false) ∧
    (flit0 0 3 none (some (1, 2, [4]))).plan ≠ none ∧ { sDom with basin := 499 }.basin < (remote0 0 500).due ∧
    (∀ kind ∈ [0, 1, 2], Spec.servedNow sDom (flit0 7 2 (some (remote0 kind 500)) none) (remote0 kind 500) kind 0x22000) ∧
    (let s := { sDom with io := { sDom.io with unacked := [(0, 5, 2, 63)] } };
      0 < Spec.unacked s 0 5 2 ∧ Spec.unacked s 0 5 3 = 0) ∧
    Spec.noneEvicted sDom ∧
    (let s := sDom.modCore 0 fun k => { k with be := Spec.withXf k.be 2 (Spec.xfWord 7 9 5 4) };
      5 ≤ Spec.outOf s 2) ∧
    let l := { landing0 0 with src := some 4 }
    let s := sDom.modCore 0 fun k => { k with fab := { k.fab with loads := [(17, 2, 4, 1)] }, be := { k.be with landings := [l] } };
    (s.core s.cur).fab.loads = [(17, 2, 4, 1)] ∧ (Spec.be s).landings = [l] ∧ l.src = some 4 ∧ s.timed s.cur = false := by
  have hs : ∀ kind ∈ [0, 1, 2], sectorAt sDom 0 0x22000 8 (decide (kind ≠ 1)) (decide (kind ≠ 0)) 0x22000 = true ∧
      (∀ e ∈ sDom.doms, e.2.basin = false) ∧ Memory.wf sDom.mem.hbm = true ∧ sDom.mem.strong = [] := by decide +kernel
  refine ⟨by decide +kernel, by decide, by decide, fun kind hk => ?_, by decide +kernel, by simp only [Spec.noneEvicted]; decide +kernel,
    by decide +kernel, by decide +kernel⟩
  obtain ⟨h1, h2, h3, h4⟩ := hs kind hk
  exact ⟨by show 7 < 4096; decide, rfl, rfl, rfl, by show 500 ≤ 3000; decide, h2, plainSector_of h1, h3, h4⟩

/-- A transfer at the switch for a link, from a port. -/
def atPort (link port n : Nat) (timed : Bool) (srcModule : Nat) : PortFlit :=
  ⟨{ flit0 0 3 none none with timed, srcModule }, port, link, 100, n, none, 0⟩

/-- A domain that leases link `l` until SC 2000. -/
def leasing (l : Nat) : Domain := { domain0 .running true false with linkLeases := [BitVec.ofNat 64 (l * 2 ^ 59 + 2000)] }

/-- Transfers at the switch, while domain 3 leases link 3. -/
def switching (xs : List PortFlit) : State :=
  let s := inDomain { world [] with basin := 1300 } (leasing 3)
  { s with io := { s.io with inject := xs } }

/-- Core 0 at a bundle whose XF slot sends on stream 1, having waited `w` cycles. -/
def blocked (w : Nat) : State :=
  (running (bundle 0x4000 [(8, 0x000013070000)])).modCore 0 fun k =>
    { k with be := { k.be with sendWait := w }, fab := { k.fab with streams := k.fab.streams.set 1 ⟨0x8000000000000000, 0, 0⟩ } }

theorem meets_FabricSwitch :
    (Spec.atSwitch (switching []) 0 [] ∧ (∀ n ∈ [1, 2], Spec.atSwitch (switching [atPort 5 1 n false 0]) 0 [atPort 5 1 n false 0]) ∧
      Spec.atSwitch (switching [atPort 5 1 1 false 0, atPort 5 2 1 false 0]) 0 [atPort 5 1 1 false 0, atPort 5 2 1 false 0] ∧
      Spec.atSwitch (switching [atPort 3 1 1 true 0, atPort 3 2 1 true 7]) 0 [atPort 3 1 1 true 0, atPort 3 2 1 true 7]) ∧
    ((switching []).linkHeld 5 = false ∧ (switching []).linkHeld 3 = true) ∧
    ((atPort 3 1 1 true 0).at_ ≤ (switching []).basin ∧ (atPort 3 2 1 true 7).flit.srcModule ≠ (switching []).moduleId) ∧
    let s := blocked 4096
    let v := bundle 0x4000 [(8, 0x000013070000)];
    Spec.atStep s ∧ s.timed s.cur = false ∧ (s.core s.cur).dom = none ∧ 4096 ≤ (Spec.be s).sendWait ∧
      (Spec.npq (Spec.be s) 0).annul = false ∧ (s.core s.cur).eng.bundleAt (Spec.npq (Spec.be s) 0).addr = some v ∧
      forbidden v = false ∧ illegalSlots v = [] ∧ s.wrmode s.cur ≠ 2 ∧
      (∃ e, (legalOps v).flatMap (slotEvents (s.modBe s.cur fun b => b.beginStep (Spec.npq (Spec.be s) 0).addr)) = [e] ∧ e.cause = 0x09) ∧
      (Spec.be (blocked 4095)).sendWait < 4096 := by
  have he : ((legalOps (bundle 0x4000 [(8, 0x000013070000)])).flatMap
      (slotEvents ((blocked 4096).modBe (blocked 4096).cur fun b => b.beginStep (Spec.npq (Spec.be (blocked 4096)) 0).addr))).map
        (·.cause) = [0x09] := by decide +kernel
  refine ⟨by simp only [Spec.atSwitch]; decide +kernel, by decide +kernel, by decide +kernel, ?_⟩
  refine ⟨by simp only [Spec.atStep]; decide +kernel, by decide +kernel, by decide +kernel, by decide +kernel, by decide +kernel,
    by decide +kernel, by decide +kernel, by decide +kernel, by decide +kernel, ?_, by decide +kernel⟩
  obtain ⟨e, h1, h2⟩ := List.map_eq_singleton_iff.mp he
  exact ⟨e, h1, h2⟩

/-- A frame that the port accepts, or with one fault. -/
def frame0 (n : Nat) : EthFrame :=
  { fcsOk := n != 0, length := if n = 1 then 63 else if n = 2 then 9217 else 64, vlanTags := if n = 3 then 2 else 1, ipOk := n != 4
    fragment := n == 5, udp4791 := n != 6, icrcOk := n != 7, ce := 8 ≤ n, qp := 3, pause := n == 99 }

/-- Queue pair 3 and memory region 5 of key 7. -/
def port0 (retry : Nat) (bufs : List (Nat × Nat)) (recv : Option Nat) : State :=
  { world [] with
    basin := 200000
    io := { (world []).io with
      qps := [(3, { valid := true, part := 0, rate := 1500, retry, bufs, lastCnpSent := none, lastCnpRecv := recv })]
      regions := [(5, { valid := true, key := 7, part := 0, base := 0x22000, len := 0x1000, rd := true, wr := true, at_ := true, doorbells := false })] } }

theorem meets_EthernetPort :
    let s := port0 1 [(0x22100, 16)] (some 112000);
    ((frame0 99).pause = true ∧ Spec.goodFrame (frame0 8) ∧ Spec.goodFrame (frame0 9) ∧ ∀ n < 8, ¬ Spec.goodFrame (frame0 n)) ∧
    ((s.qp 3).valid = true ∧ (∀ t, (s.qp 3).lastCnpSent = some t → t + 80000 ≤ s.basin)) ∧
    (∀ k ∈ [Region.rd, Region.wr, fun r => r.at_ && 0 % 8 == 0], Spec.regionAt s 3 0x70005 0 8 k 0 0x22000) ∧
    (Spec.plainSector s 0 0x22000 8 false true 0x22000 ∧ Spec.plainSector s 0 0x22000 8 true false 0x22000 ∧
      Spec.plainSector s 0 0x22000 8 true true 0x22000 ∧ Spec.plainSector s 0 0x22100 8 false true 0x22100) ∧
    (Memory.wf s.mem.hbm = true ∧ s.mem.strong = [] ∧ (s.qp 3).bufs = [(0x22100, 16)] ∧ (s.qp 3).part = 0 ∧
      ((port0 0 [] none).qp 3).bufs = [] ∧ (s.qp 4).valid = false) ∧
    Spec.regionWrong s 0x80005 ∧ Spec.regionWrong s 0x70006 ∧
    ((s.qp 3).lastCnpRecv = some 112000 ∧ 112000 + 88000 ≤ s.basin ∧ ((port0 1 [] (some 112001)).qp 3).lastCnpRecv = some 112001 ∧
      s.basin < 112001 + 88000 ∧ 0 < (s.qp 3).retry ∧ ((port0 0 [] none).qp 3).retry = 0) := by
  have hr : sget (port0 1 [(0x22100, 16)] (some 112000)).io.regions ((0x70005 : BitVec 32).toNat % 65536) =
      some { valid := true, key := 7, part := 0, base := 0x22000, len := 0x1000, rd := true, wr := true, at_ := true, doorbells := false } := by decide +kernel
  have hp : ((port0 1 [(0x22100, 16)] (some 112000)).qp 3).part = 0 := by decide +kernel
  have hn : ((port0 1 [(0x22100, 16)] (some 112000)).qp 3).lastCnpSent = none := by decide +kernel
  have hw : sget (port0 1 [(0x22100, 16)] (some 112000)).io.regions ((0x70006 : BitVec 32).toNat % 65536) = none := by decide +kernel
  refine ⟨by simp only [Spec.goodFrame]; decide +kernel, ⟨by decide +kernel, fun t h => by rw [hn] at h; cases h⟩, ?_,
    ⟨plainSector_of (by decide +kernel), plainSector_of (by decide +kernel), plainSector_of (by decide +kernel),
      plainSector_of (by decide +kernel)⟩, by decide +kernel, ?_, ?_, by decide +kernel⟩
  · intro k hk
    refine ⟨_, hr, rfl, rfl, by decide, by decide, ?_, hp, rfl, rfl⟩
    simp only [List.mem_cons, List.not_mem_nil, or_false] at hk
    rcases hk with rfl | rfl | rfl <;> rfl
  · intro r h
    have : (0x80005 : BitVec 32).toNat % 65536 = (0x70005 : BitVec 32).toNat % 65536 := by decide
    rw [this, hr] at h
    exact .inr (by rw [← Option.some.inj h]; decide)
  · intro r h
    rw [hw] at h; cases h

/-! ### The hypotheses of the statements about a step are met -/

theorem meets_WordsRoundTrip :
    (let i : Instr := .add ⟨.sa, g0, 3, 1, 2⟩;
      i.form.2 ≠ .notSlot ∧ slotLegal i = true ∧ ∀ v, i.form.2.width = some v → v = .w256) ∧
    decodeSlot .sa .w256 0x000013120000 = .ok (.add ⟨.sa, g0, 3, 1, 2⟩) ∧
    encodeExt (.mconv ⟨10, 11, 12⟩) = some 0x04C5850B ∧ ccLegal (.mconv ⟨10, 11, 12⟩) = true := by
  refine ⟨⟨by decide, by decide, fun v h => by cases h⟩, ?_, by decide, by decide⟩
  exact of_decide_eq_true rfl

/-- Whether the bytes at the pc of core `c` decode to `i`. -/
def fetchesNow (s : State) (c : Nat) (i : Instr) : Bool :=
  s.ccRuns c && match (s.core c).fetchBytes with
    | some bs => match decodeCC bs with
      | .ok (j, _) => decide (j = i)
      | .error _ => false
    | none => false

theorem fetches_of {s : State} {c : Nat} {i : Instr} (h : fetchesNow s c i = true) : Spec.fetches s c i := by
  unfold fetchesNow at h
  rw [Bool.and_eq_true] at h
  obtain ⟨h1, h2⟩ := h
  refine ⟨h1, ?_⟩
  split at h2
  · rename_i bs hb
    split at h2
    · rename_i j n hd
      rw [of_decide_eq_true h2] at hd
      exact ⟨bs, n, hb, hd⟩
    · cases h2
  · cases h2

theorem meets_StepRunsDecoded :
    (let s := State.reset.withFetchWord 32 0x04C5850B;
      s.agenda = [.cc 0] ∧ Spec.fetches s 0 (.mconv ⟨10, 11, 12⟩)) ∧
    State.reset.ccRuns 0 = false ∧ State.reset.agenda = [] ∧ (∀ r ∈ State.reset.drift.reqs, State.reset.basin < r.b) ∧
    decodeTableWord 32 0x04C5850B = some (.mconv ⟨10, 11, 12⟩) := by
  refine ⟨⟨by decide +kernel, fetches_of (by decide +kernel)⟩, by decide +kernel, by decide +kernel, by decide +kernel, by decide +kernel⟩

theorem meets_EveryInstructionAnswers : Spec.named (.add ⟨.sa, g0, 3, 1, 2⟩) ∧ Spec.named (.auditRecomputation 7) ∧
    ¬ Spec.named (.auditRecomputation 8) ∧ Spec.named (.headwaterTableWrite (.imageErrata 4095 1)) := by
  refine ⟨⟨by decide, fun w h => by cases h⟩, ⟨by decide, fun w h => by cases h⟩, fun h => by have := h.1; revert this; decide,
    by decide, fun w h => by cases h; decide⟩

theorem meets_StepKeepsMemoryForm : State.reset.memoryCanonical = true ∧ (world [1]).memoryCanonical = true := by
  decide +kernel

/-! ### Decoding: words written out from the encodings of R63 and R68 to R78 -/

theorem test_decodeScalar :
    decodeSlot .sa .w256 0xD1102F120000 = .ok (.sub ⟨.sa, ⟨true, 20, 17⟩, 15, 1, 2⟩) ∧
    decodeSlot .sb .w256 0x000153450000 = .ok (.remu ⟨.sb, g0, 3, 4, 5⟩) ∧
    decodeSlot .sa .w256 0x000183400000 = .ok (.popc ⟨.sa, g0, 3, 4⟩) ∧
    decodeSlot .sa .w256 0x0001934F0300 = .ok (.bext ⟨.sa, g0, 3, 4, 60, 3⟩) ∧
    decodeSlot .sb .w256 0x0002020FFFFF = .ok (.addi ⟨.sb, g0, 2, 0, -1⟩) ∧
    decodeSlot .sa .w256 0x00026270003F = .ok (.srai ⟨.sa, g0, 2, 7, 63⟩) ∧
    decodeSlot .sa .w256 0x000295ABCDEF = .ok (.lih ⟨.sa, g0, 5, 0xABCDEF⟩) ∧
    decodeSlot .sb .w256 0x0002A500FFFF = .ok (.lit ⟨.sb, g0, 5, 0xFFFF⟩) ∧
    decodeSlot .sa .w256 0x000304FA0000 = .ok (.cpx ⟨.sa, g0, 4, 15, 10⟩) ∧
    decodeSlot .sa .w256 0x000313500000 = .ok (.stwr ⟨.sa, g0, 3, 5⟩) := by
  decide +kernel

theorem test_decodeControl :
    decodeSlot .sb .w256 0xC80388000005 = .ok (.br ⟨⟨true, 18, 0⟩, 2, 5⟩) ∧
    decodeSlot .sb .w256 0x000393FFFFFF = .ok (.call ⟨g0, 0, -1⟩) ∧
    decodeSlot .sb .w256 0x0003B4900000 = .ok (.calli ⟨g0, 1, 9⟩) ∧
    decodeSlot .sb .w256 0x0003C0000000 = .ok (.ret g0) ∧
    decodeSlot .sb .w256 0x0003F000BEEF = .ok (.trap g0 0xBEEF) ∧
    decodeSlot .lp .w256 0x00001FFF1234 = .ok (.loop ⟨g0, 3, 1023, 0x1234⟩) ∧
    decodeSlot .lp .w256 0x000024049000 = .ok (.loopr ⟨g0, 1, 4, 9⟩) ∧
    decodeSlot .lp .w256 0x00003A3FFFFF = .ok (.lstri ⟨g0, 2, 17, -1⟩) ∧
    decodeSlot .lp .w256 0x000048660000 = .ok (.lstr ⟨g0, 2, 3, 6⟩) ∧
    decodeSlot .xf .w256 0xC80000000000 = .ok (.nop .xf ⟨true, 18, 0⟩) := by
  decide +kernel

theorem test_decodeVector :
    decodeSlot .vb .w512 0x0000112304C0 = .ok (.vadd ⟨.vb, .w512, g0, 1, 2, 3, 0, 9, 4, 0⟩) ∧
    decodeSlot .va .w1024 0x000061234530 = .ok (.vfnma ⟨.va, .w1024, g0, 1, 2, 3, 4, 10, 3, 0⟩) ∧
    decodeSlot .vc .w256 0x0000E9870180 = .ok (.vandn ⟨.vc, .w256, g0, 9, 8, 7, 0, 3, 0, 0⟩) ∧
    decodeSlot .vc .w256 0x000159870406 = .ok (.vcmp ⟨.vc, .w256, g0, 9, 8, 7, 0, 8, 0, 6⟩) ∧
    decodeSlot .va .w256 0x000169876000 = .ok (.vsel ⟨.va, .w256, g0, 9, 8, 7, 6, 0, 0, 0⟩) ∧
    decodeSlot .va .w256 0x000189870105 = .ok (.vshfl ⟨.va, .w256, g0, 9, 8, 7, 0, 2, 0, 5⟩) ∧
    decodeSlot .va .w256 0x0001A9800305 = .ok (.vscan ⟨.va, .w256, g0, 9, 8, 0, 0, 6, 0, 5⟩) ∧
    decodeSlot .va .w256 0x0001B2135980 = .ok (.vdot ⟨.va, .w256, g0, 2, 1, 3, 5, 19, 0, 0⟩) ∧
    decodeSlot .va .w512 0x0001C2140511 = .ok (.vcvt ⟨.va, .w512, g0, 2, 1, 8, 10, 1, true⟩) ∧
    decodeSlot .va .w1024 0x0001D2FF3000 = .ok (.vins ⟨.va, .w1024, g0, 2, 127, 9, true, 0⟩) ∧
    decodeSlot .va .w256 0x0001E2906380 = .ok (.vext ⟨.va, .w256, g0, 2, 9, 3, 7⟩) ∧
    decodeSlot .vb .w256 0x0001F2091500 = .ok (.vbcst ⟨.vb, .w256, g0, 2, 9, true, 10⟩) ∧
    decodeSlot .vb .w256 0x000202790000 = .ok (.vcpx ⟨.vb, .w256, g0, 2, 7, 9⟩) ∧
    decodeSlot .vb .w256 0x000302791100 = .ok (.p5dot4 ⟨.vb, .w256, g0, 2, 7, 9, 1, 2, 0, 0⟩) ∧
    decodeSlot .fs .w256 0x00008FF00000 = .ok (.erf ⟨g0, 7, 15, 2⟩) ∧
    decodeSlot .fs .w256 0x0000A2F80000 = .ok (.cospi ⟨g0, 1, 7, 3⟩) := by
  decide +kernel

theorem test_decodeMemory :
    decodeSlot .mb .w256 0x000027BFBFFF = .ok (.sts ⟨.mb, g0, 7, 5, 15, 6, -1⟩) ∧
    decodeSlot .ma .w256 0x000043429FFF = .ok (.sta ⟨.ma, g0, 3, 2, 1, 2, 0x1FFF⟩) ∧
    decodeSlot .ma .w256 0x00006382C002 = .ok (.stl ⟨.ma, g0, 3, 4, 1, 3, 2⟩) ∧
    decodeSlot .ma .w256 0x00007303A400 = .ok (.sld ⟨.ma, g0, 3, 0, 1, 6, 9⟩) ∧
    decodeSlot .ma .w256 0x0000830317FF = .ok (.ldt ⟨.ma, g0, 3, 0, 1, 4, 5, -1⟩) ∧
    decodeSlot .mb .w256 0x000093624004 = .ok (.stag ⟨.mb, g0, 3, 3, 1, 1, 4⟩) ∧
    decodeSlot .ma .w256 0x0000A362DE7F = .ok (.amo ⟨.ma, g0, 3, 3, 1, 3, 7, 9, -1⟩) ∧
    decodeSlot .mb .w256 0x0000B0000005 = .ok (.rel ⟨.mb, g0, 5⟩) ∧
    decodeSlot .mb .w256 0x0000C3910000 = .ok (.mcpx ⟨.mb, g0, 3, 9, 1⟩) ∧
    decodeSlot .mb .w256 0x0000D39FFFFE = .ok (.maddi ⟨.mb, g0, 3, 9, -2⟩) ∧
    decodeSlot .ma .w256 0x0000E3800001 = .ok (.mli ⟨.ma, g0, 3, 0x800001⟩) := by
  decide +kernel

theorem test_decodeFabric :
    decodeSlot .xf .w256 0x0000252B0000 = .ok (.recv ⟨g0, 5, 1, 2, 6⟩) ∧
    decodeSlot .xf .w256 0x0000359DBFFD = .ok (.rld ⟨g0, 5, 4, 7, 3, false, -3⟩) ∧
    decodeSlot .xf .w256 0x0000451E4003 = .ok (.rst ⟨g0, 5, 0, 7, 4, true, 3⟩) ∧
    decodeSlot .xf .w256 0x0000557D9CA1 = .ok (.ramo ⟨g0, 5, 3, 7, 7, 2, 0x21⟩) ∧
    decodeSlot .xf .w256 0x0000601C0000 = .ok (.flush ⟨g0, 7⟩) ∧
    decodeSlot .xf .w256 0x0000701C03FF = .ok (.ackw ⟨g0, 7, 1023⟩) := by
  decide +kernel

theorem test_decodeMacros :
    decodeCC32 0x02C5850B = .ok (.mmat ⟨10, 11, 12⟩) ∧
    decodeCC32 0x04C5850B = .ok (.mconv ⟨10, 11, 12⟩) ∧
    decodeCC32 0x06C5850B = .ok (.mattn ⟨10, 11, 12⟩) ∧
    decodeCC32 0x10C5850B = .ok (.msort ⟨10, 11, 12⟩) ∧
    decodeCC32 0x12C5850B = .ok (.mgath ⟨10, 11, 12⟩) ∧
    decodeCC32 0x14C5850B = .ok (.mscat ⟨10, 11, 12⟩) ∧
    decodeCC32 0x20C5850B = .ok (.mcopy ⟨10, 11, 12⟩) ∧
    decodeCC32 0x22C5850B = .ok (.mfill ⟨10, 11, 12⟩) ∧
    decodeCC32 0x24C5850B = .ok (.movly ⟨10, 11, 12⟩) ∧
    decodeCC32 0x30C5850B = .ok (.msel ⟨10, 11, 12⟩) ∧
    decodeCC32 0x32C5850B = .ok (.mtopk ⟨10, 11, 12⟩) ∧
    decodeCC32 0x40C5850B = .ok (.mcoll ⟨10, 11, 12⟩) := by
  decide +kernel

theorem test_decodeExtension :
    decodeCC32 0x00B5100B = .ok (.calBestart 10 11) ∧
    decodeCC32 0x0C07002B = .ok (.calWaitEng 6 14) ∧
    decodeCC32 0x00F7102B = .ok (.calWaitRng 14 15) ∧
    decodeCC32 0x0002A02B = .ok (.calWaitSc 5) ∧
    decodeCC32 0x0402C4AB = .ok (.calPrgrd 2 9 5) ∧
    decodeCC32 0x1E54805B = .ok (.calRngwr 15 9 5) ∧
    decodeCC32 0x0A00105B = .ok (.calRel 5) ∧
    decodeCC32 0x0000205B = .ok (.calAcq 0) ∧
    decodeCC32 0x00C5B55B = .ok (.calOvly ⟨10, 11, 12⟩) ∧
    decodeCC32 0x00C5807B = .ok (.calDrift 11 12) ∧
    decodeCC32 0x0000100F = .ok (.fenceI) ∧
    decodeCC32 0x10500073 = .ok (.wfi) ∧
    decodeCC32 0x1005B52F = .ok (.lr 10 11 3) ∧
    decodeCC32 0x18C5A52F = .ok (.sc 10 11 12 2) := by
  decide +kernel

/-- Words of the standard encodings of RV64IMAC (R181). -/
theorem test_decodeBase :
    decodeCC32 0xFFF50513 = .ok (.controlCoreInstruction ⟨.alui .add false 10 10 (-1), false⟩) ∧
    decodeCC32 0x40C5853B = .ok (.controlCoreInstruction ⟨.alu .sub true 10 11 12, false⟩) ∧
    decodeCC32 0x0085B503 = .ok (.ccLoadStore ⟨.load 10 11 8 3 false, false⟩) ∧
    decodeCC32 0xFEA5AE23 = .ok (.ccLoadStore ⟨.store 11 10 (-4) 2, false⟩) ∧
    decodeCC32 0x34051073 = .ok (.controlCoreInstruction ⟨.csr .rw false 0 10 0x340, false⟩) ∧
    decodeCC16 0x157D = .ok (.controlCoreInstruction ⟨.alui .add false 10 10 (-1), true⟩) ∧
    decodeCC16 0x8082 = .ok (.controlCoreInstruction ⟨.jalr 0 1 0, true⟩) ∧
    decodeCC16 0x9002 = .ok (.controlCoreInstruction ⟨.ebreak, true⟩) := by
  decide +kernel

/-- Words that no table assigns (R75, R79). -/
theorem test_decodeUnassigned :
    decodeSlot .sa .w256 0x000380000000 = .error .unassigned ∧
    decodeSlot .xf .w256 0x000080000000 = .error .unassigned ∧
    decodeSlot .lp .w256 0x000050000000 = .error .unassigned ∧
    decodeSlot .fs .w256 0x0000B0000000 = .error .unassigned ∧
    decodeCC32 0x0800000B = .error .unassigned ∧
    decodeCC32 0x0002A0AB = .error .unassigned ∧
    decodeCC32 0x0E00002B = .error .reservedValue := by
  decide +kernel

/-! ### Well-formedness refuses each ill-formed operand -/

/-- A V form of slot VA at width 256, of element type `t`, with the register fields that it leaves zero. -/
def fz (t : BitVec 5) : FV := ⟨.va, .w256, g0, 1, 2, 0, 0, t, 0, 0⟩

/-- One term for each check of `WellFormed`. -/
def illFormed : List Instr :=
  [.bext ⟨.sa, g0, 1, 2, 60, 4⟩, .bins ⟨.sa, g0, 1, 2, 1, 63⟩, .slli ⟨.sa, g0, 1, 2, 64⟩, .srli ⟨.sa, g0, 1, 2, -1⟩,
    .srai ⟨.sa, g0, 1, 2, 64⟩, .lit ⟨.sa, g0, 1, 0x10000⟩, .cpx ⟨.sa, g0, 1, 0, 11⟩, .cpx ⟨.sa, g0, 1, 8, 9⟩,
    .br ⟨g0, 3, 0⟩, .call ⟨g0, 3, 0⟩, .bri ⟨g0, 3, 0⟩, .calli ⟨g0, 3, 0⟩,
    .vadd (fz 11), .vsub { fz 8 with rnd := 5 }, .vmul { fz 0 with rnd := 1 }, .vfma (fz 2), .vfms (fz 16), .vfnma (fz 0),
    .vmin { fz 8 with rnd := 1 }, .vmax { fz 8 with aux := 1 }, .vclamp (fz 31), .vabs { fz 8 with b := 1 },
    .vneg { fz 8 with c := 1 }, .vand (fz 16), .vor { fz 2 with c := 1 }, .vxor { fz 2 with aux := 1 }, .vandn (fz 12),
    .vsll (fz 8), .vsrl (fz 9), .vsra (fz 10)]

/-- The same for the other forms. -/
def illFormedMore : List Instr :=
  [.vadds (fz 8), .vsubs (fz 10), .vcmp { fz 8 with aux := 7 }, .vcmp { fz 2 with aux := 6 }, .vsel (fz 15), .vperm (fz 16),
    .vshfl { fz 2 with aux := 9 }, .vshfl { fz 2 with aux := 0, b := 1 }, .vred { fz 2 with aux := 6 }, .vscan { fz 8 with aux := 3 },
    .vdot (fz 8), .vcvt ⟨.va, .w256, g0, 1, 2, 8, 8, 0, false⟩, .vcvt ⟨.va, .w256, g0, 1, 2, 16, 17, 0, false⟩,
    .vins ⟨.va, .w256, g0, 1, 32, 2, false, 0⟩, .vext ⟨.va, .w256, g0, 1, 2, 4, 3⟩, .vbcst ⟨.va, .w256, g0, 1, 2, false, 11⟩,
    .vcpx ⟨.va, .w256, g0, 1, 2, 5⟩, .p5dot4 (fz 1), .p5hmul (fz 8), .exp2 ⟨g0, 1, 8, 3⟩, .log2 ⟨g0, 1, 8, 3⟩, .rcp ⟨g0, 1, 8, 3⟩,
    .rsqrt ⟨g0, 1, 8, 3⟩, .sqrt ⟨g0, 1, 8, 3⟩, .tanh ⟨g0, 1, 8, 3⟩, .sigmoid ⟨g0, 1, 8, 3⟩, .erf ⟨g0, 1, 8, 3⟩,
    .sinpi ⟨g0, 1, 8, 3⟩, .cospi ⟨g0, 1, 8, 3⟩, .lds ⟨.ma, g0, 1, 5, 2, 3, 0⟩, .sts ⟨.ma, g0, 1, 3, 2, 4, 0⟩,
    .lda ⟨.ma, g0, 1, 3, 2, 3, 0⟩, .sta ⟨.ma, g0, 1, 0, 2, 1, 0⟩, .ldl ⟨.ma, g0, 1, 0, 2, 7, 0⟩, .stl ⟨.ma, g0, 8, 5, 2, 6, 0⟩,
    .sld ⟨.ma, g0, 1, 6, 2, 6, 0⟩, .ldt ⟨.ma, g0, 1, 4, 2, 4, 0, 0⟩, .stag ⟨.ma, g0, 1, 3, 2, 2, 0⟩,
    .amo ⟨.ma, g0, 1, 3, 2, 3, 8, 0, 0⟩, .amo ⟨.ma, g0, 1, 3, 2, 3, 0, 1, 0⟩, .rel ⟨.ma, g0, 6⟩, .mcpx ⟨.ma, g0, 1, 2, 11⟩,
    .send ⟨g0, 1, 0, 1, 2⟩, .recv ⟨g0, 1, 5, 1, 3⟩, .rld ⟨g0, 1, 0, 1, 3, true, 0⟩, .rst ⟨g0, 1, 3, 1, 4, true, 0⟩,
    .ramo ⟨g0, 1, 0, 1, 0, 0, 0⟩, .ackw ⟨g0, 1, 0⟩, .calWaitEng 0 1, .calWaitEng 7 1, .calPrgrd 1 1 1, .calPrgwr 7 1 1,
    .calRngwr 16 1 1, .calRel 6, .calAcq 6]

/-- The same for the units that an event names (R9, R10). -/
def illFormedEvents : List Instr :=
  [.functionReady (.link 32), .readyBitFall (.fe 16), .functionReady (.die 8), .functionReady (.stack 8), .linkLatencyLoss 32,
    .dataDoorbell 131072 0 0, .controlDoorbell 131072 0 0, .queueMapping 4, .dispatch 16, .ageingQuantum 4, .launch 16, .copy 16,
    .barrier 16, .signal 16, .fence 16, .faultQueueConsume 4 0, .lateReply 4096 0 0, .homeSliceCycle 8 0, .homeSliceCycle 0 48,
    .shootDown 8 0 0 0, .shootDown 0 4 0 0, .patrolScrub 8 0, .patrolScrub 0 (2 ^ 30), .macroStart ⟨.cx, 8, 0⟩,
    .chunkCommit ⟨.weir, 0, 8⟩, .cxSendStep ⟨.cx, 0, 16⟩, .cxReceiveStep ⟨.cx, 8, 0⟩, .entryComplete ⟨.mx, 0, 1⟩,
    .macroStop ⟨.px, 0, 1⟩, .entryReissue ⟨.ce, 0, 1⟩, .entryFlush ⟨.weir, 8, 0⟩, .auditRecomputation 8,
    .flitArrival ⟨0, 0, 0, 4096, 0, 0, 0, 0, false, 0, false, none, none⟩, .switchForward 2 [], .ackArrival 4096 0 0,
    .ackArrival 0 8 0, .replyArrival 4096 0 0 false, .frequencyRequest 256 0]

theorem test_wellFormed : (∀ i ∈ illFormed, WellFormed i = false) ∧ (∀ i ∈ illFormedMore, WellFormed i = false) ∧
    (∀ i ∈ illFormedEvents, WellFormed i = false) ∧
    ∀ i ∈ [Instr.bext ⟨.sa, g0, 1, 2, 60, 3⟩, .br ⟨g0, 2, 0⟩, .vfma (fz 8), .vcmp { fz 8 with aux := 6 }, .ackw ⟨g0, 1, 1⟩, .calRel 5,
      .auditRecomputation 7, .launch 15], WellFormed i = true := by
  decide +kernel

/-! ### Single steps: the worked examples of the spec -/

/-- The state after an instruction. -/
def after (i : Instr) (s : State) : State :=
  match exec i s with
  | .next t => t
  | .fault _ => s
  | .refused _ => s

/-- Core 0 with sa1 and sa2 as given. -/
def holding (x y : Word) : State :=
  onCore fun k => { k with be := { k.be with regs := { k.be.regs with sa := (k.be.regs.sa.set 1 x).set 2 y } } }

/-- The data and the latency of the result that an instruction leaves on its way. -/
def sends (i : Instr) (s : State) : List (Nat × Nat) := ((after i s).core 0).be.landings.map fun l => (l.data.toNat, l.due - l.issue)

/-- The table of R107, of its second row the quotient of the two signed values, landing 18 cycles later. -/
theorem test_division :
    sends (.div ⟨.sa, g0, 3, 1, 2⟩) (holding (-7) 2) = [(2 ^ 64 - 3, 18)] ∧
    sends (.rem ⟨.sa, g0, 3, 1, 2⟩) (holding 7 (-2)) = [(1, 18)] ∧
    sends (.divu ⟨.sa, g0, 3, 1, 2⟩) (holding (-7) 2) = [(0x7FFFFFFFFFFFFFFC, 18)] ∧
    sends (.remu ⟨.sa, g0, 3, 1, 2⟩) (holding 5 0) = [(5, 18)] ∧
    sends (.div ⟨.sa, g0, 3, 1, 2⟩) (holding 0x8000000000000000 (-1)) = [(2 ^ 63, 18)] ∧
    sends (.rem ⟨.sa, g0, 3, 1, 2⟩) (holding 0x8000000000000000 (-1)) = [(0, 18)] := by
  decide +kernel

/-- R105: an ADD wraps; R108: CTZ of zero is 64; R109: BINS keeps the other bits of the destination. -/
theorem test_scalar :
    sends (.add ⟨.sa, g0, 3, 1, 2⟩) (holding (-1) 2) = [(1, 1)] ∧ sends (.ctz ⟨.sa, g0, 3, 0⟩) (holding 0 0) = [(64, 1)] ∧
    sends (.bins ⟨.sa, g0, 2, 1, 8, 7⟩) (holding 0xAB 0x12345678) = [(0x1234AB78, 1)] ∧
    sends (.mulh ⟨.sa, g0, 3, 1, 2⟩) (holding (-1) 1) = [(2 ^ 64 - 1, 3)] := by
  decide +kernel

/-- The example bundle of R83: its stored bytes, its slots, and no rule of R65 broken; the bundle after it breaks rule 5. -/
theorem test_bundle_example :
    let v := bundle 0x11C3 [(0, 0x000013120000), (1, 0xD11387FFFFFB), (2, 0x000041234400), (6, 0x000015058001)]
    forbidden v = false ∧ illegalSlots v = [] ∧ legalOps v =
      [.add ⟨.sa, g0, 3, 1, 2⟩, .br ⟨⟨true, 20, 17⟩, 1, -5⟩, .vfma ⟨.va, .w1024, g0, 1, 2, 3, 4, 8, 0, 0⟩, .nop .vb g0,
        .nop .vc g0, .nop .fs g0, .lds ⟨.ma, g0, 5, 0, 2, 6, 1⟩, .nop .mb g0, .nop .xf g0, .nop .lp g0] ∧
    bytesOf v 22 = [0xC3, 0x11, 0, 0, 0, 0, 0x12, 0x13, 0, 0, 0xFB, 0xFF, 0xFF, 0x87, 0x13, 0xD1, 0, 0x44, 0x23, 0x41, 0, 0] ∧
    forbidden (bundle 0xA0C [(3, 0x000201260000), (5, 0x000040600000)]) = true := by
  decide +kernel

/-- The example of R150: eight f32 values reduce by the tree to 2^24 + 6. -/
theorem test_reduction_tree :
    let x := 0x4B800000 + 0x3F800000 * (2 ^ 32 + 2 ^ 64 + 2 ^ 96 + 2 ^ 128 + 2 ^ 160 + 2 ^ 192 + 2 ^ 224)
    let s := onCore fun k => { k with be := { k.be with regs := { k.be.regs with va := k.be.regs.va.set 1 (BitVec.ofNat 1024 x) } } }
    sends (.vred ⟨.va, .w256, g0, 2, 1, 0, 0, 8, 0, 0⟩) s = [(0x4B800003, 6)] := by
  decide +kernel

/-- The example of R161: micro-step 3 of P5DOT4 adds 3 × (−7) to 3. -/
theorem test_micro_step :
    let s := micro0 5 3 (.p5dot4 ⟨.va, .w1024, g0, 4, 1, 2, 3, 2, 0, 0⟩)
    let s := s.modBe 0 fun b => { b with
      regs := { b.regs with va := b.regs.va.set 4 3, mh := (b.regs.mh.set 0 0x0403FE01).set 1 0x08F90605 } }
    ((after .p5MicroStep s).core 0).be.landings.map (fun l => l.data.toNat % 2 ^ 32) = [2 ^ 32 - 18] := by
  decide +kernel

/-- The example of R174 and R175: the weights of index 0x2A5B with the table entry 0x800C8409 and the scale 0x7E, in quarters. -/
theorem test_codebook_weights :
    (List.range 8).map (fun k => (mxValue 8 (sampleOf (glcCode 0x800C8409 0x2A5B k) 0x7E)).1) =
      [.fin false 0 0, .fin false 3 (-2), .fin true 1 (-2), .fin false 0 0, .fin false 2 (-2), .fin false 0 0, .fin false 1 (-2),
        .fin true 1 (-2)] := by
  decide +kernel

/-- The example of R180: the group's exact sum is rounded once and added to the accumulator. -/
theorem test_group_sum :
    let e (a : Nat) := mxValue 0 (sampleOf a 0x7F)
    (accumulate false 0x3F800000 [[(e 0x78, e 0x78), (e 0x01, e 0x01), (e 0xF8, e 0x78)]]).1 = 0x3F800020 := by
  decide +kernel

/-- The example of R245: IA 0x3000 moves from die 1 to die 3 when partition 0 takes four stacks. -/
theorem test_home_of_address :
    let s := (State.reset.modPart 0 fun t => { t with words := t.words.set 0 0x8103000F03460320 }).modPart 1 fun t =>
      { t with words := t.words.set 0 0x820C00F00C460320 }
    s.home 0 0x3000 = (1, 0x1000) ∧ (after (.merge 3) s).home 0 0x3000 = (3, 0) := by
  decide +kernel

/-- The example of R391: two holds requested at basin count 1,010,000 are inserted there, and the basin count stands. -/
theorem test_hold_cycles :
    let s := { State.reset with basin := 1010000, drift := { State.reset.drift with reqs := [⟨1010000, 2, none⟩] } }
    (after .holdCycles s).drift.holds = 2 ∧ (after .holdCycles s).basin = 1010000 ∧ (after .holdCycles s).drift.reqs = [] := by
  decide +kernel

/-- R181: a step runs ADDI x10, x10, −1 at the pc. -/
theorem test_step_runs_addi :
    let t := match step (State.reset.withFetchWord 32 0xFFF50513) with
      | .next t => t
      | _ => State.reset
    (t.core 0).cc.x[10]? = some (-1 : Word) ∧ (t.core 0).cc.pc = 4 := by
  decide +kernel

/-! ### Loaded kernels (R87, R91, R399, R400) -/

/-- The Smider dot product of R400's example, bundle by bundle. -/
def dotKernel : List Nat :=
  let b (w0 w1 w2 w3 : Nat) : Nat := w0 + 2 ^ 32 * w1 + 2 ^ 64 * w2 + 2 ^ 96 * w3
  [b 0x20040400 0x20080480 0 0, b 0x200C0500 0x20100040 0 0x01820E00, b 0 0 0x0D0C30C6 0x01841600, b 0 0 0xE00C108A 0,
    b 0 0xF0000000 0x19103008 0, b 0 0 0 0x02881A00, b 0x3E000000 0 0 0x02081A01]

/-- The operations of the example that its statements name. -/
def dotOps : List SmOp :=
  [.imm 0x20 1 0 1024, .imm 0x20 2 0 1152, .imm 0x20 3 0 1280, .imm 0x20 4 0 64, .mem 1 true 1 1 6 0, .vec 0x0D 3 3 3 0 6 0,
    .mem 1 true 2 2 6 0, .dotAcc 3 1 2, .vec 0x19 4 3 0 0 8 0, .mem 2 true 4 3 2 0, .halt, .mem 2 false 4 3 2 1]

/-- The example's load request: sa1 to sa3, va1 to va8, ma1 to ma3. -/
def dotRequest : SmRequest := ⟨[1, 2, 3], [], [1, 2, 3, 4, 5, 6, 7, 8], [], [], [1, 2, 3]⟩

theorem test_smider_decodes : (smKernel dotKernel).toOption = some dotOps := by decide +kernel

/-- The assignment of the example: s3 and s4 spill to 0xF_FFF8 and 0xF_FFF0, and v4 takes va1 again. -/
theorem test_smider_assignment :
    let a := assignRanges dotRequest dotOps
    a.place (.reg (.s 1)) = some (.reg ⟨0, 1⟩) ∧ a.place (.reg (.s 2)) = some (.reg ⟨0, 2⟩) ∧
      a.place (.reg (.s 3)) = some (.spill 0) ∧ a.place (.reg (.s 4)) = some (.spill 1) ∧ a.slotAddr 15 0 = 0xFFFF8 ∧
      a.slotAddr 15 1 = 0xFFFF0 ∧ a.place (.temp 8 1 true) = some (.reg ⟨6, 5⟩) ∧ a.place (.reg (.v 4)) = some (.reg ⟨6, 1⟩) := by
  decide +kernel

/-- The words of the expansion of VDOTACC in the example. -/
theorem test_smider_expansion :
    ((SmOp.dotAcc 3 1 2).native (SmAssign.operandsOf dotRequest (assignRanges dotRequest dotOps) 8 2)).map (fun l =>
      l.map fun x => match x with
        | .op i => (encodeSlot i).toNat
        | .branch .. => 0) =
    some [0x0001C4150400, 0x0001C5350400, 0x000042452400, 0x0001C4150401, 0x0001C5350401, 0x000042452400] := by
  decide +kernel

/-- The spill record of the example: BANK 15, OFFSET 1023, SIZE 1, RELOC 1, live in every native bundle. -/
theorem test_spill_record :
    (match loadSmider false dotKernel dotRequest 1 [⟨1, 0, 0, false, 0, 20, 0, 18⟩] with
      | .ok k => k.spill == some ⟨1, 15, 0, true, 1023, 1, 0, k.bundles.length - 1⟩ && k.imms == [⟨320, 24, 0⟩]
      | .error _ => false) = true := by
  decide +kernel

/-- R87: a kernel of one bank beside another in bank 0 moves one bank up, and is refused where it may not move. -/
theorem test_place_kernel :
    placeKernel [⟨1, 0, 0, false, 0, 1024, 0, 9⟩] [⟨2, 0, 0, true, 0, 16, 0, 9⟩] = some 1 ∧
      placeKernel [⟨1, 0, 0, false, 0, 1024, 0, 9⟩] [⟨2, 0, 0, false, 0, 16, 0, 9⟩] = none := by
  decide +kernel

/-- A kernel placed one bank up, and an operation translated. -/
theorem meets_LoadedKernels :
    placeKernel [⟨1, 0, 0, false, 0, 1024, 0, 9⟩] [⟨2, 0, 0, true, 0, 16, 0, 9⟩] = some 1 ∧
      ((SmOp.dotAcc 3 1 2).native (SmAssign.operandsOf dotRequest (assignRanges dotRequest dotOps) 8 2)).isSome = true := by
  decide +kernel

/-! ### The hypotheses of the completion statements are met (R5) -/

theorem meets_QueueEventsComplete :
    ((sMap.part 0).pending.head? = some 9 ∧ sMap.mapSlot 0 = some 1 ∧ (sMap.slot 1).queue = none ∧ sMap.hw.updating = false ∧
      (sMap.queueRec 9).v = true ∧ (sMap.queueRec 9).inRange = true) ∧
    (∀ ws ∈ [[4 + 256], [5], [3, 0, 7]], let s := sRing ws
      sget s.io.disps 0 = none ∧ s.dispatchSlot 0 = some 0 ∧ (s.slot 0).queue = some 0 ∧
      s.cmdValid ((s.partOfQueue 0).getD 0) (s.nextCmd ((s.partOfQueue 0).getD 0) (s.slot 0).rec_) = true) ∧
    0 ∈ (sRing [5]).slotsOf 0 ∧ (sRing [5]).slotReady 0 = true := by
  decide +kernel

/-- Domain 3 of a basin launch, the one domain of the module, and a notice that names its run. -/
def notice0 (target resp : Nat) : Notice :=
  { target, path := [], timetable := 5, run := 1000, resp, replays := 0, ba := 77, cause := 1, subcause := 0 }

theorem meets_LaunchEventsComplete :
    (let s := launchedAt (domain0 .running false false) .ending; s.canFinish s.cur = true) ∧
    (let d := domain0 .running false false;
      (launchedAt d .finished).dom 3 = some d ∧ (launchedAt d .finished).retireReady 3 d = true ∧ Spec.flushes (launchedAt d .finished) 3 d ∧ d.phase ≠ .ended ∧
      d.phase ≠ .evicted ∧ d.basin = false) ∧
    (let s := launched (domain0 .running false true); (notice0 7 5).target ≠ s.moduleId) ∧
    (∀ resp ∈ [4, 5], let d := domain0 .running false true; let s := launched d
      let n := notice0 s.moduleId resp
      n.target = s.moduleId ∧ s.doms = [(3, d)] ∧ Spec.noticed n d = true ∧ d.replayBa = none ∧ d.replays = n.replays ∧ Spec.fresh s n ∧
      d.phase ≠ .evicted ∧ n.resp = resp) ∧
    let d := { domain0 .armed false true with replayBa := some 5 }; let s := { launched d with basin := 2 ^ 21 }
    s.dom 3 = some d ∧ d.replayBa = some 5 ∧ d.phase = .armed ∧ 5 + 2 ^ 20 < s.basin := by
  refine ⟨by decide +kernel, ⟨by decide +kernel, by decide +kernel, ⟨_, rfl, by decide +kernel, by decide +kernel⟩,
    by decide +kernel⟩, by decide +kernel, by simp only [Spec.fresh]; decide +kernel, by decide +kernel⟩

theorem meets_MemoryEventsComplete :
    (let s := lined 0; let l : L1Line := { data := 0xAABBCCDD, valid := 0xF, dirty := 0 }
      ((Spec.cc s).l1.map Prod.fst).Nodup ∧ sget (Spec.cc s).l1 (0x30080 / 128) = some l ∧ l.dirty = 0) ∧
    (let r := { req0 .load 4 with xlat := .waiting }; let s := asking [r]
      s.mem.reqs = [r] ∧ r.xlat = .waiting ∧ r.engine = 1 ∧ r.core = s.cur ∧ r.kind = .load ∧ r.dom = none ∧
      s.translateHome r.part r.ia true false = .ok 0x30010 0xF000000000030000 0) ∧
    (let r := { req0 .load 4 with xlat := .waiting, timed := true, dom := some 3, issue := 100 }
      let d := domain0 .running true false
      let s := { inDomain (asking [r]) d with basin := 1356 }
      s.mem.reqs = [r] ∧ r.xlat = .waiting ∧ r.engine = 1 ∧ r.core = s.cur ∧ r.timed = true ∧ r.dom = some 3 ∧
      (s.core s.cur).dom = some 3 ∧ s.dom 3 = some d ∧ d.phase = .running ∧ d.timed = true ∧ d.basin = false ∧
      r.issue + 256 ≤ s.sc s.cur) ∧
    (∃ e ∈ (world []).mem.tlb, e.stack = 0 ∧ e.part = 0 ∧ e.block * 65536 ≤ 0x30000 ∧ 0x30000 < (e.block + 1) * 65536 ∧ e.pins = []) ∧
    (let s := bound 4; let b : Binding := ⟨0, 0, 2, 3, 7, 4⟩
      s.mem.bindings = [b] ∧ b.copied.getLsbD 0 = false ∧
      (s.leafAt b.part b.stack (b.block * 65536 + 64 * 0)).isSome = true) ∧
    let s := { world [] with mem := { (world []).mem with check := [(5, 1)] } }
    s.mem.delta (0 * 2 ^ 30 + 6 % 2 ^ 30) (s.sectorPage 0 (64 * 6)).1 (s.sectorPage 0 (64 * 6)).2.1 = 0 := by
  decide +kernel

theorem meets_EngineEventsComplete :
    (∀ f ∈ forms, let s := waitingAt f 20
      s.live s.cur = true ∧ s.timed s.cur = false ∧ s.canStart s.cur (seqrOf f) = some (entry0 f)) ∧
    ((let s := runs0 1 5 0 0 1000 []; let a := active0 1 5 0 0
        formEng a.entry.form = .mx ∧ Spec.elastic s (Spec.own .mx) a [] ∧ Spec.nextDue s (Spec.own .mx) a ∧
        (s.core s.cur).eng.spadPoison = [] ∧ (descA a.entry.block).tagchk = false ∧ (descB a.entry.block).tagchk = false) ∧
      let s := runs0 8 5 0 0 1000 []; let a := active0 8 5 0 0
      a.entry.form = 8 ∧ Spec.elastic s (Spec.own .px) a [] ∧ Spec.nextDue s (Spec.own .px) a ∧
        (s.core s.cur).eng.spadPoison = [] ∧ (descA a.entry.block).tagchk = false ∧ (descB a.entry.block).tagchk = false) ∧
    (∀ f ∈ [8, 9, 10], let b := (entry0 f).block; let g := (pxPoints f b (pxPos f b 2).chunk).length + 1
      let s := inFlight f 5 2 g (900 + commitOfs f b 2) []; let a := active0 f 5 3 2; let st := step0 2 900 g []
      Spec.elastic s (Spec.own .px) a [st] ∧ (pxPoints a.entry.form a.entry.block (pxPos a.entry.form a.entry.block st.n).chunk).length < st.stage ∧
      st.readsCome = true ∧ st.t0 + commitOfs a.entry.form a.entry.block st.n ≤ s.sc s.cur ∧ Spec.nothingOut s s.cur) ∧
    (∀ f ∈ [0x10, 0x11], let s := inFlight f 5 2 2 1000 []; let st := step0 2 900 2 []
      Spec.elastic s (Spec.own .ce) (active0 f 5 3 2) [st] ∧ st.stage = 2 ∧ Spec.nothingOut s s.cur) ∧
    (let sm : Sparse (List Nat) := [(0, List.range 64), (1, [1])]; let s := planned 0 64 1 20 sm; let a := active0 0x20 1 1 0
      let q := seqrOf 0x20
      ∃ ps, Spec.planStepAt s q a (step0 0 900 1 sm) ps false 1 ∧ decide ((Spec.planSpan a.entry.block ps).1 = false ∧
        a.startSC + ps.delta ≤ s.sc (s.seqCore q) ∧
        s.planBytes (dieOf ps.pcore) q.idx + (Spec.planSpan a.entry.block ps).2.2 ≤ 65536 ∧
        (s.route (s.partOf (s.seqCore q)) ps.route).v = true) = true) ∧
    (let s := planned (2 ^ 63) (3 * 2 ^ 48 + 64) 2 904 []
      ∃ ps, Spec.planStepAt s (seqrOf 0x20) (active0 0x20 1 1 0) (step0 0 900 2 []) ps true 2 ∧
        decide ((s.core (s.seqCore (seqrOf 0x20))).be.accesses = [] ∧ s.mem.reqs = []) = true) ∧
    (∀ f ∈ forms,
      (let s := finishing f 0; let q := seqrOf f; let a : ActiveEntry := ⟨entry0 f, 20, 5, 5, 5, []⟩; let x := s.seq (s.seqCore q) q
        Spec.runsOne s q a ∧ a.total ≤ a.committed ∧ x.steps = [] ∧ x.stopEv = none ∧ x.prog.state = 1 ∧
        s.pendingBytes (s.seqCore q) q.eng a.entry.issue = 0) ∧
      (let s := stopping f (some event0); let q := seqrOf f; let a : ActiveEntry := ⟨entry0 f, 20, 3, 3, 5, []⟩
        let x := s.seq (s.seqCore q) q
        Spec.runsOne s q a ∧ x.stopEv = some event0 ∧ x.steps = [] ∧ s.pendingBytes (s.seqCore q) q.eng a.entry.issue = 0) ∧
      let s := stopping f none; let q := seqrOf f; let a : ActiveEntry := ⟨entry0 f, 20, 3, 3, 5, []⟩
      Spec.runsOne s q a ∧ (s.seq (s.seqCore q) q).prog.state = 2) ∧
    (let s := refetching [copied0] (some 0x1000) (some redo0);
      s.live s.cur = true ∧ s.timed s.cur = false ∧ (s.core s.cur).eng.redo = some redo0 ∧ redo0.mx = true ∧
      redo0.act.total ≤ redo0.act.committed) ∧
    (∀ e ∈ (auditing [imageOk] (0, 0)).cores, ((auditing [imageOk] (0, 0)).core e.1).staging = none) ∧
    let d := (sget (auditing [imageOk] (0, 0)).audit 0).getD default
    d.images = [imageOk] ∧ d.glitch = (0, 0) := by
  refine ⟨by decide +kernel, ⟨?_, ?_⟩, ?_, ?_, planStepAt_of (by decide +kernel), planStepAt_of (by decide +kernel), ?_,
    by decide +kernel, ?_, rfl, rfl⟩
  · simp only [Spec.elastic, Spec.nextDue]; decide +kernel
  · simp only [Spec.elastic, Spec.nextDue]; decide +kernel
  · simp only [Spec.elastic, Spec.nothingOut]; decide +kernel
  · simp only [Spec.elastic, Spec.nothingOut]; decide +kernel
  · simp only [Spec.runsOne]; decide +kernel
  · show ∀ e ∈ (world []).cores, ((world []).core e.1).staging = none
    decide +kernel

theorem meets_FabricEventsComplete :
    (let f := flit0 0 3 none none;
      f.dstCore < 4096 ∧ f.req = none ∧ f.plan = none ∧ f.stream < 8 ∧ sDom.live f.dstCore = true ∧
      (sDom.core f.dstCore).dom ≠ none ∧ ((sDom.core f.dstCore).fab.rx[f.stream]?).getD none = none) ∧
    (let f := flit0 0 3 none (some (1, 2, [4])); f.dstCore < 4096 ∧ f.req = none ∧ f.plan ≠ none) ∧
    (let x := atPort 5 1 1 false 0; let s := switching [x];
      s.io.inject = [x] ∧ x.link / 16 = 0 ∧ x.flit.timed = false ∧ s.linkHeld x.link = false ∧ x.flits ≤ 1) ∧
    (let s := { sDom with io := { sDom.io with unacked := [(4, 5, 2, 63)] } }; 0 < Spec.unacked s 4 5 2 ∧ 4 ≠ s.moduleId) ∧
    (let s := sDom.modCore 0 fun k => { k with be := Spec.withXf k.be 2 (Spec.xfWord 7 9 5 4) };
      s.cur < 4096 ∧ Spec.noneEvicted s ∧ 5 ≤ Spec.outOf s 2) ∧
    (let l := { landing0 0 with src := some 4 }
      let s := sDom.modCore 0 fun k => { k with fab := { k.fab with loads := [(17, 2, 4, 1)] }, be := { k.be with landings := [l] } };
      Spec.noneEvicted s ∧ (s.core s.cur).fab.loads = [(17, 2, 4, 1)] ∧ (Spec.be s).landings = [l] ∧ l.src = some 4 ∧
      s.timed s.cur = false) ∧
    let s := blocked 4096
    let v := bundle 0x4000 [(8, 0x000013070000)]
    Spec.atStep s ∧ s.timed s.cur = false ∧ (s.core s.cur).dom = none ∧ 4096 ≤ (Spec.be s).sendWait ∧
      (Spec.npq (Spec.be s) 0).annul = false ∧ (s.core s.cur).eng.bundleAt (Spec.npq (Spec.be s) 0).addr = some v ∧
      forbidden v = false ∧ illegalSlots v = [] ∧ s.wrmode s.cur ≠ 2 ∧
      ∃ e, (legalOps v).flatMap (slotEvents (s.modBe s.cur fun b => b.beginStep (Spec.npq (Spec.be s) 0).addr)) = [e] ∧ e.cause = 0x09 := by
  refine ⟨by decide +kernel, by decide, by decide +kernel, by decide +kernel, by simp only [Spec.noneEvicted]; decide +kernel,
    by simp only [Spec.noneEvicted]; decide +kernel, ?_⟩
  have h := meets_FabricSwitch.2.2.2
  exact ⟨h.1, h.2.1, h.2.2.1, h.2.2.2.1, h.2.2.2.2.1, h.2.2.2.2.2.1, h.2.2.2.2.2.2.1, h.2.2.2.2.2.2.2.1, h.2.2.2.2.2.2.2.2.1,
    h.2.2.2.2.2.2.2.2.2.1⟩

theorem meets_EthernetEventsComplete :
    let s := port0 1 [(0x22100, 16)] (some 112000)
    ((frame0 1).pause = false ∧ ¬ Spec.goodFrame (frame0 1) ∧ Spec.goodFrame (frame0 8) ∧ (frame0 8).ce = true ∧
      (s.qp (frame0 8).qp).valid = true ∧ (s.qp (frame0 8).qp).lastCnpSent = none) ∧
    (∀ k ∈ [Region.rd, Region.wr, fun r => r.at_ && 0 % 8 == 0], Spec.regionAt s 3 0x70005 0 8 k 0 0x22000) ∧
    (Spec.plainSector s 0 0x22000 8 false true 0x22000 ∧ Spec.plainSector s 0 0x22000 8 true false 0x22000 ∧
      Spec.plainSector s 0 0x22000 8 true true 0x22000 ∧ Spec.plainSector s 0 0x22100 8 false true 0x22100) ∧
    (Memory.wf s.mem.hbm = true ∧ s.mem.strong = [] ∧ (s.qp 3).bufs = [(0x22100, 16)] ∧ (s.qp 3).part = 0 ∧ (s.qp 3).valid = true) ∧
    (s.qp 3).lastCnpRecv = some 112000 ∧ 112000 + 88000 ≤ s.basin ∧ 0 < (s.qp 3).retry := by
  refine ⟨by simp only [Spec.goodFrame]; decide +kernel, meets_EthernetPort.2.2.1, meets_EthernetPort.2.2.2.1, by decide +kernel,
    by decide +kernel⟩

end Sys2Proof.Tests
end

section
/-! Every turn of a cycle answers: what `exec` answers for each instruction and event (R5, R75), and what a step runs
(R5, R181). -/

open Sys2Proof Sys2Proof.Machine

namespace Sys2Proof.Machine

/-! ### What `exec` answers -/

/-- A slot operation runs as `slotDo` describes it: its effect where its guard holds, the other one where it fails. -/
theorem exec_slot (i : Instr) (s : State) (h : i.form.2 ≠ .notSlot) :
    exec i s = runSlot i (slotDo i).1 (slotDo i).2 s := by
  cases i <;> first | rfl | exact absurd rfl h

/-- An outcome that is a next state where `ok` holds, and where it does not, at worst the stop by a unit that does not
exist. -/
def Answers (ok : Prop) (o : Host.Outcome State Fault Refusal) : Prop :=
  (∃ t, o = .next t) ∨ ¬ ok ∧ o = .fault .noSuchUnit

theorem Answers.next {ok : Prop} (t : State) : Answers ok (.next t) := .inl ⟨t, rfl⟩

/-- The shape of an event that names a unit: it runs where the check of the unit passes. -/
theorem Answers.guarded {ok : Prop} {b : Bool} (h : ok → b = true) (t : State) :
    Answers ok (if b = true then .next t else .fault .noSuchUnit) := by
  by_cases hb : b = true
  · rw [if_pos hb]; exact .next t
  · rw [if_neg hb]; exact .inr ⟨fun k => hb (h k), rfl⟩

/-- What `exec` answers: a next state, or the stop by a unit that the event names and the module does not have. -/
theorem exec_answers (i : Instr) (s : State) : Answers (Spec.named i) (exec i s) := by
  by_cases hslot : i.form.2 = .notSlot
  · cases i with
    | functionReady | readyBitFall | linkLatencyLoss | dataDoorbell | controlDoorbell | queueMapping | dispatch
    | ageingQuantum | launch | copy | barrier | signal | fence | faultQueueConsume | lateReply | homeSliceCycle | shootDown
    | patrolScrub | auditRecomputation | flitArrival | switchForward | ackArrival | replyArrival | frequencyRequest =>
      exact .guarded And.left _
    | headwaterTableWrite w => exact .guarded (fun h => h.2 w rfl) _
    | _ => first | exact .next _ | exact absurd hslot (by intro h; cases h)
  · rw [exec_slot i s hslot]
    exact .inl (runSlot_next i _ _ s)

/-- Settles O52, from what `exec` answers: an arm that checks a unit checks no more than `named` asks. -/
theorem everyInstructionAnswers : Obligations.EveryInstructionAnswers := by
  refine ⟨fun i s hn => ?_, fun i s _ => ?_⟩
  · obtain h | ⟨h, -⟩ := exec_answers i s
    · exact h
    · exact absurd hn h
  · obtain h | ⟨-, h⟩ := exec_answers i s
    · exact .inr h
    · exact .inl h

/-! ### What a step runs -/

theorem step_turn {s : State} {t : Turn} {rest : List Turn} (h : s.agenda = t :: rest) :
    step s = runTurn t { s with agenda := rest } := by
  simp only [step, h]

theorem step_cycle {s : State} (h : s.agenda = []) : step s = .next s.nextCycle := by
  simp only [step, h]

/-- The form in which a control core's instruction runs is the specification's (R190). -/
theorem resolve_eq_formOf (s : State) (c : Nat) (i : Instr) : s.resolve c i = Spec.formOf s c i := by
  cases i <;> rfl

/-- The fetch of a control core that executes, where the bytes at its pc decode. -/
theorem ccFetch_of_fetches {s : State} {c : Nat} {i : Instr} (h : Spec.fetches s c i) :
    s.ccFetch c = .ok (Spec.formOf s c i) := by
  obtain ⟨-, bs, n, hb, hd⟩ := h
  have hb' : (({ s with cur := c } : State).core c).fetchBytes = some bs := hb
  rw [← resolve_eq_formOf]
  simp only [State.ccFetch, hb', hd]
  rfl

theorem ccTurn_of_fetches {s : State} {c : Nat} {i : Instr} (h : Spec.fetches s c i) :
    ccTurn c s = exec (Spec.formOf s c i) { s with cur := c } := by
  rw [ccTurn, if_pos h.1, ccFetch_of_fetches h]

theorem step_of_fetches {s : State} {c : Nat} {i : Instr} {rest : List Turn} (ha : s.agenda = .cc c :: rest)
    (h : Spec.fetches s c i) : step s = exec (Spec.formOf s c i) { s with agenda := rest, cur := c } := by
  rw [step_turn ha]
  exact ccTurn_of_fetches (s := { s with agenda := rest }) h

/-- A cycle without hold cycles due: the basin count rises, and no core, memory, partition or domain changes. -/
theorem nextCycle_of_no_holds {s : State} (h : ∀ r ∈ s.drift.reqs, s.basin < r.b) :
    s.nextCycle.basin = s.basin + 1 ∧ s.nextCycle.cores = s.cores ∧ s.nextCycle.mem = s.mem ∧
      s.nextCycle.parts = s.parts ∧ s.nextCycle.doms = s.doms := by
  have hn : ¬ (s.drift.reqs.any fun r => decide (r.b ≤ s.basin)) = true := by
    simpa using h
  have hsync : s.tableSync.cores = s.cores ∧ s.tableSync.mem = s.mem ∧ s.tableSync.parts = s.parts ∧
      s.tableSync.doms = s.doms := by
    unfold State.tableSync; split <;> exact ⟨rfl, rfl, rfl, rfl⟩
  rw [State.nextCycle, if_neg hn]
  exact ⟨rfl, hsync⟩

theorem nextCycle_of_holds {s : State} (h : ∃ r ∈ s.drift.reqs, r.b ≤ s.basin) :
    s.nextCycle = { s with agenda := [.op s.cur .holdCycles] } := by
  have hd : (s.drift.reqs.any fun r => decide (r.b ≤ s.basin)) = true := by simpa using h
  rw [State.nextCycle, if_pos hd]

/-! ### The instruction that stands next after reset (log 20) -/

/-- The regions of an instruction scratchpad whose region 0 holds code for the control core at byte address 0. -/
def codeAtZero : Vector Word 16 := Engines.reset.regions.setIfInBounds 0 0xC000000000000000

/-- The fetch from region 0, at its first two half words, in M mode. -/
theorem fetchHalf_codeAtZero {k : Engines} (h : k.regions = codeAtZero) {pc : Nat} (hpc : pc = 0 ∨ pc = 2) :
    k.fetchHalf .m pc = some (readBytes k.ispad pc 2) := by
  have hr : ∀ p ∈ [0, 2], findRegion true p 0 codeAtZero.toList = some 0 := by decide +kernel
  have hb : regionBase ((codeAtZero[0]?).getD 0) = 0 := by decide +kernel
  have := hr pc (by simpa using hpc)
  simp only [Engines.fetchHalf, h, this, hb]
  simp

/-- The bytes at the pc of such a core: those of the word that stands there, two or four. -/
theorem fetchBytes_codeAtZero {k : Core} (hr : k.eng.regions = codeAtZero) (hm : k.cc.mode = .m) (hpc : k.cc.pc = 0)
    {b0 b1 b2 b3 : Byte} (hb : k.eng.ispad = writeBytes [] 0 [b0, b1, b2, b3]) :
    k.fetchBytes = some (if isCC32 b0.toNat then [b0, b1, b2, b3] else [b0, b1]) := by
  have hbyte (j : Nat) : byteAt (writeBytes [] 0 [b0, b1, b2, b3]) j = [b0, b1, b2, b3].getD j 0 := by
    rw [byteAt_writeBytes wf_nil]
    split
    · rfl
    · rename_i h
      rw [List.getD_eq_default _ _ (by simp at h ⊢; omega)]; rfl
  have hlo := fetchHalf_codeAtZero hr (.inl (rfl : (0 : Word).toNat = 0))
  have hhi := fetchHalf_codeAtZero hr (.inr (rfl : (0 : Word).toNat + 2 = 2))
  simp only [Core.fetchBytes, hm, hpc, hlo, hhi, hb, readBytes, hbyte]
  split <;> simp_all

/-- A word of four bytes decodes as the bytes that a fetch takes of it. -/
theorem decodeCC_fetched (b0 b1 b2 b3 : Byte) :
    decodeCC (if isCC32 b0.toNat then [b0, b1, b2, b3] else [b0, b1]) = decodeCC [b0, b1, b2, b3] := by
  split
  · rfl
  · rename_i h; simp only [decodeCC, h]; rfl

theorem fetches_withFetchWord {nbits w : Nat} {i : Instr} (hd : decodeTableWord nbits w = some i) (hn : nbits ≤ 32) :
    Spec.fetches (State.reset.withFetchWord nbits w) 0 i := by
  have hlen : max nbits 32 / 8 = 4 := by omega
  let byte (n : Nat) : Byte := BitVec.ofNat 8 (w / 2 ^ (8 * n))
  have hdec : ∃ n, decodeCC [byte 0, byte 1, byte 2, byte 3] = .ok (i, n) := by
    unfold decodeTableWord at hd
    rw [hlen] at hd
    dsimp only at hd
    split at hd
    · rename_i n h; cases hd; exact ⟨n, h⟩
    · cases hd
  obtain ⟨n, hdec⟩ := hdec
  refine ⟨by rfl, _, n, ?_, (decodeCC_fetched _ _ _ _).trans hdec⟩
  refine fetchBytes_codeAtZero rfl rfl rfl ?_
  show writeBytes [] 0 ((List.range (max nbits 32 / 8)).map byte) = _
  rw [hlen]
  rfl

/-- Settles O51: a step is its turn's meaning, and an agenda without turns lays out the next cycle. -/
theorem stepRunsDecoded : Obligations.StepRunsDecoded := by
  refine ⟨fun s c i rest ha hf => step_of_fetches ha hf, fun s c rest ha hr => ?_, fun s c i rest ha hc => ?_,
    fun s ha hd => ⟨_, step_cycle ha, nextCycle_of_no_holds hd⟩, fun s ha hd => ?_, fun nbits w i hd hn => ?_⟩
  · have hr' : ({ s with agenda := rest } : State).ccRuns c = false := hr
    rw [step_turn ha]
    simp [runTurn, ccTurn, hr']
  · rw [step_turn ha]
    exact if_pos hc
  · rw [step_cycle ha, nextCycle_of_holds hd]
  · exact step_of_fetches rfl (fetches_withFetchWord hd hn)

end Sys2Proof.Machine
end

section
/-! Every step keeps the one form of stack memory (R4, R240). `State.Canonical` names the form; each operation of the
model that gives a state has one lemma here, in the order of the model's files: from a state in the form it gives one in
the form. Only a handful of operations write the bytes of a stack, and they do so through `setByte`; of the others each
is built of operations before it (`State.Canonical.keep` where it changes fields beside the memory). -/

open Sys2Proof Sys2Proof.Machine

namespace Sys2Proof.Machine

/-- The stack memory of a state stands in its one form. -/
def State.Canonical (s : State) : Prop := s.memoryCanonical = true

/-- A next state, where an outcome is one, stands in the form. -/
def FormKept (o : Host.Outcome State Fault Refusal) : Prop := ∀ t, o = .next t → t.Canonical

theorem FormKept.next {t : State} (h : t.Canonical) : FormKept (.next t) := by
  rintro _ ⟨⟩; exact h

theorem FormKept.fault (f : Fault) : FormKept (.fault f) := by
  intro t h; cases h

theorem FormKept.guarded {b : Prop} [Decidable b] {t : State} {f : Fault} (h : t.Canonical) :
    FormKept (if b then .next t else .fault f) := by
  split
  · exact .next h
  · exact .fault f

/-! ### Flips of bits -/

theorem wf_flipBit {m : Sparse Byte} (h : Memory.wf m = true) (a n : Nat) : Memory.wf (flipBit m a n) = true :=
  wf_setByte h _ _

theorem wf_flipBits {m : Sparse Byte} (h : Memory.wf m = true) (a : Nat) (l : List Nat) :
    Memory.wf (l.foldl (fun m n => flipBit m a n) m) = true := by
  induction l generalizing m with
  | nil => exact h
  | cons n l ih => exact ih (wf_flipBit h a n)

/-! ### Operations that give more than a state -/

/-- What the memory side makes of a request, in the form. -/
def Settled.Canonical : Settled → Prop
  | .ok s _ => s.Canonical
  | .fault s _ _ => s.Canonical
  | .overrun s _ => s.Canonical

/-- The outcome of the issue of an engine instruction, in the form. -/
def Issued.Canonical : Issued → Prop
  | .accepted s _ => s.Canonical
  | .waits s => s.Canonical
  | .ended s => s.Canonical

/-- A state in which the read of a block has stopped, in the form. -/
def BlockStop.Canonical : BlockStop → Prop
  | .fault _ => True
  | .event s => s.Canonical

/-- The state after a read of a block, in the form. -/
def BlockRead {α : Type} : Except BlockStop (State × α) → Prop
  | .ok x => x.1.Canonical
  | .error f => f.Canonical

namespace State.Canonical

variable {s t : State}

/-! ### The shapes of which operations are built -/

theorem hbm (h : s.Canonical) : Memory.wf s.mem.hbm = true := h

/-- Fields beside the memory side change. -/
theorem keep {basin drift ready islands hw parts boundary cores doms nextDom io seqs audit moduleId agenda calendar cur
    freeCount} (h : s.Canonical) : State.Canonical ⟨basin, drift, ready, islands, hw, parts, boundary, cores, doms, nextDom,
      s.mem, io, seqs, audit, moduleId, agenda, calendar, cur, freeCount⟩ := h

/-- The bytes of the stacks change from one form to the form, and with them any other field. -/
theorem write {hbm check lay tags lostTags l2 tlb walkStore bindings strong reqs sampled nextReq res resCnt pageErr err
    leaseUse basin drift ready islands hw parts boundary cores doms nextDom io seqs audit moduleId agenda calendar cur freeCount}
    (h : Memory.wf hbm = true) : State.Canonical ⟨basin, drift, ready, islands, hw, parts, boundary, cores, doms, nextDom,
      ⟨hbm, check, lay, tags, lostTags, l2, tlb, walkStore, bindings, strong, reqs, sampled, nextReq, res, resCnt,
        pageErr, err, leaseUse⟩, io, seqs, audit, moduleId, agenda, calendar, cur, freeCount⟩ := h

/-- Tables of the memory side change beside the bytes of the stacks. -/
theorem keepMem {check lay tags lostTags l2 tlb walkStore bindings strong reqs sampled nextReq res resCnt pageErr err
    leaseUse basin drift ready islands hw parts boundary cores doms nextDom io seqs audit moduleId agenda calendar cur freeCount}
    (h : s.Canonical) : State.Canonical ⟨basin, drift, ready, islands, hw, parts, boundary, cores, doms, nextDom,
      ⟨s.mem.hbm, check, lay, tags, lostTags, l2, tlb, walkStore, bindings, strong, reqs, sampled, nextReq, res, resCnt,
        pageErr, err, leaseUse⟩, io, seqs, audit, moduleId, agenda, calendar, cur, freeCount⟩ := h

theorem ite {p : Prop} [Decidable p] {a b : State} (ha : a.Canonical) (hb : b.Canonical) : (if p then a else b).Canonical := by
  split
  · exact ha
  · exact hb

theorem iteFst {α : Type} {p : Prop} [Decidable p] {a b : State × α} (ha : a.1.Canonical) (hb : b.1.Canonical) :
    (if p then a else b).1.Canonical := by
  split
  · exact ha
  · exact hb

theorem foldl {α : Type} {f : State → α → State} {l : List α} (h : s.Canonical)
    (hf : ∀ s x, s.Canonical → (f s x).Canonical) : (l.foldl f s).Canonical := by
  induction l generalizing s with
  | nil => exact h
  | cons x l ih => exact ih (hf s x h)

theorem foldlFst {α β : Type} {f : State × β → α → State × β} {a : State × β} {l : List α} (h : a.1.Canonical)
    (hf : ∀ a x, a.1.Canonical → (f a x).1.Canonical) : (l.foldl f a).1.Canonical := by
  induction l generalizing a with
  | nil => exact h
  | cons x l ih => exact ih (hf a x h)

/-- The state of a pair that an operation gives. -/
theorem of_fst {α : Type} {p : State × α} {x : α} (h : p.1.Canonical) (e : p = (t, x)) : t.Canonical := by
  subst e; exact h

/-! ### The rules of the memory primitives -/

theorem modDom {d f} (h : s.Canonical) : (s.modDom d f).Canonical := by
  unfold State.modDom
  split <;> exact h

theorem landScalar {rank file reg v lat} (h : s.Canonical) : (s.landScalar rank file reg v lat).Canonical := .ite h h

/-! ### Translation, sectors and the second-level cache -/

theorem cacheLeaf {p stack L w size} (h : s.Canonical) : (s.cacheLeaf p stack L w size).Canonical := h

theorem bindForWrite {dom p ia x} (h : s.Canonical) (e : s.bindForWrite dom p ia x = .ok t) : t.Canonical := by
  unfold State.bindForWrite at e
  repeat' split at e
  all_goals cases e
  all_goals exact h

/-- The same where only a write binds its block. -/
theorem bindIf {b : Bool} {dom p ia x} (h : s.Canonical) (e : (if b then s.bindForWrite dom p ia x else .ok s) = .ok t) :
    t.Canonical := by
  split at e
  · exact h.bindForWrite e
  · cases e; exact h

theorem countDecode {stack block sev} (h : s.Canonical) : (s.countDecode stack block sev).Canonical := .ite h h

theorem decodeAt {stack pa layout p0 block held} (h : s.Canonical) :
    (s.decodeAt stack pa layout p0 block held).1.Canonical := by
  unfold State.decodeAt
  exact .iteFst h (.countDecode (.write (wf_flipBits h _ _)))

theorem noteWalk {p ia} (h : s.Canonical) : (s.noteWalk p ia).Canonical := .ite h (.foldl h (fun _ _ h => .decodeAt h))

theorem translateNow {p ia rd wr} (h : s.Canonical) : (s.translateNow p ia rd wr).1.Canonical := .noteWalk h

theorem countRes {p ia} (h : s.Canonical) : (s.countRes p ia).Canonical := .foldl h (fun _ _ h => .ite h h)

theorem l2Keep {stack L pa cls} (h : s.Canonical) : (s.l2Keep stack L pa cls).Canonical := h

theorem readPiece {dom p ia pa leaf size cls q} (h : s.Canonical) : (s.readPiece dom p ia pa leaf size cls q).1.Canonical :=
  .iteFst (.l2Keep (.decodeAt h)) (.iteFst (.l2Keep (.decodeAt h)) (.keep (.l2Keep (.decodeAt h))))

theorem readPieces {dom p ia pa leaf size cls qs} (h : s.Canonical) :
    (s.readPieces dom p ia pa leaf size cls qs).1.Canonical := by
  induction qs generalizing s with
  | nil => exact h
  | cons q qs ih => exact ih (.readPiece h)

theorem memReadAs {dom p ia n x cls} (h : s.Canonical) : (s.memReadAs dom p ia n x cls).1.Canonical := by
  unfold State.memReadAs
  split
  · exact .readPieces h
  · exact h

theorem memRead {dom p ia n x} (h : s.Canonical) : (s.memRead dom p ia n x).1.Canonical := .memReadAs (.countRes h)

theorem copySector {stack src dst} (h : s.Canonical) : (s.copySector stack src dst).Canonical := .write (wf_writeBytes h _ _)

theorem fillShadow {stack src dst layout p0 block} (h : s.Canonical) : (s.fillShadow stack src dst layout p0 block).Canonical :=
  .copySector (.decodeAt h)

theorem putCipher {p ia stack pa bytes} (h : s.Canonical) : (s.putCipher p ia stack pa bytes).Canonical :=
  .write (wf_writeBytes h _ _)

/-- A piece of a write: a shadow frame is filled first, the sector's check word is replaced or its error decoded, and then its
bytes are written as they stand or as ciphertext. -/
theorem writePiece {dom p ia pa leaf size cls bytes mask poison q} (h : s.Canonical) :
    (s.writePiece dom p ia pa leaf size cls bytes mask poison q).Canonical := by
  unfold State.writePiece
  refine .ite h ?_
  split
  · refine .ite (.l2Keep (.write (wf_writeMasked (hbm ?hc) _ _ _))) (.ite (.l2Keep (.putCipher (.keepMem ?hc))) h)
    exact .ite (.keepMem h) (.keepMem (.decodeAt h))
  · have hs {p : Prop} [Decidable p] {stack pa fpa layout p0 b} : State.Canonical (if p then s
      else s.fillShadow stack pa fpa layout p0 b) := .ite h (.fillShadow h)
    refine .ite (.l2Keep (.write (wf_writeMasked (hbm ?hd) _ _ _))) (.ite (.l2Keep (.putCipher (.keepMem ?hd))) (.keepMem hs))
    exact .ite (.keepMem (.keepMem hs)) (.keepMem (.decodeAt (.keepMem hs)))

theorem noteWrite {dom leaf} (h : s.Canonical) : (s.noteWrite dom leaf).Canonical := by
  unfold State.noteWrite
  split
  · exact .ite h (.modDom h)
  · exact h

theorem noteXlat {dom x} (h : s.Canonical) : (s.noteXlat dom x).Canonical := by
  unfold State.noteXlat
  split
  · exact .noteWrite h
  · exact h

theorem memWriteAs {dom p ia bytes mask x cls poison} (h : s.Canonical) : (s.memWriteAs dom p ia bytes mask x cls
  poison).Canonical := by
  unfold State.memWriteAs
  split
  · exact .foldl (.noteWrite h) (fun _ _ h => .writePiece h)
  · exact h

theorem memWrite {dom p ia bytes mask x poison} (h : s.Canonical) : (s.memWrite dom p ia bytes mask x poison).Canonical :=
  .memWriteAs (.countRes h)

theorem iaRead {p ia n} (h : s.Canonical) : (s.iaRead p ia n).1.Canonical :=
  .foldlFst h (fun _ _ h => .memRead (.translateNow h))

theorem iaStore {p ia bytes} (h : s.Canonical) : (s.iaStore p ia bytes).1.Canonical := by
  unfold State.iaStore
  refine .foldlFst h (fun _ _ h => ?_)
  dsimp only
  split
  · exact .iteFst (.of_fst (.translateNow h) ‹_›) (.keep (.memWrite (.of_fst (.translateNow h) ‹_›)))
  · exact .of_fst (.translateNow h) ‹_›

/-! ### Events and what they raise -/

theorem storeRecords {p pos seq rs} (h : s.Canonical) : (s.storeRecords p pos seq rs).1.Canonical := by
  induction rs generalizing s pos seq with
  | nil => exact h
  | cons r rs ih =>
    unfold State.storeRecords
    exact .iteFst h (.iteFst h (ih (.iaStore h)))

theorem layRecords {p rs new} (h : s.Canonical) : (s.layRecords p rs new).Canonical := .keep (.storeRecords h)

theorem writeRecord {p core dom e resp secondary} (h : s.Canonical) : (s.writeRecord p core dom e resp secondary).Canonical :=
  .layRecords h

theorem markSecondary {p num} (h : s.Canonical) : (s.markSecondary p num).Canonical := .layRecords h

theorem headRecord {core part e before} (h : s.Canonical) : (s.headRecord core part e before).1.Canonical := by
  unfold State.headRecord
  refine .iteFst h ?_
  split
  · exact h
  · exact .iteFst h (.iteFst h (.keep (.markSecondary h)))

theorem sendNotices {d resp cause sub} (h : s.Canonical) : (s.sendNotices d resp cause sub).Canonical := by
  unfold State.sendNotices
  refine .ite h (.foldl h (fun _ _ h => ?_))
  split <;> exact h

theorem applyResp {id d core e resp} (h : s.Canonical) : (s.applyResp id d core e resp).Canonical := by
  refine .ite (.keep (.keep (.sendNotices ?told))) (.ite ?told (.ite (.modDom ?told) (.ite ?told
    (.ite (.keep (.sendNotices (.modDom ?told))) (.keep (.sendNotices (.modDom ?told)))))))
  exact .ite h h

theorem raiseNone {p core e} (h : s.Canonical) : (s.raiseNone p core e).Canonical :=
  .ite (.keep (.keep (.writeRecord h))) (.writeRecord h)

theorem recordEnded {core d e} (h : s.Canonical) : (s.recordEnded core d e).Canonical :=
  .ite (.keep (.keep (.writeRecord h))) (.writeRecord h)

theorem raiseLive {id core d e} (h : s.Canonical) : (s.raiseLive id core d e).Canonical :=
  .applyResp (.writeRecord (.headRecord h))

theorem raiseAs {c e resp} (h : s.Canonical) : (s.raiseAs c e resp).Canonical := by
  unfold State.raiseAs
  split
  · exact .applyResp (.writeRecord (.headRecord h))
  · exact .writeRecord h

theorem raiseDomAt {id core land e} (h : s.Canonical) : (s.raiseDomAt id core land e).Canonical := by
  unfold State.raiseDomAt
  split
  · exact .raiseNone h
  · exact .ite (.recordEnded h) (.ite h (.raiseLive h))

theorem raiseDom {id core e} (h : s.Canonical) : (s.raiseDom id core e).Canonical := .raiseDomAt h

theorem raise {c e} (h : s.Canonical) : (s.raise c e).Canonical := by
  unfold State.raise
  split
  · exact .raiseDom h
  · exact .raiseNone h

theorem reported {c dom replays e} (h : s.Canonical) : (s.reported c dom replays e).Canonical := by
  unfold State.reported
  split
  · exact .raiseNone h
  · split
    · exact .raiseNone h
    · exact .ite (.raiseDom h) (.recordEnded h)

theorem raiseLate {c e} (h : s.Canonical) : (s.raiseLate c e).Canonical := .ite (.raise h) h

theorem raiseMem {c e} (h : s.Canonical) : (s.raiseMem c e).Canonical := .ite (.raiseLate h) (.raise h)

theorem count {c ev n} (h : s.Canonical) : (s.count c ev n).Canonical := .ite h h

theorem ccTrap {cause tval e} (h : s.Canonical) : (s.ccTrap cause tval e).Canonical := .keep (.raise h)

theorem ccIllegal {w} (h : s.Canonical) : (s.ccIllegal w).Canonical := .ccTrap (.count h)

theorem beLate {c e} (h : s.Canonical) : (s.beLate c e).Canonical := .ite (.keep (.raise h)) (.raise h)

theorem beRaise {c e} (h : s.Canonical) : (s.beRaise c e).Canonical := .ite (.keep (.raise h)) (.raise h)

theorem pendBe {c e} (h : s.Canonical) : (s.pendBe c e).Canonical := .ite h (.ite (.keep (.raise h)) h)

/-! ### Long-class accesses -/

theorem takeLease {id d p ia n due pa one} (h : s.Canonical) (e : s.takeLease id d p ia n due pa one = some t) :
    t.Canonical := by
  simp only [State.takeLease, Option.ite_none_left_eq_some, Option.some.injEq] at e
  obtain ⟨-, rfl⟩ := e
  exact .keepMem h

theorem loadLanding {slot r n lat id} (h : s.Canonical) : (s.loadLanding slot r n lat id).Canonical := .ite h h

theorem effLoad {kind i r tag lat} (h : s.Canonical) : (Machine.effLoad kind i r tag lat s).Canonical := .loadLanding h

theorem longIssue {i kind data op cmp id} (h : s.Canonical) : (s.longIssue i kind data op cmp id).Canonical := by
  unfold State.longIssue
  split
  · exact h
  · have hx {p ia rd wr} : ((s.translateNow p ia rd wr).1.count s.cur 6 1).Canonical := .count (.translateNow h)
    dsimp only
    split
    · exact .raiseMem (.keepMem hx)
    · split
      · exact .raiseMem (.keepMem hx)
      · have hb := State.Canonical.bindIf hx ‹_›
        split
        · refine .ite ?_ (.keepMem hb)
          split
          · exact .keepMem (.takeLease hb ‹_›)
          · exact .raiseLate hb
        · exact .keepMem hb

theorem effLdl {f} (h : s.Canonical) : (Machine.effLdl f s).Canonical := .loadLanding (.longIssue h)

theorem effSld {f} (h : s.Canonical) : (Machine.effSld f s).Canonical := .keep (.effLoad h)

theorem effAmo {f} (h : s.Canonical) : (Machine.effAmo f s).Canonical := .loadLanding (.longIssue h)

theorem effRel (f : FRel) (h : s.Canonical) : (Machine.effRel f s).Canonical := .ite h h

/-! ### Fabric instructions -/

theorem deliver {c f r} (h : s.Canonical) : (s.deliver c f r).Canonical := .ite h h

theorem inject {c f r} (h : s.Canonical) : (s.inject c f r).Canonical := .ite (.ite h h) (.deliver h)

theorem markUnsafe {c} (h : s.Canonical) : (s.markUnsafe c).Canonical := by
  unfold State.markUnsafe
  split
  · exact .modDom h
  · exact h

theorem markOutside {c} (h : s.Canonical) : (s.markOutside c).Canonical := by
  unfold State.markOutside
  split
  · exact .ite h (.markUnsafe h)
  · exact h

theorem effSend {f} (h : s.Canonical) : (Machine.effSend f s).Canonical :=
  .ite (.deliver (.ite h (.markUnsafe h))) (.inject (.markOutside h))

theorem effRecv {f} (h : s.Canonical) : (Machine.effRecv f s).Canonical := by
  unfold Machine.effRecv
  dsimp only
  split
  · exact h
  · exact .ite (.raise (.ite (.ite h h) (.keep (.ite h h)))) (.ite (.ite h h) (.keep (.ite h h)))

theorem sendRemote {i kind slot data op cmp fl} (h : s.Canonical) : (s.sendRemote i kind slot data op cmp fl).1.Canonical := by
  unfold State.sendRemote
  refine .iteFst h ?_
  split
  · exact h
  · exact .foldl h (fun _ _ h => .inject h)

theorem remoteLoad {i kind reg data op cmp} (h : s.Canonical) : (s.remoteLoad i kind reg data op cmp).Canonical :=
  .keep (.loadLanding (.keep (.keep (.keep (.sendRemote h)))))

theorem effRamo {f} (h : s.Canonical) : (Machine.effRamo f s).Canonical := .markOutside (.remoteLoad h)

theorem effRst {f} (h : s.Canonical) : (Machine.effRst f s).Canonical := .markOutside (.keep (.sendRemote h))

theorem sendMarker {c xn i} (h : s.Canonical) : (s.sendMarker c xn i).Canonical := .ite h h

theorem effFlush {f} (h : s.Canonical) : (Machine.effFlush f s).Canonical := .ite h (.foldl h (fun _ _ h => .sendMarker h))

/-! ### Vector operations -/

theorem effRounded {f op} (h : s.Canonical) : (Machine.effRounded f op s).Canonical := .keep (.ite h h)

theorem effVred {f} (h : s.Canonical) : (Machine.effVred f s).Canonical := .keep (.ite h h)

theorem effVscan {f} (h : s.Canonical) : (Machine.effVscan f s).Canonical := .keep (.ite h h)

theorem effVdot {f} (h : s.Canonical) : (Machine.effVdot f s).Canonical := .keep (.ite h h)

theorem effVcvt {f} (h : s.Canonical) : (Machine.effVcvt f s).Canonical := .keep (.ite h h)

theorem p5Step {k i} (h : s.Canonical) : (Machine.p5Step k i s).Canonical := by
  unfold Machine.p5Step
  split
  · exact .ite h h
  · exact .ite h h
  · exact h

/-! ### The home slices -/

theorem raiseFor {dom core p e} (h : s.Canonical) : (s.raiseFor dom core p e).Canonical := by
  unfold State.raiseFor
  split
  · exact .raiseDom h
  · exact .raiseNone h

theorem reportFound {dom core p e va copy found} (h : s.Canonical) : (s.reportFound dom core p e va copy found).Canonical := by
  unfold State.reportFound
  split
  · dsimp only
    split
    · exact .raiseFor (.ite (.modDom h) h)
    · exact .ite (.modDom h) h
  · dsimp only
    split
    · exact .raiseFor h
    · exact h

theorem noteStrong {stack L n} (h : s.Canonical) : (s.noteStrong stack L n).Canonical := h

theorem freeMix {mask n v} (h : s.Canonical) : (s.freeMix mask n v).1.Canonical := .iteFst h h

theorem homeRmw {strong by_ dom p ia n x f} (h : s.Canonical) : (s.homeRmw strong by_ dom p ia n x f).1.Canonical := by
  refine .iteFst (.memReadAs (.countRes h)) (.ite (.noteStrong ?written) ?written)
  exact .keep (.memWriteAs (.freeMix (.freeMix (.memReadAs (.countRes h)))))

theorem engineData {r bs poison} (h : s.Canonical) : (s.engineData r bs poison).Canonical := by
  unfold State.engineData
  split <;> exact h

theorem dropStep {c engine rank issue n} (h : s.Canonical) : (s.dropStep c engine rank issue n).Canonical := by
  unfold State.dropStep
  refine .keep (.keepMem ?_)
  split <;> exact h

theorem serveLoad {r} (h : s.Canonical) : (s.serveLoad r).Canonical := by
  refine .reportFound (.ite (.keepMem ?landed) ?landed)
  exact .ite (.keep (.memRead h)) (.ite (.ite (.dropStep (.memRead h)) (.memRead h)) (.engineData (.memRead h)))

theorem serveStore {r} (h : s.Canonical) : (s.serveStore r).Canonical := by
  unfold State.serveStore
  split
  · exact .reportFound h
  · exact .keep (.memWriteAs (.countRes h))

theorem serveAtomic {r} (h : s.Canonical) : (s.serveAtomic r).Canonical := by
  unfold State.serveAtomic
  refine .ite (.beLate h) ?_
  split
  exact .reportFound (.keep (.of_fst (.homeRmw h) ‹_›))

theorem serveCombine {r} (h : s.Canonical) : (s.serveCombine r).Canonical :=
  .ite (.keep (.foldlFst h (fun _ _ h => .reportFound (.homeRmw h)))) (.keep (.foldlFst h (fun _ _ h => .reportFound
    (.homeRmw h))))

theorem serveWrite {r} (h : s.Canonical) : (s.serveWrite r).Canonical := by
  unfold State.serveWrite
  split
  · exact .serveStore h
  · exact .serveAtomic h
  · exact .serveCombine h
  · exact .serveLoad h
  · exact h

theorem serveOne {r} (h : s.Canonical) : (s.serveOne r).Canonical := .ite h (.serveWrite h)

theorem slicePhase {die slice phase below} (h : s.Canonical) : (s.slicePhase die slice phase below).Canonical :=
  .foldl h (fun _ _ h => .serveOne h)

theorem homeSlice {die slice} (h : s.Canonical) : (s.homeSlice die slice).Canonical := .slicePhase (.slicePhase (.slicePhase h))

/-! ### Scalar operations -/

theorem landOwn {sl d v lat} (h : s.Canonical) : (s.landOwn sl d v lat).Canonical := .landScalar h

theorem notTaken {variant} (h : s.Canonical) : (Machine.notTaken variant s).Canonical := .ite h h

theorem link (h : s.Canonical) : s.link.Canonical := .landScalar h

theorem effCall {f} (h : s.Canonical) : (Machine.effCall f s).Canonical := .keep (.link h)

theorem effCalli {f} (h : s.Canonical) : (Machine.effCalli f s).Canonical := .keep (.link h)

/-! ### Loops -/

theorem applyStrides {ends} (h : s.Canonical) : (s.applyStrides ends).Canonical := .ite h (.foldl h (fun _ _ h => .ite h h))

/-! ### Bundles -/

/-- The effect of a slot operation, and what it does where its guard fails. Only a TRAP, a fabric form and a long-class access
do more than change the registers, landings and accesses of their core. -/
theorem slotDo (i : Instr) (h : s.Canonical) : ((Machine.slotDo i).1 s).Canonical ∧ ((Machine.slotDo i).2 s).Canonical := by
  cases i with
  | add | sub | and | or | xor | sll | srl | sra | slt | sltu | min | max | minu | maxu | mul | mulh | mulhu | div | divu
  | rem | remu | clz | ctz | popc | bext | bins | addi | andi | ori | xori | slli | srli | srai | slti | lil | lih | lit
  | cpx => exact ⟨.landOwn h, h⟩
  | br | bri => exact ⟨h, .notTaken h⟩
  | call => exact ⟨.effCall h, .notTaken h⟩
  | calli => exact ⟨.effCalli h, .notTaken h⟩
  | trap => exact ⟨.pendBe h, h⟩
  | vadd | vsub | vmul | vfma | vfms | vfnma => exact ⟨.effRounded h, h⟩
  | vred => exact ⟨.effVred h, h⟩
  | vscan => exact ⟨.effVscan h, h⟩
  | vdot => exact ⟨.effVdot h, h⟩
  | vcvt => exact ⟨.effVcvt h, h⟩
  | lds | lda | ldt => exact ⟨.loadLanding h, h⟩
  | ldl => exact ⟨.effLdl h, h⟩
  | stl => exact ⟨.longIssue h, h⟩
  | sld => exact ⟨.effSld h, h⟩
  | amo => exact ⟨.effAmo h, h⟩
  | rel f => exact ⟨.effRel f h, h⟩
  | send => exact ⟨.effSend h, h⟩
  | recv => exact ⟨.effRecv h, h⟩
  | rld => exact ⟨.remoteLoad h, h⟩
  | rst => exact ⟨.effRst h, h⟩
  | ramo => exact ⟨.effRamo h, h⟩
  | flush => exact ⟨.effFlush h, h⟩
  | _ => exact ⟨h, h⟩

theorem execSlot {i} (h : s.Canonical) : (s.execSlot i).Canonical := .ite (h.slotDo i).1 (h.slotDo i).2

theorem bundleFault {e} (h : s.Canonical) : (s.bundleFault e).Canonical :=
  .ite (.keep (.raise (.ite (.count h) h))) (.beRaise (.ite (.count h) h))

theorem bundleStall {ops} (h : s.Canonical) : (s.bundleStall ops).Canonical := .keep (.count (.ite (.count h) h))

theorem bundleRun {v ends all ops} (h : s.Canonical) : (s.bundleRun v ends all ops).Canonical :=
  .keep (.applyStrides (.foldl (.ite (.count (.count (.count h))) (.count (.count h))) (fun _ _ h => .execSlot h)))

theorem stepEntry {e} (h : s.Canonical) : (s.stepEntry e).Canonical := by
  unfold State.stepEntry
  dsimp only
  split
  · exact .bundleFault h
  · refine .ite (.bundleFault h) ?_
    split
    · exact .bundleFault h
    · refine .ite (.bundleStall h) ?_
      split
      · exact .ite (.bundleRun (.raise h)) (.bundleFault h)
      · exact .ite (.bundleStall h) (.bundleRun h)

theorem takeBe (h : s.Canonical) : s.takeBe.Canonical := by
  unfold State.takeBe
  dsimp only
  split
  · exact .keep (.raise h)
  · exact h

theorem atBoundary (h : s.Canonical) : s.atBoundary.1.Canonical := .iteFst h (.iteFst h (.iteFst (.takeBe h) h))

theorem step113 (h : s.Canonical) : s.step113.Canonical :=
  .ite (.atBoundary h) (.ite (.keep (.keep (.atBoundary h))) (.stepEntry (.keep (.atBoundary h))))

theorem spSample {a} (h : s.Canonical) : (s.spSample a).Canonical := by
  unfold State.spSample
  refine .ite h (.ite (.beLate ?_) ?_)
  · split
    · exact .raise (.ite h h)
    · exact .ite h h
  · split
    · exact .raise (.ite h h)
    · exact .ite h h

theorem spCombine {a} (h : s.Canonical) : (s.spCombine a).Canonical := by
  unfold State.spCombine
  dsimp only
  split
  · exact .raise h
  · exact h

theorem spPerform {a} (h : s.Canonical) : (s.spPerform a).Canonical := by
  unfold State.spPerform
  split
  · exact h
  · exact h
  · exact h
  · exact h
  · exact .spCombine h
  · exact h

theorem scratchpadAccess (h : s.Canonical) : s.scratchpadAccess.Canonical :=
  .ite h (.foldl h (fun _ _ h => .ite (.spSample h) (.spPerform h)))

theorem microStep (h : s.Canonical) : s.microStep.Canonical := by
  unfold State.microStep
  refine .ite h ?_
  split
  · exact .ite (.takeBe h) (.keep (.foldl h (fun _ _ h => .p5Step h)))
  · exact h
  · exact h

theorem firstStep (h : s.Canonical) : s.firstStep.Canonical := by
  unfold State.firstStep
  dsimp only
  split
  · exact .microStep h
  · exact .step113 h

theorem bundleStep (h : s.Canonical) : s.bundleStep.Canonical := by
  unfold State.bundleStep
  refine .ite h ?_
  split
  · exact .step113 h
  · exact .ite (.firstStep h) h
  · exact h

theorem beTrap (h : s.Canonical) : s.beTrap.Canonical := .ite h h

/-! ### Control and status registers -/

theorem csrWrite {c n v} (h : s.Canonical) : (s.csrWrite c n v).Canonical := .ite h (.ite (.pendBe h) h)

/-! ### Queue records and the records of a command -/

theorem storeRec {p q r} (h : s.Canonical) : (s.storeRec p q r).Canonical := .iaStore h

theorem setQueueRec {q r} (h : s.Canonical) : (s.setQueueRec q r).Canonical := by
  unfold State.setQueueRec
  split
  · exact h
  · split
    · exact .storeRec h
    · exact h

theorem sendRecord {q ws} {a : State × QRec} (h : a.1.Canonical) : (Machine.sendRecord q a ws).1.Canonical := .keep h

theorem sendHeld {q} (h : s.Canonical) : (s.sendHeld q).Canonical := by
  unfold State.sendHeld
  split
  · exact h
  · exact .keep (.foldlFst h fun _ _ h => .sendRecord h)

theorem createRecord {q ws now} (h : s.Canonical) : (s.createRecord q ws now).Canonical := by
  unfold State.createRecord
  split
  · exact .setQueueRec (.sendRecord h)
  · exact .ite (.sendHeld (.keep h)) (.keep h)

theorem complete {q c status i} (h : s.Canonical) : (s.complete q c status i).Canonical := by
  unfold State.complete
  refine .ite (.createRecord (.keep ?_)) (.keep ?_) <;> split <;> exact h

theorem report {q c status i} (h : s.Canonical) : (s.report q c status i).Canonical := .createRecord h

theorem disableQueue {q r} (h : s.Canonical) : (s.disableQueue q r).Canonical := by
  unfold State.disableQueue
  split
  · exact .setQueueRec h
  · exact .setQueueRec (.keep (.keep (.sendHeld h)))

theorem queueError {q} (h : s.Canonical) : (s.queueError q).Canonical := .setQueueRec h

theorem tableSync (h : s.Canonical) : s.tableSync.Canonical := .ite h h

/-! ### The firmware's duties -/

theorem driftRequest {b n core} (h : s.Canonical) : (s.driftRequest b n core).Canonical := by
  unfold State.driftRequest
  refine .ite ?_ ?_ <;> split <;> exact h

theorem holdDone {r} (h : s.Canonical) : (s.holdDone r).Canonical := by
  unfold State.holdDone
  split <;> exact h

theorem fenceDie {die} (h : s.Canonical) : (s.fenceDie die).Canonical := .foldl h (fun _ _ h => h)

theorem functionReady {f} (h : s.Canonical) : (s.functionReady f).Canonical := by
  unfold State.functionReady
  split <;> exact h

theorem dropRoutes {link p} (h : s.Canonical) : (s.dropRoutes link p).Canonical :=
  .ite h (.foldl h (fun _ _ h => .ite (.iaStore h) h))

theorem loseRoutes {f} (h : s.Canonical) : (s.loseRoutes f).Canonical := by
  unfold State.loseRoutes
  split
  · exact .foldl h (fun _ _ h => .dropRoutes h)
  · exact h

theorem readyFall {f} (h : s.Canonical) : (s.readyFall f).Canonical := by
  unfold State.readyFall
  split
  · exact .fenceDie (.loseRoutes h)
  · exact .loseRoutes h

theorem frequency {n freq} (h : s.Canonical) : (s.frequency n freq).Canonical :=
  .ite h (.ite (.foldl h (fun _ _ h => .loseRoutes h)) h)

theorem own {q} (h : s.Canonical) : (s.own q).Canonical := h

theorem merge {q} (h : s.Canonical) : (s.merge q).Canonical := .ite h (.keep (.keep (.keep (.keep (.keep (.keep (.own h)))))))

theorem split {q} (h : s.Canonical) : (s.split q).Canonical := .ite h (.keep (.keep (.keep (.keep (.own (.own h))))))

theorem mgreqWrite {v} (h : s.Canonical) : (s.mgreqWrite v).Canonical := .ite h (.ite h (.keep (.foldl h (fun _ _ h => h))))

/-! ### Writes of the module's registers -/

theorem firmQuarantine {p} (h : s.Canonical) : (s.firmQuarantine p).Canonical :=
  .keep (.keep (.foldl (.writeRecord h) (fun _ _ h => .ite (.sendNotices h) h)))

theorem regWrite {r v} (h : s.Canonical) : (s.regWrite r v).Canonical := by
  cases r with
  | csr => exact .ite h (.csrWrite h)
  | partTable => exact .ite (.firmQuarantine h) h
  | drreqN => exact .driftRequest h
  | fec => exact .ite h h
  | isl => exact .frequency (.ite h h)
  | mgreq => exact .mgreqWrite h
  | _ => exact h

theorem regWritePart {t mask v} (h : s.Canonical) : (s.regWritePart t mask v).Canonical := .ite (.regWrite h) (.regWrite h)

/-! ### The control core -/

theorem csrInstr {k isImm rd src n len} (h : s.Canonical) : (s.csrInstr k isImm rd src n len).Canonical := by
  unfold State.csrInstr
  dsimp only
  split
  · exact .ccIllegal h
  · exact .ite (.ccIllegal h) (.ite (.csrWrite h) h)

theorem rvStep {op len} (h : s.Canonical) : (s.rvStep op len).Canonical := by
  unfold State.rvStep
  split
  · exact h
  · exact h
  · exact h
  · exact h
  · exact .ite h h
  · exact h
  · exact h
  · exact .csrInstr h
  · exact .ccTrap h
  · exact .ccIllegal h

theorem ccAccessTrap {va f} (h : s.Canonical) : (s.ccAccessTrap va f).Canonical :=
  .ite (.raise h) (.ite (.keep (.raise h)) (.ccTrap h))

theorem writeBack {c key} (h : s.Canonical) : (s.writeBack c key).Canonical := by
  unfold State.writeBack
  dsimp only
  split
  · exact h
  · refine .ite h (.keep (.keep ?_))
    split
    · exact .reportFound (.noteWalk h)
    · exact .memWrite (.noteWalk h)

theorem dropLine {c key} (h : s.Canonical) : (s.dropLine c key).Canonical := .keep (.writeBack h)

theorem flushL1 {c drop} (h : s.Canonical) : (s.flushL1 c drop).Canonical :=
  .ite (.keep (.foldl h (fun _ _ h => .writeBack h))) (.foldl h (fun _ _ h => .writeBack h))

theorem keepLine {c key l} (h : s.Canonical) : (s.keepLine c key l).Canonical := .keep (.ite h h)

theorem l1Load {va ia n x} (h : s.Canonical) (e : s.l1Load va ia n = .ok x) : x.1.Canonical := by
  unfold State.l1Load at e
  dsimp only at e
  split at e
  · split at e <;> cases e
    · exact .raise h
    · exact h
  · split at e <;> cases e
    exact .reportFound (.keepLine (.memRead (.noteWalk (.count h))))

theorem l1Store {va ia n v} (h : s.Canonical) (e : s.l1Store va ia n v = .ok t) : t.Canonical := by
  unfold State.l1Store at e
  dsimp only at e
  split at e
  · cases e
  · split at e <;> cases e
    exact .keepLine (.noteXlat (h.bindForWrite ‹_›))

theorem ccAtomic {va ia n f x} (h : s.Canonical) (e : s.ccAtomic va ia n f = .ok x) : x.1.Canonical := by
  unfold State.ccAtomic at e
  dsimp only at e
  split at e
  · cases e
  · split at e
    · cases e
    · split at e <;> cases e
      exact .reportFound (.homeRmw (.noteWalk (.dropLine (h.bindForWrite ‹_›))))

theorem deviceRead {ofs} (h : s.Canonical) : (s.deviceRead ofs).1.Canonical := by
  unfold State.deviceRead
  split <;> exact h

theorem deviceWrite {ofs n v} (h : s.Canonical) : (s.deviceWrite ofs n v).Canonical := by
  unfold State.deviceWrite
  split
  · exact .regWritePart h
  · exact h

theorem monLoad {va a n} (h : s.Canonical) : (s.monLoad va a n).1.Canonical := .iteFst (.raise h) h

theorem ccLoaded {rd v sz uns len} (h : s.Canonical) : (s.ccLoaded rd v sz uns len).Canonical := by
  unfold State.ccLoaded
  split <;> exact h

theorem ccLoad {rd va sz uns len} (h : s.Canonical) : (s.ccLoad rd va sz uns len).Canonical := by
  unfold State.ccLoad
  dsimp only
  split
  · exact .ccAccessTrap h
  · exact .ccLoaded (.monLoad h)
  · exact .keep (.deviceRead h)
  · split
    · exact .ccAccessTrap h
    · exact .ccLoaded (h.l1Load ‹_›)

theorem ccStore {va sz v len} (h : s.Canonical) : (s.ccStore va sz v len).Canonical := by
  unfold State.ccStore
  dsimp only
  split
  · exact .ccAccessTrap h
  · exact .keep (.keep h)
  · exact .keep (.deviceWrite h)
  · split
    · exact .ccAccessTrap h
    · exact .keep (h.l1Store ‹_›)

theorem ccAmo {op rd va sz v len} (h : s.Canonical) : (s.ccAmo op rd va sz v len).Canonical := by
  unfold State.ccAmo
  dsimp only
  split
  · exact .ccAccessTrap h
  · split
    · exact .keep (.keep (.of_fst (.monLoad h) ‹_›))
    · exact .keep (.of_fst (.monLoad h) ‹_›)
  · exact .keep h
  · split
    · exact .ccAccessTrap h
    · exact .ccLoaded (h.ccAtomic ‹_›)

theorem execCcLoadStore {m} (h : s.Canonical) : FormKept (Machine.execCcLoadStore m s) := by
  unfold Machine.execCcLoadStore
  refine .next ?_
  split
  · exact .ccLoad h
  · exact .ccStore h
  · exact .ccAmo h

theorem lrLoad {rd va sz} (h : s.Canonical) : (s.lrLoad rd va sz).Canonical := by
  unfold State.lrLoad
  dsimp only
  split
  · exact .ccAccessTrap h
  · split
    · exact .keep (.keep (.of_fst (.monLoad h) ‹_›))
    · exact .keep (.of_fst (.monLoad h) ‹_›)
  · exact h
  · split
    · exact .ccAccessTrap h
    · exact .ite (.keep (.reportFound (.memRead (.noteWalk (.dropLine h))))) (.keep (.keep (.reportFound (.memRead (.noteWalk
        (.dropLine h))))))

theorem scStore {rd va sz v} (h : s.Canonical) : (s.scStore rd va sz v).Canonical := by
  unfold State.scStore
  dsimp only
  split
  · exact .ccAccessTrap h
  · exact .ite (.keep (.keep (.keep h))) (.keep (.keep h))
  · exact .keep (.keep h)
  · refine .ite ?_ (.keep (.keep (.dropLine h)))
    split
    · exact .ccAccessTrap h
    · exact .keep (.keep (h.ccAtomic ‹_›))
    · exact .keep (.keep (h.ccAtomic ‹_›))

theorem execMret (h : s.Canonical) : FormKept (Machine.execMret s) := by
  unfold Machine.execMret
  refine .next ?_
  split
  · exact .ccIllegal h
  · exact h
  · exact h

theorem execEcall (h : s.Canonical) : FormKept (Machine.execEcall s) := by
  unfold Machine.execEcall
  refine .next ?_
  split
  · exact .ite h (.ccTrap h)
  · exact .ccTrap h

theorem execCcInterruptEntry (h : s.Canonical) : FormKept (Machine.execCcInterruptEntry s) := by
  unfold Machine.execCcInterruptEntry
  refine .next ?_
  split <;> exact h

/-! ### The issue of engine instructions -/

theorem issueFault {e issue cause sub faddr duesc} (h : s.Canonical) : (s.issueFault e issue cause sub faddr duesc).Canonical :=
  .ite (.keep (.raise h)) (.ccTrap h)

/-- A doubleword of a block, or the stop of its read. -/
theorem blockWord {va} (h : s.Canonical) : BlockRead (s.blockWord va) := by
  have give {x : State × Option Nat} (hx : x.1.Canonical) : BlockRead (match x.2 with
      | some v => .ok (x.1, BitVec.ofNat 64 v)
      | none => .error (.event x.1)) := by
    split <;> exact hx
  unfold State.blockWord
  split
  · trivial
  · exact give (.monLoad h)
  · exact h
  · split
    · trivial
    · exact give (h.l1Load ‹_›)

theorem blockWords {va n} (h : s.Canonical) : BlockRead (s.blockWords va n) := by
  induction n generalizing s va with
  | zero => exact h
  | succ n ih =>
    unfold State.blockWords
    have hw := h.blockWord (va := va)
    split <;> rename_i e <;> rw [e] at hw
    · exact hw
    · have hr := ih (s := _) (va := (va + 8) % 2 ^ 64) hw
      split <;> rename_i e' <;> rw [e'] at hr
      · exact hr
      · exact hr

theorem accept {form b start} (h : s.Canonical) : (s.accept form b start).Canonical := by
  unfold State.accept
  dsimp only
  repeat' split
  all_goals first | exact h.issueFault | exact h

theorem issueBlock {form b start} (h : s.Canonical) : (s.issueBlock form b start).Canonical := by
  unfold State.issueBlock
  dsimp only
  split
  · exact h.issueFault
  · split
    · exact h.issueFault
    · split
      · exact h.accept
      · exact h.issueFault

theorem blockFault {form va f} (h : s.Canonical) (hf : f.Canonical) : (s.blockFault form va f).Canonical := by
  unfold State.blockFault
  split
  · exact State.Canonical.keep hf
  · exact State.Canonical.ite (.issueFault h) (.ccAccessTrap h)

theorem issue {form va start} (h : s.Canonical) : (s.issue form va start).Canonical := by
  unfold State.issue
  dsimp only
  split
  · exact h.issueFault
  · have hw := h.blockWord (va := va)
    split <;> rename_i e <;> rw [e] at hw
    · exact h.blockFault hw
    · rename_i u w
      split
      · exact State.Canonical.issueFault hw
      · have hr := State.Canonical.blockWords (va := va) (n := 8 * blkLen [w]) hw
        split <;> rename_i e' <;> rw [e'] at hr
        · exact State.Canonical.blockFault hw hr
        · exact State.Canonical.issueBlock hr

theorem macroIssue {form o} (h : s.Canonical) : (s.macroIssue form o).Canonical := by
  unfold State.macroIssue
  refine .ite (.ccIllegal h) ?_
  have hi := h.issue (form := form) (va := ((s.core s.cur).cc.xr o.rs1).toNat) (start := (s.core s.cur).cc.xr o.rs2)
  split <;> rename_i e <;> rw [e] at hi
  · exact .keep hi
  · exact hi
  · exact hi

/-! ### The extension instructions of the control core -/

theorem setSeq {c q x} (h : s.Canonical) : (s.setSeq c q x).Canonical := by
  unfold State.setSeq
  split <;> exact h

theorem modSeq {c q f} (h : s.Canonical) : (s.modSeq c q f).Canonical := .setSeq h

theorem startFault {sub start} (h : s.Canonical) : (s.startFault sub start).Canonical := .keep (.raise h)

theorem beStart {target start} (h : s.Canonical) : (s.beStart target start).Canonical :=
  .ite (.ccIllegal h) (.ite h (.ite (.startFault h) (.ite (.startFault h) h)))

theorem beResume {start} (h : s.Canonical) : (s.beResume start).Canonical := .ite (.ccIllegal h) (.ite h h)

theorem pushRange {c base len} (h : s.Canonical) : (s.pushRange c base len).Canonical :=
  .foldl h (fun _ _ h => .ite (.writeBack h) h)

theorem waitFor {done w} (h : s.Canonical) : (s.waitFor done w).Canonical := .ite h h

theorem execCalWaitEng {e rs1} (h : s.Canonical) : FormKept (Machine.execCalWaitEng e rs1 s) :=
  .next (.ite (.ccIllegal h) (.ite (.ccIllegal h) (.ite (.ite (.ccIllegal h) (.waitFor h)) (.ite (.ccIllegal h) (.waitFor h)))))

theorem calWaitRng {base len} (h : s.Canonical) : (s.calWaitRng base len).Canonical := by
  unfold State.calWaitRng
  refine .ite (.ccIllegal h) (.ite h ?_)
  dsimp only
  split
  · exact .ccTrap h
  · exact .waitFor (.pushRange h)

theorem execCcWaitEnd (h : s.Canonical) : FormKept (Machine.execCcWaitEnd s) := by
  unfold Machine.execCcWaitEnd
  refine .next (.ite h ?_)
  split <;> exact h

theorem execCalPrgrd {e rd rs1} (h : s.Canonical) : FormKept (Machine.execCalPrgrd e rd rs1 s) := by
  unfold Machine.execCalPrgrd
  refine .next (.ite (.ccIllegal h) ?_)
  split
  · exact .ccIllegal h
  · split
    · exact .ccIllegal h
    · exact h

theorem execCalPrgwr {e rs1 rs2} (h : s.Canonical) : FormKept (Machine.execCalPrgwr e rs1 rs2 s) := by
  unfold Machine.execCalPrgwr
  refine .next (.ite (.ccIllegal h) ?_)
  split
  · exact .ccIllegal h
  · exact .ite (.ccIllegal h) (.keep (.keep (.setSeq h)))

theorem execCalOvly {o} (h : s.Canonical) : FormKept (Machine.execCalOvly o s) := by
  refine .next (.ite (.ccIllegal h) ?_)
  have hi := h.issue (form := 0x12) (va := ((s.core s.cur).cc.xr o.rs1).toNat) (start := (s.core s.cur).cc.xr o.rs2)
  split <;> rename_i e <;> rw [e] at hi
  · exact .keep (.keep hi)
  · exact hi
  · exact hi

/-! ### Sequencers and their entries -/

theorem undoDraws {c q issue n} (h : s.Canonical) : (s.undoDraws c q issue n).Canonical := by
  unfold State.undoDraws
  split <;> exact h

theorem dropSteps {c q issue n} (h : s.Canonical) : (s.dropSteps c q issue n).Canonical :=
  .keep (.keepMem (.ite (.keep (.modSeq (.undoDraws h))) (.modSeq (.undoDraws h))))

theorem redoEnd {c} (h : s.Canonical) : (s.redoEnd c).Canonical := by
  unfold State.redoEnd
  split
  · exact h
  · exact .keep (.dropSteps h)

theorem redoAbandon {c e} (h : s.Canonical) : (s.redoAbandon c e).Canonical := .raiseAs (.modSeq (.redoEnd h))

theorem engEvent {c q n ev} (h : s.Canonical) : (s.engEvent c q n ev).Canonical :=
  .ite (.redoAbandon h) (.ite (.modSeq (.dropSteps h)) (.ite (.raise h) (.raise (.dropStep h))))

theorem setReq {r} (h : s.Canonical) : (s.setReq r).Canonical := h

theorem settleFault {r q x e} (h : s.Canonical) : (s.settleFault r q x e).Canonical :=
  .ite (.ite (.setReq h) (.raiseLate (.setReq h))) (.engEvent h)

theorem settleReq {r} (h : s.Canonical) : (s.settleReq r).Canonical := by
  unfold State.settleReq
  dsimp only
  have hx : (s.translateNow r.part r.ia r.rd r.wr).1.Canonical := h.translateNow
  split
  · exact hx
  · exact hx
  · split
    · split
      · exact .ite hx (.keepMem hx)
      · exact hx
    · have hb := State.Canonical.bindIf ?hleaf ‹_›
      case hleaf =>
        split
        · exact .ite hx (.keepMem hx)
        · exact hx
      split
      · split
        · split
          · exact State.Canonical.takeLease hb ‹_›
          · exact hb
        · exact hb
      · exact hb

theorem settleOver {r e} (h : s.Canonical) : (s.settleOver r e).Canonical := .ite (.setReq h) (.raiseMem (.setReq h))

theorem settle {r} (h : s.Canonical) : (s.settle r).Canonical := by
  unfold State.settle
  have hr := h.settleReq (r := r)
  split <;> rename_i e <;> rw [e] at hr
  · exact .keepMem hr
  · exact .settleFault hr
  · exact .settleOver hr

theorem engRemote {a wr ia n data id poisoned} (h : s.Canonical) : (s.engRemote a wr ia n data id poisoned).Canonical :=
  .ite (.keep (.markOutside (.inject h))) (.keep (.inject h))

theorem engRemotes {a load mask ia n data id poisoned} (h : s.Canonical) : (s.engRemotes a load mask ia n data id
  poisoned).Canonical :=
  .ite (.engRemote h) (.foldl h (fun _ _ h => .engRemote h))

theorem engPiece {a d va n at_ due} (h : s.Canonical) : (s.engPiece a d va n at_ due).1.Canonical := by
  unfold State.engPiece
  dsimp only
  split
  · exact .engEvent h
  · exact .iteFst (.engEvent h) (.iteFst (.engRemotes h) (.iteFst (.settle h) h))

theorem engAccess {a d va n at_ due} (h : s.Canonical) : (s.engAccess a d va n at_ due).1.Canonical :=
  .foldlFst h (fun _ _ h => .engPiece h)

theorem engWrite {a va bs at_ due} (h : s.Canonical) : (s.engWrite a va bs at_ due).Canonical := .engAccess h

theorem modStep {c q issue n f} (h : s.Canonical) : (s.modStep c q issue n f).Canonical := .modSeq h

theorem beginStep {c q issue n} (h : s.Canonical) : (s.beginStep c q issue n).Canonical := .modSeq h

theorem commitStep {c q st} (h : s.Canonical) : (s.commitStep c q st).Canonical := by
  unfold State.commitStep
  dsimp only
  split
  · exact h
  · exact .setSeq h

theorem eachStep {c q} {f : State → ActiveEntry → StepState → State} (h : s.Canonical)
    (hf : ∀ s a st, s.Canonical → (f s a st).Canonical) : (s.eachStep c q f).Canonical := by
  unfold State.eachStep
  refine .foldl h fun _ _ h => ?_
  split
  · exact hf _ _ _ h
  · exact h

theorem startEntry {c q ent} (h : s.Canonical) : (s.startEntry c q ent).Canonical := .setSeq h

theorem timedStart {c q} (h : s.Canonical) : (s.timedStart c q).Canonical := by
  unfold State.timedStart
  dsimp only
  split
  · exact h
  · exact .ite (.startEntry h) (.raise h)

theorem execMacroStart {q} (h : s.Canonical) : FormKept (Machine.execMacroStart q s) := by
  unfold Machine.execMacroStart
  refine .next (.ite h (.ite (.timedStart h) ?_))
  split
  · exact .startEntry h
  · exact h

theorem entryComplete {q} (h : s.Canonical) : (s.entryComplete q).Canonical := by
  unfold State.entryComplete
  refine .ite h ?_
  split
  · exact h
  · exact .keep (.keep (.setSeq h))

theorem entryReissue {q} (h : s.Canonical) : (s.entryReissue q).Canonical := by
  unfold State.entryReissue
  refine .ite h ?_
  split
  · exact h
  · exact .setSeq h

theorem entryFlush {q} (h : s.Canonical) : (s.entryFlush q).Canonical := .ite h (.setSeq (.foldl h (fun _ _ h => h)))

/-! ### The matrix engine -/

theorem tilePoisoned {c q issue n w phase} (h : s.Canonical) : (s.tilePoisoned c q issue n w phase).Canonical :=
  .ite (.raiseAs (.modSeq (.dropSteps h))) (.engEvent h)

theorem mxSampleDue {c q issue n fuel} (h : s.Canonical) : (s.mxSampleDue c q issue n fuel).Canonical := by
  induction fuel generalizing s with
  | zero => exact h
  | succ fuel ih =>
    unfold State.mxSampleDue
    dsimp only
    split
    · split
      · exact h
      · refine .ite h ?_
        split
        · refine ih (.modStep (.ite (.engEvent ?tag) ?tag))
          split
          · exact .tilePoisoned h
          · exact h
        · refine ih (.modStep (.ite (.keep ?taken) ?taken))
          split
          · exact .tilePoisoned h
          · exact h
    · exact h

theorem mxWrites {c q a st} (h : s.Canonical) : (s.mxWrites c q a st).Canonical := by
  refine .ite (.keep ?written) ?written
  exact .foldl (.keep (.modStep h)) fun _ _ h => .ite h (.ite (.engWrite h) h)

theorem mxCommit {c q a st} (h : s.Canonical) : (s.mxCommit c q a st).Canonical :=
  .count (.commitStep (.ite (.ite h h) (.keep (.ite h h))))

theorem mxFinish {c q a st} (h : s.Canonical) : (s.mxFinish c q a st).Canonical := by
  unfold State.mxFinish
  refine .ite h ?_
  have hw {p : Prop} [Decidable p] : State.Canonical (if p then s.mxWrites c q a st else s) := .ite (.mxWrites h) h
  dsimp only
  split
  · exact hw
  · exact .ite (.mxCommit hw) hw

/-! ### The permute engine -/

theorem pxTake {c q a st i} (h : s.Canonical) : (s.pxTake c q a st i).Canonical := by
  unfold State.pxTake
  dsimp only
  split
  · exact .modStep h
  · refine .ite (.modStep h) ?_
    split
    · exact .modStep h
    · exact .ite (.modStep (.engAccess h)) (.modStep h)
  · split
    · exact .modStep h
    · exact .ite (.engAccess (.modStep h)) (.modStep h)

theorem pxSampleDue {c q issue n fuel} (h : s.Canonical) : (s.pxSampleDue c q issue n fuel).Canonical := by
  induction fuel generalizing s with
  | zero => exact h
  | succ fuel ih =>
    unfold State.pxSampleDue
    dsimp only
    split
    · split
      · exact h
      · refine .ite h ?_
        split
        · split
          · exact .tilePoisoned h
          · exact h
        · refine ih (.pxTake ?_)
          split
          · exact .tilePoisoned h
          · exact h
    · exact h

theorem pxWrites {c q a st} (h : s.Canonical) : (s.pxWrites c q a st).Canonical := by
  unfold State.pxWrites
  dsimp only
  split
  · exact .keep (.modStep h)
  · exact .foldl (.modStep h) (fun _ _ h => h)
  · refine .ite (.modStep h) (.foldl (.modStep h) (fun _ _ h => ?_))
    split
    · exact .ite (.engAccess h) (.ite h h)
    · exact h

theorem pxFinish {c q a st} (h : s.Canonical) : (s.pxFinish c q a st).Canonical := by
  unfold State.pxFinish
  refine .ite h ?_
  have hw {p : Prop} [Decidable p] : State.Canonical (if p then s.pxWrites c q a st else s) := .ite (.pxWrites h) h
  dsimp only
  split
  · exact hw
  · exact .ite (.commitStep hw) hw

theorem tileStepStart {e} (h : s.Canonical) : (s.tileStepStart e).Canonical :=
  .ite h (.eachStep (.foldl h fun _ _ h => .ite (.beginStep h) h) fun _ _ _ h => .ite (.mxSampleDue h) (.pxSampleDue h))

theorem tileStepCommit {e} (h : s.Canonical) : (s.tileStepCommit e).Canonical :=
  .ite h (.eachStep h fun _ _ _ h => .ite (.mxFinish h) (.pxFinish h))

/-! ### The copy engine -/

theorem putImage {a img at_} (h : s.Canonical) : (s.putImage a img at_).Canonical :=
  .foldl (.foldl (.foldl h (fun _ _ h => h)) (fun _ _ h => .engAccess h)) (fun _ _ h => h)

theorem ceStart {c q a n} (h : s.Canonical) : (s.ceStart c q a n).Canonical := by
  unfold State.ceStart
  dsimp only
  exact .foldl h fun _ _ h => .ite h (.modStep (.engAccess h))

theorem ceChunk {c q a st} (h : s.Canonical) : (s.ceChunk c q a st).Canonical :=
  .ite (.ite h (.ite (.redoAbandon h) (.modStep h))) (.ite (.ite h (.putImage (.ite (.modStep h) (.keep (.modStep h))))) h)

theorem ceCommit {c q a st} (h : s.Canonical) : (s.ceCommit c q a st).Canonical :=
  .ite h (.count (.commitStep (.modSeq (.ite h h))))

theorem ovStart {c q a n} (h : s.Canonical) : (s.ovStart c q a n).Canonical := by
  unfold State.ovStart
  dsimp only
  have hr {f} : (s.modEng c f).Canonical := .keep h
  exact .modStep (.engAccess hr)

theorem ovCommit {c q a st} (h : s.Canonical) : (s.ovCommit c q a st).Canonical := .ite h (.count (.commitStep h))

theorem ceTurn (h : s.Canonical) : s.ceTurn.Canonical := by
  refine .eachStep (.eachStep (.eachStep (.foldl h ?_) ?_) ?_) ?_
  · exact fun _ _ h => .ite (.ite (.ovStart (.beginStep h)) (.ceStart (.beginStep h))) h
  · exact fun _ _ _ h => .ite h (.ceChunk h)
  · exact fun _ _ _ h => .ite h (.ceChunk h)
  · exact fun _ _ _ h => .ite (.ovCommit h) (.ceCommit h)

theorem redoDone {c mx} (h : s.Canonical) : (s.redoDone c mx).Canonical := .modSeq (.redoEnd h)

/-- One move of a recomputation's chunk. -/
theorem redoMove {c q act a n} (h : s.Canonical) : State.Canonical (match s.stepAt c q a n with
    | some st => s.ceChunk c q act st
    | none => s) := by
  split
  · exact .ceChunk h
  · exact h

theorem redoTurn {c r} (h : s.Canonical) : (s.redoTurn c r).Canonical := by
  unfold State.redoTurn
  refine .ite (.redoDone h) ?_
  have hs {p : Prop} [Decidable p] {f : SeqState → SeqState} {g q a n} : State.Canonical (if p then
    ((s.modSeq c q f).modRedo c g).ceStart c q a n else s) := .ite (.ceStart (.keep (.modSeq h))) h
  dsimp only
  split
  · exact .ite (.keep (.modSeq (.redoMove (.redoMove hs)))) (.redoMove (.redoMove hs))
  · exact .redoMove (.redoMove hs)

theorem ceRefetch (h : s.Canonical) : s.ceRefetch.Canonical := by
  unfold State.ceRefetch
  refine .ite h ?_
  dsimp only
  split
  · exact .redoTurn h
  · split
    · exact h
    · split
      · split
        · exact .applyResp (.modSeq h)
        · exact .modSeq h
      · exact .ite h h

theorem freeUnit {a u} (h : s.Canonical) : (s.freeUnit a u).Canonical := by
  unfold State.freeUnit
  dsimp only
  split
  · exact .keep h
  · refine .ite (.engRemotes (.keep h)) (.ite (.keep h) ?_)
    split
    · exact .memWrite (.bindForWrite (.keep h) ‹_›)
    · exact .keep h

theorem freeChunk {c q a n} (h : s.Canonical) : (s.freeChunk c q a n).Canonical :=
  .foldl (.foldl (.foldl h (fun _ _ h => h)) (fun _ _ h => h)) (fun _ _ h => .freeUnit h)

theorem macroStop {q} (h : s.Canonical) : (s.macroStop q).Canonical := by
  unfold State.macroStop
  refine .ite h ?_
  split
  · exact .ite h (.keep (.raiseAs (.ite (.freeChunk (.setSeq h)) (.setSeq h))))
  · exact h

/-! ### The weir -/

theorem wrStart {c q a n} (h : s.Canonical) : (s.wrStart c q a n).Canonical := by
  unfold State.wrStart
  dsimp only
  exact .foldl (.ite (.modStep (.engAccess h)) h) fun _ _ h => .ite h (.modStep (.engAccess h))

theorem carryFault {c q issue n} (h : s.Canonical) : (s.carryFault c q issue n).Canonical :=
  .ite (.raise (.modSeq (.dropSteps h))) (.engEvent h)

theorem wrCarry {c q a st} (h : s.Canonical) : (s.wrCarry c q a st).Canonical := by
  unfold State.wrCarry
  refine .ite h (.ite (.carryFault ?hp) (.modSeq (.modStep ?hp)))
  split
  · exact .engEvent h
  · exact h

theorem wrOut {a b ofs bs} (h : s.Canonical) : (s.wrOut a b ofs bs).Canonical := .ite h (.ite h (.engWrite h))

theorem wrWrites {c q a st} (h : s.Canonical) : (s.wrWrites c q a st).Canonical := by
  refine .ite (.ite (.wrOut ?first) ?first) (.ite (.ite (.wrOut ?second) ?second) (.modStep h))
  · exact .wrOut (.modStep h)
  · exact .wrOut (.modStep h)

theorem wrCommit {c q a st} (h : s.Canonical) : (s.wrCommit c q a st).Canonical := .modSeq (.commitStep h)

theorem wrChunkTurn {c q a st} (h : s.Canonical) : (s.wrChunkTurn c q a st).Canonical := by
  unfold State.wrChunkTurn
  have hc {p p' : Prop} [Decidable p] [Decidable p'] {f} : State.Canonical
      (if p then (if p' then s.wrCarry c q a st else s.modStep c q st.issue st.n f) else s) :=
    .ite (.ite (.wrCarry h) (.modStep h)) h
  dsimp only
  split
  · exact hc
  · refine .ite hc ?_
    split
    · exact .ite (.wrWrites hc) hc
    · exact .ite (.wrCommit (.ite (.wrWrites hc) hc)) (.ite (.wrWrites hc) hc)

theorem wrTurn {c q} (h : s.Canonical) : (s.wrTurn c q).Canonical :=
  .eachStep (.foldl h fun _ _ h => .ite (.wrStart (.beginStep h)) h) fun _ _ _ h => .wrChunkTurn h

theorem chunkCommit {q} (h : s.Canonical) : (s.chunkCommit q).Canonical := by
  unfold State.chunkCommit
  refine .ite h ?_
  split
  · exact .ceTurn h
  · exact .wrTurn h
  · exact h

/-! ### Collectives -/

theorem cxBegin {c q} (h : s.Canonical) : (s.cxBegin c q).Canonical :=
  .foldl h (fun _ _ h => .ite (.foldl h (fun _ _ h => .beginStep h)) (.ite (.beginStep h) h))

theorem cxCommit {c q a st} (h : s.Canonical) : (s.cxCommit c q a st).Canonical := .modSeq (.commitStep h)

theorem cxSend {c q a ps bs poisoned} (h : s.Canonical) : (s.cxSend c q a ps bs poisoned).Canonical :=
  .ite (.inject (.markOutside h)) (.deliver (.ite h (.markUnsafe h)))

theorem cxSendTurn {c q a st ps} (h : s.Canonical) : (s.cxSendTurn c q a st ps).Canonical := by
  unfold State.cxSendTurn
  dsimp only
  split
  · exact .ite h (.ite (.ite h (.modStep (.engAccess (.modStep h)))) (.ite h (.modStep h)))
  · refine .ite ?hs (.cxCommit (.cxSend ?hs))
    exact .ite h (.ite (.ite h (.modStep (.engAccess (.modStep h)))) (.ite h (.modStep h)))

theorem cxTake {c q a st ps} (h : s.Canonical) : (s.cxTake c q a st ps).Canonical := by
  unfold State.cxTake
  dsimp only
  split
  · exact .modStep h
  · exact .ite (.ite (.cxCommit (.engEvent h)) (.engEvent h)) h

theorem cxRecvTurn {c q a st ps} (h : s.Canonical) : (s.cxRecvTurn c q a st ps).Canonical := by
  unfold State.cxRecvTurn
  have ht {p : Prop} [Decidable p] : State.Canonical (if p then s.cxTake c q a st ps else s) := .ite (.cxTake h) h
  dsimp only
  split
  · exact ht
  · split
    · refine .ite (.ite (.ite (.engEvent (.modStep ht)) (.engAccess (.modStep ht))) ?_) ht
      split
      · exact .engEvent (.modStep ht)
      · exact .ite (.engEvent (.modStep ht)) (.keep (.modStep ht))
    · refine .ite (.cxCommit ?hs) ?hs
      refine .ite (.ite (.ite (.engEvent (.modStep ht)) (.engAccess (.modStep ht))) ?_) ht
      split
      · exact .engEvent (.modStep ht)
      · exact .ite (.engEvent (.modStep ht)) (.keep (.modStep ht))

theorem cxTurn {q recv} (h : s.Canonical) : (s.cxTurn q recv).Canonical := by
  refine .ite h (.eachStep (.cxBegin h) fun _ _ _ h => ?_)
  split
  · exact h
  · exact .ite h (.ite (.cxRecvTurn h) (.cxSendTurn h))

theorem auditDrain {die} (h : s.Canonical) : (s.auditDrain die).Canonical := by
  unfold State.auditDrain
  refine .foldl h (fun _ _ h => ?_)
  split
  · exact .ite h (.ite h h)
  · exact h

theorem auditStop {die} (h : s.Canonical) : (s.auditStop die).Canonical := .foldl h (fun _ _ h => .ite h h)

theorem auditRecompute {die} (h : s.Canonical) : (s.auditRecompute die).Canonical := by
  unfold State.auditRecompute
  dsimp only
  split
  · exact .auditDrain h
  · exact .ite (.keep (.auditDrain h)) (.ite (.raiseFor (.auditStop (.keep (.auditDrain h)))) (.raiseFor (.keep (.keep
      (.auditDrain h)))))

/-! ### Host queues and their commands -/

theorem setPending {p q} (h : s.Canonical) : (s.setPending p q).Canonical := .ite h h

theorem doorbellError {q} (h : s.Canonical) : (s.doorbellError q).Canonical := .createRecord (.queueError h)

theorem doorbell {q rkey} {f : QRec → State → State} (h : s.Canonical) (hf : ∀ r, (f r s).Canonical) :
    (s.doorbell q rkey f).Canonical := by
  unfold State.doorbell
  split
  · exact h
  · exact .ite h (.ite (.doorbellError h) (.setPending (hf _)))

theorem dataDoorbell {q rkey v} (h : s.Canonical) : (s.dataDoorbell q rkey v).Canonical :=
  .doorbell h fun _ => .ite (.setQueueRec h) (.doorbellError h)

theorem controlDoorbell {q rkey v} (h : s.Canonical) : (s.controlDoorbell q rkey v).Canonical :=
  .doorbell h fun _ => .ite (.setQueueRec h) h

theorem mapQueue {p q n} (h : s.Canonical) : (s.mapQueue p q n).Canonical := by
  unfold State.mapQueue
  refine .ite (.keep (.keep (.keep ?_))) (.keep (.keep ?_))
  · split
    · exact .storeRec h
    · exact h
  · split
    · exact .storeRec h
    · exact h

theorem execQueueMapping {part} (h : s.Canonical) : FormKept (Machine.execQueueMapping part s) := by
  unfold Machine.execQueueMapping
  refine .guarded ?_
  split
  · exact .ite h (.mapQueue h)
  · exact h

theorem dispatchFrom {fe n} (h : s.Canonical) : (s.dispatchFrom fe n).Canonical := by
  unfold State.dispatchFrom
  dsimp only
  split
  · exact h
  · exact .ite (.keep (.keep (.keep (.iaRead h)))) (.complete (.queueError (.keep (.iaRead h))))

theorem execDispatch {fe} (h : s.Canonical) : FormKept (Machine.execDispatch fe s) := by
  unfold Machine.execDispatch
  refine .guarded ?_
  split
  · exact .dispatchFrom h
  · exact h

theorem setExec {q c} (h : s.Canonical) : (s.setExec q c).Canonical := by
  unfold State.setExec
  split <;> exact h

theorem execBarrier {fe} (h : s.Canonical) : FormKept (Machine.execBarrier fe s) := by
  unfold Machine.execBarrier
  refine .guarded ?_
  split <;> exact h

theorem execFence {fe} (h : s.Canonical) : FormKept (Machine.execFence fe s) := by
  unfold Machine.execFence
  refine .guarded ?_
  split <;> exact h

theorem signal {q c} (h : s.Canonical) : (s.signal q c).Canonical := .complete (.setQueueRec h)

theorem execSignal {fe} (h : s.Canonical) : FormKept (Machine.execSignal fe s) := by
  unfold Machine.execSignal
  refine .guarded ?_
  split
  · exact .signal h
  · exact h

theorem execBarrierCompletion {q idx} (h : s.Canonical) : FormKept (Machine.execBarrierCompletion q idx s) := by
  unfold Machine.execBarrierCompletion
  refine .next ?_
  split
  · exact .ite (.complete h) h
  · exact h

theorem execFenceCompletion {q idx} (h : s.Canonical) : FormKept (Machine.execFenceCompletion q idx s) := by
  unfold Machine.execFenceCompletion
  refine .next ?_
  split
  · exact .ite (.complete h) h
  · exact h

theorem copyRead {p ia n} (h : s.Canonical) : (s.copyRead p ia n).1.Canonical := by
  unfold State.copyRead
  split
  · split
    have hr := State.Canonical.of_fst (.memRead h.noteWalk) ‹_›
    exact .iteFst (.reportFound hr) (.reportFound hr)
  · exact h

theorem freeBytes {n} (h : s.Canonical) : (s.freeBytes n).1.Canonical := h

theorem copyWrite {p dst bytes n done} (h : s.Canonical) : (s.copyWrite p dst bytes n done).1.Canonical := by
  unfold State.copyWrite
  split
  · exact .iteFst (.iaStore h) (.iaStore (.freeBytes h))
  · exact .iaStore (.freeBytes h)

theorem copyPiece {p c q} {a : CopyState} (h : a.1.Canonical) : (State.copyPiece p c a q).1.Canonical := by
  unfold State.copyPiece
  refine .iteFst h (.iteFst (.copyWrite (.copyRead h)) ?_)
  split
  · exact .keep (.copyRead h)
  · exact .copyRead h

theorem copyRun {p c} (h : s.Canonical) : (s.copyRun p c).1.Canonical := .foldlFst h fun _ _ h => .copyPiece h

theorem copyEnds {q c} (h : s.Canonical) : (s.copyEnds q c).Canonical := .keep (.setExec h)

theorem awaitHost {q c n} (h : s.Canonical) : (s.awaitHost q c n).Canonical := .keep (.setExec h)

theorem execCopy {fe} (h : s.Canonical) : FormKept (Machine.execCopy fe s) := by
  refine .guarded ?_
  split
  · refine .ite (.awaitHost (.keep h)) ?_
    split
    have hr := State.Canonical.of_fst (.copyRun (.keep h)) ‹_›
    exact .ite (.copyEnds hr) (.ite (.copyEnds hr) (.awaitHost hr))
  · exact h

theorem hostTaken {x c n} (h : s.Canonical) : (s.hostTaken x c n).Canonical := .ite (.copyEnds h) (.setExec h)

theorem copyTake {p c bytes} (h : s.Canonical) : (s.copyTake p c bytes).1.Canonical :=
  .foldlFst h fun _ _ h => .iteFst h (.copyWrite h)

theorem takeHostData {qp fuel bytes} (h : s.Canonical) : (s.takeHostData qp fuel bytes).Canonical := by
  induction fuel generalizing s bytes with
  | zero => exact h
  | succ fuel ih =>
    unfold State.takeHostData
    refine .ite h ?_
    split
    · exact h
    · split
      · exact h
      · exact ih (.hostTaken (.iteFst h (.copyTake h)))

theorem hostData {qp bytes} (h : s.Canonical) : (s.hostData qp bytes).Canonical := .takeHostData h

theorem takeHostAck {qp fuel n} (h : s.Canonical) : (s.takeHostAck qp fuel n).Canonical := by
  induction fuel generalizing s n with
  | zero => exact h
  | succ fuel ih =>
    unfold State.takeHostAck
    refine .ite h ?_
    split
    · exact h
    · split
      · exact h
      · exact ih (.hostTaken h)

theorem hostAck {qp n} (h : s.Canonical) : (s.hostAck qp n).Canonical := .takeHostAck h

theorem execCopyCompletion {q idx} (h : s.Canonical) : FormKept (Machine.execCopyCompletion q idx s) := by
  unfold Machine.execCopyCompletion
  refine .next ?_
  split
  · exact .ite (.complete h) h
  · exact h

theorem execWatchdogStage1 {q idx} (h : s.Canonical) : FormKept (Machine.execWatchdogStage1 q idx s) := by
  unfold Machine.execWatchdogStage1
  refine .next ?_
  split
  · refine .ite ?_ h
    split
    · exact .ite (.modDom h) (.raiseDom (.modDom h))
    · exact h
  · exact h

theorem execWatchdogStage2 {q idx} (h : s.Canonical) : FormKept (Machine.execWatchdogStage2 q idx s) := by
  unfold Machine.execWatchdogStage2
  refine .next ?_
  split
  · refine .ite ?_ h
    split
    · exact .raiseDom h
    · exact h
    · exact .complete (.queueError (.writeRecord h))
  · exact h

/-! ### Remote access by the host -/

theorem windowWrite {qp rkey r addr data} (h : s.Canonical) : (s.windowWrite qp rkey r addr data).Canonical := by
  unfold State.windowWrite
  split
  · exact h
  · exact .ite (.keep (.ite (.controlDoorbell h) (.dataDoorbell h))) h

theorem frame {f} (h : s.Canonical) : (s.frame f).Canonical := .ite h (.ite h (.ite h h))

theorem rdmaWrite {qp rkey addr data} (h : s.Canonical) : (s.rdmaWrite qp rkey addr data).Canonical := by
  unfold State.rdmaWrite
  refine .ite h ?_
  split
  · exact .windowWrite h
  · exact h
  · exact .ite (.keep (.iaStore h)) (.keep (.iaStore h))

theorem portRead {p ia n} (h : s.Canonical) : (s.portRead p ia n).1.Canonical := by
  unfold State.portRead
  split
  · have hx := State.Canonical.of_fst h.translateNow ‹_›
    split
    exact .reportFound (.of_fst (.memRead hx) ‹_›)
  · exact .of_fst h.translateNow ‹_›

theorem rdmaRead {qp rkey addr len} (h : s.Canonical) : (s.rdmaRead qp rkey addr len).Canonical := by
  unfold State.rdmaRead
  refine .ite h ?_
  split
  · exact h
  · exact .ite (.keep (.foldlFst h (fun _ _ h => .portRead h))) (.keep (.foldlFst h (fun _ _ h => .portRead h)))

theorem rdmaSend {qp data} (h : s.Canonical) : (s.rdmaSend qp data).Canonical := by
  unfold State.rdmaSend
  refine .ite h ?_
  split
  · exact h
  · exact .ite h (.ite (.keep (.iaStore h)) (.keep (.iaStore h)))

theorem rdmaAtomic {qp rkey addr f} (h : s.Canonical) : (s.rdmaAtomic qp rkey addr f).Canonical := by
  unfold State.rdmaAtomic
  refine .ite h ?_
  split
  · exact h
  · split
    · have hx := State.Canonical.of_fst h.translateNow ‹_›
      split
      have hr := State.Canonical.of_fst hx.homeRmw ‹_›
      exact .ite (.keep (.reportFound hr)) (.keep (.reportFound hr))
    · exact .keep (.of_fst h.translateNow ‹_›)

theorem execRateIncrease {qp} (h : s.Canonical) : FormKept (Machine.execRateIncrease qp s) := by
  unfold Machine.execRateIncrease
  refine .next ?_
  split
  · exact .ite h h
  · exact h

theorem failCopies {qp} (h : s.Canonical) : (s.failCopies qp).Canonical := by
  unfold State.failCopies
  refine .foldl h (fun _ _ h => ?_)
  split
  · exact .hostTaken h
  · exact h

/-! ### Launches -/

theorem readTimetable {p i} (h : s.Canonical) : (s.readTimetable p i).1.Canonical := by
  unfold State.readTimetable
  dsimp only
  split
  · exact .iaRead (.iaRead h)
  · exact .iaRead h

theorem pinBlock {p id key} (h : s.Canonical) : (s.pinBlock p id key).Canonical := by
  unfold State.pinBlock
  refine .keepMem ?_
  split
  · exact h
  · split
    · exact .cacheLeaf h
    · exact h

theorem unpin {id} (h : s.Canonical) : (s.unpin id).Canonical := h

theorem grantRes {p w} (h : s.Canonical) : (s.grantRes p w).1.Canonical := .iteFst h h

theorem dropRes {regs} (h : s.Canonical) : (s.dropRes regs).Canonical := h

theorem clearCore {c snap} (h : s.Canonical) : (s.clearCore c snap).Canonical := .keep (.keep (.flushL1 h))

theorem createDomain {fe p q c t} (h : s.Canonical) : (s.createDomain fe p q c t).Canonical :=
  .keep (.setExec (.foldl (.foldl (.keep (.keep (.foldlFst (.iaRead h) (fun _ _ h => .grantRes h))))
    (fun _ _ h => .pinBlock h)) (fun _ _ h => .keep (.clearCore h))))

theorem execLaunch {fe} (h : s.Canonical) : FormKept (Machine.execLaunch fe s) := by
  unfold Machine.execLaunch
  refine .guarded ?_
  split
  · dsimp only
    have ht {p i u e} (ht : (s.freeDisp fe).readTimetable p i = (u, e)) : u.Canonical := .of_fst (.readTimetable (.keep h)) ht
    split
    · exact .complete (.raiseNone (ht ‹_›))
    · exact .createDomain (ht ‹_›)
    · exact .complete (ht ‹_›)
  · exact h

theorem vaRead {p rng va n} (h : s.Canonical) : (s.vaRead p rng va n).1.Canonical := by
  unfold State.vaRead
  refine .foldlFst h (fun _ _ h => ?_)
  split
  · exact .iaRead h
  · exact h

theorem loadOverlay {p c rng g} (h : s.Canonical) : (s.loadOverlay p c rng g).Canonical := by
  unfold State.loadOverlay
  refine .foldl h fun _ _ h => ?_
  dsimp only
  split
  · exact .keep (.reportFound (.vaRead h))
  · exact .reportFound (.vaRead h)

theorem loadCore {c d} (h : s.Canonical) : (s.loadCore c d).Canonical := by
  unfold State.loadCore
  split
  · rename_i x0_0 e0_0 e0_1
    exact h
  · exact .raise (.of_fst (.readTimetable h) ‹_›)
  · exact .loadOverlay (.keep (.of_fst (.readTimetable h) ‹_›))

theorem execLaunchClearFinished (h : s.Canonical) : FormKept (Machine.execLaunchClearFinished s) := by
  unfold Machine.execLaunchClearFinished
  refine .next (.ite h ?_)
  dsimp only
  split
  · exact .ite h (.ite (.loadCore h) (.ite (.ite (.loadCore h) (.keep (.loadCore h))) (.keep (.loadCore h))))
  · exact h

/-! ### The memory side -/

theorem settleSlot {r} (h : s.Canonical) : (s.settleSlot r).Canonical := by
  unfold State.settleSlot
  have hr := h.settleReq (r := r)
  split <;> rename_i e <;> rw [e] at hr
  · exact .keepMem hr
  · exact .raiseMem (.keepMem hr)
  · exact .settleOver hr

theorem execPageWalk {id} (h : s.Canonical) : FormKept (Machine.execPageWalk id s) := by
  unfold Machine.execPageWalk
  refine .next ?_
  split
  · exact .ite (.settleSlot h) (.settle h)
  · exact h

theorem execWalkLate {id} (h : s.Canonical) : FormKept (Machine.execWalkLate id s) := by
  unfold Machine.execWalkLate
  refine .next ?_
  split
  · refine .ite (.ite (.setReq ?_) (.raise (.setReq ?_))) h
    · split
      · exact .ite h (.cacheLeaf h)
      · exact h
    · split
      · exact .ite h (.cacheLeaf h)
      · exact h
  · exact h

theorem shootDown {stack part lo hi} (h : s.Canonical) : (s.shootDown stack part lo hi).Canonical := h

theorem copyShadow {b sector} (h : s.Canonical) : (s.copyShadow b sector).Canonical := by
  unfold State.copyShadow
  refine .ite h ?_
  dsimp only
  split
  · exact h
  · exact .keepMem (.copySector (.decodeAt h))

theorem execShadowCopy {binding sector} (h : s.Canonical) : FormKept (Machine.execShadowCopy binding sector s) := by
  unfold Machine.execShadowCopy
  refine .next ?_
  split
  · exact .copyShadow h
  · exact h

theorem execPatrolScrub {stack sector} (h : s.Canonical) : FormKept (Machine.execPatrolScrub stack sector s) :=
  .guarded (.decodeAt h)

/-! ### The life of a domain -/

theorem startGang {d g} (h : s.Canonical) : (s.startGang d g).Canonical := .foldl h (fun _ _ h => h)

theorem execCcEntryStart {dom gang} (h : s.Canonical) : FormKept (Machine.execCcEntryStart dom gang s) := by
  unfold Machine.execCcEntryStart
  refine .next ?_
  split
  · exact .ite (.startGang h) h
  · exact h

theorem completeLaunch {d status} (h : s.Canonical) : (s.completeLaunch d status).Canonical := .complete h

theorem stopRun {id d} (h : s.Canonical) : (s.stopRun id d).Canonical := h

theorem flushOwn {id d} (h : s.Canonical) : (s.flushOwn id d).Canonical := .foldl h (fun _ _ h => .flushL1 h)

theorem returnFrames {id d} (h : s.Canonical) : (s.returnFrames id d).Canonical := h

theorem endDomain {id d killAt} (h : s.Canonical) : (s.endDomain id d killAt).Canonical := by
  refine .keep (.modDom (.ite (.keep ?cleared) ?cleared))
  exact .foldl (.dropRes (.unpin (.returnFrames (.flushOwn (.stopRun h))))) fun _ _ h => .clearCore h

theorem kill {id status} (h : s.Canonical) : (s.kill id status).Canonical := by
  unfold State.kill
  split
  · exact h
  · exact .ite h (.endDomain (.completeLaunch (.ite (.sendNotices (.writeRecord h)) h)))

theorem domainStart {id} (h : s.Canonical) : (s.domainStart id).Canonical := by
  unfold State.domainStart
  split
  · exact h
  · exact .ite h (.ite (.ite (.ite (.kill h) (.kill (.sendNotices h))) h) (.ite h h))

theorem execCoreFinished (h : s.Canonical) : FormKept (Machine.execCoreFinished s) := by
  unfold Machine.execCoreFinished
  refine .next (.ite ?_ h)
  dsimp only
  split
  · exact .ite h h
  · exact h

/-- The switch of a shadow block: its leaf is rewritten, or the frame's sectors are copied in place. -/
theorem switchBlock {b} (h : s.Canonical) : (s.switchBlock b).Canonical := by
  unfold State.switchBlock
  dsimp only
  split
  · exact .keep (.write (wf_writeBytes h _ _))
  · split
    · exact h
    · exact .keep (.foldl (.keepMem h) fun _ _ h => .copySector h)

theorem commitShadow {id} (h : s.Canonical) : (s.commitShadow id).Canonical := by
  unfold State.commitShadow
  refine .keepMem (.foldl (.foldl h (fun _ _ h => .foldl h (fun _ _ h => ?_))) (fun _ _ h => .switchBlock h))
  split
  · exact .copyShadow h
  · exact h

theorem retire {id} (h : s.Canonical) : (s.retire id).Canonical := by
  unfold State.retire
  split
  · exact h
  · refine .ite ?_ h
    dsimp only
    split
    · refine .ite (.foldl h (fun _ _ h => .flushL1 h)) ?_
      split
      · exact .endDomain (.completeLaunch (.commitShadow (.foldl h (fun _ _ h => .flushL1 h))))
      · exact .commitShadow (.foldl h (fun _ _ h => .flushL1 h))
    · exact .foldl h (fun _ _ h => .flushL1 h)

theorem replay {id ba} (h : s.Canonical) : (s.replay id ba).Canonical := by
  unfold State.replay
  split
  · exact h
  · refine .ite h (.ite h (.ite (.keep (.keep ?cleared)) (.keep ?cleared)))
    exact .foldl (.keep (.foldl (.returnFrames (.flushOwn (.stopRun h))) fun _ _ h => .clearCore h))
      fun _ _ h => .keep (.ite h (.clearCore h))

theorem execBasinReplayDispatch {dom} (h : s.Canonical) : FormKept (Machine.execBasinReplayDispatch dom s) := by
  unfold Machine.execBasinReplayDispatch
  refine .next ?_
  split
  · split
    · exact .ite h h
    · exact h
  · exact h

theorem takeNotice {n} (h : s.Canonical) : (s.takeNotice n).Canonical := by
  unfold State.takeNotice
  split
  · exact h
  · exact .ite (.ite (.kill h) (.modDom h)) (.ite h (.ite (.replay (.writeRecord h)) (.kill (.writeRecord h))))

theorem abortNotice {n} (h : s.Canonical) : (s.abortNotice n).Canonical := .ite (.takeNotice h) h

theorem refuseOrder {dom} (h : s.Canonical) : (s.refuseOrder dom).Canonical := h

theorem execPreemptionRequest {dom} (h : s.Canonical) : FormKept (Machine.execPreemptionRequest dom s) := by
  unfold Machine.execPreemptionRequest
  refine .next ?_
  split
  · exact .ite (.refuseOrder h) (.ite (.raiseDom h) h)
  · exact h

theorem freeze {id} (h : s.Canonical) : (s.freeze id).Canonical := by
  unfold State.freeze
  split
  · exact h
  · split
    · refine .ite h ?_
      split
      · exact h
      · exact h
      · exact .ite h h
      · exact h
    · exact h

theorem retranslate {id} (h : s.Canonical) : (s.retranslate id).1.Canonical := by
  unfold State.retranslate
  refine .foldlFst h fun a r h => ?_
  have hr := h.settleReq (r := r)
  split <;> rename_i e <;> rw [e] at hr <;> exact .keepMem hr

theorem raiseNow {id core e} (h : s.Canonical) : (s.raiseNow id core e).Canonical := by
  unfold State.raiseNow
  split
  · exact .raiseLive h
  · exact h

theorem execResumeOrder {dom} (h : s.Canonical) : FormKept (Machine.execResumeOrder dom s) := by
  unfold Machine.execResumeOrder
  refine .next ?_
  split
  · refine .ite h ?_
    split
    · exact .keep (.modDom (.of_fst (.retranslate h) ‹_›))
    · exact .foldl (.of_fst (.retranslate h) ‹_›) (fun _ _ h => .raiseNow h)
  · exact h

theorem raiseLater {id later} (h : s.Canonical) : (s.raiseLater id later).Canonical := .foldl h (fun _ _ h => .raiseDomAt h)

theorem resume {id} (h : s.Canonical) : (s.resume id).Canonical := by
  unfold State.resume
  split
  · exact h
  · split
    · exact .ite h (.ite h (.raiseLater (.foldl h (fun _ _ h => h))))
    · exact h

theorem execFrozenInspection {dom} (h : s.Canonical) : FormKept (Machine.execFrozenInspection dom s) := by
  unfold Machine.execFrozenInspection
  refine .next ?_
  split
  · exact .ite h (.foldl h (fun _ _ h => h))
  · exact h

theorem execWatchdogStage3 {dom} (h : s.Canonical) : FormKept (Machine.execWatchdogStage3 dom s) := by
  unfold Machine.execWatchdogStage3
  refine .next ?_
  split
  · exact .ite (.foldl (.modDom (.raiseDom h)) (fun _ _ h => h)) h
  · exact h

/-! ### Eviction and restore -/

theorem writeImages {d ia} (h : s.Canonical) : (s.writeImages d ia).1.Canonical :=
  .foldlFst h (fun _ _ h => .foldlFst h (fun _ _ h => .iaStore h))

theorem evict {id ia} (h : s.Canonical) : (s.evict id ia).Canonical := by
  unfold State.evict
  split
  · exact h
  · refine .ite h (.ite (.refuseOrder h) ?_)
    split
    · exact .raiseDom h
    · refine .ite (.raiseDom ?saved) (.keep (.foldl (.unpin (.report (.keepMem (.modDom ?saved)))) fun _ _ h => .clearCore h))
      exact .writeImages (.foldl h fun _ _ h => .flushL1 h)

theorem readArea {d ia n} (h : s.Canonical) : (s.readArea d ia n).1.Canonical := by
  unfold State.readArea
  dsimp only
  split
  · exact h
  · exact .iaRead h

theorem restoreCore {d id ia k} (h : s.Canonical) : (s.restoreCore d id ia k).Canonical := .modDom h

theorem restore {id} (h : s.Canonical) : (s.restore id).Canonical := by
  unfold State.restore
  split
  · exact h
  · refine .ite h ?_
    dsimp only
    split
    · exact .raiseDom (.of_fst (.readArea h) ‹_›)
    · exact .keep (.modDom (.keepMem (.foldl (.of_fst (.readArea h) ‹_›) (fun _ _ h => .restoreCore h))))

theorem lateReply {c slot data} (h : s.Canonical) : (s.lateReply c slot data).Canonical := by
  unfold State.lateReply
  split
  · exact h
  · refine .ite (.keep h) ?_
    generalize List.map (β := Nat × Core) _ _ = saved
    extract_lets f base
    split
    have hu := State.Canonical.of_fst (.iaStore (.keep h)) ‹_›
    split
    have hv := State.Canonical.of_fst (.iaStore hu) ‹_›
    exact .ite hv (.raiseDom hv)

/-! ### Remote requests and arrivals -/

theorem reply {r route data poisoned} (h : s.Canonical) : (s.reply r route data poisoned).Canonical := .ite h h

theorem partStored {r} (h : s.Canonical) : (s.partStored r).Canonical := .ite h h

theorem strongRefused {r dom} (h : s.Canonical) : (s.strongRefused r dom).Canonical := .ite (.beLate h) (.raiseFor h)

theorem servePart {r route dom x poison} (h : s.Canonical) : (s.servePart r route dom x poison).Canonical := by
  unfold State.servePart
  split
  · split
    exact .reply (.reportFound (.of_fst h.memRead ‹_›))
  · split
    · exact .reportFound h
    · exact .partStored (.keep (.memWrite h))
  · refine .ite (.strongRefused h) ?_
    split
    exact .reply (.reportFound (.of_fst h.homeRmw ‹_›))

theorem targetEvent {r t e} (h : s.Canonical) : (s.targetEvent r t e).Canonical := by
  unfold State.targetEvent
  dsimp only
  split
  · exact .raiseDom h
  · exact .recordEnded h
  · exact .raiseNone h

theorem serveRemote {f r} (h : s.Canonical) : (s.serveRemote f r).Canonical := by
  unfold State.serveRemote
  have hx {rd wr} : (s.translateNow r.part r.ia rd wr).1.Canonical := .translateNow h
  dsimp only
  split
  · exact .targetEvent hx
  · split
    · have hb := State.Canonical.bindIf hx ‹_›
      refine .ite ?_ (.servePart hb)
      split
      · exact .servePart (.takeLease hb ‹_›)
      · exact .raiseDom hb
    · exact .servePart (.bindIf hx ‹_›)
    · exact .targetEvent hx

theorem lateArrival {f} (h : s.Canonical) : (s.lateArrival f).Canonical := by
  unfold State.lateArrival
  split
  · exact h
  · exact .recordEnded h

theorem holdFlit {f} (h : s.Canonical) : (s.holdFlit f).Canonical := .ite (.ite (.lateArrival h) (.ite h h)) (.ite h (.ite h h))

theorem requestLate {r} (h : s.Canonical) : (s.requestLate r).Canonical := .targetEvent h

theorem flitArrives {f} (h : s.Canonical) : (s.flitArrives f).Canonical := by
  unfold State.flitArrives
  split
  · exact .ite h (.ite (.requestLate h) (.serveRemote h))
  · split
    · exact h
    · exact .holdFlit h

theorem unmatched {c x} (h : s.Canonical) : (s.unmatched c x).Canonical := by
  unfold State.unmatched
  split
  · exact h
  · exact .ite h (.raise h)

theorem sendNotice {n} (h : s.Canonical) : (s.sendNotice n).Canonical := by
  unfold State.sendNotice
  split
  · exact h
  · exact .ite h h

theorem dropped {x wport} (h : s.Canonical) : (s.dropped x wport).Canonical := .ite (.reported h) h

theorem switchForward {io xs} (h : s.Canonical) : (s.switchForward io xs).Canonical := .foldl h (fun _ _ h => .dropped h)

theorem ackArrival {c x n} (h : s.Canonical) : (s.ackArrival c x n).Canonical := by
  unfold State.ackArrival
  dsimp only
  split
  · exact .keep h
  · exact .keep h

theorem replyArrival {c slot data poisoned} (h : s.Canonical) : (s.replyArrival c slot data poisoned).Canonical := by
  unfold State.replyArrival
  split
  · exact .ite (.raiseDom h) h
  · split
    · exact h
    · exact .ite h (.ite (.raise h) (.ite h h))

/-! ### The cycle -/

theorem nextCycle (h : s.Canonical) : s.nextCycle.Canonical := .ite h (.keep (.keep (.keep (.tableSync h))))

theorem layOut (h : s.Canonical) : s.layOut.Canonical := .keep (.keep (.keepMem (.foldl h (fun _ _ h => .ite (.count h) h))))

/-! ### The firmware's tables -/

theorem rawWrite {stack pa bs} (h : s.Canonical) : (s.rawWrite stack pa bs).Canonical := .write (wf_writeBytes h _ _)

theorem writeTable {w} (h : s.Canonical) : (s.writeTable w).Canonical := by
  cases w with
  | queueRecord => exact .ite (.keep (.disableQueue h)) (.keep (.setQueueRec h))
  | timetableSlot | memory | route => exact .iaStore h
  | pageEntry => exact .rawWrite h
  | _ => exact h

/-! ### Upsets -/

theorem classX {c engine source} (h : s.Canonical) : (s.classX c engine source).Canonical := .raise h

theorem accumulatorUpset {c a working} (h : s.Canonical) : (s.accumulatorUpset c a working).Canonical := by
  unfold State.accumulatorUpset
  refine .ite (.raise h) ?_
  split
  · exact h
  · exact .raiseAs (.dropSteps h)

theorem firstLevelUpset {c ia} (h : s.Canonical) : (s.firstLevelUpset c ia).Canonical := by
  unfold State.firstLevelUpset
  split
  · exact h
  · exact .ite (.raise h) h

theorem upset {u} (h : s.Canonical) : (s.upset u).Canonical := by
  cases u with
  | scratchpad | l2Data | monitor | fec => exact .ite h h
  | accumulator => exact .accumulatorUpset h
  | firstLevel => exact .ite (.firstLevelUpset h) h
  | ispad | tagStore => exact .ite (.classX h) h
  | l2Tags => exact .ite (.raiseDom h) h
  | registers => exact .raise h
  | control => exact .classX h
  | walkStore | shadowPool => exact .raiseDom h
  | noc die id =>
    cases id with
    | some id => exact .raiseDom h
    | none => exact h
  | _ => exact h

/-! ### What `exec` makes of an instruction or event, and what a step keeps -/

theorem slotRun {i} (h : s.Canonical) : FormKept (runSlot i (Machine.slotDo i).1 (Machine.slotDo i).2 s) := by
  unfold runSlot
  split
  · exact .next h
  · split
    · exact .next (.beRaise h)
    · split
      · exact .next h
      · exact .next (.ite (h.slotDo i).1 (h.slotDo i).2)

theorem exec {i} (h : s.Canonical) : FormKept (Machine.exec i s) := by
  by_cases hslot : i.form.2 = .notSlot
  · cases i with
    | moduleReset | driftLock | ccFence => exact .next h
    | functionReady => exact .guarded (.functionReady h)
    | readyBitFall | linkLatencyLoss => exact .guarded (.readyFall h)
    | lockLoss | registerLanding | cnpReceive | headwaterTakeover | fenceI => exact .next (.ite h h)
    | holdCycles => exact .next (.foldl h (fun _ _ h => .holdDone h))
    | drreq => exact .next (.driftRequest h)
    | dataDoorbell => exact .guarded (.dataDoorbell h)
    | controlDoorbell => exact .guarded (.controlDoorbell h)
    | queueMapping => exact h.execQueueMapping
    | dispatch => exact h.execDispatch
    | ageingQuantum => exact .guarded (.foldl h (fun _ _ h => .ite h h))
    | launch => exact h.execLaunch
    | copy => exact h.execCopy
    | barrier => exact h.execBarrier
    | signal => exact h.execSignal
    | fence => exact h.execFence
    | barrierCompletion => exact h.execBarrierCompletion
    | copyCompletion => exact h.execCopyCompletion
    | fenceCompletion => exact h.execFenceCompletion
    | domainStart => exact .next (.domainStart h)
    | ccEntryStart => exact h.execCcEntryStart
    | coreFinished => exact h.execCoreFinished
    | launchRetirement => exact .next (.retire h)
    | tidleExpiry | tholdExpiry => exact .next (.ite (.sendHeld h) h)
    | watchdogStage1 => exact h.execWatchdogStage1
    | watchdogStage2 => exact h.execWatchdogStage2
    | watchdogStage3 => exact h.execWatchdogStage3
    | faultQueueConsume => exact .guarded h
    | preemptionRequest => exact h.execPreemptionRequest
    | freeze => exact .next (.freeze h)
    | resumeOrder => exact h.execResumeOrder
    | resume => exact .next (.resume h)
    | eviction => exact .next (.evict h)
    | restore => exact .next (.restore h)
    | lateReply => exact .guarded (.lateReply h)
    | kill => exact .next (.kill h)
    | launchReplay => exact .next (.replay h)
    | basinAbortNotice => exact .next (.abortNotice h)
    | basinReplayDispatch => exact h.execBasinReplayDispatch
    | bundleStep => exact .next (.bundleStep h)
    | scratchpadAccess => exact .next (.scratchpadAccess h)
    | p5MicroStep => exact .next (.microStep h)
    | beTrap => exact .next (.beTrap h)
    | ccInterruptEntry => exact h.execCcInterruptEntry
    | ccWaitEnd => exact h.execCcWaitEnd
    | homeSliceCycle => exact .guarded (.homeSlice h)
    | firstLevelEviction => exact .next (.dropLine h)
    | pageWalk => exact h.execPageWalk
    | walkLate => exact h.execWalkLate
    | shootDown => exact .guarded (.shootDown h)
    | shadowCopy => exact h.execShadowCopy
    | patrolScrub => exact h.execPatrolScrub
    | macroStart => exact h.execMacroStart
    | tileStepStart => exact .next (.tileStepStart h)
    | tileStepCommit => exact .next (.tileStepCommit h)
    | chunkCommit => exact .next (.chunkCommit h)
    | cxSendStep | cxReceiveStep => exact .next (.cxTurn h)
    | entryComplete => exact .next (.entryComplete h)
    | macroStop => exact .next (.macroStop h)
    | entryReissue => exact .next (.entryReissue h)
    | entryFlush => exact .next (.entryFlush h)
    | ceRefetch => exact .next (.ceRefetch h)
    | auditRecomputation => exact .guarded (.auditRecompute h)
    | flitArrival => exact .guarded (.flitArrives h)
    | switchForward => exact .guarded (.switchForward h)
    | ackSend | liveUpdate => exact .next (.ite h (.ite h h))
    | ackArrival => exact .guarded (.ackArrival h)
    | replyArrival => exact .guarded (.replyArrival h)
    | elasticSendTimeout => exact .next (.ite (.bundleStep h) h)
    | ethernetFrameReceive => exact .next (.ite h (.ite h (.ite h h)))
    | rdmaWrite => exact .next (.rdmaWrite h)
    | rdmaRead => exact .next (.rdmaRead h)
    | rdmaSend => exact .next (.rdmaSend h)
    | atomicFetchAdd | atomicCompareSwap => exact .next (.rdmaAtomic h)
    | rateIncrease => exact h.execRateIncrease
    | ackTimeout => exact .next (.ite h (.ite h (.failCopies h)))
    | merge => exact .next (.merge h)
    | split => exact .next (.split h)
    | frequencyRequest => exact .guarded (.frequency h)
    | beirq => exact .next (.pendBe h)
    | registerWrite => exact .next (.regWrite h)
    | ccLoadStore => exact h.execCcLoadStore
    | lr => exact .next (.lrLoad h)
    | sc => exact .next (.scStore h)
    | wfi => exact .next (.ite (.ccIllegal h) (.ite h h))
    | mret => exact h.execMret
    | ecall => exact h.execEcall
    | mmat | mconv | mattn | msort | mgath | mscat | mcopy | mfill | movly | msel | mtopk
    | mcoll => exact .next (.macroIssue h)
    | calBestart => exact .next (.beStart h)
    | calBestartResume => exact .next (.ite (.beResume h) (.ccIllegal h))
    | calWaitEng => exact h.execCalWaitEng
    | calWaitRng => exact .next (.calWaitRng h)
    | calWaitSc => exact .next (.ite (.ccIllegal h) (.waitFor h))
    | calPrgrd => exact h.execCalPrgrd
    | calPrgwr => exact h.execCalPrgwr
    | calRngwr => exact .next (.ite (.ccIllegal h) h)
    | calRel => exact .next (.ite (.ccIllegal h) (.waitFor (.ite h (.flushL1 h))))
    | calAcq => exact .next (.ite (.ccIllegal h) (.keep (.ite h h)))
    | calOvly => exact h.execCalOvly
    | calDrift => exact .next (.ite (.ccIllegal h) (.keep (.driftRequest h)))
    | controlCoreInstruction => exact .next (.rvStep h)
    | frozenInspection => exact h.execFrozenInspection
    | headwaterTableWrite => exact .guarded (.writeTable h)
    | launchClearFinished => exact h.execLaunchClearFinished
    | _ => exact absurd hslot nofun
  · rw [exec_slot i s hslot]
    exact h.slotRun

theorem ccTurn {c} (h : s.Canonical) : FormKept (Machine.ccTurn c s) := by
  unfold Machine.ccTurn
  split
  · split
    · exact State.Canonical.exec (.keep h)
    · rename_i t e
      simp only [State.ccFetch] at e
      split at e
      · cases e; exact .next (.ccTrap h)
      · split at e <;> cases e
  · exact .next h

theorem runTurn {u} (h : s.Canonical) : FormKept (Machine.runTurn u s) := by
  cases u with
  | op c i =>
    simp only [Machine.runTurn]
    split
    · exact State.Canonical.exec (.keep h)
    · exact .fault _
  | cc c => exact h.ccTurn
  | unmatched c x => exact .next h.unmatched
  | report c id n e => exact .next h.reported
  | slice die slice phase below => exact .next h.slicePhase
  | notice n => exact .next h.sendNotice
  | upset u => exact .next h.upset
  | hostData qp bytes => exact .next h.hostData
  | hostAck qp n => exact .next h.hostAck
  | plan => exact .next h.layOut

theorem step (h : s.Canonical) : FormKept (Machine.step s) := by
  unfold Machine.step
  split
  · exact .next h.nextCycle
  · exact State.Canonical.runTurn (.keep h)

end State.Canonical

/-- Settles O53, by the form that each operation of the model keeps, up to the step itself. -/
theorem stepKeepsMemoryForm : Obligations.StepKeepsMemoryForm :=
  fun _ _ h e => State.Canonical.step h _ e

end Sys2Proof.Machine
end

section
/-! What a store of the module's own front end changes (R240): the memory side, the count of free values, and the
reservations of the control cores. -/

open Sys2Proof Sys2Proof.Machine

namespace Sys2Proof.Machine

variable {s t u : State}

/-! ### Only the memory side -/

theorem MemOnly.setMem (h : MemOnly s t) (m : Mem) : MemOnly s { t with mem := m } := h.trans (.of_mem t m)

theorem MemOnly.ite {p : Prop} [Decidable p] {a b : State} (ha : MemOnly s a) (hb : MemOnly s b) :
    MemOnly s (if p then a else b) := by
  split
  · exact ha
  · exact hb

theorem State.fillShadow_memOnly (s : State) (stack src dst layout p0 block : Nat) :
    MemOnly s (s.fillShadow stack src dst layout p0 block) :=
  (s.decodeAt_memOnly stack (src / 64 * 64) layout p0 block false).setMem _

theorem MemOnly.putCipher (h : MemOnly s t) (p ia stack pa : Nat) (bytes : List Byte) :
    MemOnly s (t.putCipher p ia stack pa bytes) := h.setMem _

theorem MemOnly.l2Keep (h : MemOnly s t) (stack L pa : Nat) (cls : Option Nat) : MemOnly s (t.l2Keep stack L pa cls) :=
  h.setMem _

theorem MemOnly.decodeAt (h : MemOnly s t) (stack pa layout p0 block : Nat) (held : Bool) :
    MemOnly s (t.decodeAt stack pa layout p0 block held).1 := h.trans (t.decodeAt_memOnly ..)

theorem State.writePiece_memOnly (s : State) (dom : Option Nat) (p ia pa : Nat) (leaf : Word) (size : Nat) (cls : Option Nat)
    (bytes : List Byte) (mask : Nat) (poison : Bool) (q : Piece) :
    MemOnly s (s.writePiece dom p ia pa leaf size cls bytes mask poison q) := by
  unfold State.writePiece
  refine .ite (.refl s) ?_
  split
  · refine .ite (.l2Keep (.setMem (.setMem ?checked _) _) ..) (.ite (.l2Keep (.putCipher (.setMem ?checked _) ..) ..) (.refl s))
    exact .ite (.of_mem s _) (.setMem (s.decodeAt_memOnly ..) _)
  · have hs {c : Prop} [Decidable c] {stack src fpa layout p0 b} : MemOnly s (if c then s
      else s.fillShadow stack src fpa layout p0 b) := .ite (.refl s) (s.fillShadow_memOnly ..)
    refine .ite (.l2Keep (.setMem (.setMem ?filled _) _) ..)
      (.ite (.l2Keep (.putCipher (.setMem ?filled _) ..) ..) (.setMem hs _))
    exact .ite (.setMem (.setMem hs _) _) (.setMem (.decodeAt (.setMem hs _) ..) _)

/-- A write without a domain changes the memory side alone. -/
theorem State.memWrite_memOnly (s : State) (p ia : Nat) (bytes : List Byte) (mask : Nat) (x : Xlat) (poison : Bool) :
    MemOnly s (s.memWrite none p ia bytes mask x poison) := by
  unfold State.memWrite State.memWriteAs
  refine (s.countRes_memOnly p ia).trans ?_
  split
  · exact MemOnly.foldl (fun s q => s.writePiece_memOnly ..) _ _
  · exact .refl _

/-! ### The memory side and the reservations of the control cores -/

theorem sget_map {α : Type} {f : Nat × α → Nat × α} (hf : ∀ e, (f e).1 = e.1) (l : Sparse α) (k : Nat) :
    sget (l.map f) k = (sget l k).map fun v => (f (k, v)).2 := by
  induction l with
  | nil => rfl
  | cons e l ih =>
    obtain ⟨j, v⟩ := e
    have hj : f (j, v) = (j, (f (j, v)).2) := Prod.ext (hf (j, v)) rfl
    rw [List.map_cons, hj, sget_cons, sget_cons, ih]
    split
    · subst_vars; rfl
    · rfl

/-- Nothing but the memory side, the count of free values and reservations differs. -/
structure StoreOnly (s t : State) : Prop where
  frame : t = { s with mem := t.mem, freeCount := t.freeCount, cores := t.cores }
  core : ∀ c, t.core c = { s.core c with cc := { (s.core c).cc with resv := (t.core c).cc.resv } }

theorem StoreOnly.refl (s : State) : StoreOnly s s := ⟨rfl, fun _ => rfl⟩

theorem StoreOnly.trans (h : StoreOnly s t) (k : StoreOnly t u) : StoreOnly s u where
  frame := by rw [k.frame, h.frame]
  core c := by rw [k.core c, h.core c]

theorem StoreOnly.of_memOnly (h : MemOnly s t) : StoreOnly s t where
  frame := by rw [h]
  core c := by rw [h]; rfl

/-- A fold of steps of which each changes only what a store may. -/
theorem StoreOnly.foldl {α : Type} {f : State → α → State} (hf : ∀ s x, StoreOnly s (f s x)) (l : List α) (s : State) :
    StoreOnly s (l.foldl f s) := by
  induction l generalizing s with
  | nil => exact .refl s
  | cons x l ih => exact (hf s x).trans (ih _)

theorem StoreOnly.iteFst {α : Type} {p : Prop} [Decidable p] {a b : State × α} (ha : StoreOnly s a.1) (hb : StoreOnly s b.1) :
    StoreOnly s (if p then a else b).1 := by
  split
  · exact ha
  · exact hb

theorem StoreOnly.ready (h : StoreOnly s t) : t.ready = s.ready := by rw [h.frame]
theorem StoreOnly.basin (h : StoreOnly s t) : t.basin = s.basin := by rw [h.frame]
theorem StoreOnly.doms (h : StoreOnly s t) : t.doms = s.doms := by rw [h.frame]
theorem StoreOnly.parts (h : StoreOnly s t) : t.parts = s.parts := by rw [h.frame]
theorem StoreOnly.be (h : StoreOnly s t) (c : Nat) : (t.core c).be = (s.core c).be := by rw [h.core]
theorem StoreOnly.eng (h : StoreOnly s t) (c : Nat) : (t.core c).eng = (s.core c).eng := by rw [h.core]

theorem State.breakReservations_storeOnly (s : State) (by_ : Option Nat) (p ia n : Nat) :
    StoreOnly s (s.breakReservations by_ p ia n) where
  frame := rfl
  core c := by
    unfold State.breakReservations State.core
    rw [sget_map (fun e => by dsimp only; split <;> [split; skip] <;> rfl)]
    cases h : sget s.cores c with
    | none => rfl
    | some k =>
      simp only [Option.map_some, Option.getD_some]
      split
      · split <;> rfl
      · rfl

/-- A front end's store changes the memory side and the reservations that it breaks. -/
theorem State.iaStore_storeOnly (s : State) (p ia : Nat) (bytes : List Byte) : StoreOnly s (s.iaStore p ia bytes).1 := by
  unfold State.iaStore
  suffices h : ∀ (qs : List Piece) (a : State × Bool), StoreOnly s a.1 → StoreOnly s (qs.foldl _ a).1 from
    h _ (s, true) (.refl s)
  intro qs
  induction qs with
  | nil => exact fun _ h => h
  | cons q qs ih =>
    refine fun a h => ih _ ?_
    have hx {u x} (e : a.1.translateNow p (ia + q.ofs) false true = (u, x)) : StoreOnly s u := by
      obtain ⟨rfl, -⟩ := Prod.mk.inj e
      exact h.trans (.of_memOnly (a.1.noteWalk_memOnly ..))
    dsimp only
    split
    · rename_i e
      split
      · exact hx e
      · exact ((hx e).trans (.of_memOnly (State.memWrite_memOnly ..))).trans (State.breakReservations_storeOnly ..)
    · rename_i e
      exact hx e

/-! ### The registers of the cores -/

/-- Of a core's registers none differs but its reservation. -/
def Core.RegsKept (k k' : Core) : Prop := k'.be = k.be ∧ k'.eng = k.eng ∧ k'.cc = { k.cc with resv := k'.cc.resv }

/-- The same of every core, and the core whose turn it is stays. -/
structure CoresKept (s t : State) : Prop where
  cur : t.cur = s.cur
  core : ∀ c, (s.core c).RegsKept (t.core c)

theorem CoresKept.of_cores (hc : t.cur = s.cur) (h : t.cores = s.cores) : CoresKept s t where
  cur := hc
  core c := by
    rw [show t.core c = s.core c from by rw [State.core, State.core, h]]
    exact ⟨rfl, rfl, rfl⟩

theorem CoresKept.refl (s : State) : CoresKept s s := .of_cores rfl rfl

theorem CoresKept.trans (h : CoresKept s t) (k : CoresKept t u) : CoresKept s u where
  cur := k.cur.trans h.cur
  core c := by
    obtain ⟨hb, he, hc⟩ := h.core c
    obtain ⟨kb, ke, kc⟩ := k.core c
    exact ⟨kb.trans hb, ke.trans he, by rw [kc, hc]⟩

theorem CoresKept.of_store (h : StoreOnly s t) : CoresKept s t :=
  ⟨by rw [h.frame], fun c => ⟨h.be c, h.eng c, congrArg Core.cc (h.core c)⟩⟩

theorem CoresKept.modCore {f : Core → Core} (s : State) (c : Nat) (hf : ∀ k : Core, k.RegsKept (f k)) :
    CoresKept s (s.modCore c f) where
  cur := rfl
  core j := by
    rw [State.core_modCore]
    split
    · subst_vars; exact hf _
    · exact ⟨rfl, rfl, rfl⟩

/-! ### The records of an event -/

/-- No domain, no word of a partition table, and of a core no register but its reservation differs. -/
structure RecordsOnly (s t : State) : Prop where
  doms : t.doms = s.doms
  cores : CoresKept s t
  words : ∀ p, (t.part p).words = (s.part p).words

theorem RecordsOnly.refl (s : State) : RecordsOnly s s := ⟨rfl, .refl s, fun _ => rfl⟩

theorem RecordsOnly.trans (h : RecordsOnly s t) (k : RecordsOnly t u) : RecordsOnly s u :=
  ⟨k.doms.trans h.doms, h.cores.trans k.cores, fun p => (k.words p).trans (h.words p)⟩

theorem RecordsOnly.foldl {α : Type} {f : State → α → State} (hf : ∀ s x, RecordsOnly s (f s x)) (l : List α)
    (s : State) :
    RecordsOnly s (l.foldl f s) := by
  induction l generalizing s with
  | nil => exact .refl s
  | cons x l ih => exact (hf s x).trans (ih _)

theorem RecordsOnly.of_store (h : StoreOnly s t) : RecordsOnly s t :=
  ⟨h.doms, .of_store h, fun p => by rw [State.part, State.part, h.parts]⟩

theorem RecordsOnly.modPart {f : Part → Part} (hf : ∀ t, (f t).words = t.words) (s : State) (p : Nat) :
    RecordsOnly s (s.modPart p f) := by
  refine ⟨rfl, .of_cores rfl rfl, fun j => ?_⟩
  by_cases hp : p < 4
  · rw [State.part_modPart s p j f hp]
    split
    · subst_vars; exact hf _
    · rfl
  · rw [State.modPart, State.part, Vector.setIfInBounds_eq_of_size_le (by omega)]; rfl

theorem storeRecords_storeOnly (s : State) (p pos : Nat) (seq : BitVec 16) (rs : List FaultRec) :
    StoreOnly s (s.storeRecords p pos seq rs).1 := by
  induction rs generalizing s pos seq with
  | nil => exact .refl s
  | cons r rs ih =>
    unfold State.storeRecords
    exact .iteFst (.refl s) (.iteFst (.refl s) ((s.iaStore_storeOnly ..).trans (ih ..)))

theorem layRecords_recordsOnly (s : State) (p : Nat) (rs : List FaultRec) (new : Nat) :
    RecordsOnly s (s.layRecords p rs new) := by
  unfold State.layRecords
  dsimp only
  refine (RecordsOnly.of_store (storeRecords_storeOnly ..)).trans (.modPart ?_ _ p)
  exact fun _ => rfl

theorem writeRecord_recordsOnly (s : State) (p core : Nat) (dom : Option Domain) (e : Ev) (resp : Nat) (secondary : Bool) :
    RecordsOnly s (s.writeRecord p core dom e resp secondary) := layRecords_recordsOnly ..

theorem sendNotices_recordsOnly (s : State) (d : Domain) (resp : Nat) (cause sub : BitVec 8) :
    RecordsOnly s (s.sendNotices d resp cause sub) := by
  unfold State.sendNotices
  split
  · exact .refl s
  · refine .foldl (fun s m => ?_) _ s
    split
    · exact .refl s
    · exact ⟨rfl, .of_cores rfl rfl, fun _ => rfl⟩

end Sys2Proof.Machine
end

section
/-! Ready bits, the fencing of a failed die, drift lock and hold cycles (R389 to R391, R395, R396). -/

open Sys2Proof Sys2Proof.Machine

namespace Sys2Proof.Machine

variable {s t : State}

/-! ### One ready bit -/

/-- Setting or clearing bit `n` of a word. -/
theorem getLsbD_setBit {w : Nat} (x : BitVec w) (v : Bool) {n m : Nat} (hm : m < w) :
    (if v then x ||| ((1 : BitVec w) <<< n) else x &&& ~~~((1 : BitVec w) <<< n)).getLsbD m =
      if m = n then v else x.getLsbD m := by
  have hbit : ((1 : BitVec w) <<< n).getLsbD m = decide (m = n) := by
    rw [BitVec.getLsbD_shiftLeft, show (1 : BitVec w) = 1#w from rfl, BitVec.getLsbD_one]
    by_cases h : m = n
    · subst h; simp; omega
    · simp [h]; omega
  cases v
  · rw [if_neg (by decide), BitVec.getLsbD_and, BitVec.getLsbD_not, hbit]
    by_cases h : m = n <;> simp [h, hm]
  · rw [if_pos rfl, BitVec.getLsbD_or, hbit]
    by_cases h : m = n <;> simp [h]

/-- A ready word with one function's bit put: that bit is the new one, and every other as before. -/
theorem oneBit_of_put {f : Func} {v : Bool} (h : t.ready = s.ready.put f v) : Spec.oneBit s t f v := by
  intro g hg
  unfold Spec.readyBit
  rw [h]
  cases f <;> cases g <;>
    simp only [Ready.put, Func.link.injEq, Func.fe.injEq, Func.die.injEq, Func.stack.injEq, reduceCtorEq, if_true, if_false]
  all_goals exact getLsbD_setBit _ _ hg

theorem Ready.put_drlock (r : Ready) (f : Func) (v : Bool) : (r.put f v).drlock = r.drlock := by
  cases f <;> rfl

theorem Func.ok_of_exists {f : Func} (h : Spec.exists_ f) : f.ok = true := by
  cases f with
  | link n | fe n | die n | stack n => exact decide_eq_true h
  | _ => rfl

/-! ### A function becomes ready -/

theorem functionReady_ready (s : State) (f : Func) : (s.functionReady f).ready = s.ready.put f true := by
  cases f <;> rfl

theorem functionReady_frame (s : State) (f : Func) : (s.functionReady f).cores = s.cores ∧
    (s.functionReady f).mem.hbm = s.mem.hbm ∧ (s.functionReady f).basin = s.basin := by
  cases f <;> exact ⟨rfl, rfl, rfl⟩

/-- A table from which the entries of a key's group are taken has none at that key. -/
theorem sget_filter_none {α : Type} {p : Nat × α → Bool} {k : Nat} (hp : ∀ v, p (k, v) = false) (l : Sparse α) :
    sget (l.filter p) k = none := by
  induction l with
  | nil => rfl
  | cons e l ih =>
    obtain ⟨j, v⟩ := e
    rw [List.filter_cons]
    split
    · rw [sget_cons, if_neg (by rintro rfl; simp_all), ih]
    · exact ih

/-- The stack of a die that becomes ready holds no error (R396). -/
theorem functionReady_check {n k : Nat} (h : k / 2 ^ 30 = n) : sget (s.functionReady (.die n)).mem.check k = none :=
  sget_filter_none (fun _ => by rw [h]; exact bne_self_eq_false n) _

theorem exec_functionReady {f : Func} (h : Spec.exists_ f) : exec (.functionReady f) s = .next (s.functionReady f) :=
  if_pos (Func.ok_of_exists h)

/-! ### A function fails -/

theorem dropRoutes_storeOnly (s : State) (link p : Nat) : StoreOnly s (s.dropRoutes link p) := by
  unfold State.dropRoutes
  split
  · exact .refl s
  · refine StoreOnly.foldl (fun s i => ?_) _ s
    dsimp only
    split
    · exact s.iaStore_storeOnly ..
    · exact .refl s

theorem loseRoutes_storeOnly (s : State) (f : Func) : StoreOnly s (s.loseRoutes f) := by
  cases f with
  | link n => exact StoreOnly.foldl (fun s p => dropRoutes_storeOnly s n p) _ s
  | _ => exact .refl s

/-- The cores of a list are fenced, and nothing else changes. -/
theorem fence_foldl (die : Nat) (l : List Nat) (s : State) :
    let t := l.foldl (fun s i => s.modCore (512 * die + i) fun k => { k with fenced := true }) s
    t = { s with cores := t.cores } ∧
      ∀ c, t.core c = if c ∈ l.map (512 * die + ·) then { s.core c with fenced := true } else s.core c := by
  induction l generalizing s with
  | nil => exact ⟨rfl, fun c => rfl⟩
  | cons i l ih =>
    obtain ⟨hf, hc⟩ := ih (s.modCore (512 * die + i) fun k => { k with fenced := true })
    refine ⟨by rw [List.foldl_cons, hf]; rfl, fun c => ?_⟩
    rw [List.foldl_cons, hc, State.core_modCore, List.map_cons]
    by_cases h : 512 * die + i = c
    · subst h; simp
    · simp [h, Ne.symm h]

theorem fenceDie_frame (s : State) (die : Nat) : s.fenceDie die = { s with cores := (s.fenceDie die).cores } :=
  (fence_foldl die _ s).1

theorem fenceDie_core (s : State) (die c : Nat) :
    (s.fenceDie die).core c = if dieOf c = die then { s.core c with fenced := true } else s.core c := by
  rw [show s.fenceDie die = _ from rfl, State.fenceDie, (fence_foldl die _ s).2 c]
  have hmem : c ∈ (List.range 512).map (512 * die + ·) ↔ dieOf c = die := by
    simp only [List.mem_map, List.mem_range, dieOf]
    exact ⟨by rintro ⟨i, hi, rfl⟩; omega, fun h => ⟨c % 512, by omega, by omega⟩⟩
  simp only [hmem]

theorem readyFall_ready (s : State) (f : Func) :
    (s.readyFall f).ready = s.ready.put f false ∧ (s.readyFall f).basin = s.basin := by
  have hl := loseRoutes_storeOnly (s.setReady f false) f
  cases f with
  | die n =>
    have hd := fenceDie_frame ((s.setReady (.die n) false).loseRoutes (.die n)) n
    exact ⟨(congrArg State.ready hd).trans hl.ready, (congrArg State.basin hd).trans hl.basin⟩
  | _ => exact ⟨hl.ready, hl.basin⟩

theorem readyFall_of_die (s : State) (n : Nat) : s.readyFall (.die n) = (s.setReady (.die n) false).fenceDie n := rfl

/-- A failed die: its memory is as it was, and its cores are fenced (R396). -/
theorem readyFall_die (s : State) (n : Nat) : (s.readyFall (.die n)).mem = s.mem ∧
    ∀ c, (s.readyFall (.die n)).core c = if dieOf c = n then { s.core c with fenced := true } else s.core c := by
  rw [readyFall_of_die]
  refine ⟨?_, fenceDie_core _ n⟩
  rw [fenceDie_frame]; rfl

theorem exec_readyBitFall {f : Func} (h : Spec.exists_ f) : exec (.readyBitFall f) s = .next (s.readyFall f) :=
  if_pos (Func.ok_of_exists h)

theorem exec_linkLatencyLoss {n : Nat} (h : n < 32) : exec (.linkLatencyLoss n) s = .next (s.readyFall (.link n)) :=
  if_pos (decide_eq_true h)

theorem readiness : Spec.Readiness := by
  refine ⟨fun s f hf => ?_, fun s f hf => ?_, fun s n hn => ?_, fun s ref => rfl, fun s e => ?_⟩
  · obtain ⟨hc, hm, hb⟩ := functionReady_frame s f
    have hr := functionReady_ready s f
    refine ⟨_, exec_functionReady hf, oneBit_of_put hr, by rw [hr, Ready.put_drlock], hc, hm, hb, ?_⟩
    rintro n rfl k hk
    exact functionReady_check hk
  · obtain ⟨hr, hb⟩ := readyFall_ready s f
    refine ⟨_, exec_readyBitFall hf, oneBit_of_put hr, by rw [hr, Ready.put_drlock], hb, ?_⟩
    rintro n rfl
    obtain ⟨hm, hc⟩ := readyFall_die s n
    exact ⟨hm, fun c h => by rw [hc, if_pos h], fun c h => by rw [hc, if_neg h]⟩
  · obtain ⟨hr, hb⟩ := readyFall_ready s (.link n)
    exact ⟨_, exec_linkLatencyLoss hn, oneBit_of_put hr, by rw [hr, Ready.put_drlock], hb⟩
  · refine ⟨_, rfl, ?_⟩
    by_cases h : 128 ≤ e.toInt.natAbs
    · simp [h]
    · simp [h]

/-! ### Hold cycles -/

/-- The control core with another DRIFTS register. -/
def Core.withDrifts (k : Core) (d : Word) : Core := { k with cc := { k.cc with drifts := d } }

/-- What a request that is done leaves of PEND (R200): one request less, where one is counted. -/
def pendFall (d : Word) : Word := if d &&& 7 = 0 then d else d - 1

theorem pendFall_mod (d : Word) : (pendFall d).toNat % 8 = d.toNat % 8 - 1 := by
  have h7 : (d &&& 7).toNat = d.toNat % 8 := by
    rw [BitVec.toNat_and]; exact Nat.and_two_pow_sub_one_eq_mod _ 3
  unfold pendFall
  split <;> rename_i h
  · have : d.toNat % 8 = 0 := by rw [← h7, h]; rfl
    omega
  · have : d.toNat % 8 ≠ 0 := fun e => h (BitVec.eq_of_toNat_eq (by rw [h7, e]; rfl))
    bv_omega

theorem holdDone_holds (s : State) (r : DriftReq) :
    (s.holdDone r).drift = { s.drift with holds := s.drift.holds + BitVec.ofNat 32 r.n } := by
  unfold State.holdDone
  cases r.core <;> rfl

theorem holdDone_frame (s : State) (r : DriftReq) :
    s.holdDone r = { s with drift := (s.holdDone r).drift, cores := (s.holdDone r).cores } := by
  unfold State.holdDone
  cases r.core <;> rfl

theorem holdDone_core (s : State) (r : DriftReq) (c : Nat) : (s.holdDone r).core c =
    if r.core = some c then (s.core c).withDrifts (pendFall (s.core c).cc.drifts) else s.core c := by
  unfold State.holdDone
  cases h : r.core with
  | none => rfl
  | some d =>
    dsimp only
    rw [State.core_modCc]
    by_cases e : d = c
    · subst e; simp only [if_true]; rfl
    · simp only [e, if_false, Option.some.injEq]; rfl

theorem holdDone_foldl_frame (l : List DriftReq) (s : State) :
    l.foldl State.holdDone s = { s with
      drift := { s.drift with holds := (l.foldl State.holdDone s).drift.holds }, cores := (l.foldl State.holdDone s).cores } := by
  induction l generalizing s with
  | nil => rfl
  | cons r l ih => rw [List.foldl_cons, ih (s.holdDone r), holdDone_holds, holdDone_frame]

theorem holdDone_foldl_holds (l : List DriftReq) (s : State) :
    (l.foldl State.holdDone s).drift.holds.toNat = (s.drift.holds.toNat + (l.map (·.n)).sum) % 2 ^ 32 := by
  induction l generalizing s with
  | nil => simpa using (Nat.mod_eq_of_lt s.drift.holds.isLt).symm
  | cons r l ih =>
    rw [List.foldl_cons, ih, holdDone_holds, List.map_cons, List.sum_cons]
    simp only [BitVec.toNat_add, BitVec.toNat_ofNat]
    omega

theorem holdDone_foldl_core (l : List DriftReq) (s : State) (c : Nat) :
    ∃ d, (l.foldl State.holdDone s).core c = (s.core c).withDrifts d ∧
      d.toNat % 8 = (s.core c).cc.drifts.toNat % 8 - (l.filter fun r => decide (r.core = some c)).length := by
  induction l generalizing s with
  | nil => exact ⟨(s.core c).cc.drifts, rfl, rfl⟩
  | cons r l ih =>
    obtain ⟨d, hd, hn⟩ := ih (s.holdDone r)
    refine ⟨d, ?_, ?_⟩
    · rw [List.foldl_cons, hd, holdDone_core]; split <;> rfl
    · rw [hn, holdDone_core, List.filter_cons]
      by_cases h : r.core = some c
      · simp only [h, if_true, decide_true, List.length_cons, Core.withDrifts, pendFall_mod]; omega
      · simp only [h, if_false, decide_false, Bool.false_eq_true]

theorem holdCycles : Spec.HoldCycles := by
  intro s
  refine ⟨_, rfl, ?_⟩
  have hf := holdDone_foldl_frame (s.drift.reqs.filter fun r => decide (r.b ≤ s.basin))
    { s with drift := { s.drift with reqs := s.drift.reqs.filter fun r => !decide (r.b ≤ s.basin) } }
  refine ⟨by rw [hf], by rw [holdDone_foldl_holds], by rw [hf], by rw [hf], by rw [hf], by rw [hf], by rw [hf], by rw [hf],
    fun c => ?_⟩
  obtain ⟨d, hd, hn⟩ := holdDone_foldl_core (s.drift.reqs.filter fun r => decide (r.b ≤ s.basin))
    { s with drift := { s.drift with reqs := s.drift.reqs.filter fun r => !decide (r.b ≤ s.basin) } } c
  unfold Spec.pending
  rw [hd]
  refine ⟨rfl, rfl, rfl, hn.trans ?_⟩
  rw [List.filter_filter]
  simp only [Bool.and_comm]
  rfl

/-- Settles O26: the readiness clause by clause, the hold cycles by induction over the requests that are due. -/
theorem readinessAndHold : Obligations.ReadinessAndHold := ⟨readiness, holdCycles⟩

end Sys2Proof.Machine
end

section
/-! Writes of the module's registers and of the firmware's tables (R6, R251, R254, R374, R386, R391 to R394). -/

open Sys2Proof Sys2Proof.Machine

namespace Sys2Proof.Machine

variable {s t u : State}

/-! ### Words of which a register keeps some bits -/

theorem setWidth_setWidth_eq_and {k : Nat} (v : Word) (hk : k ≤ 64) :
    (v.setWidth k).setWidth 64 = v &&& BitVec.ofNat 64 (2 ^ k - 1) := by
  apply BitVec.eq_of_toNat_eq
  have hlt : 2 ^ k ≤ 2 ^ 64 := Nat.pow_le_pow_right (by decide) hk
  have hpos : 0 < 2 ^ k := Nat.two_pow_pos k
  rw [BitVec.toNat_and, BitVec.toNat_ofNat, Nat.mod_eq_of_lt (by omega : 2 ^ k - 1 < 2 ^ 64), Nat.and_two_pow_sub_one_eq_mod,
    BitVec.toNat_setWidth, BitVec.toNat_setWidth, Nat.mod_eq_of_lt ((Nat.mod_lt _ hpos).trans_le hlt)]

theorem or_bit60 {v : Word} (h : v.getLsbD 60 = true) : v ||| 0x1000000000000000 = v := by
  apply BitVec.eq_of_getLsbD_eq
  intro i hi
  rw [BitVec.getLsbD_or]
  by_cases h60 : i = 60
  · subst h60; simp [h]
  · have : (0x1000000000000000 : Word) = BitVec.twoPow 64 60 := by decide
    rw [this, BitVec.getLsbD_twoPow]
    simp [Ne.symm h60]

theorem driften_bit (v k : Word) :
    (if (if v.getLsbD 0 then k ||| 0x100 else k &&& ~~~0x100).getLsbD 8 then (1 : Word) else 0) = v &&& 1 := by
  have hv : v &&& 1 = if v.getLsbD 0 then 1 else 0 := by
    apply BitVec.eq_of_toNat_eq
    rw [BitVec.toNat_and, show (1 : Word).toNat = 1 from rfl, Nat.and_one_is_mod, ← BitVec.testBit_toNat, Nat.testBit_zero]
    split <;> simp_all
  rw [hv]
  cases v.getLsbD 0 <;> simp

@[simp] theorem StackErr.get_put (e : StackErr) (cls : Nat) (v : Half) : (e.put cls v).get cls = v := by
  match cls with
  | 0 | 1 | 2 | _ + 3 => rfl

/-! ### The words of the partition table -/

theorem partMask_eq (i : Nat) : partMask i = if i = 0 then 0xFFFFFFFFFFFFFFFF else if i = 6 then 0x1FFFFFFFF
    else if i ≤ 7 then 0x3FFFFFFFFFFFF else 0xF000000FFFFFC000 := by
  match i with
  | 0 | 1 | 2 | 3 | 4 | 5 | 6 | 7 => rfl
  | n + 8 => simp [partMask]

theorem words_setPartWord {p i : Nat} (s : State) (v : Word) (hp : p < 4) (hi : i < 16) :
    (((s.setPartWord p i v.toNat).part p).words[i]?).getD 0 = v := by
  rw [State.setPartWord, State.part_modPart s p p _ hp, if_pos rfl]
  simp [hi]

/-! ### Reading back a register of the module -/

/-- The write of a register other than the one that sets QUAR. -/
theorem regWrite_partTable {p i : Nat} {v : Word}
    (h : i = 0 → v.getLsbD 60 = true → bitOf (s.partWord p 0) 60 = true) :
    s.regWrite (.partTable p i) v = s.setPartWord p i (v &&& partMask i).toNat := by
  refine if_neg ?_
  simp only [Bool.and_eq_true, beq_iff_eq, Bool.not_eq_true', not_and, Bool.not_eq_false]
  exact fun hv => h hv.1 hv.2

theorem regRead_regWrite {r : RegTarget} {v m : Word} (hr : Spec.plainRegister r = some m)
    (hres : swf (⟨0, 0⟩ : Rng) s.mem.res = true)
    (hq : ∀ p, r = .partTable p 0 → v.getLsbD 60 = true → bitOf (s.partWord p 0) 60 = true) :
    (s.regWrite r v).regRead r = v &&& m := by
  cases r with
  | partTable p i =>
    simp only [Spec.plainRegister, Option.ite_none_right_eq_some, Option.some.injEq] at hr
    obtain ⟨⟨hp, hi⟩, rfl⟩ := hr
    rw [regWrite_partTable fun h => hq p (by rw [h]), ← partMask_eq]
    exact words_setPartWord s _ hp hi
  | boundary d =>
    simp only [Spec.plainRegister, Option.ite_none_right_eq_some, Option.some.injEq] at hr
    obtain ⟨hd, rfl⟩ := hr
    simpa [State.regWrite, State.regRead, hd] using setWidth_setWidth_eq_and (k := 10) v (by decide)
  | res d n i =>
    simp only [Spec.plainRegister, Option.ite_none_right_eq_some, Option.some.injEq] at hr
    obtain ⟨⟨hn, hi⟩, rfl⟩ := hr
    simp only [State.regWrite, State.regRead]
    rw [getD_sput hres, if_pos rfl]
    unfold resMask
    split <;> rfl
  | ecc n cls =>
    cases hr
    simpa [State.regWrite, State.regRead, State.stackErr] using setWidth_setWidth_eq_and (k := 32) v (by decide)
  | pgovf n =>
    cases hr
    simpa [State.regWrite, State.regRead, State.stackErr] using setWidth_setWidth_eq_and (k := 32) v (by decide)
  | fec l unc =>
    cases hr
    cases unc <;> simpa [State.regWrite, State.regRead] using setWidth_setWidth_eq_and (k := 32) v (by decide)
  | nocerr d =>
    cases hr
    simpa [State.regWrite, State.regRead] using setWidth_setWidth_eq_and (k := 32) v (by decide)
  | lost p =>
    simp only [Spec.plainRegister, Option.ite_none_right_eq_some, Option.some.injEq] at hr
    obtain ⟨hp, rfl⟩ := hr
    simpa [State.regWrite, State.regRead, State.part_modPart s p p _ hp] using setWidth_setWidth_eq_and (k := 32) v (by decide)
  | audofs c =>
    cases hr
    simpa [State.regWrite, State.regRead] using setWidth_setWidth_eq_and (k := 20) v (by decide)
  | audskip c =>
    cases hr
    simpa [State.regWrite, State.regRead] using setWidth_setWidth_eq_and (k := 32) v (by decide)
  | auddone d =>
    cases hr
    simpa [State.regWrite, State.regRead, State.auditDie] using setWidth_setWidth_eq_and (k := 32) v (by decide)
  | audmis d =>
    cases hr
    simpa [State.regWrite, State.regRead, State.auditDie] using setWidth_setWidth_eq_and (k := 32) v (by decide)
  | pcsel c n =>
    simp only [Spec.plainRegister, Option.ite_none_right_eq_some, Option.some.injEq] at hr
    obtain ⟨hn, rfl⟩ := hr
    simpa [State.regWrite, State.regRead, hn] using setWidth_setWidth_eq_and (k := 9) v (by decide)
  | pc c n =>
    simp only [Spec.plainRegister, Option.ite_none_right_eq_some, Option.some.injEq] at hr
    obtain ⟨hn, rfl⟩ := hr
    simpa [State.regWrite, State.regRead, hn] using setWidth_setWidth_eq_and (k := 48) v (by decide)
  | driften c =>
    cases hr
    simp only [State.regWrite, State.regRead, State.core_modCc, if_true]
    exact driften_bit v _
  | _ => cases hr

/-! ### What a write of a register leaves -/

/-- Bundle engines and engines are as they were. -/
def EnginesKept (s t : State) : Prop := ∀ c, (t.core c).be = (s.core c).be ∧ (t.core c).eng = (s.core c).eng

theorem EnginesKept.refl (s : State) : EnginesKept s s := fun _ => ⟨rfl, rfl⟩

theorem EnginesKept.modCore {f : Core → Core} (hf : ∀ k, (f k).be = k.be ∧ (f k).eng = k.eng) (s : State) (c : Nat) :
    EnginesKept s (s.modCore c f) := by
  intro j
  rw [State.core_modCore]
  split
  · subst_vars; exact hf _
  · exact ⟨rfl, rfl⟩

theorem CoresKept.engines (h : CoresKept s t) : EnginesKept s t := by
  intro c
  obtain ⟨hb, he, -⟩ := h.core c
  exact ⟨hb, he⟩

theorem regWrite_frame {r : RegTarget} {v m : Word} (hr : Spec.plainRegister r = some m)
    (hq : ∀ p, r = .partTable p 0 → v.getLsbD 60 = true → bitOf (s.partWord p 0) 60 = true) :
    (s.regWrite r v).mem.hbm = s.mem.hbm ∧ (s.regWrite r v).basin = s.basin ∧ (s.regWrite r v).doms = s.doms ∧
      (s.regWrite r v).io.slots = s.io.slots ∧ EnginesKept s (s.regWrite r v) := by
  cases r with
  | partTable p i =>
    rw [regWrite_partTable fun h => hq p (by rw [h])]
    exact ⟨rfl, rfl, rfl, rfl, .refl s⟩
  | audofs | audskip | pcsel | pc | driften =>
    refine ⟨rfl, rfl, rfl, rfl, .modCore ?_ s _⟩
    exact fun _ => ⟨rfl, rfl⟩
  | fec l unc => cases unc <;> exact ⟨rfl, rfl, rfl, rfl, .refl s⟩
  | boundary | res | ecc | pgovf | nocerr | lost | auddone | audmis => exact ⟨rfl, rfl, rfl, rfl, .refl s⟩
  | _ => cases hr

/-! ### The write that sets QUAR -/

/-- What a quarantine does (R45): QUAR is set, and every domain of the partition that has not ended is killed. -/
theorem firmQuarantine_eq (s : State) (p : Nat) : ∃ u, RecordsOnly s u ∧ s.firmQuarantine p = u.quarantine p := by
  refine ⟨_, ?_, rfl⟩
  refine RecordsOnly.trans (t := _) ?_ (.foldl (fun s d => ?_) _ _)
  · exact RecordsOnly.trans (t := s.drawFree.1) ⟨rfl, .of_cores rfl rfl, fun _ => rfl⟩ (writeRecord_recordsOnly ..)
  · split
    · exact sendNotices_recordsOnly ..
    · exact .refl s

theorem quarantine_kills {p : Nat} {e : Nat × Domain} (he : e ∈ s.doms) (hp : e.2.part = p) (hph : e.2.phase ≠ .ended) :
    Turn.op 0 (.kill e.1 16) ∈ (s.quarantine p).agenda := by
  refine List.mem_append_left _ (List.mem_map.2 ⟨e, List.mem_filter.2 ⟨he, ?_⟩, rfl⟩)
  simp [hp, hph]

theorem quarantine_word {p : Nat} (s : State) (hp : p < 4) :
    (((s.quarantine p).part p).words[0]?).getD 0 = (((s.part p).words[0]?).getD 0) ||| 0x1000000000000000 := by
  have h : (s.quarantine p).part p = (s.modPart p fun t =>
      { t with words := t.words.setIfInBounds 0 (((t.words[0]?).getD 0) ||| 0x1000000000000000) }).part p := rfl
  rw [h, State.part_modPart s p p _ hp, if_pos rfl]
  simp

theorem regWrite_quar {p : Nat} {v : Word} (hv : v.getLsbD 60 = true) (hq : bitOf (s.partWord p 0) 60 = false) :
    s.regWrite (.partTable p 0) v = (s.setPartWord p 0 v.toNat).firmQuarantine p := by
  have hm : v &&& partMask 0 = v := BitVec.and_allOnes
  refine (if_pos (by simp [hv, hq])).trans ?_
  rw [hm]

/-! ### Bytes that a table write of the firmware sets -/

theorem exec_registerWrite (r : RegTarget) (v : Word) : exec (.registerWrite r v) s = .next (s.regWrite r v) := rfl

theorem exec_tableWrite {w : TableWrite} (h : tableWriteOk w = true) :
    exec (.headwaterTableWrite w) s = .next (s.writeTable w) := if_pos h

theorem monitorDesc_eq (b : BitVec 32) :
    monitorDesc b = Spec.W ((2 ^ 63 + 2 ^ 62 + 2 ^ 61 + b.toNat : Nat)) := by
  have hb : b.toNat < 2 ^ 32 := b.isLt
  apply BitVec.eq_of_toNat_eq
  rw [monitorDesc, BitVec.toNat_or, BitVec.toNat_setWidth, Nat.mod_eq_of_lt (by omega : b.toNat < 2 ^ 64),
    show (0xE000000000000000 : Word).toNat = 2 ^ 32 * 0xE0000000 from rfl, ← Nat.two_pow_add_eq_or_of_lt hb]
  simp only [Spec.W, BitVec.toNat_ofInt]
  omega

/-- Settles O29: plain registers read back what was written, QUAR by what a quarantine does, the tables entry by entry. -/
theorem registerAndTableWrites : Obligations.RegisterAndTableWrites := by
  refine ⟨fun s r v m hr hres hq => ?_, fun s v p hp hv hq => ?_, fun s v n st => ⟨rfl, rfl, rfl, rfl, rfl, rfl⟩,
    fun s i valid key p base len rd wr a d hi hp => ?_, fun s p st f hp hst hf => ?_, fun s c e hc => ?_,
    fun s c r b hc hr => ?_, fun s c ofs bs hc hofs hwf => ?_, fun s st ofs bs hst hofs hwf => ?_⟩
  · exact ⟨_, exec_registerWrite r v, regRead_regWrite hr hres hq, regWrite_frame hr hq⟩
  · obtain ⟨u, hu, hfq⟩ := firmQuarantine_eq (s.setPartWord p 0 v.toNat) p
    have hword := words_setPartWord s v hp (by decide : 0 < 16)
    refine ⟨_, exec_registerWrite .., ?_, ?_, fun e he hp hph => ?_, ?_⟩ <;> rw [regWrite_quar hv hq, hfq]
    · exact (quarantine_word u hp).trans (by rw [hu.words, hword, or_bit60 hv])
    · exact hu.doms
    · exact quarantine_kills (by rw [hu.doms]; exact he) hp hph
    · exact hu.cores.engines
  · exact exec_tableWrite (by simp [tableWriteOk, hi, hp])
  · exact exec_tableWrite (by simpa [tableWriteOk, hp, hst] using hf)
  · exact exec_tableWrite (by simp [tableWriteOk, hc])
  · rw [exec_tableWrite (by simpa [tableWriteOk, hc] using hr), ← monitorDesc_eq]
    rfl
  · refine ⟨_, exec_tableWrite (by simp [tableWriteOk, hc, hofs]), rfl, fun j => ?_⟩
    simp only [State.writeTable, State.core_modEng, if_true]
    exact byteAt_writeBytes hwf _ bs j
  · exact ⟨_, exec_tableWrite (by simp [tableWriteOk, hst, hofs]), rfl, rfl, fun j => byteAt_writeBytes hwf _ bs j⟩

end Sys2Proof.Machine
end

section
/-! Progress registers, range registers and drift requests (R192, R193, R196, R200, R209, R210, R391), and the trap that an
illegal instruction of the control core takes (R184). -/

open Sys2Proof Sys2Proof.Machine

namespace Sys2Proof.Machine

variable {s t : State}

/-! ### What raising an event changes of the cores -/

theorem CoresKept.ite {p : Prop} [Decidable p] {a b : State} (ha : CoresKept s a) (hb : CoresKept s b) :
    CoresKept s (if p then a else b) := by
  split
  · exact ha
  · exact hb

theorem CoresKept.layRecords (h : CoresKept s t) (p : Nat) (rs : List FaultRec) (new : Nat) :
    CoresKept s (t.layRecords p rs new) := h.trans (layRecords_recordsOnly ..).cores

theorem CoresKept.writeRecord (h : CoresKept s t) (p core : Nat) (dom : Option Domain) (e : Ev) (resp : Nat)
    (secondary : Bool) : CoresKept s (t.writeRecord p core dom e resp secondary) := h.layRecords ..

theorem CoresKept.sendNotices (h : CoresKept s t) (d : Domain) (resp : Nat) (cause sub : BitVec 8) :
    CoresKept s (t.sendNotices d resp cause sub) := h.trans (sendNotices_recordsOnly ..).cores

theorem CoresKept.quarantine (h : CoresKept s t) (p : Nat) : CoresKept s (t.quarantine p) := ⟨h.cur, h.core⟩

theorem CoresKept.soon (h : CoresKept s t) (u : Turn) : CoresKept s (t.soon u) := ⟨h.cur, h.core⟩

theorem CoresKept.setDom (h : CoresKept s t) (id : Nat) (d : Domain) : CoresKept s (t.setDom id d) := ⟨h.cur, h.core⟩

theorem CoresKept.modDom (h : CoresKept s t) (id : Nat) (f : Domain → Domain) : CoresKept s (t.modDom id f) := by
  unfold State.modDom
  split
  · exact h.setDom ..
  · exact h

theorem CoresKept.setEvHead (h : CoresKept s t) (c : Nat) (f : Core → Option EvHead) :
    CoresKept s (t.modCore c fun k => { k with evHead := f k }) :=
  h.trans (.modCore t c fun _ => ⟨rfl, rfl, rfl⟩)

theorem CoresKept.headRecord (h : CoresKept s t) (core part : Nat) (e : Ev) (before : Bool) :
    CoresKept s (t.headRecord core part e before).1 := by
  unfold State.headRecord
  dsimp only
  split
  · exact h
  · split
    · exact h.setEvHead core fun _ => _
    · split
      · exact h.setEvHead core fun _ => _
      · split
        · exact h
        · exact (h.layRecords ..).setEvHead core fun _ => _

theorem CoresKept.fence (h : CoresKept s t) (c : Nat) : CoresKept s (t.modCore c fun k => { k with fenced := true }) :=
  h.trans (.modCore t c fun _ => ⟨rfl, rfl, rfl⟩)

theorem CoresKept.applyResp (h : CoresKept s t) (id : Nat) (d : Domain) (core : Nat) (e : Ev) (resp : Nat) :
    CoresKept s (t.applyResp id d core e resp) := by
  unfold State.applyResp
  have hf {p : Prop} [Decidable p] : CoresKept s (if p then t.modCore core fun k => { k with fenced := true } else t) :=
    .ite (h.fence core) h
  dsimp only
  refine .ite ((hf.sendNotices ..).quarantine _) (.ite hf (.ite (hf.modDom ..) (.ite hf (.ite ?_ ?_))))
  · exact ((hf.modDom ..).sendNotices ..).soon _
  · exact ((hf.modDom ..).sendNotices ..).soon _

theorem CoresKept.raiseNone (h : CoresKept s t) (p core : Nat) (e : Ev) : CoresKept s (t.raiseNone p core e) :=
  .ite ((h.writeRecord ..).quarantine _) (h.writeRecord ..)

theorem CoresKept.recordEnded (h : CoresKept s t) (core : Nat) (d : Domain) (e : Ev) : CoresKept s (t.recordEnded core d e) :=
  .ite ((h.writeRecord ..).quarantine _) (h.writeRecord ..)

theorem CoresKept.raiseDomAt (h : CoresKept s t) (id core land : Nat) (e : Ev) : CoresKept s (t.raiseDomAt id core land e) := by
  unfold State.raiseDomAt
  split
  · exact h.raiseNone ..
  · refine .ite (h.recordEnded ..) (.ite (h.setDom ..) ?_)
    unfold State.raiseLive
    dsimp only
    exact ((h.headRecord ..).writeRecord ..).applyResp ..

/-- An event that is raised changes no register of a core but reservations. -/
theorem raise_coresKept (s : State) (c : Nat) (e : Ev) : CoresKept s (s.raise c e) := by
  unfold State.raise State.raiseDom
  split
  · exact (CoresKept.refl s).raiseDomAt ..
  · exact (CoresKept.refl s).raiseNone ..

/-! ### The trap of an illegal instruction -/

theorem count_core (s : State) (c ev n j : Nat) :
    ∃ pc, (s.count c ev n).core j = { s.core j with pc } := by
  unfold State.count
  dsimp only
  split
  · rw [State.core_setCore]
    split
    · subst_vars; exact ⟨_, rfl⟩
    · exact ⟨_, rfl⟩
  · exact ⟨_, rfl⟩

theorem count_frame (s : State) (c ev n : Nat) : s.count c ev n = { s with cores := (s.count c ev n).cores } := by
  unfold State.count
  dsimp only
  split <;> rfl

theorem count_coresKept (s : State) (c ev n : Nat) : CoresKept s (s.count c ev n) where
  cur := by rw [count_frame]
  core j := by
    obtain ⟨pc, h⟩ := count_core s c ev n j
    rw [h]; exact ⟨rfl, rfl, rfl⟩

theorem count_sc (s : State) (c ev n j : Nat) : (s.count c ev n).sc j = s.sc j := by
  obtain ⟨pc, h⟩ := count_core s c ev n j
  have hd : (s.count c ev n).domOf j = s.domOf j := by
    rw [State.domOf, State.domOf, h, count_frame]; rfl
  rw [State.sc, State.sc, hd, count_frame]

theorem ccTrap_core (s : State) (cause tval : Nat) (e : Ev) : (s.ccTrap cause tval e).core s.cur =
    ((s.raise s.cur e).core s.cur).takeTrap (BitVec.ofNat 64 cause) (BitVec.ofNat 64 tval) (some (s.infoOf s.cur e)) := by
  unfold State.ccTrap
  rw [State.core_modCore, if_pos rfl]

theorem ccTrap_cur (s : State) (cause tval : Nat) (e : Ev) : (s.ccTrap cause tval e).cur = s.cur :=
  (raise_coresKept s s.cur e).cur

theorem trapStatus_bits (st : Word) (md : Mode) :
    ((trapStatus st md).getLsbD 7 = st.getLsbD 3 ∧ (trapStatus st md).getLsbD 3 = false) ∧
      ((trapStatus st md).getLsbD 11 = decide (md = .m) ∧ (trapStatus st md).getLsbD 12 = decide (md = .m)) ∧
      (trapStatus st md).getLsbD 17 = st.getLsbD 17 ∧ (trapStatus st md).getLsbD 21 = st.getLsbD 21 := by
  unfold trapStatus modeBits
  cases md <;> cases st.getLsbD 3 <;> simp

/-- What a core is left with that takes a trap (R184, R185, R199), from registers that it had before. -/
theorem trapTaken_of_takeTrap {k : Core} {cause tval : Word} {i : TrapInfo} {code : Nat}
    (hk : (s.core s.cur).RegsKept k) (hcur : t.cur = s.cur) (ht : t.core s.cur = k.takeTrap cause tval (some i))
    (hi : i.tcause = BitVec.ofNat 64 (code * 2 ^ 40 + 15 * 2 ^ 24)) (hc : i.fcoord = 0)
    (hs : i.fsc = BitVec.ofNat 64 (s.sc s.cur)) : Spec.trapTaken s t cause tval code i.faddr := by
  obtain ⟨hb, he, hcc⟩ := hk
  obtain ⟨hpie, hpp, hkept⟩ := trapStatus_bits (s.core s.cur).cc.mstatus (s.core s.cur).cc.mode
  generalize k.cc.resv = r at hcc
  have hpc : mtvecOf k = BitVec.ofNat 64 ((((s.core s.cur).eng.regions[14]?).getD 0).toNat % 2 ^ 32) := by
    rw [mtvecOf, he]
    apply BitVec.eq_of_toNat_eq
    simp only [BitVec.toNat_setWidth, BitVec.toNat_ofNat]
  unfold Spec.trapTaken Spec.cc Spec.be
  rw [hcur, ht]
  simp only [Core.takeTrap, hcc, hb, he, hpc, hi, hc, hs, true_and, and_true]
  exact ⟨hpie, hpp, hkept⟩

theorem ccTrap_trapTaken {u : State} (hu : CoresKept s u) (hsc : u.sc s.cur = s.sc s.cur) (cause tval code : Nat) (e : Ev)
    (he : tcauseOf e = BitVec.ofNat 64 (code * 2 ^ 40 + 15 * 2 ^ 24)) :
    Spec.trapTaken s (u.ccTrap cause tval e) (BitVec.ofNat 64 cause) (BitVec.ofNat 64 tval) code e.faddr := by
  have hr := hu.trans (raise_coresKept u s.cur e)
  have ht := ccTrap_core u cause tval e
  rw [hu.cur] at ht
  exact trapTaken_of_takeTrap (hr.core s.cur) ((ccTrap_cur ..).trans hu.cur) ht he rfl (congrArg (BitVec.ofNat 64) hsc)

theorem tcauseOf_illegal (s : State) : tcauseOf (s.ccEv 0x02 0) = BitVec.ofNat 64 (0x02 * 2 ^ 40 + 15 * 2 ^ 24) := by
  have hcause : (BitVec.ofNat 8 2).toNat = 2 := rfl
  have hsub : (BitVec.ofNat 8 0).toNat = 0 := rfl
  simp only [tcauseOf, State.ccEv, hcause, hsub, BitVec.ofNat_eq_ofNat, BitVec.toNat_ofNat, Nat.zero_mod, Nat.zero_mul,
    Nat.zero_add, Nat.add_zero]

/-- An illegal instruction of the control core traps with cause 2 and event 0x02 (R184). -/
theorem ccIllegal_trapTaken (s : State) : Spec.trapTaken s s.ccIllegal 2 0 0x02 0 :=
  ccTrap_trapTaken (count_coresKept s s.cur 5 1) (count_sc s s.cur 5 1 s.cur) 2 0 0x02 _ (tcauseOf_illegal s)

end Sys2Proof.Machine
end

section
/-! Progress registers, range registers and drift requests (R192, R193, R196, R200, R209, R210, R242, R391). -/

open Sys2Proof Sys2Proof.Machine

namespace Sys2Proof.Machine

variable {s t : State}

/-! ### Retirement -/

theorem pcNext_four (s : State) : Spec.pcNext s false = (Spec.cc s).pc + BitVec.ofNat 64 4 := by
  apply BitVec.eq_of_toNat_eq
  simp only [Spec.pcNext, Spec.W, BitVec.toNat_ofInt, BitVec.toNat_add, BitVec.toNat_ofNat]
  simp only [Bool.false_eq_true, if_false]
  omega

theorem ccResult_eq_retired (s : State) (rd : BitVec 5) (v : Word) :
    s.ccResult rd v 4 = Spec.retired s rd v (Spec.pcNext s false) := by
  rw [pcNext_four]
  unfold State.ccResult Spec.retired Spec.setCc Cc.setX Cc.retireTo
  by_cases h : rd = 0 <;> simp only [h, if_true, if_false] <;> rfl

/-- A later write of the same core stands. -/
theorem sinsert_sinsert {α : Type} (l : Sparse α) (k : Nat) (v w : α) : sinsert (sinsert l k v) k w = sinsert l k w := by
  induction l with
  | nil => simp [sinsert]
  | cons e l ih =>
    obtain ⟨j, u⟩ := e
    by_cases h : k < j
    · simp [sinsert, h]
    · by_cases hk : k = j
      · simp [sinsert, hk]
      · simp [sinsert, h, hk, ih]

theorem setCore_setCore (s : State) (c : Nat) (k k' : Core) : (s.setCore c k).setCore c k' = s.setCore c k' := by
  simp only [State.setCore, sinsert_sinsert]

/-! ### Progress registers of a core's own sequencers -/

/-- The sequencer that a code of 2 to 4 names: MX, PX or CE (R20). -/
def ownSeqr (e : Nat) : Seqr := ⟨engOf e, 0, 0⟩

theorem ownedSeq_own {e : Nat} (h2 : 2 ≤ e) (h4 : e ≤ 4) (s : State) (c idx : Nat) :
    s.ownedSeq c e idx = if idx = 0 then some (ownSeqr e) else none := by
  obtain rfl | rfl | rfl : e = 2 ∨ e = 3 ∨ e = 4 := by omega
  all_goals rfl

theorem progIndex_own {e : Nat} (h2 : 2 ≤ e) (h4 : e ≤ 4) (s : State) (c : Nat) {v : Word} (hv : v.toNat < 0x100) :
    s.progIndex c e v = some (ownSeqr e, v.toNat) := by
  unfold State.progIndex
  rw [if_neg (by omega), ownedSeq_own h2 h4]
  have h0 : bitsOf v.toNat 8 4 = 0 := by unfold bitsOf; omega
  have h1 : bitsOf v.toNat 0 8 = v.toNat := by unfold bitsOf; omega
  rw [h0, h1, if_pos rfl]
  rfl

theorem progIndex_none {e : Nat} (h2 : 2 ≤ e) (h4 : e ≤ 4) (s : State) (c : Nat) {v : Word} (hv : 0x100 ≤ v.toNat) :
    s.progIndex c e v = none := by
  unfold State.progIndex
  by_cases h : v.toNat < 2 ^ 12
  · have h0 : bitsOf v.toNat 8 4 ≠ 0 := by unfold bitsOf; omega
    rw [if_neg (by omega), ownedSeq_own h2 h4, if_neg h0]
    rfl
  · rw [if_pos (by omega)]

theorem ownProg_eq {e : Nat} (h2 : 2 ≤ e) (h4 : e ≤ 4) (s : State) : Spec.ownProg s e = (s.seq s.cur (ownSeqr e)).prog := by
  obtain rfl | rfl | rfl : e = 2 ∨ e = 3 ∨ e = 4 := by omega
  all_goals rfl

theorem statusWord_eq (p : Prog) : Spec.statusWord p = p.status := by
  unfold Spec.statusWord Prog.status
  cases p.resumed <;> rfl

theorem progRead_status {e : Nat} (h2 : 2 ≤ e) (h4 : e ≤ 4) (s : State) :
    s.progRead s.cur (ownSeqr e) 0 = some (Spec.statusWord (Spec.ownProg s e)) := by
  rw [ownProg_eq h2 h4, statusWord_eq]; rfl

theorem progRead_steps {e : Nat} (h2 : 2 ≤ e) (h4 : e ≤ 4) (s : State) :
    s.progRead s.cur (ownSeqr e) 1 = some ((Spec.ownProg s e).steps.setWidth 64) := by
  rw [ownProg_eq h2 h4]
  obtain rfl | rfl | rfl : e = 2 ∨ e = 3 ∨ e = 4 := by omega
  all_goals rfl

section Instructions

variable {e : BitVec 7} {rd rs1 rs2 : BitVec 5}

theorem exec_calPrgrd_read (hi : s.notInspecting) {q : Seqr} {n : Nat} {v : Word}
    (hx : s.progIndex s.cur e.toNat (Spec.xReg s rs1) = some (q, n)) (hv : s.progRead s.cur q n = some v) :
    exec (.calPrgrd e rd rs1) s = .next (Spec.retired s rd v (Spec.pcNext s false)) := by
  have hi' : (s.core s.cur).cc.inspect.isSome = false := by rw [hi]; rfl
  have hx' : s.progIndex s.cur e.toNat ((s.core s.cur).cc.xr rs1) = some (q, n) := hx
  change execCalPrgrd e rd rs1 s = _
  simp only [execCalPrgrd, hi', hx', hv, ccResult_eq_retired]
  rfl

theorem exec_calPrgrd_none (hx : s.progIndex s.cur e.toNat (Spec.xReg s rs1) = none) :
    exec (.calPrgrd e rd rs1) s = .next s.ccIllegal := by
  have hx' : s.progIndex s.cur e.toNat ((s.core s.cur).cc.xr rs1) = none := hx
  change execCalPrgrd e rd rs1 s = _
  simp only [execCalPrgrd, hx', ite_self]

theorem write_steps {n : Nat} (h2 : 2 ≤ n) (h4 : n ≤ 4) (p : Prog) (v : Word) :
    p.write (ownSeqr n).eng 1 v = { p with steps := v.setWidth 32 } := by
  obtain rfl | rfl | rfl : n = 2 ∨ n = 3 ∨ n = 4 := by omega
  all_goals rfl

/-- The state after a write of a sequencer's step count. -/
def withSteps (s : State) (n : Nat) (v : Word) : State :=
  let x := s.seq s.cur (ownSeqr n)
  s.setSeq s.cur (ownSeqr n) { x with prog := { x.prog with steps := v.setWidth 32 } }

theorem withSteps_frame {n : Nat} (h2 : 2 ≤ n) (h4 : n ≤ 4) (s : State) (v : Word) :
    ∃ eng, withSteps s n v = s.setCore s.cur { s.core s.cur with eng } := by
  obtain rfl | rfl | rfl : n = 2 ∨ n = 3 ∨ n = 4 := by omega
  all_goals exact ⟨_, rfl⟩

theorem ownProg_withSteps {n f : Nat} (h2 : 2 ≤ n) (h4 : n ≤ 4) (f2 : 2 ≤ f) (f4 : f ≤ 4) (s : State) (v : Word) :
    Spec.ownProg (withSteps s n v) f =
      if f = n then { Spec.ownProg s f with steps := v.setWidth 32 } else Spec.ownProg s f := by
  obtain rfl | rfl | rfl : n = 2 ∨ n = 3 ∨ n = 4 := by omega
  all_goals
    obtain rfl | rfl | rfl : f = 2 ∨ f = 3 ∨ f = 4 := by omega
    all_goals simp [Spec.ownProg, withSteps, ownSeqr, engOf, State.setSeq, State.seq]

theorem exec_calPrgwr_steps (hi : s.notInspecting) (h2 : 2 ≤ e.toNat) (h4 : e.toNat ≤ 4) (h1 : Spec.xReg s rs1 = 1)
    (hm : (Spec.cc s).mode = .m) (hs : (Spec.ownProg s e.toNat).state = 0 ∨ (Spec.ownProg s e.toNat).state = 2) :
    exec (.calPrgwr e rs1 rs2) s = .next ((withSteps s e.toNat (Spec.xReg s rs2)).ccRetire 4) := by
  have hi' : (s.core s.cur).cc.inspect.isSome = false := by rw [hi]; rfl
  have hm' : (s.core s.cur).cc.mode = .m := hm
  have hx : s.progIndex s.cur e.toNat ((s.core s.cur).cc.xr rs1) = some (ownSeqr e.toNat, 1) := by
    rw [show (s.core s.cur).cc.xr rs1 = 1 from h1]
    exact progIndex_own h2 h4 s s.cur (by decide)
  have hr := progRead_steps h2 h4 s
  rw [ownProg_eq h2 h4] at hs
  change execCalPrgwr e rs1 rs2 s = _
  have hst : ((s.seq s.cur (ownSeqr e.toNat)).prog.state.toNat != 0 &&
      (s.seq s.cur (ownSeqr e.toNat)).prog.state.toNat != 2) = false := by
    rcases hs with h | h <;> rw [h] <;> rfl
  simp only [execCalPrgwr, hi', hm', hx, hr, hst, write_steps h2 h4]
  rfl

theorem exec_calPrgwr_illegal (h2 : 2 ≤ e.toNat) (h4 : e.toNat ≤ 4) (h1 : Spec.xReg s rs1 = 1)
    (h : (Spec.cc s).mode = .u ∨ (Spec.ownProg s e.toNat).state = 1) :
    exec (.calPrgwr e rs1 rs2) s = .next s.ccIllegal := by
  have hx : s.progIndex s.cur e.toNat ((s.core s.cur).cc.xr rs1) = some (ownSeqr e.toNat, 1) := by
    rw [show (s.core s.cur).cc.xr rs1 = 1 from h1]
    exact progIndex_own h2 h4 s s.cur (by decide)
  change execCalPrgwr e rs1 rs2 s = _
  unfold execCalPrgwr
  obtain hu | hs := h
  · have hu' : (s.core s.cur).cc.mode = .u := hu
    simp [hu']
  · rw [ownProg_eq h2 h4] at hs
    simp [hx, hs]

theorem xReg_of_x (h : (Spec.cc t).x = (Spec.cc s).x) (r : BitVec 5) : Spec.xReg t r = Spec.xReg s r := by
  unfold Spec.xReg; rw [h]

/-- What the write of a step count leaves: the pc is past the instruction, and of the core only that count changed. -/
theorem withSteps_retired {n : Nat} (h2 : 2 ≤ n) (h4 : n ≤ 4) (s : State) (v : Word) :
    let t := (withSteps s n v).ccRetire 4
    (Spec.cc t).pc = Spec.pcNext s false ∧ t.mem = s.mem ∧ t.agenda = s.agenda ∧ Spec.be t = Spec.be s ∧
      (∀ r, Spec.xReg t r = Spec.xReg s r) ∧ ∀ f, 2 ≤ f → f ≤ 4 → Spec.ownProg t f =
        if f = n then { Spec.ownProg s f with steps := v.setWidth 32 } else Spec.ownProg s f := by
  obtain ⟨eng, he⟩ := withSteps_frame h2 h4 s v
  have hown f (f2 : 2 ≤ f) (f4 : f ≤ 4) := ownProg_withSteps h2 h4 f2 f4 s v
  rw [he] at hown
  dsimp only
  rw [he, pcNext_four]
  have hcore : ((s.setCore s.cur { s.core s.cur with eng }).ccRetire 4).core s.cur = { s.core s.cur with
      eng, cc := (s.core s.cur).cc.retireTo ((s.core s.cur).cc.pc + BitVec.ofNat 64 4) } := by
    simp [State.ccRetire]
  refine ⟨?_, rfl, rfl, congrArg (·.be) hcore, xReg_of_x (congrArg (·.cc.x) hcore), fun f f2 f4 => ?_⟩
  · exact congrArg (·.cc.pc) hcore
  · rw [← hown f f2 f4]
    have heng : (((s.setCore s.cur { s.core s.cur with eng }).ccRetire 4).core s.cur).eng =
        ((s.setCore s.cur { s.core s.cur with eng }).core s.cur).eng := by rw [hcore, State.core_setCore, if_pos rfl]
    unfold Spec.ownProg
    exact congrArg (fun k : Engines => if f = 2 then k.mx.prog else if f = 3 then k.px.prog else k.ce.prog) heng

/-- The bits that the first word of a range register keeps: R, W and X, and the base (R242). -/
theorem and_rngMask {n : Nat} (hn : n < 2 ^ 64) :
    n &&& 0xE1FFFFFFFFFF0000 = n / 2 ^ 61 * 2 ^ 61 + n % 2 ^ 57 / 2 ^ 16 * 2 ^ 16 := by
  have hmask : 0xE1FFFFFFFFFF0000 = 2 ^ 61 * (2 ^ 3 - 1) + 2 ^ 16 * (2 ^ 41 - 1) := by decide
  apply Nat.eq_of_testBit_eq
  intro i
  rw [hmask, Nat.mul_comm _ (2 ^ 61), Nat.mul_comm _ (2 ^ 16), Nat.testBit_and,
    Nat.testBit_two_pow_mul_add _ (by omega), Nat.testBit_two_pow_mul_add _ (by omega)]
  split
  · rw [Nat.testBit_two_pow_mul, Nat.testBit_two_pow_mul, Nat.testBit_two_pow_sub_one, Nat.testBit_div_two_pow,
      Nat.testBit_mod_two_pow]
    by_cases h16 : 16 ≤ i
    · rw [Nat.sub_add_cancel h16, show decide (i - 16 < 41) = decide (i < 57) by grind]
      cases decide (i < 57) <;> simp [h16]
    · simp [h16]
  · have h61 : 61 ≤ i := by omega
    rw [Nat.testBit_two_pow_sub_one, Nat.testBit_div_two_pow, Nat.sub_add_cancel h61]
    by_cases h64 : i < 64
    · simp [show i - 61 < 3 by omega]
    · rw [Nat.testBit_lt_two_pow (hn.trans_le (Nat.pow_le_pow_right (by decide) (by omega))), Bool.false_and]

theorem rngOf_eq (x y : Word) : rngOf x y =
    ⟨Spec.W ((x.toNat / 2 ^ 61 * 2 ^ 61 + x.toNat % 2 ^ 57 / 2 ^ 16 * 2 ^ 16 : Nat)), y⟩ := by
  have hx : x.toNat < 2 ^ 64 := x.isLt
  have hw : x &&& 0xE1FFFFFFFFFF0000 = Spec.W ((x.toNat / 2 ^ 61 * 2 ^ 61 + x.toNat % 2 ^ 57 / 2 ^ 16 * 2 ^ 16 : Nat)) := by
    apply BitVec.eq_of_toNat_eq
    rw [BitVec.toNat_and, show (0xE1FFFFFFFFFF0000 : Word).toNat = 0xE1FFFFFFFFFF0000 from rfl, and_rngMask hx]
    simp only [Spec.W, BitVec.toNat_ofInt]
    omega
  rw [rngOf, hw]

theorem exec_calRngwr {n : BitVec 7} (hi : s.notInspecting) (hn : n.toNat ≤ 15) :
    exec (.calRngwr n rs1 rs2) s = .next ((Spec.retired s 0 0 (Spec.pcNext s false)).modCore s.cur fun k =>
      { k with rng := (s.core s.cur).rng.setIfInBounds n.toNat (rngOf (Spec.xReg s rs1) (Spec.xReg s rs2)) }) := by
  have hi' : (s.core s.cur).cc.inspect.isSome = false := by rw [hi]; rfl
  change execCalRngwr n rs1 rs2 s = _
  rw [pcNext_four]
  simp only [execCalRngwr, hi', Bool.false_or, decide_eq_true_eq, Nat.not_lt.2 hn, if_false, State.ccRetire,
    State.modCc, State.modCore, Spec.retired, Spec.setCc, setCore_setCore, State.core_setCore, if_true, State.setCore_cur]
  rfl

theorem exec_calDrift (hi : s.notInspecting) (hd : Spec.mayDrift s) (h1 : 1 ≤ (Spec.xReg s rs2).toNat)
    (h255 : (Spec.xReg s rs2).toNat ≤ 255) : exec (.calDrift rs1 rs2) s =
      .next ((s.driftRequest (Spec.xReg s rs1).toNat (Spec.xReg s rs2).toNat (some s.cur)).ccRetire 4) := by
  have hi' : (s.core s.cur).cc.inspect.isSome = false := by rw [hi]; rfl
  obtain ⟨hm, hc⟩ := hd
  have hm' : (s.core s.cur).cc.mode = .m := hm
  have hc' : (s.core s.cur).cc.calctl.getLsbD 8 = true := hc
  have h1' : ¬ ((s.core s.cur).cc.xr rs2).toNat < 1 := Nat.not_lt.2 h1
  have h255' : ¬ ((s.core s.cur).cc.xr rs2).toNat > 255 := Nat.not_lt.2 h255
  change execCalDrift rs1 rs2 s = _
  simp only [execCalDrift, hi', hm', hc', h1', h255']
  rfl

theorem exec_calDrift_illegal (h : ¬ Spec.mayDrift s ∨ (Spec.xReg s rs2).toNat = 0 ∨ 255 < (Spec.xReg s rs2).toNat) :
    exec (.calDrift rs1 rs2) s = .next s.ccIllegal := by
  have h' : ¬ ((s.core s.cur).cc.mode = .m ∧ (s.core s.cur).cc.calctl.getLsbD 8 = true) ∨
    ((s.core s.cur).cc.xr rs2).toNat = 0 ∨ 255 < ((s.core s.cur).cc.xr rs2).toNat := h
  change execCalDrift rs1 rs2 s = _
  unfold execCalDrift
  refine congrArg _ (if_pos ?_)
  obtain h | h | h := h'
  · cases hm : (s.core s.cur).cc.mode with
    | u => simp
    | m =>
      have hc : (s.core s.cur).cc.calctl[8] = false := by simpa [hm] using h
      simp [hc]
  · simp [h]
  · simp [h]

theorem driftOk_iff {b n : Nat} (h1 : 1 ≤ n) (h255 : n ≤ 255) : s.driftOk b n = true ↔ Spec.driftAccepts s b n := by
  unfold State.driftOk Spec.driftAccepts
  simp [h1, h255, and_assoc]

end Instructions

/-! ### Requests of hold cycles -/

/-- What a core's request leaves: the drift unit's requests `d`, and the DRIFTS of the core that asked as `f` has it. -/
def withDrift (s : State) (d : Drift) (f : Word → Word) : State :=
  ({ s with drift := d } : State).modCc s.cur fun k => { k with drifts := f k.drifts }

theorem driftRequest_core_accepted {b n : Nat} (h1 : 1 ≤ n) (h255 : n ≤ 255) (h : Spec.driftAccepts s b n) :
    s.driftRequest b n (some s.cur) =
      withDrift s { s.drift with reqs := s.drift.reqs ++ [⟨b, n, some s.cur⟩] } (· + 1) :=
  if_pos ((driftOk_iff h1 h255).2 h)

theorem driftRequest_core_refused {b n : Nat} (h1 : 1 ≤ n) (h255 : n ≤ 255) (h : ¬ Spec.driftAccepts s b n) :
    s.driftRequest b n (some s.cur) = withDrift s s.drift (· ||| 0x100) :=
  if_neg (mt (driftOk_iff h1 h255).1 h)

theorem driftOk_zero (s : State) (b : Nat) : s.driftOk b 0 = false := rfl

/-- A request of a core changes the drift unit and that core's DRIFTS, and the instruction retires. -/
theorem withDrift_retired (s : State) (d : Drift) (f : Word → Word) :
    let t := (withDrift s d f).ccRetire 4
    ((Spec.cc t).pc = Spec.pcNext s false ∧ t.mem = s.mem ∧ Spec.be t = Spec.be s ∧
      ∀ r, Spec.xReg t r = Spec.xReg s r) ∧
      t.drift = d ∧ (Spec.cc t).drifts = f (Spec.cc s).drifts := by
  have hcore : ((withDrift s d f).ccRetire 4).core s.cur = { s.core s.cur with
      cc := { (s.core s.cur).cc with drifts := f (s.core s.cur).cc.drifts }.retireTo
        ((s.core s.cur).cc.pc + BitVec.ofNat 64 4) } := by
    change (((withDrift s d f).setCore s.cur _).core s.cur) = _
    rw [State.core_setCore, if_pos rfl]
    simp only [withDrift, State.modCc, State.modCore, State.core_setCore, State.setCore_cur, if_true]
    rfl
  dsimp only
  rw [pcNext_four]
  exact ⟨⟨congrArg (·.cc.pc) hcore, rfl, congrArg (·.be) hcore, xReg_of_x (congrArg (·.cc.x) hcore)⟩, rfl,
    congrArg (·.cc.drifts) hcore⟩

/-! ### The statements -/

/-- R192, R193, R209, R210 and R242. -/
theorem progressAndRangeRegisters : Spec.ProgressAndRangeRegisters := by
  refine ⟨fun s e rd rs1 hi h2 h4 => ⟨fun hx => ?_, fun hx => ?_, fun hx => ?_⟩,
    fun s e rs1 rs2 hi h2 h4 hx hm hs => ?_, fun s e rs1 rs2 h2 h4 hx h => ?_, fun s n rs1 rs2 hi hn => ?_⟩
  · exact exec_calPrgrd_read hi (hx ▸ progIndex_own h2 h4 s s.cur (by decide)) (progRead_status h2 h4 s)
  · exact exec_calPrgrd_read hi (hx ▸ progIndex_own h2 h4 s s.cur (by decide)) (progRead_steps h2 h4 s)
  · exact ⟨_, exec_calPrgrd_none (progIndex_none h2 h4 s s.cur hx), ccIllegal_trapTaken s⟩
  · exact ⟨_, exec_calPrgwr_steps hi h2 h4 hx hm hs, withSteps_retired h2 h4 s _⟩
  · exact ⟨_, exec_calPrgwr_illegal h2 h4 hx h, ccIllegal_trapTaken s⟩
  · rw [exec_calRngwr hi hn, rngOf_eq]

/-- R196, R200 and R391. -/
theorem driftRequests : Spec.DriftRequests := by
  refine ⟨fun s rs1 rs2 => ?_, fun s rs1 rs2 h => ?_, fun s v => ?_⟩
  · intro b n hi hd h1 h255
    have hexec := exec_calDrift (rs1 := rs1) hi hd h1 h255
    by_cases ha : Spec.driftAccepts s b n
    · rw [driftRequest_core_accepted h1 h255 ha] at hexec
      obtain ⟨⟨hpc, hmem, hbe, hx⟩, hdr, hp⟩ := withDrift_retired s
        { s.drift with reqs := s.drift.reqs ++ [⟨b, n, some s.cur⟩] } (· + 1)
      exact ⟨_, hexec, hpc, hmem, hbe, hx, fun _ => ⟨hdr, hp⟩, fun hn => absurd ha hn⟩
    · rw [driftRequest_core_refused h1 h255 ha] at hexec
      obtain ⟨⟨hpc, hmem, hbe, hx⟩, hdr, hp⟩ := withDrift_retired s s.drift (· ||| 0x100)
      exact ⟨_, hexec, hpc, hmem, hbe, hx, fun hy => absurd hy ha, fun _ => ⟨hdr, hp⟩⟩
  · exact ⟨_, exec_calDrift_illegal h, ccIllegal_trapTaken s⟩
  · intro b n
    have h255 : n ≤ 255 := Nat.le_of_lt_succ (Nat.mod_lt _ (by decide))
    refine ⟨fun ha h1 => congrArg Host.Outcome.next (if_pos ((driftOk_iff h1 h255).2 ha)), fun h => ?_⟩
    have hno : ¬ s.driftOk b n = true := by
      by_cases h0 : n = 0
      · rw [h0, driftOk_zero]; decide
      · exact mt (driftOk_iff (Nat.pos_of_ne_zero h0) h255).1 (h.resolve_right h0)
    exact congrArg Host.Outcome.next (if_neg hno)

/-- Settles O25: each clause by what the instruction leaves of the current core, the illegal forms by the trap they take. -/
theorem rangesProgressAndDrift : Obligations.RangesProgressAndDrift := ⟨progressAndRangeRegisters, driftRequests⟩

end Sys2Proof.Machine
end

section
/-! Merge and split of partitions (R14, R386, R387, R402): the fields of a partition's first table word, the partitions that a
request affects and its status, and what a merge and a split leave. -/

open Sys2Proof Sys2Proof.Machine

namespace Sys2Proof.Machine

variable {s : State}

/-! ### Fields of a word -/

theorem bitOf_eq_testBit (v i : Nat) : bitOf v i = v.testBit i := by
  rw [bitOf, Nat.testBit_eq_decide_div_mod_eq, beq_eq_decide]

theorem testBit_bitsOf (v lo len j : Nat) : (bitsOf v lo len).testBit j = (decide (j < len) && v.testBit (lo + j)) := by
  rw [bitsOf, Nat.testBit_mod_two_pow, Nat.testBit_div_two_pow, Nat.add_comm j lo]

/-- A word with a field replaced, put together from what stands above, in and below the field. -/
theorem setField_eq (w lo len v : Nat) :
    setField w lo len v = 2 ^ lo * (2 ^ len * (w / 2 ^ (lo + len)) + v % 2 ^ len) + w % 2 ^ lo := by
  have h1 := Nat.div_add_mod w (2 ^ lo)
  have h2 := Nat.div_add_mod (w / 2 ^ lo) (2 ^ len)
  rw [Nat.div_div_eq_div_mul, ← Nat.pow_add] at h2
  rw [setField, bitsOf]
  generalize w / 2 ^ lo % 2 ^ len = m at *
  rw [← h2] at h1
  rw [Nat.mul_add] at h1 ⊢
  rw [Nat.mul_comm m, Nat.mul_comm (v % _)]
  omega

theorem bitOf_setField (w lo len v j : Nat) :
    bitOf (setField w lo len v) j = if lo ≤ j ∧ j < lo + len then bitOf v (j - lo) else bitOf w j := by
  simp only [bitOf_eq_testBit, setField_eq]
  rw [Nat.testBit_two_pow_mul_add _ (Nat.mod_lt _ (Nat.two_pow_pos lo)),
    Nat.testBit_two_pow_mul_add _ (Nat.mod_lt _ (Nat.two_pow_pos len)), Nat.testBit_mod_two_pow, Nat.testBit_mod_two_pow,
    Nat.testBit_div_two_pow]
  by_cases h : j < lo
  · simp [h]
  · by_cases h' : j - lo < len
    · simp [h, h', show lo ≤ j ∧ j < lo + len by omega]
    · rw [if_neg h, if_neg h', if_neg (by omega), show j - lo - len + (lo + len) = j by omega]

theorem setField_lt {w lo len n : Nat} (v : Nat) (h : lo + len ≤ n) (hw : w < 2 ^ n) : setField w lo len v < 2 ^ n := by
  refine Nat.lt_pow_two_of_testBit _ fun j hj => ?_
  rw [← bitOf_eq_testBit, bitOf_setField, if_neg (by omega), bitOf_eq_testBit]
  exact Nat.testBit_lt_two_pow (Nat.lt_of_lt_of_le hw (Nat.pow_le_pow_right (by decide) hj))

theorem bitsOf_setField_same (w lo len v : Nat) : bitsOf (setField w lo len v) lo len = v % 2 ^ len := by
  refine Nat.eq_of_testBit_eq fun j => ?_
  rw [testBit_bitsOf, ← bitOf_eq_testBit, bitOf_setField, bitOf_eq_testBit, Nat.testBit_mod_two_pow]
  by_cases h : j < len
  · simp [h]
  · simp [h]

theorem bitsOf_setField_of_disjoint {w lo len v lo' len' : Nat} (h : lo' + len' ≤ lo ∨ lo + len ≤ lo') :
    bitsOf (setField w lo len v) lo' len' = bitsOf w lo' len' := by
  refine Nat.eq_of_testBit_eq fun j => ?_
  rw [testBit_bitsOf, testBit_bitsOf, ← bitOf_eq_testBit, bitOf_setField, bitOf_eq_testBit]
  by_cases hj : j < len'
  · rw [if_neg (by omega), bitOf_eq_testBit]
  · simp [hj]

/-! ### The word of a partition that owns the quarters of `q` -/

theorem ownWord_lt {w : Nat} (q : Nat) (h : w < 2 ^ 64) : ownWord w q < 2 ^ 64 := by
  unfold ownWord
  dsimp only
  exact setField_lt _ (by decide) (setField_lt _ (by decide) (setField_lt _ (by decide) (setField_lt _ (by decide)
    (setField_lt _ (by decide) (setField_lt _ (by decide) h)))))

/-- The SIZE field of a partition of so many quarters (R386). -/
def sizeOf (q : Nat) : Nat := if quarters q = 4 then 2 else if quarters q = 2 then 1 else 0

theorem ownWord_quarters (w q : Nat) : bitsOf (ownWord w q) 56 4 = q % 16 := by
  unfold ownWord
  dsimp only
  rw [bitsOf_setField_of_disjoint (by decide), bitsOf_setField_of_disjoint (by decide),
    bitsOf_setField_of_disjoint (by decide), bitsOf_setField_same]
  rfl

theorem ownWord_size (w q : Nat) : bitsOf (ownWord w q) 61 2 = sizeOf q % 4 := by
  unfold ownWord
  dsimp only
  rw [bitsOf_setField_of_disjoint (by decide), bitsOf_setField_of_disjoint (by decide),
    bitsOf_setField_of_disjoint (by decide), bitsOf_setField_of_disjoint (by decide), bitsOf_setField_same]
  rfl

theorem ownWord_valid (w q : Nat) : bitOf (ownWord w q) 63 = true := by
  simp only [ownWord, bitOf_setField]
  rfl

theorem ownWord_pairs (w q : Nat) {n : Nat} (h : n < 8) :
    bitOf (ownWord w q) (48 + n) = bitOf (pairMask q) n ∧ bitOf (ownWord w q) (24 + n) = bitOf (pairMask q) n := by
  simp only [ownWord, bitOf_setField]
  constructor
  · rw [if_neg (by omega), if_neg (by omega), if_pos (by omega), Nat.add_sub_cancel_left]
  · rw [if_pos (by omega), Nat.add_sub_cancel_left]

theorem ownWord_frontEnds (w q : Nat) {n : Nat} (h : n < 16) : bitOf (ownWord w q) (32 + n) = bitOf (feMask q) n := by
  simp only [ownWord, bitOf_setField]
  rw [if_neg (by omega), if_pos (by omega), Nat.add_sub_cancel_left]

/-- The masks over the quarters are the sets of R14. -/
theorem masks_eq_sets : ∀ q < 16, (∀ n < 8, bitOf (pairMask q) n = Spec.dieSet q n) ∧
    ∀ n < 16, bitOf (feMask q) n = Spec.feSet q n := by decide

/-! ### Tables after a request -/

theorem partWord_of_words {t : State} {p : Nat} (h : (t.part p).words = (s.part p).words) (i : Nat) :
    t.partWord p i = s.partWord p i := by rw [State.partWord, State.partWord, h]

theorem partWord_lt (s : State) (p i : Nat) : s.partWord p i < 2 ^ 64 := BitVec.isLt _

theorem part_setPartWord {p j : Nat} (s : State) (i v : Nat) (hp : p < 4) : (s.setPartWord p i v).part j =
    if p = j then { s.part p with words := (s.part p).words.setIfInBounds i (BitVec.ofNat 64 v) } else s.part j :=
  State.part_modPart s p j _ hp

theorem part_own (s : State) (q j : Nat) : (s.own q).part j =
    (s.setPartWord (lowQuarter q) 0 (ownWord (s.partWord (lowQuarter q) 0) q)).part j := rfl

/-- A partition whose first word is an own word owns the quarters that it names. -/
theorem owns_of_ownWord {t : State} {p q w : Nat} (hq : q < 16) (h : t.partWord p 0 = ownWord w q) :
    Spec.owns t p q (sizeOf q) := by
  obtain ⟨hpair, hfe⟩ := masks_eq_sets q hq
  have hs : sizeOf q % 4 = sizeOf q := Nat.mod_eq_of_lt (by unfold sizeOf; split <;> [decide; split <;> decide])
  refine ⟨⟨by rw [h, ownWord_valid], ?_⟩, ?_, fun n hn => ?_, fun n hn => ?_⟩
  · rw [h]; exact (ownWord_quarters w q).trans (Nat.mod_eq_of_lt hq)
  · rw [h]; exact (ownWord_size w q).trans hs
  · rw [h, (ownWord_pairs w q hn).1, (ownWord_pairs w q hn).2, hpair n hn]; exact ⟨rfl, rfl⟩
  · rw [h, ownWord_frontEnds w q hn, hfe n hn]

/-! ### The status of a request -/

theorem part_mergeEnd {p : Nat} (s : State) (st : Nat) (hp : p < 4) :
    (s.mergeEnd st).part p = { s.part p with quiesced := false } := by
  simp [State.part, State.mergeEnd, hp]

theorem ended_mergeEnd {st : Nat} (s : State) (h : st < 256) : Spec.ended (s.mergeEnd st) st := by
  refine ⟨rfl, ?_, fun p hp => by rw [part_mergeEnd s st hp]⟩
  exact (BitVec.toNat_ofNat st 8).trans (Nat.mod_eq_of_lt h)

theorem mergeCheck_quiet {ps : List Nat} (h : Spec.quiet s ps) : s.mergeCheck ps = 0 := by
  obtain ⟨hd, hs⟩ := h
  have h1 : s.doms.any (fun e => ps.contains e.2.part && e.2.phase != .ended) = false := by
    rw [List.any_eq_false]
    intro e he hc
    simp only [Bool.and_eq_true, List.contains_iff_mem, bne_iff_ne] at hc
    exact hc.2 (hd e he hc.1)
  have h2 : s.io.slots.any (fun e => s.ownsSlot ps e.2 && !e.2.idle) = false := by
    rw [List.any_eq_false]
    intro e he hc
    rw [Bool.and_eq_true] at hc
    obtain ⟨ho, hi⟩ := hc
    unfold State.ownsSlot at ho
    split at ho
    · rename_i q hq
      rw [Option.any_eq_true] at ho
      obtain ⟨p, hp, hc⟩ := ho
      rw [hs e he q p hq hp (List.contains_iff_mem.1 hc)] at hi
      cases hi
    · cases ho
  rw [State.mergeCheck, if_neg (by simpa using h1), if_neg (by simpa using h2)]

theorem mergeCheck_busy {ps : List Nat} (h : ∃ e ∈ s.doms, e.2.part ∈ ps ∧ e.2.phase ≠ .ended) : s.mergeCheck ps = 2 := by
  obtain ⟨e, he, hp, hph⟩ := h
  refine if_pos (List.any_eq_true.2 ⟨e, he, ?_⟩)
  simp [hp, hph]

/-- The partitions that a request affects, where the others share no quarter with it. -/
theorem affected_eq {q : Nat} {ps : List Nat} (hps : ∀ p ∈ ps, bitOf (s.partWord p 0) 63 = true ∧ s.partWord p 0 / 2 ^ 56 % 16 &&& q ≠ 0)
    (ho : ∀ p < 4, p ∉ ps → bitOf (s.partWord p 0) 63 = true → s.partWord p 0 / 2 ^ 56 % 16 &&& q = 0) :
    s.affected q = (List.range 4).filter fun p => decide (p ∈ ps) := by
  refine List.filter_congr fun p hp => ?_
  rw [List.mem_range] at hp
  by_cases h : p ∈ ps
  · obtain ⟨hv, hq⟩ := hps p h
    simpa [h, hv, bitsOf] using hq
  · rw [decide_eq_false h, Bool.and_eq_false_iff]
    by_cases hv : bitOf (s.partWord p 0) 63 = true
    · right; simpa [bitsOf] using ho p hp h hv
    · left; simpa using hv

/-- A target of a request with its two parts. -/
theorem joins_target {row : Nat × Nat × Nat × Nat} (h : row ∈ Spec.joins) :
    (row.1 == 3 || row.1 == 12 || row.1 == 15) = true ∧ row.1 < 16 ∧ row.2.1 < 16 ∧ row.2.2.1 < 16 ∧
      row.2.1 &&& row.1 ≠ 0 ∧ row.2.2.1 &&& row.1 ≠ 0 ∧ row.2.1 ||| row.2.2.1 = row.1 := by
  revert row; decide

/-- SIZE of the target, and of each part. -/
theorem joins_size {row : Nat × Nat × Nat × Nat} (h : row ∈ Spec.joins) : sizeOf row.1 = row.2.2.2 ∧
    sizeOf row.2.1 = row.2.2.2 - 1 ∧ sizeOf row.2.2.1 = row.2.2.2 - 1 := by
  revert row; decide

/-- The part that a split leaves in place, the other one being the rest of the target. -/
theorem joins_lowPart {row : Nat × Nat × Nat × Nat} (h : row ∈ Spec.joins) :
    (if row.1 = 15 then 3 else if row.1 = 3 then 1 else 4) = row.2.1 ∧ row.1 - row.2.1 = row.2.2.1 := by
  revert row; decide

theorem joins_lowQuarter : ∀ row ∈ Spec.joins, ∀ lo < 4, bitOf row.2.1 lo = true → (∀ k < lo, bitOf row.1 k = false) →
    lowQuarter row.1 = lo ∧ lowQuarter row.2.1 = lo := by decide

theorem joins_highQuarter : ∀ row ∈ Spec.joins, ∀ hi < 4, bitOf row.2.2.1 hi = true →
    (∀ k < hi, bitOf row.2.2.1 k = false) → lowQuarter row.2.2.1 = hi ∧ bitOf row.2.1 hi = false := by decide

theorem filter_pair : ∀ hi < 4, ∀ lo < hi, (List.range 4).filter (fun p => decide (p ∈ [lo, hi])) = [lo, hi] := by decide

theorem filter_single : ∀ lo < 4, (List.range 4).filter (fun p => decide (p ∈ [lo])) = [lo] := by decide

section Merge

variable {row : Nat × Nat × Nat × Nat} {lo hi : Nat} (hrow : row ∈ Spec.joins) (hlo : lo < 4) (hhi : hi < 4)

include hrow hlo hhi

/-- The partitions of a merge: those that hold the two parts. -/
theorem affected_merge (hlt : lo < hi) (ha : Spec.holds s lo row.2.1) (hb : Spec.holds s hi row.2.2.1)
    (ho : ∀ p < 4, p ≠ lo → p ≠ hi → bitOf (s.partWord p 0) 63 = true → s.partWord p 0 / 2 ^ 56 % 16 &&& row.1 = 0) :
    s.affected row.1 = [lo, hi] := by
  obtain ⟨-, -, -, -, h1, h2, -⟩ := joins_target hrow
  obtain ⟨va, qa⟩ := ha
  obtain ⟨vb, qb⟩ := hb
  rw [affected_eq (ps := [lo, hi]), filter_pair hi hhi lo hlt]
  · intro p hp
    rcases List.mem_pair.1 hp with rfl | rfl
    · exact ⟨va, by rwa [qa]⟩
    · exact ⟨vb, by rwa [qb]⟩
  · intro p hp hn
    rw [List.mem_pair, not_or] at hn
    exact ho p hp hn.1 hn.2

theorem mergeStatus_eq (hlt : lo < hi) (hu : s.hw.updating = false) (ha : Spec.holds s lo row.2.1)
    (hb : Spec.holds s hi row.2.2.1)
    (ho : ∀ p < 4, p ≠ lo → p ≠ hi → bitOf (s.partWord p 0) 63 = true → s.partWord p 0 / 2 ^ 56 % 16 &&& row.1 = 0) :
    s.mergeStatus row.1 = s.mergeCheck [lo, hi] := by
  obtain ⟨h1, -, -, -, -, -, h2⟩ := joins_target hrow
  have qa := ha.2
  have qb := hb.2
  have hheld : [lo, hi].foldl (fun m p => m ||| bitsOf (s.partWord p 0) 56 4) 0 = row.1 := by
    simp only [List.foldl, Nat.zero_or, bitsOf]
    rw [show 2 ^ 4 = 16 from rfl, qa, qb, h2]
  unfold State.mergeStatus
  rw [affected_merge hrow hlo hhi hlt ha hb ho]
  dsimp only
  rw [hheld, h1, hu]
  simp

end Merge

theorem affected_split {q lo : Nat} (hlo : lo < 4) (hq : q ≠ 0) (ha : Spec.holds s lo q)
    (ho : ∀ p < 4, p ≠ lo → bitOf (s.partWord p 0) 63 = true → s.partWord p 0 / 2 ^ 56 % 16 &&& q = 0) :
    s.affected q = [lo] := by
  obtain ⟨va, qa⟩ := ha
  rw [affected_eq (ps := [lo]), filter_single lo hlo]
  · intro p hp
    rw [List.mem_singleton] at hp
    subst hp
    exact ⟨va, by rwa [qa, Nat.and_self]⟩
  · intro p hp hn
    exact ho p hp (mt List.mem_singleton.2 hn)

theorem splitStatus_eq {row : Nat × Nat × Nat × Nat} {lo : Nat} (hrow : row ∈ Spec.joins) (hlo : lo < 4)
    (hu : s.hw.updating = false) (ha : Spec.holds s lo row.1)
    (ho : ∀ p < 4, p ≠ lo → bitOf (s.partWord p 0) 63 = true → s.partWord p 0 / 2 ^ 56 % 16 &&& row.1 = 0) :
    s.splitStatus row.1 = s.mergeCheck [lo] := by
  obtain ⟨h1, -, -, -, h2, -, -⟩ := joins_target hrow
  have h0 : row.1 ≠ 0 := by rintro h; rw [h, Nat.and_zero] at h2; exact h2 rfl
  have hq : bitsOf (s.partWord lo 0) 56 4 = row.1 := ha.2
  unfold State.splitStatus
  rw [affected_split hlo h0 ha ho]
  dsimp only
  rw [h1, hu]
  simp [hq]

/-! ### What a request leaves -/

/-- A refused request changes the merge unit and lifts the quiesce. -/
theorem mergeEnd_frame (s : State) (st : Nat) : (s.mergeEnd st).mem = s.mem ∧ (s.mergeEnd st).io = s.io ∧
    ∀ p < 4, ((s.mergeEnd st).part p).words = (s.part p).words :=
  ⟨rfl, rfl, fun p hp => by rw [part_mergeEnd s st hp]⟩

theorem words_modPart_pending (s : State) (p j : Nat) (g : Part → List Nat) :
    ((s.modPart p fun t => { t with pending := g t }).part j).words = (s.part j).words :=
  (RecordsOnly.modPart (f := fun t => { t with pending := g t }) (fun _ => rfl) s p).words j

theorem part_withIo (s : State) (x : Io) (j : Nat) : State.part { s with io := x } j = s.part j := rfl

theorem merge_of_busy {q : Nat} (h : s.mergeStatus q = 2) : s.merge q = s.mergeEnd 2 := by
  unfold State.merge; dsimp only; rw [h]; rfl

theorem split_of_busy {q : Nat} (h : s.splitStatus q = 2) : s.split q = s.mergeEnd 2 := by
  unfold State.split; dsimp only; rw [h]; rfl

/-- The quarters of `q` go to the partition of the lowest one: its first word, and no word else. -/
theorem words_own (s : State) {q : Nat} (hq : lowQuarter q < 4) (j : Nat) : ((s.own q).part j).words =
    if lowQuarter q = j then (s.part j).words.setIfInBounds 0 (BitVec.ofNat 64 (ownWord (s.partWord j 0) q))
    else (s.part j).words := by
  rw [part_own, part_setPartWord s _ _ hq]
  split
  · subst_vars; rfl
  · rfl

/-- No core, no byte of a stack and no table version differs. -/
def TablesOnly (s t : State) : Prop := t.cores = s.cores ∧ t.mem.hbm = s.mem.hbm ∧ t.hw.version = s.hw.version

theorem TablesOnly.trans {t u : State} (h : TablesOnly s t) (k : TablesOnly t u) : TablesOnly s u := by
  obtain ⟨hc, hm, hv⟩ := h
  obtain ⟨kc, km, kv⟩ := k
  exact ⟨kc.trans hc, km.trans hm, kv.trans hv⟩

theorem own_tablesOnly (s : State) (q : Nat) : TablesOnly s (s.own q) := ⟨rfl, rfl, rfl⟩

theorem modPart_tablesOnly (s : State) (p : Nat) (f : Part → Part) : TablesOnly s (s.modPart p f) := ⟨rfl, rfl, rfl⟩

theorem io_tablesOnly (s : State) (x : Io) : TablesOnly s { s with io := x } := ⟨rfl, rfl, rfl⟩

/-- The end of a request that was carried out: the state table is written and the merge unit reports status 0. -/
theorem TablesOnly.done {t : State} (h : TablesOnly s t) : (t.tableWrite.mergeEnd 0).cores = s.cores ∧
    (t.tableWrite.mergeEnd 0).mem.hbm = s.mem.hbm ∧ (t.tableWrite.mergeEnd 0).hw.version = s.hw.version + 1 ∧
      Spec.ended (t.tableWrite.mergeEnd 0) 0 := by
  obtain ⟨hc, hm, hv⟩ := h
  exact ⟨hc, hm, congrArg (· + 1) hv, ended_mergeEnd _ (by decide)⟩

theorem words_done {t : State} {j : Nat} (hj : j < 4) : ((t.tableWrite.mergeEnd 0).part j).words = (t.part j).words := by
  rw [part_mergeEnd _ _ hj, State.part_tableWrite]

/-- A merge that ends with status 0: the words of the partition tables, and what else it leaves. -/
theorem merge_done {q lo hi : Nat} (h : s.mergeStatus q = 0) (hp : lowQuarter q = lo) (haff : s.affected q = [lo, hi])
    (hne : lo ≠ hi) (hlo : lo < 4) (hhi : hi < 4) : ∃ t, s.merge q = t.tableWrite.mergeEnd 0 ∧ TablesOnly s t ∧
      ∀ j, (t.part j).words = if j = hi then (s.part j).words.setIfInBounds 0 (BitVec.ofNat 64 (s.partWord j 0 % 2 ^ 63))
        else if j = lo then (s.part j).words.setIfInBounds 0 (BitVec.ofNat 64 (ownWord (s.partWord j 0) q))
        else (s.part j).words := by
  have hfind : ([lo, hi].find? (· != lo)).getD lo = hi := by simp [hne.symm]
  have hown (j : Nat) := words_own s (q := q) (by omega) j
  rw [hp] at hown
  unfold State.merge
  dsimp only
  rw [if_neg (by rw [h]; exact fun h => h rfl), hp, haff, hfind]
  refine ⟨_, rfl, ?frame, fun j => ?_⟩
  case frame =>
    exact (own_tablesOnly s q).trans ((modPart_tablesOnly ..).trans ((modPart_tablesOnly ..).trans
      ((modPart_tablesOnly ..).trans (io_tablesOnly ..))))
  rw [part_withIo, words_modPart_pending, words_modPart_pending, part_setPartWord _ _ _ hhi]
  by_cases hjh : j = hi
  · subst hjh
    rw [if_pos rfl, if_pos rfl, partWord_of_words (s := s) (by rw [hown, if_neg hne])]
    simp only [hown, if_neg hne]
  · rw [if_neg (Ne.symm hjh), if_neg hjh, hown]
    simp only [eq_comm]

/-- The same of a split into the quarters of `a` and those of `b`. -/
theorem split_done {q a b lo hi : Nat} (h : s.splitStatus q = 0)
    (hparts : (if q = 15 then 3 else if q = 3 then 1 else 4) = a ∧ q - a = b) (hp : lowQuarter a = lo)
    (ho : lowQuarter b = hi) (hne : lo ≠ hi) (hlo : lo < 4) (hhi : hi < 4) :
    ∃ t, s.split q = t.tableWrite.mergeEnd 0 ∧ TablesOnly s t ∧
      ∀ j, (t.part j).words = if j = hi then (s.part j).words.setIfInBounds 0 (BitVec.ofNat 64 (ownWord (s.partWord j 0) b))
        else if j = lo then (s.part j).words.setIfInBounds 0 (BitVec.ofNat 64 (ownWord (s.partWord j 0) a))
        else (s.part j).words := by
  obtain ⟨h1, h2⟩ := hparts
  have hown (j : Nat) := words_own s (q := a) (by omega) j
  have hown' (j : Nat) := words_own (s.own a) (q := b) (by omega) j
  rw [hp] at hown
  rw [ho] at hown'
  unfold State.split
  dsimp only
  rw [if_neg (by rw [h]; exact fun h => h rfl), h1, h2]
  refine ⟨_, rfl, ?frame, fun j => ?_⟩
  case frame =>
    exact (own_tablesOnly s a).trans ((own_tablesOnly _ b).trans ((modPart_tablesOnly ..).trans (modPart_tablesOnly ..)))
  rw [words_modPart_pending, words_modPart_pending, hown']
  by_cases hjh : j = hi
  · subst hjh
    rw [if_pos rfl, if_pos rfl, partWord_of_words (s := s) (by rw [hown, if_neg hne]), hown, if_neg hne]
  · rw [if_neg (Ne.symm hjh), if_neg hjh, hown]
    simp only [eq_comm]

/-- The first word of a table whose words are replaced there. -/
theorem partWord_of_set {t : State} {p v : Nat} (h : (t.part p).words = (s.part p).words.setIfInBounds 0 (BitVec.ofNat 64 v))
    (hv : v < 2 ^ 64) : t.partWord p 0 = v := by
  rw [State.partWord, h]
  simpa using Nat.mod_eq_of_lt hv

/-! ### The statement -/

/-- A merge of quiet partitions that hold the two parts of the target. -/
theorem merge_quiet {row : Nat × Nat × Nat × Nat} (hrow : row ∈ Spec.joins) {lo hi : Nat} (hlo : lo < 4) (hhi : hi < 4)
    (hlt : lo < hi) (hu : s.hw.updating = false) (ha : Spec.holds s lo row.2.1) (hb : Spec.holds s hi row.2.2.1)
    (ho : ∀ p < 4, p ≠ lo → p ≠ hi → bitOf (s.partWord p 0) 63 = true → s.partWord p 0 / 2 ^ 56 % 16 &&& row.1 = 0)
    (hbit : bitOf row.2.1 lo = true) (hlow : ∀ k < lo, bitOf row.1 k = false) (hq : Spec.quiet s [lo, hi]) :
    Spec.owns (s.merge row.1) lo row.1 row.2.2.2 ∧ bitOf ((s.merge row.1).partWord hi 0) 63 = false ∧
      Spec.ended (s.merge row.1) 0 ∧ (s.merge row.1).cores = s.cores ∧ (s.merge row.1).mem.hbm = s.mem.hbm ∧
      (s.merge row.1).hw.version = s.hw.version + 1 ∧
      ∀ p < 4, p ≠ lo → p ≠ hi → ((s.merge row.1).part p).words = (s.part p).words := by
  have hst : s.mergeStatus row.1 = 0 :=
    (mergeStatus_eq hrow hlo hhi hlt hu ha hb ho).trans (mergeCheck_quiet hq)
  obtain ⟨t, ht, hframe, hw⟩ := merge_done hst (joins_lowQuarter row hrow lo hlo hbit hlow).1
    (affected_merge hrow hlo hhi hlt ha hb ho) hlt.ne hlo hhi
  obtain ⟨hc, hm, hv, he⟩ := hframe.done
  rw [ht]
  refine ⟨?_, ?_, he, hc, hm, hv, fun p hp h1 h2 => by rw [words_done hp, hw, if_neg h2, if_neg h1]⟩
  · rw [← (joins_size hrow).1]
    refine owns_of_ownWord (w := s.partWord lo 0) (joins_target hrow).2.1
      (partWord_of_set (s := s) ?_ (ownWord_lt _ (partWord_lt ..)))
    rw [words_done hlo, hw, if_neg hlt.ne, if_pos rfl]
  · rw [partWord_of_set (s := s) (by rw [words_done hhi, hw, if_pos rfl])
      (Nat.lt_of_lt_of_le (Nat.mod_lt _ (by decide)) (by decide)), bitOf_eq_testBit, Nat.testBit_mod_two_pow]
    rfl

/-- A split of a quiet partition that holds the target. -/
theorem split_quiet {row : Nat × Nat × Nat × Nat} (hrow : row ∈ Spec.joins) {lo hi : Nat} (hlo : lo < 4) (hhi : hi < 4)
    (hu : s.hw.updating = false) (ha : Spec.holds s lo row.1) (hbit : bitOf row.2.1 lo = true)
    (hlow : ∀ k < lo, bitOf row.1 k = false)
    (ho : ∀ p < 4, p ≠ lo → bitOf (s.partWord p 0) 63 = true → s.partWord p 0 / 2 ^ 56 % 16 &&& row.1 = 0)
    (hbit' : bitOf row.2.2.1 hi = true) (hlow' : ∀ k < hi, bitOf row.2.2.1 k = false) (hq : Spec.quiet s [lo]) :
    Spec.owns (s.split row.1) lo row.2.1 (row.2.2.2 - 1) ∧ Spec.owns (s.split row.1) hi row.2.2.1 (row.2.2.2 - 1) ∧
      Spec.ended (s.split row.1) 0 ∧ (s.split row.1).cores = s.cores ∧ (s.split row.1).mem.hbm = s.mem.hbm := by
  have hst : s.splitStatus row.1 = 0 := (splitStatus_eq hrow hlo hu ha ho).trans (mergeCheck_quiet hq)
  obtain ⟨hho, hnb⟩ := joins_highQuarter row hrow hi hhi hbit' hlow'
  have hne : lo ≠ hi := by rintro rfl; rw [hbit] at hnb; cases hnb
  obtain ⟨-, -, ha16, hb16, -⟩ := joins_target hrow
  obtain ⟨-, hsa, hsb⟩ := joins_size hrow
  obtain ⟨t, ht, hframe, hw⟩ := split_done hst (joins_lowPart hrow) (joins_lowQuarter row hrow lo hlo hbit hlow).2 hho
    hne hlo hhi
  obtain ⟨hc, hm, -, he⟩ := hframe.done
  rw [ht]
  refine ⟨?_, ?_, he, hc, hm⟩
  · rw [← hsa]
    refine owns_of_ownWord (w := s.partWord lo 0) ha16 (partWord_of_set (s := s) ?_ (ownWord_lt _ (partWord_lt ..)))
    rw [words_done hlo, hw, if_neg hne, if_pos rfl]
  · rw [← hsb]
    refine owns_of_ownWord (w := s.partWord hi 0) hb16 (partWord_of_set (s := s) ?_ (ownWord_lt _ (partWord_lt ..)))
    rw [words_done hhi, hw, if_pos rfl]

theorem exec_merge (s : State) {q : Nat} (hq : q < 16) : exec (.merge (BitVec.ofNat 4 q)) s = .next (s.merge q) := by
  show Host.Outcome.next (s.merge (BitVec.ofNat 4 q).toNat) = _
  rw [BitVec.toNat_ofNat, Nat.mod_eq_of_lt hq]

theorem exec_split (s : State) {q : Nat} (hq : q < 16) : exec (.split (BitVec.ofNat 4 q)) s = .next (s.split q) := by
  show Host.Outcome.next (s.split (BitVec.ofNat 4 q).toNat) = _
  rw [BitVec.toNat_ofNat, Nat.mod_eq_of_lt hq]

/-- Settles O27: the status of a request by the partitions that it affects, and the words of the partition tables after a
merge and a split. -/
theorem mergeAndSplit : Obligations.MergeAndSplit := by
  intro row hrow s lo hi
  have hq16 := (joins_target hrow).2.1
  refine ⟨fun hlo hhi hlt hu ha hb ho hbit hlow => ?_, fun hlo hu ha hbit hlow ho hhi hbit' hlow' => ?_⟩
  · refine ⟨fun hq => ⟨_, exec_merge s hq16, merge_quiet hrow hlo hhi hlt hu ha hb ho hbit hlow hq⟩,
      fun ⟨e, he, hp, hph⟩ => ⟨_, exec_merge s hq16, ?_⟩⟩
    rw [merge_of_busy ((mergeStatus_eq hrow hlo hhi hlt hu ha hb ho).trans
      (mergeCheck_busy ⟨e, he, List.mem_pair.2 hp, hph⟩))]
    obtain ⟨hm, hio, hw⟩ := mergeEnd_frame s 2
    exact ⟨ended_mergeEnd s (by decide), hw, hm, hio⟩
  · refine ⟨fun hq => ⟨_, exec_split s hq16, split_quiet hrow hlo hhi hu ha hbit hlow ho hbit' hlow' hq⟩,
      fun ⟨e, he, hp, hph⟩ => ⟨_, exec_split s hq16, ?_⟩⟩
    rw [split_of_busy ((splitStatus_eq hrow hlo hu ha ho).trans
      (mergeCheck_busy ⟨e, he, List.mem_singleton.2 hp, hph⟩))]
    obtain ⟨hm, hio, hw⟩ := mergeEnd_frame s 2
    exact ⟨ended_mergeEnd s (by decide), hw, hm, hio⟩

end Sys2Proof.Machine
end

section
/-! What the memory side, an event and the write-back of first-level lines leave as it was: the frames on which the proofs
about launches, freezes and engines rest (R46, R49, R252, R353). -/

open Sys2Proof Sys2Proof.Machine

namespace Sys2Proof.Machine

variable {s t u : State}

/-! ### The memory side keeps its requests and its bindings -/

/-- No request differs, the bindings are the same, save for their copied maps, and no shadow pool differs. -/
structure HeldKept (s t : State) : Prop where
  reqs : t.mem.reqs = s.mem.reqs
  binds : ∀ b ∈ s.mem.bindings, ∃ copied, { b with copied } ∈ t.mem.bindings
  back : ∀ b ∈ t.mem.bindings, ∃ copied, { b with copied } ∈ s.mem.bindings
  shadow : ∀ p, (t.part p).shadow = (s.part p).shadow

theorem HeldKept.of_eq (hr : t.mem.reqs = s.mem.reqs) (hb : t.mem.bindings = s.mem.bindings) (hp : t.parts = s.parts) :
    HeldKept s t :=
  ⟨hr, fun b h => ⟨b.copied, hb ▸ h⟩, fun b h => ⟨b.copied, hb ▸ h⟩, fun p => by rw [State.part, State.part, hp]⟩

theorem HeldKept.refl (s : State) : HeldKept s s := .of_eq rfl rfl rfl

theorem HeldKept.trans (h : HeldKept s t) (k : HeldKept t u) : HeldKept s u where
  reqs := k.reqs.trans h.reqs
  binds b hb := by
    obtain ⟨_, hc⟩ := h.binds b hb
    obtain ⟨_, kc⟩ := k.binds _ hc
    exact ⟨_, kc⟩
  back b hb := by
    obtain ⟨_, kc⟩ := k.back b hb
    obtain ⟨_, hc⟩ := h.back _ kc
    exact ⟨_, hc⟩
  shadow p := (k.shadow p).trans (h.shadow p)

/-- Other fields of the memory side than these two change. -/
theorem HeldKept.side {hbm check lay tags lostTags l2 tlb walkStore strong sampled nextReq res resCnt pageErr err leaseUse}
    (h : HeldKept s t) : HeldKept s { t with mem := { t.mem with
      hbm, check, lay, tags, lostTags, l2, tlb, walkStore, strong, sampled, nextReq, res, resCnt, pageErr, err, leaseUse } } :=
  h.trans (.of_eq rfl rfl rfl)

theorem HeldKept.foldl {α : Type} {f : State → α → State} (hf : ∀ s x, HeldKept s (f s x)) (l : List α) (s : State) :
    HeldKept s (l.foldl f s) := by
  induction l generalizing s with
  | nil => exact .refl s
  | cons x l ih => exact (hf s x).trans (ih _)

theorem HeldKept.ite {p : Prop} [Decidable p] {a b : State} (ha : HeldKept s a) (hb : HeldKept s b) :
    HeldKept s (if p then a else b) := by
  split
  · exact ha
  · exact hb

theorem State.countDecode_heldKept (s : State) (stack block : Nat) (sev : Severity) :
    HeldKept s (s.countDecode stack block sev) := by
  unfold State.countDecode
  split <;> exact .of_eq rfl rfl rfl

theorem State.decodeAt_heldKept (s : State) (stack pa layout p0 block : Nat) (held : Bool) :
    HeldKept s (s.decodeAt stack pa layout p0 block held).1 := by
  unfold State.decodeAt
  dsimp only
  split
  · exact .refl s
  · exact (HeldKept.side (.refl s)).trans (State.countDecode_heldKept ..)

theorem State.countRes_heldKept (s : State) (p ia : Nat) : HeldKept s (s.countRes p ia) := by
  unfold State.countRes
  refine .foldl (fun s n => ?_) _ s
  dsimp only
  split <;> exact .of_eq rfl rfl rfl

theorem State.noteWalk_heldKept (s : State) (p ia : Nat) : HeldKept s (s.noteWalk p ia) := by
  unfold State.noteWalk
  dsimp only
  split
  · exact .refl s
  · exact .foldl (fun s a => s.decodeAt_heldKept ..) _ s

theorem State.fillShadow_heldKept (s : State) (stack src dst layout p0 block : Nat) :
    HeldKept s (s.fillShadow stack src dst layout p0 block) :=
  (s.decodeAt_heldKept stack (src / 64 * 64) layout p0 block false).trans (.of_eq rfl rfl rfl)

theorem HeldKept.putCipher (h : HeldKept s t) (p ia stack pa : Nat) (bytes : List Byte) :
    HeldKept s (t.putCipher p ia stack pa bytes) := h.trans (.of_eq rfl rfl rfl)

theorem HeldKept.l2Keep (h : HeldKept s t) (stack L pa : Nat) (cls : Option Nat) : HeldKept s (t.l2Keep stack L pa cls) :=
  h.trans (.of_eq rfl rfl rfl)

theorem HeldKept.decodeAt (h : HeldKept s t) (stack pa layout p0 block : Nat) (held : Bool) :
    HeldKept s (t.decodeAt stack pa layout p0 block held).1 := h.trans (t.decodeAt_heldKept ..)

/-- A binding whose copied map grows stays. -/
theorem HeldKept.copied (h : HeldKept s t) (b : Binding) (m : BitVec 1024) : HeldKept s { t with mem := { t.mem with
    bindings := t.mem.bindings.map fun k => if k = b then { b with copied := m } else k } } := by
  refine h.trans ⟨rfl, fun k hk => ?_, fun k hk => ?_, fun _ => rfl⟩
  · by_cases hkb : k = b
    · exact ⟨m, List.mem_map.2 ⟨k, hk, by rw [if_pos hkb, hkb]⟩⟩
    · exact ⟨k.copied, List.mem_map.2 ⟨k, hk, if_neg hkb⟩⟩
  · obtain ⟨k', hk', he⟩ := List.mem_map.1 hk
    by_cases hkb : k' = b
    · rw [if_pos hkb] at he
      exact ⟨b.copied, by rw [← he]; exact hkb ▸ hk'⟩
    · rw [if_neg hkb] at he
      exact ⟨k.copied, he ▸ hk'⟩

theorem State.writePiece_heldKept (s : State) (dom : Option Nat) (p ia pa : Nat) (leaf : Word) (size : Nat)
    (cls : Option Nat) (bytes : List Byte) (mask : Nat) (poison : Bool) (q : Piece) :
    HeldKept s (s.writePiece dom p ia pa leaf size cls bytes mask poison q) := by
  unfold State.writePiece
  refine .ite (.refl s) ?_
  split
  · refine .ite (.l2Keep (.side (.side ?checked)) ..) (.ite (.l2Keep (.putCipher (.side ?checked) ..) ..) (.refl s))
    exact .ite (.side (.refl s)) (.side (s.decodeAt_heldKept ..))
  · have hs {c : Prop} [Decidable c] {stack src fpa layout p0 b} : HeldKept s (if c then s
      else s.fillShadow stack src fpa layout p0 b) := .ite (.refl s) (s.fillShadow_heldKept ..)
    refine .ite (.l2Keep (.side (.side ?filled)) ..)
      (.ite (.l2Keep (.putCipher (.side ?filled) ..) ..) (.copied hs ..))
    exact .ite (.side (.copied hs ..)) (.side (.decodeAt (.copied hs ..) ..))

theorem State.memWrite_heldKept (s : State) (p ia : Nat) (bytes : List Byte) (mask : Nat) (x : Xlat) (poison : Bool) :
    HeldKept s (s.memWrite none p ia bytes mask x poison) := by
  unfold State.memWrite State.memWriteAs
  refine (s.countRes_heldKept p ia).trans ?_
  split
  · exact .foldl (fun s q => s.writePiece_heldKept ..) _ _
  · exact .refl _

/-- A front end's store takes no request and no binding away. -/
theorem State.iaStore_heldKept (s : State) (p ia : Nat) (bytes : List Byte) : HeldKept s (s.iaStore p ia bytes).1 := by
  unfold State.iaStore
  suffices h : ∀ (qs : List Piece) (a : State × Bool), HeldKept s a.1 → HeldKept s (qs.foldl _ a).1 from
    h _ (s, true) (.refl s)
  intro qs
  induction qs with
  | nil => exact fun _ h => h
  | cons q qs ih =>
    refine fun a h => ih _ ?_
    have hx {u x} (e : a.1.translateNow p (ia + q.ofs) false true = (u, x)) : HeldKept s u := by
      obtain ⟨rfl, -⟩ := Prod.mk.inj e
      exact h.trans (a.1.noteWalk_heldKept ..)
    dsimp only
    split
    · rename_i e
      split
      · exact hx e
      · exact ((hx e).trans (State.memWrite_heldKept ..)).trans (.of_eq rfl rfl rfl)
    · rename_i e
      exact hx e

theorem HeldKept.iteFst {α : Type} {p : Prop} [Decidable p] {a b : State × α} (ha : HeldKept s a.1) (hb : HeldKept s b.1) :
    HeldKept s (if p then a else b).1 := by
  split
  · exact ha
  · exact hb

theorem storeRecords_heldKept (s : State) (p pos : Nat) (seq : BitVec 16) (rs : List FaultRec) :
    HeldKept s (s.storeRecords p pos seq rs).1 := by
  induction rs generalizing s pos seq with
  | nil => exact .refl s
  | cons r rs ih =>
    unfold State.storeRecords
    exact .iteFst (.refl s) (.iteFst (.refl s) ((s.iaStore_heldKept ..).trans (ih ..)))

/-! ### What an event may change -/

/-- Of a core: its reservation, the head of its events, and its fence where the event fences. -/
def Core.Noted (F : Prop) (k k' : Core) : Prop :=
  k' = { k with cc := { k.cc with resv := k'.cc.resv }, evHead := k'.evHead, fenced := k'.fenced } ∧
    (¬ F → k'.fenced = k.fenced)

/-- Of a domain: its freeze point, its response, the events that wait, and what its completion record reports. -/
def Domain.Noted (d d' : Domain) : Prop :=
  d' = { d with fpt := d'.fpt, resp := d'.resp, later := d'.later, unsafe_ := d'.unsafe_, mdeliv := d'.mdeliv }

/-- What raising an event may change: memory without its requests and bindings, the partitions, the domains and the cores as
above, and the turns at hand. `F` says that the event fences its core. -/
structure EventFrame (F : Prop) (s t : State) : Prop where
  frame : t = { s with mem := t.mem, freeCount := t.freeCount, parts := t.parts, doms := t.doms, agenda := t.agenda
                       cores := t.cores }
  core : ∀ c, (s.core c).Noted F (t.core c)
  dom : ∀ id d, s.dom id = some d → ∃ d', t.dom id = some d' ∧ d.Noted d'
  held : HeldKept s t

section EventFrame

variable {F : Prop}

theorem Core.Noted.refl (k : Core) : k.Noted F k := ⟨rfl, fun _ => rfl⟩

theorem Core.Noted.trans {k k' k'' : Core} (h : k.Noted F k') (h' : k'.Noted F k'') : k.Noted F k'' := by
  obtain ⟨e, f⟩ := h
  obtain ⟨e', f'⟩ := h'
  exact ⟨by rw [e', e], fun n => (f' n).trans (f n)⟩

theorem Domain.Noted.refl (d : Domain) : d.Noted d := rfl

theorem Domain.Noted.trans {d d' d'' : Domain} (h : d.Noted d') (h' : d'.Noted d'') : d.Noted d'' := by
  unfold Domain.Noted at *; rw [h', h]

/-- Where no core and no domain differs. -/
theorem EventFrame.of_eq (hf : t = { s with mem := t.mem, freeCount := t.freeCount, parts := t.parts, agenda := t.agenda })
    (hh : HeldKept s t) : EventFrame F s t where
  frame := by rw [hf]
  core c := by rw [hf]; exact .refl _
  dom id d h := ⟨d, by rw [hf]; exact h, .refl d⟩
  held := hh

theorem EventFrame.refl (s : State) : EventFrame F s s := .of_eq rfl (.refl s)

theorem EventFrame.trans (h : EventFrame F s t) (k : EventFrame F t u) : EventFrame F s u where
  frame := by rw [k.frame, h.frame]
  core c := (h.core c).trans (k.core c)
  dom id d hd := by
    obtain ⟨d', hd', n⟩ := h.dom id d hd
    obtain ⟨d'', hd'', n'⟩ := k.dom id d' hd'
    exact ⟨d'', hd'', n.trans n'⟩
  held := h.held.trans k.held

theorem EventFrame.ite {p : Prop} [Decidable p] {a b : State} (ha : EventFrame F s a) (hb : EventFrame F s b) :
    EventFrame F s (if p then a else b) := by
  split
  · exact ha
  · exact hb

theorem EventFrame.foldl {α : Type} {f : State → α → State} (hf : ∀ s x, EventFrame F s (f s x)) (l : List α) (s : State) :
    EventFrame F s (l.foldl f s) := by
  induction l generalizing s with
  | nil => exact .refl s
  | cons x l ih => exact (hf s x).trans (ih _)

theorem EventFrame.of_store (h : StoreOnly s t) (hh : HeldKept s t) : EventFrame F s t where
  frame := by rw [h.frame]
  core c := by rw [h.core c]; exact ⟨rfl, fun _ => rfl⟩
  dom id d hd := ⟨d, by rw [State.dom, h.doms]; exact hd, .refl d⟩
  held := hh

theorem EventFrame.modCore {f : Core → Core} (h : EventFrame F s t) (c : Nat) (hf : ∀ k : Core, k.Noted F (f k)) :
    EventFrame F s (t.modCore c f) := by
  refine h.trans ⟨rfl, fun j => ?_, fun id d hd => ⟨d, hd, .refl d⟩, .of_eq rfl rfl rfl⟩
  rw [State.core_modCore]
  split
  · subst_vars; exact hf _
  · exact .refl _

theorem EventFrame.setDom {id : Nat} {d d' : Domain} (h : EventFrame F s t) (hd : t.dom id = some d) (hn : d.Noted d') :
    EventFrame F s (t.setDom id d') := by
  refine h.trans ⟨rfl, fun j => .refl _, fun j e he => ?_, .of_eq rfl rfl rfl⟩
  rw [State.dom_setDom]
  split
  · subst_vars
    rw [hd] at he
    exact ⟨d', rfl, Option.some.inj he ▸ hn⟩
  · exact ⟨e, he, .refl e⟩

theorem EventFrame.modDom {f : Domain → Domain} (h : EventFrame F s t) (id : Nat) (hf : ∀ d : Domain, d.Noted (f d)) :
    EventFrame F s (t.modDom id f) := by
  cases hd : t.dom id with
  | none => rwa [State.modDom_of_none _ hd]
  | some d =>
    rw [State.modDom_of_some _ hd]
    exact h.setDom hd (hf d)

/-- A domain's freeze point and response change. -/
theorem EventFrame.respond (h : EventFrame F s t) (id : Nat) (fpt : Domain → Option Nat) (resp : Domain → Option (Nat × Nat)) :
    EventFrame F s (t.modDom id fun d => { d with fpt := fpt d, resp := resp d }) := h.modDom id fun _ => rfl

theorem EventFrame.soon (h : EventFrame F s t) (x : Turn) : EventFrame F s (t.soon x) := h.trans (.of_eq rfl (.of_eq rfl rfl rfl))

theorem EventFrame.modPart {f : Part → Part} (h : EventFrame F s t) (p : Nat) (hf : ∀ x, (f x).shadow = x.shadow) :
    EventFrame F s (t.modPart p f) := by
  refine h.trans (.of_eq rfl ⟨rfl, fun b hb => ⟨b.copied, hb⟩, fun b hb => ⟨b.copied, hb⟩, fun j => ?_⟩)
  by_cases hp : p < 4
  · rw [State.part_modPart t p j f hp]
    split
    · subst_vars; exact hf _
    · rfl
  · rw [State.modPart, State.part, Vector.setIfInBounds_eq_of_size_le (by omega)]; rfl

theorem EventFrame.setAgenda (h : EventFrame F s t) (l : List Turn) : EventFrame F s { t with agenda := l } :=
  h.trans (.of_eq rfl (.of_eq rfl rfl rfl))

theorem EventFrame.setQuar (h : EventFrame F s t) (p : Nat) (w : Part → Vector Word 16) :
    EventFrame F s (t.modPart p fun x => { x with words := w x }) := h.modPart p fun _ => rfl

theorem EventFrame.quarantine (h : EventFrame F s t) (p : Nat) : EventFrame F s (t.quarantine p) :=
  (h.setQuar p _).setAgenda _

theorem EventFrame.layRecords (h : EventFrame F s t) (p : Nat) (rs : List FaultRec) (new : Nat) :
    EventFrame F s (t.layRecords p rs new) := by
  unfold State.layRecords
  refine (h.trans (.of_store (storeRecords_storeOnly ..) (storeRecords_heldKept ..))).modPart p ?_
  exact fun _ => rfl

theorem EventFrame.writeRecord (h : EventFrame F s t) (p core : Nat) (dom : Option Domain) (e : Ev) (resp : Nat)
    (secondary : Bool) : EventFrame F s (t.writeRecord p core dom e resp secondary) := h.layRecords ..

theorem EventFrame.sendNotices (h : EventFrame F s t) (d : Domain) (resp : Nat) (cause sub : BitVec 8) :
    EventFrame F s (t.sendNotices d resp cause sub) := by
  unfold State.sendNotices
  refine .ite h (h.trans (.foldl (fun s m => ?_) _ _))
  split
  · exact .refl s
  · exact (EventFrame.refl s).soon _

theorem EventFrame.setEvHead (h : EventFrame F s t) (c : Nat) (f : Core → Option EvHead) :
    EventFrame F s (t.modCore c fun k => { k with evHead := f k }) := h.modCore c fun _ => ⟨rfl, fun _ => rfl⟩

theorem EventFrame.headRecord (h : EventFrame F s t) (core part : Nat) (e : Ev) (before : Bool) :
    EventFrame F s (t.headRecord core part e before).1 := by
  unfold State.headRecord
  dsimp only
  split
  · exact h
  · split
    · exact h.setEvHead core fun _ => _
    · split
      · exact h.setEvHead core fun _ => _
      · split
        · exact h
        · exact (h.layRecords ..).setEvHead core fun _ => _

/-- Whether the events of a cause fence their core (R46). -/
def Ev.fences (e : Ev) : Prop := e.cause = 0x10

theorem fences_of_respOf {timed sfpol : Bool} {e : Ev} (h : respOf timed sfpol e = 6) : e.fences := by
  unfold respOf at h
  split at h
  case h_3 hc => exact BitVec.eq_of_toNat_eq hc
  all_goals exfalso; revert h; repeat' split
  all_goals decide

/-- The response that fences a core follows from an event that does. -/
theorem fences_of_effectiveResp {d : Domain} {e : Ev} (h : s.effectiveResp d e = 6) : e.fences := by
  unfold State.effectiveResp at h
  dsimp only at h
  refine fences_of_respOf (timed := d.timed) (sfpol := bitOf (s.partWord d.part 6) 32) ?_
  generalize respOf .. = r at h ⊢
  revert h
  repeat' split
  all_goals intro h; omega

theorem EventFrame.applyResp {e : Ev} {resp : Nat} (h : EventFrame e.fences s t) (hr : resp = 6 → e.fences) (id : Nat)
    (d : Domain) (core : Nat) : EventFrame e.fences s (t.applyResp id d core e resp) := by
  unfold State.applyResp
  have hf : EventFrame e.fences s (if (resp == 6 || (resp == 8 && e.cause == 0x10)) = true then
      t.modCore core fun k => { k with fenced := true } else t) := by
    split
    · rename_i hc
      have hfe : e.fences := by
        rw [Bool.or_eq_true, beq_iff_eq, Bool.and_eq_true, beq_iff_eq (a := e.cause)] at hc
        exact hc.elim hr And.right
      exact h.modCore core fun k => ⟨rfl, fun n => absurd hfe n⟩
    · exact h
  dsimp only
  refine .ite ((hf.sendNotices ..).quarantine _) (.ite hf (.ite (hf.respond ..) (.ite hf (.ite ?_ ?_))))
  · exact ((hf.respond ..).sendNotices ..).soon _
  · exact ((hf.respond ..).sendNotices ..).soon _

theorem EventFrame.raiseNone (h : EventFrame F s t) (p core : Nat) (e : Ev) : EventFrame F s (t.raiseNone p core e) :=
  .ite ((h.writeRecord ..).quarantine _) (h.writeRecord ..)

theorem EventFrame.recordEnded (h : EventFrame F s t) (core : Nat) (d : Domain) (e : Ev) :
    EventFrame F s (t.recordEnded core d e) := .ite ((h.writeRecord ..).quarantine _) (h.writeRecord ..)

theorem EventFrame.raiseLive {e : Ev} (h : EventFrame e.fences s t) (id core : Nat) (d : Domain) :
    EventFrame e.fences s (t.raiseLive id core d e) := by
  unfold State.raiseLive
  exact ((h.headRecord ..).writeRecord ..).applyResp fences_of_effectiveResp ..

theorem EventFrame.raiseDomAt {e : Ev} (h : EventFrame e.fences s t) (id core land : Nat) :
    EventFrame e.fences s (t.raiseDomAt id core land e) := by
  unfold State.raiseDomAt
  split
  · exact h.raiseNone ..
  · rename_i d hd
    exact .ite (h.recordEnded ..) (.ite (h.setDom hd rfl) (h.raiseLive ..))

theorem EventFrame.raiseDom {e : Ev} (h : EventFrame e.fences s t) (id core : Nat) :
    EventFrame e.fences s (t.raiseDom id core e) := h.raiseDomAt ..

theorem EventFrame.raise {e : Ev} (h : EventFrame e.fences s t) (c : Nat) : EventFrame e.fences s (t.raise c e) := by
  unfold State.raise
  split
  · exact h.raiseDom ..
  · exact h.raiseNone ..

theorem EventFrame.raiseFor {e : Ev} (h : EventFrame e.fences s t) (dom : Option Nat) (core p : Nat) :
    EventFrame e.fences s (t.raiseFor dom core p e) := by
  unfold State.raiseFor
  split
  · exact h.raiseDom ..
  · exact h.raiseNone ..

end EventFrame

end Sys2Proof.Machine
end

section
/-! The write-back of first-level lines (R252) and the clear of a core between launches (R30): what they leave as it was, and
what a cleared core is. -/

open Sys2Proof Sys2Proof.Machine

namespace Sys2Proof.Machine

variable {s t u : State}

/-! ### Writes and reports of a launch -/

section EventFrame

variable {F : Prop}

theorem EventFrame.of_memOnly (h : MemOnly s t) (hh : HeldKept s t) : EventFrame F s t := .of_store (.of_memOnly h) hh

theorem EventFrame.noteWrite (h : EventFrame F s t) (dom : Option Nat) (leaf : Word) : EventFrame F s (t.noteWrite dom leaf) := by
  unfold State.noteWrite
  split
  · exact .ite h (h.modDom _ fun _ => rfl)
  · exact h

theorem EventFrame.memWrite (h : EventFrame F s t) (dom : Option Nat) (p ia : Nat) (bytes : List Byte) (mask : Nat)
    (x : Xlat) (poison : Bool) : EventFrame F s (t.memWrite dom p ia bytes mask x poison) := by
  unfold State.memWrite State.memWriteAs
  refine h.trans (.trans (.of_memOnly (t.countRes_memOnly p ia) (t.countRes_heldKept p ia)) ?_)
  split
  · refine ((EventFrame.refl _).noteWrite ..).trans (.foldl (fun s q => ?_) _ _)
    exact .of_memOnly (s.writePiece_memOnly ..) (s.writePiece_heldKept ..)
  · exact .refl _

theorem EventFrame.breakReservations (h : EventFrame F s t) (by_ : Option Nat) (p ia n : Nat) :
    EventFrame F s (t.breakReservations by_ p ia n) :=
  h.trans (.of_store (t.breakReservations_storeOnly ..) (.of_eq rfl rfl rfl))

end EventFrame

theorem mem_of_firstEvent {es : List Ev} {e : Ev} (h : firstEvent es = some e) : e ∈ es := by
  induction es generalizing e with
  | nil => cases h
  | cons x es ih =>
    unfold firstEvent at h
    split at h
    · exact Option.some.inj h ▸ List.mem_cons_self
    · rename_i f hf
      split at h
      · exact Option.some.inj h ▸ List.mem_cons_of_mem _ (ih hf)
      · exact Option.some.inj h ▸ List.mem_cons_self

/-- The event of a sector fences no core. -/
theorem sectorEvent_not_fences {mpol copy : Bool} {e ev : Ev} {va : Nat} {i : SectorInfo}
    (h : sectorEvent mpol copy e va i = some ev) : ¬ ev.fences := by
  unfold sectorEvent at h
  dsimp only at h
  repeat' split at h
  all_goals cases h
  all_goals simp [Ev.fences]

theorem EventFrame.mono {F G : Prop} (h : EventFrame F s t) (hFG : F → G) : EventFrame G s t :=
  ⟨h.frame, fun c => ⟨(h.core c).1, fun n => (h.core c).2 (mt hFG n)⟩, h.dom, h.held⟩

theorem EventFrame.reportFound (h : EventFrame False s t) (dom : Option Nat) (core p : Nat) (e : Ev) (va : Nat) (copy : Bool)
    (found : List (Piece × SectorInfo)) : EventFrame False s (t.reportFound dom core p e va copy found) := by
  have raised (u : State) : EventFrame False u (match firstEvent (found.filterMap fun f => sectorEvent (t.mpol p) copy e va f.2) with
      | some ev => u.raiseFor dom core p ev
      | none => u) := by
    split
    · rename_i ev hev
      obtain ⟨f, -, hf⟩ := List.mem_filterMap.1 (mem_of_firstEvent hev)
      exact ((EventFrame.refl u).raiseFor dom core p).mono (sectorEvent_not_fences hf)
    · exact .refl u
  unfold State.reportFound
  refine h.trans (.trans ?_ (raised _))
  split
  · exact .ite ((EventFrame.refl t).modDom _ fun _ => rfl) (.refl t)
  · exact .refl t

/-! ### Write-backs -/

/-- Of a core: its reservation, its first-level lines and the head of its events. -/
def Core.WrittenBack (k k' : Core) : Prop :=
  k' = { k with cc := { k.cc with resv := k'.cc.resv, l1 := k'.cc.l1 }, evHead := k'.evHead }

/-- What the write-back of lines of the cores `cs` may change: what an event that fences no core may, and the lines of these
cores. -/
structure FlushFrame (cs : List Nat) (s t : State) : Prop where
  frame : t = { s with mem := t.mem, freeCount := t.freeCount, parts := t.parts, doms := t.doms, agenda := t.agenda
                       cores := t.cores }
  core : ∀ j, (s.core j).WrittenBack (t.core j)
  l1 : ∀ j, j ∉ cs → (t.core j).cc.l1 = (s.core j).cc.l1
  dom : ∀ id d, s.dom id = some d → ∃ d', t.dom id = some d' ∧ d.Noted d'
  held : HeldKept s t

theorem FlushFrame.of_event {cs : List Nat} (h : EventFrame False s t) : FlushFrame cs s t where
  frame := h.frame
  core j := by
    obtain ⟨he, hf⟩ := h.core j
    unfold Core.WrittenBack
    rw [he, hf id]
  l1 j _ := by rw [(h.core j).1]
  dom := h.dom
  held := h.held

theorem FlushFrame.refl (cs : List Nat) (s : State) : FlushFrame cs s s := .of_event (.refl s)

theorem FlushFrame.trans {cs : List Nat} (h : FlushFrame cs s t) (k : FlushFrame cs t u) : FlushFrame cs s u where
  frame := by rw [k.frame, h.frame]
  core j := by
    have h1 := h.core j
    have h2 := k.core j
    unfold Core.WrittenBack at *
    rw [h2, h1]
  l1 j hj := (k.l1 j hj).trans (h.l1 j hj)
  dom id d hd := by
    obtain ⟨d', hd', n⟩ := h.dom id d hd
    obtain ⟨d'', hd'', n'⟩ := k.dom id d' hd'
    exact ⟨d'', hd'', n.trans n'⟩
  held := h.held.trans k.held

theorem FlushFrame.mono {cs cs' : List Nat} (h : FlushFrame cs s t) (hcs : cs ⊆ cs') : FlushFrame cs' s t :=
  ⟨h.frame, h.core, fun j hj => h.l1 j (fun hm => hj (hcs hm)), h.dom, h.held⟩

theorem FlushFrame.setL1 {cs : List Nat} (h : FlushFrame cs s t) {c : Nat} (hc : c ∈ cs) (f : Cc → Sparse L1Line) :
    FlushFrame cs s (t.modCc c fun k => { k with l1 := f k }) := by
  refine h.trans ⟨rfl, fun j => ?_, fun j hj => ?_, fun id d hd => ⟨d, hd, .refl d⟩, .of_eq rfl rfl rfl⟩
  · unfold Core.WrittenBack
    rw [State.core_modCc]
    split
    · subst_vars; rfl
    · rfl
  · rw [State.core_modCc, if_neg (by rintro rfl; exact hj hc)]

theorem State.writeBack_flush (s : State) (c key : Nat) : FlushFrame [c] s (s.writeBack c key) := by
  have hw : EventFrame False s (s.noteWalk (s.partOf c) (128 * key)) :=
    .of_memOnly (s.noteWalk_memOnly ..) (s.noteWalk_heldKept ..)
  unfold State.writeBack
  dsimp only
  split
  · exact .refl _ s
  · split
    · exact .refl _ s
    · refine .setL1 (.of_event (EventFrame.breakReservations ?_ ..)) List.mem_cons_self _
      split
      · exact hw.reportFound ..
      · exact hw.memWrite ..

theorem State.flushL1_flush (s : State) (c : Nat) (drop : Bool) : FlushFrame [c] s (s.flushL1 c drop) := by
  have hfold (l : Sparse L1Line) (u : State) : FlushFrame [c] u (l.foldl (fun s e => s.writeBack c e.1) u) := by
    induction l generalizing u with
    | nil => exact .refl _ u
    | cons e l ih => exact (u.writeBack_flush c e.1).trans (ih _)
  unfold State.flushL1
  dsimp only
  split
  · exact (hfold _ s).setL1 List.mem_cons_self _
  · exact hfold _ s

/-- After the flush that drops them a core has no lines. -/
theorem State.flushL1_l1 (s : State) (c : Nat) : ((s.flushL1 c true).core c).cc.l1 = [] := by
  unfold State.flushL1
  dsimp only
  rw [if_pos rfl, State.core_modCc, if_pos rfl]

/-- The flush of a core without lines changes nothing that can be read. -/
theorem State.flushL1_of_nil {c : Nat} (h : (s.core c).cc.l1 = []) : (s.flushL1 c true).mem = s.mem ∧
    (s.flushL1 c true).doms = s.doms ∧ (s.flushL1 c true).parts = s.parts ∧ ∀ j, (s.flushL1 c true).core j = s.core j := by
  have he : s.flushL1 c true = s.modCc c fun k => { k with l1 := [] } := by
    unfold State.flushL1; rw [h]; rfl
  rw [he]
  refine ⟨rfl, rfl, rfl, fun j => ?_⟩
  rw [State.core_modCc]
  split
  · subst_vars; rw [← h]
  · rfl

/-- The lines of the cores of a list are written back and dropped. -/
theorem flushAll_flush (l : List Nat) (s : State) : FlushFrame l s (l.foldl (fun s c => s.flushL1 c true) s) := by
  induction l generalizing s with
  | nil => exact .refl _ s
  | cons c l ih =>
    exact ((s.flushL1_flush c true).mono (by simp)).trans ((ih _).mono (List.subset_cons_self c l))

theorem flushAll_l1 {l : List Nat} (s : State) {c : Nat} (hc : c ∈ l) :
    ((l.foldl (fun s c => s.flushL1 c true) s).core c).cc.l1 = [] := by
  induction l generalizing s with
  | nil => cases hc
  | cons a l ih =>
    by_cases hl : c ∈ l
    · exact ih _ hl
    · obtain rfl : c = a := (List.mem_cons.1 hc).resolve_right hl
      exact ((flushAll_flush l _).l1 c hl).trans (s.flushL1_l1 c)

/-- Where no core has a line, the write-backs leave memory as it was. -/
theorem flushAll_of_nil {l : List Nat} (h : ∀ c, (s.core c).cc.l1 = []) :
    (l.foldl (fun s c => s.flushL1 c true) s).mem = s.mem := by
  induction l generalizing s with
  | nil => rfl
  | cons a l ih =>
    obtain ⟨hm, -, -, hc⟩ := State.flushL1_of_nil (h a)
    exact (ih fun c => by rw [hc, h]).trans hm

/-! ### The clear of a core (R30) -/

/-- A core whose lines have been written back is cleared from what it was before. -/
theorem cleared_of_writtenBack {k k' : Core} (h : k.WrittenBack k') (snap : Bool) (dom : Option Nat) :
    Spec.clearedCore k { k'.cleared snap with dom } := by
  rw [h]
  refine ⟨rfl, rfl, rfl, rfl, rfl, rfl, rfl, rfl, rfl, rfl, rfl, rfl, rfl, rfl, ?_, ?_, fun i hi => ?_, rfl, rfl, rfl, rfl⟩
  · simp [Core.cleared]
  · simp [Core.cleared]
  · have h16 : i < 16 := by omega
    simp [Core.cleared, h16, Nat.not_le.2 hi]

theorem Core.WrittenBack.refl (k : Core) : k.WrittenBack k := rfl

theorem Core.WrittenBack.trans {k k' k'' : Core} (h : k.WrittenBack k') (h' : k'.WrittenBack k'') : k.WrittenBack k'' := by
  unfold Core.WrittenBack at *; rw [h', h]

theorem clearedCore_of_writtenBack {k k' k'' : Core} (h : Spec.clearedCore k k') (w : k'.WrittenBack k'')
    (hl : k''.cc.l1 = k'.cc.l1) : Spec.clearedCore k k'' := by
  unfold Spec.clearedCore at *
  obtain ⟨h1, h2, h3, h4, h5, h6, h7, h8, h9⟩ := h
  rw [w]
  exact ⟨h1, h2, h3, h4, h5, hl.trans h6, h7, h8, h9⟩

theorem clearedCore_of_before {k k' k'' : Core} (w : k.WrittenBack k') (h : Spec.clearedCore k' k'') :
    Spec.clearedCore k k'' := by
  unfold Core.WrittenBack at w
  rw [w] at h
  exact h

theorem clearedCore_dom {k k' : Core} (h : Spec.clearedCore k k') (dom : Option Nat) : Spec.clearedCore k { k' with dom } := h

/-- What the clear of the cores `cs` may change: each is cleared and belongs to `dom`, their ends stand in the calendar, and
of the state else no more differs than their write-backs may change. -/
structure ClearFrame (cs : List Nat) (dom : Option Nat) (s t : State) : Prop where
  frame : t = { s with mem := t.mem, freeCount := t.freeCount, parts := t.parts, doms := t.doms, agenda := t.agenda
                       cores := t.cores, calendar := t.calendar }
  cleared : ∀ c ∈ cs, Spec.clearedCore (s.core c) (t.core c) ∧ (t.core c).dom = dom
  other : ∀ c, c ∉ cs → (s.core c).WrittenBack (t.core c) ∧ (t.core c).cc.l1 = (s.core c).cc.l1
  doms : ∀ id d, s.dom id = some d → ∃ d', t.dom id = some d' ∧ d.Noted d'
  held : HeldKept s t

theorem ClearFrame.refl (dom : Option Nat) (s : State) : ClearFrame [] dom s s where
  frame := rfl
  cleared _ h := nomatch h
  other _ _ := ⟨.refl _, rfl⟩
  doms _ d h := ⟨d, h, .refl d⟩
  held := .refl s

theorem State.clearCore_core (s : State) (c j : Nat) (snap : Bool) : (s.clearCore c snap).core j =
    if c = j then { ((s.flushL1 c true).core c).cleared snap with dom := none } else (s.flushL1 c true).core j := by
  unfold State.clearCore
  dsimp only
  rw [State.core_schedule, State.core_modCore]

theorem State.clearCore_frame (s : State) (c : Nat) (snap : Bool) : ClearFrame [c] none s (s.clearCore c snap) := by
  have hf := s.flushL1_flush c true
  refine ⟨?_, fun j hj => ?_, fun j hj => ?_, hf.dom, hf.held.trans (.of_eq rfl rfl rfl)⟩
  · unfold State.clearCore
    rw [hf.frame]
    rfl
  · obtain rfl := List.mem_singleton.1 hj
    rw [State.clearCore_core, if_pos rfl]
    exact ⟨cleared_of_writtenBack (hf.core j) snap none, rfl⟩
  · rw [State.clearCore_core, if_neg (by rintro rfl; exact hj List.mem_cons_self)]
    exact ⟨hf.core j, hf.l1 j hj⟩

/-- The core is given to a domain after its clear. -/
theorem State.clearFor_frame (s : State) (c : Nat) (snap : Bool) (dom : Option Nat) :
    ClearFrame [c] dom s ((s.clearCore c snap).modCore c fun k => { k with dom }) := by
  obtain ⟨hframe, hcl, ho, hd, hh⟩ := s.clearCore_frame c snap
  refine ⟨?_, fun j hj => ?_, fun j hj => ?_, hd, hh.trans (.of_eq rfl rfl rfl)⟩
  · rw [hframe]; rfl
  · obtain rfl := List.mem_singleton.1 hj
    rw [State.core_modCore, if_pos rfl]
    exact ⟨clearedCore_dom (hcl j hj).1 dom, rfl⟩
  · rw [State.core_modCore, if_neg (by rintro rfl; exact hj List.mem_cons_self)]
    exact ho j hj

/-- A core that is cleared twice is cleared. -/
theorem clearedCore_trans {k k' k'' : Core} (h : Spec.clearedCore k k') (h' : Spec.clearedCore k' k'') :
    Spec.clearedCore k k'' := by
  obtain ⟨-, -, -, -, -, -, hmon, hctl, -, -, -, -, -, -, h14, h15, -, -, -, -, hf⟩ := h
  obtain ⟨h1, h2, h3, h4, h5, h6, kmon, kctl, g1, g2, g3, g4, g5, g6, k14, k15, r1, r2, r3, r4, kf⟩ := h'
  refine ⟨h1, h2, h3, h4, h5, h6, kmon.trans hmon, ?_, g1, g2, g3, g4, g5, g6, k14.trans h14, k15.trans h15, r1, r2, r3, r4,
    kf.trans hf⟩
  rw [kctl, hctl, BitVec.and_assoc, BitVec.and_self]

/-- The clear of one core after another. -/
theorem ClearFrame.foldl {dom : Option Nat} {f : State → Nat → State} (hf : ∀ s c, ClearFrame [c] dom s (f s c)) (cs : List Nat)
    (s : State) : ClearFrame cs dom s (cs.foldl f s) := by
  induction cs generalizing s with
  | nil => exact .refl dom s
  | cons c cs ih =>
    obtain ⟨hfr, hcl, ho, hd, hh⟩ := hf s c
    obtain ⟨kfr, kcl, ko, kd, kh⟩ := ih (f s c)
    refine ⟨?_, fun j hj => ?_, fun j hj => ?_, fun id d h => ?_, hh.trans kh⟩
    · rw [List.foldl_cons, kfr, hfr]
    · by_cases hjs : j ∈ cs
      · refine ⟨?_, (kcl j hjs).2⟩
        by_cases hjc : j ∈ [c]
        · exact clearedCore_trans (hcl j hjc).1 (kcl j hjs).1
        · exact clearedCore_of_before (ho j hjc).1 (kcl j hjs).1
      · have hjc : j ∈ [c] := List.mem_singleton.2 ((List.mem_cons.1 hj).resolve_right hjs)
        obtain ⟨w, hl⟩ := ko j hjs
        refine ⟨clearedCore_of_writtenBack (hcl j hjc).1 w hl, ?_⟩
        rw [List.foldl_cons, w]
        exact (hcl j hjc).2
    · obtain ⟨hjc, hjs⟩ := not_or.1 (mt List.mem_cons.2 hj)
      have hne := mt List.mem_singleton.1 hjc
      exact ⟨(ho j hne).1.trans (ko j hjs).1, (ko j hjs).2.trans (ho j hne).2⟩
    · obtain ⟨d', hd', n⟩ := hd id d h
      obtain ⟨d'', hd'', n'⟩ := kd id d' hd'
      exact ⟨d'', hd'', n.trans n'⟩

/-- No byte of memory, no partition and no domain differs. -/
def SameStore (s t : State) : Prop := t.mem = s.mem ∧ t.doms = s.doms ∧ t.parts = s.parts

theorem SameStore.trans (h : SameStore s t) (k : SameStore t u) : SameStore s u :=
  ⟨k.1.trans h.1, k.2.1.trans h.2.1, k.2.2.trans h.2.2⟩

/-- The clear of a core without lines. -/
theorem State.clearCore_sameStore {c : Nat} (h : (s.core c).cc.l1 = []) (snap : Bool) : SameStore s (s.clearCore c snap) := by
  obtain ⟨hm, hd, hp, -⟩ := State.flushL1_of_nil h
  exact ⟨hm, hd, hp⟩

theorem ClearFrame.l1_of_nil {c j : Nat} {dom : Option Nat} (h : ClearFrame [c] dom s t) (hj : (s.core j).cc.l1 = []) :
    (t.core j).cc.l1 = [] := by
  by_cases hc : j ∈ [c]
  · obtain ⟨-, -, -, -, -, hl, -⟩ := (h.cleared j hc).1
    exact hl
  · exact (h.other j hc).2.trans hj

theorem ClearFrame.foldl_sameStore {dom : Option Nat} {f : State → Nat → State} (hf : ∀ s c, ClearFrame [c] dom s (f s c))
    (h0 : ∀ s c, (s.core c).cc.l1 = [] → SameStore s (f s c)) (cs : List Nat) (s : State)
    (hl : ∀ c ∈ cs, (s.core c).cc.l1 = []) : SameStore s (cs.foldl f s) := by
  induction cs generalizing s with
  | nil => exact ⟨rfl, rfl, rfl⟩
  | cons c cs ih =>
    exact (h0 s c (hl c List.mem_cons_self)).trans
      (ih _ fun j hj => (hf s c).l1_of_nil (hl j (List.mem_cons_of_mem c hj)))

end Sys2Proof.Machine
end

section
/-! The completion of a command whose queue a slot holds (R343, R350, R351): the records that leave, those that stay, and what
no completion touches. -/

open Sys2Proof Sys2Proof.Machine

namespace Sys2Proof.Machine

variable {s t : State} {q n : Nat}

/-! ### The slot of a queue -/

theorem find_sinsert {α : Type} {P : Nat × α → Bool} {k : Nat} {x : α} (hx : P (k, x) = true) {l : Sparse α}
    (h : (l.find? P).map (·.1) = some k) : ((sinsert l k x).find? P).map (·.1) = some k := by
  induction l with
  | nil => cases h
  | cons e l ih =>
    obtain ⟨j, w⟩ := e
    unfold sinsert
    split
    · rw [List.find?_cons, hx]; rfl
    · split
      · rw [List.find?_cons, hx]; rfl
      · rename_i _ hne
        rw [List.find?_cons] at h ⊢
        cases hw : P (j, w) with
        | true => rw [hw] at h; exact absurd (Option.some.inj h).symm hne
        | false => rw [hw] at h; exact ih h

/-- The queue stays in its slot where the slot's entry is replaced by one of the same queue. -/
theorem slotOf_setSlot {x : HwSlot} (h : s.slotOf q = some n) (hx : x.queue = some q) : (s.setSlot n x).slotOf q = some n :=
  find_sinsert (P := fun e : Nat × HwSlot => e.2.queue == some q) (beq_iff_eq.2 hx) h

/-! ### Records that leave -/

theorem QRec.ctail_put (r : QRec) (v : Nat) : (r.put 2 0 32 v).ctail = v % 2 ^ 32 := by
  have hlt : setField ((r.w[2]?).getD 0).toNat 0 32 v < 2 ^ 64 := setField_lt v (by decide) (BitVec.isLt _)
  have hw : ((r.put 2 0 32 v).w[2]?).getD 0 = BitVec.ofNat 64 (setField ((r.w[2]?).getD 0).toNat 0 32 v) := by
    simp [QRec.put, setField]
  rw [QRec.ctail, QRec.get, hw, BitVec.toNat_ofNat, Nat.mod_eq_of_lt hlt, bitsOf_setField_same]

theorem QRec.ctail_lt (r : QRec) : r.ctail < 2 ^ 32 := Nat.mod_lt _ (by decide)

/-- The words of a record as it leaves: its first word stays. -/
theorem sendRecord_emits (q : Nat) (a : State × QRec) (w0 : Word) (ws : List Word) : ∃ qp rkey addr ws',
    (sendRecord q a (w0 :: ws)).1 = a.1.emit (.completion q qp rkey addr (w0 :: ws')) := by
  cases ws <;> exact ⟨_, _, _, _, rfl⟩

theorem sendRecord_message (q : Nat) (a : State × QRec) (ws : List Word) : ∃ qp rkey addr ws',
    (sendRecord q a ws).1 = a.1.emit (.completion q qp rkey addr ws') := ⟨_, _, _, _, rfl⟩

theorem sendRecord_ctail (q : Nat) (a : State × QRec) (ws : List Word) :
    (sendRecord q a ws).2.ctail = (a.2.ctail + 1) % 2 ^ 32 := by
  unfold sendRecord
  exact QRec.ctail_put _ _

/-- `k` completion records of queue `q` leave, and nothing else happens. -/
def Sends (q k : Nat) (s t : State) : Prop :=
  ∃ ms : List OutMsg, t = { s with io := { s.io with out := s.io.out ++ ms } } ∧ ms.length = k ∧
    ∀ m ∈ ms, ∃ qp rkey a ws, m = .completion q qp rkey a ws

theorem sendRecord_foldl (q : Nat) (l : List (List Word)) (a : State × QRec) :
    Sends q l.length a.1 (l.foldl (sendRecord q) a).1 ∧ (l.foldl (sendRecord q) a).2.ctail = (a.2.ctail + l.length) % 2 ^ 32 := by
  induction l generalizing a with
  | nil =>
    refine ⟨⟨[], by simp, rfl, fun m h => absurd h List.not_mem_nil⟩, ?_⟩
    rw [List.foldl_nil, List.length_nil, Nat.add_zero, Nat.mod_eq_of_lt a.2.ctail_lt]
  | cons ws l ih =>
    obtain ⟨⟨ms, ht, hl, hm⟩, hc⟩ := ih (sendRecord q a ws)
    obtain ⟨qp, rkey, addr, ws', he⟩ := sendRecord_message q a ws
    refine ⟨⟨.completion q qp rkey addr ws' :: ms, ?_, by rw [List.length_cons, hl, List.length_cons], ?_⟩, ?_⟩
    · rw [List.foldl_cons, ht, he]
      simp [State.emit]
    · intro m h
      rcases List.mem_cons.1 h with rfl | h
      · exact ⟨_, _, _, _, rfl⟩
      · exact hm m h
    · rw [List.foldl_cons, hc, sendRecord_ctail, List.length_cons]
      omega

/-- The status of a record of a command. -/
theorem recordOf_word (c : Cmd) {status : Nat} (hst : status < 256) (head pstat mdeliv replays basin aux : Nat) :
    ∃ w0 ws, recordOf c status head pstat mdeliv replays basin aux = w0 :: ws ∧
      w0.toNat = c.idx.toNat * 2 ^ 32 + (c.words.getD 0 0).toNat / 2 ^ 48 * 2 ^ 16 + status * 2 ^ 8 +
        (c.words.getD 0 0).toNat % 2 ^ 8 ∧ w0.toNat / 2 ^ 8 % 2 ^ 8 = status := by
  have h0 := (c.words.getD 0 0).isLt
  have hi := c.idx.isLt
  have key : (BitVec.ofNat 64 (c.idx.toNat * 2 ^ 32 + c.user * 2 ^ 16 + status * 2 ^ 8 + c.opcode)).toNat =
      c.idx.toNat * 2 ^ 32 + (c.words.getD 0 0).toNat / 2 ^ 48 * 2 ^ 16 + status * 2 ^ 8 +
        (c.words.getD 0 0).toNat % 2 ^ 8 := by
    simp only [BitVec.toNat_ofNat, Cmd.user, Cmd.opcode, Cmd.word, bitsOf, Nat.pow_zero, Nat.div_one]
    generalize (c.words.getD 0 0).toNat = w at *
    have huser : w / 2 ^ 48 < 2 ^ 16 := by omega
    rw [Nat.mod_eq_of_lt huser, Nat.mod_eq_of_lt (by omega)]
  refine ⟨_, _, rfl, key, ?_⟩
  rw [key]
  generalize (c.words.getD 0 0).toNat = w at *
  omega

/-- The held records of a mapped queue leave. -/
theorem sendHeld_eq (h : s.slotOf q = some n) : ∃ u, Sends q (s.slot n).held.length s u ∧
    ∃ r, s.sendHeld q = u.setSlot n { s.slot n with rec_ := r, held := [] } ∧
      r.ctail = ((s.slot n).rec_.ctail + (s.slot n).held.length) % 2 ^ 32 := by
  obtain ⟨hs, hc⟩ := sendRecord_foldl q ((s.slot n).held.map (·.words)) (s, (s.slot n).rec_)
  rw [List.length_map] at hs hc
  refine ⟨_, hs, _, ?_, hc⟩
  unfold State.sendHeld
  rw [h]

/-- The last record that leaves is the one that was held last. -/
theorem sendHeld_last {l : List CRec} {w0 : Word} {ws : List Word} {at_ : Nat} (h : s.slotOf q = some n)
    (hl : (s.slot n).held = l ++ [⟨w0 :: ws, at_⟩]) : ∃ qp rkey a ws',
    (s.sendHeld q).io.out.getLast? = some (.completion q qp rkey a (w0 :: ws')) := by
  unfold State.sendHeld
  rw [h]
  dsimp only
  rw [hl, List.map_append, List.foldl_append]
  obtain ⟨qp, rkey, a, ws', he⟩ := sendRecord_emits q ((l.map (·.words)).foldl (sendRecord q) (s, (s.slot n).rec_)) w0 ws
  refine ⟨qp, rkey, a, ws', ?_⟩
  show (((sendRecord q _ _).1.setSlot n _).io.out).getLast? = _
  rw [he]
  simp [State.setSlot, State.emit]

/-! ### A command that completes -/

/-- The records of a queue that a slot holds after one more is created: it is held, or all of them leave with it. -/
theorem createRecord_sent {w0 : Word} {ws : List Word} {now : Bool} (h : s.slotOf q = some n) (hq : (s.slot n).queue = some q)
    (hnow : now = true ∨ 32 ≤ (s.slot n).held.length + 1) :
    ∃ io, s.createRecord q (w0 :: ws) now = { s with io } ∧
      let t := s.createRecord q (w0 :: ws) now
      let k := (s.slot n).held.length + 1
      (t.slot n).held = [] ∧ Spec.sentAll s t q k ∧ Spec.ctail (t.slot n).rec_ = (Spec.ctail (s.slot n).rec_ + k) % 2 ^ 32 ∧
        (t.slot n).execs = (s.slot n).execs ∧ (t.slot n).queue = some q ∧ (∀ m, m ≠ n → t.slot m = s.slot m) ∧
        ∃ qp rkey a ws', t.io.out.getLast? = some (.completion q qp rkey a (w0 :: ws')) := by
  have hso := slotOf_setSlot (x := { s.slot n with held := (s.slot n).held ++ [⟨w0 :: ws, s.basin⟩] }) h hq
  have hcr : s.createRecord q (w0 :: ws) now =
      (s.setSlot n { s.slot n with held := (s.slot n).held ++ [⟨w0 :: ws, s.basin⟩] }).sendHeld q := by
    unfold State.createRecord
    rw [h]
    dsimp only
    rw [if_pos]
    · rfl
    · simpa using hnow
  have hlast := sendHeld_last (l := (s.slot n).held) (w0 := w0) (ws := ws) (at_ := s.basin) hso (by simp)
  obtain ⟨u, ⟨ms, hu, hlen, hms⟩, r, hsend, hc⟩ := sendHeld_eq hso
  rw [hcr]
  dsimp only
  rw [State.slot_setSlot, if_pos rfl] at hsend hlen hc
  rw [List.length_append] at hlen hc
  refine ⟨_, by rw [hsend, hu]; rfl, ?_, ?_, ?_, ?_, ?_, ?_, hlast⟩
  · rw [hsend]; simp
  · rw [hsend, hu]; exact ⟨ms, rfl, hlen, hms⟩
  · rw [hsend, State.slot_setSlot, if_pos rfl]; exact hc
  · rw [hsend]; simp
  · rw [hsend]; simpa using hq
  · intro m hm
    rw [hsend, State.slot_setSlot, if_neg hm.symm, hu]
    exact (State.slot_setSlot ..).trans (if_neg hm.symm)

theorem createRecord_held {ws : List Word} {now : Bool} (h : s.slotOf q = some n) (hnow : now = false)
    (hk : (s.slot n).held.length + 1 < 32) : s.createRecord q ws now =
      s.setSlot n { s.slot n with held := (s.slot n).held ++ [⟨ws, s.basin⟩] } := by
  unfold State.createRecord
  rw [h]
  dsimp only
  rw [if_neg]
  · rfl
  · simp [hnow]; omega

/-- A slot whose command has left execution. -/
def HwSlot.without (x : HwSlot) (c : Cmd) : HwSlot := { x with execs := x.execs.filter fun e => e.idx != c.idx }

/-- The command of the queue in slot `n` has left execution: the state before its record is created. -/
def State.leftExecution (s : State) (q n : Nat) (c : Cmd) : State :=
  let u := s.setSlot n ((s.slot n).without c)
  { u with io := { u.io with copies := u.io.copies.filter fun x => !(x.queue == q && x.idx == c.idx) } }

theorem leftExecution_slot (s : State) (q n m : Nat) (c : Cmd) : (s.leftExecution q n c).slot m =
    if n = m then (s.slot n).without c else s.slot m := State.slot_setSlot ..

theorem leftExecution_slotOf (h : s.slotOf q = some n) (hq : (s.slot n).queue = some q) (c : Cmd) :
    (s.leftExecution q n c).slotOf q = some n :=
  slotOf_setSlot (x := (s.slot n).without c) h hq

theorem complete_eq (h : s.slotOf q = some n) (c : Cmd) (status : Nat) (i : CInfo) : s.complete q c status i =
    let u := s.leftExecution q n c
    if status ≠ 0 ∨ c.cmpl = true then
      u.createRecord q (recordOf c status (u.queueRec q).head i.pstat (natOfBool i.mdeliv) i.replays u.basin i.aux)
        (status ≠ 0 || c.cimm)
    else u := by
  unfold State.complete
  rw [h]
  rfl

theorem cmplOf_eq (c : Cmd) : Spec.cmplOf c = c.cmpl := by
  rw [Spec.cmplOf, Cmd.cmpl, Cmd.word, bitOf_eq_testBit]; rfl

theorem cimmOf_eq (c : Cmd) : Spec.cimmOf c = c.cimm := by
  rw [Spec.cimmOf, Cmd.cimm, Cmd.word, bitOf_eq_testBit]; rfl

/-- A completion changes the host's side alone, and is recorded as R350 and R351 have it. -/
theorem complete_recorded (h : s.slotOf q = some n) (hq : (s.slot n).queue = some q) (c : Cmd) {status : Nat}
    (hst : status < 256) (i : CInfo) :
    (∃ io, s.complete q c status i = { s with io }) ∧ Spec.recorded s (s.complete q c status i) n q c status := by
  have hu := leftExecution_slotOf h hq c
  have hslot := leftExecution_slot s q n n c
  rw [if_pos rfl] at hslot
  have huq : ((s.leftExecution q n c).slot n).queue = some q := by rw [hslot]; exact hq
  have hother (m : Nat) (hm : m ≠ n) : (s.leftExecution q n c).slot m = s.slot m := by
    rw [leftExecution_slot, if_neg hm.symm]
  rw [complete_eq h]
  obtain ⟨w0, ws, hrec, hw, hstat⟩ := recordOf_word c hst ((s.leftExecution q n c).queueRec q).head i.pstat
    (natOfBool i.mdeliv) i.replays (s.leftExecution q n c).basin i.aux
  unfold Spec.recorded
  dsimp only
  rw [cmplOf_eq, cimmOf_eq, hrec]
  by_cases h0 : status ≠ 0 ∨ c.cmpl = true
  · have hnot : ¬ (status = 0 ∧ c.cmpl = false) := by simpa [Classical.or_iff_not_imp_left] using h0
    rw [if_pos h0, if_neg hnot]
    by_cases hkeep : status = 0 ∧ c.cimm = false ∧ (s.slot n).held.length + 1 < 32
    · obtain ⟨hz, hci, hk⟩ := hkeep
      rw [if_pos ⟨hz, hci, hk⟩, createRecord_held hu (by simp [hz, hci]) (by rw [hslot]; exact hk)]
      simp only [State.slot_setSlot, if_pos, hslot]
      exact ⟨⟨_, rfl⟩, rfl, hq, ⟨rfl, w0, ws, rfl, hw⟩, fun m hm => by rw [if_neg hm.symm, hother m hm]⟩
    · rw [if_neg hkeep]
      have hnow : (decide (status ≠ 0) || c.cimm) = true ∨ 32 ≤ ((s.leftExecution q n c).slot n).held.length + 1 := by
        rw [hslot, show ((s.slot n).without c).held = (s.slot n).held from rfl]
        by_contra hc
        rw [not_or, Bool.not_eq_true, Bool.or_eq_false_iff, decide_eq_false_iff_not, not_not] at hc
        exact hkeep ⟨hc.1.1, hc.1.2, by omega⟩
      obtain ⟨io, hio, hheld, hsent, hct, hex, hqn, hoth, qp, rkey, a, ws', hlast⟩ :=
        createRecord_sent (w0 := w0) (ws := ws) hu huq hnow
      rw [hslot] at hex hct hsent
      refine ⟨⟨io, hio⟩, hex, hqn, ⟨hheld, hsent, ⟨qp, rkey, a, w0, ws', hlast, hstat⟩, hct⟩, fun m hm => ?_⟩
      rw [hoth m hm, hother m hm]
  · have hyes : status = 0 ∧ c.cmpl = false := by simpa using h0
    rw [if_neg h0, if_pos hyes, hslot]
    exact ⟨⟨_, rfl⟩, rfl, hq, ⟨rfl, rfl⟩, hother⟩

end Sys2Proof.Machine
end

section
/-! How a run of a launch ends or is taken up again (R41, R44, R53, R54, R57, R306): what the end of a domain leaves, the kill,
the retirement and the replay. -/

open Sys2Proof Sys2Proof.Machine

namespace Sys2Proof.Machine

variable {s t u : State}

/-! ### What a record is about -/

/-- The slots, the messages and the basin count stand. -/
def HostKept (s t : State) : Prop := (∀ m, t.slot m = s.slot m) ∧ t.io.out = s.io.out ∧ t.basin = s.basin

theorem HostKept.trans (h : HostKept s t) (k : HostKept t u) : HostKept s u := by
  obtain ⟨h1, h2, h3⟩ := h
  obtain ⟨k1, k2, k3⟩ := k
  exact ⟨fun m => (k1 m).trans (h1 m), k2.trans h2, k3.trans h3⟩

theorem HostKept.of_io (h : t.io = s.io) (hb : t.basin = s.basin) : HostKept s t :=
  ⟨fun m => by rw [State.slot, State.slot, h], by rw [h], hb⟩

/-- A record stands where the host's side goes on unchanged. -/
theorem recorded_of_after {n q st : Nat} {c : Cmd} (h : Spec.recorded s t n q c st) (k : HostKept t u) :
    Spec.recorded s u n q c st := by
  obtain ⟨hs, ho, -⟩ := k
  unfold Spec.recorded Spec.sentAll Spec.lastStatus at *
  simp only [hs, ho]
  exact h

theorem recorded_of_before {n q st : Nat} {c : Cmd} (k : HostKept s t) (h : Spec.recorded t u n q c st) :
    Spec.recorded s u n q c st := by
  obtain ⟨hs, ho, hb⟩ := k
  unfold Spec.recorded Spec.sentAll at *
  simp only [hs, ho, hb] at h
  exact h

/-! ### The end of a domain -/

/-- The cores of a domain that are still its own, by number. -/
def ownNumbers (s : State) (id : Nat) (d : Domain) : List Nat := (Spec.ownCores s id d).map Prod.fst

theorem ownNumbers_congr (h : ∀ c, (t.core c).dom = (s.core c).dom) (id : Nat) (d : Domain) :
    ownNumbers t id d = ownNumbers s id d := by
  unfold ownNumbers Spec.ownCores
  simp only [h]

theorem flushOwn_eq (s : State) (id : Nat) (d : Domain) :
    s.flushOwn id d = (ownNumbers s id d).foldl (fun s c => s.flushL1 c true) s := by
  rw [ownNumbers, List.foldl_map]; rfl

/-- The run of a domain is stopped, its lines are written back and its frames returned: its state before its cores are
cleared. -/
def State.released (s : State) (id : Nat) (d : Domain) : State := ((s.stopRun id d).flushOwn id d).returnFrames id d

theorem flushOwn_frame (s : State) (id : Nat) (d : Domain) :
    FlushFrame (ownNumbers s id d) (s.stopRun id d) ((s.stopRun id d).flushOwn id d) := by
  rw [flushOwn_eq, ownNumbers_congr (s := s) (fun _ => rfl)]
  exact flushAll_flush _ _

/-- What the release leaves: the cores but for their write-backs, no request and no binding of the domain, and the frames of
its bindings in the pool. -/
structure Released (s t : State) (id : Nat) (d : Domain) : Prop where
  host : t.io = s.io ∧ t.basin = s.basin ∧ t.cur = s.cur ∧ t.moduleId = s.moduleId
  core : ∀ c, (s.core c).WrittenBack (t.core c)
  l1 : ∀ c ∈ ownNumbers s id d, (t.core c).cc.l1 = []
  dom : ∀ j e, s.dom j = some e → ∃ e', t.dom j = some e' ∧ e.Noted e'
  reqs : ∀ r ∈ t.mem.reqs, r.dom ≠ some id
  binds : ∀ b ∈ t.mem.bindings, b.dom ≠ id
  frames : d.part < 4 → ∀ b ∈ s.mem.bindings, b.dom = id → (b.stack, b.frame) ∈ (t.part d.part).shadow
  hbm : (∀ c, (s.core c).cc.l1 = []) → t.mem.hbm = s.mem.hbm ∧ ∀ c, (t.core c).cc.l1 = []

theorem flushOwn_l1 (s : State) (id : Nat) (d : Domain) {c : Nat} (hc : c ∈ ownNumbers s id d) :
    (((s.stopRun id d).flushOwn id d).core c).cc.l1 = [] := by
  rw [flushOwn_eq]
  exact flushAll_l1 _ hc

theorem flushOwn_mem {id : Nat} {d : Domain} (h : ∀ c, (s.core c).cc.l1 = []) :
    ((s.stopRun id d).flushOwn id d).mem = (s.stopRun id d).mem := by
  rw [flushOwn_eq]
  exact flushAll_of_nil h

theorem released_spec (s : State) (id : Nat) (d : Domain) : Released s (s.released id d) id d := by
  have hf := flushOwn_frame s id d
  have hl (c : Nat) (hc : c ∈ ownNumbers s id d) : ((s.released id d).core c).cc.l1 = [] := flushOwn_l1 s id d hc
  refine ⟨?_, hf.core, hl, hf.dom, fun r hr => ?_, fun b hb => ?_, fun hp b hb hid => ?_, fun h => ⟨?_, fun c => ?_⟩⟩
  · unfold State.released State.returnFrames
    rw [hf.frame]
    exact ⟨rfl, rfl, rfl, rfl⟩
  · have hr' : r ∈ ((s.stopRun id d).flushOwn id d).mem.reqs := hr
    rw [hf.held.reqs] at hr'
    simpa using (List.mem_filter.1 hr').2
  · simpa using (List.mem_filter.1 hb).2
  · obtain ⟨copied, hc⟩ := hf.held.binds b hb
    have hpart : (s.released id d).part d.part =
        (((s.stopRun id d).flushOwn id d).modPart d.part fun t => { t with shadow := t.shadow ++
          (((s.stopRun id d).flushOwn id d).mem.bindings.filter fun b => b.dom == id).map fun b => (b.stack, b.frame) }).part
          d.part := rfl
    rw [hpart, State.part_modPart _ _ _ _ hp, if_pos rfl]
    refine List.mem_append_right _ (List.mem_map.2 ⟨_, List.mem_filter.2 ⟨hc, ?_⟩, rfl⟩)
    simpa using hid
  · show ((s.stopRun id d).flushOwn id d).mem.hbm = (s.stopRun id d).mem.hbm
    rw [flushOwn_mem h]
  · by_cases hc : c ∈ ownNumbers s id d
    · exact hl c hc
    · exact (hf.l1 c hc).trans (h c)

/-! ### The end of a domain -/

/-- What the end of a domain gives up beside its run, and its clears: the state but for the domain's own record. -/
def State.givenUp (s : State) (id : Nat) (d : Domain) : State :=
  (ownNumbers s id d).foldl (fun s c => s.clearCore c true) ((((s.released id d).unpin id).dropRes d.resRegs))

theorem endDomain_eq (s : State) (id : Nat) (d : Domain) (killAt : Option Nat) : ∃ io, io.slots = s.io.slots ∧
    io.out = s.io.out ∧ s.endDomain id d killAt = (({ s.givenUp id d with io } : State).modDom id fun d =>
      { d with phase := .ended, killAt, leases := [], linkLeases := [], seqLeases := [], pins := [], resRegs := [], saved := []
               later := [], heldReqs := [] }).tableWrite := by
  have hr := released_spec s id d
  have hio : (s.givenUp id d).io = s.io := by
    rw [State.givenUp, (ClearFrame.foldl (fun s c => s.clearCore_frame c true) _ _).frame]
    exact hr.host.1
  have hown : ((d.cores.filter fun k => ((((s.released id d).unpin id).dropRes d.resRegs).core k.1).dom == some id).foldl
      (fun s k => s.clearCore k.1 true) (((s.released id d).unpin id).dropRes d.resRegs)) = s.givenUp id d := by
    have hd (c : Nat) : ((((s.released id d).unpin id).dropRes d.resRegs).core c).dom = (s.core c).dom := by
      have := hr.core c
      rw [show (((s.released id d).unpin id).dropRes d.resRegs).core c = (s.released id d).core c from rfl, this]
    rw [State.givenUp, ownNumbers, Spec.ownCores, List.foldl_map]
    simp only [hd]
  unfold State.endDomain
  dsimp only
  rw [show ((s.stopRun id d).flushOwn id d).returnFrames id d = s.released id d from rfl, hown]
  split
  · exact ⟨_, by rw [hio], by rw [hio], rfl⟩
  · exact ⟨s.io, rfl, rfl, by rw [← hio]⟩

/-- The state of a domain that has given up its run and its pins, before its cores are cleared. -/
def State.unpinned (s : State) (id : Nat) (d : Domain) : State := ((s.released id d).unpin id).dropRes d.resRegs

theorem givenUp_frame (s : State) (id : Nat) (d : Domain) :
    ClearFrame (ownNumbers s id d) none (s.unpinned id d) (s.givenUp id d) :=
  .foldl (fun s c => s.clearCore_frame c true) _ _

/-- The lines of the cores are gone, so that their clears write nothing. -/
theorem givenUp_sameStore (s : State) (id : Nat) (d : Domain) : SameStore (s.unpinned id d) (s.givenUp id d) :=
  ClearFrame.foldl_sameStore (dom := none) (fun s c => s.clearCore_frame c true)
    (fun _ _ h => State.clearCore_sameStore h true) _ _ (released_spec s id d).l1

/-- The end of a domain: it has ended and holds nothing, its cores are cleared and free, its frames are back, and the host's
side stands. -/
theorem endDomain_spec {id : Nat} {d0 : Domain} (h0 : s.dom id = some d0) (d : Domain) (killAt : Option Nat) :
    let t := s.endDomain id d killAt
    Spec.atEnd t id ∧ Spec.allCleared s t (Spec.ownCores s id d) none ∧ Spec.framesBack s t id d.part ∧ HostKept s t := by
  obtain ⟨io, hslots, hout, he⟩ := endDomain_eq s id d killAt
  obtain ⟨hhost, hcore, -, hdom, hreqs, hbinds, hframes, hhbm⟩ := released_spec s id d
  have hg := givenUp_frame s id d
  obtain ⟨hm, hd, hp⟩ := givenUp_sameStore s id d
  obtain ⟨d', hd', -⟩ := hdom id d0 h0
  have hgd : ({ s.givenUp id d with io } : State).dom id = some d' := by
    rw [← hd', State.dom]
    exact congrArg (sget · id) hd
  have hbasin : (s.givenUp id d).basin = s.basin := by rw [hg.frame]; exact hhost.2.1
  dsimp only
  rw [he, State.modDom_of_some _ hgd]
  refine ⟨⟨⟨_, (State.dom_setDom ..).trans (if_pos rfl), rfl, rfl, rfl⟩, fun r hr => ?_, fun b hb => ?_, fun e he => ?_⟩, fun k hk => ?_, ⟨fun hpart b hb hid => ?_, fun hl => ?_⟩,
    fun m => ?_, hout, hbasin⟩
  · exact hreqs r (show r ∈ (s.unpinned id d).mem.reqs from hm ▸ hr)
  · exact hbinds b (show b ∈ (s.unpinned id d).mem.bindings from hm ▸ hb)
  · obtain ⟨x, -, rfl⟩ := List.mem_map.1 (show e ∈ (s.unpinned id d).mem.tlb from hm ▸ he)
    simp
  · have hmem : k.1 ∈ ownNumbers s id d := List.mem_map.2 ⟨k, hk, rfl⟩
    obtain ⟨hc, hn⟩ := hg.cleared k.1 hmem
    exact ⟨clearedCore_of_before (hcore k.1) hc, hn⟩
  · have := hframes hpart b hb hid
    have hpe : (s.givenUp id d).part d.part = (s.released id d).part d.part := by
      rw [State.part, hp]; rfl
    rw [← hpe] at this
    exact this
  · exact (congrArg Mem.hbm hm).trans (hhbm hl).1
  · show (sget io.slots m).getD HwSlot.reset = _
    rw [hslots]; rfl

/-! ### The completion of a launch -/

/-- The host's side changes, and else what an event may. -/
def HostFrame (s t : State) : Prop := ∃ io, EventFrame False { s with io } t

theorem EventFrame.withIo {F : Prop} (h : EventFrame F s t) (io : Io) : EventFrame F { s with io } { t with io } := by
  obtain ⟨hf, hc, hd, hr, hb, hk, hs⟩ := h
  exact ⟨by rw [hf], hc, hd, hr, hb, hk, hs⟩

theorem HostFrame.of_io (s : State) (io : Io) : HostFrame s { s with io } := ⟨io, .refl _⟩

theorem HostFrame.trans (h : HostFrame s t) (k : HostFrame t u) : HostFrame s u := by
  obtain ⟨_, h⟩ := h
  obtain ⟨io, k⟩ := k
  exact ⟨io, (h.withIo io).trans k⟩

theorem storeRec_hostFrame (s : State) (p q : Nat) (r : QRec) : HostFrame s (s.storeRec p q r) :=
  ⟨s.io, .of_store (s.iaStore_storeOnly ..) (s.iaStore_heldKept ..)⟩

theorem setQueueRec_hostFrame (s : State) (q : Nat) (r : QRec) : HostFrame s (s.setQueueRec q r) := by
  unfold State.setQueueRec
  split
  · exact .of_io s _
  · split
    · exact storeRec_hostFrame ..
    · exact .of_io s s.io

theorem sendHeld_hostFrame (s : State) (q : Nat) : HostFrame s (s.sendHeld q) := by
  unfold State.sendHeld
  split
  · exact .of_io s s.io
  · obtain ⟨⟨_, ht, -, -⟩, -⟩ := sendRecord_foldl q ((s.slot _).held.map (·.words)) (s, (s.slot _).rec_)
    dsimp only
    rw [ht]
    exact .of_io s _

theorem createRecord_hostFrame (s : State) (q : Nat) (ws : List Word) (now : Bool) :
    HostFrame s (s.createRecord q ws now) := by
  cases h : s.slotOf q with
  | none =>
    unfold State.createRecord
    rw [h]
    obtain ⟨qp, rkey, addr, ws', he⟩ := sendRecord_message q (s, s.queueRec q) ws
    refine HostFrame.trans (t := (sendRecord q (s, s.queueRec q) ws).1) ?_ (setQueueRec_hostFrame ..)
    rw [he]
    exact .of_io s _
  | some n =>
    unfold State.createRecord
    rw [h]
    dsimp only
    split
    · exact HostFrame.trans (.of_io s _) (sendHeld_hostFrame ..)
    · exact .of_io s _

/-- A completion, mapped or not, changes the host's side and what an event may. -/
theorem complete_hostFrame (s : State) (q : Nat) (c : Cmd) (status : Nat) (i : CInfo) : HostFrame s (s.complete q c status i) := by
  unfold State.complete
  have h0 : HostFrame s (match s.slotOf q with
      | some n => s.modSlot n fun x => { x with execs := x.execs.filter (fun e => e.idx != c.idx) }
      | none => s) := by
    split
    · exact .of_io s _
    · exact .of_io s s.io
  dsimp only
  split
  · exact (h0.trans (.of_io _ _)).trans (createRecord_hostFrame ..)
  · exact h0.trans (.of_io _ _)

end Sys2Proof.Machine
end

section
/-! The kill and the retirement of a launch (R41, R44, R45, R305, R306). -/

open Sys2Proof Sys2Proof.Machine

namespace Sys2Proof.Machine

variable {s t u : State}

/-! ### The kill -/

theorem Core.Noted.writtenBack {k k' : Core} (h : k.Noted False k') : k.WrittenBack k' := by
  obtain ⟨he, hf⟩ := h
  unfold Core.WrittenBack
  rw [he, hf id]

theorem HostFrame.writtenBack (h : HostFrame s t) (c : Nat) : (s.core c).WrittenBack (t.core c) := by
  obtain ⟨io, h⟩ := h
  exact (h.core c).writtenBack

theorem HostFrame.dom {id : Nat} {d : Domain} (h : HostFrame s t) (hd : s.dom id = some d) : ∃ d', t.dom id = some d' ∧ d.Noted d' := by
  obtain ⟨io, h⟩ := h
  exact h.dom id d hd

theorem HostFrame.of_event (h : EventFrame False s t) : HostFrame s t := ⟨s.io, h⟩

theorem Core.WrittenBack.dom {k k' : Core} (h : k.WrittenBack k') : k'.dom = k.dom := by rw [h]

theorem ownCores_congr (h : ∀ c, (t.core c).dom = (s.core c).dom) (id : Nat) (d : Domain) :
    Spec.ownCores t id d = Spec.ownCores s id d := by
  unfold Spec.ownCores
  simp only [h]

/-- The cores that a later state's domain clears are cleared from what they were. -/
theorem allCleared_of_before {id : Nat} {d : Domain} (h : ∀ c, (s.core c).WrittenBack (t.core c))
    (hc : Spec.allCleared t u (Spec.ownCores t id d) none) : Spec.allCleared s u (Spec.ownCores s id d) none := by
  rw [ownCores_congr fun c => (h c).dom] at hc
  exact fun k hk => ⟨clearedCore_of_before (h k.1) (hc k hk).1, (hc k hk).2⟩

/-- The state in which a killed launch completes: a kill by policy has written its record. -/
def State.killRecorded (s : State) (d : Domain) (status : Nat) : State :=
  if status = 9 then
    let e : Ev := { cause := s.drawFree.2.setWidth 8, subcause := 0, engine := 10, slot := 15, pc := 0, faddr := 0, tcode := 0
                    issue := 0, tengine := 0, duesc := 0, body := 0, words := [] }
    (s.drawFree.1.writeRecord d.part 0 (some d) e 5 d.resp.isSome).sendNotices d 5 e.cause 0
  else s

theorem killRecorded_frame (s : State) (d : Domain) (status : Nat) : EventFrame False s (s.killRecorded d status) := by
  unfold State.killRecorded
  have h0 : EventFrame False s s.drawFree.1 := .of_memOnly rfl (.of_eq rfl rfl rfl)
  exact .ite ((h0.writeRecord ..).sendNotices ..) (.refl s)

theorem kill_eq {id : Nat} {d : Domain} (hd : s.dom id = some d) (hp : d.phase ≠ .ended) (status : Nat) :
    s.kill id status = ((s.killRecorded d status).completeLaunch d status).endDomain id d
      (some (s.killRecorded d status).basin) := by
  unfold State.kill
  rw [hd]
  dsimp only
  rw [if_neg hp]
  rfl

theorem completeLaunch_hostFrame (s : State) (d : Domain) (status : Nat) : HostFrame s (s.completeLaunch d status) :=
  complete_hostFrame ..

/-- A killed launch has ended, and its cores are cleared and free. -/
theorem kill_ends {id : Nat} {d : Domain} (hd : s.dom id = some d) (hp : d.phase ≠ .ended) (status : Nat) :
    Spec.atEnd (s.kill id status) id ∧ Spec.allCleared s (s.kill id status) (Spec.ownCores s id d) none := by
  have hf := (HostFrame.of_event (killRecorded_frame s d status)).trans (completeLaunch_hostFrame _ d status)
  obtain ⟨d', hd', -⟩ := hf.dom hd
  obtain ⟨hend, hcl, -⟩ := endDomain_spec hd' d (some (s.killRecorded d status).basin)
  rw [kill_eq hd hp]
  exact ⟨hend, allCleared_of_before hf.writtenBack hcl⟩

/-- The completion of a launch whose command a slot runs. -/
theorem completeLaunch_recorded {n status : Nat} {d : Domain} {c : Cmd} (h : Spec.runs s n d c) (hst : status < 256) :
    (∃ io, s.completeLaunch d status = { s with io }) ∧ Spec.recorded s (s.completeLaunch d status) n d.queue c status := by
  obtain ⟨⟨hslot, hq, -, hex⟩, hidx⟩ := h
  rw [hidx] at hex
  unfold State.completeLaunch
  rw [hex]
  exact complete_recorded hslot hq c hst _

/-- A launch that is not killed by policy writes no record of its own, and switches no block. -/
theorem kill_recorded {id n status : Nat} {d : Domain} {c : Cmd} (hd : s.dom id = some d) (hp : d.phase ≠ .ended)
    (h : Spec.runs s n d c) (hst : status < 256) (h9 : status ≠ 9) :
    Spec.recorded s (s.kill id status) n d.queue c status ∧ Spec.framesBack s (s.kill id status) id d.part := by
  have hk : s.killRecorded d status = s := if_neg h9
  obtain ⟨⟨io, hio⟩, hrec⟩ := completeLaunch_recorded h hst
  rw [kill_eq hd hp, hk]
  obtain ⟨-, -, hframes, hkept⟩ := endDomain_spec (s := s.completeLaunch d status) (by rw [hio]; exact hd) d (some s.basin)
  refine ⟨recorded_of_after hrec hkept, ?_⟩
  rw [hio] at hframes ⊢
  exact hframes

/-! ### The commit of shadow pages and the retirement -/

/-- Memory, the count of free values and the partitions change. -/
def PoolsOnly (s t : State) : Prop := t = { s with mem := t.mem, freeCount := t.freeCount, parts := t.parts }

theorem PoolsOnly.of_memOnly (h : MemOnly s t) : PoolsOnly s t := by
  unfold MemOnly PoolsOnly at *
  rw [h]

theorem PoolsOnly.refl (s : State) : PoolsOnly s s := rfl

theorem PoolsOnly.trans (h : PoolsOnly s t) (k : PoolsOnly t u) : PoolsOnly s u := by
  unfold PoolsOnly at *
  rw [k, h]

theorem PoolsOnly.foldl {α : Type} {f : State → α → State} (hf : ∀ s x, PoolsOnly s (f s x)) (l : List α) (s : State) :
    PoolsOnly s (l.foldl f s) := by
  induction l generalizing s with
  | nil => exact .refl s
  | cons x l ih => exact (hf s x).trans (ih _)

theorem PoolsOnly.modPart (h : PoolsOnly s t) (p : Nat) (f : Part → Part) : PoolsOnly s (t.modPart p f) :=
  h.trans rfl

theorem State.copyShadow_memOnly (s : State) (b : Binding) (sector : Nat) : MemOnly s (s.copyShadow b sector) := by
  unfold State.copyShadow
  refine .ite (.refl s) ?_
  dsimp only
  split
  · exact .refl s
  · exact .setMem (.setMem (s.decodeAt_memOnly ..) _) _

theorem State.switchBlock_poolsOnly (s : State) (b : Binding) : PoolsOnly s (s.switchBlock b) := by
  unfold State.switchBlock
  dsimp only
  split
  · exact .modPart (.of_memOnly (.setMem (.of_mem s _) _)) ..
  · split
    · exact .of_memOnly (.of_mem s _)
    · exact .modPart (.of_memOnly (.trans (.of_mem s _) (.foldl (fun s i => .of_mem s _) _ _))) ..

theorem State.commitShadow_poolsOnly (s : State) (id : Nat) : PoolsOnly s (s.commitShadow id) := by
  unfold State.commitShadow
  dsimp only
  refine PoolsOnly.trans (.trans (.of_memOnly (.foldl (fun s b => .foldl (fun s i => ?_) _ s) _ s))
    (.foldl (fun s b => s.switchBlock_poolsOnly b) _ _)) (.of_memOnly (.of_mem _ _))
  split
  · exact s.copyShadow_memOnly ..
  · exact .refl s

/-- The cores of a launch have written their lines back. -/
def State.flushDomain (s : State) (d : Domain) : State := d.cores.foldl (fun s k => s.flushL1 k.1 true) s

theorem flushDomain_flush (s : State) (d : Domain) : FlushFrame (d.cores.map Prod.fst) s (s.flushDomain d) := by
  have h := flushAll_flush (d.cores.map Prod.fst) s
  rwa [List.foldl_map] at h

/-- A launch that may retire, and whose last write-backs meet no event, completes with status 0 and ends. -/
theorem retire_eq {id : Nat} {d : Domain} (hd : s.dom id = some d) (hr : s.retireReady id d = true) (hf : Spec.flushes s id d) :
    ∃ u e, PoolsOnly (s.flushDomain d) u ∧ u.dom id = some e ∧ d.Noted e ∧
      s.retire id = (u.completeLaunch e 0).endDomain id e none := by
  obtain ⟨e, he, hresp, hphase⟩ := hf
  have hflush := flushDomain_flush s d
  have hpool := (s.flushDomain d).commitShadow_poolsOnly id
  obtain ⟨e', he', hn⟩ := hflush.dom id d hd
  obtain rfl : e' = e := Option.some.inj (he'.symm.trans he)
  have hu : ((s.flushDomain d).commitShadow id).dom id = some e' := by rw [hpool]; exact he
  refine ⟨_, e', hpool, hu, hn, ?_⟩
  have hor : ¬ (e'.resp ≠ d.resp ∨ e'.phase ≠ d.phase) := by simp [hresp, hphase]
  unfold State.retire
  rw [hd]
  dsimp only
  rw [if_pos hr, he]
  dsimp only
  rw [if_neg hor]
  have := hu
  unfold State.flushDomain at this
  rw [this]
  rfl

theorem retire_ends {id : Nat} {d : Domain} (hd : s.dom id = some d) (hr : s.retireReady id d = true) (hf : Spec.flushes s id d) :
    Spec.atEnd (s.retire id) id ∧ Spec.allCleared s (s.retire id) (Spec.ownCores s id d) none := by
  obtain ⟨u, e, hu, hd, hn, he⟩ := retire_eq hd hr hf
  have hc := completeLaunch_hostFrame u e 0
  obtain ⟨e', he', -⟩ := hc.dom hd
  obtain ⟨hend, hcl, -⟩ := endDomain_spec he' e none
  have hcore (c : Nat) : (s.core c).WrittenBack ((u.completeLaunch e 0).core c) := by
    refine .trans ?_ (hc.writtenBack c)
    rw [hu]
    exact (flushDomain_flush s d).core c
  have hcores : e.cores = d.cores := by rw [hn]
  rw [Spec.ownCores, hcores] at hcl
  rw [he]
  exact ⟨hend, allCleared_of_before hcore hcl⟩

theorem retire_recorded {id n : Nat} {d : Domain} {c : Cmd} (hd : s.dom id = some d) (hr : s.retireReady id d = true)
    (hf : Spec.flushes s id d) (h : Spec.runs s n d c) : Spec.recorded s (s.retire id) n d.queue c 0 := by
  obtain ⟨u, e, hu, hd, hn, he⟩ := retire_eq hd hr hf
  have hio : u.io = s.io ∧ u.basin = s.basin := by
    rw [hu, (flushDomain_flush s d).frame]
    exact ⟨rfl, rfl⟩
  have hq : e.queue = d.queue ∧ e.cmdidx = d.cmdidx := by rw [hn]; exact ⟨rfl, rfl⟩
  have hruns : Spec.runs u n e c := by
    obtain ⟨⟨hslot, hsq, hop, hex⟩, hidx⟩ := h
    unfold Spec.runs Spec.executing State.execOf State.slotOf State.slot at *
    rw [hio.1, hq.1, hq.2]
    exact ⟨⟨hslot, hsq, hop, hex⟩, hidx⟩
  obtain ⟨⟨io, hio'⟩, hrec⟩ := completeLaunch_recorded (status := 0) hruns (by decide)
  obtain ⟨-, -, -, hkept⟩ := endDomain_spec (s := u.completeLaunch e 0) (by rw [hio']; exact hd) e none
  rw [he, ← hq.1]
  exact recorded_of_after (recorded_of_before (.of_io hio.1 hio.2) hrec) hkept

end Sys2Proof.Machine
end

section
/-! The replay of a launch (R45, R53 to R57): its run ends as at a kill, and its cores are cleared for the next one. -/

open Sys2Proof Sys2Proof.Machine

namespace Sys2Proof.Machine

variable {s t u : State}

/-! ### A core for the next run -/

/-- The core is cleared, unless its clear is under way, and belongs to the domain. -/
def State.rearmCore (s : State) (id c : Nat) : State :=
  (if (s.core c).clearing then s else s.clearCore c false).modCore c fun x => { x with dom := some id }

/-- A core that is at reset, in its clear, or without lines stays so. -/
structure Core.Rearmed (k k' : Core) : Prop where
  be : k.be = Be.reset → k'.be = Be.reset
  spad : k.eng.spad = [] → k'.eng.spad = []
  clearing : k.clearing = true → k'.clearing = true
  l1 : k.cc.l1 = [] → k'.cc.l1 = []

theorem Core.Rearmed.refl (k : Core) : k.Rearmed k := ⟨id, id, id, id⟩

theorem Core.Rearmed.trans {k k' k'' : Core} (h : k.Rearmed k') (h' : k'.Rearmed k'') : k.Rearmed k'' :=
  ⟨h'.be ∘ h.be, h'.spad ∘ h.spad, h'.clearing ∘ h.clearing, h'.l1 ∘ h.l1⟩

theorem Core.Rearmed.of_cleared {k k' : Core} (h : Spec.clearedCore k k') : k.Rearmed k' := by
  obtain ⟨hbe, -, -, -, -, hl1, -, -, hspad, -, -, -, -, -, -, -, -, -, -, hcl, -⟩ := h
  exact ⟨fun _ => hbe, fun _ => hspad, fun _ => hcl, fun _ => hl1⟩

theorem Core.Rearmed.of_writtenBack {k k' : Core} (h : k.WrittenBack k') (hl : k'.cc.l1 = k.cc.l1) : k.Rearmed k' := by
  refine ⟨?_, ?_, ?_, fun h0 => hl.trans h0⟩ <;> rw [h] <;> exact id

/-- What the clears for the next run may change. -/
structure RearmFrame (cs : List Nat) (id : Nat) (s t : State) : Prop where
  core : ∀ c, (s.core c).Rearmed (t.core c)
  given : ∀ c ∈ cs, (t.core c).dom = some id ∧ (t.core c).clearing = true
  other : ∀ c, c ∉ cs → (t.core c).dom = (s.core c).dom
  held : HeldKept s t
  store : (∀ c, (s.core c).cc.l1 = []) → SameStore s t

theorem ClearFrame.rearmed {cs : List Nat} {dom : Option Nat} (h : ClearFrame cs dom s t) (c : Nat) :
    (s.core c).Rearmed (t.core c) := by
  by_cases hc : c ∈ cs
  · exact .of_cleared (h.cleared c hc).1
  · exact .of_writtenBack (h.other c hc).1 (h.other c hc).2

theorem State.rearmCore_frame (s : State) (id c : Nat) : RearmFrame [c] id s (s.rearmCore id c) := by
  unfold State.rearmCore
  split
  · rename_i hcl
    have hcore (j : Nat) := State.core_modCore s c j fun x => { x with dom := some id }
    refine ⟨fun j => ?_, fun j hj => ?_, fun j hj => ?_, .of_eq rfl rfl rfl, fun _ => ⟨rfl, rfl, rfl⟩⟩ <;> rw [hcore]
    · split
      · subst_vars; exact ⟨fun h => h, fun h => h, fun h => h, fun h => h⟩
      · exact .refl _
    · obtain rfl := List.mem_singleton.1 hj
      rw [if_pos rfl]
      exact ⟨rfl, hcl⟩
    · rw [if_neg (by rintro rfl; exact hj List.mem_cons_self)]
  · have hf := s.clearFor_frame c false (some id)
    refine ⟨hf.rearmed, fun j hj => ?_, fun j hj => (hf.other j hj).1.dom, hf.held, fun hl => ?_⟩
    · obtain ⟨hcl, hdom⟩ := hf.cleared j hj
      obtain ⟨-, -, -, -, -, -, -, -, -, -, -, -, -, -, -, -, -, -, -, hclearing, -⟩ := hcl
      exact ⟨hdom, hclearing⟩
    · exact State.clearCore_sameStore (hl c) false

theorem rearmCore_foldl (id : Nat) (cs : List Nat) (s : State) :
    RearmFrame cs id s (cs.foldl (fun s c => s.rearmCore id c) s) := by
  induction cs generalizing s with
  | nil => exact ⟨fun _ => .refl _, fun _ h => absurd h List.not_mem_nil, fun _ _ => rfl, .refl s, fun _ => ⟨rfl, rfl, rfl⟩⟩
  | cons c cs ih =>
    obtain ⟨hc, hg, ho, hh, hs⟩ := s.rearmCore_frame id c
    obtain ⟨kc, kg, ko, kh, ks⟩ := ih (s.rearmCore id c)
    refine ⟨fun j => (hc j).trans (kc j), fun j hj => ?_, fun j hj => ?_, hh.trans kh, fun hl => ?_⟩
    · by_cases hjs : j ∈ cs
      · exact kg j hjs
      · obtain ⟨hd, hcl⟩ := hg j (List.mem_singleton.2 ((List.mem_cons.1 hj).resolve_right hjs))
        exact ⟨(ko j hjs).trans hd, (kc j).clearing hcl⟩
    · obtain ⟨hjc, hjs⟩ := not_or.1 (mt List.mem_cons.2 hj)
      exact (ko j hjs).trans (ho j (mt List.mem_singleton.1 hjc))
    · exact (hs hl).trans (ks fun j => (hc j).l1 (hl j))

/-! ### The domain for the next run -/

/-- A domain for its next run. -/
def Domain.rearmed (n d : Domain) (ba : Nat) : Domain :=
  { n with
    phase := .armed, h := 0, b0 := if d.basin then d.b0 else 0, fpt := none, frozenAt := 0, resumeAt := none, resp := none
    replays := d.replays + 1, unsafe_ := false, replayBa := if d.basin then some ba else none, saved := [], later := [], heldReqs := [] }

/-- The run has ended and its cores are cleared, before the timetable is read again. -/
def State.runEnded (s : State) (id : Nat) (d : Domain) : State :=
  let u := (ownNumbers s id d).foldl (fun s c => s.clearCore c false) (s.released id d)
  { u with io := { u.io with
      endedRuns := if d.basin then u.io.endedRuns ++ [(d.timetable, d.b0, d.replays)] else u.io.endedRuns } }

/-- The state of a replay before the first turn of its next run is laid. -/
def State.rearm (s : State) (id : Nat) (d : Domain) (ba : Nat) : State :=
  let n := (s.runEnded id d).reread id d
  (n.cores.foldl (fun s k => s.rearmCore id k.1) (s.runEnded id d)).setDom id (n.rearmed d ba)

theorem replay_eq {id : Nat} {d : Domain} (hd : s.dom id = some d) (he : d.phase ≠ .ended) (hv : d.phase ≠ .evicted)
    (hb : d.basin = true → d.replayBa = none) (ba : Nat) : s.replay id ba =
      if d.basin then (s.rearm id d ba).schedule (ba + 2 ^ 20 + 1) (.op (s.rearm id d ba).cur (.basinReplayDispatch id))
      else s.rearm id d ba := by
  have hown : (d.cores.filter fun k => ((s.released id d).core k.1).dom == some id).foldl
      (fun s k => s.clearCore k.1 false) (s.released id d) =
        (ownNumbers s id d).foldl (fun s c => s.clearCore c false) (s.released id d) := by
    have hdom (c : Nat) : ((s.released id d).core c).dom = (s.core c).dom := ((released_spec s id d).core c).dom
    rw [ownNumbers, Spec.ownCores, List.foldl_map]
    simp only [hdom]
  unfold State.replay
  rw [hd]
  dsimp only
  rw [if_neg (by simp [he, hv]), if_neg (by simpa using hb),
    show ((s.stopRun id d).flushOwn id d).returnFrames id d = s.released id d from rfl, hown]
  rfl

theorem reread_kept (s : State) (id : Nat) (d : Domain) :
    (s.reread id d).queue = d.queue ∧ (s.reread id d).cmdidx = d.cmdidx := by
  unfold State.reread
  split
  · exact ⟨rfl, rfl⟩
  · split <;> exact ⟨rfl, rfl⟩

theorem runEnded_frame (s : State) (id : Nat) (d : Domain) : ∃ u, ClearFrame (ownNumbers s id d) none (s.released id d) u ∧
    SameStore (s.released id d) u ∧ ∃ io, s.runEnded id d = { u with io } :=
  ⟨_, .foldl (fun s c => s.clearCore_frame c false) _ _,
    ClearFrame.foldl_sameStore (dom := none) (fun s c => s.clearCore_frame c false)
      (fun _ _ h => State.clearCore_sameStore h false) _ _ (released_spec s id d).l1, _, rfl⟩

/-- What a replay leaves: no request and no binding of the domain, its frames in the pool, its former cores reset, and the
cores of its next run in their clear. -/
theorem rearm_spec (s : State) (id : Nat) (d : Domain) (ba : Nat) :
    let t := s.rearm id d ba
    (∀ r ∈ t.mem.reqs, r.dom ≠ some id) ∧ (∀ b ∈ t.mem.bindings, b.dom ≠ id) ∧ Spec.framesBack s t id d.part ∧
      (∀ k ∈ Spec.ownCores s id d, (t.core k.1).be = Be.reset ∧ (t.core k.1).eng.spad = []) ∧
      ∀ k ∈ ((s.runEnded id d).reread id d).cores, (t.core k.1).dom = some id ∧ (t.core k.1).clearing = true := by
  obtain ⟨hhost, hcore, hl1, hdom, hreqs, hbinds, hframes, hhbm⟩ := released_spec s id d
  obtain ⟨u, hclear, ⟨hm, hd, hp⟩, io, hu⟩ := runEnded_frame s id d
  have hrearm := rearmCore_foldl id (((s.runEnded id d).reread id d).cores.map Prod.fst) (s.runEnded id d)
  rw [List.foldl_map] at hrearm
  obtain ⟨kcore, kgiven, -, kheld, kstore⟩ := hrearm
  have hmem : (s.runEnded id d).mem = (s.released id d).mem := by rw [hu]; exact hm
  have hcu (c : Nat) : (s.runEnded id d).core c = u.core c := by rw [hu]; rfl
  have hpu (p : Nat) : (s.runEnded id d).part p = (s.released id d).part p := by rw [hu, State.part, State.part, hp]
  refine ⟨fun r hr => ?_, fun b hb => ?_, ⟨fun hpart b hb hid => ?_, fun hl => ?_⟩, fun k hk => ?_, fun k hk => ?_⟩
  · have hr' : r ∈ (s.released id d).mem.reqs := hmem ▸ kheld.reqs ▸ hr
    exact hreqs r hr'
  · obtain ⟨copied, hb'⟩ := kheld.back b hb
    rw [hmem] at hb'
    exact hbinds { b with copied } hb'
  · exact (kheld.shadow d.part).trans (congrArg Part.shadow (hpu d.part)) ▸ hframes hpart b hb hid
  · obtain ⟨hrel, hnil⟩ := hhbm hl
    have hnu (c : Nat) : ((s.runEnded id d).core c).cc.l1 = [] := by rw [hcu]; exact (hclear.rearmed c).l1 (hnil c)
    exact (congrArg Mem.hbm ((kstore hnu).1.trans hmem)).trans hrel
  · obtain ⟨hbe, -, -, -, -, -, -, -, hspad, -⟩ := (hclear.cleared k.1 (List.mem_map.2 ⟨k, hk, rfl⟩)).1
    rw [← hcu] at hbe hspad
    exact ⟨(kcore k.1).be hbe, (kcore k.1).spad hspad⟩
  · exact kgiven k.1 (List.mem_map.2 ⟨k, hk, rfl⟩)

theorem rearm_dom (s : State) (id : Nat) (d : Domain) (ba : Nat) :
    (s.rearm id d ba).dom id = some (((s.runEnded id d).reread id d).rearmed d ba) :=
  (State.dom_setDom ..).trans (if_pos rfl)

/-- A replay, of a basin run or not, arms the domain for its next run. -/
theorem replay_dom {id : Nat} {d : Domain} (hd : s.dom id = some d) (he : d.phase ≠ .ended) (hv : d.phase ≠ .evicted)
    (hb : d.basin = true → d.replayBa = none) (ba : Nat) :
    (s.replay id ba).dom id = some (((s.runEnded id d).reread id d).rearmed d ba) := by
  rw [replay_eq hd he hv hb]
  split <;> exact rearm_dom ..

/-! ### Notices of other modules (R57) -/

theorem writeRecord_dom (s : State) (p core : Nat) (x : Option Domain) (e : Ev) (resp : Nat) (secondary : Bool) (id : Nat) :
    (s.writeRecord p core x e resp secondary).dom id = s.dom id := by
  rw [State.dom, State.dom, (writeRecord_recordsOnly ..).doms]

theorem takeNotice_eq {n : Notice} {id : Nat} {d : Domain}
    (hfind : s.doms.find? (fun e => Spec.noticed n e.2) = some (id, d)) : s.takeNotice n =
      if d.replayBa.isSome then
        if n.resp = 5 then s.kill id 10
        else s.modDom id fun d => { d with replayBa := d.replayBa.map (min n.ba) }
      else if d.replays ≠ n.replays ∨ s.io.endedRuns.contains (n.timetable, n.run, n.replays) then s
      else
        if n.resp = 4 then (s.writeRecord d.part 0 (some d) (noticeEv n) n.resp true).replay id n.ba
        else (s.writeRecord d.part 0 (some d) (noticeEv n) n.resp true).kill id 10 := by
  unfold State.takeNotice
  unfold Spec.noticed at hfind
  rw [hfind]

/-- A notice that a run takes, which no earlier one has ended or made wait. -/
theorem takeNotice_fresh {n : Notice} {id : Nat} {d : Domain}
    (hfind : s.doms.find? (fun e => Spec.noticed n e.2) = some (id, d)) (hba : d.replayBa = none) (hr : d.replays = n.replays)
    (hf : Spec.fresh s n) : s.takeNotice n =
      if n.resp = 4 then (s.writeRecord d.part 0 (some d) (noticeEv n) n.resp true).replay id n.ba
      else (s.writeRecord d.part 0 (some d) (noticeEv n) n.resp true).kill id 10 := by
  unfold Spec.fresh at hf
  rw [takeNotice_eq hfind, if_neg (by simp [hba]), if_neg (by simp [hr, hf])]

theorem noticed_iff {n : Notice} {d : Domain} : Spec.noticed n d = true ↔
    d.basin = true ∧ d.timetable = n.timetable ∧ d.b0 = n.run ∧ d.phase ≠ .ended := by
  simp [Spec.noticed, and_assoc]

theorem noticed_of_find {n : Notice} {l : List (Nat × Domain)} {id : Nat} {d : Domain}
    (h : l.find? (fun e => Spec.noticed n e.2) = some (id, d)) :
    d.basin = true ∧ d.timetable = n.timetable ∧ d.b0 = n.run ∧ d.phase ≠ .ended :=
  noticed_iff.1 (List.find?_some (p := fun e : Nat × Domain => Spec.noticed n e.2) h)

theorem exec_notice {n : Notice} (h : n.target = s.moduleId) : exec (.basinAbortNotice n) s = .next (s.takeNotice n) :=
  congrArg Host.Outcome.next (if_pos h)

/-- A kill that a notice brings ends the run that it names. -/
theorem takeNotice_kill {n : Notice} {id : Nat} {d : Domain}
    (hfind : s.doms.find? (fun e => Spec.noticed n e.2) = some (id, d)) (hd : s.dom id = some d) (hresp : n.resp ≠ 4)
    (h5 : d.replayBa ≠ none → n.resp = 5) (hfresh : d.replayBa = none → d.replays = n.replays ∧ Spec.fresh s n) :
    Spec.atEnd (s.takeNotice n) id ∧ Spec.allCleared s (s.takeNotice n) (Spec.ownCores s id d) none := by
  obtain ⟨-, -, -, hp⟩ := noticed_of_find hfind
  by_cases hba : d.replayBa = none
  · obtain ⟨hr, hf⟩ := hfresh hba
    rw [takeNotice_fresh hfind hba hr hf, if_neg hresp]
    have hw : EventFrame False s (s.writeRecord d.part 0 (some d) (noticeEv n) n.resp true) := (EventFrame.refl s).writeRecord ..
    obtain ⟨hend, hcl⟩ := kill_ends ((writeRecord_dom ..).trans hd) hp 10
    exact ⟨hend, allCleared_of_before (fun c => (hw.core c).writtenBack) hcl⟩
  · rw [takeNotice_eq hfind, if_pos (Option.isSome_iff_ne_none.2 hba), if_pos (h5 hba)]
    exact kill_ends hd hp 10

/-- A replay that a notice brings arms the run for its Ba. -/
theorem takeNotice_replay {n : Notice} {id : Nat} {d : Domain}
    (hfind : s.doms.find? (fun e => Spec.noticed n e.2) = some (id, d)) (hd : s.dom id = some d) (hresp : n.resp = 4)
    (hba : d.replayBa = none) (hv : d.phase ≠ .evicted) (hr : d.replays = n.replays) (hf : Spec.fresh s n) :
    ∃ d', (s.takeNotice n).dom id = some d' ∧ d'.phase = .armed ∧ d'.replayBa = some n.ba ∧ d'.replays = d.replays + 1 ∧
      d'.resp = none := by
  obtain ⟨hb, -, -, hp⟩ := noticed_of_find hfind
  rw [takeNotice_fresh hfind hba hr hf, if_pos hresp]
  exact ⟨_, replay_dom ((writeRecord_dom ..).trans hd) hp hv (fun _ => hba) n.ba, rfl, if_pos hb, rfl, rfl⟩

/-! ### A core finishes (R41) -/

/-- The state in which a core has finished. -/
def State.finishCore (s : State) (c : Nat) : State := s.modCc c fun k => { k with state := .finished }

theorem exec_coreFinished (s : State) : exec .coreFinished s = .next (if s.canFinish s.cur then
      match ((s.finishCore s.cur).core s.cur).dom, (s.finishCore s.cur).domOf s.cur with
      | some id, some d => if (s.finishCore s.cur).allFinished d then
          (s.finishCore s.cur).soon (.op s.cur (.launchRetirement id)) else s.finishCore s.cur
      | _, _ => s.finishCore s.cur
    else s) := by rfl

theorem finishCore_core (s : State) (c j : Nat) : (s.finishCore c).core j =
    if c = j then { s.core c with cc := { (s.core c).cc with state := .finished } } else s.core j := by
  unfold State.finishCore
  rw [State.core_modCc]

theorem finishCore_dom (s : State) (c j : Nat) : ((s.finishCore c).core j).dom = (s.core j).dom := by
  rw [finishCore_core]
  split
  · subst_vars; rfl
  · rfl

theorem finishCore_allFinished (s : State) (c : Nat) (d : Domain) :
    (s.finishCore c).allFinished d = true ↔ ∀ k ∈ d.cores, k.1 = c ∨ (s.core k.1).cc.state = .finished := by
  simp only [State.allFinished, List.all_eq_true, beq_iff_eq, finishCore_core]
  refine forall₂_congr fun k _ => ?_
  by_cases h : c = k.1
  · simp [h]
  · simp [h, Ne.symm h]

/-- A core that may finish has finished; the last one of its domain brings the retirement. -/
theorem coreFinished_next (h : s.canFinish s.cur = true) : ∃ l, exec .coreFinished s =
    .next { s.finishCore s.cur with agenda := l ++ s.agenda } := by
  rw [exec_coreFinished, if_pos h]
  split
  · split
    · exact ⟨[_], rfl⟩
    · exact ⟨[], rfl⟩
  · exact ⟨[], rfl⟩

theorem coreFinished_dom {id : Nat} {d : Domain} (hc : (s.core s.cur).dom = some id) (hd : s.dom id = some d)
    (h : s.canFinish s.cur = true) : exec .coreFinished s = .next (if (s.finishCore s.cur).allFinished d then
      (s.finishCore s.cur).soon (.op s.cur (.launchRetirement id)) else s.finishCore s.cur) := by
  have hc' : ((s.finishCore s.cur).core s.cur).dom = some id := (finishCore_dom ..).trans hc
  have hd' : (s.finishCore s.cur).domOf s.cur = some d := by
    rw [State.domOf, hc']; exact hd
  rw [exec_coreFinished, if_pos h, hc', hd']

/-! ### The agreed basin count of a replay -/

theorem ceilAgreed_spec (n : Nat) : ∃ k, ceilAgreed n = 2 ^ 22 * k ∧ n ≤ ceilAgreed n ∧ ceilAgreed n < n + 2 ^ 22 := by
  refine ⟨(n + 2 ^ 22 - 1) / 2 ^ 22, by rw [ceilAgreed, Nat.mul_comm], ?_⟩
  unfold ceilAgreed
  omega

theorem basinReplayDispatch_eq {id ba : Nat} {d : Domain} (hd : s.dom id = some d) (hba : d.replayBa = some ba) :
    exec (.basinReplayDispatch id) s = .next (if d.phase = .armed ∧ ba + 2 ^ 20 < s.basin then
      (s.setDom id { d with b0 := ceilAgreed (ba + 2 ^ 22), replayBa := none }).schedule (ceilAgreed (ba + 2 ^ 22))
        (.op s.cur (.domainStart id)) else s) := by
  refine congrArg Host.Outcome.next ?_
  rw [hd]
  dsimp only
  rw [hba]

end Sys2Proof.Machine
end

section
/-! The end, the kill and the replay of a launch: the statements O34 and O56. -/

open Sys2Proof Sys2Proof.Machine

namespace Sys2Proof.Machine

variable {s : State}

theorem exec_retire (s : State) (id : Nat) : exec (.launchRetirement id) s = .next (s.retire id) := rfl

theorem exec_kill (s : State) (id : Nat) (st : BitVec 8) : exec (.kill id st) s = .next (s.kill id st.toNat) := rfl

theorem exec_replay (s : State) (id : Nat) : exec (.launchReplay id) s = .next (s.replay id s.basin) := rfl

theorem retire_not_ready {id : Nat} {d : Domain} (hd : s.dom id = some d) (hr : s.retireReady id d = false) : s.retire id = s := by
  unfold State.retire
  rw [hd]
  exact if_neg (by simp [hr])

theorem kill_ended {id status : Nat} {d : Domain} (hd : s.dom id = some d) (hp : d.phase = .ended) : s.kill id status = s := by
  unfold State.kill
  rw [hd]
  exact if_pos hp

/-- A notice that names no run of the module. -/
theorem takeNotice_none {n : Notice} (h : ∀ e ∈ s.doms, Spec.noticed n e.2 = false) : s.takeNotice n = s := by
  have hf : s.doms.find? (fun e => Spec.noticed n e.2) = none := List.find?_eq_none.2 fun e he => by simp [h e he]
  unfold State.takeNotice
  unfold Spec.noticed at hf
  rw [hf]

theorem exec_notice_other {n : Notice} (h : n.target ≠ s.moduleId) :
    exec (.basinAbortNotice n) s = .next (s.soon (.notice n)) :=
  congrArg Host.Outcome.next (if_neg h)

theorem BitVec8.toNat_ne {a b : BitVec 8} (h : a ≠ b) : a.toNat ≠ b.toNat := fun he => h (BitVec.eq_of_toNat_eq he)

/-- Settles O34: what the end of a domain leaves, after a retirement, a kill, or a notice; and what a replay arms. -/
theorem launchEnds : Obligations.LaunchEnds := by
  refine ⟨fun s id d hc hd h => ?_, fun s h => ?_, fun s id n d c hd hr hruns hf _ => ?_, fun s id d hd hr => ?_,
    fun s id n d c st hd hp hruns _ _ h9 => ?_, fun s id d st hd hp => ?_, fun s id d hd he hv hb _ => ?_,
    fun s n id d ht hfind hd hresp hfresh _ => ?_, fun s n id d ht hfind hd hresp hba hv hr hf => ?_, fun s n ht h => ?_,
    fun s n ht => exec_notice_other ht, fun s id ba d hd hp hba => ⟨fun hlt => ?_, fun hle => ?_⟩⟩
  · refine ⟨_, coreFinished_dom hc hd h, ?_⟩
    have hcore := finishCore_core s s.cur
    by_cases hall : (s.finishCore s.cur).allFinished d = true
    · rw [if_pos hall, if_pos ((finishCore_allFinished ..).1 hall)]
      refine ⟨?_, ?_, rfl, fun c hne => ?_, rfl⟩ <;> rw [State.core_soon, hcore]
      · rw [if_pos rfl]
      · rw [if_pos rfl]
      · rw [if_neg hne.symm]
    · rw [if_neg hall, if_neg (mt (finishCore_allFinished ..).2 hall)]
      refine ⟨?_, ?_, rfl, fun c hne => ?_, rfl⟩ <;> rw [hcore]
      · rw [if_pos rfl]
      · rw [if_pos rfl]
      · rw [if_neg hne.symm]
  · rw [exec_coreFinished, if_neg (by simp [h])]
  · exact ⟨_, exec_retire s id, retire_recorded hd hr hf hruns, (retire_ends hd hr hf).1, (retire_ends hd hr hf).2⟩
  · rw [exec_retire, retire_not_ready hd hr]
  · obtain ⟨hend, hcl⟩ := kill_ends hd hp st.toNat
    obtain ⟨hrec, hframes⟩ := kill_recorded hd hp hruns st.isLt (BitVec8.toNat_ne h9)
    exact ⟨_, exec_kill s id st, hrec, hend, hframes, hcl⟩
  · rw [exec_kill, kill_ended hd hp]
  · have hrb : d.basin = true → d.replayBa = none := fun h => absurd h (by simp [hb])
    obtain ⟨hreqs, hbinds, hframes, hown, hcores⟩ := rearm_spec s id d s.basin
    obtain ⟨hq, hi⟩ := reread_kept (s.runEnded id d) id d
    have he' : s.replay id s.basin = s.rearm id d s.basin := by rw [replay_eq hd he hv hrb, if_neg (by simp [hb])]
    exact ⟨_, _, (exec_replay s id).trans (congrArg _ he'), rearm_dom .., rfl, rfl, rfl, rfl, hq, hi, hreqs, hbinds, hframes, hown,
      hcores⟩
  · have h4 : n.resp ≠ 4 := by rw [hresp]; decide
    exact ⟨_, exec_notice ht, takeNotice_kill hfind hd h4 (fun _ => hresp) hfresh⟩
  · obtain ⟨d', hd', hrest⟩ := takeNotice_replay hfind hd hresp hba hv hr hf
    exact ⟨_, d', exec_notice ht, hd', hrest⟩
  · rw [exec_notice ht, takeNotice_none h]
  · obtain ⟨k, hk, hlo, hhi⟩ := ceilAgreed_spec (ba + 2 ^ 22)
    rw [basinReplayDispatch_eq hd hba, if_pos ⟨hp, hlt⟩]
    exact ⟨_, ceilAgreed (ba + 2 ^ 22), rfl, by rw [hk, Nat.mul_mod_right], hlo, hhi, (State.dom_setDom ..).trans (if_pos rfl),
      rfl, rfl, rfl⟩
  · rw [basinReplayDispatch_eq hd hba, if_neg fun h => absurd h.2 (by omega)]

theorem phaseIs_of_atEnd {id : Nat} (h : Spec.atEnd s id) : Spec.phaseIs s id .ended := by
  obtain ⟨⟨d, hd, hp, -⟩, -⟩ := h
  exact ⟨d, hd, hp⟩

/-- Settles O56: each of these events gets to its end. -/
theorem launchEventsComplete : Obligations.LaunchEventsComplete := by
  refine ⟨fun s h => ?_, fun s id d hd => ⟨fun hr hf => ?_, fun st hp => ?_, fun he hv hb => ?_⟩,
    fun s n ht => exec_notice_other ht, fun s n id d ht hdoms hn hba hr hf hv => ?_, fun s id ba d hd hba hp hlt => ?_⟩
  · obtain ⟨l, ht⟩ := coreFinished_next h
    refine ⟨_, ht, ?_⟩
    have hc := finishCore_core s s.cur s.cur
    rw [if_pos rfl] at hc
    exact congrArg (fun k => k.cc.state) hc
  · exact ⟨_, exec_retire s id, phaseIs_of_atEnd (retire_ends hd hr hf).1⟩
  · exact ⟨_, exec_kill s id st, phaseIs_of_atEnd (kill_ends hd hp _).1⟩
  · have hrb : d.basin = true → d.replayBa = none := fun h => absurd h (by simp [hb])
    exact ⟨_, _, exec_replay s id, replay_dom hd he hv hrb _, rfl, rfl⟩
  · have hfind : s.doms.find? (fun e => Spec.noticed n e.2) = some (id, d) := by rw [hdoms, List.find?_cons, hn]
    have hd : s.dom id = some d := by rw [State.dom, hdoms, sget_cons, if_pos rfl]
    refine ⟨fun hresp => ?_, fun hresp => ?_⟩
    · exact ⟨_, exec_notice ht, phaseIs_of_atEnd (takeNotice_kill hfind hd hresp (absurd hba) fun _ => ⟨hr, hf⟩).1⟩
    · obtain ⟨d', hd', harmed, hba', -⟩ := takeNotice_replay hfind hd hresp hba hv hr hf
      exact ⟨_, d', exec_notice ht, hd', harmed, hba'⟩
  · obtain ⟨k, hk, hlo, hhi⟩ := ceilAgreed_spec (ba + 2 ^ 22)
    rw [basinReplayDispatch_eq hd hba, if_pos ⟨hp, hlt⟩]
    generalize ceilAgreed (ba + 2 ^ 22) = b at hk hlo hhi ⊢
    have hhi' : b < ba + 2 * 2 ^ 22 := by rwa [Nat.two_mul, ← Nat.add_assoc]
    exact ⟨_, _, k, rfl, (State.dom_setDom ..).trans (if_pos rfl), hk, hlo, hhi', rfl,
      List.mem_append_right _ List.mem_cons_self⟩

end Sys2Proof.Machine
end

section
/-! A LAUNCH from its command to the first instruction of its gangs (R16, R30 to R34, R344): the statement O33. -/

open Sys2Proof Sys2Proof.Machine

namespace Sys2Proof.Machine

variable {s t u : State}

/-! ### Events and write-backs of cores without a domain -/

theorem raiseNone_doms (s : State) (p core : Nat) (e : Ev) : (s.raiseNone p core e).doms = s.doms := by
  have hw := writeRecord_recordsOnly s p core none e (respOf (s.timed core) false e) false
  unfold State.raiseNone
  dsimp only
  split <;> exact hw.doms

theorem reportFound_none_doms (s : State) (core p : Nat) (e : Ev) (va : Nat) (copy : Bool) (found : List (Piece × SectorInfo)) :
    (s.reportFound none core p e va copy found).doms = s.doms := by
  unfold State.reportFound
  dsimp only
  split
  · exact raiseNone_doms ..
  · rfl

theorem State.writeBack_doms {c : Nat} (h : (s.core c).dom = none) (key : Nat) : (s.writeBack c key).doms = s.doms := by
  have hw : (s.noteWalk (s.partOf c) (128 * key)).doms = s.doms := (s.noteWalk_memOnly ..).doms
  unfold State.writeBack
  dsimp only
  split
  · rfl
  · split
    · rfl
    · rw [h]
      split
      · exact (reportFound_none_doms ..).trans hw
      · exact (State.memWrite_memOnly ..).doms.trans hw

/-- The flush of a core without a domain changes no domain. -/
theorem State.flushL1_doms {c : Nat} (h : (s.core c).dom = none) : (s.flushL1 c true).doms = s.doms := by
  have hfold (l : Sparse L1Line) (u : State) (hu : (u.core c).dom = none) :
      (l.foldl (fun s e => s.writeBack c e.1) u).doms = u.doms := by
    induction l generalizing u with
    | nil => rfl
    | cons e l ih =>
      have hd : ((u.writeBack c e.1).core c).dom = none := ((u.writeBack_flush c e.1).core c).dom.trans hu
      exact (ih _ hd).trans (State.writeBack_doms hu e.1)
  unfold State.flushL1
  dsimp only
  rw [if_pos rfl]
  exact hfold _ s h

/-! ### The cores of a new domain -/

/-- A core that no domain has, or that has no line. -/
def Core.quiet (k : Core) : Prop := k.dom = none ∨ k.cc.l1 = []

/-- A core is cleared for a domain. -/
def State.giveCleared (s : State) (id c : Nat) : State := (s.clearCore c false).modCore c fun x => { x with dom := some id }

theorem State.giveCleared_doms {id c : Nat} (h : (s.core c).quiet) : (s.giveCleared id c).doms = s.doms := by
  rcases h with h | h
  · exact State.flushL1_doms h
  · exact (State.clearCore_sameStore h false).2.1

theorem State.giveCleared_quiet (s : State) (id c j : Nat) (h : (s.core j).quiet) : ((s.giveCleared id c).core j).quiet := by
  have hf := s.clearFor_frame c false (some id)
  by_cases hj : j ∈ [c]
  · obtain ⟨-, -, -, -, -, hl, -⟩ := (hf.cleared j hj).1
    exact .inr hl
  · obtain ⟨hw, hl⟩ := hf.other j hj
    exact h.imp hw.dom.trans hl.trans

theorem giveCleared_foldl_doms (id : Nat) (cs : List Nat) (s : State) (h : ∀ c ∈ cs, (s.core c).quiet) :
    (cs.foldl (fun s c => s.giveCleared id c) s).doms = s.doms := by
  induction cs generalizing s with
  | nil => rfl
  | cons c cs ih =>
    refine (ih _ fun j hj => ?_).trans (State.giveCleared_doms (h c List.mem_cons_self))
    exact s.giveCleared_quiet id c j (h j (List.mem_cons_of_mem c hj))

/-! ### The domain of a launch -/

/-- Nothing but memory differs. -/
theorem grantRes_memOnly (s : State) (p : Nat) (w : Word) : MemOnly s (s.grantRes p w).1 := by
  unfold State.grantRes
  dsimp only
  split
  · exact .of_mem s _
  · exact .refl s

theorem grantAll_memOnly (p : Nat) (ws : List Word) (a : State × List Nat) : MemOnly a.1 (ws.foldl (fun a w =>
    let g := a.1.grantRes p w
    (g.1, a.2 ++ g.2)) a).1 := by
  induction ws generalizing a with
  | nil => exact .refl a.1
  | cons w ws ih => exact (grantRes_memOnly a.1 p w).trans (ih _)

theorem pinBlock_memOnly (s : State) (p id key : Nat) : MemOnly s (s.pinBlock p id key) := by
  unfold State.pinBlock
  dsimp only
  split
  · exact .of_mem s _
  · split
    · exact .setMem (.of_mem s _) _
    · exact .of_mem s _

theorem launchStatus_free {fe p : Nat} {c : Cmd} {tt : Timetable} (h : s.launchStatus fe p c (some tt) = 0) :
    ∀ k ∈ tt.cores, (s.core k.1).dom = none := by
  intro k hk
  by_contra hne
  have hany : tt.cores.any (fun k => (s.core k.1).fenced || (s.core k.1).dom.isSome) = true :=
    List.any_eq_true.2 ⟨k, hk, by simp [Option.isSome_iff_ne_none.2 hne]⟩
  unfold State.launchStatus at h
  dsimp only at h
  rw [if_pos hany] at h
  split at h
  · cases h
  · split at h <;> cases h

/-- The domain's record and its pins, before its cores are cleared. -/
def State.domainMade (s : State) (fe p q : Nat) (c : Cmd) (t : Timetable) : State :=
  let params := s.iaBytes p (c.word 2) (64 * bitsOf (c.word 1) 16 12)
  let a := t.ress.foldl
    (fun a w =>
      let g := a.1.grantRes p w
      (g.1, a.2 ++ g.2)) ((s.iaRead p (c.word 2) (64 * bitsOf (c.word 1) 16 12)).1, [])
  let d := { t.domain p fe (if t.basin then c.word 3 else 0) with
    queue := q, cmdidx := c.idx, timetable := bitsOf (c.word 1) 0 12, cmd := c.words, dispAt := c.at_, params, resRegs := a.2 }
  let pins := a.1.pinBlocks p t
  pins.foldl (fun u k => u.pinBlock p s.nextDom k) { a.1.setDom s.nextDom { d with pins } with nextDom := s.nextDom + 1 }

theorem createDomain_eq (s : State) (fe p q : Nat) (c : Cmd) (t : Timetable) : s.createDomain fe p q c t =
    (((t.cores.foldl (fun u k => u.giveCleared s.nextDom k.1) (s.domainMade fe p q c t)).setExec q
      { c with dom := some s.nextDom }).tableWrite) := by
  rfl

/-- The domain that a LAUNCH makes of its timetable. -/
structure Domain.MadeOf (d : Domain) (p q : Nat) (c : Cmd) (t : Timetable) : Prop where
  phase : d.phase = .armed
  cores : d.cores = t.cores
  part : d.part = p
  queue : d.queue = q
  idx : d.cmdidx = c.idx
  timed : d.timed = t.disc
  replays : d.replays = 0
  resp : d.resp = none

theorem domainMade_spec (s : State) (fe p q : Nat) (c : Cmd) (t : Timetable) :
    let u := s.domainMade fe p q c t
    (∃ d, u.dom s.nextDom = some d ∧ d.MadeOf p q c t) ∧ u.cores = s.cores ∧ u.io = s.io ∧ u.nextDom = s.nextDom + 1 := by
  have hr := s.iaRead_memOnly p (c.word 2) (64 * bitsOf (c.word 1) 16 12)
  have hg := grantAll_memOnly p t.ress ((s.iaRead p (c.word 2) (64 * bitsOf (c.word 1) 16 12)).1, [])
  have hm := hr.trans hg
  have hp (u : State) (l : List Nat) : MemOnly u (l.foldl (fun u k => u.pinBlock p s.nextDom k) u) :=
    .foldl (fun u k => pinBlock_memOnly u p s.nextDom k) l u
  dsimp only
  unfold State.domainMade
  dsimp only
  refine ⟨⟨_, (congrArg (fun l => sget l s.nextDom) (hp _ _).doms).trans ((State.dom_setDom ..).trans (if_pos rfl)),
    rfl, rfl, rfl, rfl, rfl, rfl, rfl, rfl⟩, ?_, ?_, ?_⟩
  · exact (hp _ _).cores.trans hm.cores
  · exact (hp _ _).io.trans hm.io
  · rw [hp]

theorem setExec_execs {q n : Nat} {c : Cmd} (h : s.slotOf q = some n) : s.setExec q c = s.modSlot n fun x =>
    { x with execs := x.execs.map fun e => if e.idx = c.idx then c else e } := by
  unfold State.setExec
  rw [h]

theorem slotOf_of_io (h : t.io = s.io) (q : Nat) : t.slotOf q = s.slotOf q := by
  rw [State.slotOf, State.slotOf, h]

theorem createDomain_spec {fe p q n : Nat} {c : Cmd} {tt : Timetable} (hslot : s.slotOf q = some n)
    (hfree : ∀ k ∈ tt.cores, (s.core k.1).dom = none) : ∃ t d, s.createDomain fe p q c tt = t ∧ t.dom s.nextDom = some d ∧
      d.MadeOf p q c tt ∧ t.nextDom = s.nextDom + 1 ∧ Spec.allCleared s t tt.cores (some s.nextDom) ∧
      ∀ e ∈ (t.slot n).execs, e.idx = c.idx → e.dom = some s.nextDom := by
  obtain ⟨⟨d, hd, hmade⟩, hcores, hio, hnext⟩ := domainMade_spec s fe p q c tt
  have hcore (j : Nat) : (s.domainMade fe p q c tt).core j = s.core j := by rw [State.core, State.core, hcores]
  have hf : ClearFrame (tt.cores.map Prod.fst) (some s.nextDom) (s.domainMade fe p q c tt)
      ((tt.cores.map Prod.fst).foldl (fun u c => u.giveCleared s.nextDom c) (s.domainMade fe p q c tt)) :=
    .foldl (fun u c => u.clearFor_frame c false (some s.nextDom)) _ _
  have hdoms := giveCleared_foldl_doms s.nextDom (tt.cores.map Prod.fst) (s.domainMade fe p q c tt) fun j hj => by
    obtain ⟨k, hk, rfl⟩ := List.mem_map.1 hj
    exact .inl (by rw [hcore]; exact hfree k hk)
  rw [List.foldl_map] at hf hdoms
  have hso : (tt.cores.foldl (fun u k => u.giveCleared s.nextDom k.1) (s.domainMade fe p q c tt)).slotOf q = some n := by
    rw [hf.frame]
    exact (slotOf_of_io hio q).trans hslot
  refine ⟨_, d, rfl, ?_, hmade, ?_, fun k hk => ?_, fun e he hidx => ?_⟩
  · rw [createDomain_eq, setExec_execs hso]
    exact (congrArg (fun l => sget l s.nextDom) hdoms).trans hd
  · rw [createDomain_eq, setExec_execs hso]
    exact (congrArg State.nextDom hf.frame).trans hnext
  · obtain ⟨hcl, hdom⟩ := hf.cleared k.1 (List.mem_map.2 ⟨k, hk, rfl⟩)
    rw [hcore] at hcl
    rw [createDomain_eq, setExec_execs hso]
    exact ⟨hcl, hdom⟩
  · rw [createDomain_eq, setExec_execs hso, State.slot_tableWrite, State.slot_modSlot, if_pos rfl] at he
    obtain ⟨e0, -, rfl⟩ := List.mem_map.1 he
    by_cases h : e0.idx = c.idx
    · rw [if_pos h]
    · rw [if_neg h] at hidx
      exact absurd hidx h

/-! ### The command LAUNCH -/

theorem bitsOf_low (x n : Nat) : bitsOf x 0 n = x % 2 ^ n := by
  rw [bitsOf, Nat.pow_zero, Nat.div_one]

theorem atHand_of_hand {fe n q op : Nat} {c : Cmd} (h : Spec.hand s fe n q op c) : s.atHand fe op = some (q, c) := by
  obtain ⟨-, hdisp, hq, -, hop⟩ := h
  unfold State.atHand
  rw [hdisp]
  dsimp only
  rw [hq]
  exact if_pos hop

/-- What a LAUNCH at hand does with its timetable, of status `st`. -/
def State.launchAs (s : State) (fe p q : Nat) (c : Cmd) (tt : Option Timetable) (st : Nat) : State :=
  match s.readTimetable p ((c.words.getD 1 0).toNat % 2 ^ 12), st, tt with
  | (s, some e), _, _ => (s.raiseNone p 0 e).complete q c 10 ⟨0, false, 0, 0⟩
  | (s, none), 0, some t => s.createDomain fe p q c t
  | (s, none), _, _ => s.complete q c st ⟨0, false, 0, 0⟩

theorem exec_launch {fe n q : Nat} {c : Cmd} (h : Spec.hand s fe n q 1 c) : exec (.launch fe) s = .next
    (let p := (s.partOfQueue q).getD 0
    let tt := (Spec.handedOver s fe).timetable p ((c.words.getD 1 0).toNat % 2 ^ 12)
    (Spec.handedOver s fe).launchAs fe p q c tt ((Spec.handedOver s fe).launchStatus fe p c tt)) := by
  refine (if_pos (show unitsOk (.launch fe) = true from decide_eq_true h.1)).trans (congrArg _ ?_)
  rw [atHand_of_hand h]
  dsimp only
  rw [bitsOf_low]
  rfl

section Launch

variable {fe n p q : Nat} {c : Cmd} {tt : Option Timetable}

theorem launchAs_refused {st : Nat} (hr : (s.readTimetable p ((c.words.getD 1 0).toNat % 2 ^ 12)).2 = none) (hst : st ≠ 0) :
    s.launchAs fe p q c tt st =
      (s.readTimetable p ((c.words.getD 1 0).toNat % 2 ^ 12)).1.complete q c st ⟨0, false, 0, 0⟩ := by
  unfold State.launchAs
  split
  · simp_all
  · simp_all
  · simp_all

theorem launchAs_unread {st : Nat} {e : Ev} (hr : (s.readTimetable p ((c.words.getD 1 0).toNat % 2 ^ 12)).2 = some e) :
    s.launchAs fe p q c tt st =
      ((s.readTimetable p ((c.words.getD 1 0).toNat % 2 ^ 12)).1.raiseNone p 0 e).complete q c 10 ⟨0, false, 0, 0⟩ := by
  unfold State.launchAs
  split <;> simp_all

theorem launchAs_made {t : Timetable} (hr : (s.readTimetable p ((c.words.getD 1 0).toNat % 2 ^ 12)).2 = none) :
    s.launchAs fe p q c (some t) 0 = (s.readTimetable p ((c.words.getD 1 0).toNat % 2 ^ 12)).1.createDomain fe p q c t := by
  unfold State.launchAs
  split <;> simp_all

end Launch

theorem readTimetable_memOnly (s : State) (p i : Nat) : MemOnly s (s.readTimetable p i).1 := by
  unfold State.readTimetable
  dsimp only
  split
  · exact (s.iaRead_memOnly ..).trans (State.iaRead_memOnly ..)
  · exact s.iaRead_memOnly ..

/-! ### The load before SC 0 (R31) -/

/-- What the load of an overlay leaves of a core. -/
def Core.RegsLoaded (k k' : Core) : Prop :=
  k'.rng = k.rng ∧ k'.clearing = k.clearing ∧ k'.be = k.be ∧ k'.cc = { k.cc with resv := k'.cc.resv }

/-- The load of an overlay changes of core `c` the instruction scratchpad and its regions, and of any core what an event
may. -/
structure LoadFrame (c : Nat) (s t : State) : Prop where
  core : ∀ j, (s.core j).RegsLoaded (t.core j)
  eng : ∀ j, j ≠ c → (t.core j).eng = (s.core j).eng

theorem LoadFrame.refl (c : Nat) (s : State) : LoadFrame c s s := ⟨fun _ => ⟨rfl, rfl, rfl, rfl⟩, fun _ _ => rfl⟩

theorem LoadFrame.trans {c : Nat} (h : LoadFrame c s t) (k : LoadFrame c t u) : LoadFrame c s u where
  core j := by
    obtain ⟨hr, hcl, hb, hc⟩ := h.core j
    obtain ⟨kr, kcl, kb, kc⟩ := k.core j
    exact ⟨kr.trans hr, kcl.trans hcl, kb.trans hb, by rw [kc, hc]⟩
  eng j hj := (k.eng j hj).trans (h.eng j hj)

theorem LoadFrame.of_event {F : Prop} (c : Nat) (h : EventFrame F s t) : LoadFrame c s t where
  core j := by
    rw [(h.core j).1]
    exact ⟨rfl, rfl, rfl, rfl⟩
  eng j _ := by rw [(h.core j).1]

theorem LoadFrame.of_memOnly (c : Nat) (h : MemOnly s t) : LoadFrame c s t where
  core j := by
    rw [State.core, State.core, h.cores]
    exact ⟨rfl, rfl, rfl, rfl⟩
  eng j _ := by rw [State.core, State.core, h.cores]

theorem LoadFrame.foldl {α : Type} {c : Nat} {f : State → α → State} (hf : ∀ s x, LoadFrame c s (f s x)) (l : List α) (s : State) :
    LoadFrame c s (l.foldl f s) := by
  induction l generalizing s with
  | nil => exact .refl c s
  | cons x l ih => exact (hf s x).trans (ih _)

theorem LoadFrame.modEng {c : Nat} (h : LoadFrame c s t) (f : Engines → Engines) : LoadFrame c s (t.modEng c f) := by
  refine h.trans ⟨fun j => ?_, fun j hj => ?_⟩ <;> rw [State.core_modEng]
  · split
    · subst_vars; exact ⟨rfl, rfl, rfl, rfl⟩
    · exact ⟨rfl, rfl, rfl, rfl⟩
  · rw [if_neg hj.symm]

theorem vaRead_memOnly (s : State) (p : Nat) (rng : Vector Rng 16) (va n : Nat) : MemOnly s (s.vaRead p rng va n).1 := by
  unfold State.vaRead
  suffices h : ∀ (qs : List Piece) (a : State × List (Piece × SectorInfo)), MemOnly s a.1 → MemOnly s (qs.foldl _ a).1 from
    h _ (s, []) (.refl s)
  intro qs
  induction qs with
  | nil => exact fun _ h => h
  | cons q qs ih =>
    refine fun a h => ih _ ?_
    dsimp only
    split
    · exact h.trans (a.1.iaRead_memOnly ..)
    · exact h

theorem loadOverlay_frame (s : State) (p c : Nat) (rng : Vector Rng 16) (g : Gang) : LoadFrame c s (s.loadOverlay p c rng g) := by
  unfold State.loadOverlay
  refine .foldl (fun s j => ?_) _ s
  have hread := LoadFrame.of_memOnly c (vaRead_memOnly s p rng (ovSrc g.block + 8192 * j) 8192)
  dsimp only
  split
  · exact (hread.trans (.of_event c ((EventFrame.refl _).reportFound ..))).modEng _
  · exact hread.trans (.of_event c ((EventFrame.refl _).reportFound ..))

/-- The load of a core: its range registers, its CSRs, and of the other cores no register. -/
theorem loadCore_spec {c : Nat} {d : Domain} {tt : Timetable} (ht : s.timetable d.part d.timetable = some tt)
    (hr : (s.readTimetable d.part d.timetable).2 = none) :
    let t := s.loadCore c d
    (t.core c).clearing = (s.core c).clearing ∧ (t.core c).rng = tt.ranges ∧ (t.core c).cc.mie = 0x70000 ∧
      (t.core c).cc.mode = .u ∧ ∀ j, j ≠ c → (s.core j).RegsLoaded (t.core j) ∧ (t.core j).eng = (s.core j).eng := by
  have hm := readTimetable_memOnly s d.part d.timetable
  obtain ⟨u, hu⟩ : ∃ u, s.readTimetable d.part d.timetable = (u, none) := ⟨_, Prod.ext rfl hr⟩
  rw [hu] at hm
  unfold State.loadCore
  rw [ht, hu]
  dsimp only
  have hcore (j : Nat) : u.core j = s.core j := by rw [State.core, State.core, hm.cores]
  set v := u.modCore c fun k => { k with
    rng := tt.ranges, cc := k.cc.loaded d c
    fab := { k.fab with streams := Vector.ofFn fun x : Fin 8 => u.streamAt d.part tt ((tt.cores.map (·.1)).idxOf c) x.val } }
    with hv
  obtain ⟨hl, he⟩ := loadOverlay_frame v d.part c tt.ranges (tt.gangs.getD (((tt.cores.find? fun x => x.1 == c).map (·.2)).getD 0) default)
  have hvc (j : Nat) (hj : j ≠ c) : v.core j = s.core j := by rw [hv, State.core_modCore, if_neg hj.symm, hcore]
  have hvs : (v.core c).clearing = (s.core c).clearing ∧ (v.core c).rng = tt.ranges ∧ (v.core c).cc = (s.core c).cc.loaded d c := by
    rw [hv, State.core_modCore, if_pos rfl, hcore]
    exact ⟨rfl, rfl, rfl⟩
  obtain ⟨hcl, hrng, hcc⟩ := hvs
  obtain ⟨lr, lcl, -, lcc⟩ := hl c
  refine ⟨lcl.trans hcl, lr.trans hrng, ?_, ?_, fun j hj => ?_⟩
  · rw [lcc, hcc]; rfl
  · rw [lcc, hcc]; rfl
  · rw [← hvc j hj]
    exact ⟨hl j, he j hj⟩

/-! ### The end of a clear -/

/-- The clear of a core has ended. -/
def State.clearEnded (s : State) (c : Nat) : State := s.modCore c fun k => { k with clearing := false }

theorem clearEnded_core (s : State) (c j : Nat) : (s.clearEnded c).core j =
    if c = j then { s.core c with clearing := false } else s.core j := State.core_modCore ..

theorem clearEnded_domOf (s : State) (c : Nat) :
    ((s.clearEnded c).core c).dom = (s.core c).dom ∧ (s.clearEnded c).domOf c = s.domOf c := by
  have h : ((s.clearEnded c).core c).dom = (s.core c).dom := by rw [clearEnded_core, if_pos rfl]
  exact ⟨h, by rw [State.domOf, h]; rfl⟩

theorem clearFinished_none (hc : (s.core s.cur).clearing = true) (hd : s.domOf s.cur = none) :
    exec .launchClearFinished s = .next (s.clearEnded s.cur) := by
  obtain ⟨-, hof⟩ := clearEnded_domOf s s.cur
  refine congrArg Host.Outcome.next ((if_neg (by simp [hc])).trans ?_)
  dsimp only
  split
  · rename_i h
    exact absurd (h.symm.trans (hof.trans hd)) (by simp)
  · rfl

/-- The last core of an armed domain that is no basin domain: the domain starts next. -/
theorem clearFinished_last {id : Nat} {d : Domain} (hc : (s.core s.cur).clearing = true) (hdom : (s.core s.cur).dom = some id)
    (hd : s.dom id = some d) (hp : d.phase = .armed) (hb : d.basin = false)
    (hlast : ((s.clearEnded s.cur).loadCore s.cur d).clearingAny d = false) : exec .launchClearFinished s =
      .next (((s.clearEnded s.cur).loadCore s.cur d).soon (.op s.cur (.domainStart id))) := by
  obtain ⟨hdom', hof⟩ := clearEnded_domOf s s.cur
  have hof' : (s.clearEnded s.cur).domOf s.cur = some d := by rw [hof, State.domOf, hdom]; exact hd
  rw [hdom] at hdom'
  refine congrArg Host.Outcome.next ((if_neg (by simp [hc])).trans ?_)
  dsimp only
  rw [show (s.modCore s.cur fun k => { k with clearing := false }) = s.clearEnded s.cur from rfl, hdom', hof']
  dsimp only
  rw [if_neg (by simp [hp]), if_neg (by simp [hlast]), if_neg (by simp [hb])]

/-! ### The start of a domain and of its gangs (R33, R34) -/

/-- The calendar's entries for the gangs of a domain. -/
theorem domainStart_eq {id : Nat} {d : Domain} (hd : s.dom id = some d) (hp : d.phase = .armed) (hb : d.basin = false)
    (hc : s.clearingAny d = false) : exec (.domainStart id) s = .next
      { s.setDom id { d with phase := .running, b0 := s.basin, h := 0, replayBa := none } with
        calendar := s.calendar ++ d.gangs.zipIdx.map fun g => ⟨some id, g.1.1.toNat, .op s.cur (.ccEntryStart id g.2)⟩ } := by
  refine congrArg Host.Outcome.next ?_
  unfold State.domainStart
  rw [hd]
  dsimp only
  rw [if_neg (by simp [hp]), if_neg (by simp [hc]), if_neg (by simp [hb])]
  simp [hb]

theorem mem_insertBy {α : Type} {before : α → α → Bool} {x y : α} {l : List α} :
    y ∈ insertBy before x l ↔ y = x ∨ y ∈ l := by
  induction l with
  | nil => simp [insertBy]
  | cons z l ih =>
    unfold insertBy
    split
    · simp [ih, or_left_comm]
    · simp

theorem mem_sortBy {α : Type} {before : α → α → Bool} {y : α} {l : List α} : y ∈ sortBy before l ↔ y ∈ l := by
  induction l with
  | nil => simp [sortBy]
  | cons x l ih => simp [sortBy, mem_insertBy, ih]

theorem mem_gangCores {cores : List (Nat × Nat)} {g c : Nat} : c ∈ gangCores cores g ↔ (c, g) ∈ cores := by
  simp [gangCores, mem_sortBy]

/-- A stopped control core begins at an address. -/
def Cc.entered (k : Cc) (entry : Word) : Cc :=
  if k.state = .stopped then { k with pc := entry, mode := .u, state := .running } else k

theorem Cc.entered_entered (k : Cc) (entry : Word) : (k.entered entry).entered entry = k.entered entry := by
  by_cases h : k.state = .stopped <;> simp [Cc.entered, h]

theorem enter_foldl (entry : Word) (cs : List Nat) (s : State) :
    let t := cs.foldl (fun s c => s.modCc c (·.entered entry)) s
    t.mem = s.mem ∧ t.doms = s.doms ∧ ∀ c, t.core c = if c ∈ cs then { s.core c with cc := (s.core c).cc.entered entry }
      else s.core c := by
  induction cs generalizing s with
  | nil => exact ⟨rfl, rfl, fun c => rfl⟩
  | cons a cs ih =>
    obtain ⟨hm, hd, hc⟩ := ih (s.modCc a (·.entered entry))
    refine ⟨hm, hd, fun c => ?_⟩
    rw [List.foldl_cons, hc, State.core_modCc]
    by_cases hac : a = c
    · subst hac
      simp [Cc.entered_entered]
    · simp [hac, Ne.symm hac]

theorem exec_ccEntryStart {id g : Nat} {d : Domain} {start entry : Word} (hd : s.dom id = some d) (hp : d.phase = .running)
    (hg : d.gangs[g]? = some (start, entry)) : exec (.ccEntryStart id g) s = .next (if start.toNat ≤ d.sc s.basin then
      (gangCores d.cores g).foldl (fun s c => s.modCc c (·.entered entry)) s else s) := by
  refine congrArg Host.Outcome.next ?_
  rw [hd]
  dsimp only
  rw [hg]
  simp only [hp, true_and, Option.map_some, Option.getD_some]
  unfold State.startGang
  rw [hg]
  rfl

/-! ### The statement -/

theorem recorded_of_io {n q st : Nat} {c : Cmd} (hs : t.io.slots = s.io.slots) (ho : t.io.out = s.io.out)
    (hb : t.basin = s.basin) (h : Spec.recorded t u n q c st) : Spec.recorded s u n q c st :=
  recorded_of_before ⟨fun m => by rw [State.slot, State.slot, hs], ho, hb⟩ h

theorem lastStatus_of_recorded {n q st : Nat} {c : Cmd} (h : Spec.recorded s t n q c st) (hst : st ≠ 0) :
    Spec.lastStatus t q st := by
  obtain ⟨-, -, hk, -⟩ := h
  dsimp only at hk
  rw [if_neg (by simp [hst]), if_neg (by simp [hst])] at hk
  exact hk.2.2.1

/-- Settles O33, from the command to the first instruction: each step by what it leaves. -/
theorem launchBegins : Obligations.LaunchBegins := by
  refine ⟨fun s fe n q st c hand => ?_, fun s fe n q c e hand => ?_, fun s fe n q c tt hand => ?_,
    fun s hc hd => clearFinished_none hc hd, fun s id d tt hc hdom hd hp hb => ?_, fun s id d hd hp hb hcl => ?_,
    fun s id g d start entry hd hp hg => ⟨fun hle => ?_, fun hlt => ?_⟩⟩
  · intro p s1 read hst h0 hlt hread
    have hm : MemOnly s1 read.1 := readTimetable_memOnly ..
    have ⟨_, _, hq, hslot, _⟩ := hand
    have hslot' : read.1.slotOf q = some n := (slotOf_of_io hm.io q).trans hslot
    have hq' : (read.1.slot n).queue = some q := by rw [State.slot, hm.io]; exact hq
    obtain ⟨⟨io, hio⟩, hrec⟩ := complete_recorded hslot' hq' c hlt ⟨0, false, 0, 0⟩
    have hrun : exec (.launch fe) s = .next (read.1.complete q c st ⟨0, false, 0, 0⟩) := by
      rw [exec_launch hand]
      dsimp only
      rw [hst]
      exact congrArg _ (launchAs_refused hread h0)
    refine ⟨_, hrun, ⟨?_, ?_⟩, ?_, ?_⟩
    · exact recorded_of_io (s := s) (congrArg Io.slots hm.io :) (congrArg Io.out hm.io :) hm.basin hrec
    · rw [hio]; exact hm.cores
    · rw [hio]; exact hm.doms
    · rw [hio]
  · intro p s1 hread
    have hm : MemOnly s1 (s1.readTimetable p ((c.words.getD 1 0).toNat % 2 ^ 12)).1 := readTimetable_memOnly ..
    have ⟨_, _, hq, hslot, _⟩ := hand
    have hev := (EventFrame.refl (F := False) (s1.readTimetable p ((c.words.getD 1 0).toNat % 2 ^ 12)).1).raiseNone p 0 e
    have hio := (congrArg State.io hev.frame).trans hm.io
    have hnext : (s1.readTimetable p ((c.words.getD 1 0).toNat % 2 ^ 12)).1.nextDom = s.nextDom := by rw [hm]; rfl
    obtain ⟨⟨io, hc⟩, hrec⟩ := complete_recorded ((slotOf_of_io hio q).trans hslot) (by rw [State.slot, hio]; exact hq) c
      (by decide : 10 < 256) ⟨0, false, 0, 0⟩
    refine ⟨_, (exec_launch hand).trans (congrArg _ (launchAs_unread hread)), lastStatus_of_recorded hrec (by decide), ?_, ?_⟩
    · rw [hc]; exact (raiseNone_doms ..).trans hm.doms
    · rw [hc]; exact (congrArg State.nextDom hev.frame).trans hnext
  · intro p s1 htt hst hread
    have hm : MemOnly s1 (s1.readTimetable p ((c.words.getD 1 0).toNat % 2 ^ 12)).1 := readTimetable_memOnly ..
    have ⟨_, _, hq, hslot, _⟩ := hand
    have hcore (j : Nat) : (s1.readTimetable p ((c.words.getD 1 0).toNat % 2 ^ 12)).1.core j = s.core j := by
      rw [State.core, hm.cores]; rfl
    have hnext : (s1.readTimetable p ((c.words.getD 1 0).toNat % 2 ^ 12)).1.nextDom = s.nextDom := by rw [hm]; rfl
    have hfree := launchStatus_free hst
    obtain ⟨t, d, ht, hd, hmade, hn, hall, hex⟩ := createDomain_spec (fe := fe) (p := p) (c := c) (tt := tt)
      ((slotOf_of_io hm.io q).trans hslot) fun k hk => by rw [hcore]; exact hfree k hk
    have hrun : exec (.launch fe) s = .next t := by
      rw [exec_launch hand]
      dsimp only
      rw [htt, hst, launchAs_made hread, ht]
    obtain ⟨h1, h2, h3, h4, h5, h6, h7, h8⟩ := hmade
    rw [hnext] at hd hn hall hex
    refine ⟨t, d, hrun, hd, h1, h2, h3, h4, h5, h6, h7, h8, hn, fun k hk => ?_, hex⟩
    have := hall k hk
    rwa [hcore] at this
  · intro u htt hread hothers
    obtain ⟨hcl, hrng, hmie, hmode, hrest⟩ := loadCore_spec (c := s.cur) htt hread
    have hcur : (u.core s.cur).clearing = false := by rw [show u = s.clearEnded s.cur from rfl, clearEnded_core, if_pos rfl]
    have hother (j : Nat) (hj : j ≠ s.cur) : u.core j = s.core j := (clearEnded_core s s.cur j).trans (if_neg hj.symm)
    refine ⟨_, clearFinished_last hc hdom hd hp hb ?_, hcl.trans hcur, hrng, hmie, hmode, List.mem_cons_self, fun j hj => ?_⟩
    · unfold State.clearingAny
      rw [List.any_eq_false]
      intro k hk
      by_cases hkc : k.1 = s.cur
      · rw [hkc, Bool.not_eq_true]
        exact hcl.trans hcur
      · obtain ⟨⟨-, hcl', -⟩, -⟩ := hrest k.1 hkc
        rw [Bool.not_eq_true]
        exact hcl'.trans ((congrArg Core.clearing (hother k.1 hkc)).trans (hothers k hk hkc))
    · obtain ⟨⟨hr, -, hbe, -⟩, he⟩ := hrest j hj
      rw [hother j hj] at hr hbe he
      exact ⟨hbe, he, hr⟩
  · have hany : s.clearingAny d = false := by simpa [State.clearingAny] using fun a b h => hcl (a, b) h
    refine ⟨_, _, domainStart_eq hd hp hb hany, (State.dom_setDom ..).trans (if_pos rfl), rfl, ?_, rfl, rfl, rfl, rfl,
      fun g start entry hg => ?_⟩
    · simp [Domain.sc]
    · refine List.mem_append_right _ (List.mem_map.2 ⟨((start, entry), g), ?_, rfl⟩)
      rwa [List.mem_zipIdx_iff_getElem?]
  · rw [exec_ccEntryStart hd hp hg, if_pos hle]
    obtain ⟨hm, hdoms, hcore⟩ := enter_foldl entry (gangCores d.cores g) s
    refine ⟨_, rfl, hm, hdoms, fun c => ?_⟩
    rw [hcore]
    simp only [mem_gangCores, Cc.entered]
    by_cases hin : (c, g) ∈ d.cores
    · by_cases hst : (s.core c).cc.state = .stopped
      · simp [hin, hst]
      · simp [hin, hst]
    · simp [hin]
  · rw [exec_ccEntryStart hd hp hg, if_neg (by omega)]

end Sys2Proof.Machine
end

section
/-! Pre-emption, freeze, resume and frozen inspection (R37 to R39, R47, R185, R186, R202, R204): the statement O35. -/

open Sys2Proof Sys2Proof.Machine

namespace Sys2Proof.Machine

variable {s t u : State}

/-! ### The pre-emption request (R37, R39) -/

/-- The event of a pre-emption request. -/
def preemptEv : Ev :=
  { cause := 0x12, subcause := 0, engine := 10, slot := 15, pc := 0, faddr := 0, tcode := 0, issue := 0, tengine := 0
    duesc := 0, body := 0, words := [] }

/-- The response to a pre-emption of a domain without a basin timetable is the freeze. -/
theorem effectiveResp_preempt {d : Domain} (hb : d.basin = false) : s.effectiveResp d preemptEv = 2 := by
  have hr (timed sfpol : Bool) : respOf timed sfpol preemptEv = 2 := rfl
  unfold State.effectiveResp
  simp [hr, hb]

/-- The freeze point of a domain that is asked to freeze, and the response that waits for it. -/
def Domain.askedAt (d : Domain) (basin : Nat) (resp : Option (Nat × Nat)) : Domain :=
  { d with fpt := some (d.fpt.getD (d.sc basin + 256)), resp := resp }

theorem applyResp_preempt (s : State) (id : Nat) (d : Domain) (core : Nat) : s.applyResp id d core preemptEv 2 =
    s.modDom id fun x =>
      { x with fpt := some (x.fpt.getD (x.sc s.basin + 256)), resp := joinResp d.resp 2 (respStatus 2 0x12).toNat } := rfl

theorem raiseDom_preempt {id : Nat} {d : Domain} (hd : s.dom id = some d) (hp : d.phase = .running) (hb : d.basin = false)
    (core : Nat) : ∃ resp, (s.raiseDom id core preemptEv).dom id = some (d.askedAt s.basin resp) := by
  have hw := writeRecord_recordsOnly s d.part core (some d) preemptEv 2 d.resp.isSome
  have hbasin := congrArg State.basin ((EventFrame.refl (F := False) s).writeRecord d.part core (some d) preemptEv 2 d.resp.isSome).frame
  have hwd : (s.writeRecord d.part core (some d) preemptEv 2 d.resp.isSome).dom id = some d := by
    rw [State.dom, hw.doms]; exact hd
  have hdefer : d.defers preemptEv = false := by simp [Domain.defers, hp]
  have hhead : s.headRecord core d.part preemptEv d.resp.isSome = (s, d.resp.isSome) := by
    unfold State.headRecord
    exact if_pos (.inl (by decide))
  have hraise : s.raiseDom id core preemptEv =
      (s.writeRecord d.part core (some d) preemptEv 2 d.resp.isSome).applyResp id d core preemptEv 2 := by
    unfold State.raiseDom State.raiseDomAt
    rw [hd]
    dsimp only
    rw [if_neg (by simp [hp]), if_neg (by simp [hdefer])]
    unfold State.raiseLive
    rw [effectiveResp_preempt hb, hhead]
  refine ⟨joinResp d.resp 2 (respStatus 2 0x12).toNat, ?_⟩
  rw [hraise, ← hbasin]
  generalize s.writeRecord d.part core (some d) preemptEv 2 d.resp.isSome = w at hwd
  rw [applyResp_preempt, State.modDom_of_some _ hwd]
  exact (State.dom_setDom ..).trans (if_pos rfl)

theorem preemption_running {id : Nat} {d : Domain} (hd : s.dom id = some d) (hp : d.phase = .running) (hb : d.basin = false) :
    exec (.preemptionRequest id) s = .next (s.raiseDom id 0 preemptEv) := by
  refine congrArg Host.Outcome.next ?_
  rw [hd]
  dsimp only
  rw [if_neg (by simp [hb]), if_pos hp]
  rfl

theorem preemption_basin {id : Nat} {d : Domain} (hd : s.dom id = some d) (hp : d.phase = .running) (hb : d.basin = true) :
    exec (.preemptionRequest id) s = .next (s.refuseOrder id) := by
  refine congrArg Host.Outcome.next ?_
  rw [hd]
  exact if_pos ⟨hp, hb⟩

theorem preemption_other {id : Nat} {d : Domain} (hd : s.dom id = some d) (hp : d.phase ≠ .running) :
    exec (.preemptionRequest id) s = .next s := by
  refine congrArg Host.Outcome.next ?_
  rw [hd]
  dsimp only
  rw [if_neg (by simp [hp]), if_neg hp]

/-! ### The freeze -/

/-- A domain that is frozen at a basin count. -/
def Domain.frozenNow (d : Domain) (basin : Nat) : Domain := { d with phase := .frozen, frozenAt := basin }

theorem frozenNow_sc {d : Domain} (hp : d.phase = .running) (basin b : Nat) : (d.frozenNow basin).sc b = d.sc basin := by
  simp [Domain.sc, Domain.frozenNow, hp]

/-- The freeze at the freeze point: no more than the turn of a response is laid. -/
theorem freeze_due {id f : Nat} {d : Domain} (hd : s.dom id = some d) (hp : d.phase = .running) (hf : d.fpt = some f)
    (hle : f ≤ d.sc s.basin) : ∃ l, s.freeze id = { s.setDom id (d.frozenNow s.basin) with agenda := l ++ s.agenda } ∧
      (d.resp = none → l = []) := by
  unfold State.freeze
  rw [hd]
  dsimp only
  split
  · rename_i f' _ hf'
    obtain rfl : f' = f := Option.some.inj (hf'.symm.trans hf)
    rw [if_neg (by omega)]
    split
    · rename_i h; exact ⟨[_], rfl, fun hn => absurd (h.symm.trans hn) (by simp)⟩
    · rename_i h; exact ⟨[_], rfl, fun hn => absurd (h.symm.trans hn) (by simp)⟩
    · rename_i h
      split
      · exact ⟨[_], rfl, fun hn => absurd (h.symm.trans hn) (by simp)⟩
      · exact ⟨[], rfl, fun _ => rfl⟩
    · exact ⟨[], rfl, fun _ => rfl⟩
  · rename_i hno
    exact absurd hf (hno f hp)

theorem freeze_early {id f : Nat} {d : Domain} (hd : s.dom id = some d) (hp : d.phase = .running) (hf : d.fpt = some f)
    (hlt : d.sc s.basin < f) : s.freeze id = s := by
  unfold State.freeze
  rw [hd]
  dsimp only
  rw [hp, hf]
  exact if_pos hlt

/-! ### The resume -/

/-- A frozen domain that has no request with the memory resumes at the next basin count. -/
theorem resumeOrder_eq {id : Nat} {d : Domain} (hd : s.dom id = some d) (hp : d.phase = .frozen)
    (hr : ∀ r ∈ s.mem.reqs, r.dom ≠ some id) : exec (.resumeOrder id) s = .next
      ((s.setDom id { d with resumeAt := some (s.basin + 1) }).schedule (s.basin + 1) (.op s.cur (.resume id))) := by
  have hnil : s.mem.reqs.filter (fun r => r.dom == some id && r.xlat != .overrun) = [] :=
    List.filter_eq_nil_iff.2 fun r h => by simp [hr r h]
  have hre : s.retranslate id = (s, []) := by
    unfold State.retranslate
    rw [hnil]
    rfl
  refine congrArg Host.Outcome.next ?_
  rw [hd]
  dsimp only
  rw [if_neg (by simp [hp]), hre]
  dsimp only
  rw [State.modDom_of_some _ hd]

theorem exec_resume_inspecting {id br : Nat} {d : Domain} (hd : s.dom id = some d) (hp : d.phase = .frozen)
    (hr : d.resumeAt = some br) (hle : br ≤ s.basin) (hi : s.inspecting d = true) : exec (.resume id) s = .next
      ((s.setDom id { d with resumeAt := some (s.basin + 1) }).schedule (s.basin + 1) (.op s.cur (.resume id))) := by
  refine congrArg Host.Outcome.next ?_
  unfold State.resume
  rw [hd]
  dsimp only
  rw [hp, hr]
  dsimp only
  rw [if_neg (by omega), if_pos hi]

/-- A domain that goes on after its freeze. -/
def Domain.resumed (d : Domain) (basin : Nat) : Domain :=
  { d with phase := .running, h := d.h + (basin - d.frozenAt), fpt := none, resp := none, resumeAt := none, later := [] }

/-- A control core that stalled at an instruction executes it again. -/
def Cc.restarted (k : Cc) : Cc := if k.state = .stalled then { k with state := .running } else k

theorem Cc.restarted_restarted (k : Cc) : k.restarted.restarted = k.restarted := by
  by_cases h : k.state = .stalled <;> simp [Cc.restarted, h]

theorem restart_foldl (cs : List (Nat × Nat)) (s : State) :
    let t := cs.foldl (fun s k => s.modCc k.1 Cc.restarted) s
    t.mem = s.mem ∧ t.doms = s.doms ∧ ∀ c, t.core c =
      if c ∈ cs.map Prod.fst then { s.core c with cc := (s.core c).cc.restarted } else s.core c := by
  induction cs generalizing s with
  | nil => exact ⟨rfl, rfl, fun c => rfl⟩
  | cons a cs ih =>
    obtain ⟨hm, hd, hc⟩ := ih (s.modCc a.1 Cc.restarted)
    refine ⟨hm, hd, fun c => ?_⟩
    rw [List.foldl_cons, hc, State.core_modCc, List.map_cons]
    by_cases hac : a.1 = c
    · subst hac
      simp [Cc.restarted_restarted]
    · simp only [if_neg hac, List.mem_cons, Ne.symm hac, false_or]

theorem exec_resume {id br : Nat} {d : Domain} (hd : s.dom id = some d) (hp : d.phase = .frozen) (hr : d.resumeAt = some br)
    (hle : br ≤ s.basin) (hi : s.inspecting d = false) (hl : d.later = []) : exec (.resume id) s = .next
      (d.cores.foldl (fun s k => s.modCc k.1 Cc.restarted) (s.setDom id (d.resumed s.basin))) := by
  refine congrArg Host.Outcome.next ?_
  unfold State.resume
  rw [hd]
  dsimp only
  rw [hp, hr]
  dsimp only
  rw [if_neg (by omega), if_neg (by simp [hi]), hl]
  rfl

theorem resumed_sc {d : Domain} {basin : Nat} (hp : d.phase = .frozen) (hlo : d.b0 + d.h ≤ d.frozenAt) (hhi : d.frozenAt ≤ basin)
    (n : Nat) : (d.resumed basin).sc (basin + n) = d.sc basin + n := by
  simp only [Domain.sc, Domain.resumed, hp]
  omega

/-! ### Frozen inspection -/

theorem modCore_foldl (f : Core → Core) {cs : List (Nat × Nat)} (h : Spec.once cs) (s : State) :
    let t := cs.foldl (fun s k => s.modCore k.1 f) s
    t.mem = s.mem ∧ t.doms = s.doms ∧ ∀ c, t.core c = if c ∈ cs.map Prod.fst then f (s.core c) else s.core c := by
  induction cs generalizing s with
  | nil => exact ⟨rfl, rfl, fun c => rfl⟩
  | cons a cs ih =>
    obtain ⟨hna, hcs⟩ := List.nodup_cons.1 h
    obtain ⟨hm, hd, hc⟩ := ih hcs (s.modCore a.1 f)
    refine ⟨hm, hd, fun c => ?_⟩
    rw [List.foldl_cons, hc, State.core_modCore, List.map_cons]
    by_cases hac : a.1 = c
    · subst hac
      simp [hna]
    · simp only [if_neg hac, List.mem_cons, Ne.symm hac, false_or]

/-- The SC of the domain at hand stands while its cores are interrupted. -/
theorem inspect_foldl (e : Ev) (d : Domain) (cs : List (Nat × Nat)) (s : State) :
    cs.foldl (fun s k => s.modCore k.1 fun x => x.inspectStart e (d.sc s.basin)) s =
      cs.foldl (fun t k => t.modCore k.1 fun x => x.inspectStart e (d.sc s.basin)) s := by
  induction cs generalizing s with
  | nil => rfl
  | cons a cs ih => exact ih _

theorem exec_frozenInspection {id : Nat} {d : Domain} (hd : s.dom id = some d) (hp : d.phase = .frozen) :
    exec (.frozenInspection id) s = .next (d.cores.foldl (fun t k => t.modCore k.1
      fun x => x.inspectStart (inspectEv s.drawFree.2) (d.sc s.basin)) s.drawFree.1) := by
  refine congrArg Host.Outcome.next ?_
  rw [hd]
  dsimp only
  rw [if_neg (by simp [hp])]
  exact inspect_foldl _ d d.cores s.drawFree.1

/-- The core with the event of its inspection pending. -/
def Core.inspectPended (k : Core) (e : Ev) (sc : Nat) : Core :=
  ({ k with cc := { k.cc with pendMacro := k.cc.pendMacro ++ [(e, sc, 0)] } } : Core).refreshMip

theorem inspectStart_taken {k : Core} {e : Ev} {sc : Nat} (h : Spec.inspectable k) : k.inspectStart e sc =
    let k' := (k.inspectPended e sc).takeInterrupt (e, sc, 0)
    { k' with cc := { k'.cc with inspect := some (k.cc.pc, k.cc.mode, k.cc.state), ovly := k.cc.ovly } } := by
  obtain ⟨hmie, hopen, hin⟩ := h
  refine if_pos ?_
  have : (k.cc.mie.getLsbD 18 && (k.cc.mode == .u || k.cc.mstatus.getLsbD 3) && k.cc.inspect.isNone) = true := by
    simpa [hmie, hin] using hopen
  exact this

theorem inspectStart_kept {k : Core} {e : Ev} {sc : Nat} (h : ¬ Spec.inspectable k) :
    k.inspectStart e sc = k.inspectPended e sc := by
  refine if_neg fun hc => h ?_
  have : (k.cc.mie.getLsbD 18 && (k.cc.mode == .u || k.cc.mstatus.getLsbD 3) && k.cc.inspect.isNone) = true := hc
  simpa [Spec.inspectable, and_assoc] using this

/-- The interrupt that a core takes from among its pending events. -/
theorem takeInterrupt_listed {k : Core} {x : Ev × Nat × Word} (h : x ∈ k.cc.pendMacro) : (k.takeInterrupt x).be = k.be ∧
    (k.takeInterrupt x).cc.x = k.cc.x ∧ (k.takeInterrupt x).cc.mode = .m ∧ (k.takeInterrupt x).cc.mepc = k.cc.pc ∧
      (k.takeInterrupt x).cc.mcause = interruptCause (intNumber x.1) ∧ (k.takeInterrupt x).cc.pc = mtvecOf k := by
  have hc : k.cc.pendMacro.contains x = true := List.contains_iff_mem.2 h
  unfold Core.takeInterrupt
  dsimp only
  rw [if_pos hc]
  exact ⟨rfl, rfl, rfl, rfl, rfl, rfl⟩

theorem inspectPended_mip (k : Core) (e : Ev) (sc : Nat) (he : intNumber e = 18) :
    (k.inspectPended e sc).cc.mip.getLsbD 18 = true := by
  unfold Core.inspectPended Core.refreshMip
  simp [he]

/-- Settles O35: each order by the state that it leaves, and frozen inspection core by core. -/
theorem freezeAndResume : Obligations.FreezeAndResume := by
  refine ⟨fun s id d hd => ⟨fun hp hb => ?_, fun hp hb => ?_, preemption_other hd⟩,
    fun s id f d hd hp hf => ⟨fun hle => ?_, fun hlt => congrArg Host.Outcome.next (freeze_early hd hp hf hlt)⟩, fun s id d hd hp hr => ?_,
    fun s id br d hd hp hr hle hi => exec_resume_inspecting hd hp hr hle hi, fun s id br d hd hp hr hle hlo hhi hl hi => ?_,
    fun s id d hd => ⟨fun hp => ?_, fun hp hone => ?_⟩⟩
  · obtain ⟨resp, ht⟩ := raiseDom_preempt hd hp hb 0
    have hcores := (EventFrame.refl s).raiseDom (e := preemptEv) id 0
    refine ⟨_, _, preemption_running hd hp hb, ht, rfl, hp, rfl, rfl, fun c => ?_⟩
    rw [(hcores.core c).1]
    exact ⟨rfl, rfl⟩
  · exact ⟨_, _, preemption_basin hd hp hb, rfl, rfl, rfl, rfl⟩
  · obtain ⟨l, ht, hl⟩ := freeze_due hd hp hf hle
    exact ⟨_, _, congrArg Host.Outcome.next ht, (State.dom_setDom ..).trans (if_pos rfl), rfl, rfl, frozenNow_sc hp _, rfl, rfl,
      fun hn => by rw [hl hn]; rfl⟩
  · exact ⟨_, resumeOrder_eq hd hp hr, (State.dom_setDom ..).trans (if_pos rfl), rfl, rfl, rfl⟩
  · obtain ⟨hm, hdoms, hcore⟩ := restart_foldl d.cores (s.setDom id (d.resumed s.basin))
    have hdom : (d.cores.foldl (fun s k => s.modCc k.1 Cc.restarted) (s.setDom id (d.resumed s.basin))).dom id =
        some (d.resumed s.basin) := by
      rw [State.dom, hdoms]
      exact (State.dom_setDom ..).trans (if_pos rfl)
    refine ⟨_, _, exec_resume hd hp hr hle hi hl, hdom, rfl, resumed_sc hp hlo hhi 0, resumed_sc hp hlo hhi 1, rfl, hm,
      fun c => ?_⟩
    rw [hcore, State.core_setDom]
    by_cases hin : c ∈ d.cores.map Prod.fst
    · simp [hin, Cc.restarted]
    · simp [hin]
  · refine congrArg Host.Outcome.next ?_
    rw [hd]
    exact if_pos hp
  · obtain ⟨hm, hdoms, hcore⟩ :=
      modCore_foldl (fun x => x.inspectStart (inspectEv s.drawFree.2) (d.sc s.basin)) hone s.drawFree.1
    refine ⟨_, inspectEv s.drawFree.2, exec_frozenInspection hd hp, hm, hdoms, fun c hc => ?_, fun c hc => ?_⟩
    · rw [hcore, if_neg hc]; rfl
    · rw [hcore, if_pos hc, State.core_drawFree]
      by_cases hin : Spec.inspectable (s.core c)
      · have hmem : (inspectEv s.drawFree.2, d.sc s.basin, (0 : Word)) ∈
            ((s.core c).inspectPended (inspectEv s.drawFree.2) (d.sc s.basin)).cc.pendMacro :=
          List.mem_append_right _ List.mem_cons_self
        obtain ⟨hbe, hx, hmode, hmepc, hmcause, hpc⟩ := takeInterrupt_listed hmem
        rw [inspectStart_taken hin]
        exact ⟨hbe, hx, fun _ => ⟨hmode, hmcause, hmepc, hpc, rfl⟩, fun h => absurd hin h⟩
      · rw [inspectStart_kept hin]
        exact ⟨rfl, rfl, fun h => absurd h hin, fun _ => ⟨inspectPended_mip _ _ _ rfl, rfl, rfl, rfl, rfl, rfl⟩⟩

end Sys2Proof.Machine
end

section
/-! The bytes of memory that a front end reads do not depend on the cores and the domains (R240, R292): what an image in a save
area holds stays while cores come back from it. -/

open Sys2Proof Sys2Proof.Machine

namespace Sys2Proof.Machine

/-- The state with other cores and domains. -/
def State.aside (s : State) (cores : Sparse Core) (doms : Sparse Domain) : State := { s with cores, doms }

section Aside

variable (s : State) (k : Sparse Core) (m : Sparse Domain)

theorem countDecode_aside (stack block : Nat) (sev : Severity) :
    (s.aside k m).countDecode stack block sev = (s.countDecode stack block sev).aside k m := by
  unfold State.countDecode
  split <;> rfl

theorem decodeAt_aside (stack pa layout p0 block : Nat) (held : Bool) : (s.aside k m).decodeAt stack pa layout p0 block held =
    ((s.decodeAt stack pa layout p0 block held).1.aside k m, (s.decodeAt stack pa layout p0 block held).2) := by
  unfold State.decodeAt
  dsimp only
  rw [show (s.aside k m).mem = s.mem from rfl]
  generalize ({ s.mem with hbm := _, check := _, lay := _ } : Mem) = mem
  split
  · rfl
  · exact Prod.ext (countDecode_aside { s with mem } k m _ _ _) rfl

theorem l2Keep_aside (stack L pa : Nat) (cls : Option Nat) :
    (s.aside k m).l2Keep stack L pa cls = (s.l2Keep stack L pa cls).aside k m := rfl

theorem tagState_aside : (s.aside k m).tagState = s.tagState := rfl

theorem readPiece_aside (dom : Option Nat) (p ia pa : Nat) (leaf : Word) (size : Nat) (cls : Option Nat) (q : Piece) :
    (s.aside k m).readPiece dom p ia pa leaf size cls q =
      ((s.readPiece dom p ia pa leaf size cls q).1.aside k m, (s.readPiece dom p ia pa leaf size cls q).2) := by
  unfold State.readPiece
  rw [show (s.aside k m).home = s.home from rfl, show (s.aside k m).bindingOf = s.bindingOf from rfl,
    show (s.aside k m).l2Holds = s.l2Holds from rfl]
  generalize (s.home p (ia + q.ofs)).2 = L
  dsimp only
  rw [decodeAt_aside]
  generalize State.decodeAt s _ _ _ _ _ _ = a
  dsimp only
  rw [l2Keep_aside, tagState_aside]
  split
  · rfl
  · repeat' split
    all_goals rfl

theorem readPieces_aside (dom : Option Nat) (p ia pa : Nat) (leaf : Word) (size : Nat) (cls : Option Nat) (qs : List Piece) :
    (s.aside k m).readPieces dom p ia pa leaf size cls qs =
      ((s.readPieces dom p ia pa leaf size cls qs).1.aside k m, (s.readPieces dom p ia pa leaf size cls qs).2) := by
  induction qs generalizing s with
  | nil => rfl
  | cons q qs ih =>
    unfold State.readPieces
    rw [readPiece_aside]
    dsimp only
    rw [ih]

theorem foldl_aside {α : Type} {f : State → α → State} (hf : ∀ s x, f (State.aside s k m) x = (f s x).aside k m) (l : List α) :
    l.foldl f (s.aside k m) = (l.foldl f s).aside k m := by
  induction l generalizing s with
  | nil => rfl
  | cons x l ih => rw [List.foldl_cons, List.foldl_cons, hf, ih]

theorem countRes_aside (p ia : Nat) : (s.aside k m).countRes p ia = (s.countRes p ia).aside k m := by
  unfold State.countRes
  rw [show (s.aside k m).home p ia = s.home p ia from rfl]
  refine foldl_aside s k m (fun u n => ?_) _
  dsimp only
  rw [show (u.aside k m).resReg = u.resReg from rfl]
  split <;> rfl

theorem memRead_aside (dom : Option Nat) (p ia n : Nat) (x : Xlat) :
    ((s.aside k m).memRead dom p ia n x).2 = (s.memRead dom p ia n x).2 := by
  unfold State.memRead State.memReadAs
  rw [countRes_aside, show (s.aside k m).resClass p ia = s.resClass p ia from rfl]
  split
  · rw [readPieces_aside]
  · rfl

theorem iaBytes_aside (p ia n : Nat) : (s.aside k m).iaBytes p ia n = s.iaBytes p ia n := by
  unfold State.iaBytes
  simp only [memRead_aside]
  rfl

end Aside

end Sys2Proof.Machine
end

section
/-! The eviction of a frozen domain (R40, R205, R239): what its write-backs, its images, its record and its clears leave. -/

open Sys2Proof Sys2Proof.Machine

namespace Sys2Proof.Machine

variable {s t u : State}

theorem mem_sorted {d : Domain} {c : Nat} : c ∈ d.sorted ↔ c ∈ d.cores.map Prod.fst := mem_sortBy

/-! ### The images -/

/-- What a store may change, and no request. -/
def StoreHeld (s t : State) : Prop := StoreOnly s t ∧ HeldKept s t

theorem StoreHeld.trans (h : StoreHeld s t) (k : StoreHeld t u) : StoreHeld s u := ⟨h.1.trans k.1, h.2.trans k.2⟩

theorem iaStore_storeHeld (s : State) (p ia : Nat) (bytes : List Byte) : StoreHeld s (s.iaStore p ia bytes).1 :=
  ⟨s.iaStore_storeOnly .., s.iaStore_heldKept ..⟩

theorem storeHeld_foldlFst {α β : Type} {f : State × β → α → State × β} (hf : ∀ a x, StoreHeld a.1 (f a x).1) (l : List α)
    (a : State × β) : StoreHeld a.1 (l.foldl f a).1 := by
  induction l generalizing a with
  | nil => exact ⟨.refl _, .refl _⟩
  | cons x l ih => exact (hf a x).trans (ih _)

theorem writeImages_storeHeld (s : State) (d : Domain) (ia : Nat) : StoreHeld s (s.writeImages d ia).1 := by
  unfold State.writeImages
  refine storeHeld_foldlFst (fun a k => ?_) _ (s, true)
  refine storeHeld_foldlFst (fun a x => ?_) _ a
  exact iaStore_storeHeld ..

/-! ### The state of an eviction, before its record -/

/-- The caches are written back and the images stored. -/
def State.imaged (s : State) (d : Domain) (ia : Nat) : State :=
  ((d.sorted.foldl (fun s c => s.flushL1 c true) s).writeImages d ia).1

theorem imaged_core (s : State) (d : Domain) (ia c : Nat) : (s.core c).WrittenBack ((s.imaged d ia).core c) := by
  have hf := (flushAll_flush d.sorted s).core c
  have hs := (writeImages_storeHeld (d.sorted.foldl (fun s c => s.flushL1 c true) s) d ia).1.core c
  unfold State.imaged
  rw [hs]
  exact hf.trans rfl

theorem imaged_l1 {d : Domain} {c : Nat} (s : State) (ia : Nat) (hc : c ∈ d.sorted) : ((s.imaged d ia).core c).cc.l1 = [] := by
  have hl := flushAll_l1 s hc
  have hs := (writeImages_storeHeld (d.sorted.foldl (fun s c => s.flushL1 c true) s) d ia).1.core c
  unfold State.imaged
  rw [hs]
  exact hl

theorem imaged_dom {id : Nat} {d : Domain} (hd : s.dom id = some d) (ia : Nat) :
    ∃ e, (s.imaged d ia).dom id = some e ∧ d.Noted e := by
  obtain ⟨e, he, hn⟩ := (flushAll_flush d.sorted s).dom id d hd
  refine ⟨e, ?_, hn⟩
  rw [State.dom, State.imaged, (writeImages_storeHeld ..).1.doms]
  exact he

theorem imaged_io (s : State) (d : Domain) (ia : Nat) : (s.imaged d ia).io = s.io := by
  have hf := congrArg State.io (flushAll_flush d.sorted s).frame
  unfold State.imaged
  rw [(writeImages_storeHeld ..).1.frame]
  exact hf

/-- A domain in its save area. -/
def Domain.evictedTo (e : Domain) (ia : Nat) (saved : List (Nat × Core)) (heldReqs : List LongReq) : Domain :=
  { e with phase := .evicted, saveIA := some ia, pins := [], saved, heldReqs }

/-- The state of an eviction once the cores' images are written, before its record: the domain is evicted, and its requests
are its own. -/
def State.saveDomain (s : State) (id ia : Nat) (d : Domain) : State :=
  let w := s.imaged d ia
  let u := w.modDom id fun e =>
    e.evictedTo ia (d.sorted.map fun c => (c, w.core c)) (w.mem.reqs.filter fun r => r.dom == some id)
  { u with mem := { u.mem with reqs := u.mem.reqs.filter fun r => r.dom != some id } }

theorem saveDomain_eq {id : Nat} {d e : Domain} (ia : Nat) (he : (s.imaged d ia).dom id = some e) :
    s.saveDomain id ia d = { (s.imaged d ia).setDom id (e.evictedTo ia (d.sorted.map fun c => (c, (s.imaged d ia).core c))
      ((s.imaged d ia).mem.reqs.filter fun r => r.dom == some id)) with
        mem := { (s.imaged d ia).mem with reqs := (s.imaged d ia).mem.reqs.filter fun r => r.dom != some id } } := by
  unfold State.saveDomain
  dsimp only
  rw [State.modDom_of_some _ he]
  rfl

/-- The command of a launch, or what the domain knows of it. -/
def State.launchCmd (s : State) (d : Domain) : Cmd :=
  (s.execOf d.queue d.cmdidx.toNat).getD { idx := d.cmdidx, words := d.cmd, at_ := 0, dom := none, written := 0, failed := none }

theorem evict_eq {id ia : Nat} {d : Domain} (hd : s.dom id = some d) (hp : d.phase = .frozen) (hs : s.heldShared d = false)
    (hf : s.flushStop d = none)
    (hok : ((d.sorted.foldl (fun s c => s.flushL1 c true) s).writeImages d ia).2 = true) : s.evict id ia =
      (d.sorted.foldl (fun s c => s.clearCore c true)
        (((s.saveDomain id ia d).report d.queue ((s.saveDomain id ia d).launchCmd d) 11 ⟨0, d.mdeliv, d.replays, ia⟩).unpin id)
          ).tableWrite := by
  unfold State.evict
  rw [hd]
  dsimp only
  rw [if_neg (by simp [hp]), if_neg (by simp [hs]), hf]
  dsimp only
  rw [if_neg (by simp [hok])]
  rfl

/-- The record of an eviction, of a launch that a slot runs. -/
theorem report_sent {n q : Nat} (h : s.slotOf q = some n) (hq : (s.slot n).queue = some q) (c : Cmd) (i : CInfo) :
    ∃ io, s.report q c 11 i = { s with io } ∧ Spec.lastStatus { s with io } q 11 := by
  obtain ⟨w0, ws, hrec, -, hst⟩ := recordOf_word c (by decide : 11 < 256) (s.queueRec q).head i.pstat (natOfBool i.mdeliv)
    i.replays s.basin i.aux
  obtain ⟨io, hio, hrest⟩ := createRecord_sent (w0 := w0) (ws := ws) (now := true) h hq (.inl rfl)
  obtain ⟨-, -, -, -, -, -, qp, rkey, a, ws', hlast⟩ := hrest
  refine ⟨io, ?_, ?_⟩
  · unfold State.report
    rw [hrec, hio]
  · rw [hio] at hlast
    exact ⟨qp, rkey, a, w0, ws', hlast, hst⟩

/-- What an eviction leaves whose images are written. -/
theorem evict_spec {id ia n : Nat} {d : Domain} {c : Cmd} (hd : s.dom id = some d) (hp : d.phase = .frozen)
    (hs : s.heldShared d = false) (hf : s.flushStop d = none) (hr : Spec.runs s n d c)
    (hok : ((d.sorted.foldl (fun s c => s.flushL1 c true) s).writeImages d ia).2 = true) :
    ∃ e, d.Noted e ∧ (s.evict id ia).dom id = some (e.evictedTo ia (d.sorted.map fun c => (c, (s.imaged d ia).core c))
        ((s.imaged d ia).mem.reqs.filter fun r => r.dom == some id)) ∧
      Spec.lastStatus (s.evict id ia) d.queue 11 ∧ Spec.allCleared s (s.evict id ia) d.cores none ∧
      ∀ r ∈ (s.evict id ia).mem.reqs, r.dom ≠ some id := by
  obtain ⟨e, he, hn⟩ := imaged_dom hd ia
  have hsave := saveDomain_eq ia he
  obtain ⟨⟨hslot, hq, -, -⟩, -⟩ := hr
  have hio : (s.saveDomain id ia d).io = s.io := by rw [hsave]; exact imaged_io s d ia
  obtain ⟨io, hrep, hlast⟩ := report_sent ((slotOf_of_io hio d.queue).trans hslot) (by rw [State.slot, hio]; exact hq)
    ((s.saveDomain id ia d).launchCmd d) ⟨0, d.mdeliv, d.replays, ia⟩
  have hev := evict_eq hd hp hs hf hok
  rw [hrep] at hev
  set z : State := ({ s.saveDomain id ia d with io } : State).unpin id with hz
  have hzc (j : Nat) : z.core j = (s.imaged d ia).core j := by rw [hz, hsave]; rfl
  have hcl : ClearFrame d.sorted none z (d.sorted.foldl (fun s c => s.clearCore c true) z) :=
    .foldl (fun s c => s.clearCore_frame c true) _ _
  obtain ⟨hm, hdoms, -⟩ := ClearFrame.foldl_sameStore (dom := none) (fun s c => s.clearCore_frame c true)
    (fun _ _ h => State.clearCore_sameStore h true) d.sorted z fun j hj => by rw [hzc]; exact imaged_l1 s ia hj
  refine ⟨e, hn, ?_, ?_, fun k hk => ?_, fun r hrm => ?_⟩
  · rw [hev]
    refine (congrArg (fun l => sget l id) hdoms).trans ?_
    rw [hz, hsave]
    exact (State.dom_setDom ..).trans (if_pos rfl)
  · rw [hev]
    obtain ⟨qp, rkey, a, w0, ws, ho, hst⟩ := hlast
    exact ⟨qp, rkey, a, w0, ws, (congrArg (fun u : State => u.io.out.getLast?) hcl.frame).trans ho, hst⟩
  · obtain ⟨hcleared, hdom⟩ := hcl.cleared k.1 (mem_sorted.2 (List.mem_map.2 ⟨k, hk, rfl⟩))
    rw [hzc] at hcleared
    rw [hev]
    exact ⟨clearedCore_of_before (imaged_core s d ia k.1) hcleared, hdom⟩
  · rw [hev] at hrm
    have hrm' : r ∈ z.mem.reqs := hm ▸ hrm
    rw [hz, hsave] at hrm'
    simpa using (List.mem_filter.1 hrm').2

end Sys2Proof.Machine
end

section
/-! The restore of an evicted domain and the replies that come while it is away (R40, R51, R205, R370): the statement O36. -/

open Sys2Proof Sys2Proof.Machine

namespace Sys2Proof.Machine

variable {s t u : State}

/-! ### A core from its image -/

/-- The pc, the monitor memory, the range registers and the domain of a core. -/
def Core.FrameKept (k k' : Core) : Prop :=
  k'.cc.pc = k.cc.pc ∧ k'.cc.monMem = k.cc.monMem ∧ k'.rng = k.rng ∧ k'.dom = k.dom ∧ k'.clearing = k.clearing

theorem Cc.csrWrite_pc (k : Cc) (sc n : Nat) (v : Word) : (k.csrWrite sc n v).pc = k.pc ∧
    (k.csrWrite sc n v).monMem = k.monMem := by
  unfold Cc.csrWrite
  split <;> exact ⟨rfl, rfl⟩

theorem Core.FrameKept.trans {k k' k'' : Core} (h : k.FrameKept k') (h' : k'.FrameKept k'') : k.FrameKept k'' := by
  obtain ⟨h1, h2, h3, h4, h5⟩ := h
  obtain ⟨g1, g2, g3, g4, g5⟩ := h'
  exact ⟨g1.trans h1, g2.trans h2, g3.trans h3, g4.trans h4, g5.trans h5⟩

theorem frameKept_foldl {α : Type} {f : Core → α → Core} (hf : ∀ (k : Core) x, k.FrameKept (f k x)) (l : List α) (k : Core) :
    k.FrameKept (l.foldl f k) := by
  induction l generalizing k with
  | nil => exact ⟨rfl, rfl, rfl, rfl, rfl⟩
  | cons x l ih => exact (hf k x).trans (ih _)

/-- The control core's words give the pc. -/
theorem withCc_kept (k : Core) (sc : Nat) (was bs : List Nat) : (k.withCc sc was bs).cc.pc = BitVec.ofNat 64 (bs.getD 31 0) ∧
    (k.withCc sc was bs).cc.monMem = k.cc.monMem ∧ (k.withCc sc was bs).rng = k.rng ∧ (k.withCc sc was bs).dom = k.dom ∧
      (k.withCc sc was bs).clearing = k.clearing := by
  unfold Core.withCc
  refine frameKept_foldl (fun k e => ?_) _ _
  dsimp only
  split
  · exact ⟨rfl, rfl, rfl, rfl, rfl⟩
  · obtain ⟨hpc, hm⟩ := k.cc.csrWrite_pc sc e.1 (BitVec.ofNat 64 (bs.getD (33 + e.2) 0))
    exact ⟨hpc, hm, rfl, rfl, rfl⟩

/-- What a restored core takes from its image, its save area and the core that it comes back to. -/
structure Core.BackFrom (k : Core) (area : Nat → Nat → List Byte) (saved now : Core) (id : Nat) : Prop where
  dom : k.dom = some id
  clearing : k.clearing = false
  spad : k.eng.spad = writeBytes [] 0 (area 0x100000 0x100000)
  accum : k.eng.accum = writeBytes [] 0 (area 0x200000 0x40000)
  pc : k.cc.pc = BitVec.ofNat 64 (bytesVal (((area 0x1000 0x400).drop 248).take 8))
  monMem : k.cc.monMem = now.cc.monMem
  rng : k.rng = saved.rng

theorem takeLate_kept (k : Core) (sc : Nat) : (k.takeLate sc).cc = k.cc ∧ (k.takeLate sc).eng = k.eng ∧
    (k.takeLate sc).rng = k.rng ∧ (k.takeLate sc).dom = k.dom ∧ (k.takeLate sc).clearing = k.clearing :=
  ⟨rfl, rfl, rfl, rfl, rfl⟩

theorem restored_kept (saved now : Core) (id : Nat) : (saved.restored now id).cc.monMem = now.cc.monMem ∧
    (saved.restored now id).rng = saved.rng ∧ (saved.restored now id).dom = some id ∧
      (saved.restored now id).clearing = false := ⟨rfl, rfl, rfl, rfl⟩

theorem withImage_eq (k : Core) (area : Nat → Nat → List Byte) (sc : Nat) (was : List Nat) (others : Nat) :
    let k' := k.withImage area sc was others
    let kc := k.withCc sc was (numsAt (area 0x1000 0x400) 0 (33 + savedCsrs.length + 5) 8)
    k'.eng.spad = writeBytes [] 0 (area 0x100000 0x100000) ∧ k'.eng.accum = writeBytes [] 0 (area 0x200000 0x40000) ∧
      k'.cc = kc.cc ∧ k'.rng = kc.rng ∧ k'.dom = kc.dom ∧ k'.clearing = kc.clearing := by
  unfold Core.withImage
  exact ⟨rfl, rfl, rfl, rfl, rfl, rfl⟩

theorem numsAt_getD (bs : List Byte) {i n : Nat} (h : i < n) :
    (numsAt bs 0 n 8).getD i 0 = bytesVal ((bs.drop (8 * i)).take 8) := by
  simp [numsAt, h]

theorem backFrom_withImage (saved now : Core) (id : Nat) (area : Nat → Nat → List Byte) (sc : Nat) (was : List Nat) (others : Nat) :
    (((saved.restored now id).withImage area sc was others).takeLate sc).BackFrom area saved now id := by
  obtain ⟨hspad, haccum, hcc, hrng, hdom, hcl⟩ := withImage_eq (saved.restored now id) area sc was others
  obtain ⟨kpc, kmon, krng, kdom, kcl⟩ := withCc_kept (saved.restored now id) sc was
    (numsAt (area 0x1000 0x400) 0 (33 + savedCsrs.length + 5) 8)
  obtain ⟨rmon, rrng, rdom, rcl⟩ := restored_kept saved now id
  obtain ⟨lcc, leng, lrng, ldom, lcl⟩ := takeLate_kept ((saved.restored now id).withImage area sc was others) sc
  rw [numsAt_getD _ (by omega)] at kpc
  constructor
  · exact (ldom.trans hdom).trans (kdom.trans rdom)
  · exact (lcl.trans hcl).trans (kcl.trans rcl)
  · rw [leng]; exact hspad
  · rw [leng]; exact haccum
  · rw [lcc, hcc]; exact kpc
  · rw [lcc, hcc]; exact kmon.trans rmon
  · exact (lrng.trans hrng).trans (krng.trans rrng)

/-! ### The cores of a domain come back -/

theorem restoreCore_eq (s : State) (d : Domain) (id ia : Nat) (k : Core × Nat × Nat) : ∃ (was : List Nat) (others : Nat) (held : Domain → List LongReq),
    s.restoreCore d id ia k = ((s.modCore k.2.1 fun now => k.1.restored now id).modCore k.2.1 fun x =>
      (x.withImage (fun o n => s.iaBytes d.part (ia + imageSize * k.2.2 + o) n) (d.sc s.basin) was others).takeLate
        (d.sc s.basin)).modDom id fun x => { x with heldReqs := held x } :=
  ⟨_, _, fun x => reqsFrom _ _ _ x.heldReqs, rfl⟩

theorem modDom_aside (s : State) (id : Nat) (f : Domain → Domain) : ∃ doms, s.modDom id f = s.aside s.cores doms := by
  cases hd : s.dom id with
  | none => exact ⟨s.doms, by rw [State.modDom_of_none _ hd]; rfl⟩
  | some d => exact ⟨_, by rw [State.modDom_of_some _ hd]; rfl⟩

theorem modDom_core (s : State) (id : Nat) (f : Domain → Domain) (c : Nat) : (s.modDom id f).core c = s.core c := by
  obtain ⟨doms, h⟩ := modDom_aside s id f
  rw [h]
  rfl

/-- One core comes back. -/
theorem restoreCore_spec (s : State) (d : Domain) (id ia : Nat) (k : Core × Nat × Nat) :
    let t := s.restoreCore d id ia k
    (∃ cores doms, t = s.aside cores doms) ∧
      (t.core k.2.1).BackFrom (fun o n => s.iaBytes d.part (ia + imageSize * k.2.2 + o) n) k.1 (s.core k.2.1) id ∧
      (∀ c, c ≠ k.2.1 → t.core c = s.core c) ∧ ∀ e, s.dom id = some e → ∃ heldReqs, t.dom id = some { e with heldReqs } := by
  obtain ⟨was, others, held, ht⟩ := restoreCore_eq s d id ia k
  have hcore (c : Nat) : (s.restoreCore d id ia k).core c = if k.2.1 = c then
      ((k.1.restored (s.core k.2.1) id).withImage (fun o n => s.iaBytes d.part (ia + imageSize * k.2.2 + o) n) (d.sc s.basin) was
        others).takeLate (d.sc s.basin) else s.core c := by
    rw [ht, modDom_core, State.core_modCore, State.core_modCore, if_pos rfl]
    split
    · rfl
    · rename_i h
      rw [State.core_modCore, if_neg h]
  refine ⟨?_, ?_, fun c hc => by rw [hcore, if_neg (Ne.symm hc)], fun e he => ?_⟩
  · obtain ⟨doms, hd⟩ := modDom_aside _ id _
    exact ⟨_, doms, ht.trans hd⟩
  · rw [hcore, if_pos rfl]
    exact backFrom_withImage ..
  · rw [ht, State.modDom_of_some _ (by exact he)]
    exact ⟨held e, (State.dom_setDom ..).trans (if_pos rfl)⟩

/-- The cores of the save area come back, each from its own image. -/
theorem restoreCores_spec {u : State} (d : Domain) (id ia : Nat) (l : List ((Nat × Core) × Nat)) (s : State)
    (hu : ∃ cores doms, s = u.aside cores doms) (hl : (l.map fun k => k.1.1).Nodup) :
    let t := l.foldl (fun s k => s.restoreCore d id ia (k.1.2, k.1.1, k.2)) s
    (∃ cores doms, t = u.aside cores doms) ∧
      (∀ k ∈ l, (t.core k.1.1).BackFrom (fun o n => u.iaBytes d.part (ia + imageSize * k.2 + o) n) k.1.2 (s.core k.1.1) id) ∧
      (∀ c, c ∉ l.map (fun k => k.1.1) → t.core c = s.core c) ∧
      ∀ e, s.dom id = some e → ∃ heldReqs, t.dom id = some { e with heldReqs } := by
  induction l generalizing s with
  | nil => exact ⟨hu, fun k h => absurd h List.not_mem_nil, fun _ _ => rfl, fun e he => ⟨e.heldReqs, he⟩⟩
  | cons a l ih =>
    obtain ⟨hna, hnd⟩ := List.nodup_cons.1 hl
    obtain ⟨cores, doms, rfl⟩ := hu
    obtain ⟨⟨cores', doms', h1⟩, hback, hother, hdom⟩ := restoreCore_spec (u.aside cores doms) d id ia (a.1.2, a.1.1, a.2)
    obtain ⟨ka, kback, kother, kdom⟩ := ih _ ⟨cores', doms', h1.trans rfl⟩ hnd
    simp only [iaBytes_aside] at hback
    refine ⟨ka, fun k hk => ?_, fun c hc => ?_, fun e he => ?_⟩
    · rcases List.mem_cons.1 hk with rfl | hk
      · rw [List.foldl_cons, kother _ hna]
        exact hback
      · have hne : k.1.1 ≠ a.1.1 := fun he => hna (List.mem_map.2 ⟨k, hk, he⟩)
        rw [← hother _ hne]
        exact kback k hk
    · rw [List.map_cons, List.mem_cons, not_or] at hc
      exact (kother c hc.2).trans (hother c hc.1)
    · obtain ⟨h1, he1⟩ := hdom e he
      obtain ⟨h2, he2⟩ := kdom _ he1
      exact ⟨h2, he2⟩

/-! ### The restore -/

theorem restore_taken {id : Nat} {d : Domain} (hd : s.dom id = some d) (h : d.phase ≠ .evicted ∨
    (∃ k ∈ d.saved, (s.core k.1).dom ≠ none ∨ (s.core k.1).clearing = true ∨ (s.core k.1).fenced = true)) :
    s.restore id = s := by
  unfold State.restore
  rw [hd]
  refine if_pos (h.imp_right fun ⟨k, hk, hx⟩ => List.any_eq_true.2 ⟨k, hk, ?_⟩)
  rcases hx with hx | hx | hx
  · simp [Option.isSome_iff_ne_none.2 hx]
  · simp [hx]
  · simp [hx]

/-- A domain that is back from its save area, frozen. -/
def Domain.back (d : Domain) : Domain := { d with phase := .frozen, saved := [], heldReqs := [] }

/-- The cores have come back: the state before the domain's requests do. -/
def State.coresBack (s : State) (id ia : Nat) (d : Domain) : State :=
  d.saved.zipIdx.foldl (fun s k => s.restoreCore d id ia (k.1.2, k.1.1, k.2)) (s.readArea d ia d.saved.length).1

theorem restore_eq {id ia : Nat} {d : Domain} (hd : s.dom id = some d) (hp : d.phase = .evicted) (hia : d.saveIA = some ia)
    (hfree : ∀ k ∈ d.saved, (s.core k.1).dom = none ∧ (s.core k.1).clearing = false ∧ (s.core k.1).fenced = false)
    (hr : (s.readArea d ia d.saved.length).2 = none) : ∃ mem, s.restore id =
      (({ s.coresBack id ia d with mem } : State).modDom id Domain.back).tableWrite := by
  have hany : d.saved.any (fun k => let x := s.core k.1; x.dom.isSome || x.clearing || x.fenced) = false := by
    rw [List.any_eq_false]
    intro k hk
    obtain ⟨h1, h2, h3⟩ := hfree k hk
    simp [h1, h2, h3]
  obtain ⟨u, hu⟩ : ∃ u, s.readArea d ia d.saved.length = (u, none) := ⟨_, Prod.ext rfl hr⟩
  unfold State.restore
  rw [hd]
  dsimp only
  rw [if_neg (by simp [hp, hany]), hia, Option.getD_some, hu]
  unfold State.coresBack
  rw [hu]
  exact ⟨_, rfl⟩

/-- A domain that is frozen stands at the SC at which it was evicted. -/
theorem Domain.sc_of_away {d d' : Domain} (hp : d.phase = .frozen ∨ d.phase = .evicted)
    (hp' : d'.phase = .frozen ∨ d'.phase = .evicted) (ha : d'.frozenAt = d.frozenAt) (h0 : d'.b0 = d.b0) (hh : d'.h = d.h)
    (b : Nat) : d'.sc b = d.sc b := by
  rcases hp with hp | hp <;> rcases hp' with hp' | hp' <;> simp [Domain.sc, hp, hp', ha, h0, hh]

theorem readArea_memOnly (s : State) (d : Domain) (ia n : Nat) : MemOnly s (s.readArea d ia n).1 := by
  unfold State.readArea
  dsimp only
  split
  · exact .refl s
  · exact s.iaRead_memOnly ..

theorem zipIdx_numbers {α : Type} (l : List (Nat × α)) : l.zipIdx.map (fun k => k.1.1) = l.map Prod.fst := by
  have h := List.map_map (f := Prod.fst) (g := (Prod.fst : Nat × α → Nat)) (l := l.zipIdx)
  rw [List.zipIdx_map_fst] at h
  exact h.symm

/-- What a restore leaves, onto free cores. -/
theorem restore_spec {id ia : Nat} {d : Domain} (hd : s.dom id = some d) (hp : d.phase = .evicted) (hia : d.saveIA = some ia)
    (hn : (d.saved.map Prod.fst).Nodup)
    (hfree : ∀ k ∈ d.saved, (s.core k.1).dom = none ∧ (s.core k.1).clearing = false ∧ (s.core k.1).fenced = false)
    (hr : (s.readArea d ia d.saved.length).2 = none) :
    (∃ heldReqs, (s.restore id).dom id = some ({ d with heldReqs } : Domain).back) ∧
      (∀ k ∈ d.saved.zipIdx, ((s.restore id).core k.1.1).BackFrom
        (fun o n => (s.readArea d ia d.saved.length).1.iaBytes d.part (ia + imageSize * k.2 + o) n) k.1.2 (s.core k.1.1) id) ∧
      ∀ c, c ∉ d.saved.map Prod.fst → (s.restore id).core c = s.core c := by
  have hm := readArea_memOnly s d ia d.saved.length
  have hcore (c : Nat) : (s.readArea d ia d.saved.length).1.core c = s.core c := by rw [State.core, State.core, hm.cores]
  obtain ⟨mem, ht⟩ := restore_eq hd hp hia hfree hr
  obtain ⟨-, hback, hother, hdom⟩ := restoreCores_spec (u := (s.readArea d ia d.saved.length).1) d id ia d.saved.zipIdx
    (s.readArea d ia d.saved.length).1 ⟨_, _, rfl⟩ (by rw [zipIdx_numbers]; exact hn)
  obtain ⟨heldReqs, he⟩ := hdom d (by rw [State.dom, hm.doms]; exact hd)
  have htc (c : Nat) : (s.restore id).core c = (s.coresBack id ia d).core c := by
    rw [ht, State.core_tableWrite, modDom_core]
    rfl
  refine ⟨⟨heldReqs, ?_⟩, fun k hk => ?_, fun c hc => ?_⟩
  · rw [ht, State.dom_tableWrite, State.modDom_of_some _ (by exact he)]
    exact (State.dom_setDom ..).trans (if_pos rfl)
  · rw [htc, ← hcore]
    exact hback k hk
  · rw [htc, ← hcore]
    exact hother c (by rw [zipIdx_numbers]; exact hc)

/-! ### Late replies -/

/-- The domain of a late reply takes it into its save area; an event of the store that keeps it changes no saved core. -/
theorem lateReply_dom {c slot id : Nat} {d : Domain} (data : VWord) (hl : s.lateDom c slot = some (id, d)) (hs : slot < 256) :
    ∃ d', (s.lateReply c slot data).dom id = some d' ∧ d'.saved =
      d.saved.map fun k => if k.1 = c then (k.1, { k.2 with fab := k.2.fab.takePart slot data }) else k := by
  unfold State.lateReply
  rw [hl]
  dsimp only
  rw [if_neg (by omega)]
  simp only [if_pos hs]
  generalize hsaved : (d.saved.map fun k => if k.1 = c then (k.1, ({ k.2 with fab := k.2.fab.takePart slot data } : Core)) else k) = saved
  have hd : (s.setDom id { d with saved }).dom id = some { d with saved } := (State.dom_setDom ..).trans (if_pos rfl)
  have stored {u : State} (p ia : Nat) (bytes : List Byte) (hu : u.dom id = some { d with saved }) :
      (u.iaStore p ia bytes).1.dom id = some { d with saved } := by
    rw [State.dom, (u.iaStore_storeOnly p ia bytes).doms]
    exact hu
  split
  · exact ⟨_, stored _ _ _ (stored _ _ _ hd), rfl⟩
  · obtain ⟨d', hd', hn⟩ := ((EventFrame.refl _).raiseDom id 0).dom id _ (stored _ _ _ (stored _ _ _ hd))
    exact ⟨d', hd', by rw [hn]⟩

theorem exec_lateReply {c slot : Nat} (data : VWord) (hc : c < 4096) :
    exec (.lateReply c slot data) s = .next (s.lateReply c slot data) :=
  if_pos (show unitsOk (.lateReply c slot data) = true from decide_eq_true hc)

theorem getLsbD_setSlot {slot : Nat} (m : BitVec 256) (h : slot < 256) :
    (m ||| ((1 : BitVec 256) <<< slot)).getLsbD slot = true := by
  simp [h]

theorem evict_refused {id : Nat} {d : Domain} (hd : s.dom id = some d) (hp : d.phase = .frozen) (hs : s.heldShared d = true)
    (ia : Nat) : s.evict id ia = s.refuseOrder id := by
  unfold State.evict
  rw [hd]
  dsimp only
  rw [if_neg (by simp [hp]), if_pos hs]

/-- Settles O36: the save area and the domain after an eviction, a restore, and a reply between them. -/
theorem evictionAndRestore : Obligations.EvictionAndRestore := by
  refine ⟨fun s id ia n d c hd hp hs hf hr _ hok => ?_, fun s id ia d hd => ⟨fun hp => ?_, fun hp hs => ?_⟩,
    fun s id ia d hd hp hia hn hfree hr => ?_, fun s id d hd h => congrArg Host.Outcome.next (restore_taken hd h),
    fun s c slot id x lid data d sv hc hs hl hsaved hloads => ?_, fun s c slot data hc hl => ?_⟩
  · obtain ⟨e, hn, he, hlast, hall, hreqs⟩ := evict_spec hd hp hs hf hr hok
    have hkept : e.phase = d.phase ∧ e.frozenAt = d.frozenAt ∧ e.b0 = d.b0 ∧ e.h = d.h := by rw [hn]; exact ⟨rfl, rfl, rfl, rfl⟩
    obtain ⟨-, ha, h0, hh⟩ := hkept
    refine ⟨_, _, rfl, he, rfl, rfl, hlast, Domain.sc_of_away (.inl hp) (.inr rfl) ha h0 hh, fun k hk => ?_, hall, hreqs⟩
    have hw := imaged_core s d ia k.1
    refine ⟨_, List.mem_map.2 ⟨k.1, mem_sorted.2 (List.mem_map.2 ⟨k, hk, rfl⟩), rfl⟩, ?_⟩
    rw [hw]
    exact ⟨rfl, rfl, rfl, rfl, rfl, rfl, rfl⟩
  · refine congrArg Host.Outcome.next ?_
    unfold State.evict
    rw [hd]
    exact if_pos hp
  · exact ⟨_, _, congrArg Host.Outcome.next (evict_refused hd hp hs ia), rfl, rfl, rfl, rfl⟩
  · intro area
    obtain ⟨⟨heldReqs, he⟩, hback, hother⟩ := restore_spec hd hp hia hn hfree hr
    refine ⟨_, _, rfl, he, rfl, rfl, Domain.sc_of_away (.inr hp) (.inl rfl) rfl rfl rfl, fun k hk => ?_, hother⟩
    obtain ⟨h1, h2, h3, h4, h5, h6, h7⟩ := hback k hk
    exact ⟨h1, h2, h3, h4, h5, h6, h7⟩
  · obtain ⟨d', hd', hs'⟩ := lateReply_dom data hl hs
    rw [hsaved] at hs'
    have hleft : ((sv.fab.loads.find? fun l => l.1 == slot).map (·.2.2.2)).getD 0 - 1 = 0 := by simp [hloads]
    refine ⟨_, d', { sv with fab := sv.fab.takePart slot data }, exec_lateReply data hc, hd', by simpa using hs', ?_, ?_, rfl, ?_⟩
    · exact (sget_sinsert ..).trans (if_pos rfl)
    · unfold Fabric.takePart
      dsimp only
      rw [hleft, if_pos rfl]
      exact getLsbD_setSlot _ hs
    · unfold Fabric.takePart
      dsimp only
      rw [hleft, hloads]
      simp
  · rw [exec_lateReply data hc]
    unfold State.lateReply
    rw [hl]

end Sys2Proof.Machine
end

section
/-! The entries of the engines start, wait, or fault (R21, R26, R27, R206, R207, R211): the statement O40. -/

open Sys2Proof Sys2Proof.Machine

namespace Sys2Proof.Machine

variable {s t u : State}

/-! ### Queues and sequencers -/

@[simp] theorem Engines.queue_setQueue (k : Engines) (e : Eng) (l : List QEntry) : (k.setQueue e l).queue e = l := by
  cases e <;> rfl

/-- Of the engines a queue alone differs. -/
def Engines.QueueOnly (k k' : Engines) : Prop :=
  k' = { k with mxq := k'.mxq, pxq := k'.pxq, ceq := k'.ceq, cxq := k'.cxq, weirq := k'.weirq }

theorem Engines.setQueue_only (k : Engines) (e : Eng) (l : List QEntry) : k.QueueOnly (k.setQueue e l) := by
  cases e <;> rfl

/-- The engines with an entry out of its queue. -/
def Engines.dequeued (k : Engines) (basin : Nat) (e : Eng) (issue : Half) : Engines :=
  match (k.queue e).filter (fun x => x.issue != issue) with
  | [] => k.setQueue e []
  | x :: t => k.setQueue e ({ x with headAt := if (k.queue e).head?.any (fun y => y.issue == issue) then basin else x.headAt } :: t)

theorem dequeue_eq (s : State) (c : Nat) (e : Eng) (issue : Half) :
    s.dequeue c e issue = s.modEng c fun k => k.dequeued s.basin e issue := rfl

theorem Engines.dequeued_only (k : Engines) (basin : Nat) (e : Eng) (issue : Half) : k.QueueOnly (k.dequeued basin e issue) := by
  unfold Engines.dequeued
  split <;> exact k.setQueue_only ..

/-- The other entries stay, in their order. -/
theorem Engines.dequeued_issues (k : Engines) (basin : Nat) (e : Eng) (issue : Half) :
    ((k.dequeued basin e issue).queue e).map (·.issue) = ((k.queue e).filter fun x => x.issue != issue).map (·.issue) := by
  unfold Engines.dequeued
  split
  · rename_i h; rw [Engines.queue_setQueue, h]
  · rename_i h; rw [Engines.queue_setQueue, h]; rfl

/-- The sequencer of an engine does not read its queue. -/
theorem seq_modEng_queueOnly {f : Engines → Engines} (hf : ∀ k : Engines, k.QueueOnly (f k)) (s : State) (c : Nat) (q : Seqr) :
    (s.modEng c f).seq c q = s.seq c q := by
  have h : ((s.modEng c f).core c).eng = f (s.core c).eng := by rw [State.core_modEng, if_pos rfl]
  unfold State.seq
  rw [h, hf (s.core c).eng]
  rfl

/-! ### The start of an entry -/

/-- The step at hand changes of the progress registers its position alone. -/
theorem progFor_kept (s : State) (c : Nat) (q : QEntry) (n : Nat) (p : Prog) : s.progFor c q n p =
    { p with lidx := (s.progFor c q n p).lidx, slot := (s.progFor c q n p).slot, whalf := (s.progFor c q n p).whalf
             nexttag := (s.progFor c q n p).nexttag, par := (s.progFor c q n p).par, pass := (s.progFor c q n p).pass
             chunk := (s.progFor c q n p).chunk } := by
  unfold State.progFor
  dsimp only
  split
  · rfl
  · split <;> rfl
  · rfl

/-- What the write of a sequencer leaves as it was. -/
theorem setSeq_core (s : State) (c : Nat) (q : Seqr) (x : SeqState) (j : Nat) : ∃ mx px ce,
    (s.setSeq c q x).core j = { s.core j with eng := { (s.core j).eng with mx, px, ce } } ∧
      (j ≠ c → mx = (s.core j).eng.mx ∧ px = (s.core j).eng.px ∧ ce = (s.core j).eng.ce) := by
  unfold State.setSeq
  split
  all_goals try exact ⟨_, _, _, rfl, fun _ => ⟨rfl, rfl, rfl⟩⟩
  all_goals
    rw [State.core_modEng]
    split
    · subst_vars; exact ⟨_, _, _, rfl, fun h => absurd rfl h⟩
    · exact ⟨_, _, _, rfl, fun _ => ⟨rfl, rfl, rfl⟩⟩

/-- The progress registers of an entry that starts. -/
def Prog.begun (p : Prog) (issue : Half) (n : Nat) : Prog :=
  { p with cause := 0, state := 1, resumed := false, flags := 0, issue, steps := 0, total := BitVec.ofNat 32 n, count := 0 }

/-- A sequencer that begins an entry of a core at a start SC. -/
def SeqState.begun (x : SeqState) (c : Nat) (ent : QEntry) (sc total nextFree lastWrite : Nat) (prog : Prog) : SeqState :=
  { x with
    prog, core := c, active := x.active ++ [⟨ent, sc, 0, 0, total, []⟩], nextFree, lastWrite, list := [], nanSeen := false
    stopEv := none, refetchAt := none }

theorem startEntry_eq (s : State) (c : Nat) (q : Seqr) (ent : QEntry) : ∃ (total nextFree lastWrite : Nat),
    s.startEntry c q ent = (s.dequeue c q.eng ent.issue).setSeq c q
      ((s.seq c q).begun c ent (s.sc c) total nextFree lastWrite
        ((s.dequeue c q.eng ent.issue).progFor c ent 0 ((s.seq c q).prog.begun ent.issue (s.entrySteps c ent)))) := by
  have hseq : (s.dequeue c q.eng ent.issue).seq c q = s.seq c q :=
    seq_modEng_queueOnly (fun k => k.dequeued_only s.basin q.eng ent.issue) s c q
  unfold State.startEntry
  dsimp only
  rw [hseq]
  exact ⟨_, _, _, rfl⟩

theorem core_dequeue_other {c j : Nat} (h : j ≠ c) (e : Eng) (issue : Half) : (s.dequeue c e issue).core j = s.core j := by
  rw [dequeue_eq, State.core_modEng, if_neg (Ne.symm h)]

theorem core_dequeue_self (s : State) (c : Nat) (e : Eng) (issue : Half) :
    (s.dequeue c e issue).core c = { s.core c with eng := (s.core c).eng.dequeued s.basin e issue } := by
  rw [dequeue_eq, State.core_modEng, if_pos rfl]

/-- The write of a sequencer leaves the queues. -/
theorem Engines.queue_seqs (k : Engines) (mx px ce : SeqState) (e : Eng) : { k with mx, px, ce }.queue e = k.queue e := by
  cases e <;> rfl

theorem filter_head_out {ent : QEntry} {rest : List QEntry} (hrest : ∀ e ∈ rest, e.issue ≠ ent.issue) :
    (ent :: rest).filter (fun x => x.issue != ent.issue) = rest := by
  rw [List.filter_cons_of_neg (by simp)]
  exact List.filter_eq_self.2 fun e he => by simpa using hrest e he

/-- Of the core itself the write of a sequencer after a dequeue leaves all but the queue and the sequencers. -/
theorem core_dequeue_setSeq (s : State) (c : Nat) (q : Seqr) (issue : Half) (x : SeqState) : ∃ mx px ce,
    ((s.dequeue c q.eng issue).setSeq c q x).core c =
      { s.core c with eng := { (s.core c).eng.dequeued s.basin q.eng issue with mx, px, ce } } := by
  obtain ⟨mx, px, ce, h, -⟩ := setSeq_core (s.dequeue c q.eng issue) c q x c
  exact ⟨mx, px, ce, by rw [h, core_dequeue_self]⟩

theorem core_dequeue_setSeq_other {c j : Nat} (hj : j ≠ c) (s : State) (q : Seqr) (issue : Half) (x : SeqState) :
    ((s.dequeue c q.eng issue).setSeq c q x).core j = s.core j := by
  obtain ⟨_, _, _, h, hsame⟩ := setSeq_core (s.dequeue c q.eng issue) c q x j
  obtain ⟨hmx, hpx, hce⟩ := hsame hj
  rw [h, hmx, hpx, hce, core_dequeue_other hj]

/-- What the start of the head of a queue changes, and nothing else. -/
theorem startEntry_startsNow {q : Seqr} {ent : QEntry} {rest : List QEntry}
    (hq : (s.core s.cur).eng.queue q.eng = ent :: rest) (hrest : ∀ e ∈ rest, e.issue ≠ ent.issue) :
    Spec.startsNow s (s.startEntry s.cur q ent) q ent rest := by
  obtain ⟨total, nextFree, lastWrite, heq⟩ := startEntry_eq s s.cur q ent
  rw [progFor_kept] at heq
  have hiss := (s.core s.cur).eng.dequeued_issues s.basin q.eng ent.issue
  rw [hq, filter_head_out hrest] at hiss
  have hkept := (s.core s.cur).eng.dequeued_only s.basin q.eng ent.issue
  generalize hx : SeqState.begun .. = x at heq
  rw [heq]
  obtain ⟨mx, px, ce, hcore⟩ := core_dequeue_setSeq s s.cur q ent.issue x
  have hother (c : Nat) (hc : c ≠ s.cur) := core_dequeue_setSeq_other hc s q ent.issue x
  have hmem : ((s.dequeue s.cur q.eng ent.issue).setSeq s.cur q x).mem = s.mem := State.setSeq_mem ..
  have hcur : ((s.dequeue s.cur q.eng ent.issue).setSeq s.cur q x).cur = s.cur := State.setSeq_cur ..
  have hseq := State.seq_setSeq (s := s.dequeue s.cur q.eng ent.issue) s.cur q x
  generalize State.setSeq .. = t at hcore hother hmem hcur hseq ⊢
  unfold Spec.startsNow Spec.be Spec.cc
  dsimp only
  rw [hcur, hseq, hcore, hmem, ← hx]
  refine ⟨rfl, rfl, rfl, rfl, rfl, rfl, rfl, rfl, rfl, rfl, ⟨total, rfl⟩, rfl, ?_, ?_, ?_, ?_, rfl, rfl, rfl, hother⟩
  · rw [Engines.queue_seqs]; exact hiss
  all_goals rw [hkept]

/-! ### The Elastic start -/

theorem canStart_of_fits {q : Seqr} {ent : QEntry} {rest : List QEntry} (hq : (s.core s.cur).eng.queue q.eng = ent :: rest)
    (ha : (s.seq s.cur q).active = []) (hp : (s.seq s.cur q).prog.state = 0) (hf : Spec.fits s q ent)
    (hsc : ent.start.toNat ≤ s.sc s.cur) (hz : s.hazard s.cur q.eng ent.issue = false) :
    s.canStart s.cur q = some ent := by
  unfold State.canStart Spec.fits at *
  rw [hq]
  dsimp only [List.head?]
  refine if_pos ?_
  rw [hz, ha, hp]
  cases he : q.eng <;> rw [he] at hf <;> simp_all

theorem canStart_none {q : Seqr} {ent : QEntry} {rest : List QEntry} (hq : (s.core s.cur).eng.queue q.eng = ent :: rest)
    (hno : (s.seq s.cur q).active ≠ [] ∨ (s.seq s.cur q).prog.state ≠ 0 ∨ ¬ Spec.fits s q ent ∨ s.sc s.cur < ent.start.toNat ∨
      s.hazard s.cur q.eng ent.issue = true) : s.canStart s.cur q = none := by
  unfold State.canStart Spec.fits at *
  rw [hq]
  dsimp only [List.head?]
  refine if_neg fun h => ?_
  simp only [Bool.and_eq_true, decide_eq_true_eq, List.isEmpty_iff, beq_iff_eq, Bool.not_eq_true'] at h
  obtain ⟨⟨⟨⟨hfit, ha⟩, hp⟩, hsc⟩, hz⟩ := h
  rcases hno with h | h | h | h | h
  · exact h ha
  · exact h hp
  · revert hfit h
    cases q.eng <;> simp +contextual
  · omega
  · exact absurd (h.symm.trans hz) (by decide)

theorem macroStart_elastic {q : Seqr} (hl : s.live s.cur = true) (ht : s.timed s.cur = false) :
    exec (.macroStart q) s = .next (match s.canStart s.cur q with
      | some ent => s.startEntry s.cur q ent
      | none => s) := congrArg Host.Outcome.next ((if_neg (by simp [hl])).trans (if_neg (by simp [ht])))

theorem clash_of_overlap {o m : SbEntry} (hspace : o.space = m.space) (ho : o.base < m.base + m.len)
    (hm : m.base < o.base + o.len)
    (hw : (o.wr = true ∧ (m.rd = true ∨ m.wr = true)) ∨ (o.rd = true ∧ m.wr = true)) : o.clash m = true := by
  unfold SbEntry.clash SbEntry.conflicts
  simp only [Bool.and_eq_true, Bool.or_eq_true, decide_eq_true_eq, beq_iff_eq]
  exact ⟨⟨⟨hspace, ho⟩, hm⟩, hw⟩

/-- In Elastic an overlapping range of an earlier entry is a hazard. -/
theorem hazard_of_clash {e : Eng} {issue : Half} {a l : List SbEntry} {o m : SbEntry} (ht : s.timed s.cur = false)
    (hsb : (s.core s.cur).eng.sboard = a ++ o :: l) (hm : m ∈ l) (hno : ∀ x ∈ a ++ [o], ¬ Spec.rangeOf e issue x)
    (hmine : Spec.rangeOf e issue m) (hc : o.clash m = true) : s.hazard s.cur e issue = true := by
  have hnot (x : SbEntry) (h : x ∈ a ++ [o]) : (!(x.eng == engCode e && x.issue == issue)) = true := by
    simpa [Spec.rangeOf, imp_iff_not_or] using hno x h
  unfold State.hazard
  rw [hsb]
  refine List.any_eq_true.2 ⟨m, List.mem_filter.2 ⟨by simp [hm], ?_⟩, ?_⟩
  · simpa [Spec.rangeOf] using hmine
  · refine Bool.or_eq_true_iff.2 (.inr (List.any_eq_true.2 ⟨o, ?_, by rw [hc, ht]; rfl⟩))
    rw [List.append_cons, List.takeWhile_append_of_pos hnot]
    simp

/-! ### The Timed start -/

theorem timedStart_own_eng {e : Eng} (he : e = .mx ∨ e = .px ∨ e = .ce) : (e == .cx || e == .weir) = false := by
  rcases he with rfl | rfl | rfl <;> rfl

theorem seqFree_own {e : Eng} (he : e = .mx ∨ e = .px ∨ e = .ce) :
    s.seqFree s.cur (Spec.own e) = decide ((s.seq s.cur (Spec.own e)).nextFree ≤ s.sc s.cur) := by
  rcases he with rfl | rfl | rfl <;> rfl

/-- The event of an entry that cannot start at its start SC. -/
def lateStart (e : Eng) (ent : QEntry) : Ev := { engEv e ent.issue 0x08 3 0 with duesc := ent.start }

/-- The entry at the head of a core's own queue whose start SC is now. -/
theorem timedStart_head {e : Eng} {ent : QEntry} {rest : List QEntry} (he : e = .mx ∨ e = .px ∨ e = .ce)
    (hq : (s.core s.cur).eng.queue e = ent :: rest) (hsc : ent.start.toNat = s.sc s.cur) :
    s.timedStart s.cur (Spec.own e) =
      if s.seqFree s.cur (Spec.own e) && !s.hazard s.cur e ent.issue then s.startEntry s.cur (Spec.own e) ent
      else ((s.dequeue s.cur e ent.issue).release s.cur e ent.issue).raise s.cur (lateStart e ent) := by
  unfold State.timedStart
  dsimp only [Spec.own]
  rw [hq, timedStart_own_eng he, List.find?_cons_of_pos (by simp [hsc])]
  dsimp only
  congr 2
  simp

theorem timedStart_none {e : Eng} (h : ∀ x ∈ (s.core s.cur).eng.queue e, x.start.toNat ≠ s.sc s.cur) :
    s.timedStart s.cur (Spec.own e) = s := by
  unfold State.timedStart
  dsimp only [Spec.own]
  rw [List.find?_eq_none.2 fun x hx => by simp [h x hx]]

theorem macroStart_timed {q : Seqr} (hl : s.live s.cur = true) (ht : s.timed s.cur = true) :
    exec (.macroStart q) s = .next (s.timedStart s.cur q) :=
  congrArg Host.Outcome.next ((if_neg (by simp [hl])).trans (if_pos ht))

/-! ### The schedule fault -/

theorem headRecord_doms (s : State) (core part : Nat) (e : Ev) (before : Bool) :
    (s.headRecord core part e before).1.doms = s.doms := by
  unfold State.headRecord
  dsimp only
  split
  · rfl
  · split
    · rfl
    · split
      · rfl
      · split
        · rfl
        · exact (layRecords_recordsOnly ..).doms

theorem effectiveResp_lateStart {d : Domain} (ht : d.timed = true) (e : Eng) (ent : QEntry) :
    s.effectiveResp d (lateStart e ent) = 4 ∨ s.effectiveResp d (lateStart e ent) = 5 := by
  have hr (sfpol : Bool) : respOf true sfpol (lateStart e ent) = if sfpol then 4 else 5 := rfl
  unfold State.effectiveResp
  dsimp only
  rw [ht, hr]
  generalize bitOf (s.partWord d.part 6) 32 = sfpol
  cases sfpol
  · simp
  · simp only [if_true]
    split <;> split <;> simp

/-- The fault of a running Timed domain without a basin timetable sets its freeze point. -/
theorem raise_lateStart {id : Nat} {d : Domain} {c : Nat} (e : Eng) (ent : QEntry) (hc : (s.core c).dom = some id)
    (hd : s.dom id = some d) (hp : d.phase = .running) (ht : d.timed = true) (hb : d.basin = false) :
    ∃ resp, (s.raise c (lateStart e ent)).dom id = some (d.askedAt s.basin resp) := by
  have hdefer : d.defers (lateStart e ent) = false := by simp [Domain.defers, hp]
  have hraise : s.raise c (lateStart e ent) = s.raiseLive id c d (lateStart e ent) := by
    unfold State.raise State.raiseDom State.raiseDomAt
    rw [hc]
    dsimp only
    rw [hd]
    dsimp only
    rw [if_neg (by simp [hp]), if_neg (by simp [hdefer])]
  rw [hraise, State.raiseLive]
  dsimp only
  generalize hr : s.effectiveResp d (lateStart e ent) = r
  have hr45 : r = 4 ∨ r = 5 := hr ▸ effectiveResp_lateStart ht e ent
  have hw := writeRecord_recordsOnly (s.headRecord c d.part (lateStart e ent) d.resp.isSome).1 d.part c (some d)
    (lateStart e ent) r (s.headRecord c d.part (lateStart e ent) d.resp.isSome).2
  have hf := ((EventFrame.refl (F := False) s).headRecord c d.part (lateStart e ent) d.resp.isSome).writeRecord d.part c (some d)
    (lateStart e ent) r (s.headRecord c d.part (lateStart e ent) d.resp.isSome).2
  generalize State.writeRecord .. = w at hw hf ⊢
  have hwd : w.dom id = some d := by rw [State.dom, hw.doms, headRecord_doms]; exact hd
  have hwb : w.basin = s.basin := by rw [hf.frame]
  refine ⟨joinResp d.resp r (respStatus r 0x08).toNat, ?_⟩
  have happly : w.applyResp id d c (lateStart e ent) r = w.modDom id fun x =>
      { x with fpt := some (x.fpt.getD (x.sc w.basin + 256)), resp := joinResp d.resp r (respStatus r 0x08).toNat } := by
    unfold State.applyResp
    have hfirst : freezesFirst (lateStart e ent) = true := rfl
    rcases hr45 with rfl | rfl <;> simp [ht, hb, hp, hfirst] <;> rfl
  rw [happly, State.modDom_of_some _ hwd, hwb]
  exact (State.dom_setDom ..).trans (if_pos rfl)

theorem Engines.released_queue (k : Engines) (l : List SbEntry) (e : Eng) : { k with sboard := l }.queue e = k.queue e := by
  cases e <;> rfl

/-- What becomes of the engines when an entry leaves its queue and the scoreboard. -/
theorem core_dequeue_release (s : State) (c : Nat) (e : Eng) (issue : Half) :
    ((s.dequeue c e issue).release c e issue).core c = { s.core c with eng := { (s.core c).eng.dequeued s.basin e issue with
      sboard := ((s.core c).eng.dequeued s.basin e issue).sboard.filter fun x => !(x.eng == engCode e && x.issue == issue) } } := by
  unfold State.release
  rw [State.core_modEng, if_pos rfl, core_dequeue_self]

theorem seq_release (s : State) (c : Nat) (e : Eng) (issue : Half) (q : Seqr) : (s.release c e issue).seq c q = s.seq c q := by
  have h : ((s.release c e issue).core c).eng = { (s.core c).eng with
      sboard := (s.core c).eng.sboard.filter fun x => !(x.eng == engCode e && x.issue == issue) } := by
    rw [State.release, State.core_modEng, if_pos rfl]
  unfold State.seq
  rw [h]
  rfl

theorem EventFrame.seq {F : Prop} (h : EventFrame F s t) (c : Nat) (q : Seqr) : t.seq c q = s.seq c q := by
  unfold State.seq
  rw [(h.core c).1, h.frame]

/-- An entry of a core's own engine that finds its sequencer busy at its start SC: its domain is to freeze, and the entry has
left its queue and the scoreboard. -/
theorem timedStart_late {e : Eng} {ent : QEntry} {rest : List QEntry} {id : Nat} {d : Domain}
    (he : e = .mx ∨ e = .px ∨ e = .ce) (hc : (s.core s.cur).dom = some id) (hd : s.dom id = some d) (hp : d.phase = .running)
    (ht : d.timed = true) (hb : d.basin = false) (hq : (s.core s.cur).eng.queue e = ent :: rest)
    (hsc : ent.start.toNat = s.sc s.cur) (hbusy : s.sc s.cur < (s.seq s.cur (Spec.own e)).nextFree) :
    ∃ t resp, s.timedStart s.cur (Spec.own e) = t ∧ t.dom id = some (d.askedAt s.basin resp) ∧
      t.seq s.cur (Spec.own e) = s.seq s.cur (Spec.own e) ∧
      (t.core s.cur).eng = ((((s.dequeue s.cur e ent.issue).release s.cur e ent.issue).core s.cur).eng) := by
  have hfree : s.seqFree s.cur (Spec.own e) = false := by rw [seqFree_own he]; exact decide_eq_false (by omega)
  have hcore := core_dequeue_release s s.cur e ent.issue
  obtain ⟨resp, hdom⟩ := raise_lateStart (s := (s.dequeue s.cur e ent.issue).release s.cur e ent.issue) (c := s.cur) e ent
    (by rw [hcore]; exact hc) hd hp ht hb
  have hframe := (EventFrame.refl ((s.dequeue s.cur e ent.issue).release s.cur e ent.issue)).raise (e := lateStart e ent) s.cur
  refine ⟨_, resp, timedStart_head he hq hsc, ?_⟩
  rw [hfree, Bool.false_and, if_neg Bool.false_ne_true]
  refine ⟨hdom, ?_, by rw [(hframe.core s.cur).1]⟩
  rw [hframe.seq, seq_release]
  exact seq_modEng_queueOnly (fun k => k.dequeued_only s.basin e ent.issue) s s.cur (Spec.own e)

theorem issue_ne_of_dequeued {k : Engines} {basin : Nat} {e : Eng} {issue : Half} {x : QEntry}
    (hx : x ∈ (k.dequeued basin e issue).queue e) : x.issue ≠ issue := by
  have hmem : x.issue ∈ ((k.queue e).filter fun y => y.issue != issue).map (·.issue) :=
    k.dequeued_issues basin e issue ▸ List.mem_map_of_mem hx
  obtain ⟨y, hy, hxy⟩ := List.mem_map.1 hmem
  simpa [hxy] using (List.mem_filter.1 hy).2

theorem mem_released {l : List SbEntry} {e : Eng} {issue : Half} {x : SbEntry} :
    x ∈ l.filter (fun x => !(x.eng == engCode e && x.issue == issue)) ↔ x ∈ l ∧ ¬ Spec.rangeOf e issue x := by
  simp [List.mem_filter, Spec.rangeOf, imp_iff_not_or]

/-- Settles O40: a start is `startEntry` on the head of the queue, which `canStart` (Elastic) or the start SC (Timed) picks; the
schedule fault takes the entry out and sets the freeze point of its domain. -/
theorem engineStarts : Obligations.EngineStarts := by
  unfold Obligations.EngineStarts
  refine ⟨fun s q ent rest hl ht hq hrest => ⟨fun ha hp hf hsc hz => ?_, fun hno => ?_, fun a l o m hsb hm hno hmine hsp ho hmo hw => ?_⟩,
    fun s e ent rest he hl ht hq hrest hsc hfree hz => ?_, fun s e he ht hno => ?_,
    fun s e ent rest id d he hc hd hp hdt ht hb hq hsc hbusy => ?_⟩
  · refine ⟨_, macroStart_elastic hl ht, ?_⟩
    rw [canStart_of_fits hq ha hp hf hsc hz]
    exact startEntry_startsNow hq hrest
  · rw [macroStart_elastic hl ht, canStart_none hq (hno.imp_right (·.imp_right (·.imp_right .inl)))]
  · have hz := hazard_of_clash ht hsb hm hno hmine (clash_of_overlap hsp ho hmo hw)
    rw [macroStart_elastic hl ht, canStart_none hq (.inr (.inr (.inr (.inr hz))))]
  · refine ⟨_, macroStart_timed hl ht, ?_⟩
    rw [timedStart_head he hq hsc, seqFree_own he, hz, decide_eq_true hfree]
    exact startEntry_startsNow (q := Spec.own e) hq hrest
  · cases hl : s.live s.cur with
    | false => exact congrArg Host.Outcome.next (if_pos (by simp [hl]))
    | true => rw [macroStart_timed hl ht, timedStart_none hno]
  · have hl : s.live s.cur = true := by
      unfold State.live State.domOf
      simp [hc, hd, hp]
    obtain ⟨t, resp, hstart, hdom, hseq, heng⟩ := timedStart_late he hc hd hp hdt hb hq hsc hbusy
    refine ⟨t, _, (macroStart_timed hl ht).trans (congrArg Host.Outcome.next hstart), hdom, rfl, hp, hseq, fun x => ?_, fun x hx => ?_⟩
    · have hkept := (s.core s.cur).eng.dequeued_only s.basin e ent.issue
      rw [heng, core_dequeue_release, hkept]
      exact mem_released
    · rw [heng, core_dequeue_release, Engines.released_queue] at hx
      exact issue_ne_of_dequeued hx

end Sys2Proof.Machine
end

section
/-! One turn of an engine whose sequencer runs one entry in Elastic (R206, R211, R233, R314): what the operations on its steps
give, and what a turn leaves alone. The clauses of O43 and O58 rest on these. -/

open Sys2Proof Sys2Proof.Machine

namespace Sys2Proof.Machine

variable {s t u : State} {c : Nat} {q : Seqr} {a : ActiveEntry} {st : StepState} {B : Prop}

/-! ### What a turn leaves -/

/-- What a turn may change of a core: its sequencers, overlays, transfers held for a plan and counters, and, but under `B`, the
accesses that its bundle engine holds for scratchpad and accumulators. -/
def Core.Turned (B : Prop) (k k' : Core) : Prop :=
  k' = { k with
    eng := { k.eng with mx := k'.eng.mx, px := k'.eng.px, ce := k'.eng.ce, ispad := k'.eng.ispad, regions := k'.eng.regions }
    be := { k.be with accesses := k'.be.accesses }
    fab := { k.fab with plan := k'.fab.plan }
    pc := k'.pc } ∧ (B → k'.be = k.be)

theorem Core.Turned.refl (k : Core) : k.Turned B k := ⟨rfl, fun _ => rfl⟩

theorem Core.Turned.trans {k k' k'' : Core} (h : k.Turned B k') (h' : k'.Turned B k'') : k.Turned B k'' := by
  obtain ⟨e, b⟩ := h
  obtain ⟨e', b'⟩ := h'
  exact ⟨by rw [e', e], fun hb => (b' hb).trans (b hb)⟩

structure TurnFrame (B : Prop) (s t : State) : Prop where
  rest : t = { s with cores := t.cores, seqs := t.seqs }
  core : ∀ j, (s.core j).Turned B (t.core j)

namespace TurnFrame

theorem refl (s : State) : TurnFrame B s s := ⟨rfl, fun _ => .refl _⟩

theorem trans (h : TurnFrame B s t) (k : TurnFrame B t u) : TurnFrame B s u :=
  ⟨by rw [k.rest, h.rest], fun j => (h.core j).trans (k.core j)⟩

theorem setCore {k : Core} (h : TurnFrame B s t) (c : Nat) (hk : (t.core c).Turned B k) : TurnFrame B s (t.setCore c k) := by
  refine h.trans ⟨rfl, fun j => ?_⟩
  rw [State.core_setCore]
  split
  · subst_vars; exact hk
  · exact .refl _

theorem modCore {f : Core → Core} (h : TurnFrame B s t) (c : Nat) (hf : ∀ k : Core, k.Turned B (f k)) :
    TurnFrame B s (t.modCore c f) := h.setCore c (hf _)

theorem setSeq (h : TurnFrame B s t) (c : Nat) (q : Seqr) (x : SeqState) : TurnFrame B s (t.setSeq c q x) := by
  unfold State.setSeq
  split
  case h_1 => exact h.modCore c fun _ => ⟨rfl, fun _ => rfl⟩
  case h_2 => exact h.modCore c fun _ => ⟨rfl, fun _ => rfl⟩
  case h_3 => exact h.modCore c fun _ => ⟨rfl, fun _ => rfl⟩
  all_goals exact h.trans ⟨rfl, fun _ => .refl _⟩

theorem modSeq (h : TurnFrame B s t) (c : Nat) (q : Seqr) (f : SeqState → SeqState) : TurnFrame B s (t.modSeq c q f) := h.setSeq ..

theorem modStep (h : TurnFrame B s t) (c : Nat) (q : Seqr) (issue : Half) (n : Nat) (f : StepState → StepState) :
    TurnFrame B s (t.modStep c q issue n f) := h.modSeq ..

theorem beginStep (h : TurnFrame B s t) (c : Nat) (q : Seqr) (issue : Half) (n : Nat) :
    TurnFrame B s (t.beginStep c q issue n) := by
  unfold State.beginStep
  exact h.modSeq ..

theorem commitStep (h : TurnFrame B s t) (c : Nat) (q : Seqr) (st : StepState) : TurnFrame B s (t.commitStep c q st) := by
  unfold State.commitStep
  dsimp only
  split
  · exact h
  · exact h.setSeq ..

theorem count (h : TurnFrame B s t) (c ev n : Nat) : TurnFrame B s (t.count c ev n) := by
  unfold State.count
  dsimp only
  split
  · exact h.setCore c ⟨rfl, fun _ => rfl⟩
  · exact h

theorem modFabPlan (h : TurnFrame B s t) (c : Nat) (f : Fabric → List Held) :
    TurnFrame B s (t.modFab c fun k => { k with plan := f k }) := h.modCore c fun _ => ⟨rfl, fun _ => rfl⟩

theorem modAccesses (h : TurnFrame False s t) (c : Nat) (f : Be → List SpAccess) :
    TurnFrame False s (t.modBe c fun b => { b with accesses := f b }) := h.modCore c fun _ => ⟨rfl, False.elim⟩

theorem engStore (h : TurnFrame False s t) (a : Ask) (kind : SpKind) (addr : Nat) (bs : List Byte) (due : Nat) (tag : BitVec 16)
    (keep : Nat) (poison : Bool) : TurnFrame False s (t.engStore a kind addr bs due tag keep poison) := by
  unfold State.engStore
  exact h.modAccesses ..

theorem mem (h : TurnFrame B s t) : t.mem = s.mem := by rw [h.rest]
theorem be (h : TurnFrame B s t) (hb : B) (j : Nat) : (t.core j).be = (s.core j).be := (h.core j).2 hb
theorem cc (h : TurnFrame B s t) (j : Nat) : (t.core j).cc = (s.core j).cc := by rw [(h.core j).1]
theorem dom (h : TurnFrame B s t) (j : Nat) : (t.core j).dom = (s.core j).dom := by rw [(h.core j).1]
theorem spad (h : TurnFrame B s t) (j : Nat) : (t.core j).eng.spad = (s.core j).eng.spad := by rw [(h.core j).1]
theorem spadPoison (h : TurnFrame B s t) (j : Nat) : (t.core j).eng.spadPoison = (s.core j).eng.spadPoison := by
  rw [(h.core j).1]

theorem domOf (h : TurnFrame B s t) (j : Nat) : t.domOf j = s.domOf j := by
  have hd (id : Nat) : t.dom id = s.dom id := by rw [State.dom, h.rest]; rfl
  rw [State.domOf, h.dom]
  exact congrArg ((s.core j).dom.bind ·) (funext hd)

theorem sc (h : TurnFrame B s t) (j : Nat) : t.sc j = s.sc j := by
  rw [State.sc, h.domOf, State.sc, show t.basin = s.basin by rw [h.rest]]

theorem live (h : TurnFrame B s t) (j : Nat) : t.live j = s.live j := by rw [State.live, h.domOf]; rfl
theorem timed (h : TurnFrame B s t) (j : Nat) : t.timed j = s.timed j := by rw [State.timed, h.cc]; rfl

end TurnFrame

/-! ### Sequencers through the other updates -/

theorem seq_of_engines (hs : t.seqs = s.seqs) (hm : (t.core c).eng.mx = (s.core c).eng.mx)
    (hp : (t.core c).eng.px = (s.core c).eng.px) (hc : (t.core c).eng.ce = (s.core c).eng.ce) (q : Seqr) :
    t.seq c q = s.seq c q := by
  unfold State.seq
  rw [hs, hm, hp, hc]

theorem seq_setCore {k : Core} (s : State) (hk : k.eng = (s.core c).eng) (q : Seqr) : (s.setCore c k).seq c q = s.seq c q := by
  have h : ((s.setCore c k).core c).eng = (s.core c).eng := by rw [State.core_setCore, if_pos rfl, hk]
  exact seq_of_engines (s := s) (t := s.setCore c k) (c := c) rfl (by rw [h]) (by rw [h]) (by rw [h]) q

@[simp] theorem seq_modBe (s : State) (c : Nat) (f : Be → Be) (q : Seqr) : (s.modBe c f).seq c q = s.seq c q := by
  unfold State.modBe State.modCore
  exact seq_setCore s (by rfl) q

@[simp] theorem seq_modFab (s : State) (c : Nat) (f : Fabric → Fabric) (q : Seqr) : (s.modFab c f).seq c q = s.seq c q := by
  unfold State.modFab State.modCore
  exact seq_setCore s (by rfl) q

@[simp] theorem seq_count (s : State) (c ev n : Nat) (q : Seqr) : (s.count c ev n).seq c q = s.seq c q := by
  unfold State.count
  dsimp only
  split
  · exact seq_setCore s (by rfl) q
  · rfl

/-- Where the engines change but not their sequencers. -/
theorem seq_modEng {f : Engines → Engines} (hf : ∀ k : Engines, (f k).mx = k.mx ∧ (f k).px = k.px ∧ (f k).ce = k.ce) (s : State)
    (c : Nat) (q : Seqr) : (s.modEng c f).seq c q = s.seq c q := by
  obtain ⟨hm, hp, hc⟩ := hf (s.core c).eng
  have h : ((s.modEng c f).core c).eng = f (s.core c).eng := by rw [State.core_modEng, if_pos rfl]
  exact seq_of_engines (s := s) (t := s.modEng c f) (c := c) rfl (by rw [h, hm]) (by rw [h, hp]) (by rw [h, hc]) q

/-! ### A sequencer that runs one entry -/

/-- Core `c` runs, in Elastic, and the sequencer runs one entry with these steps in flight. -/
structure RunsOne (s : State) (c : Nat) (q : Seqr) (a : ActiveEntry) (l : List StepState) : Prop where
  live : s.live c = true
  elastic : s.timed c = false
  active : (s.seq c q).active = [a]
  steps : (s.seq c q).steps = l
  issue : ∀ x ∈ l, x.issue = a.entry.issue

theorem runsOne_of_elastic {steps : List StepState} (h : Spec.elastic s q a steps) : RunsOne s (s.seqCore q) q a steps := by
  obtain ⟨hl, ht, ha, hs, hi⟩ := h
  exact ⟨hl, ht, ha, hs, hi⟩

theorem RunsOne.turned {x : SeqState} {b : ActiveEntry} {steps steps' : List StepState} (h : RunsOne s c q a steps)
    (hf : TurnFrame B s t) (hx : t.seq c q = x) (hb : x.active = [b]) (hs : x.steps = steps')
    (hi : ∀ st ∈ steps', st.issue = b.entry.issue) : RunsOne t c q b steps' :=
  ⟨(hf.live c).trans h.live, (hf.timed c).trans h.elastic, hx ▸ hb, hx ▸ hs, hi⟩

namespace RunsOne

theorem entry {steps : List StepState} (h : RunsOne s c q a steps) {issue : Half} (hi : issue = a.entry.issue) :
    (s.seq c q).entry issue = some a := by
  rw [SeqState.entry, h.active, hi]
  simp

theorem youngest {steps : List StepState} (h : RunsOne s c q a steps) : (s.seq c q).youngest = some a := by
  rw [SeqState.youngest, h.active]
  rfl

theorem stepAt (h : RunsOne s c q a [st]) : s.stepAt c q st.issue st.n = some st := by
  rw [State.stepAt, h.steps]
  simp

theorem eachStep (h : RunsOne s c q a [st]) (f : State → ActiveEntry → StepState → State) : s.eachStep c q f = f s a st := by
  rw [State.eachStep, h.steps]
  dsimp only [List.foldl]
  rw [h.entry (h.issue st (List.mem_singleton_self st)), h.stepAt]

/-- While a step is in flight no other one starts. -/
theorem stepDue_busy (h : RunsOne s c q a [st]) (b : ActiveEntry) (n : Nat) : s.stepDue c q (s.seq c q) b n = false := by
  simp [State.stepDue, h.elastic, h.steps]

theorem stepDue_next (h : RunsOne s c q a []) (hlt : a.started < a.total) (he : a.started = a.committed)
    (hp : (s.seq c q).prog.state = 1) (hs : (s.seq c q).stopEv = none) : s.stepDue c q (s.seq c q) a a.total = true := by
  simp [State.stepDue, h.elastic, h.steps, he ▸ hlt, he, hp, hs]

/-- The one step in flight changes. -/
theorem seq_modStep (h : RunsOne s c q a [st]) (f : StepState → StepState) :
    (s.modStep c q st.issue st.n f).seq c q = { s.seq c q with steps := [f st] } := by
  rw [State.modStep, State.seq_modSeq, h.steps]
  simp

theorem modStep (h : RunsOne s c q a [st]) (f : StepState → StepState) (hf : (f st).issue = st.issue) :
    RunsOne (s.modStep c q st.issue st.n f) c q a [f st] :=
  h.turned (B := True) ((TurnFrame.refl s).modStep ..) (h.seq_modStep f) h.active rfl
    fun _ hm => by rw [List.mem_singleton.1 hm, hf, h.issue st (List.mem_singleton_self st)]

end RunsOne

/-- A step that has just begun. -/
def newStep (issue : Half) (n sc : Nat) : StepState := { issue, n, t0 := sc, samples := [], reads := [], stage := 0, flags := 0 }

theorem RunsOne.seq_beginStep (h : RunsOne s c q a []) : (s.beginStep c q a.entry.issue a.started).seq c q =
    { s.seq c q with active := [{ a with started := a.started + 1 }], steps := [newStep a.entry.issue a.started (s.sc c)] } := by
  rw [State.beginStep, State.seq_modSeq, h.active, h.steps]
  simp [newStep]

theorem RunsOne.beginStep (h : RunsOne s c q a []) : RunsOne (s.beginStep c q a.entry.issue a.started) c q
    { a with started := a.started + 1 } [newStep a.entry.issue a.started (s.sc c)] :=
  h.turned (B := True) ((TurnFrame.refl s).beginStep ..) h.seq_beginStep rfl rfl
    fun _ hm => by rw [List.mem_singleton.1 hm]; rfl

/-! ### The commit of a step -/

/-- A sequencer whose one step has committed: the state of `Spec.stepCommitted`. -/
def SeqState.commits (x x' : SeqState) (a : ActiveEntry) (st : StepState) : Prop :=
  x'.active = [{ a with committed := st.n + 1 }] ∧ x'.steps = [] ∧ x'.prog.steps = x.prog.steps + 1 ∧
    x'.prog.flags = x.prog.flags ||| st.flags ∧ x'.prog.state = x.prog.state ∧ x'.prog.issue = x.prog.issue ∧
    x'.prog.cause = x.prog.cause

theorem RunsOne.seq_commitStep (h : RunsOne s c q a [st]) : (s.commitStep c q st).seq c q = { s.seq c q with
    active := [{ a with committed := st.n + 1 }], steps := []
    prog := s.progFor c a.entry (st.n + 1)
      { (s.seq c q).prog with steps := (s.seq c q).prog.steps + 1, flags := (s.seq c q).prog.flags ||| st.flags } } := by
  have hi := h.issue st (List.mem_singleton_self st)
  unfold State.commitStep
  dsimp only
  rw [h.entry hi, h.youngest, State.seq_setSeq, h.active, h.steps]
  simp [hi]

theorem RunsOne.commits (h : RunsOne s c q a [st]) : (s.seq c q).commits ((s.commitStep c q st).seq c q) a st := by
  rw [h.seq_commitStep, progFor_kept]
  exact ⟨rfl, rfl, rfl, rfl, rfl, rfl, rfl⟩

/-! ### Whether the writes of a step are out -/

theorem writesOut_of_nothingOut (h : Spec.nothingOut s c) (q : Seqr) (issue : Half) (n : Nat) : s.writesOut c q issue n = true := by
  obtain ⟨ha, hr⟩ := h
  simp [State.writesOut, ha, hr]

theorem readsCome_nil (h : st.reads = []) : st.readsCome = true := by simp [StepState.readsCome, h]

end Sys2Proof.Machine
end

section
/-! The commits of the engines' steps: tile steps, copy and overlay chunks, Weir chunks and plan steps (R233, R314, R328, R334,
R338). -/

open Sys2Proof Sys2Proof.Machine

namespace Sys2Proof.Machine

variable {s t u : State} {c : Nat} {q : Seqr} {a : ActiveEntry} {st : StepState}

/-! ### Tile steps of the permute engine -/

theorem pxFinish_commit (h : RunsOne s c q a [st])
    (hg : (pxPoints a.entry.form a.entry.block (pxPos a.entry.form a.entry.block st.n).chunk).length < st.stage)
    (hr : st.readsCome = true) (hd : st.t0 + commitOfs a.entry.form a.entry.block st.n ≤ s.sc c) (ho : Spec.nothingOut s c) :
    s.pxFinish c q a st = s.commitStep c q st := by
  unfold State.pxFinish
  dsimp only
  rw [if_neg (by simp [hr]; omega), if_neg (by omega), h.stepAt]
  dsimp only
  rw [if_pos (by simp [writesOut_of_nothingOut ho])]

theorem tileStepCommit_px (h : RunsOne s s.cur (Spec.own .px) a [st]) :
    s.tileStepCommit .px = s.pxFinish s.cur (Spec.own .px) a st := by
  unfold State.tileStepCommit
  dsimp only
  rw [if_neg (by simp [h.live])]
  exact (h.eachStep _).trans (if_neg (by decide))

/-! ### The turn of the copy engine -/

/-- Where no entry may start a step, the engine's fold over its entries does nothing. -/
theorem startFold_busy (h : RunsOne s c q a [st]) (f : State → ActiveEntry → State) :
    (s.seq c q).active.foldl (fun s a => if s.stepDue c q (s.seq c q) a a.total then f s a else s) s = s := by
  rw [h.active]
  dsimp only [List.foldl]
  rw [h.stepDue_busy]
  rfl

theorem chunkCommit_ce (hl : s.live s.cur = true) : s.chunkCommit (Spec.own .ce) = s.ceTurn := by
  have hc : s.seqCore (Spec.own .ce) = s.cur := rfl
  unfold State.chunkCommit
  dsimp only
  rw [hc, if_neg (by simp [hl])]
  rfl

/-- The step of an entry that may start one starts. -/
def State.ceBegin (s : State) (c : Nat) (a : ActiveEntry) : State :=
  let s := s.beginStep c (Spec.own .ce) a.entry.issue a.started
  if a.entry.form = 0x12 then s.ovStart c (Spec.own .ce) a a.started else s.ceStart c (Spec.own .ce) a a.started

/-- The steps that start in a turn of the copy engine. -/
def State.ceStarts (s : State) (c : Nat) : State :=
  (s.seq c (Spec.own .ce)).active.foldl
    (fun s a => if s.stepDue c (Spec.own .ce) (s.seq c (Spec.own .ce)) a a.total then s.ceBegin c a else s) s

/-- A copy chunk advances; an overlay chunk only waits. -/
def State.ceAdvance (c : Nat) (s : State) (a : ActiveEntry) (st : StepState) : State :=
  if a.entry.form = 0x12 then s else s.ceChunk c (Spec.own .ce) a st

def State.ceEnd (c : Nat) (s : State) (a : ActiveEntry) (st : StepState) : State :=
  if a.entry.form = 0x12 then s.ovCommit c (Spec.own .ce) a st else s.ceCommit c (Spec.own .ce) a st

theorem ceTurn_eq (s : State) : s.ceTurn =
    (((s.ceStarts s.cur).eachStep s.cur (Spec.own .ce) (State.ceAdvance s.cur)).eachStep s.cur (Spec.own .ce)
      (State.ceAdvance s.cur)).eachStep s.cur (Spec.own .ce) (State.ceEnd s.cur) := rfl

/-- With a step in flight whose chunk waits for its commit alone, the turn is that commit. -/
theorem ceTurn_commit (h : RunsOne s s.cur (Spec.own .ce) a [st]) (hw : s.ceAdvance s.cur a st = s) :
    s.ceTurn = s.ceEnd s.cur a st := by
  have hstart : s.ceStarts s.cur = s := startFold_busy h fun s' b => s'.ceBegin s.cur b
  rw [ceTurn_eq, hstart, h.eachStep, hw, h.eachStep, hw, h.eachStep]

/-! ### Copy chunks -/

theorem ceChunk_written (hg : st.stage = 2) : s.ceChunk c q a st = s := by
  unfold State.ceChunk
  dsimp only
  rw [if_neg (by omega), if_neg (by omega)]

/-- The draws that the entry of a committed copy chunk keeps. -/
def SeqState.keepDraws (x : SeqState) (issue : Half) (g : Half) : SeqState :=
  { x with active := x.active.map fun y => if y.entry.issue = issue then { y with draws := y.draws ++ [g] } else y }

/-- The destination's tag, which the last chunk writes. -/
def State.ceTagged (s : State) (c : Nat) (q : Seqr) (a : ActiveEntry) (st : StepState) : State :=
  if ceDtag a.entry.block ∧ st.n + 1 = a.total then
    s.engStore (s.askOf c q a st.n) .tagStore (ceDst a.entry.block).base [] (s.sc c) (BitVec.ofNat 16 (ceTag a.entry.block))
  else s

theorem ceCommit_ready (hr : s.ceReady c q a st = true) : s.ceCommit c q a st =
    ((((s.ceTagged c q a st).modSeq c q fun x => x.keepDraws st.issue (BitVec.ofNat 32 ((st.sample 97).getD 0 0))).commitStep c q
      st).count c 9 1) := by
  unfold State.ceCommit
  dsimp only
  rw [if_neg (by simp [hr])]
  rfl

theorem ceTagged_frame (s : State) (c : Nat) (q : Seqr) (a : ActiveEntry) (st : StepState) :
    TurnFrame False s (s.ceTagged c q a st) := by
  unfold State.ceTagged
  split
  · exact (TurnFrame.refl s).engStore ..
  · exact .refl s

theorem seq_engStore (s : State) (x : Ask) (kind : SpKind) (addr : Nat) (bs : List Byte) (due : Nat) (tag : BitVec 16) (keep : Nat)
    (poison : Bool) (q : Seqr) : (s.engStore x kind addr bs due tag keep poison).seq x.core q = s.seq x.core q := by
  unfold State.engStore
  exact seq_modBe ..

theorem seq_ceTagged (s : State) (c : Nat) (q : Seqr) (a : ActiveEntry) (st : StepState) :
    (s.ceTagged c q a st).seq c q = s.seq c q := by
  unfold State.ceTagged
  split
  · exact seq_engStore (x := s.askOf c q a st.n) ..
  · rfl

theorem ceCommit_commits (h : RunsOne s c q a [st]) (hr : s.ceReady c q a st = true) :
    (s.seq c q).commits ((s.ceCommit c q a st).seq c q)
        { a with draws := a.draws ++ [BitVec.ofNat 32 ((st.sample 97).getD 0 0)] } st ∧
      TurnFrame False s (s.ceCommit c q a st) := by
  have hi := h.issue st (List.mem_singleton_self st)
  have htag := ceTagged_frame s c q a st
  have hx : ((s.ceTagged c q a st).modSeq c q fun x => x.keepDraws st.issue (BitVec.ofNat 32 ((st.sample 97).getD 0 0))).seq c q =
      { s.seq c q with active := [{ a with draws := a.draws ++ [BitVec.ofNat 32 ((st.sample 97).getD 0 0)] }] } := by
    rw [State.seq_modSeq, seq_ceTagged, SeqState.keepDraws, h.active]
    simp [hi]
  have hframe := htag.modSeq c q fun x => x.keepDraws st.issue (BitVec.ofNat 32 ((st.sample 97).getD 0 0))
  have hone := h.turned hframe hx rfl h.steps h.issue
  rw [ceCommit_ready hr]
  refine ⟨?_, (hframe.commitStep c q st).count c 9 1⟩
  rw [seq_count]
  have hc := hone.commits
  rw [hx] at hc
  exact hc

theorem ceReady_written (h : RunsOne s c q a [st]) (hg : st.stage = 2) (ho : Spec.nothingOut s c) :
    s.ceReady c q a st = true := by
  simp [State.ceReady, hg, h.elastic, writesOut_of_nothingOut ho]

/-- A copy chunk whose writes are out commits. -/
theorem chunkCommit_copy (h : RunsOne s s.cur (Spec.own .ce) a [st]) (hf : a.entry.form = 0x10 ∨ a.entry.form = 0x11)
    (hg : st.stage = 2) : s.chunkCommit (Spec.own .ce) = s.ceCommit s.cur (Spec.own .ce) a st := by
  have hne : a.entry.form ≠ 0x12 := by omega
  rw [chunkCommit_ce h.live, ceTurn_commit h ((if_neg hne).trans (ceChunk_written hg))]
  exact if_neg hne

/-- An overlay chunk whose turn has come commits. -/
theorem chunkCommit_overlay (h : RunsOne s s.cur (Spec.own .ce) a [st]) (hf : a.entry.form = 0x12) :
    s.chunkCommit (Spec.own .ce) = s.ovCommit s.cur (Spec.own .ce) a st := by
  rw [chunkCommit_ce h.live, ceTurn_commit h (if_pos hf)]
  exact if_pos hf

/-! ### Overlay chunks (R328) -/

/-- The engines once an overlay chunk is loaded. -/
def Engines.loaded (k : Engines) (b : Block) (st : StepState) : Engines :=
  { k with
    ispad := writeBytes k.ispad ((ovRegion b + st.n) * 0x2000) (fitBytes st.readBytes 8192)
    regions := k.regions.setIfInBounds (ovRegion b + st.n) (ovDesc b st.n true) }

theorem ovCommit_due (hd : st.t0 + 520 ≤ s.sc c) (hr : st.readsCome = true) : s.ovCommit c q a st =
    (((s.modEng c fun k => k.loaded a.entry.block st).commitStep c q st).count c 9 1) := by
  unfold State.ovCommit
  dsimp only
  rw [if_neg (by simp [hr]; omega)]
  rfl

theorem loaded_frame (s : State) (c : Nat) (b : Block) (st : StepState) : TurnFrame True s (s.modEng c fun k => k.loaded b st) :=
  (TurnFrame.refl s).modCore c fun _ => ⟨rfl, fun _ => rfl⟩

theorem seq_loaded (s : State) (c : Nat) (b : Block) (st : StepState) (q : Seqr) :
    (s.modEng c fun k => k.loaded b st).seq c q = s.seq c q :=
  seq_modEng (f := fun k => k.loaded b st) (fun _ => ⟨rfl, rfl, rfl⟩) s c q

/-! ### Weir chunks (R334) -/

/-- COUNT and the running list after a chunk. -/
def SeqState.counted (x : SeqState) (a : ActiveEntry) (st : StepState) : SeqState :=
  { x with
    prog := { x.prog with
      count := BitVec.ofNat 32 ((st.sample 71).getD 0 0)
      steps := if wrElems a.entry.block = 0 then 0 else x.prog.steps }
    list := if a.entry.form = 0x18 then [] else (st.sample 70).map fun v => (BitVec.ofNat 32 v, BitVec.ofNat 32 (v / 2 ^ 32))
    nanSeen := (st.sample 71).getD 1 0 == 1 }

theorem wrCommit_eq (s : State) (c : Nat) (q : Seqr) (a : ActiveEntry) (st : StepState) :
    s.wrCommit c q a st = (s.commitStep c q st).modSeq c q fun x => x.counted a st := rfl

theorem wrTurn_busy (h : RunsOne s c q a [st]) : s.wrTurn c q = s.wrChunkTurn c q a st := by
  unfold State.wrTurn
  dsimp only
  rw [startFold_busy h]
  exact h.eachStep _

theorem chunkCommit_weir (hq : q.eng = .weir) (hl : s.live (s.seqCore q) = true) : s.chunkCommit q = s.wrTurn (s.seqCore q) q := by
  unfold State.chunkCommit
  dsimp only
  rw [if_neg (by simp [hl]), hq]

theorem wrChunkTurn_commit (h : RunsOne s c q a [st]) (hg : st.stage = 2) (hr : st.readsCome = true)
    (hd : st.t0 + commitOfs a.entry.form a.entry.block st.n ≤ s.sc c) (ho : Spec.nothingOut s c) :
    s.wrChunkTurn c q a st = s.wrCommit c q a st := by
  unfold State.wrChunkTurn
  dsimp only
  rw [if_neg (by omega), h.stepAt]
  dsimp only
  rw [if_neg (by simp [hg, hr]; omega), if_neg (by omega), h.stepAt]
  dsimp only
  rw [if_pos (by simp [writesOut_of_nothingOut ho])]

/-- The commit of a chunk of a region that is not empty. -/
theorem wrCommit_commits (h : RunsOne s c q a [st]) (hn : wrElems a.entry.block ≠ 0) :
    (s.seq c q).commits ((s.wrCommit c q a st).seq c q) a st ∧
      ((s.wrCommit c q a st).seq c q).prog.count = BitVec.ofNat 32 ((st.sample 71).getD 0 0) := by
  rw [wrCommit_eq, State.seq_modSeq, SeqState.counted, if_neg hn]
  exact ⟨h.commits, rfl⟩

/-! ### Plan steps (R313, R338) -/

/-- A transfer that a committed receive step had taken is held no longer. -/
def Fabric.freed (k : Fabric) (st : StepState) : List Held := k.plan.filter fun h => h.takenBy != some (st.issue, st.n)

/-- The entry counts one more step. -/
def SeqState.countsOne (x : SeqState) (a : ActiveEntry) (done : Nat) : SeqState :=
  { x with active := x.active.map fun y => if y.entry.issue = a.entry.issue then { y with committed := done + 1 } else y }

theorem cxCommit_eq (h : RunsOne s c q a [st]) : s.cxCommit c q a st =
    (((s.modFab c fun k => { k with plan := k.freed st }).commitStep c q st).modSeq c q fun x => x.countsOne a a.committed) := by
  unfold State.cxCommit
  dsimp only
  rw [seq_modFab, h.entry rfl]
  rfl

/-- A plan step that is the next one of its entry commits as any other step. -/
theorem cxCommit_commits (h : RunsOne s c q a [st]) (hn : st.n = a.committed) :
    (s.seq c q).commits ((s.cxCommit c q a st).seq c q) a st ∧ TurnFrame True s (s.cxCommit c q a st) := by
  have hframe := (TurnFrame.refl (B := True) s).modFabPlan c fun k => k.freed st
  have hone := h.turned hframe (seq_modFab ..) h.active h.steps h.issue
  obtain ⟨hactive, hrest⟩ := hone.commits
  rw [seq_modFab] at hrest
  rw [cxCommit_eq h]
  refine ⟨?_, (hframe.commitStep c q st).modSeq ..⟩
  rw [State.seq_modSeq, SeqState.countsOne, hactive]
  refine ⟨?_, hrest⟩
  simp [hn]

theorem cxTurn_busy (hq : q.eng = .cx) (h : RunsOne s (s.seqCore q) q a [st]) {ps : PlanStep}
    (hp : (s.entryPlan (s.seqCore q) a.entry)[st.n]? = some ps) {recv : Bool} (hv : ps.recv = recv) :
    s.cxTurn q recv = if recv then s.cxRecvTurn (s.seqCore q) q a st ps else s.cxSendTurn (s.seqCore q) q a st ps := by
  have hbegin : s.cxBegin (s.seqCore q) q = s := by
    unfold State.cxBegin
    rw [h.active]
    dsimp only [List.foldl]
    rw [h.elastic, h.stepDue_busy]
    rfl
  unfold State.cxTurn
  dsimp only
  rw [if_neg (by simp [h.live, hq]), hbegin, h.eachStep, hp]
  dsimp only
  rw [if_neg (by simp [hv])]

/-- A receive step whose write is out commits. -/
theorem cxRecvTurn_commit (h : RunsOne s c q a [st]) (ps : PlanStep) (hg : st.stage = 2) (ho : Spec.nothingOut s c) :
    s.cxRecvTurn c q a st ps = s.cxCommit c q a st := by
  unfold State.cxRecvTurn
  dsimp only
  rw [if_neg (by simp [hg]), h.stepAt]
  dsimp only
  rw [if_neg (by simp [hg]), h.stepAt]
  dsimp only
  rw [if_pos (by simp [hg, h.elastic, writesOut_of_nothingOut ho])]

end Sys2Proof.Machine
end

section
/-! The departure of a plan's transfer (R336, R338): the send step of O43 and O58. -/

open Sys2Proof Sys2Proof.Machine

namespace Sys2Proof.Machine

variable {s t u : State} {c : Nat} {q : Seqr} {a : ActiveEntry} {st : StepState} {ps : PlanStep}

/-- The statement's span of a plan step is the model's. -/
theorem planSpan_eq (b : Block) (ps : PlanStep) : Spec.planSpan b ps = clSpan b ps := by
  unfold Spec.planSpan clSpan clBuf bf bitsOf
  have hw (w : Word) : (w.toNat / 2 ^ 63 == 1) = (w.toNat / 2 ^ 63 % 2 ^ 1 == 1) := by
    have := w.isLt
    rw [Nat.mod_eq_of_lt (by omega)]
  simp only [hw, List.getD_eq_getElem?_getD, Nat.pow_zero, Nat.div_one]

/-- A send step whose source is sampled departs. -/
theorem cxSendTurn_departs (h : RunsOne s c q a [st]) (hg : st.stage = 1) (hr : st.reads = []) (hm : (clSpan a.entry.block ps).1 = false)
    (hd : a.startSC + ps.delta ≤ s.sc c)
    (hroom : s.planBytes (dieOf ps.pcore) q.idx + (clSpan a.entry.block ps).2.2 ≤ 65536) :
    s.cxSendTurn c q a st ps =
      (s.cxSend c q a ps ((st.sample 0).map (BitVec.ofNat 8)) ((st.sample 1).getD 0 0 == 1)).cxCommit c q a st := by
  unfold State.cxSendTurn
  dsimp only
  rw [if_pos (by omega), h.stepAt]
  dsimp only
  rw [if_neg, hm]
  · rfl
  · have hnow : ¬ s.sc c < clDepart a ps := Nat.not_lt.2 hd
    simp [hg, readsCome_nil hr, hnow, h.elastic, hroom]

/-- What a transfer's departure may change: the calendar, the switch of its link, and whether a domain is safe to replay. -/
structure Departs (s t : State) : Prop where
  rest : t = { s with doms := t.doms, calendar := t.calendar, io := t.io }
  dom : ∀ id, ∃ u : Bool, t.dom id = (s.dom id).map fun d => { d with unsafe_ := d.unsafe_ || u }

namespace Departs

theorem of_doms (hr : t = { s with calendar := t.calendar, io := t.io }) : Departs s t where
  rest := by rw [hr]
  dom id := ⟨false, by rw [State.dom, hr]; simp [State.dom]⟩

theorem trans (h : Departs s t) (k : Departs t u) : Departs s u where
  rest := by rw [k.rest, h.rest]
  dom id := by
    obtain ⟨b, hb⟩ := h.dom id
    obtain ⟨b', hb'⟩ := k.dom id
    exact ⟨b || b', by rw [hb', hb, Option.map_map]; simp [Function.comp_def, Bool.or_assoc]⟩

theorem core (h : Departs s t) (j : Nat) : t.core j = s.core j := by rw [h.rest]; rfl
theorem basin (h : Departs s t) : t.basin = s.basin := by rw [h.rest]

theorem domOf (h : Departs s t) (j : Nat) : ∃ u : Bool, t.domOf j = (s.domOf j).map fun d => { d with unsafe_ := d.unsafe_ || u } := by
  unfold State.domOf
  rw [h.core]
  cases (s.core j).dom with
  | none => exact ⟨false, rfl⟩
  | some id => exact h.dom id

theorem sc (h : Departs s t) (j : Nat) : t.sc j = s.sc j := by
  obtain ⟨u, hu⟩ := h.domOf j
  unfold State.sc
  rw [hu, h.basin]
  cases s.domOf j <;> rfl

theorem live (h : Departs s t) (j : Nat) : t.live j = s.live j := by
  obtain ⟨u, hu⟩ := h.domOf j
  unfold State.live
  rw [hu]
  cases s.domOf j <;> rfl

theorem replays (h : Departs s t) (j : Nat) : (t.domOf j).map (·.replays) = (s.domOf j).map (·.replays) := by
  obtain ⟨u, hu⟩ := h.domOf j
  rw [hu, Option.map_map]
  rfl

/-- The sequencer goes on as it was. -/
theorem runsOne (h : Departs s t) {l : List StepState} (hs : RunsOne s c q a l) : RunsOne t c q a l ∧ t.seq c q = s.seq c q := by
  have hseq : t.seq c q = s.seq c q := by rw [h.rest]; rfl
  exact ⟨⟨(h.live c).trans hs.live, by rw [State.timed, h.core]; exact hs.elastic, hseq ▸ hs.active, hseq ▸ hs.steps, hs.issue⟩, hseq⟩

end Departs

theorem markUnsafe_departs (s : State) (c : Nat) : Departs s (s.markUnsafe c) ∧ (s.markUnsafe c).calendar = s.calendar ∧
    (s.markUnsafe c).io = s.io := by
  unfold State.markUnsafe
  split
  · rename_i id _
    cases hd : s.dom id with
    | none =>
      rw [State.modDom_of_none _ hd]
      exact ⟨.of_doms rfl, rfl, rfl⟩
    | some d =>
      rw [State.modDom_of_some _ hd]
      refine ⟨⟨rfl, fun j => ?_⟩, rfl, rfl⟩
      rw [State.dom_setDom]
      split
      · subst_vars
        exact ⟨true, by simp [hd]⟩
      · exact ⟨false, by simp⟩
  · exact ⟨.of_doms rfl, rfl, rfl⟩

theorem markOutside_departs (s : State) (c : Nat) : Departs s (s.markOutside c) ∧ (s.markOutside c).calendar = s.calendar ∧
    (s.markOutside c).io = s.io := by
  unfold State.markOutside
  split
  · split
    · exact ⟨.of_doms rfl, rfl, rfl⟩
    · exact markUnsafe_departs s c
  · exact ⟨.of_doms rfl, rfl, rfl⟩

theorem deliver_departs (s : State) (c : Nat) (f : Flit) (r : Route) : Departs s (s.deliver c f r) := by
  unfold State.deliver
  split <;> exact .of_doms rfl

theorem inject_departs (s : State) (c : Nat) (f : Flit) (r : Route) : Departs s (s.inject c f r) := by
  unfold State.inject
  split
  · split <;> exact .of_doms rfl
  · exact deliver_departs ..

theorem cxSend_departs (s : State) (c : Nat) (q : Seqr) (a : ActiveEntry) (ps : PlanStep) (bs : List Byte) (poisoned : Bool) :
    Departs s (s.cxSend c q a ps bs poisoned) := by
  unfold State.cxSend
  dsimp only
  split
  · exact (markOutside_departs s c).1.trans (inject_departs ..)
  · refine Departs.trans ?_ (deliver_departs ..)
    split
    · exact .of_doms rfl
    · exact (markUnsafe_departs s c).1

/-- What a send step hands to the network. -/
def State.cxSent (s : State) (q : Seqr) (a : ActiveEntry) (st : StepState) (ps : PlanStep) : State :=
  s.cxSend (s.seqCore q) q a ps ((st.sample 0).map (BitVec.ofNat 8)) ((st.sample 1).getD 0 0 == 1)

/-- A send step departs once and commits; the network has what `cxSent` says. -/
theorem cxSendStep_commits (h : Spec.planStepAt s q a st ps false 1) (hm : (Spec.planSpan a.entry.block ps).1 = false)
    (hd : a.startSC + ps.delta ≤ s.sc (s.seqCore q))
    (hroom : s.planBytes (dieOf ps.pcore) q.idx + (Spec.planSpan a.entry.block ps).2.2 ≤ 65536) :
    ∃ t, exec (.cxSendStep q) s = .next t ∧ Spec.stepCommitted s t q a st ∧ t.mem = s.mem ∧
      (t.core (s.seqCore q)).eng.spad = (s.core (s.seqCore q)).eng.spad ∧ t.calendar = (s.cxSent q a st ps).calendar ∧
      t.io = (s.cxSent q a st ps).io := by
  obtain ⟨hq, hel, hp, hv, hg, hn, -, hr⟩ := h
  have hone := runsOne_of_elastic hel
  rw [planSpan_eq] at hm hroom
  have hturn : s.cxTurn q false = (s.cxSent q a st ps).cxCommit (s.seqCore q) q a st :=
    (cxTurn_busy hq hone hp hv).trans (cxSendTurn_departs hone hg hr hm hd hroom)
  have hsent : Departs s (s.cxSent q a st ps) := cxSend_departs ..
  obtain ⟨hone', hseq⟩ := hsent.runsOne hone
  obtain ⟨hcommit, hframe⟩ := cxCommit_commits hone' hn
  rw [hseq] at hcommit
  refine ⟨_, congrArg Host.Outcome.next hturn, hcommit, hframe.mem.trans (by rw [hsent.rest]), ?_, by rw [hframe.rest], by rw [hframe.rest]⟩
  rw [hframe.spad, hsent.core]

theorem cxSent_flit (h : Spec.elastic s q a [st]) (hb : (s.route (s.partOf (s.seqCore q)) ps.route).bylor = false)
    (hm : ps.pmod = s.moduleId) : ∃ u, Departs s u ∧ u.calendar = s.calendar ∧
      s.cxSent q a st ps = u.deliver (s.seqCore q)
        (Spec.planFlit s q a ps ((st.sample 0).map (BitVec.ofNat 8)) ((st.sample 1).getD 0 0 == 1))
        (s.route (s.partOf (s.seqCore q)) ps.route) := by
  obtain ⟨-, ht, -⟩ := h
  unfold State.cxSent State.cxSend Spec.planFlit
  dsimp only
  rw [if_neg (by simp [hb, hm]), ht]
  refine ⟨_, ?_, ?_, rfl⟩
  · split
    · exact .of_doms rfl
    · exact (markUnsafe_departs s _).1
  · split
    · rfl
    · exact (markUnsafe_departs s _).2.1

/-- A transfer within the module arrives after the latency of its route: on the SC of its launch, or on the basin count where the
launch does not hold both cores. -/
theorem cxSent_local (h : Spec.elastic s q a [st]) (hb : (s.route (s.partOf (s.seqCore q)) ps.route).bylor = false)
    (hm : ps.pmod = s.moduleId) (hv : (s.route (s.partOf (s.seqCore q)) ps.route).v = true) :
    (s.cxSent q a st ps).calendar = s.calendar ++
      [if (s.core (s.seqCore q)).dom = (s.core ps.pcore).dom ∧ (s.core (s.seqCore q)).dom ≠ none then
        ⟨(s.core (s.seqCore q)).dom, s.sc (s.seqCore q) + (s.route (s.partOf (s.seqCore q)) ps.route).l, .op ps.pcore (.flitArrival
          (Spec.planFlit s q a ps ((st.sample 0).map (BitVec.ofNat 8)) ((st.sample 1).getD 0 0 == 1)))⟩
      else ⟨none, s.basin + (s.route (s.partOf (s.seqCore q)) ps.route).l, .op ps.pcore (.flitArrival
          (Spec.planFlit s q a ps ((st.sample 0).map (BitVec.ofNat 8)) ((st.sample 1).getD 0 0 == 1)))⟩] := by
  obtain ⟨u, hu, hcal, heq⟩ := cxSent_flit (ps := ps) h hb hm
  rw [heq]
  generalize hf : Spec.planFlit .. = f
  have hdst : f.dstCore = ps.pcore := by rw [← hf]; rfl
  have hreq : f.req = none := by rw [← hf]; rfl
  unfold State.deliver
  dsimp only
  rw [if_neg (by simp [hv])]
  dsimp only
  rw [hcal, hu.core, hu.core, hu.sc, hu.basin, hdst, hreq]
  congr 2
  cases hc : (s.core (s.seqCore q)).dom with
  | none => simp
  | some id => simp

/-- A transfer that leaves by a link waits at the link's switch. -/
theorem cxSent_bylor (h : Spec.elastic s q a [st]) (hb : (s.route (s.partOf (s.seqCore q)) ps.route).bylor = true)
    (hv : (s.route (s.partOf (s.seqCore q)) ps.route).v = true) :
    (s.cxSent q a st ps).calendar = s.calendar ∧ (s.cxSent q a st ps).io.inject = s.io.inject ++
      [⟨Spec.planFlit s q a ps ((st.sample 0).map (BitVec.ofNat 8)) ((st.sample 1).getD 0 0 == 1), 17,
        (s.route (s.partOf (s.seqCore q)) ps.route).link0, s.basin, max 1 (((Spec.planFlit s q a ps
          ((st.sample 0).map (BitVec.ofNat 8)) ((st.sample 1).getD 0 0 == 1)).bytes + 127) / 128), (s.core (s.seqCore q)).dom,
        ((s.domOf (s.seqCore q)).map (·.replays)).getD 0⟩] := by
  obtain ⟨-, ht, -⟩ := h
  obtain ⟨hu, hcal, hio⟩ := markOutside_departs s (s.seqCore q)
  unfold State.cxSent State.cxSend State.inject
  dsimp only
  rw [if_pos (by simp [hb]), if_pos hb, if_pos hv, ht]
  generalize s.markOutside (s.seqCore q) = u at hu hcal hio
  refine ⟨hcal, ?_⟩
  rw [hio, hu.basin, hu.core, hu.replays]
  rfl

end Sys2Proof.Machine
end

section
/-! The events of engine entries, refetches and audits complete (R188, R234 to R237, R308 to R310, R327). -/

open Sys2Proof Sys2Proof.Machine

namespace Sys2Proof.Machine

variable {s t u : State} {c : Nat} {q : Seqr} {a : ActiveEntry} {st : StepState}

/-! ### The end of an entry (R211) -/

theorem seq_refetch (s : State) (c : Nat) (f : Engines → List Refetch) (q : Seqr) :
    (s.modEng c fun k => { k with refetch := f k }).seq c q = s.seq c q :=
  seq_modEng (f := fun k => { k with refetch := f k }) (fun _ => ⟨rfl, rfl, rfl⟩) s c q

/-- The only entry of a sequencer, done, leaves it. -/
theorem entryComplete_seq (h : Spec.runsOne s q a) (hc : a.total ≤ a.committed) (hs : (s.seq (s.seqCore q) q).steps = [])
    (he : (s.seq (s.seqCore q) q).stopEv = none) (hp : (s.seq (s.seqCore q) q).prog.state = 1)
    (hb : s.pendingBytes (s.seqCore q) q.eng a.entry.issue = 0) :
    (s.entryComplete q).seq (s.seqCore q) q =
      { s.seq (s.seqCore q) q with active := [], prog := Spec.idleProg (s.seq (s.seqCore q) q).prog } := by
  obtain ⟨hl, ha⟩ := h
  have hdone : s.entryDone (s.seqCore q) q (s.seq (s.seqCore q) q) a = true := by
    simp [State.entryDone, hc, hs, he, hp, hb]
  unfold State.entryComplete
  dsimp only
  rw [if_neg (by simp [hl]), ha, List.find?_cons_of_pos hdone]
  dsimp only
  rw [seq_refetch, seq_release, State.seq_setSeq]
  simp [Spec.idleProg]

/-! ### The stop, the reissue and the flush (R234 to R236) -/

/-- The last thing that a stop does is to pend interrupt 17. -/
theorem macroStop_pends {ev : Ev} (h : Spec.runsOne s q a) (he : (s.seq (s.seqCore q) q).stopEv = some ev)
    (hs : (s.seq (s.seqCore q) q).steps = []) (hb : s.pendingBytes (s.seqCore q) q.eng a.entry.issue = 0) :
    ∃ u fcoord, s.macroStop q = State.pendStop u (s.seqCore q) ev fcoord := by
  obtain ⟨hl, ha⟩ := h
  have hy : (s.seq (s.seqCore q) q).youngest = some a := by rw [SeqState.youngest, ha]; rfl
  unfold State.macroStop
  dsimp only
  rw [if_neg (by simp [hl]), he, hy]
  dsimp only
  rw [if_neg (by simp [hs, hb])]
  exact ⟨_, _, rfl⟩

theorem pendStop_cc (s : State) (c : Nat) (ev : Ev) (fcoord : Nat) :
    ((s.pendStop c ev fcoord).core c).cc.mip.getLsbD 17 = true ∧ ((s.pendStop c ev fcoord).core c).cc.pendMacro ≠ [] := by
  unfold State.pendStop
  rw [State.core_modCc, if_pos rfl]
  refine ⟨?_, by simp⟩
  rw [BitVec.getLsbD_or]
  exact Bool.or_eq_true_iff.2 (.inr (by decide))

theorem entryReissue_prog (ha : (s.seq (s.seqCore q) q).active = [a]) (hp : (s.seq (s.seqCore q) q).prog.state = 2) :
    ((s.entryReissue q).seq (s.seqCore q) q).prog.state = 1 ∧ ((s.entryReissue q).seq (s.seqCore q) q).prog.resumed = true := by
  have hy : (s.seq (s.seqCore q) q).youngest = some a := by rw [SeqState.youngest, ha]; rfl
  unfold State.entryReissue
  dsimp only
  rw [if_neg (by simp [hp]), hy]
  dsimp only
  rw [State.seq_setSeq, progFor_kept]
  exact ⟨rfl, rfl⟩

theorem queue_setSeq (s : State) (c : Nat) (q : Seqr) (x : SeqState) (e : Eng) :
    ((s.setSeq c q x).core c).eng.queue e = (s.core c).eng.queue e := by
  obtain ⟨mx, px, ce, h, -⟩ := setSeq_core s c q x c
  rw [h, Engines.queue_seqs]

theorem queue_release (s : State) (c : Nat) (e f : Eng) (issue : Half) :
    ((s.release c e issue).core c).eng.queue f = (s.core c).eng.queue f := by
  rw [State.release, State.core_modEng, if_pos rfl, Engines.released_queue]

theorem queue_releases (c : Nat) (e f : Eng) (l : List Half) (s : State) :
    ((l.foldl (fun s m => s.release c e m) s).core c).eng.queue f = (s.core c).eng.queue f := by
  induction l generalizing s with
  | nil => rfl
  | cons m l ih => rw [List.foldl_cons, ih, queue_release]

theorem entryFlush_empties (hp : (s.seq (s.seqCore q) q).prog.state = 2) :
    ((s.entryFlush q).seq (s.seqCore q) q).prog.state = 0 ∧ ((s.entryFlush q).seq (s.seqCore q) q).active = [] ∧
      ((s.entryFlush q).core (s.seqCore q)).eng.queue q.eng = [] := by
  unfold State.entryFlush
  dsimp only
  rw [if_neg (by simp [hp]), State.seq_setSeq, queue_setSeq, queue_releases, State.core_modEng, if_pos rfl]
  exact ⟨rfl, rfl, Engines.queue_setQueue ..⟩

/-! ### The end of a refetch (R237) -/

theorem ceRefetch_done {x : Redo} (hl : s.live s.cur = true) (ht : s.timed s.cur = false) (hr : (s.core s.cur).eng.redo = some x)
    (hc : x.act.total ≤ x.act.committed) : s.ceRefetch = s.redoDone s.cur x.mx := by
  unfold State.ceRefetch
  dsimp only
  rw [if_neg (by simp [hl, ht]), hr]
  exact if_pos hc

theorem redoEnd_redo (s : State) (c : Nat) : ((s.redoEnd c).core c).eng.redo = none := by
  unfold State.redoEnd
  split
  · assumption
  · rw [State.core_modEng, if_pos rfl]

/-- The matrix engine's sequencer goes on from a cancelled step. -/
def Engines.goOn (k : Engines) : Engines :=
  { k with mx := { k.mx with refetchAt := none, prog := { k.mx.prog with state := 1 } } }

theorem redoDone_mx (s : State) (c : Nat) : ((s.redoDone c true).core c).eng = ((s.redoEnd c).core c).eng.goOn := by
  have h : s.redoDone c true = (s.redoEnd c).modEng c fun k => { k with mx := ((s.redoEnd c).core c).eng.goOn.mx } := rfl
  rw [h, State.core_modEng, if_pos rfl]
  rfl

/-! ### The audit (R308 to R310) -/

/-- With no staged image the drain does nothing. -/
theorem auditDrain_none (h : ∀ e ∈ s.cores, (s.core e.1).staging = none) (die : Nat) : s.auditDrain die = s := by
  unfold State.auditDrain
  suffices hl : ∀ l : List (Nat × Core), (∀ e ∈ l, (s.core e.1).staging = none) → l.foldl _ s = s from hl s.cores h
  intro l hl
  induction l with
  | nil => rfl
  | cons e l ih =>
    rw [List.foldl_cons]
    dsimp only
    rw [hl e (List.mem_cons_self ..)]
    exact ih fun e he => hl e (List.mem_cons_of_mem _ he)

theorem raiseFor_audit (s : State) (dom : Option Nat) (core p : Nat) (e : Ev) : (s.raiseFor dom core p e).audit = s.audit := by
  rw [((EventFrame.refl (F := e.fences) s).raiseFor dom core p).frame]

/-- A recomputation takes the oldest image and counts it; where no error of the audit engine is to come, its audits stay. -/
theorem auditRecompute_audit {die : Nat} {im : AuditImage} {rest : List AuditImage}
    (h : ∀ e ∈ s.cores, (s.core e.1).staging = none) (hi : ((sget s.audit die).getD default).images = im :: rest)
    (hg : ((sget s.audit die).getD default).glitch = (0, 0)) :
    ∃ d', sget (s.auditRecompute die).audit die = some d' ∧ d'.images = rest ∧
      d'.done = satInc ((sget s.audit die).getD default).done := by
  unfold State.auditRecompute
  dsimp only
  rw [auditDrain_none h, hi, hg]
  dsimp only
  split
  · exact ⟨_, sget_sinsert_self .., rfl, rfl⟩
  · rw [if_neg (by simp), raiseFor_audit]
    exact ⟨_, sget_sinsert_self .., rfl, rfl⟩

end Sys2Proof.Machine
end

section
/-! A tile step begins (R206, R232): the sample points at its start are taken, and it stays in flight. -/

open Sys2Proof Sys2Proof.Machine

namespace Sys2Proof.Machine

variable {s t u : State} {c : Nat} {q : Seqr} {a : ActiveEntry} {st : StepState}

/-! ### Sample points keep the step -/

/-- A step that has taken samples is the same step of its entry, begun at the same SC. -/
def StepState.sameStep (st st' : StepState) : Prop := st'.issue = st.issue ∧ st'.n = st.n ∧ st'.t0 = st.t0

theorem StepState.sameStep.trans {x y z : StepState} (h : x.sameStep y) (k : y.sameStep z) : x.sameStep z := by
  obtain ⟨hi, hn, ht⟩ := h
  obtain ⟨ki, kn, kt⟩ := k
  exact ⟨ki.trans hi, kn.trans hn, kt.trans ht⟩

theorem mxTake_sameStep (k : Engines) (x : MxCtx) (i : Nat) (st : StepState) : st.sameStep (k.mxTake x i st) := by
  unfold Engines.mxTake
  repeat' split
  all_goals exact ⟨rfl, rfl, rfl⟩

/-- The step as a sample point leaves it. -/
def StepState.taken (k : Engines) (x : MxCtx) (i : Nat) (ws : List Nat) (st : StepState) : StepState :=
  { (k.mxTake x i st).put (40 + i) ws with stage := st.stage + 1 }

theorem taken_sameStep (k : Engines) (x : MxCtx) (i : Nat) (ws : List Nat) (st : StepState) : st.sameStep (st.taken k x i ws) :=
  mxTake_sameStep k x i st

/-- The point at the start of a step is its first. -/
theorem mxPointKind_zero (form : Nat) (b : Block) : mxPointKind form b 0 = 0 := by
  have hf : 0 < mxFill b := by unfold mxFill; split <;> decide
  unfold mxPointKind
  rw [if_neg (by omega : ¬ 0 = mxFill b), if_neg (by omega : ¬ 0 = 217 + mxFill b)]
  simp

theorem mxPoison_none {k : Engines} (h : k.spadPoison = []) (x : MxCtx) (i : Nat) : k.mxPoison x i = none := by
  simp [Engines.mxPoison, h]

/-- The first point checks no tag where neither descriptor asks for it. -/
theorem tagFault_none (k : Engines) (x : MxCtx) (resumed : Bool) (ha : (descA x.b).tagchk = false)
    (hb : (descB x.b).tagchk = false) : k.tagFault x resumed 0 = none := by
  simp [Engines.tagFault, ha, hb]

theorem mxSampleDue_new (fuel : Nat) {issue : Half} {n : Nat} (h : RunsOne s c q a [st]) (hi : st.issue = issue) (hn : st.n = n)
    (ht : st.t0 = s.sc c) (hp : (s.core c).eng.spadPoison = []) (hA : (descA a.entry.block).tagchk = false)
    (hB : (descB a.entry.block).tagchk = false) :
    ∃ st', ((s.mxSampleDue c q issue n fuel).seq c q).steps = [st'] ∧ st.sameStep st' := by
  induction fuel generalizing s st with
  | zero => exact ⟨st, h.steps, rfl, rfl, rfl⟩
  | succ fuel ih =>
    subst hi hn
    unfold State.mxSampleDue
    dsimp only
    rw [h.stepAt, h.entry (h.issue st (List.mem_singleton_self st))]
    dsimp only
    split
    · exact ⟨st, h.steps, rfl, rfl, rfl⟩
    · rename_i o _
      split
      · exact ⟨st, h.steps, rfl, rfl, rfl⟩
      · obtain rfl : o = 0 := by omega
        rw [mxPointKind_zero, mxPoison_none hp, tagFault_none _ _ _ hA hB]
        dsimp only
        rw [h.elastic, Bool.false_and, if_neg Bool.false_ne_true]
        generalize (if mxLmode (s.mxCtx c (s.seq c q) a st.n).b = 1 ∧ 0 < 8 ∧ (s.mxCtx c (s.seq c q) a st.n).form ≠ 3 then _ else _) = ws
        obtain ⟨ki, kn, kt⟩ := taken_sameStep (s.core c).eng (s.mxCtx c (s.seq c q) a st.n) 0 ws st
        have hframe := (TurnFrame.refl (B := True) s).modStep c q st.issue st.n
          (StepState.taken (s.core c).eng (s.mxCtx c (s.seq c q) a st.n) 0 ws)
        obtain ⟨st', hs', hsame⟩ := ih (h.modStep _ ki) ki kn ((kt.trans ht).trans (hframe.sc c).symm) ((hframe.spadPoison c).trans hp)
        exact ⟨st', hs', StepState.sameStep.trans ⟨ki, kn, kt⟩ hsame⟩

/-! ### The permute engine -/

theorem anyPoison_none {k : Engines} (h : k.spadPoison = []) (xs : List (Nat × Nat)) : k.anyPoison xs = none := by
  simp [Engines.anyPoison, h]

/-- The step of a sort once its chunk is sampled. -/
def StepState.sorted (chunk : List Nat) (st : StepState) : StepState := { st.put 0 chunk with stage := st.stage + 1 }

theorem pxTake_sort (hf : a.entry.form = 8) (i : Nat) : ∃ chunk, s.pxTake c q a st i =
    s.modStep c q st.issue st.n (StepState.sorted chunk) := by
  unfold State.pxTake
  dsimp only
  rw [hf]
  exact ⟨_, rfl⟩

theorem pxSampleDue_sort (fuel : Nat) {issue : Half} {n : Nat} (h : RunsOne s c q a [st]) (hi : st.issue = issue) (hn : st.n = n)
    (hf : a.entry.form = 8) (hp : (s.core c).eng.spadPoison = []) :
    ∃ st', ((s.pxSampleDue c q issue n fuel).seq c q).steps = [st'] ∧ st.sameStep st' := by
  induction fuel generalizing s st with
  | zero => exact ⟨st, h.steps, rfl, rfl, rfl⟩
  | succ fuel ih =>
    subst hi hn
    unfold State.pxSampleDue
    dsimp only
    rw [h.stepAt, h.entry (h.issue st (List.mem_singleton_self st))]
    dsimp only
    split
    · exact ⟨st, h.steps, rfl, rfl, rfl⟩
    · split
      · exact ⟨st, h.steps, rfl, rfl, rfl⟩
      · rw [anyPoison_none hp]
        dsimp only
        rw [h.stepAt]
        dsimp only
        obtain ⟨chunk, hchunk⟩ := pxTake_sort (s := s) (c := c) (q := q) (st := st) hf st.stage
        have hframe := (TurnFrame.refl (B := True) s).modStep c q st.issue st.n (StepState.sorted chunk)
        rw [hchunk]
        obtain ⟨st', hs', hsame⟩ := ih (h.modStep (StepState.sorted chunk) rfl) rfl rfl ((hframe.spadPoison c).trans hp)
        exact ⟨st', hs', hsame⟩

/-! ### The event -/

/-- The one entry whose step may start starts it. -/
theorem startFold_next (h : RunsOne s c q a []) (hd : s.stepDue c q (s.seq c q) a a.total = true) (f : State → ActiveEntry → State) :
    (s.seq c q).active.foldl (fun s a => if s.stepDue c q (s.seq c q) a a.total then f s a else s) s = f s a := by
  rw [h.active]
  dsimp only [List.foldl]
  rw [if_pos hd]

/-- A turn of a tile engine: the steps that are due start, then every step takes its sample points. -/
theorem tileStepStart_eq {e : Eng} (he : e = .mx ∨ e = .px) (hl : s.live s.cur = true) : s.tileStepStart e =
    ((s.seq s.cur (Spec.own e)).active.foldl (fun s' a => if s'.stepDue s.cur (Spec.own e) (s'.seq s.cur (Spec.own e)) a a.total then
      s'.beginStep s.cur (Spec.own e) a.entry.issue a.started else s') s).eachStep s.cur (Spec.own e) fun s' _ st =>
        if e = .mx then s'.mxSampleDue s.cur (Spec.own e) st.issue st.n 16
        else s'.pxSampleDue s.cur (Spec.own e) st.issue st.n 80 := by
  unfold State.tileStepStart
  dsimp only
  rw [if_neg (by rcases he with rfl | rfl <;> simp [hl])]
  rfl

theorem tileStepStart_new {e : Eng} (he : e = .mx ∨ e = .px) (h : RunsOne s s.cur (Spec.own e) a [])
    (hd : s.stepDue s.cur (Spec.own e) (s.seq s.cur (Spec.own e)) a a.total = true) :
    s.tileStepStart e =
      if e = .mx then (s.beginStep s.cur (Spec.own e) a.entry.issue a.started).mxSampleDue s.cur (Spec.own e) a.entry.issue a.started 16
      else (s.beginStep s.cur (Spec.own e) a.entry.issue a.started).pxSampleDue s.cur (Spec.own e) a.entry.issue a.started 80 := by
  rw [tileStepStart_eq he h.live, startFold_next h hd fun s' b => s'.beginStep s.cur (Spec.own e) b.entry.issue b.started]
  exact h.beginStep.eachStep _

/-- The step is in flight, begun at the SC now. -/
theorem tileStepStart_begins {e : Eng} (he : e = .mx ∨ e = .px ∧ a.entry.form = 8) (h : RunsOne s s.cur (Spec.own e) a [])
    (hd : s.stepDue s.cur (Spec.own e) (s.seq s.cur (Spec.own e)) a a.total = true) (hp : (s.core s.cur).eng.spadPoison = [])
    (hA : (descA a.entry.block).tagchk = false) (hB : (descB a.entry.block).tagchk = false) :
    ∃ st, ((s.tileStepStart e).seq s.cur (Spec.own e)).steps = [st] ∧ st.issue = a.entry.issue ∧ st.n = a.started ∧
      st.t0 = s.sc s.cur := by
  have hframe := (TurnFrame.refl (B := True) s).beginStep s.cur (Spec.own e) a.entry.issue a.started
  have hpoison := (hframe.spadPoison s.cur).trans hp
  have hone := h.beginStep
  rw [tileStepStart_new (he.imp_right And.left) h hd]
  rcases he with rfl | ⟨rfl, hf⟩
  · exact mxSampleDue_new 16 hone rfl rfl (hframe.sc s.cur).symm hpoison hA hB
  · exact pxSampleDue_sort 80 hone rfl rfl hf hpoison

end Sys2Proof.Machine
end

section
/-! The events of engine entries, steps, refetch and audit complete (R21, R188, R206, R211, R233 to R236, R310, R314, R327, R337):
the statement O58. -/

open Sys2Proof Sys2Proof.Machine

namespace Sys2Proof.Machine

variable {s t u : State} {c : Nat} {q : Seqr} {a : ActiveEntry} {st : StepState}

theorem canStart_empty (h : (s.core s.cur).eng.queue q.eng = []) : s.canStart s.cur q = none := by
  unfold State.canStart
  rw [h]
  rfl

/-- An entry that may start finds its sequencer without one. -/
theorem active_of_canStart {ent : QEntry} (h : s.canStart s.cur q = some ent) : (s.seq s.cur q).active = [] := by
  by_contra hne
  cases hq : (s.core s.cur).eng.queue q.eng with
  | nil => exact absurd (h.symm.trans (canStart_empty hq)) (by simp)
  | cons e l => exact absurd (h.symm.trans (canStart_none hq (.inl hne))) (by simp)

theorem startEntry_seq (s : State) (c : Nat) (q : Seqr) (ent : QEntry) : ∃ total,
    ((s.startEntry c q ent).seq c q).active = (s.seq c q).active ++ [⟨ent, s.sc c, 0, 0, total, []⟩] ∧
      ((s.startEntry c q ent).seq c q).prog.state = 1 ∧ ((s.startEntry c q ent).seq c q).prog.issue = ent.issue := by
  obtain ⟨total, nextFree, lastWrite, heq⟩ := startEntry_eq s c q ent
  rw [progFor_kept] at heq
  rw [heq, State.seq_setSeq]
  exact ⟨total, rfl, rfl, rfl⟩

/-- An entry that may start runs. -/
theorem macroStart_runs {ent : QEntry} (hl : s.live s.cur = true) (ht : s.timed s.cur = false)
    (h : s.canStart s.cur q = some ent) :
    ∃ t a, exec (.macroStart q) s = .next t ∧ (t.seq s.cur q).active = [a] ∧ a.entry = ent ∧ a.startSC = s.sc s.cur ∧
      (t.seq s.cur q).prog.state = 1 ∧ (t.seq s.cur q).prog.issue = ent.issue := by
  obtain ⟨total, hactive, hstate, hissue⟩ := startEntry_seq s s.cur q ent
  rw [active_of_canStart h] at hactive
  exact ⟨_, _, (macroStart_elastic hl ht).trans (by rw [h]), hactive, rfl, rfl, hstate, hissue⟩

/-- A receive step whose write is out commits. -/
theorem cxReceiveStep_commits {ps : PlanStep} (h : Spec.planStepAt s q a st ps true 2) (ho : Spec.nothingOut s (s.seqCore q)) :
    ∃ t, exec (.cxReceiveStep q) s = .next t ∧ Spec.stepCommitted s t q a st ∧ t.mem = s.mem := by
  obtain ⟨hq, hel, hp, hv, hg, hn, -, -⟩ := h
  have hone := runsOne_of_elastic hel
  obtain ⟨hcommit, hframe⟩ := cxCommit_commits hone hn
  refine ⟨_, congrArg Host.Outcome.next ?_, hcommit, hframe.mem⟩
  exact (cxTurn_busy hq hone hp hv).trans (cxRecvTurn_commit hone ps hg ho)

theorem chunkCommit_copy_commits (h : Spec.elastic s (Spec.own .ce) a [st]) (hf : a.entry.form = 0x10 ∨ a.entry.form = 0x11)
    (hg : st.stage = 2) (ho : Spec.nothingOut s s.cur) :
    ∃ t, exec (.chunkCommit (Spec.own .ce)) s = .next t ∧
      Spec.stepCommitted s t (Spec.own .ce) { a with draws := a.draws ++ [BitVec.ofNat 32 ((st.sample 97).getD 0 0)] } st ∧
      TurnFrame False s t := by
  have hone := runsOne_of_elastic h
  obtain ⟨hcommit, hframe⟩ := ceCommit_commits hone (ceReady_written hone hg ho)
  exact ⟨_, congrArg Host.Outcome.next (chunkCommit_copy hone hf hg), hcommit, hframe⟩

theorem tileStepCommit_commits (h : Spec.elastic s (Spec.own .px) a [st])
    (hg : (pxPoints a.entry.form a.entry.block (pxPos a.entry.form a.entry.block st.n).chunk).length < st.stage)
    (hr : st.readsCome = true) (hd : st.t0 + commitOfs a.entry.form a.entry.block st.n ≤ s.sc s.cur)
    (ho : Spec.nothingOut s s.cur) :
    ∃ t, exec (.tileStepCommit .px) s = .next t ∧ Spec.stepCommitted s t (Spec.own .px) a st := by
  have hone := runsOne_of_elastic h
  exact ⟨_, congrArg Host.Outcome.next ((tileStepCommit_px hone).trans (pxFinish_commit hone hg hr hd ho)), hone.commits⟩

/-- The events that end an entry or run it again: its completion, its stop, and the reissue and the flush of a stopped one. -/
theorem entryEvents_complete (h : Spec.runsOne s q a) :
    (a.total ≤ a.committed → (s.seq (s.seqCore q) q).steps = [] → (s.seq (s.seqCore q) q).stopEv = none →
      (s.seq (s.seqCore q) q).prog.state = 1 → s.pendingBytes (s.seqCore q) q.eng a.entry.issue = 0 →
      ∃ t, exec (.entryComplete q) s = .next t ∧ (t.seq (s.seqCore q) q).active = [] ∧ (t.seq (s.seqCore q) q).prog.state = 0) ∧
    (∀ ev, (s.seq (s.seqCore q) q).stopEv = some ev → (s.seq (s.seqCore q) q).steps = [] →
      s.pendingBytes (s.seqCore q) q.eng a.entry.issue = 0 →
      ∃ t, exec (.macroStop q) s = .next t ∧ (t.core (s.seqCore q)).cc.mip.getLsbD 17 = true ∧
        (t.core (s.seqCore q)).cc.pendMacro ≠ []) ∧
    ((s.seq (s.seqCore q) q).prog.state = 2 →
      (∃ t, exec (.entryReissue q) s = .next t ∧ (t.seq (s.seqCore q) q).prog.state = 1 ∧
        (t.seq (s.seqCore q) q).prog.resumed = true) ∧
      ∃ t, exec (.entryFlush q) s = .next t ∧ (t.seq (s.seqCore q) q).prog.state = 0 ∧ (t.seq (s.seqCore q) q).active = [] ∧
        (t.core (s.seqCore q)).eng.queue q.eng = []) := by
  refine ⟨fun hc hs he hp hb => ⟨s.entryComplete q, rfl, ?_⟩, fun ev he hs hb => ?_, fun hp => ?_⟩
  · rw [entryComplete_seq h hc hs he hp hb]
    exact ⟨rfl, rfl⟩
  · obtain ⟨u, fcoord, hu⟩ := macroStop_pends h he hs hb
    exact ⟨_, congrArg Host.Outcome.next hu, pendStop_cc ..⟩
  · exact ⟨⟨s.entryReissue q, rfl, entryReissue_prog h.2 hp⟩, ⟨s.entryFlush q, rfl, entryFlush_empties hp⟩⟩

/-- Settles O58: each event is the operation of its lemma, on a sequencer that runs one entry. -/
theorem engineEventsComplete : Obligations.EngineEventsComplete := by
  unfold Obligations.EngineEventsComplete
  refine ⟨fun s q ent hl ht h => macroStart_runs hl ht h, fun s e a he hel hn hp hA hB => ?start,
    fun s a st hel hg hr hd ho => ?tile, fun s a st hel hf hg ho => ?copy, fun s q a st ps h hm hd hroom hv => ?send,
    fun s q a st ps h ho => ?receive, fun s q a h => entryEvents_complete h, fun s x hl ht hr hx hc => ?refetch,
    fun s die im rest hdie hst hi hg => ?audit⟩
  case start =>
    have he' : e = .mx ∨ e = .px ∧ a.entry.form = 8 := he.imp_left And.left
    have hcore : s.seqCore (Spec.own e) = s.cur := by rcases he' with rfl | ⟨rfl, -⟩ <;> rfl
    have hone := runsOne_of_elastic hel
    obtain ⟨hlt, heq, hstate, hstop⟩ := hn
    have hdue := hone.stepDue_next hlt heq hstate hstop
    rw [hcore] at hone hdue
    obtain ⟨st, hs, hi, hsn, ht0⟩ := tileStepStart_begins he' hone hdue hp hA hB
    exact ⟨s.tileStepStart e, st, rfl, hs, hi, hsn, ht0⟩
  case tile =>
    obtain ⟨t, ht, -, hs, hsteps, -⟩ := tileStepCommit_commits hel hg hr hd ho
    exact ⟨t, ht, hs, hsteps⟩
  case copy =>
    obtain ⟨t, ht, ⟨-, hs, hsteps, -⟩, -⟩ := chunkCommit_copy_commits hel hf hg ho
    exact ⟨t, ht, hs, hsteps⟩
  case send =>
    obtain ⟨t, ht, ⟨-, hs, hsteps, -⟩, -⟩ := cxSendStep_commits h hm hd hroom
    exact ⟨t, ht, hs, hsteps⟩
  case receive =>
    obtain ⟨t, ht, ⟨-, hs, hsteps, -⟩, -⟩ := cxReceiveStep_commits h ho
    exact ⟨t, ht, hs, hsteps⟩
  case refetch =>
    refine ⟨s.ceRefetch, rfl, ?_⟩
    rw [ceRefetch_done hl ht hr hc, hx, redoDone_mx]
    exact ⟨redoEnd_redo s s.cur, rfl⟩
  case audit =>
    obtain ⟨d', hd', hrest, hdone⟩ := auditRecompute_audit hst hi hg
    exact ⟨s.auditRecompute die, d', if_pos (by simpa [unitsOk, dieOk] using hdie), hd', hrest, hdone⟩

end Sys2Proof.Machine
end

section
/-! Copy, fill, overlay and selection chunks, and the transfers of a plan (R24, R314, R325, R328, R331, R334, R336 to R338): the
statement O43. -/

open Sys2Proof Sys2Proof.Machine

namespace Sys2Proof.Machine

variable {s t u : State} {c : Nat} {q : Seqr} {a : ActiveEntry} {st : StepState}

/-! ### Fill chunks (R325) -/

/-- A fill without scales reads no memory. -/
theorem ceSectors_fill {b : Block} (hs : ceDstScaled b = false) (ls : List Level) (first n : Nat) :
    ceSectors 0x11 b ls first n = [] := by
  have hsrc : ceSrcScaled 0x11 b = false := rfl
  have hnil (l : List Nat) : l.flatMap (fun _ => ([] : List Nat)) = [] := List.flatMap_eq_nil_iff.2 fun _ _ => rfl
  unfold ceSectors
  dsimp only
  rw [hs, hsrc]
  simp [hnil]

/-- An element of a fill: the pattern, with no scale and no poison. -/
def fillElem (b : Block) : CeElem := { p := ((b[2]?).getD 0).toNat % 2 ^ ceBits (ceDfmt b), ss := 127, ds := 127, poison := false }

theorem ceRead_fill {b : Block} (hs : ceDstScaled b = false) (hf : ceDfmt b ≠ 3) (k : Engines) (ls : List Level) (v : SectorView)
    (first n : Nat) : ceRead k 0x11 b ls v first n = List.replicate n (fillElem b) := by
  have hsrc : ceSrcScaled 0x11 b = false := rfl
  unfold ceRead
  dsimp only
  rw [hs, hsrc]
  simp [hf, fillElem, List.map_const']

/-- What a fill chunk keeps of its pattern. -/
def StepState.filled (xs : List CeElem) (st : StepState) : StepState :=
  { ((st.put 51 (xs.map (·.p))).put 52 (xs.map (·.ss))).put 53 (xs.map (·.ds)) |>.put 54 (xs.map fun x => natOfBool x.poison)
    with stage := 1 }

theorem filled_sample (xs : List CeElem) (st : StepState) : (st.filled xs).sample 51 = xs.map (·.p) := by
  simp [StepState.filled, StepState.sample, StepState.put]

/-- The elements of chunk `n` of a fill. -/
def State.fillElems (s : State) (c : Nat) (ent : QEntry) (n : Nat) : List CeElem :=
  List.replicate (min 256 (totalOf (s.entryLevels c ent) - 256 * n)) (fillElem ent.block)

/-- The first turn of a fill chunk takes the pattern. -/
theorem ceChunk_fill (hf : a.entry.form = 0x11) (hs : ceDstScaled a.entry.block = false) (hd : ceDfmt a.entry.block ≠ 3)
    (hg : st.stage = 0) (hr : st.reads = []) (ht : st.t0 ≤ s.sc c) :
    s.ceChunk c q a st = s.modStep c q st.issue st.n (StepState.filled (s.fillElems c a.entry st.n)) := by
  have hlead : ceLead 0x11 a.entry.block = 0 := rfl
  unfold State.ceChunk
  dsimp only [ceElems]
  rw [if_pos hg, hf, hlead, if_neg (by simp [readsCome_nil hr]; omega), ceRead_fill hs hd, if_neg]
  · rfl
  · simp [fillElem]

/-- The next turn of the chunk has not come. -/
theorem ceChunk_sampled (hg : st.stage = 1) (ht : s.sc c < st.t0 + 8) : s.ceChunk c q a st = s := by
  unfold State.ceChunk
  dsimp only
  rw [if_neg (by omega), if_pos hg, if_pos (by omega)]

theorem ceCommit_sampled (hg : st.stage = 1) : s.ceCommit c q a st = s := by
  unfold State.ceCommit
  dsimp only
  rw [if_pos (by simp [State.ceReady, hg])]

theorem ceBegin_fill (hf : a.entry.form = 0x11) (hs : ceDstScaled a.entry.block = false) :
    s.ceBegin c a = s.beginStep c (Spec.own .ce) a.entry.issue a.started := by
  unfold State.ceBegin State.ceStart
  dsimp only [ceElems]
  rw [if_neg (by omega), hf, ceSectors_fill hs]
  rfl

/-- The step of a fill chunk that has begun and taken its pattern. -/
def fillStep (s : State) (a : ActiveEntry) : StepState :=
  (newStep a.entry.issue a.started (s.sc s.cur)).filled (s.fillElems s.cur a.entry a.started)

/-- The state once a fill chunk has begun and taken its pattern. -/
def State.fillBegun (s : State) (a : ActiveEntry) : State :=
  (s.beginStep s.cur (Spec.own .ce) a.entry.issue a.started).modStep s.cur (Spec.own .ce) a.entry.issue a.started
    (StepState.filled (s.fillElems s.cur a.entry a.started))

theorem fillElems_turned {B : Prop} (h : TurnFrame B s t) (c : Nat) (ent : QEntry) (n : Nat) :
    t.fillElems c ent n = s.fillElems c ent n := by
  rw [State.fillElems, State.entryLevels, h.cc]
  rfl

/-- A fill chunk begins: its pattern is taken, and nothing is written yet. -/
theorem ceTurn_fill (h : RunsOne s s.cur (Spec.own .ce) a [])
    (hdue : s.stepDue s.cur (Spec.own .ce) (s.seq s.cur (Spec.own .ce)) a a.total = true) (hf : a.entry.form = 0x11)
    (hs : ceDstScaled a.entry.block = false) (hd : ceDfmt a.entry.block ≠ 3) :
    RunsOne s.ceTurn s.cur (Spec.own .ce) { a with started := a.started + 1 } [fillStep s a] ∧ TurnFrame True s s.ceTurn := by
  have hne : a.entry.form ≠ 0x12 := by omega
  have hstart : s.ceStarts s.cur = s.beginStep s.cur (Spec.own .ce) a.entry.issue a.started :=
    (startFold_next h hdue fun s' b => s'.ceBegin s.cur b).trans (ceBegin_fill hf hs)
  have hb := h.beginStep
  have hbframe := (TurnFrame.refl (B := True) s).beginStep s.cur (Spec.own .ce) a.entry.issue a.started
  have hfirst : State.ceAdvance s.cur (s.beginStep s.cur (Spec.own .ce) a.entry.issue a.started) { a with started := a.started + 1 }
      (newStep a.entry.issue a.started (s.sc s.cur)) = s.fillBegun a := by
    rw [State.ceAdvance, if_neg hne, ceChunk_fill (a := { a with started := a.started + 1 })
      (st := newStep a.entry.issue a.started (s.sc s.cur)) hf hs hd rfl rfl (hbframe.sc s.cur).ge, fillElems_turned hbframe]
    rfl
  have hm : RunsOne (s.fillBegun a) s.cur (Spec.own .ce) { a with started := a.started + 1 } [fillStep s a] := hb.modStep _ rfl
  have hmframe : TurnFrame True s (s.fillBegun a) := hbframe.modStep ..
  have hsecond : State.ceAdvance s.cur (s.fillBegun a) { a with started := a.started + 1 } (fillStep s a) = s.fillBegun a := by
    have hlt : s.sc s.cur < (fillStep s a).t0 + 8 := Nat.lt_add_of_pos_right (by decide)
    rw [State.ceAdvance, if_neg hne, ceChunk_sampled rfl ((hmframe.sc s.cur).trans_lt hlt)]
  have hturn : s.ceTurn = s.fillBegun a := by
    rw [ceTurn_eq, hstart, hb.eachStep, hfirst, hm.eachStep, hsecond, hm.eachStep, State.ceEnd, if_neg hne, ceCommit_sampled rfl]
  rw [hturn]
  exact ⟨hm, hmframe⟩

theorem chunkCommit_fill (h : Spec.elastic s (Spec.own .ce) a []) (hn : Spec.nextDue s (Spec.own .ce) a) (hf : a.entry.form = 0x11)
    (hs : ceDstScaled a.entry.block = false) (hd : ceDfmt a.entry.block ≠ 3) :
    ∃ t st, exec (.chunkCommit (Spec.own .ce)) s = .next t ∧ Spec.stepBegun s t (Spec.own .ce) a 1 st ∧ t.mem = s.mem ∧
      Spec.be t = Spec.be s ∧
      st.sample 51 = List.replicate (min 256 (totalOf (s.entryLevels s.cur a.entry) - 256 * a.started))
        (((a.entry.block[2]?).getD 0).toNat % 2 ^ ceBits (ceDfmt a.entry.block)) := by
  obtain ⟨hlt, heq, hstate, hstop⟩ := hn
  have hone : RunsOne s s.cur (Spec.own .ce) a [] := runsOne_of_elastic h
  obtain ⟨ht, hframe⟩ := ceTurn_fill hone (hone.stepDue_next hlt heq hstate hstop) hf hs hd
  refine ⟨s.ceTurn, fillStep s a, congrArg Host.Outcome.next (chunkCommit_ce hone.live), ⟨ht.active, ht.steps, rfl, rfl, rfl, rfl, rfl⟩,
    hframe.mem, ?_, ?_⟩
  · rw [Spec.be, Spec.be, hframe.be trivial, show s.ceTurn.cur = s.cur by rw [hframe.rest]]
  · rw [fillStep, filled_sample, State.fillElems, List.map_replicate]
    rfl

/-! ### Overlay chunks (R328) -/

theorem fitBytes_length (bs : List Byte) (n : Nat) : (fitBytes bs n).length = n := by
  simp [fitBytes]

theorem fitBytes_getD (bs : List Byte) {n i : Nat} (h : i < n) : (fitBytes bs n).getD i 0 = (bs[i]?).getD 0 := by
  unfold fitBytes
  rw [List.getD_eq_getElem?_getD, List.getElem?_take_of_lt h]
  by_cases hi : i < bs.length
  · rw [List.getElem?_append_left hi]
  · rw [List.getElem?_append_right (by omega), List.getElem?_eq_none (by omega : bs.length ≤ i)]
    cases hr : (List.replicate n (0 : Byte))[i - bs.length]? with
    | none => rfl
    | some x => rw [(List.mem_replicate.1 (List.mem_of_getElem? hr)).2]; rfl

/-- What the descriptor of a loaded region says. -/
theorem ovDesc_loaded (b : Block) (n : Nat) : ovDesc b n true =
    Spec.W ((2 ^ 63 + (if ovKind b then 2 ^ 62 else 0) + (ovBase b + (if ovKind b then 8192 else 128) * n) % 2 ^ 32 : Nat)) := by
  unfold ovDesc Spec.W
  cases ovKind b <;> rfl

theorem byteAt_loaded {k : Engines} (hwf : Memory.wf k.ispad = true) (b : Block) (st : StepState) (j : Nat) :
    byteAt (k.loaded b st).ispad j =
      let o := 8192 * (ovRegion b + st.n)
      if o ≤ j ∧ j < o + 8192 then (st.readBytes)[j - o]?.getD 0 else byteAt k.ispad j := by
  dsimp only [Engines.loaded]
  rw [byteAt_writeBytes hwf, fitBytes_length, Nat.mul_comm]
  split
  · exact fitBytes_getD _ (by omega)
  · rfl

/-- What a turn of commits leaves of the overlays. -/
theorem overlays_commit (s : State) (c : Nat) (q : Seqr) (st : StepState) (ev n : Nat) :
    (((s.commitStep c q st).count c ev n).core c).eng.ispad = (s.core c).eng.ispad ∧
      (((s.commitStep c q st).count c ev n).core c).eng.regions = (s.core c).eng.regions := by
  have hcount (u : State) : ((u.count c ev n).core c).eng = (u.core c).eng := by
    unfold State.count
    dsimp only
    split
    · rw [State.core_setCore, if_pos rfl]
    · rfl
  have hseq (u : State) (x : SeqState) : ((u.setSeq c q x).core c).eng.ispad = (u.core c).eng.ispad ∧
      ((u.setSeq c q x).core c).eng.regions = (u.core c).eng.regions := by
    obtain ⟨mx, px, ce, h, -⟩ := setSeq_core u c q x c
    rw [h]
    exact ⟨rfl, rfl⟩
  rw [hcount, State.commitStep]
  dsimp only
  split
  · exact ⟨rfl, rfl⟩
  · exact hseq ..

theorem chunkCommit_overlay_loads (h : Spec.elastic s (Spec.own .ce) a [st]) (hf : a.entry.form = 0x12)
    (hd : st.t0 + 520 ≤ s.sc s.cur) (hr : st.readsCome = true) (hreg : ovRegion a.entry.block + st.n < 16)
    (hwf : Memory.wf (s.core s.cur).eng.ispad = true) :
    ∃ t, exec (.chunkCommit (Spec.own .ce)) s = .next t ∧ Spec.stepCommitted s t (Spec.own .ce) a st ∧
      (t.core s.cur).eng.regions[ovRegion a.entry.block + st.n]? = some (Spec.W ((2 ^ 63 + (if ovKind a.entry.block then 2 ^ 62 else 0) +
        (ovBase a.entry.block + (if ovKind a.entry.block then 8192 else 128) * st.n) % 2 ^ 32 : Nat))) ∧
      (∀ j, byteAt (t.core s.cur).eng.ispad j =
        let o := 8192 * (ovRegion a.entry.block + st.n)
        if o ≤ j ∧ j < o + 8192 then (st.readBytes)[j - o]?.getD 0 else byteAt (s.core s.cur).eng.ispad j) ∧ t.mem = s.mem := by
  have hone : RunsOne s s.cur (Spec.own .ce) a [st] := runsOne_of_elastic h
  have hloaded := loaded_frame s s.cur a.entry.block st
  have hseq := seq_loaded s s.cur a.entry.block st (Spec.own .ce)
  have hcore : ((s.modEng s.cur fun k => k.loaded a.entry.block st).core s.cur).eng = (s.core s.cur).eng.loaded a.entry.block st := by
    rw [State.core_modEng, if_pos rfl]
  have hcommit := (hone.turned hloaded hseq hone.active hone.steps hone.issue).commits
  have hframe := (hloaded.commitStep s.cur (Spec.own .ce) st).count s.cur 9 1
  obtain ⟨hispad, hregions⟩ := overlays_commit (s.modEng s.cur fun k => k.loaded a.entry.block st) s.cur (Spec.own .ce) st 9 1
  rw [hseq] at hcommit
  rw [hcore] at hispad hregions
  refine ⟨_, congrArg Host.Outcome.next ((chunkCommit_overlay hone hf).trans (ovCommit_due hd hr)), ?_, ?_, fun j => ?_, hframe.mem⟩
  · rw [← seq_count ((s.modEng s.cur fun k => k.loaded a.entry.block st).commitStep s.cur (Spec.own .ce) st) s.cur 9 1] at hcommit
    exact hcommit
  · rw [hregions, ← ovDesc_loaded]
    exact Vector.getElem?_setIfInBounds_self_of_lt hreg
  · rw [hispad]
    exact byteAt_loaded hwf ..

/-! ### Selection chunks (R331) -/

/-- A store that a step's engine has issued keeps the step's writes from being out. -/
theorem writesOut_pending {x : SpAccess} (hx : x ∈ (s.core c).be.accesses) (hrank : x.rank = engRank q.eng)
    {issue : Half} {n : Nat} (hid : x.id = issue.toNat) (hpc : x.pc.toNat = n) : s.writesOut c q issue n = false := by
  unfold State.writesOut
  rw [List.any_eq_true.2 ⟨x, hx, by simp [hrank, hid, hpc]⟩]
  rfl

/-- The store that `engStore` issues. -/
def Ask.store (x : Ask) (addr : Nat) (bs : List Byte) (due : Nat) : SpAccess :=
  { kind := .store, addr, bytes := bs, len := bs.length, tag := 0, due, issue := due, rank := engRank x.q.eng, id := x.issue.toNat
    pc := BitVec.ofNat 32 x.n, poison := false, keep := 0 }

theorem engStore_be (s : State) (x : Ask) (addr : Nat) (bs : List Byte) (due : Nat) :
    ((s.engStore x .store addr bs due).core x.core).be =
      { (s.core x.core).be with accesses := (s.core x.core).be.accesses ++ [x.store addr bs due] } := by
  rw [State.engStore, State.core_modBe, if_pos rfl]
  rfl

/-- The store of a stretch of the output area, if it has bytes. -/
def Ask.outStores (x : Ask) (b : Block) (ofs : Nat) (bs : List Byte) (due : Nat) : List SpAccess :=
  if bs = [] then [] else [x.store (wrObase b + ofs) bs due]

theorem wrOut_nil (s : State) (x : Ask) (b : Block) (ofs : Nat) : s.wrOut x b ofs [] = s := rfl

theorem wrOut_spad {b : Block} (hb : wrSpad b = true) {bs : List Byte} (hbs : bs ≠ []) (s : State) (x : Ask) (ofs : Nat) :
    s.wrOut x b ofs bs = s.engStore x .store (wrObase b + ofs) bs (s.sc x.core) := by
  unfold State.wrOut
  rw [if_neg (by simpa using hbs), if_pos hb]

/-- Writing to an output area in scratchpad issues a store, and leaves the sequencer. -/
theorem wrOut_stores {b : Block} (hb : wrSpad b = true) (s : State) (x : Ask) (ofs : Nat) (bs : List Byte) :
    ((s.wrOut x b ofs bs).core x.core).be.accesses = (s.core x.core).be.accesses ++ x.outStores b ofs bs (s.sc x.core) ∧
      (s.wrOut x b ofs bs).seq x.core q = s.seq x.core q ∧ TurnFrame False s (s.wrOut x b ofs bs) := by
  by_cases hbs : bs = []
  · subst hbs
    rw [wrOut_nil, Ask.outStores, if_pos rfl, List.append_nil]
    exact ⟨rfl, rfl, .refl s⟩
  · rw [wrOut_spad hb hbs, Ask.outStores, if_neg hbs, engStore_be]
    exact ⟨rfl, seq_engStore .., (TurnFrame.refl s).engStore ..⟩

/-- The qualifying elements of a chunk, and the bytes of those that the output has room for. -/
def wrFound (b : Block) (st : StepState) : List (Half × Half) := (wrRead b st.n st).filter fun e => wrQualifies b e.1.toNat

def wrPairs (b : Block) (st : StepState) (n0 : Nat) : List Byte := ((wrFound b st).take (wrOcap b - n0)).flatMap pairBytes

/-- The step of a selection chunk whose pairs are on their way. -/
def StepState.selected (n1 : Nat) (st : StepState) : StepState := { st.put 71 [n1, 0] with stage := 2 }

theorem selected_sample (n1 : Nat) (st : StepState) : (st.selected n1).sample 71 = [n1, 0] := by
  simp [StepState.selected, StepState.sample, StepState.put]

theorem wrHeader_ne (count : Nat) (ovf nan : Bool) (scanned : Nat) : wrHeader count ovf nan scanned ≠ [] := by
  unfold wrHeader
  intro h
  have := congrArg List.length h
  rw [List.length_append, bytesOf_length, bytesOf_length] at this
  exact absurd this (by decide)

/-- The header that the last chunk of a selection of `n1` elements writes. -/
def selectHeader (b : Block) (n1 : Nat) : List Byte := wrHeader n1 (decide (n1 > wrOcap b)) false (wrElems b)

theorem selectHeader_ne (b : Block) (n1 : Nat) : selectHeader b n1 ≠ [] := wrHeader_ne _ _ _ _

/-- The stores of a selection chunk: its pairs, and with the last chunk the header. -/
def Ask.selectStores (x : Ask) (a : ActiveEntry) (st : StepState) (n0 due : Nat) : List SpAccess :=
  x.outStores a.entry.block (16 + 8 * n0) (wrPairs a.entry.block st n0) due ++
    if st.n + 1 = a.total then
      x.outStores a.entry.block 0 (selectHeader a.entry.block (n0 + (wrFound a.entry.block st).length)) due
    else []

/-- The pairs of a selection chunk are written, then the header of the last one. -/
def State.selectOut (s : State) (x : Ask) (q : Seqr) (a : ActiveEntry) (st : StepState) (n0 : Nat) : State :=
  let u := s.wrOut x a.entry.block (16 + 8 * n0) (wrPairs a.entry.block st n0)
  if st.n + 1 == a.total && (u.stepAt x.core q st.issue st.n).isSome then
    u.wrOut x a.entry.block 0 (selectHeader a.entry.block (n0 + (wrFound a.entry.block st).length))
  else u

theorem wrWrites_select (hf : a.entry.form = 0x18) : s.wrWrites c q a st =
    (s.modStep c q st.issue st.n
        (StepState.selected ((s.seq c q).prog.count.toNat + (wrFound a.entry.block st).length))).selectOut
      (s.askOf c q a st.n) q a st (s.seq c q).prog.count.toNat := by
  unfold State.wrWrites
  dsimp only
  rw [if_pos hf]
  rfl

theorem selectOut_stores {x : Ask} {y : StepState} (h : RunsOne s x.core q a [y]) (hi : y.issue = st.issue) (hn : y.n = st.n)
    (hb : wrSpad a.entry.block = true) (n0 : Nat) :
    ((s.selectOut x q a st n0).core x.core).be.accesses =
        (s.core x.core).be.accesses ++ x.selectStores a st n0 (s.sc x.core) ∧
      (s.selectOut x q a st n0).seq x.core q = s.seq x.core q ∧ TurnFrame False s (s.selectOut x q a st n0) := by
  obtain ⟨hacc, hseq, hframe⟩ := wrOut_stores (q := q) hb s x (16 + 8 * n0) (wrPairs a.entry.block st n0)
  have hstep := (h.turned hframe hseq h.active h.steps h.issue).stepAt
  rw [hi, hn] at hstep
  unfold State.selectOut Ask.selectStores
  dsimp only
  rw [hstep]
  by_cases hlast : st.n + 1 = a.total
  · obtain ⟨hacc', hseq', hframe'⟩ := wrOut_stores (q := q) hb (s.wrOut x a.entry.block (16 + 8 * n0) (wrPairs a.entry.block st n0)) x 0
      (selectHeader a.entry.block (n0 + (wrFound a.entry.block st).length))
    rw [if_pos (by simp [hlast]), if_pos hlast, hacc', hacc, hframe.sc, List.append_assoc]
    exact ⟨rfl, hseq'.trans hseq, hframe.trans hframe'⟩
  · rw [if_neg (by simp [hlast]), if_neg hlast, hacc, List.append_nil]
    exact ⟨rfl, hseq, hframe⟩

theorem mem_outStores {x : Ask} {b : Block} {ofs due : Nat} {bs : List Byte} (h : bs ≠ []) :
    x.store (wrObase b + ofs) bs due ∈ x.outStores b ofs bs due := by
  rw [Ask.outStores, if_neg h]
  exact List.mem_singleton_self _

/-- A selection chunk that has pairs, and the last one, have a store to wait for. -/
theorem exists_selectStore (x : Ask) {n0 : Nat} (due : Nat) (h : st.n + 1 = a.total ∨ wrPairs a.entry.block st n0 ≠ []) :
    ∃ addr bs, x.store addr bs due ∈ x.selectStores a st n0 due := by
  unfold Ask.selectStores
  by_cases hp : wrPairs a.entry.block st n0 = []
  · have hlast := h.resolve_right fun hne => hne hp
    rw [if_pos hlast]
    exact ⟨_, _, List.mem_append_right _ (mem_outStores (selectHeader_ne _ _))⟩
  · exact ⟨_, _, List.mem_append_left _ (mem_outStores hp)⟩

theorem wrChunkTurn_select (h : RunsOne s c q a [st]) (hf : a.entry.form = 0x18) (hb : wrSpad a.entry.block = true)
    (hg : st.stage = 1) (hn : st.n < 2 ^ 32) (hr : st.readsCome = true) (hd : st.t0 + commitOfs 0x18 a.entry.block st.n ≤ s.sc c)
    (hw : st.n + 1 = a.total ∨ wrPairs a.entry.block st (s.seq c q).prog.count.toNat ≠ []) :
    s.wrChunkTurn c q a st = s.wrWrites c q a st := by
  generalize hn1 : (s.seq c q).prog.count.toNat + (wrFound a.entry.block st).length = n1
  have hm := h.modStep (StepState.selected n1) rfl
  have hmframe := (TurnFrame.refl (B := True) s).modStep c q st.issue st.n (StepState.selected n1)
  obtain ⟨hacc, hseq, hframe⟩ := selectOut_stores (x := s.askOf c q a st.n) (st := st) hm rfl rfl hb (s.seq c q).prog.count.toNat
  obtain ⟨addr, bs, hx⟩ := exists_selectStore (s.askOf c q a st.n)
    ((s.modStep c q st.issue st.n (StepState.selected n1)).sc c) hw
  have hout := wrWrites_select (s := s) (c := c) (q := q) (st := st) hf
  rw [hn1] at hout
  rw [← hout] at hacc hseq hframe
  have hu := hm.turned hframe hseq hm.active hm.steps hm.issue
  have hpend : (s.wrWrites c q a st).writesOut c q st.issue st.n = false := by
    refine writesOut_pending (x := (s.askOf c q a st.n).store addr bs _) (hacc ▸ List.mem_append_right _ hx) rfl ?_ ?_
    · rw [h.issue st (List.mem_singleton_self st)]; rfl
    · exact Nat.mod_eq_of_lt hn
  unfold State.wrChunkTurn
  dsimp only
  rw [if_neg (by omega), h.stepAt]
  dsimp only
  rw [hf, if_neg (by simp [hg, hr]; omega), if_pos hg]
  have hstep : (s.wrWrites c q a st).stepAt c q st.issue st.n = some (st.selected n1) := hu.stepAt
  have hpend' : (s.wrWrites c q a st).writesOut c q (st.selected n1).issue (st.selected n1).n = false := hpend
  rw [hstep]
  dsimp only
  rw [hpend', hu.elastic]
  rfl

/-- A selection chunk that has come to its end issues its stores. -/
theorem chunkCommit_select (hq : q.eng = .weir) (h : Spec.elastic s q a [st]) (hf : a.entry.form = 0x18)
    (hb : wrSpad a.entry.block = true) (hg : st.stage = 1) (hn : st.n < 2 ^ 32) (hr : st.readsCome = true)
    (hd : st.t0 + commitOfs 0x18 a.entry.block st.n ≤ s.sc (s.seqCore q))
    (hw : st.n + 1 = a.total ∨ wrPairs a.entry.block st (s.seq (s.seqCore q) q).prog.count.toNat ≠ []) :
    exec (.chunkCommit q) s = .next (s.wrWrites (s.seqCore q) q a st) := by
  have hone := runsOne_of_elastic h
  refine congrArg Host.Outcome.next ((chunkCommit_weir hq hone.live).trans ((wrTurn_busy hone).trans ?_))
  exact wrChunkTurn_select hone hf hb hg hn hr hd hw

/-- What a selection chunk writes: addresses and bytes. -/
theorem selectStores_bytes (x : Ask) (n0 due : Nat) :
    (x.selectStores a st n0 due).map (fun y => (y.addr, y.bytes)) =
      (if wrPairs a.entry.block st n0 = [] then [] else [(wrObase a.entry.block + 16 + 8 * n0, wrPairs a.entry.block st n0)]) ++
        if st.n + 1 = a.total then
          [(wrObase a.entry.block, selectHeader a.entry.block (n0 + (wrFound a.entry.block st).length))] else [] := by
  unfold Ask.selectStores Ask.outStores
  rw [List.map_append, if_neg (selectHeader_ne _ _)]
  congr 1
  · split
    · rfl
    · rw [Nat.add_assoc]; rfl
  · split <;> rfl

theorem selectHeader_bytes (b : Block) (n1 : Nat) : selectHeader b n1 =
    bytesOf (n1 % 2 ^ 32 + if wrOcap b < n1 then 2 ^ 32 else 0) 8 ++ bytesOf (wrElems b % 2 ^ 32) 8 := by
  unfold selectHeader wrHeader
  by_cases h : wrOcap b < n1 <;> simp [h, natOfBool]

/-- After its writes a selection chunk waits for them, and the entry's registers stand as they were. -/
theorem wrWrites_selects (h : RunsOne s c q a [st]) (hf : a.entry.form = 0x18) (hb : wrSpad a.entry.block = true) :
    let n0 := (s.seq c q).prog.count.toNat
    let n1 := n0 + (wrFound a.entry.block st).length
    let pairs := wrPairs a.entry.block st n0
    ((s.wrWrites c q a st).seq c q).steps = [st.selected n1] ∧ ((s.wrWrites c q a st).seq c q).prog = (s.seq c q).prog ∧
      ((s.wrWrites c q a st).core c).be.accesses.map (fun x => (x.addr, x.bytes)) =
        (s.core c).be.accesses.map (fun x => (x.addr, x.bytes)) ++
          (if pairs = [] then [] else [(wrObase a.entry.block + 16 + 8 * n0, pairs)]) ++
          (if st.n + 1 = a.total then
            [(wrObase a.entry.block, bytesOf (n1 % 2 ^ 32 + if wrOcap a.entry.block < n1 then 2 ^ 32 else 0) 8 ++
              bytesOf (wrElems a.entry.block % 2 ^ 32) 8)] else []) := by
  dsimp only
  generalize hn1 : (s.seq c q).prog.count.toNat + (wrFound a.entry.block st).length = n1
  have hm := h.modStep (StepState.selected n1) rfl
  have hmseq := h.seq_modStep (StepState.selected n1)
  have hmframe := (TurnFrame.refl (B := True) s).modStep c q st.issue st.n (StepState.selected n1)
  obtain ⟨hacc, hseq, -⟩ := selectOut_stores (x := s.askOf c q a st.n) (st := st) hm rfl rfl hb (s.seq c q).prog.count.toNat
  have hout := wrWrites_select (s := s) (c := c) (q := q) (st := st) hf
  rw [hn1] at hout
  rw [← hout] at hacc hseq
  have hprog : ((s.modStep c q st.issue st.n (StepState.selected n1)).seq c q).prog = (s.seq c q).prog := by rw [hmseq]
  have hbe : ((s.modStep c q st.issue st.n (StepState.selected n1)).core c).be = (s.core c).be := hmframe.be trivial c
  refine ⟨(congrArg SeqState.steps hseq).trans hm.steps, (congrArg SeqState.prog hseq).trans hprog, ?_⟩
  refine (congrArg (List.map fun x => (x.addr, x.bytes)) hacc).trans ?_
  rw [List.map_append, selectStores_bytes, selectHeader_bytes, hn1, ← List.append_assoc]
  congr 3
  exact congrArg Be.accesses hbe

/-- A Weir chunk whose writes are out commits, and COUNT takes its elements in. -/
theorem chunkCommit_weir_commits (hq : q.eng = .weir) (h : Spec.elastic s q a [st]) (hg : st.stage = 2) (hr : st.readsCome = true)
    (hn : wrElems a.entry.block ≠ 0) (hd : st.t0 + commitOfs a.entry.form a.entry.block st.n ≤ s.sc (s.seqCore q))
    (ho : Spec.nothingOut s (s.seqCore q)) :
    ∃ t, exec (.chunkCommit q) s = .next t ∧ Spec.stepCommitted s t q a st ∧
      (t.seq (s.seqCore q) q).prog.count = BitVec.ofNat 32 ((st.sample 71).getD 0 0) ∧ t.mem = s.mem := by
  have hone := runsOne_of_elastic h
  obtain ⟨hcommit, hcount⟩ := wrCommit_commits hone hn
  refine ⟨_, congrArg Host.Outcome.next ((chunkCommit_weir hq hone.live).trans ((wrTurn_busy hone).trans
    (wrChunkTurn_commit hone hg hr hd ho))), hcommit, hcount, ?_⟩
  rw [wrCommit_eq, State.modSeq_mem]
  exact ((TurnFrame.refl (B := True) s).commitStep ..).mem

end Sys2Proof.Machine
end

section
/-! A plan's receive step takes its transfer and writes it (R336, R337); with the chunks, the statement O43. -/

open Sys2Proof Sys2Proof.Machine

namespace Sys2Proof.Machine

variable {s t u : State} {c : Nat} {q : Seqr} {a : ActiveEntry} {st : StepState} {ps : PlanStep}

/-! ### The transfer is taken -/

/-- A receive step that has taken a transfer at SC `sc`. -/
def StepState.received (h : Held) (bs : List Byte) (sc : Nat) (st : StepState) : StepState :=
  { (st.put 0 (natsOf bs)).put 1 [natOfBool h.flit.poisoned] with stage := 1, t0 := sc }

theorem received_sample (h : Held) (bs : List Byte) (sc : Nat) (st : StepState) :
    (st.received h bs sc).sample 0 = bs.map BitVec.toNat := by
  simp [StepState.received, StepState.sample, StepState.put, natsOf]

/-- The transfers held for plans, of which one is taken. -/
def Fabric.took (k : Fabric) (h : Held) (st : StepState) : List Held :=
  match k.plan.idxOf? h with
  | some i => k.plan.set i { h with takenBy := some (st.issue, st.n) }
  | none => k.plan

theorem took_only {k : Fabric} {h : Held} (hk : k.plan = [h]) (st : StepState) :
    k.took h st = [{ h with takenBy := some (st.issue, st.n) }] := by
  unfold Fabric.took
  rw [hk]
  simp [List.idxOf?_cons]

theorem cxTake_only {h : Held} {bs : List Byte} (hk : (s.core c).fab.plan = [h]) (ht : s.timed c = false)
    (hp : h.flit.plan = some (clPlan a.entry.block, ps.stepno, bs)) (hmod : h.flit.srcModule = ps.pmod)
    (hcore : h.flit.srcCore = ps.pcore) (hs : h.flit.stream = q.idx) (hn : h.takenBy = none) :
    s.cxTake c q a st ps = (s.modFab c fun k => { k with plan := k.took h st }).modStep c q st.issue st.n
      (StepState.received h bs (s.sc c)) := by
  have hmine : (s.core c).fab.plan.filter (fun h => heldFrom q.idx ps h && (!s.timed c || h.arr == s.sc c)) = [h] := by
    rw [hk]
    exact List.filter_cons_of_pos (by simp [heldFrom, hmod, hcore, hs, hn, ht])
  have hsc : (s.modFab c fun k => { k with plan := k.took h st }).sc c = s.sc c :=
    ((TurnFrame.refl (B := True) s).modFabPlan c fun k => k.took h st).sc c
  unfold State.cxTake
  dsimp only
  rw [hmine, List.find?_cons_of_pos (by simp [heldStep, hp]), ← hsc]
  dsimp only
  rw [hp]
  rfl

theorem fab_setSeq (s : State) (c : Nat) (q : Seqr) (x : SeqState) (j : Nat) : ((s.setSeq c q x).core j).fab = (s.core j).fab := by
  obtain ⟨_, _, _, h, -⟩ := setSeq_core s c q x j
  rw [h]

theorem fab_modStep (s : State) (c : Nat) (q : Seqr) (issue : Half) (n : Nat) (f : StepState → StepState) (j : Nat) :
    ((s.modStep c q issue n f).core j).fab = (s.core j).fab := fab_setSeq ..

/-- A step that has taken its transfer now waits for its destination's sample point. -/
theorem cxRecvTurn_waits (h : RunsOne s c q a [st]) (hg : st.stage = 0) {f : StepState → StepState} {u : State}
    (htake : s.cxTake c q a st ps = u) (hu : RunsOne u c q a [f st]) (hf : (f st).issue = st.issue ∧ (f st).n = st.n)
    (hstage : (f st).stage = 1) (ht0 : (f st).t0 = s.sc c) : s.cxRecvTurn c q a st ps = u := by
  obtain ⟨hi, hn⟩ := hf
  have hstep : u.stepAt c q st.issue st.n = some (f st) := by rw [← hi, ← hn]; exact hu.stepAt
  unfold State.cxRecvTurn
  dsimp only
  rw [if_pos (by simp [hg, h.elastic]), htake, hstep]
  dsimp only
  rw [if_neg (by simp [ht0]), hu.stepAt]
  dsimp only
  rw [if_neg (by simp [hstage])]

theorem cxReceiveStep_takes {h : Held} {bs : List Byte} (hst : Spec.planStepAt s q a st ps true 0)
    (hk : (s.core (s.seqCore q)).fab.plan = [h]) (hp : h.flit.plan = some (clPlan a.entry.block, ps.stepno, bs))
    (hmod : h.flit.srcModule = ps.pmod) (hcore : h.flit.srcCore = ps.pcore) (hs : h.flit.stream = q.idx) (hn : h.takenBy = none) :
    ∃ t st', exec (.cxReceiveStep q) s = .next t ∧
      (t.core (s.seqCore q)).fab.plan = [{ h with takenBy := some (st.issue, st.n) }] ∧
      (t.seq (s.seqCore q) q).steps = [st'] ∧ st'.stage = 1 ∧ st'.t0 = s.sc (s.seqCore q) ∧ st'.n = st.n ∧
      st'.sample 0 = bs.map BitVec.toNat ∧ (t.seq (s.seqCore q) q).prog = (s.seq (s.seqCore q) q).prog ∧ t.mem = s.mem := by
  obtain ⟨hq, hel, hplan, hv, hg, -, -, -⟩ := hst
  have hone := runsOne_of_elastic hel
  have hframe := (TurnFrame.refl (B := True) s).modFabPlan (s.seqCore q) fun k => k.took h st
  have hfab := hone.turned hframe (seq_modFab ..) hone.active hone.steps hone.issue
  have hm := hfab.modStep (StepState.received h bs (s.sc (s.seqCore q))) rfl
  have hseq := hfab.seq_modStep (StepState.received h bs (s.sc (s.seqCore q)))
  have hturn := cxRecvTurn_waits hone hg (cxTake_only hk hone.elastic hp hmod hcore hs hn) hm ⟨rfl, rfl⟩ rfl rfl
  refine ⟨_, StepState.received h bs (s.sc (s.seqCore q)) st, congrArg Host.Outcome.next ((cxTurn_busy hq hone hplan hv).trans hturn),
    ?_, hm.steps, rfl, rfl, rfl, received_sample .., ?_, hframe.mem.symm ▸ State.modSeq_mem ..⟩
  · rw [fab_modStep, State.core_modFab, if_pos rfl]
    exact took_only hk st
  · rw [hseq, seq_modFab]

/-! ### The transfer is written -/

/-- The bytes that a receive step writes to scratchpad, with their flags. -/
def State.recvOut (s : State) (c : Nat) (a : ActiveEntry) (ps : PlanStep) (at_ : Nat) (bs : List Byte) : List Byte × FlagSet :=
  if ps.combine then clCombine a.entry.block (s.fz c) (readBytes (s.core c).eng.spad at_ bs.length) bs else (bs, 0)

/-- A receive step whose write is on its way. -/
def StepState.written (fl : FlagSet) (st : StepState) : StepState := { st with stage := 2, flags := fl }

theorem spadPoisoned_none {k : Engines} (h : k.spadPoison = []) (x n : Nat) : k.spadPoisoned x n = none := by
  unfold Engines.spadPoisoned
  rw [h, List.find?_eq_none.2 fun w _ => by simp]
  rfl

/-- What a receive step has to write. -/
def State.recvDue (s : State) (c : Nat) (a : ActiveEntry) (st : StepState) (ps : PlanStep) : List Byte × FlagSet :=
  s.recvOut c a ps (clSpan a.entry.block ps).2.1 (bytesOfNats ((st.sample 0).take (clSpan a.entry.block ps).2.2))

/-- The state once a receive step has issued its write. -/
def State.recvWritten (s : State) (c : Nat) (q : Seqr) (a : ActiveEntry) (st : StepState) (ps : PlanStep) : State :=
  (s.modStep c q st.issue st.n (StepState.written (s.recvDue c a st ps).2)).engStore (s.askOf c q a st.n) .store
    (clSpan a.entry.block ps).2.1 (s.recvDue c a st ps).1 (st.t0 + 8)

/-- The write of a receive step. -/
def State.recvStore (s : State) (c : Nat) (q : Seqr) (a : ActiveEntry) (st : StepState) (ps : PlanStep) : SpAccess :=
  (s.askOf c q a st.n).store (clSpan a.entry.block ps).2.1 (s.recvDue c a st ps).1 (st.t0 + 8)

theorem recvWritten_runs (h : RunsOne s c q a [st]) :
    RunsOne (s.recvWritten c q a st ps) c q a [st.written (s.recvDue c a st ps).2] ∧
      ((s.recvWritten c q a st ps).core c).be =
        { (s.core c).be with accesses := (s.core c).be.accesses ++ [s.recvStore c q a st ps] } := by
  have hm := h.modStep (StepState.written (s.recvDue c a st ps).2) rfl
  have hmframe := (TurnFrame.refl (B := True) s).modStep c q st.issue st.n (StepState.written (s.recvDue c a st ps).2)
  have hframe := (TurnFrame.refl (s.modStep c q st.issue st.n (StepState.written (s.recvDue c a st ps).2))).engStore
    (s.askOf c q a st.n) .store (clSpan a.entry.block ps).2.1 (s.recvDue c a st ps).1 (st.t0 + 8) 0 0 false
  refine ⟨hm.turned hframe (seq_engStore (x := s.askOf c q a st.n) ..) hm.active hm.steps hm.issue, ?_⟩
  rw [State.recvWritten]
  refine (engStore_be _ (s.askOf c q a st.n) ..).trans ?_
  have hbe : ((s.modStep c q st.issue st.n (StepState.written (s.recvDue c a st ps).2)).core (s.askOf c q a st.n).core).be =
    (s.core c).be := hmframe.be trivial c
  rw [hbe]
  rfl

theorem cxRecvTurn_writes (h : RunsOne s c q a [st]) (hmem : (clSpan a.entry.block ps).1 = false) (hg : st.stage = 1)
    (hd : st.t0 + 4 ≤ s.sc c) (hbad : (st.sample 1).getD 0 0 = 0) (hp : (s.core c).eng.spadPoison = []) (hn : st.n < 2 ^ 32) :
    s.cxRecvTurn c q a st ps = s.recvWritten c q a st ps := by
  obtain ⟨hu, hbe⟩ := recvWritten_runs (ps := ps) h
  have hpend : (s.recvWritten c q a st ps).writesOut c q st.issue st.n = false := by
    refine writesOut_pending (x := s.recvStore c q a st ps) ?_ rfl ?_ (Nat.mod_eq_of_lt hn)
    · rw [congrArg Be.accesses hbe]
      exact List.mem_append_right _ (List.mem_singleton_self _)
    · rw [h.issue st (List.mem_singleton_self st)]; rfl
  have hstep : (s.recvWritten c q a st ps).stepAt c q st.issue st.n = some (st.written (s.recvDue c a st ps).2) := hu.stepAt
  have hwrite : (s.modStep c q st.issue st.n (StepState.written (s.recvDue c a st ps).2)).engStore (s.askOf c q a st.n) .store
      (clSpan a.entry.block ps).2.1 (s.recvDue c a st ps).1 (st.t0 + 8) 0 0 false = s.recvWritten c q a st ps := rfl
  unfold State.cxRecvTurn
  dsimp only
  rw [if_neg (by simp [hg]), h.stepAt]
  dsimp only
  rw [if_pos (by simp [hg, hd]), hmem, if_neg Bool.false_ne_true, spadPoisoned_none hp, ite_self]
  dsimp only
  rw [hbad, if_neg (by simp)]
  change (match (s.recvWritten c q a st ps).stepAt c q st.issue st.n with
    | none => s.recvWritten c q a st ps
    | some y => if (decide (y.stage = 2) && if (s.recvWritten c q a st ps).timed c = true then decide (y.t0 + 8 ≤ s.sc c) else
        (s.recvWritten c q a st ps).writesOut c q y.issue y.n) = true then (s.recvWritten c q a st ps).cxCommit c q a y
      else s.recvWritten c q a st ps) = s.recvWritten c q a st ps
  rw [hstep]
  dsimp only
  rw [hu.elastic, show (s.recvWritten c q a st ps).writesOut c q (st.written (s.recvDue c a st ps).2).issue
    (st.written (s.recvDue c a st ps).2).n = false from hpend]
  exact if_neg (by simp)

/-- A slice of a list of pieces of one length is the piece. -/
theorem slice_flatMap {α β : Type} {f : α → List β} {z : Nat} (hz : ∀ x, (f x).length = z) (l : List α) {i : Nat} (hi : i < l.length) :
    ((l.flatMap f).drop (z * i)).take z = f l[i] := by
  induction l generalizing i with
  | nil => exact absurd hi (by simp)
  | cons x l ih =>
    cases i with
    | zero => simp [List.flatMap_cons, hz]
    | succ i =>
      rw [List.flatMap_cons, Nat.mul_succ, Nat.add_comm, ← List.drop_drop, ← hz x, List.drop_left, hz x]
      exact ih (by simpa using hi)

theorem length_flatMap_pieces {α β : Type} {f : α → List β} {z : Nat} (hz : ∀ x, (f x).length = z) (l : List α) :
    (l.flatMap f).length = l.length * z := by
  simp [List.length_flatMap, hz, List.sum_replicate]

/-- The elements of a combine: as many as the transfer holds whole, each combined on its own. -/
theorem clCombine_elements (b : Block) (fz : Bool) (old new : List Byte) :
    (clCombine b fz old new).1.length = new.length / clBytes (clEtype b) * clBytes (clEtype b) ∧
      ∀ i < new.length / clBytes (clEtype b), let z := clBytes (clEtype b)
        ((clCombine b fz old new).1.drop (z * i)).take z = bytesOf (combineElem (clComb b + 1) (clType (clEtype b)) fz
          (bytesVal ((old.drop (z * i)).take z)) (bytesVal ((new.drop (z * i)).take z))).1 z := by
  have hz (y : Nat × FlagSet) : (bytesOf y.1 (clBytes (clEtype b))).length = clBytes (clEtype b) := bytesOf_length ..
  unfold clCombine clOpCode
  dsimp only
  refine ⟨by rw [length_flatMap_pieces hz, List.length_map, List.length_range], fun i hi => ?_⟩
  rw [slice_flatMap hz _ (by simpa using hi)]
  simp

theorem cxReceiveStep_writes (hst : Spec.planStepAt s q a st ps true 1) (hmem : (Spec.planSpan a.entry.block ps).1 = false)
    (hd : st.t0 + 4 ≤ s.sc (s.seqCore q)) (hbad : (st.sample 1).getD 0 0 = 0)
    (hp : (s.core (s.seqCore q)).eng.spadPoison = []) :
    let c := s.seqCore q
    let sp := Spec.planSpan a.entry.block ps
    let bs := ((st.sample 0).take sp.2.2).map (BitVec.ofNat 8)
    ∃ t fl x, exec (.cxReceiveStep q) s = .next t ∧ (t.seq c q).steps = [{ st with stage := 2, flags := fl }] ∧
      (t.core c).be = { (s.core c).be with accesses := (s.core c).be.accesses ++ [x] } ∧ x.kind = .store ∧ x.addr = sp.2.1 ∧
      x.due = st.t0 + 8 ∧ (ps.combine = false → x.bytes = bs ∧ fl = 0) ∧
      (ps.combine = true → x.bytes.length = bs.length / clBytes (clEtype a.entry.block) * clBytes (clEtype a.entry.block) ∧
        ∀ i < bs.length / clBytes (clEtype a.entry.block), let z := clBytes (clEtype a.entry.block)
          (x.bytes.drop (z * i)).take z = bytesOf (combineElem (clComb a.entry.block + 1) (clType (clEtype a.entry.block)) (s.fz c)
            (bytesVal (((readBytes (s.core c).eng.spad sp.2.1 bs.length).drop (z * i)).take z))
            (bytesVal ((bs.drop (z * i)).take z))).1 z) := by
  obtain ⟨hq, hel, hplan, hv, hg, -, hn, -⟩ := hst
  have hone := runsOne_of_elastic hel
  rw [planSpan_eq] at hmem ⊢
  obtain ⟨hu, hbe⟩ := recvWritten_runs (ps := ps) hone
  refine ⟨s.recvWritten (s.seqCore q) q a st ps, (s.recvDue (s.seqCore q) a st ps).2, s.recvStore (s.seqCore q) q a st ps,
    congrArg Host.Outcome.next ((cxTurn_busy hq hone hplan hv).trans (cxRecvTurn_writes hone hmem hg hd hbad hp hn)), hu.steps, hbe,
    rfl, rfl, rfl, fun hc => ?_, fun hc => ?_⟩
  · have hdue : s.recvDue (s.seqCore q) a st ps = (bytesOfNats ((st.sample 0).take (clSpan a.entry.block ps).2.2), 0) :=
      if_neg (by simp [hc])
    rw [State.recvStore, hdue]
    exact ⟨rfl, rfl⟩
  · have hdue : s.recvDue (s.seqCore q) a st ps = clCombine a.entry.block (s.fz (s.seqCore q))
        (readBytes (s.core (s.seqCore q)).eng.spad (clSpan a.entry.block ps).2.1
          (bytesOfNats ((st.sample 0).take (clSpan a.entry.block ps).2.2)).length)
        (bytesOfNats ((st.sample 0).take (clSpan a.entry.block ps).2.2)) := if_pos hc
    rw [State.recvStore, hdue]
    exact clCombine_elements ..

/-- Settles O43: each clause is the turn of a chunk or a plan step that its lemma computes, on a sequencer that runs one entry. -/
theorem chunksAndTransfers : Obligations.ChunksAndTransfers := by
  unfold Obligations.ChunksAndTransfers
  refine ⟨fun s a h hn hf hs hd => chunkCommit_fill h hn hf hs hd, fun s a st h hf hg ho => ?copy,
    fun s a st h hf hd hr hreg hwf => chunkCommit_overlay_loads h hf hd hr hreg hwf,
    fun s q a st hq h hf hb hg hn hr hd hw => ?select,
    fun s q a st hq h hg hf hr hn hd ho => chunkCommit_weir_commits hq h hg hr hn hd ho,
    fun s q a st ps h hm hd hroom hv => ?send,
    fun s q a st ps h bs hst hk hp hmod hcore hs hn => cxReceiveStep_takes hst hk hp hmod hcore hs hn,
    fun s q a st ps hst hm hd hbad hp => cxReceiveStep_writes hst hm hd hbad hp,
    fun s q a st ps hst ho => cxReceiveStep_commits hst ho⟩
  case copy =>
    obtain ⟨t, ht, hcommit, hframe⟩ := chunkCommit_copy_commits h hf hg ho
    refine ⟨t, ht, hcommit, ?_, hframe.spad s.cur, hframe.mem⟩
    rw [Spec.cc, Spec.cc, hframe.cc, show t.cur = s.cur by rw [hframe.rest]]
  case select =>
    obtain ⟨hsteps, hprog, hacc⟩ := wrWrites_selects (runsOne_of_elastic h) hf hb
    exact ⟨_, _, chunkCommit_select hq h hf hb hg hn hr hd hw, hsteps, rfl, rfl, selected_sample .., hprog, hacc⟩
  case send =>
    obtain ⟨t, ht, hcommit, hmem, hspad, hcal, hio⟩ := cxSendStep_commits h hm hd hroom
    obtain ⟨-, hel, -⟩ := h
    refine ⟨t, ht, hcommit, hmem, hspad, fun hb hmod => hcal.trans (cxSent_local hel hb hmod hv), fun hb => ?_⟩
    obtain ⟨hc, hi⟩ := cxSent_bylor (a := a) (st := st) (ps := ps) hel hb hv
    exact ⟨hcal.trans hc, (congrArg _ hio).trans hi⟩

end Sys2Proof.Machine
end

section
/-! The issue of engine entries by the control core (R76) and of overlay loads, and their issue faults (R47, R77, R185 to R189,
R195, R208): the statement O22. -/

open Sys2Proof Sys2Proof.Machine

namespace Sys2Proof.Machine

variable {s s' : State} {form : Nat} {b : List Word} {start : Word}

/-! ### A checked block is accepted (R189, R208) -/

theorem nextIssue_eq (n : Half) : nextIssue n = Spec.numberAfter n := by
  have h : n + 1 = 0 ↔ n = 0xFFFFFFFF := by bv_omega
  simp only [nextIssue, Spec.numberAfter, h]

/-- An entry behind those of a queue, written queue by queue. -/
theorem Engines.setQueue_push (k : Engines) (e : Eng) (x : QEntry) (sb : List SbEntry) :
    { k.setQueue e (k.queue e ++ [x]) with sboard := sb } =
      { k with
        mxq := if .mx = e then k.mxq ++ [x] else k.mxq, pxq := if .px = e then k.pxq ++ [x] else k.pxq
        ceq := if .ce = e then k.ceq ++ [x] else k.ceq, cxq := if .cx = e then k.cxq ++ [x] else k.cxq
        weirq := if .weir = e then k.weirq ++ [x] else k.weirq, sboard := sb } := by
  cases e <;> rfl

/-- The state with the entry of an issued block in its queue, its scoreboard entries and its number counted, before the
instruction retires. -/
def State.queued (s : State) (form : Nat) (b : Block) (start : Word) : State :=
  let e := formEng form
  let m := Spec.numberAfter (Spec.counter s e)
  s.modCore s.cur fun k =>
    { k with
      eng := { k.eng.setQueue e (k.eng.queue e ++
          [{ form, block := b, rng := k.rng, start, issue := m, seqr := blkSeqr b, headAt := s.basin }]) with
        sboard := k.eng.sboard ++ scoreEntries form b m (s.sc s.cur) }
      cc := { k.cc with cnt := k.cc.cnt.setIfInBounds (engCode e - 2) m } }

theorem accept_admitted (h : Spec.admitted s form b start) :
    s.accept form b start = .accepted (s.queued form b start) (Spec.numberAfter (Spec.counter s (formEng form))) := by
  obtain ⟨-, -, -, hlease, hqueue, hboard, hstart⟩ := h
  have hm : nextIssue ((s.core s.cur).cc.issueNo (formEng form)) = Spec.numberAfter (Spec.counter s (formEng form)) :=
    nextIssue_eq _
  have hl : ¬ (s.timed s.cur && (formEng form == .cx || formEng form == .weir) &&
      !s.leasedSeqr s.cur (formEng form) (s.seqUnit s.cur form b (s.core s.cur).rng) (blkSeqr b)) = true := by
    simp only [Bool.and_eq_true, Bool.or_eq_true, beq_iff_eq, Bool.not_eq_true']
    rintro ⟨⟨ht, he⟩, hn⟩
    exact Bool.false_ne_true (hn.symm.trans (hlease ht he))
  have hearly : ¬ (s.timed s.cur && decide (s.sc s.cur + 64 > start.toNat)) = true := by
    simp only [Bool.and_eq_true, decide_eq_true_eq]
    exact fun h => Nat.not_lt.2 (hstart h.1).1 h.2
  have hlate : ¬ (s.timed s.cur && decide (start.toNat > s.sc s.cur + 2 ^ 31)) = true := by
    simp only [Bool.and_eq_true, decide_eq_true_eq]
    exact fun h => Nat.not_lt.2 (hstart h.1).2 h.2
  simp only [State.accept, hm]
  rw [if_neg hl, if_neg (Nat.not_le.2 hqueue), if_neg (Nat.not_lt.2 hboard), if_neg hearly, if_neg hlate]
  rfl

theorem issueBlock_admitted (h : Spec.admitted s form b start) :
    s.issueBlock form b start = .accepted (s.queued form b start) (Spec.numberAfter (Spec.counter s (formEng form))) := by
  obtain ⟨hok, htr, hlist, -⟩ := id h
  have hok' : s.blockOk s.cur form b (levelsOf (s.core s.cur).cc.geo form b) = true := hok
  have htr' : s.areasFault s.cur form (s.areasOf s.cur form b (levelsOf (s.core s.cur).cc.geo form b)) = none := htr
  have hlist' : (s.areasOf s.cur form b (levelsOf (s.core s.cur).cc.geo form b)).all (areaListed (rangesOf form b)) = true :=
    hlist
  simp only [State.issueBlock, hok', htr', hlist', accept_admitted h]
  rfl

/-- A block that has been read is issued as its checks say (R189). -/
theorem issue_blockRead {va : Nat} (h : Spec.blockRead s form va s' b) : s.issue form va start = s'.issueBlock form b start := by
  obtain ⟨halign, s1, w, hword, hhead, hwords⟩ := h
  simp only [State.issue, hword, hhead, hwords, halign]
  rfl

/-! ### The instruction retires -/

/-- An instruction that retires after its entry was made leaves what the specification says. -/
theorem ccResult_queued (s : State) (form : Nat) (b : Block) (start : Word) (rd : BitVec 5) :
    (s.queued form b start).ccResult rd ((Spec.numberAfter (Spec.counter s (formEng form))).setWidth 64) 4 =
      Spec.accepted s form b start rd .running := by
  have hpc : Spec.W ((s.core s.cur).cc.pc.toNat + 4) = (s.core s.cur).cc.pc + BitVec.ofNat 64 4 := pcNext_four s
  simp only [State.ccResult, State.queued, State.modCc, State.modCore, State.setCore_cur, setCore_setCore, State.core_setCore,
    if_true, Engines.setQueue_push, Spec.accepted, hpc, Cc.setX, Cc.retireTo]
  split <;> rfl

theorem accepted_modCc_state (s : State) (form : Nat) (b : Block) (start : Word) (rd : BitVec 5) (st st' : CcState) :
    (Spec.accepted s form b start rd st).modCc s.cur (fun k => { k with state := st' }) = Spec.accepted s form b start rd st' := by
  simp only [Spec.accepted, State.modCc, State.modCore, setCore_setCore, State.core_setCore, if_true]

/-! ### The instructions -/

theorem exec_macro : ∀ row ∈ Spec.macros, ∀ (o : FR3) (s : State), exec (row.1 o) s = .next (s.macroIssue row.2 o) := by
  simp only [Spec.macros, List.forall_mem_cons]
  exact ⟨fun _ _ => rfl, fun _ _ => rfl, fun _ _ => rfl, fun _ _ => rfl, fun _ _ => rfl, fun _ _ => rfl, fun _ _ => rfl,
    fun _ _ => rfl, fun _ _ => rfl, fun _ _ => rfl, fun _ _ => rfl, fun _ _ => rfl, nofun⟩

theorem inspect_isSome_of_notInspecting (h : s.notInspecting) : (s.core s.cur).cc.inspect.isSome = false := by
  rw [h]; rfl

theorem macroIssue_of_accepted {u : State} {m : Half} {o : FR3} (hi : s.notInspecting)
    (h : s.issue form (Spec.xReg s o.rs1).toNat (Spec.xReg s o.rs2) = .accepted u m) :
    s.macroIssue form o = u.ccResult o.rd (m.setWidth 64) 4 := by
  have h' : s.issue form ((s.core s.cur).cc.xr o.rs1).toNat ((s.core s.cur).cc.xr o.rs2) = .accepted u m := h
  simp only [State.macroIssue, inspect_isSome_of_notInspecting hi, h', Bool.false_eq_true, if_false]

theorem macroIssue_of_ended {u : State} {o : FR3} (hi : s.notInspecting)
    (h : s.issue form (Spec.xReg s o.rs1).toNat (Spec.xReg s o.rs2) = .ended u) : s.macroIssue form o = u := by
  have h' : s.issue form ((s.core s.cur).cc.xr o.rs1).toNat ((s.core s.cur).cc.xr o.rs2) = .ended u := h
  simp only [State.macroIssue, inspect_isSome_of_notInspecting hi, h', Bool.false_eq_true, if_false]

theorem macroIssue_accepted {o : FR3} (hi : s.notInspecting) (hr : Spec.blockRead s form (Spec.xReg s o.rs1).toNat s' b)
    (ha : Spec.admitted s' form b (Spec.xReg s o.rs2)) :
    s.macroIssue form o = Spec.accepted s' form b (Spec.xReg s o.rs2) o.rd .running :=
  (macroIssue_of_accepted hi ((issue_blockRead hr).trans (issueBlock_admitted ha))).trans (ccResult_queued ..)

theorem exec_calOvly_accepted {o : FR3} (hi : s.notInspecting)
    (hr : Spec.blockRead s 0x12 (Spec.xReg s o.rs1).toNat s' b) (ha : Spec.admitted s' 0x12 b (Spec.xReg s o.rs2)) :
    exec (.calOvly o) s =
      .next (Spec.accepted s' 0x12 b (Spec.xReg s o.rs2) o.rd (.waitOvly (Spec.numberAfter (Spec.counter s' .ce)))) := by
  have hissue : s.issue 0x12 ((s.core s.cur).cc.xr o.rs1).toNat ((s.core s.cur).cc.xr o.rs2) =
      .accepted (s'.queued 0x12 b (Spec.xReg s o.rs2)) (Spec.numberAfter (Spec.counter s' (formEng 0x12))) :=
    (issue_blockRead hr).trans (issueBlock_admitted ha)
  change execCalOvly o s = _
  simp only [execCalOvly, inspect_isSome_of_notInspecting hi, hissue, ccResult_queued]
  exact congrArg Host.Outcome.next (accepted_modCc_state ..)

/-! ### Issue faults (R47, R185, R189) -/

/-- A block that is not aligned, or whose header breaks R77, ends its instruction in an issue fault at the block's address. -/
theorem issue_headerFault {va : Nat} (h : va % 64 ≠ 0 ∨ ∃ w, s.blockWord va = .ok (s, w) ∧ headerOk form [w] = false) :
    s.issue form va start = .ended (s.issueFault (engCode (formEng form))
      (nextIssue ((s.core s.cur).cc.issueNo (formEng form))) 0x07 0 va 0) := by
  unfold State.issue
  dsimp only
  by_cases ha : va % 64 ≠ 0
  · rw [if_pos ha]
  · obtain ⟨w, hw, hhead⟩ := h.resolve_left ha
    rw [if_neg ha, hw]
    exact if_pos (by rw [hhead]; rfl)

/-- The event of an issue fault of the control core at address `va`. -/
def State.issueEv (s : State) (e : Nat) (issue : Half) (va : Nat) : Ev :=
  { s.ccEv 0x07 0 va e with issue, duesc := BitVec.ofNat 64 0 }

theorem tcauseOf_issueEv (s : State) (e : Nat) (issue : Half) (va : Nat) :
    tcauseOf (s.issueEv e issue va) = BitVec.ofNat 64 (0x07 * 2 ^ 40 + 15 * 2 ^ 24) := by
  have hcause : (BitVec.ofNat 8 7).toNat = 7 := rfl
  have hsub : (BitVec.ofNat 8 0).toNat = 0 := rfl
  simp only [tcauseOf, State.issueEv, State.ccEv, hcause, hsub, BitVec.ofNat_eq_ofNat, BitVec.toNat_ofNat, Nat.zero_mod,
    Nat.zero_mul, Nat.zero_add, Nat.add_zero]

theorem issueEv_faddr (s : State) (e : Nat) (issue : Half) (va : Word) : (s.issueEv e issue va.toNat).faddr = va := by
  simp only [State.issueEv, State.ccEv, BitVec.ofNat_toNat, BitVec.setWidth_eq]

theorem issueFault_trapTaken (ht : s.timed s.cur = false) (e : Nat) (issue : Half) (va : Word) :
    Spec.trapTaken s (s.issueFault e issue 0x07 0 va.toNat 0) 24 0 0x07 va := by
  have htrap := ccTrap_trapTaken (CoresKept.refl s) rfl 24 0 0x07 _ (tcauseOf_issueEv s e issue va.toNat)
  rw [issueEv_faddr] at htrap
  have hf : s.issueFault e issue 0x07 0 va.toNat 0 = s.ccTrap 24 0 (s.issueEv e issue va.toNat) := if_neg (by simp [ht])
  rw [hf]
  exact htrap

theorem exec_macro_headerFault {row : (FR3 → Instr) × Nat} (hrow : row ∈ Spec.macros) {o : FR3} (hi : s.notInspecting)
    (ht : s.timed s.cur = false) (h : (Spec.xReg s o.rs1).toNat % 64 ≠ 0 ∨
      ∃ w, s.blockWord (Spec.xReg s o.rs1).toNat = .ok (s, w) ∧ headerOk row.2 [w] = false) :
    ∃ t, exec (row.1 o) s = .next t ∧ Spec.trapTaken s t 24 0 0x07 (Spec.xReg s o.rs1) := by
  refine ⟨_, ?_, issueFault_trapTaken ht (engCode (formEng row.2))
    (nextIssue ((s.core s.cur).cc.issueNo (formEng row.2))) (Spec.xReg s o.rs1)⟩
  rw [exec_macro row hrow, macroIssue_of_ended hi (issue_headerFault h)]

/-- In frozen inspection an instruction that issues an entry is illegal (R186). -/
theorem exec_macro_inspecting {row : (FR3 → Instr) × Nat} (hrow : row ∈ Spec.macros) {o : FR3} (hi : ¬ s.notInspecting) :
    exec (row.1 o) s = .next s.ccIllegal := by
  have hi' : (s.core s.cur).cc.inspect.isSome = true := Option.isSome_iff_ne_none.2 hi
  simp only [exec_macro row hrow, State.macroIssue, hi', if_true]

/-! ### The statement -/

/-- Settles O22: an admitted block is issued as `macroIssue_accepted` says; a block with a broken header, and frozen inspection,
end in the traps of `issueFault` and `ccIllegal`. -/
theorem macroIssuing : Obligations.MacroIssuing := by
  unfold Obligations.MacroIssuing Spec.MacroIssue Spec.MacroIssueFaults
  refine ⟨⟨fun row hrow o s s' b hi hr ha => ?_, fun o s s' b hi hr ha => exec_calOvly_accepted hi hr ha⟩,
    fun row hrow o s => ⟨fun hi ht hva => exec_macro_headerFault hrow hi ht (.inl hva),
      fun hi ht _ hw => exec_macro_headerFault hrow hi ht (.inr hw),
      fun hi => ⟨_, exec_macro_inspecting hrow hi, ccIllegal_trapTaken s⟩⟩⟩
  rw [exec_macro row hrow, macroIssue_accepted hi hr ha]

end Sys2Proof.Machine
end

section
/-! The step of the bundle engine at an annulled entry, at a bundle that executes and at a forbidden one (R61, R64, R65, R98,
R113, R114), and the trap entry (R126, R127, R185): the statement O17. -/

open Sys2Proof Sys2Proof.Machine

namespace Sys2Proof.Machine

variable {s t : State}

/-! ### The step at an entry of the queue (R113) -/

theorem atBoundary_of_atStep (h : Spec.atStep s) : s.atBoundary = (s, false) := by
  obtain ⟨-, -, ht | ⟨htrap, hpend⟩⟩ := h
  · simp only [State.atBoundary, ht, if_true]
  · change (s.core s.cur).be.trapEv = [] at htrap
    change (s.core s.cur).be.pend14 = none at hpend
    simp only [State.atBoundary, htrap, hpend]
    exact ite_self _

/-- The step runs in the state in which it has begun at the queue's first entry. -/
theorem bundleStep_of_atStep (h : Spec.atStep s) {e : NpqEntry} (he : Spec.npq (Spec.be s) 0 = e) : s.bundleStep =
    if e.annul then (s.modBe s.cur fun b => b.beginStep e.addr).modBe s.cur Be.append
    else (s.modBe s.cur fun b => b.beginStep e.addr).stepEntry e := by
  have hb := atBoundary_of_atStep h
  obtain ⟨hlive, hrun, -⟩ := h
  change (s.core s.cur).be.state = .running at hrun
  simp only [State.bundleStep, hlive, hrun, State.step113, hb, ← he]
  rfl

theorem exec_bundleStep_annulled (h : Spec.atStep s) (hann : (Spec.npq (Spec.be s) 0).annul = true) :
    exec .bundleStep s =
      .next ((s.modBe s.cur fun b => b.beginStep (Spec.npq (Spec.be s) 0).addr).modBe s.cur Be.append) :=
  congrArg Host.Outcome.next ((bundleStep_of_atStep h rfl).trans (if_pos hann))

theorem exec_bundleStep_entry (h : Spec.atStep s) (hann : (Spec.npq (Spec.be s) 0).annul = false) :
    exec .bundleStep s = .next ((s.modBe s.cur fun b => b.beginStep (Spec.npq (Spec.be s) 0).addr).stepEntry
      (Spec.npq (Spec.be s) 0)) :=
  congrArg Host.Outcome.next ((bundleStep_of_atStep h rfl).trans (if_neg (by rw [hann]; exact Bool.false_ne_true)))

/-- A step that has begun at address `a` has changed the engine alone. -/
theorem core_begun (s : State) (a : Half) : (s.modBe s.cur fun b => b.beginStep a).core s.cur =
    { s.core s.cur with be := (Spec.be s).beginStep a } := by
  rw [State.core_modBe, if_pos rfl]; rfl

/-! ### The append of a step that takes no branch (R113, R121) -/

theorem seqNext_of_sequential {b : Be} {a : Half} (h : Spec.sequential b a) : seqNext a b.loops = (a + 1, b.loops) := by
  have hnone : endingLevels b.loops a = [] := by
    have hf : ((List.range 4).filter fun n =>
        let l := (b.loops[n]?).getD LoopLevel.reset; l.act && l.le == a) = [] := by
      refine List.filter_eq_nil_iff.2 fun n hn => ?_
      simpa using h n (List.mem_range.1 hn)
    unfold endingLevels
    rw [hf]
    rfl
  rw [seqNext, hnone]
  rfl

/-- The engine after a step at address `a` that took no branch: the queue has moved up by one, and the address that follows its
last entry is its new one. -/
def Be.movedUp (b : Be) (a : Half) : Be :=
  let next := (Spec.npq b 2).addr + 1
  { b.beginStep a with npq := #v[Spec.npq b 1, Spec.npq b 2, ⟨next, false, activeEnds b.loops next⟩] }

theorem append_beginStep {b : Be} (a : Half) (h : Spec.sequential b (Spec.npq b 2).addr) :
    (b.beginStep a).append = b.movedUp a := by
  have hs : seqNext (((b.beginStep a).npq[2]?).getD (⟨0, false, 0⟩ : NpqEntry)).addr (b.beginStep a).loops =
      ((Spec.npq b 2).addr + 1, b.loops) := seqNext_of_sequential h
  unfold Be.append
  dsimp only
  rw [show (b.beginStep a).taken = none from rfl, show (b.beginStep a).skip = none from rfl, hs]
  rfl

theorem annulledEntry : Spec.AnnulledEntry := by
  intro s h hann hseq
  obtain ⟨-, hrun, -⟩ := id h
  have hcore : ((s.modBe s.cur fun b => b.beginStep (Spec.npq (Spec.be s) 0).addr).modBe s.cur Be.append).core s.cur =
      { s.core s.cur with be := (Spec.be s).movedUp (Spec.npq (Spec.be s) 0).addr } := by
    rw [State.core_modBe, if_pos rfl, core_begun, ← append_beginStep _ hseq]
  refine ⟨_, exec_bundleStep_annulled h hann, ?_⟩
  generalize (Spec.npq (Spec.be s) 0).addr = a at hcore ⊢
  rw [show Spec.be _ = (Spec.be s).movedUp a from congrArg Core.be hcore]
  exact ⟨rfl, rfl, rfl, rfl, rfl, rfl, hrun, congrArg (·.eng) hcore, congrArg (·.cc) hcore, rfl, rfl⟩

/-! ### A bundle that executes (R61, R64, R98, R113) -/

/-- Without an enabled counter nothing is counted (R394). -/
theorem count_of_noCounters {c : Nat} (h : (s.core c).pcsel.toList.all (fun x => !x.getLsbD 8) = true) (ev n : Nat) :
    s.count c ev n = s := by
  have hno : (s.core c).pcsel.toList.any (pcSelects ev) = false := by
    rw [List.any_eq_false]
    intro x hx
    have hoff : bitOf x.toNat 8 = false := by
      rw [bitOf_eq_testBit]
      exact (Bool.not_eq_true' _).mp (List.all_eq_true.1 h x hx)
    simp only [pcSelects, hoff, Bool.false_and, Bool.false_eq_true, not_false_eq_true]
  simp only [State.count, hno]
  rfl

theorem bundleRun_of_noCounters (h : Spec.noCounters s) (v : Nat) (ends : BitVec 4) (all ops : List Instr) :
    s.bundleRun v ends all ops = ((ops.foldl State.execSlot s).applyStrides ends).modBe s.cur Be.append := by
  have hcount (ev n : Nat) : s.count s.cur ev n = s := count_of_noCounters h ev n
  simp only [State.bundleRun, hcount, ite_self]

/-- The step at a bundle that is legal, allowed and meets neither an event nor a stall. -/
theorem stepEntry_runs {e : NpqEntry} {v : Nat} (hv : (s.core s.cur).eng.bundleAt e.addr = some v) (hf : forbidden v = false)
    (hl : illegalSlots v = []) (hw : s.wrmode s.cur = 2 → (legalOps v).any s.readsWindow = false)
    (he : (legalOps v).flatMap (slotEvents s) = []) (hs : (legalOps v).any (fun i => slotStall s i) = false) :
    s.stepEntry e = s.bundleRun v e.ends (legalOps v) (legalOps v) := by
  have hw' : ¬ (s.wrmode s.cur = 2 ∧ (legalOps v).any s.readsWindow = true) := by
    rintro ⟨h2, hr⟩
    exact Bool.false_ne_true ((hw h2).symm.trans hr)
  simp only [State.stepEntry, hv, hf, hl, he, hs, firstEvent, if_neg hw', Bool.false_eq_true, if_false]

theorem bundleExecutes : Spec.BundleExecutes := by
  intro s v h hno hann e s0 hv hf hl hw he hs
  have hcore : s0.core s.cur = { s.core s.cur with be := (Spec.be s).beginStep e.addr } := core_begun s e.addr
  have hv0 : (s0.core s0.cur).eng.bundleAt e.addr = some v := (congrArg (fun k : Core => k.eng.bundleAt e.addr) hcore).trans hv
  have hno0 : Spec.noCounters s0 :=
    (congrArg (fun k : Core => k.pcsel.toList.all (fun x => !x.getLsbD 8)) hcore).trans hno
  have hw0 : s0.wrmode s0.cur = 2 → (legalOps v).any s0.readsWindow = false := fun h2 => hw (by simpa [s0] using h2)
  exact (exec_bundleStep_entry h hann).trans (congrArg Host.Outcome.next
    ((stepEntry_runs hv0 hf hl hw0 he hs).trans (bundleRun_of_noCounters hno0 ..)))

/-! ### A forbidden bundle in Elastic (R46, R65, R127) -/

theorem sc_of_no_domain {c : Nat} (h : (s.core c).dom = none) : s.sc c = s.basin := by
  simp only [State.sc, State.domOf, h]
  rfl

/-- An event of the bundle engine of an Elastic core without a domain whose response is a trap: of the engine its state and
its events change, and the core's engines do not. -/
theorem beRaise_traps {c : Nat} {e : Ev} (hdom : (s.core c).dom = none) (ht : s.timed c = false)
    (hr : respOf false false e = 0) : (s.beRaise c e).cur = s.cur ∧ ((s.beRaise c e).core c).eng = (s.core c).eng ∧
      ((s.beRaise c e).core c).be =
        { (s.core c).be with state := .trapping, trapEv := (s.core c).be.trapEv ++ [(e, s.sc c)] } := by
  have hf := (EventFrame.refl (F := e.fences) s).raise c
  obtain ⟨hk, -⟩ := hf.core c
  have hdom' : ((s.raise c e).core c).dom = none := by rw [hk]; exact hdom
  have ht' : (s.raise c e).timed c = false := by rw [State.timed, hk]; exact ht
  have hsc : (s.raise c e).sc c = s.sc c := by rw [sc_of_no_domain hdom', sc_of_no_domain hdom, hf.frame]
  have hresp : s.respNow c e = 0 := by simp only [State.respNow, State.domOf, hdom, ht, hr]; rfl
  have hraise : s.beRaise c e = (s.raise c e).beTrapStart c e := by
    simp only [State.beRaise, hresp, ht']
    rfl
  have hcore : (s.beRaise c e).core c = { (s.raise c e).core c with
      be := { (s.core c).be with state := .trapping, trapEv := (s.core c).be.trapEv ++ [(e, s.sc c)] } } := by
    rw [hraise, State.beTrapStart, State.core_modBe, if_pos rfl, hsc, hk]
  exact ⟨by rw [hraise, State.beTrapStart, State.modBe_cur, hf.frame], by rw [hcore, hk], by rw [hcore]⟩

theorem stepEntry_forbidden {e : NpqEntry} {v : Nat} (hv : (s.core s.cur).eng.bundleAt e.addr = some v)
    (hf : forbidden v = true) : s.stepEntry e = s.bundleFault (s.beEv 0x01 0 15) := by
  simp only [State.stepEntry, hv, hf, if_true]

/-- A bundle that breaks R65 in Elastic is counted, and its event traps. -/
theorem bundleFault_forbidden (hdom : (s.core s.cur).dom = none) (ht : s.timed s.cur = false) :
    let t := s.bundleFault (s.beEv 0x01 0 15)
    t.cur = s.cur ∧ (t.core s.cur).eng = (s.core s.cur).eng ∧ (t.core s.cur).be =
      { Spec.be s with state := .trapping, trapEv := (Spec.be s).trapEv ++ [(s.beEv 0x01 0 15, s.sc s.cur)] } := by
  obtain ⟨pc, hk⟩ := count_core s s.cur 5 1 s.cur
  have ht' : (s.count s.cur 5 1).timed s.cur = false := by rw [State.timed, hk]; exact ht
  have hdom' : ((s.count s.cur 5 1).core s.cur).dom = none := by rw [hk]; exact hdom
  have hcause : (s.beEv 0x01 0 15).cause = 1 := rfl
  have hfault : s.bundleFault (s.beEv 0x01 0 15) = (s.count s.cur 5 1).beRaise s.cur (s.beEv 0x01 0 15) := by
    simp only [State.bundleFault, hcause, true_or, if_true, ht', Bool.false_eq_true, if_false]
  obtain ⟨hcur, heng, hbe⟩ := beRaise_traps (e := s.beEv 0x01 0 15) hdom' ht' rfl
  rw [hk] at heng hbe
  rw [count_sc] at hbe
  dsimp only
  rw [hfault]
  exact ⟨hcur.trans (count_coresKept ..).cur, heng, hbe⟩

theorem forbiddenBundleTraps : Spec.ForbiddenBundleTraps := by
  intro s v h ht hdom hann hv hforb
  obtain ⟨-, -, hboundary⟩ := id h
  obtain ⟨hquiet, -⟩ := hboundary.resolve_left (by rw [ht]; exact Bool.false_ne_true)
  have hexec := exec_bundleStep_entry h hann
  have hcore := core_begun s (Spec.npq (Spec.be s) 0).addr
  have hcur : (s.modBe s.cur fun b => b.beginStep (Spec.npq (Spec.be s) 0).addr).cur = s.cur := rfl
  have hsc := State.sc_modBe (s := s) s.cur s.cur fun b => b.beginStep (Spec.npq (Spec.be s) 0).addr
  have htimed := State.timed_modBe (s := s) s.cur s.cur fun b => b.beginStep (Spec.npq (Spec.be s) 0).addr
  generalize (s.modBe s.cur fun b => b.beginStep (Spec.npq (Spec.be s) 0).addr) = u at hexec hcore hcur hsc htimed
  rw [stepEntry_forbidden (by rw [hcur, hcore]; exact hv) hforb] at hexec
  obtain ⟨hc, heng, hbe⟩ := bundleFault_forbidden (s := u) (by rw [hcur, hcore]; exact hdom) (by rw [hcur, htimed]; exact ht)
  rw [Spec.be, hcur, hcore, hsc] at hbe
  rw [hcur, hcore] at heng
  refine ⟨_, u.beEv 0x01 0 15, hexec, ?_⟩
  rw [Spec.be, hc, hcur, hbe, heng]
  exact ⟨rfl, congrArg (· ++ _) hquiet, rfl, rfl, rfl, rfl, rfl, rfl, rfl⟩

/-! ### The trap entry (R126, R127, R185) -/

theorem word_eq_epcWord (e : NpqEntry) : e.word = Spec.epcWord e := by
  rw [NpqEntry.word, Spec.epcWord, Spec.W, BitVec.ofInt_natCast]
  cases e.annul <;> rfl

/-- The return queue of a trap holds the queue's entries (R126). -/
theorem saveTrap_epc (b : Be) {n : Nat} (hn : n < 3) : b.saveTrap.epc[n]? = some (Spec.epcWord (Spec.npq b n)) := by
  rw [← word_eq_epcWord]
  simp [Be.saveTrap, Spec.npq, hn]

theorem saveTrap_mstep {b : Be} (h : b.micro = none) : b.saveTrap.mstep = b.mstep := by
  simp only [Be.saveTrap, h]

/-- The control core with the events of a bundle-engine trap pending as interrupt 16 (R185). -/
def Cc.pendTrap (k : Cc) (evs : List (Ev × Nat)) : Cc :=
  { k with mip := k.mip ||| 0x10000, pendMacro := k.pendMacro ++ evs.map fun x => (x.1, x.2, 0) }

theorem exec_beTrap (hlive : s.live s.cur = true) (hst : (Spec.be s).state = .trapping) (hland : (Spec.be s).landings = []) :
    exec .beTrap s =
      .next ((s.modBe s.cur Be.saveTrap).modCc s.cur fun k => k.pendTrap (Spec.be s).trapEv) := by
  change (s.core s.cur).be.state = .trapping at hst
  change (s.core s.cur).be.landings = [] at hland
  change Host.Outcome.next s.beTrap = _
  simp only [State.beTrap, hlive, hst, hland]
  rfl

theorem bundleEngineTrap : Spec.BundleEngineTrap := by
  intro s hlive hst hland
  have hcore (c : Nat) : ((s.modBe s.cur Be.saveTrap).modCc s.cur fun k => k.pendTrap (Spec.be s).trapEv).core c =
      if s.cur = c then
        { s.core s.cur with be := (Spec.be s).saveTrap, cc := (Spec.cc s).pendTrap (Spec.be s).trapEv }
      else s.core c := by
    rw [State.core_modCc, State.core_modBe, if_pos rfl, State.core_modBe]
    split <;> rfl
  have hcur := (hcore s.cur).trans (if_pos rfl)
  refine ⟨_, exec_beTrap hlive hst hland, ?_⟩
  rw [show Spec.be _ = (Spec.be s).saveTrap from congrArg Core.be hcur]
  exact ⟨rfl, rfl, rfl, fun n hn => saveTrap_epc _ hn, rfl, rfl, rfl, saveTrap_mstep, congrArg (·.cc.mip) hcur,
    congrArg (·.cc.pendMacro) hcur, rfl, fun c hc => (hcore c).trans (if_neg hc.symm)⟩

/-! ### The statement -/

/-- Settles O17: an annulled entry and a legal bundle run to their append, a forbidden bundle stops in its fault, and the trap
entry saves the queue. -/
theorem bundleStepsAndTraps : Obligations.BundleStepsAndTraps :=
  ⟨annulledEntry, bundleExecutes, forbiddenBundleTraps, bundleEngineTrap⟩

end Sys2Proof.Machine
end

section
/-! The scalar forms of slots SA and SB (R103 to R107): when they issue, where their results land, and the integers that the
three-operand forms compute. -/

open Sys2Proof Sys2Proof.Machine

namespace Sys2Proof.Machine

variable {s t : State}

/-! ### Scalar forms issue -/

/-- The formats of the scalar operations that compute a value (R68). -/
def Form.isScalar : Form → Bool
  | .s3 _ | .s2 _ | .sf _ | .si _ | .slc _ | .cp _ | .sw _ => true
  | _ => false

/-- A clear scalar operation issues: it makes no access, so nothing stops it and nothing holds it back. -/
theorem State.clearFor.issues_scalar {i : Instr} (hi : Form.isScalar i.form.2 = true) (h : s.clearFor i) : s.issues i := by
  cases i with
  | add | sub | and | or | xor | sll | srl | sra | slt | sltu | min | max | minu | maxu | mul | mulh | mulhu | div | divu
  | rem | remu | clz | ctz | popc | bext | bins | addi | andi | ori | xori | slli | srli | srai | slti | lil | lih | lit
  | cpx | stwr => exact h.issues_plain rfl rfl rfl rfl rfl (ite_self _)
  | _ => cases hi

/-- A clear scalar operation has its effect. -/
theorem exec_scalar {i : Instr} (hi : Form.isScalar i.form.2 = true) (h : s.clearFor i) :
    exec i s = .next ((slotDo i).1 s) := by
  rw [exec_slot i s (fun e => by rw [e] at hi; cases hi), runSlot_issues (h.issues_scalar hi)]

/-! ### Operands and landings -/

theorem readOwn_eq_scalarReg (s : State) (sl : SSlot) (r : BitVec 4) :
    s.readOwn sl r = Spec.scalarReg s (Spec.sFile sl) r.toNat := by
  cases sl with
  | sa =>
    change (if r.toNat = 0 then (0 : VWord) else _).setWidth 64 = if r.toNat = 0 then 0 else _
    split
    · exact BitVec.setWidth_zero ..
    · exact BitVec.setWidth_setWidth_of_le _ (by decide)
  | sb => exact BitVec.setWidth_setWidth_of_le _ (by decide)

theorem landOwn_eq_landScalar (s : State) (sl : SSlot) (d : BitVec 4) (v : Word) (lat : Nat) :
    s.landOwn sl d v lat = Spec.landScalar s sl d v lat := by
  have hd : d.toNat = 0 ↔ d = 0 := ⟨fun h => BitVec.eq_of_toNat_eq h, fun h => by rw [h]; rfl⟩
  cases sl <;> simp only [State.landOwn, State.landScalar, Spec.landScalar, SSlot.toSlot, Slot.file, Spec.sFile, hd] <;> rfl

/-! ### The integers of R104 -/

theorem W_natCast (n : Nat) : Spec.W n = BitVec.ofNat 64 n := BitVec.ofInt_natCast ..

theorem W_toNat (x : Word) : Spec.W x.toNat = x := by rw [W_natCast, BitVec.ofNat_toNat, BitVec.setWidth_eq]

theorem W_toInt (x : Word) : Spec.W x.toInt = x := BitVec.ofInt_toInt

theorem S_eq_toInt (x : Word) : Spec.S x = x.toInt := by
  rw [Spec.S, BitVec.toInt_eq_toNat_cond]
  split <;> split <;> omega

theorem truncDiv_eq_tdiv (p q : Int) : Spec.truncDiv p q = p.tdiv q := by
  have hnat (a b : Nat) : Int.sign ((a : Int) * b) * (a : Int).tdiv b = (a : Int).tdiv b := by
    by_cases h : a * b = 0
    · obtain rfl | rfl := Nat.mul_eq_zero.1 h <;> simp
    · rw [Int.sign_eq_one_of_pos (by exact_mod_cast Nat.pos_of_ne_zero h), one_mul]
  unfold Spec.truncDiv
  obtain ⟨a, rfl | rfl⟩ := p.eq_nat_or_neg <;> obtain ⟨b, rfl | rfl⟩ := q.eq_nat_or_neg <;>
    simp only [Int.natAbs_neg, Int.natAbs_natCast, Int.neg_mul, Int.mul_neg, Int.neg_neg, Int.sign_neg, Int.neg_tdiv,
      Int.tdiv_neg, Int.ofNat_tdiv, hnat]

/-! ### The operations of R105 to R107 -/

theorem opAdd_eq (x y : Word) : opAdd x y = Spec.W (x.toNat + y.toNat) := by
  rw [Spec.W, BitVec.ofInt_add, ← Spec.W, ← Spec.W, W_toNat, W_toNat, opAdd]

theorem opSub_eq (x y : Word) : opSub x y = Spec.W (x.toNat - y.toNat) := by
  rw [Spec.W, Int.sub_eq_add_neg, BitVec.ofInt_add, BitVec.ofInt_neg, ← Spec.W, ← Spec.W, W_toNat, W_toNat, opSub,
    BitVec.sub_eq_add_neg]

theorem opSll_eq (x y : Word) : opSll x y = Spec.W (x.toNat * 2 ^ (y.toNat % 2 ^ 6)) := by
  apply BitVec.eq_of_toNat_eq
  rw [show (x.toNat : Int) * 2 ^ (y.toNat % 2 ^ 6) = ((x.toNat * 2 ^ (y.toNat % 2 ^ 6) : Nat) : Int) by push_cast; rfl,
    W_natCast, opSll, BitVec.toNat_shiftLeft, BitVec.toNat_ofNat, Nat.shiftLeft_eq]; rfl

theorem opSrl_eq (x y : Word) : opSrl x y = Spec.W (x.toNat / 2 ^ (y.toNat % 2 ^ 6)) := by
  apply BitVec.eq_of_toNat_eq
  rw [show (x.toNat : Int) / 2 ^ (y.toNat % 2 ^ 6) = ((x.toNat / 2 ^ (y.toNat % 2 ^ 6) : Nat) : Int) by push_cast; rfl,
    W_natCast, opSrl, BitVec.toNat_ushiftRight, BitVec.toNat_ofNat, Nat.shiftRight_eq_div_pow,
    Nat.mod_eq_of_lt ((Nat.div_le_self ..).trans_lt x.isLt)]; rfl

theorem opSra_eq (x y : Word) : opSra x y = Spec.W (Spec.S x / 2 ^ (y.toNat % 2 ^ 6)) := by
  rw [S_eq_toInt, opSra, BitVec.sshiftRight_eq, Int.shiftRight_eq_div_pow]
  push_cast
  rfl

theorem opSlt_eq (x y : Word) : opSlt x y = if Spec.S x < Spec.S y then 1 else 0 := by
  rw [S_eq_toInt, S_eq_toInt, opSlt]

theorem opMin_eq (x y : Word) : opMin x y = Spec.W (min (Spec.S x) (Spec.S y)) := by
  rw [S_eq_toInt, S_eq_toInt, opMin, min_def]
  split <;> rw [W_toInt]

theorem opMax_eq (x y : Word) : opMax x y = Spec.W (max (Spec.S x) (Spec.S y)) := by
  rw [S_eq_toInt, S_eq_toInt, opMax, max_def]
  split <;> rw [W_toInt]

theorem opMinu_eq (x y : Word) : opMinu x y = Spec.W (min x.toNat y.toNat) := by
  rw [opMinu, ← Nat.cast_min, W_natCast, min_def]
  split <;> simp

theorem opMaxu_eq (x y : Word) : opMaxu x y = Spec.W (max x.toNat y.toNat) := by
  rw [opMaxu, ← Nat.cast_max, W_natCast, max_def]
  split <;> simp

theorem opMul_eq (x y : Word) : opMul x y = Spec.W (x.toNat * y.toNat) := by
  rw [Spec.W, BitVec.ofInt_mul, ← Spec.W, ← Spec.W, W_toNat, W_toNat, opMul]

theorem opMulh_eq (x y : Word) : opMulh x y = Spec.W (Spec.S x * Spec.S y / 2 ^ 64) := by
  rw [S_eq_toInt, S_eq_toInt]; rfl

theorem opMulhu_eq (x y : Word) : opMulhu x y = Spec.W (x.toNat * y.toNat / 2 ^ 64) := by
  rw [opMulhu, ← W_natCast]; push_cast; rfl

/-- The one quotient that overflows: −2^63 by −1 (R107). -/
theorem eq_of_toInt_min {x : Word} (h : x.toInt = -2 ^ 63) : x = BitVec.intMin 64 :=
  BitVec.eq_of_toInt_eq (h.trans (by decide))

theorem opDiv_eq (x y : Word) : opDiv x y =
    if y = 0 then 0xFFFFFFFFFFFFFFFF else if Spec.S x = -2 ^ 63 ∧ Spec.S y = -1 then x
      else Spec.W (Spec.truncDiv (Spec.S x) (Spec.S y)) := by
  rw [S_eq_toInt, S_eq_toInt, truncDiv_eq_tdiv, opDiv]
  split
  · rfl
  · split
    · rename_i h
      rw [h.2, eq_of_toInt_min h.1]; decide
    · rfl

theorem opDivu_eq (x y : Word) : opDivu x y = if y = 0 then 0xFFFFFFFFFFFFFFFF else Spec.W (x.toNat / y.toNat) := by
  rw [opDivu, ← W_natCast]; push_cast; rfl

theorem opRem_eq (x y : Word) : opRem x y =
    if y = 0 then x else if Spec.S x = -2 ^ 63 ∧ Spec.S y = -1 then 0
      else Spec.W (Spec.S x - Spec.truncDiv (Spec.S x) (Spec.S y) * Spec.S y) := by
  rw [S_eq_toInt, S_eq_toInt, truncDiv_eq_tdiv, opRem, Int.tmod_def, Int.mul_comm y.toInt]
  split
  · rfl
  · split
    · rename_i h
      rw [h.1, h.2]; decide
    · rfl

theorem opRemu_eq (x y : Word) : opRemu x y =
    if y = 0 then x else Spec.W (x.toNat - x.toNat / y.toNat * y.toNat) := by
  have h : (x.toNat : Int) - x.toNat / y.toNat * y.toNat = ((x.toNat % y.toNat : Nat) : Int) := by
    push_cast
    rw [Int.emod_def, Int.mul_comm]
  rw [h, W_natCast, opRemu]


/-! ### The three-operand forms (R103 to R107) -/

/-- Each row's instruction applies an operation that computes the row's value. -/
theorem scalarRows_effect : ∀ row ∈ Spec.scalarRows, ∃ op, (∀ f, (row.instr f).form.2 = .s3 f) ∧
    (∀ f, (slotDo (row.instr f)).1 = effS3 f op row.lat) ∧ ∀ x y, op x y = row.value x y := by
  unfold Spec.scalarRows
  simp only [List.forall_mem_cons, List.not_mem_nil, false_implies, implies_true, and_true]
  exact ⟨⟨opAdd, fun _ => rfl, fun _ => rfl, opAdd_eq⟩,
    ⟨opSub, fun _ => rfl, fun _ => rfl, opSub_eq⟩,
    ⟨opAnd, fun _ => rfl, fun _ => rfl, fun _ _ => rfl⟩,
    ⟨opOr, fun _ => rfl, fun _ => rfl, fun _ _ => rfl⟩,
    ⟨opXor, fun _ => rfl, fun _ => rfl, fun _ _ => rfl⟩,
    ⟨opSll, fun _ => rfl, fun _ => rfl, opSll_eq⟩,
    ⟨opSrl, fun _ => rfl, fun _ => rfl, opSrl_eq⟩,
    ⟨opSra, fun _ => rfl, fun _ => rfl, opSra_eq⟩,
    ⟨opSlt, fun _ => rfl, fun _ => rfl, opSlt_eq⟩,
    ⟨opSltu, fun _ => rfl, fun _ => rfl, fun _ _ => rfl⟩,
    ⟨opMin, fun _ => rfl, fun _ => rfl, opMin_eq⟩,
    ⟨opMax, fun _ => rfl, fun _ => rfl, opMax_eq⟩,
    ⟨opMinu, fun _ => rfl, fun _ => rfl, opMinu_eq⟩,
    ⟨opMaxu, fun _ => rfl, fun _ => rfl, opMaxu_eq⟩,
    ⟨opMul, fun _ => rfl, fun _ => rfl, opMul_eq⟩,
    ⟨opMulh, fun _ => rfl, fun _ => rfl, opMulh_eq⟩,
    ⟨opMulhu, fun _ => rfl, fun _ => rfl, opMulhu_eq⟩,
    ⟨opDiv, fun _ => rfl, fun _ => rfl, opDiv_eq⟩,
    ⟨opDivu, fun _ => rfl, fun _ => rfl, opDivu_eq⟩,
    ⟨opRem, fun _ => rfl, fun _ => rfl, opRem_eq⟩,
    ⟨opRemu, fun _ => rfl, fun _ => rfl, opRemu_eq⟩⟩

/-- Settles O1: a row issues, has the effect of its operation, and lands the row's value. -/
theorem scalarThreeOperand : Obligations.ScalarThreeOperand := by
  intro row hrow f s h
  obtain ⟨op, hform, heff, hop⟩ := scalarRows_effect row hrow
  rw [exec_scalar (by rw [hform]; rfl) h, heff, effS3, landOwn_eq_landScalar, readOwn_eq_scalarReg, readOwn_eq_scalarReg, hop]

end Sys2Proof.Machine
end

section
/-! The other scalar forms (R105, R108 to R111, R166): immediates, counts of bits, fields and constants, copies and stream
writes. -/

open Sys2Proof Sys2Proof.Machine

namespace Sys2Proof.Machine

variable {s t : State}

/-! ### Immediates (R105) -/

/-- An immediate sign-extended is the integer that it reads as. -/
theorem signExtend_eq_W (k : BitVec 20) : k.signExtend 64 = Spec.W k.toInt := rfl

theorem signExtend_toNat_mod (k : BitVec 20) : (k.signExtend 64).toNat % 2 ^ 6 = k.toNat % 2 ^ 6 := by
  rw [BitVec.toNat_signExtend, BitVec.toNat_setWidth]
  split <;> omega

theorem opAdd_signExtend (x : Word) (k : BitVec 20) : opAdd x (k.signExtend 64) = Spec.W (x.toNat + k.toInt) := by
  rw [Spec.W, BitVec.ofInt_add, ← Spec.W, ← Spec.W, W_toNat, ← signExtend_eq_W, opAdd]

theorem opSll_signExtend (x : Word) (k : BitVec 20) :
    opSll x (k.signExtend 64) = Spec.W (x.toNat * 2 ^ (k.toNat % 2 ^ 6)) := by
  rw [opSll_eq, signExtend_toNat_mod]

theorem opSrl_signExtend (x : Word) (k : BitVec 20) :
    opSrl x (k.signExtend 64) = Spec.W (x.toNat / 2 ^ (k.toNat % 2 ^ 6)) := by
  rw [opSrl_eq, signExtend_toNat_mod]

theorem opSra_signExtend (x : Word) (k : BitVec 20) :
    opSra x (k.signExtend 64) = Spec.W (Spec.S x / 2 ^ (k.toNat % 2 ^ 6)) := by
  rw [opSra_eq, signExtend_toNat_mod]

theorem opSlt_signExtend (x : Word) (k : BitVec 20) :
    opSlt x (k.signExtend 64) = if Spec.S x < k.toInt then 1 else 0 := by
  rw [opSlt_eq, S_eq_toInt (k.signExtend 64), BitVec.toInt_signExtend_of_le (by decide)]

/-! ### Counts of bits (R108) -/

theorem toNat_ne_zero {x : Word} (h : x ≠ 0) : x.toNat ≠ 0 := fun e => h (BitVec.eq_of_toNat_eq e)

theorem opClz_counts (x : Word) : (x = 0 ∧ opClz x = 64) ∨
    ∃ k < 64, x.getLsbD k = true ∧ (∀ j < 64, k < j → x.getLsbD j = false) ∧ opClz x = Spec.W (63 - k) := by
  by_cases h : x = 0
  · subst h; exact .inl ⟨rfl, rfl⟩
  · have h0 := toNat_ne_zero h
    have hk : x.toNat.log2 < 64 := (Nat.log2_lt h0).2 x.isLt
    refine .inr ⟨x.toNat.log2, hk, Nat.testBit_log2 h0, fun j _ hj => Nat.testBit_lt_two_pow ?_, ?_⟩
    · exact Nat.lt_log2_self.trans_le (Nat.pow_le_pow_right (by decide) hj)
    · rw [opClz, bitLen, if_neg h0, show (63 - (x.toNat.log2 : Int)) = ((64 - (x.toNat.log2 + 1) : Nat) : Int) by omega,
        W_natCast]

/-- The lowest 1 of a number that has one in its low `fuel` bits. -/
theorem trailing_lowest (fuel n : Nat) (h : n % 2 ^ fuel ≠ 0) : trailing fuel n < fuel ∧
    n.testBit (trailing fuel n) = true ∧ ∀ j < trailing fuel n, n.testBit j = false := by
  induction fuel generalizing n with
  | zero => exact absurd (Nat.mod_one n) h
  | succ k ih =>
    unfold trailing
    split
    · rename_i h1
      exact ⟨by omega, by simp [h1], by simp⟩
    · have hk : n / 2 % 2 ^ k ≠ 0 := by
        rw [Nat.pow_succ, Nat.mul_comm, Nat.mod_mul] at h
        omega
      obtain ⟨hlt, hbit, hlow⟩ := ih (n / 2) hk
      refine ⟨by omega, by rwa [Nat.testBit_succ], fun j hj => ?_⟩
      cases j with
      | zero => rw [Nat.testBit_zero]; exact decide_eq_false ‹_›
      | succ j => rw [Nat.testBit_succ]; exact hlow j (by omega)

theorem opCtz_counts (x : Word) : (x = 0 ∧ opCtz x = 64) ∨
    ∃ k < 64, x.getLsbD k = true ∧ (∀ j < k, x.getLsbD j = false) ∧ opCtz x = Spec.W k := by
  by_cases h : x = 0
  · subst h; exact .inl ⟨rfl, rfl⟩
  · obtain ⟨hlt, hbit, hlow⟩ := trailing_lowest 64 x.toNat (by rw [Nat.mod_eq_of_lt x.isLt]; exact toNat_ne_zero h)
    exact .inr ⟨_, hlt, hbit, hlow, by rw [opCtz, if_neg h, W_natCast]⟩

theorem opPopc_counts (x : Word) :
    opPopc x = Spec.W ((Finset.univ.filter fun i : Fin 64 => x.getLsbD i = true).card) := by
  have h : ((List.range 64).filter fun i => x.getLsbD i).length =
      (Finset.univ.filter fun i : Fin 64 => x.getLsbD i = true).card := by
    rw [← List.map_coe_finRange_eq_range, List.filter_map, List.length_map, ← List.countP_eq_length_filter,
      Finset.card_def, Finset.filter_val, ← Multiset.countP_eq_card_filter]
    refine .trans ?_ (Multiset.coe_countP (fun i : Fin 64 => x.getLsbD i = true) (List.finRange 64)).symm
    simp only [Function.comp_def, Bool.decide_eq_true]
  rw [opPopc, h, W_natCast]

/-! ### Fields of bits (R109, R110) -/

theorem opBext_eq (pos len : Nat) (x : Word) : opBext pos len x = Spec.W (x.toNat / 2 ^ pos % 2 ^ len) := by
  rw [opBext, bitsOf, ← W_natCast]; push_cast; rfl

theorem opBins_insertsField (pos len : Nat) (x d : Word) : Spec.insertsField d x (opBins pos len x d) pos len := by
  intro j hj
  have hm : (BitVec.ofNat 64 (2 ^ len - 1) <<< pos).getLsbD j = decide (pos ≤ j ∧ j < pos + len) := by
    rw [BitVec.getLsbD_shiftLeft, BitVec.getLsbD_ofNat, Nat.testBit_two_pow_sub_one]
    grind
  unfold opBins
  dsimp only
  simp only [BitVec.getLsbD_or, BitVec.getLsbD_and, BitVec.getLsbD_not, hm]
  by_cases h : pos ≤ j ∧ j < pos + len
  · rw [if_pos h, BitVec.getLsbD_shiftLeft]
    simp [h, hj]
  · simp [h, hj]

theorem setWidth_eq_W (k : BitVec 24) : k.setWidth 64 = Spec.W k.toNat := by
  rw [W_natCast, BitVec.ofNat_toNat]

/-! ### Stream registers (R166) -/

theorem and_streamMask (x : Word) : x &&& streamMask = Spec.streamWord x := by
  have hx : x.toNat < 2 ^ 64 := x.isLt
  apply BitVec.eq_of_toNat_eq
  have hmask : 0xFFFFFFFFFFC000FF = 2 ^ 22 * (2 ^ 42 - 1) + (2 ^ 8 - 1) := by decide
  have hand : x.toNat &&& 0xFFFFFFFFFFC000FF = x.toNat / 2 ^ 22 * 2 ^ 22 + x.toNat % 2 ^ 8 := by
    apply Nat.eq_of_testBit_eq
    intro i
    rw [hmask, Nat.mul_comm _ (2 ^ 22), Nat.testBit_and, Nat.testBit_two_pow_mul_add _ (by omega),
      Nat.testBit_two_pow_mul_add _ (by omega), Nat.testBit_two_pow_sub_one, Nat.testBit_two_pow_sub_one,
      Nat.testBit_mod_two_pow, Nat.testBit_div_two_pow]
    split
    · rw [Bool.and_comm]
    · rw [Nat.sub_add_cancel (by omega)]
      by_cases h64 : i < 64
      · simp [show i - 22 < 42 by omega]
      · rw [Nat.testBit_lt_two_pow (hx.trans_le (Nat.pow_le_pow_right (by decide) (by omega))), Bool.false_and]
  rw [BitVec.toNat_and, streamMask, show (0xFFFFFFFFFFC000FF : Word).toNat = 0xFFFFFFFFFFC000FF from rfl, hand,
    Spec.streamWord, show (x.toNat : Int) / 2 ^ 22 * 2 ^ 22 + x.toNat % 2 ^ 8 =
      ((x.toNat / 2 ^ 22 * 2 ^ 22 + x.toNat % 2 ^ 8 : Nat) : Int) by push_cast; rfl, W_natCast, BitVec.toNat_ofNat]
  exact (Nat.mod_eq_of_lt (by omega)).symm

/-! ### Copies (R111) -/

theorem ofNat_cpValue (b : Be) (file r : Nat) : BitVec.ofNat 64 (cpValue b file r) = (b.read file r).setWidth 64 := by
  apply BitVec.eq_of_toNat_eq
  rw [BitVec.toNat_ofNat, BitVec.toNat_setWidth, cpValue, Be.readNat, Nat.mod_mod]

/-- A loop register as a source of CPX (R111). -/
theorem lpRead_eq_copySource (s : State) (r : Nat) (hr : r < 16) :
    BitVec.ofNat 64 (lpRead (Spec.be s).loops r) = Spec.copySource s 5 r := by
  unfold lpRead Spec.copySource
  dsimp only
  obtain h | h | h | h : r / 4 = 0 ∨ r / 4 = 1 ∨ r / 4 = 2 ∨ r / 4 = 3 := by omega
  · rw [h, if_pos (by omega)]
    cases ((Spec.be s).loops[r % 4]?.getD LoopLevel.reset).act <;> exact (W_natCast _).symm
  · rw [h, if_neg (by omega), if_pos (by omega), W_natCast]; rfl
  · rw [h, if_neg (by omega), if_neg (by omega), if_pos (by omega), W_natCast]; rfl
  · rw [h, if_neg (by omega), if_neg (by omega), if_neg (by omega), W_natCast]; rfl

/-- The source of CPX: bits [63:0] of the register that the file code names. -/
theorem cpValue_eq_copySource (s : State) {file r : Nat} (hr : r < 16) (h : cpSourceOk file r = true) :
    BitVec.ofNat 64 (cpValue (s.core s.cur).be file r) = Spec.copySource s file r := by
  have hfile : file ≤ 10 := by
    unfold cpSourceOk at h
    exact of_decide_eq_true (Bool.and_eq_true_iff.1 h).1
  have hword (x : Word) : (x.setWidth 1024).setWidth 64 = x := (BitVec.setWidth_setWidth_of_le x (by decide)).trans x.setWidth_eq
  have haddr (x : AWord) : (x.setWidth 1024).setWidth 64 = x.setWidth 64 := BitVec.setWidth_setWidth_of_le x (by decide)
  rw [ofNat_cpValue]
  match file, hfile with
  | 0, _ =>
    change (if r = 0 then (0 : VWord) else _).setWidth 64 = if r = 0 then 0 else _
    split
    · exact BitVec.setWidth_zero ..
    · exact hword _
  | 1, _ | 4, _ | 10, _ => exact hword _
  | 2, _ | 3, _ => exact haddr _
  | 5, _ =>
    rw [← lpRead_eq_copySource s r hr]
    exact BitVec.setWidth_ofNat_of_le (by decide) _
  | 6, _ | 7, _ | 8, _ | 9, _ => rfl
  | n + 11, h => omega

/-! ### The forms -/

/-- Each immediate form applies an operation that computes the row's value from the immediate sign-extended. -/
theorem immediateRows_effect : ∀ row ∈ Spec.immediateRows, ∃ op, (∀ f, (row.1 f).form.2 = .si f) ∧
    (∀ f, (slotDo (row.1 f)).1 = effSI f op) ∧ ∀ x k, op x (k.signExtend 64) = row.2 x k := by
  unfold Spec.immediateRows
  simp only [List.forall_mem_cons, List.not_mem_nil, false_implies, implies_true, and_true]
  exact ⟨⟨opAdd, fun _ => rfl, fun _ => rfl, opAdd_signExtend⟩,
    ⟨opAnd, fun _ => rfl, fun _ => rfl, fun _ _ => rfl⟩,
    ⟨opOr, fun _ => rfl, fun _ => rfl, fun _ _ => rfl⟩,
    ⟨opXor, fun _ => rfl, fun _ => rfl, fun _ _ => rfl⟩,
    ⟨opSll, fun _ => rfl, fun _ => rfl, opSll_signExtend⟩,
    ⟨opSrl, fun _ => rfl, fun _ => rfl, opSrl_signExtend⟩,
    ⟨opSra, fun _ => rfl, fun _ => rfl, opSra_signExtend⟩,
    ⟨opSlt, fun _ => rfl, fun _ => rfl, opSlt_signExtend⟩⟩

theorem scalarImmediate : Spec.ScalarImmediate := by
  intro row hrow f s h
  obtain ⟨op, hform, heff, hop⟩ := immediateRows_effect row hrow
  rw [exec_scalar (by rw [hform]; rfl) h, heff, effSI, landOwn_eq_landScalar, readOwn_eq_scalarReg, hop]

/-- Each count applies an operation whose value the row's relation admits. -/
theorem countRows_effect : ∀ row ∈ Spec.countRows, ∃ op, (∀ f, (row.1 f).form.2 = .s2 f) ∧
    (∀ f, (slotDo (row.1 f)).1 = effS2 f op) ∧ ∀ x, row.2 x (op x) := by
  unfold Spec.countRows
  simp only [List.forall_mem_cons, List.not_mem_nil, false_implies, implies_true, and_true]
  exact ⟨⟨opClz, fun _ => rfl, fun _ => rfl, opClz_counts⟩, ⟨opCtz, fun _ => rfl, fun _ => rfl, opCtz_counts⟩,
    ⟨opPopc, fun _ => rfl, fun _ => rfl, opPopc_counts⟩⟩

theorem scalarBitCounts : Spec.ScalarBitCounts := by
  intro row hrow f s h
  obtain ⟨op, hform, heff, hop⟩ := countRows_effect row hrow
  refine ⟨_, hop _, ?_⟩
  rw [exec_scalar (by rw [hform]; rfl) h, heff, effS2, landOwn_eq_landScalar, readOwn_eq_scalarReg]

theorem scalarFieldsAndConstants : Spec.ScalarFieldsAndConstants := by
  refine ⟨fun f s _ h => ?_, fun f s _ h => ⟨_, opBins_insertsField _ _ _ _, ?_⟩, fun f s h => ?_,
    fun f s h => ⟨_, opBins_insertsField _ _ _ _, ?_⟩, fun f s h => ⟨_, opBins_insertsField _ _ _ _, ?_⟩⟩
  · rw [exec_scalar rfl h, ← opBext_eq, ← landOwn_eq_landScalar, ← readOwn_eq_scalarReg]; rfl
  · rw [exec_scalar rfl h, ← landOwn_eq_landScalar, ← readOwn_eq_scalarReg, ← readOwn_eq_scalarReg]; rfl
  · rw [exec_scalar rfl h, ← setWidth_eq_W, ← landOwn_eq_landScalar]; rfl
  · rw [exec_scalar rfl h, ← setWidth_eq_W, ← landOwn_eq_landScalar, ← readOwn_eq_scalarReg]; rfl
  · rw [exec_scalar rfl h, ← setWidth_eq_W, ← landOwn_eq_landScalar, ← readOwn_eq_scalarReg]; rfl

/-- A write to a stream register lands there, whatever the slot (R166). -/
theorem land_eq_landing (s : State) (sl : SSlot) (file reg : Nat) (data : VWord) (lat : Nat) :
    s.land (SSlot.toSlot sl).rank file reg 0 64 data lat = Spec.landing s (Spec.sFile sl) file reg 0 64 data lat := by
  cases sl <;> rfl

theorem copyAndStreamWrite : Spec.CopyAndStreamWrite := by
  refine ⟨fun f s hwf h => ?_, fun f s h => ?_⟩
  · have hsrc : cpSourceOk f.file.toNat f.src.toNat = true := by
      unfold WellFormed at hwf
      exact (Bool.and_eq_true_iff.1 (Bool.and_eq_true_iff.1 hwf).1).1
    rw [exec_scalar rfl h, ← cpValue_eq_copySource s f.src.isLt hsrc, ← landOwn_eq_landScalar]; rfl
  · rw [exec_scalar rfl h, ← and_streamMask, ← readOwn_eq_scalarReg, ← land_eq_landing]; rfl

/-- Settles O2: each form by what its operation computes: an integer, a count, a field, a constant or a copy. -/
theorem scalarOtherForms : Obligations.ScalarOtherForms :=
  ⟨scalarImmediate, scalarBitCounts, scalarFieldsAndConstants, copyAndStreamWrite⟩

end Sys2Proof.Machine
end

section
/-! Exceptions, environment calls and interrupts of the control core (R125, R127, R181, R184, R185, R187, R199). -/

open Sys2Proof Sys2Proof.Machine

namespace Sys2Proof.Machine

variable {s t : State}

/-! ### Exceptions (R181, R184, R185, R187) -/

/-- EBREAK and ECALL trap with code 0x13 and no address. -/
theorem ccTrap_call_trapTaken (s : State) (cause : Nat) :
    Spec.trapTaken s (s.ccTrap cause 0 (s.ccEv 0x13 0)) (BitVec.ofNat 64 cause) 0 0x13 0 := by
  have he : tcauseOf (s.ccEv 0x13 0) = BitVec.ofNat 64 (0x13 * 2 ^ 40 + 15 * 2 ^ 24) := by
    have hcause : (BitVec.ofNat 8 0x13).toNat = 0x13 := rfl
    have hsub : (BitVec.ofNat 8 0).toNat = 0 := rfl
    simp only [tcauseOf, State.ccEv, hcause, hsub, BitVec.ofNat_eq_ofNat, BitVec.toNat_ofNat, Nat.zero_mod, Nat.zero_mul,
      Nat.zero_add, Nat.add_zero]
  exact ccTrap_trapTaken (CoresKept.refl s) rfl cause 0 0x13 _ he

/-- The trap of an illegal instruction word: mtval holds the word (log 24). -/
theorem ccIllegal_word_trapTaken (s : State) (w : BitVec 32) :
    Spec.trapTaken s (s.ccIllegal w.toNat) 2 (w.setWidth 64) 0x02 0 := by
  rw [show w.setWidth 64 = BitVec.ofNat 64 w.toNat from (BitVec.ofNat_toNat ..).symm]
  exact ccTrap_trapTaken (count_coresKept s s.cur 5 1) (count_sc s s.cur 5 1 s.cur) 2 w.toNat 0x02 _ (tcauseOf_illegal s)

theorem exec_ecall_m (hm : (Spec.cc s).mode = .m) : exec .ecall s = .next (s.ccTrap 11 0 (s.ccEv 0x13 0)) := by
  change (s.core s.cur).cc.mode = .m at hm
  change execEcall s = _
  simp only [execEcall, hm]

theorem exec_ecall_u (hm : (Spec.cc s).mode = .u) : exec .ecall s = .next
    (if Spec.xReg s 17 = 0 then
      Spec.setCc s { Spec.cc s with state := .ending, pstat := (Spec.xReg s 10).setWidth 16 }
    else s.ccTrap 8 0 (s.ccEv 0x13 0)) := by
  change (s.core s.cur).cc.mode = .u at hm
  change execEcall s = _
  simp only [execEcall, hm]
  rfl

theorem controlCoreTraps : Spec.ControlCoreTraps := by
  refine ⟨fun s c => ⟨_, rfl, ccTrap_call_trapTaken s 3⟩, fun s c w => ⟨_, rfl, ccIllegal_word_trapTaken s w⟩,
    fun s hm => ⟨_, exec_ecall_m hm, ccTrap_call_trapTaken s 11⟩, fun s hm ha => ?_, fun s hm ha => ?_⟩
  · exact ⟨_, (exec_ecall_u hm).trans (by rw [if_neg ha]), ccTrap_call_trapTaken s 8⟩
  · rw [exec_ecall_u hm, if_pos ha]

/-! ### The event that is taken first (R185, R199) -/

theorem mem_of_firstPending {l : List (Ev × Nat × Word)} {x : Ev × Nat × Word} (h : firstPending l = some x) : x ∈ l := by
  induction l with
  | nil => cases h
  | cons y l ih =>
    unfold firstPending at h
    split at h
    · cases h; exact List.mem_cons_self
    · split at h
      · cases h; exact List.mem_cons_of_mem _ (ih ‹_›)
      · cases h; exact List.mem_cons_self

/-- The event of lowest rank is taken, of several the one that came first. -/
theorem firstPending_eq {a b : List (Ev × Nat × Word)} {x : Ev × Nat × Word}
    (ha : ∀ y ∈ a, Spec.pendRank x.1 < Spec.pendRank y.1) (hb : ∀ y ∈ b, Spec.pendRank x.1 ≤ Spec.pendRank y.1) :
    firstPending (a ++ x :: b) = some x := by
  induction a with
  | nil =>
    rw [List.nil_append, firstPending]
    split
    · rfl
    · exact if_neg (Nat.not_lt.2 (hb _ (mem_of_firstPending ‹_›)))
  | cons z a ih =>
    rw [List.cons_append, firstPending, ih fun y hy => ha y (List.mem_cons_of_mem _ hy)]
    exact if_pos (ha z List.mem_cons_self)

/-! ### Interrupts (R125, R127, R184, R185) -/

/-- What a core may take: with interrupts open and every one of them enabled, what is pending. -/
theorem interrupts_eq_pending {k : Core} (hmode : k.cc.mode = .u ∨ k.cc.mstatus.getLsbD 3 = true) (hin : k.cc.inspect = none)
    (hst : k.cc.state = .running) (h16 : k.cc.mie.getLsbD 16 = true) (h17 : k.cc.mie.getLsbD 17 = true)
    (h18 : k.cc.mie.getLsbD 18 = true) : k.interrupts = k.cc.pendMacro := by
  have hopen : (k.cc.mode == .u || k.cc.mstatus.getLsbD 3) = true := by simpa using hmode
  have hmie (e : Ev) : k.cc.mie.getLsbD (intNumber e) = true := by
    unfold intNumber
    split
    · exact h16
    · split
      · exact h18
      · exact h17
  simp only [Core.interrupts, hopen, hin, hst, hmie, Option.isNone_none, Bool.and_self, if_true, List.append_nil,
    List.filter_true]

theorem interrupts_closed {k : Core} (hm : k.cc.mode = .m) (hmie : k.cc.mstatus.getLsbD 3 = false) : k.interrupts = [] := by
  have hopen : (k.cc.mode == .u || k.cc.mstatus.getLsbD 3) = false := by rw [hm, hmie]; rfl
  simp only [Core.interrupts, hopen, Bool.false_and, Bool.false_eq_true, if_false]

theorem interrupts_disabled {k : Core} (hmie : k.cc.mie = 0) : k.interrupts = [] := by
  simp [Core.interrupts, hmie]

theorem interrupts_none {k : Core} (hp : k.cc.pendMacro = []) (h14 : k.be.pend14 = none) : k.interrupts = [] := by
  simp [Core.interrupts, hp, h14]

theorem exec_ccInterruptEntry_none (h : (s.core s.cur).interrupts = []) : exec .ccInterruptEntry s = .next s := by
  change execCcInterruptEntry s = _
  rw [execCcInterruptEntry, h]
  rfl

theorem exec_ccInterruptEntry_some {x : Ev × Nat × Word} (h : firstPending (s.core s.cur).interrupts = some x) :
    exec .ccInterruptEntry s = .next (s.setCore s.cur ((s.core s.cur).takeInterrupt x)) := by
  change execCcInterruptEntry s = _
  rw [execCcInterruptEntry, h]
  rfl

/-- The pending bits of mip, with no interrupt of the bundle engine held back. -/
theorem refreshMip_bits {k : Core} (h14 : k.be.pend14 = none) :
    k.refreshMip.cc.mip.getLsbD 16 = k.cc.pendMacro.any (fun y => Spec.irqOf y.1 == 16) ∧
      k.refreshMip.cc.mip.getLsbD 17 = k.cc.pendMacro.any (fun y => Spec.irqOf y.1 == 17) ∧
      k.refreshMip.cc.mip.getLsbD 18 = k.cc.pendMacro.any (fun y => Spec.irqOf y.1 == 18) := by
  have hirq : Spec.irqOf = intNumber := rfl
  simp only [Core.refreshMip, hirq, h14, Option.isSome_none, Bool.and_false, Bool.or_false]
  cases k.cc.pendMacro.any (fun y => intNumber y.1 == 16) <;> cases k.cc.pendMacro.any (fun y => intNumber y.1 == 17) <;>
    cases k.cc.pendMacro.any (fun y => intNumber y.1 == 18) <;> simp

theorem mtvecOf_eq (k : Core) : mtvecOf k = BitVec.ofNat 64 (((k.eng.regions[14]?).getD 0).toNat % 2 ^ 32) := by
  apply BitVec.eq_of_toNat_eq
  simp only [mtvecOf, BitVec.toNat_setWidth, BitVec.toNat_ofNat]

/-- The details of an event, as a trap writes them (R199). -/
def pendingInfo (x : Ev × Nat × Word) : TrapInfo :=
  { tcause := tcauseOf x.1, faddr := x.1.faddr, fcoord := x.2.2, fsc := BitVec.ofNat 64 x.2.1 }

/-- A core that has taken the trap of the pending event `x`, which is pending no longer. -/
def Core.interrupted (k : Core) (x : Ev × Nat × Word) (rest : List (Ev × Nat × Word)) : Core :=
  let k' := k.takeTrap (interruptCause (intNumber x.1)) 0 (some (pendingInfo x))
  { k' with cc := { k'.cc with pendMacro := rest } }

theorem takeInterrupt_eq {k : Core} {a b : List (Ev × Nat × Word)} {x : Ev × Nat × Word}
    (hp : k.cc.pendMacro = a ++ x :: b) (ha : ∀ y ∈ a, Spec.pendRank x.1 < Spec.pendRank y.1) :
    k.takeInterrupt x = (k.interrupted x (a ++ b)).refreshMip := by
  have hx : x ∉ a := fun h => (ha x h).false
  have hin : k.cc.pendMacro.contains x = true := by rw [hp]; simp
  have herase : k.cc.pendMacro.erase x = a ++ b := by
    rw [hp, List.erase_append_right _ hx, List.erase_cons_head]
  rw [Core.takeInterrupt]
  dsimp only
  rw [if_pos hin, show (k.takeTrap _ 0 _).cc.pendMacro = k.cc.pendMacro from rfl, herase]
  rfl

theorem controlCoreInterrupts : Spec.ControlCoreInterrupts := by
  refine ⟨fun s a b x hmode hin hst h16 h17 h18 h14 hp ha hb => ?_, fun s h => exec_ccInterruptEntry_none ?_⟩
  · have hfirst : firstPending (s.core s.cur).interrupts = some x := by
      rw [interrupts_eq_pending hmode hin hst h16 h17 h18]
      exact (congrArg firstPending hp).trans (firstPending_eq ha hb)
    have hcore := (State.core_setCore s s.cur s.cur ((s.core s.cur).takeInterrupt x)).trans (if_pos rfl)
    rw [takeInterrupt_eq hp ha] at hcore
    obtain ⟨hmip16, hmip17, hmip18⟩ := refreshMip_bits (k := (s.core s.cur).interrupted x (a ++ b)) h14
    obtain ⟨⟨hpie, hie⟩, -⟩ := trapStatus_bits (s.core s.cur).cc.mstatus (s.core s.cur).cc.mode
    have htcause : tcauseOf x.1 = Spec.W ((x.1.tcode.toNat * 2 ^ 48 + x.1.cause.toNat * 2 ^ 40 +
        x.1.subcause.toNat * 2 ^ 32 + x.1.engine * 2 ^ 28 + x.1.slot * 2 ^ 24 : Nat)) := (W_natCast _).symm
    refine ⟨_, exec_ccInterruptEntry_some hfirst, ?_⟩
    unfold Spec.cc Spec.be
    rw [takeInterrupt_eq hp ha, State.setCore_cur, hcore, ← mtvecOf_eq, ← htcause]
    exact ⟨rfl, rfl, rfl, rfl, hie, hpie, rfl, rfl, rfl, rfl, rfl, rfl, hmip16, hmip17, hmip18, rfl, rfl, rfl, rfl⟩
  · obtain ⟨hm, hmie⟩ | ⟨hp, h14⟩ | hmie := h
    · exact interrupts_closed hm hmie
    · exact interrupts_none hp h14
    · exact interrupts_disabled hmie

/-- Settles O21: an exception by the trap it takes, an interrupt by the event that is taken first. -/
theorem controlCoreTrapEntries : Obligations.ControlCoreTrapEntries := ⟨controlCoreTraps, controlCoreInterrupts⟩

end Sys2Proof.Machine
end

section
/-! CSR instructions of the control core (R126, R159, R184, R197 to R201): what they read, what they write, and when they are
illegal. -/

open Sys2Proof Sys2Proof.Machine

namespace Sys2Proof.Machine

variable {s t : State}

/-! ### A core replaced in its domain -/

theorem domOf_setCore {c : Nat} {k : Core} (hk : k.dom = (s.core c).dom) (j : Nat) : (s.setCore c k).domOf j = s.domOf j := by
  have hd : ((s.setCore c k).core j).dom = (s.core j).dom := by
    rw [State.core_setCore]
    split
    · subst_vars; exact hk
    · rfl
  rw [State.domOf, State.domOf, hd]
  rfl

theorem sc_setCore {c : Nat} {k : Core} (hk : k.dom = (s.core c).dom) (j : Nat) : (s.setCore c k).sc j = s.sc j := by
  rw [State.sc, State.sc, domOf_setCore hk]
  rfl

theorem frozen_setCore {c : Nat} {k : Core} (hk : k.dom = (s.core c).dom) (j : Nat) :
    (s.setCore c k).frozen j = s.frozen j := by
  rw [State.frozen, State.frozen, domOf_setCore hk]

/-! ### Retirement -/

theorem pcNext_eq (s : State) (c : Bool) : Spec.pcNext s c = (Spec.cc s).pc + BitVec.ofNat 64 (if c then 2 else 4) := by
  apply BitVec.eq_of_toNat_eq
  cases c <;> simp only [Spec.pcNext, Spec.W, BitVec.toNat_ofInt, BitVec.toNat_add, BitVec.toNat_ofNat, if_true,
    Bool.false_eq_true, if_false] <;> omega

theorem ccResult_len_eq_retired (s : State) (rd : BitVec 5) (v : Word) (c : Bool) :
    s.ccResult rd v (if c then 2 else 4) = Spec.retired s rd v (Spec.pcNext s c) := by
  rw [pcNext_eq]
  unfold State.ccResult Spec.retired Spec.setCc Cc.setX Cc.retireTo
  by_cases h : rd = 0 <;> simp only [h, if_true, if_false] <;> rfl

/-! ### Which CSRs an instruction may use (R184) -/

theorem csrModeOk_iff (s : State) (n : Nat) : csrModeOk (Spec.cc s).mode n = true ↔ Spec.csrReachable s n := by
  unfold csrModeOk Spec.csrReachable
  cases (Spec.cc s).mode with
  | m => simp
  | u => simp [imp_iff_not_or]

/-- A CSR instruction writes unless it sets or clears no bit (Zicsr). -/
theorem csrWrites_iff (k : CsrKind) (src : BitVec 5) : (k == .rw || src != 0) = true ↔ k = .rw ∨ src ≠ 0 := by
  simp

theorem csrReadOnly_iff (n : BitVec 12) :
    csrReadOnly n.toNat = true ↔ n.toNat / 1024 = 3 ∨ n = 0x301 ∨ n = 0x305 := by
  have h (m : BitVec 12) : n.toNat = m.toNat ↔ n = m := BitVec.toNat_inj
  rw [← h, ← h]
  simp [csrReadOnly, or_assoc]

section Instruction

variable {k : CsrKind} {isImm c : Bool} {rd src : BitVec 5} {n : BitVec 12} {old : Word}

theorem exec_csr_illegal (h : ¬ Spec.csrReachable s n.toNat ∨
    ((k = .rw ∨ src ≠ 0) ∧ (n.toNat / 1024 = 3 ∨ n = 0x301 ∨ n = 0x305))) :
    exec (.controlCoreInstruction ⟨.csr k isImm rd src n, c⟩) s = .next s.ccIllegal := by
  rw [← csrModeOk_iff, ← csrWrites_iff, ← csrReadOnly_iff, ← Bool.and_eq_true_iff] at h
  have hill : (!csrModeOk (s.core s.cur).cc.mode n.toNat || ((k == .rw || src != 0) && csrReadOnly n.toNat)) = true := by
    rw [Bool.or_eq_true, Bool.not_eq_true', ← Bool.not_eq_true]
    exact h
  change Host.Outcome.next (s.csrInstr k isImm rd src n.toNat _) = _
  unfold State.csrInstr
  dsimp only
  split
  · rfl
  · rw [if_pos hill]

theorem exec_csr_read {v : Word} (hk : k ≠ .rw) (hr : Spec.csrReachable s n.toNat) (hv : s.csrRead s.cur n.toNat = some v) :
    exec (.controlCoreInstruction ⟨.csr k isImm rd 0 n, c⟩) s = .next (Spec.retired s rd v (Spec.pcNext s c)) := by
  have hw : (k == .rw || (0 : BitVec 5) != 0) = false := by simpa using hk
  have hm : csrModeOk (s.core s.cur).cc.mode n.toNat = true := (csrModeOk_iff s _).2 hr
  change Host.Outcome.next (s.csrInstr k isImm rd 0 n.toNat _) = _
  simp only [State.csrInstr, hv, hm, hw, Bool.not_true, Bool.false_and, Bool.or_self, Bool.false_eq_true, if_false,
    ccResult_len_eq_retired]

/-- The core after an instruction that writes CSR `n`: rd has the old value, and the CSR takes `v`. -/
def Core.csrDone (k : Core) (rd : BitVec 5) (old pc : Word) (sc n : Nat) (v : Word) : Core :=
  { k with cc := ((k.cc.setX rd old).retireTo pc).csrWrite sc n v, be := k.be.csrWrite sc n v }

theorem Core.csrDone_dom (k : Core) (rd : BitVec 5) (old pc : Word) (sc n : Nat) (v : Word) :
    (k.csrDone rd old pc sc n v).dom = k.dom := rfl

theorem csrWrite_ccResult (hi : s.notInspecting) {n : Nat} (hn : n ≠ 0x7C0) (rd : BitVec 5) (old v : Word) (c : Bool) :
    (s.ccResult rd old (if c then 2 else 4)).csrWrite s.cur n v =
      s.setCore s.cur ((s.core s.cur).csrDone rd old (Spec.pcNext s c) (s.sc s.cur) n v) := by
  have hins : ((s.core s.cur).cc.setX rd old).inspect.isSome = false := by
    unfold Cc.setX
    split <;> exact inspect_isSome_of_notInspecting hi
  rw [pcNext_eq]
  unfold State.csrWrite State.ccResult
  simp only [State.core_modCc, if_true, State.sc_modCc, Cc.retireTo, hins, Bool.false_eq_true, false_and, if_false, hn]
  unfold State.modCc State.modCore Core.csrDone
  rw [setCore_setCore, State.core_setCore, if_pos rfl]
  rfl

theorem exec_csr_write (hi : s.notInspecting) (hw : k = .rw ∨ src ≠ 0) (hr : Spec.csrReachable s n.toNat)
    (hro : csrReadOnly n.toNat = false) (hn : n.toNat ≠ 0x7C0) (hv : s.csrRead s.cur n.toNat = some old) :
    exec (.controlCoreInstruction ⟨.csr k isImm rd src n, c⟩) s =
      .next (s.setCore s.cur ((s.core s.cur).csrDone rd old (Spec.pcNext s c) (s.sc s.cur) n.toNat
        (Spec.csrWritten k old (if isImm then src.setWidth 64 else Spec.xReg s src)))) := by
  rw [← csrWrites_iff] at hw
  have hm : csrModeOk (s.core s.cur).cc.mode n.toNat = true := (csrModeOk_iff s _).2 hr
  change Host.Outcome.next (s.csrInstr k isImm rd src n.toNat _) = _
  simp only [State.csrInstr, hv, hm, hw, hro, Bool.not_true, Bool.and_false, Bool.or_self,
    Bool.false_eq_true, if_false, if_true]
  rw [csrWrite_ccResult hi hn]
  rfl

end Instruction

/-! ### What the write of a CSR leaves of its core -/

theorem Cc.csrWrite_frame (k : Cc) (sc n : Nat) (v : Word) : (k.csrWrite sc n v).pc = k.pc ∧ (k.csrWrite sc n v).x = k.x ∧
    (n ≠ 0x300 → (k.csrWrite sc n v).mstatus = k.mstatus) := by
  unfold Cc.csrWrite
  split
  case h_1 => exact ⟨rfl, rfl, fun h => absurd rfl h⟩
  all_goals exact ⟨rfl, rfl, fun _ => rfl⟩

theorem Be.csrWrite_regs (b : Be) (sc n : Nat) (v : Word) : (b.csrWrite sc n v).regs = b.regs := by
  unfold Be.csrWrite
  split <;> rfl

theorem xReg_csrDone (rd : BitVec 5) (old pc : Word) (sc n : Nat) (v : Word) (r : BitVec 5) :
    Spec.xReg (s.setCore s.cur ((s.core s.cur).csrDone rd old pc sc n v)) r =
      if r = rd ∧ r ≠ 0 then old else Spec.xReg s r := by
  have hx : (Spec.cc (s.setCore s.cur ((s.core s.cur).csrDone rd old pc sc n v))).x = ((s.core s.cur).cc.setX rd old).x := by
    rw [Spec.cc, State.setCore_cur, State.core_setCore, if_pos rfl]
    exact (Cc.csrWrite_frame ..).2.1
  rw [Spec.xReg, hx]
  exact Cc.xr_setX ..

/-! ### The CSRs that take the writable bits of a write -/

/-- The CSRs of `Spec.csrMasks` with their values on a core. -/
def Core.csrTable (k : Core) (frozen : Bool) : List (Nat × Word) :=
  [(0x304, k.cc.mie), (0x340, k.cc.mscratch), (0x341, k.cc.mepc), (0x342, k.cc.mcause), (0x343, k.cc.mtval),
    (0x801, k.cc.fpctl), (0x802, k.cc.srga.setWidth 64), (0x803, k.cc.srgb.setWidth 64), (0x804, k.cc.srgc.setWidth 64),
    (0x805, k.cc.srgm.setWidth 64), (0x806, k.cc.srge.setWidth 64), (0x7C1, k.cc.tcause), (0x7C2, k.cc.faddr),
    (0x7C3, k.cc.fcoord), (0x7C4, k.cc.fsc), (0x7CB, k.cc.snapidx), (0x7C6, (k.be.epc[0]?).getD 0),
    (0x7C7, (k.be.epc[1]?).getD 0), (0x7C8, (k.be.epc[2]?).getD 0), (0x7C9, k.be.mstepAt frozen)]

theorem csrRead_of_csrTable (s : State) (c : Nat) : ∀ e ∈ (s.core c).csrTable (s.frozen c), s.csrRead c e.1 = some e.2 := by
  unfold Core.csrTable
  simp only [List.forall_mem_cons, List.not_mem_nil, false_implies, implies_true, and_true]
  exact ⟨rfl, rfl, rfl, rfl, rfl, rfl, rfl, rfl, rfl, rfl, rfl, rfl, rfl, rfl, rfl, rfl, rfl, rfl, rfl, rfl⟩

theorem and_full (v : Word) : v &&& 0xFFFFFFFFFFFFFFFF#64 = v := BitVec.and_allOnes

theorem setWidth_32_64 (v : Word) : (v.setWidth 32).setWidth 64 = v &&& 0xFFFFFFFF#64 := by
  apply BitVec.eq_of_toNat_eq
  rw [BitVec.toNat_and, BitVec.toNat_setWidth_of_le (by decide), BitVec.toNat_setWidth]
  exact (Nat.and_two_pow_sub_one_eq_mod _ 32).symm

theorem Be.mstepAt_setEpc (b : Be) (frozen : Bool) (epc : Vector Word 3) :
    ({ b with epc } : Be).mstepAt frozen = b.mstepAt frozen := rfl

theorem Be.mstepAt_setMstep (b : Be) (mstep : Word) : ({ b with mstep } : Be).mstepAt false = mstep := rfl

/-- The write of a CSR sets its writable bits in the table, and no other entry. -/
theorem csrTable_csrWrite (k : Core) (frozen : Bool) (sc : Nat) (v : Word) :
    ∀ e ∈ Spec.csrMasks, (e.1 = 0x7C9 → frozen = false) →
      ({ k with cc := k.cc.csrWrite sc e.1 v, be := k.be.csrWrite sc e.1 v } : Core).csrTable frozen =
        (k.csrTable frozen).map fun x => if x.1 = e.1 then (x.1, v &&& e.2) else x := by
  unfold Spec.csrMasks
  simp only [List.forall_mem_cons, List.not_mem_nil, false_implies, implies_true, and_true]
  refine ⟨?_, ?_, ?_, ?_, ?_, ?_, ?_, ?_, ?_, ?_, ?_, ?_, ?_, ?_, ?_, ?_, ?_, ?_, ?_, fun h => ?_⟩
  case refine_20 =>
    rw [h trivial]
    simp [Core.csrTable, Cc.csrWrite, Be.csrWrite, Be.mstepAt_setMstep]
  all_goals simp [Core.csrTable, Cc.csrWrite, Be.csrWrite, and_full, setWidth_32_64, Be.mstepAt_setEpc]

/-- Writing rd and retiring leaves every CSR of the table. -/
theorem csrTable_retired (k : Core) (frozen : Bool) (rd : BitVec 5) (old pc : Word) :
    ({ k with cc := (k.cc.setX rd old).retireTo pc } : Core).csrTable frozen = k.csrTable frozen := by
  unfold Cc.setX
  split <;> rfl

theorem csrTable_csrDone {k : Core} {frozen : Bool} {rd : BitVec 5} {old pc : Word} {sc n : Nat} {m v : Word}
    (hn : (n, m) ∈ Spec.csrMasks) (hf : n = 0x7C9 → frozen = false) :
    (k.csrDone rd old pc sc n v).csrTable frozen =
      (k.csrTable frozen).map fun x => if x.1 = n then (x.1, v &&& m) else x := by
  have h := csrTable_csrWrite { k with cc := (k.cc.setX rd old).retireTo pc } frozen sc v (n, m) hn hf
  rw [csrTable_retired] at h
  exact h

/-- Every CSR of `Spec.csrMasks` has its value in the table. -/
theorem exists_mem_csrTable (k : Core) (frozen : Bool) {n : Nat} {m : Word} (hn : (n, m) ∈ Spec.csrMasks) :
    ∃ v, (n, v) ∈ k.csrTable frozen := by
  have hkeys : Spec.csrMasks.map Prod.fst = (k.csrTable frozen).map Prod.fst := rfl
  have hmem : n ∈ (k.csrTable frozen).map Prod.fst := hkeys ▸ List.mem_map_of_mem hn
  obtain ⟨⟨j, v⟩, hv, rfl⟩ := List.mem_map.1 hmem
  exact ⟨v, hv⟩

/-- A write of a listed CSR, as the CSR instructions of a running core read it back: its writable bits are as written, and
every other listed CSR is as it was. -/
theorem csrRead_csrDone {rd : BitVec 5} {old pc : Word} {n e : Nat} {m m' v : Word} (hn : (n, m) ∈ Spec.csrMasks)
    (he : (e, m') ∈ Spec.csrMasks) (hf : n = 0x7C9 → s.frozen s.cur = false) :
    (s.setCore s.cur ((s.core s.cur).csrDone rd old pc (s.sc s.cur) n v)).csrRead s.cur e =
      if e = n then some (v &&& m) else s.csrRead s.cur e := by
  obtain ⟨w, hw⟩ := exists_mem_csrTable (s.core s.cur) (s.frozen s.cur) he
  have hcore := (State.core_setCore s s.cur s.cur ((s.core s.cur).csrDone rd old pc (s.sc s.cur) n v)).trans (if_pos rfl)
  have hread := csrRead_of_csrTable (s.setCore s.cur ((s.core s.cur).csrDone rd old pc (s.sc s.cur) n v)) s.cur
  rw [hcore, frozen_setCore (Core.csrDone_dom ..), csrTable_csrDone hn hf] at hread
  have hnew := hread _ (List.mem_map_of_mem hw)
  rw [csrRead_of_csrTable s s.cur _ hw]
  split at hnew <;> rename_i h
  · rw [if_pos h]; exact hnew
  · rw [if_neg h]; exact hnew

/-! ### Counters and mstatus -/

/-- What mstatus shows after a write whose MPP is U or M (R184). -/
theorem mstatusWrite_masked {old v : Word} (h : v &&& 0x1800 = 0 ∨ v &&& 0x1800 = 0x1800) :
    mstatusWrite old v &&& mstatusMask = v &&& 0x221888 := by
  unfold mstatusWrite
  dsimp only
  rw [if_pos h, ← BitVec.and_or_distrib_left, BitVec.and_assoc]
  rfl

section Counters

variable {rd : BitVec 5} {old pc v : Word}

theorem csrRead_csrDone_mcycle :
    (s.setCore s.cur ((s.core s.cur).csrDone rd old pc (s.sc s.cur) 0xB00 v)).csrRead s.cur 0xB00 = some v := by
  change some (BitVec.ofNat 64 (State.sc _ _) + (State.core _ _).cc.cycleOfs) = _
  rw [sc_setCore (Core.csrDone_dom ..), State.core_setCore, if_pos rfl]
  change some (_ + (v - _)) = _
  rw [add_sub_cancel]

theorem csrRead_csrDone_minstret :
    (s.setCore s.cur ((s.core s.cur).csrDone rd old pc (s.sc s.cur) 0xB02 v)).csrRead s.cur 0xB02 = some v := by
  change some (State.core _ _).cc.minstret = _
  rw [State.core_setCore, if_pos rfl]
  rfl

theorem csrRead_csrDone_mstatus (h : v &&& 0x1800 = 0 ∨ v &&& 0x1800 = 0x1800) :
    (s.setCore s.cur ((s.core s.cur).csrDone rd old pc (s.sc s.cur) 0x300 v)).csrRead s.cur 0x300 =
      some (v &&& 0x221888) := by
  change some ((State.core _ _).cc.mstatus &&& mstatusMask) = _
  rw [State.core_setCore, if_pos rfl]
  exact congrArg some (mstatusWrite_masked h)

end Counters

/-! ### The statement -/

theorem csrMasks_writable {n : Nat} {m : Word} (h : (n, m) ∈ Spec.csrMasks) :
    csrReadOnly n = false ∧ n ≠ 0x7C0 ∧ n ≠ 0x300 := by
  have hall : ∀ e ∈ Spec.csrMasks, csrReadOnly e.1 = false ∧ e.1 ≠ 0x7C0 ∧ e.1 ≠ 0x300 := by decide
  exact hall _ h

theorem csrRead_of_csrFixed (s : State) : ∀ e ∈ Spec.csrFixed s, s.csrRead s.cur e.1 = some e.2 := by
  unfold Spec.csrFixed
  simp only [List.forall_mem_cons, List.not_mem_nil, false_implies, implies_true, and_true]
  exact ⟨rfl, rfl, rfl, rfl, rfl, rfl, rfl, rfl, rfl, rfl, rfl, rfl, rfl, rfl, rfl, rfl, rfl, rfl, rfl, rfl, rfl⟩

theorem controlCoreCsrs : Spec.ControlCoreCsrs := by
  refine ⟨fun s k isImm c rd src n m old hn hr hi hf hw hold => ?_, fun s k isImm c rd src n old hn hm hi hw hold => ?_,
    fun s k isImm c rd n v hv hr hk => exec_csr_read hk hr (csrRead_of_csrFixed s _ hv)⟩
  · obtain ⟨hro, hcal, hst⟩ := csrMasks_writable hn
    have hcore := (State.core_setCore s s.cur s.cur ((s.core s.cur).csrDone rd old (Spec.pcNext s c) (s.sc s.cur) n.toNat
      (Spec.csrWritten k old (if isImm then src.setWidth 64 else Spec.xReg s src)))).trans (if_pos rfl)
    have hfr : n.toNat = 0x7C9 → s.frozen s.cur = false := fun h => hf (BitVec.eq_of_toNat_eq h)
    refine ⟨_, exec_csr_write hi hw hr hro hcal hold, ?_, fun h => ?_, fun r h => ?_, ?_, fun e he hne => ?_, ?_, rfl, ?_, ?_⟩
    · rw [Spec.cc, State.setCore_cur, hcore]
      exact (Cc.csrWrite_frame ..).1
    · rw [xReg_csrDone, if_pos ⟨rfl, h⟩]
    · rw [xReg_csrDone, if_neg fun hrd => h hrd.1]
    · rw [csrRead_csrDone hn hn hfr, if_pos rfl]
    · rw [csrRead_csrDone hn he hfr, if_neg hne]
    · rw [Spec.cc, State.setCore_cur, hcore]
      refine ((Cc.csrWrite_frame ..).2.2 hst).trans ?_
      unfold Cc.setX Cc.retireTo
      split <;> rfl
    · rw [Spec.be, State.setCore_cur, hcore]
      exact Be.csrWrite_regs ..
    · rw [hcore]; rfl
  · have hdone (hro : csrReadOnly n.toNat = false) (hcal : n.toNat ≠ 0x7C0) :=
      exec_csr_write (c := c) (rd := rd) (isImm := isImm) hi hw (.inl hm) hro hcal hold
    obtain rfl | rfl | rfl := hn
    · exact ⟨_, hdone rfl (by decide), fun h => by rw [xReg_csrDone, if_pos ⟨rfl, h⟩], fun _ => csrRead_csrDone_mcycle,
        fun h => absurd h.1 (by decide)⟩
    · exact ⟨_, hdone rfl (by decide), fun h => by rw [xReg_csrDone, if_pos ⟨rfl, h⟩], fun _ => csrRead_csrDone_minstret,
        fun h => absurd h.1 (by decide)⟩
    · exact ⟨_, hdone rfl (by decide), fun h => by rw [xReg_csrDone, if_pos ⟨rfl, h⟩], fun h => absurd h (by decide),
        fun h => csrRead_csrDone_mstatus h.2⟩

theorem controlCoreCsrFaults : Spec.ControlCoreCsrFaults :=
  fun s _ _ _ _ _ _ h => ⟨_, exec_csr_illegal h, ccIllegal_trapTaken s⟩

/-- Settles O18: a write by the table of CSRs that it leaves, a read by the value it finds, a fault by the trap it takes. -/
theorem controlCoreCsrAccess : Obligations.ControlCoreCsrAccess := ⟨controlCoreCsrs, controlCoreCsrFaults⟩

end Sys2Proof.Machine
end

section
/-! The start of the bundle engine, from an address and from epc0 to epc2 (R118, R126, R128, R160, R190). -/

open Sys2Proof Sys2Proof.Machine

namespace Sys2Proof.Machine

variable {s t : State} {rs1 rs2 : BitVec 5}

/-! ### The engine that starts, and the instruction that retires -/

theorem isIdle_iff (s : State) : (s.core s.cur).be.isIdle = true ↔ Spec.beIdle s := by
  simp [Be.isIdle, Spec.beIdle, Spec.be]

theorem ccRetire_modBe (s : State) (f : Be → Be) : (s.modBe s.cur f).ccRetire 4 = Spec.retiredWithBe s (f (Spec.be s)) := by
  unfold State.ccRetire State.modCc State.modBe State.modCore Spec.retiredWithBe Spec.retired Spec.setCc
  rw [pcNext_four]
  simp only [setCore_setCore, State.core_setCore, State.setCore_cur, if_true]
  rfl

/-! ### The start form (R118, R190) -/

/-- The engine that cal.bestart leaves to begin at `start`. -/
def Be.startAt (b : Be) (target : Half) (start : Nat) : Be := { b.fill target with micro := none, state := .awaiting start }

theorem exec_calBestart (hi : s.notInspecting) (ht : (Spec.xReg s rs1).toNat < 2 ^ 32) (hidle : Spec.beIdle s)
    (hin : Spec.startInTime s (Spec.xReg s rs2)) : exec (.calBestart rs1 rs2) s =
      .next (Spec.retiredWithBe s ((Spec.be s).startAt ((Spec.xReg s rs1).setWidth 32) (Spec.xReg s rs2).toNat)) := by
  have ht' : ¬ (Spec.xReg s rs1).toNat ≥ 2 ^ 32 := Nat.not_le.2 ht
  have hearly : (s.timed s.cur && decide (s.sc s.cur + 64 > (Spec.xReg s rs2).toNat)) = false := by
    simpa using fun h => (hin h).1
  have hlate : (s.timed s.cur && decide ((Spec.xReg s rs2).toNat > s.sc s.cur + 2 ^ 31)) = false := by
    simpa using fun h => (hin h).2
  change Host.Outcome.next (s.beStart (Spec.xReg s rs1) (Spec.xReg s rs2)) = _
  simp only [State.beStart, inspect_isSome_of_notInspecting hi, ht', (isIdle_iff s).2 hidle, hearly, hlate, decide_false,
    Bool.or_self, Bool.not_true, Bool.false_eq_true, if_false]
  rw [ccRetire_modBe]
  rfl

theorem exec_calBestart_busy (hi : s.notInspecting) (ht : (Spec.xReg s rs1).toNat < 2 ^ 32) (hbusy : ¬ Spec.beIdle s) :
    exec (.calBestart rs1 rs2) s = .next s := by
  have ht' : ¬ (Spec.xReg s rs1).toNat ≥ 2 ^ 32 := Nat.not_le.2 ht
  rw [← isIdle_iff, Bool.not_eq_true] at hbusy
  change Host.Outcome.next (s.beStart (Spec.xReg s rs1) (Spec.xReg s rs2)) = _
  simp only [State.beStart, inspect_isSome_of_notInspecting hi, ht', hbusy, decide_false, Bool.or_self,
    Bool.not_false, Bool.false_eq_true, if_false, if_true]

theorem exec_calBestart_illegal (ht : 2 ^ 32 ≤ (Spec.xReg s rs1).toNat) :
    exec (.calBestart rs1 rs2) s = .next s.ccIllegal := by
  have hill : ((s.core s.cur).cc.inspect.isSome || decide ((Spec.xReg s rs1).toNat ≥ 2 ^ 32)) = true := by
    rw [decide_eq_true ht, Bool.or_true]
  exact congrArg Host.Outcome.next (if_pos hill)

/-- The queue of a started engine: three entries from its address, none of them annulled (R118). -/
theorem startAt_npq (b : Be) (a : Half) (start : Nat) : (Spec.npq (b.startAt a start) 0).addr = a ∧
    ∀ n < 3, (Spec.npq (b.startAt a start) n).annul = false := by
  refine ⟨rfl, fun n hn => ?_⟩
  obtain rfl | rfl | rfl : n = 0 ∨ n = 1 ∨ n = 2 := by omega
  all_goals rfl

/-- Where no armed level ends at its first two addresses, the queue runs on from the first (R118, R121). -/
theorem startAt_sequential {b : Be} {a : Half} {start : Nat} (h0 : Spec.sequential b a) (h1 : Spec.sequential b (a + 1)) :
    (Spec.npq (b.startAt a start) 1).addr = a + 1 ∧ (Spec.npq (b.startAt a start) 2).addr = a + 2 ∧
      (b.startAt a start).loops = b.loops := by
  have hadd : a + 1 + 1 = a + 2 := by rw [BitVec.add_assoc]; rfl
  unfold Be.startAt Be.fill
  rw [seqNext_of_sequential h0]
  dsimp only
  rw [seqNext_of_sequential h1, hadd]
  exact ⟨rfl, rfl, rfl⟩

/-! ### The resume form (R126, R128, R160, R190) -/

/-- The engine that the resume form leaves to go on at `start`. -/
def Core.resumedBe (k : Core) (start : Nat) : Be :=
  { k.be with npq := k.be.epc.map npqOf, micro := k.resumeMicro, halted := false, state := .awaiting start }

section Resume

variable (hi : s.notInspecting) (hx : (Spec.xReg s rs1).toNat = 2 ^ 63) (hm : (Spec.cc s).mode = .m)
  (ht : s.timed s.cur = false)

include hi hx hm ht

theorem exec_calBestartResume : exec (.calBestartResume rs1 rs2) s =
    .next (if (s.core s.cur).be.isIdle = true then
      Spec.retiredWithBe s ((s.core s.cur).resumedBe (Spec.xReg s rs2).toNat) else s) := by
  have hm' : ((s.core s.cur).cc.mode == .u) = false := by rw [show (s.core s.cur).cc.mode = .m from hm]; rfl
  change Host.Outcome.next (if (Spec.xReg s rs1).toNat = 2 ^ 63 then s.beResume (Spec.xReg s rs2) else s.ccIllegal) = _
  simp only [if_pos hx, State.beResume, inspect_isSome_of_notInspecting hi, hm', ht, Bool.or_self,
    Bool.false_eq_true, if_false]
  rw [ccRetire_modBe]
  cases (s.core s.cur).be.isIdle <;> rfl

theorem exec_calBestartResume_idle (hidle : Spec.beIdle s) : exec (.calBestartResume rs1 rs2) s =
    .next (Spec.retiredWithBe s ((s.core s.cur).resumedBe (Spec.xReg s rs2).toNat)) := by
  rw [exec_calBestartResume hi hx hm ht, if_pos ((isIdle_iff s).2 hidle)]

theorem exec_calBestartResume_busy (hbusy : ¬ Spec.beIdle s) : exec (.calBestartResume rs1 rs2) s = .next s := by
  rw [exec_calBestartResume hi hx hm ht, if_neg fun h => hbusy ((isIdle_iff s).1 h)]

end Resume

theorem exec_calBestartResume_illegal
    (h : (Spec.xReg s rs1).toNat ≠ 2 ^ 63 ∨ (Spec.cc s).mode = .u ∨ s.timed s.cur = true) :
    exec (.calBestartResume rs1 rs2) s = .next s.ccIllegal := by
  change Host.Outcome.next (if (Spec.xReg s rs1).toNat = 2 ^ 63 then s.beResume (Spec.xReg s rs2) else s.ccIllegal) = _
  by_cases hx : (Spec.xReg s rs1).toNat = 2 ^ 63
  · have hill : ((s.core s.cur).cc.inspect.isSome || (s.core s.cur).cc.mode == .u || s.timed s.cur) = true := by
      obtain hu | ht := h.resolve_left (not_not_intro hx)
      · rw [show (s.core s.cur).cc.mode = .u from hu]; simp
      · simp [ht]
    rw [if_pos hx]
    exact congrArg Host.Outcome.next (if_pos hill)
  · rw [if_neg hx]

/-- The queue comes back from epc0 to epc2 (R126). -/
theorem resumedBe_npq (k : Core) (start : Nat) {n : Nat} (hn : n < 3) :
    Spec.npq (k.resumedBe start) n = Spec.fromEpc ((k.be.epc[n]?).getD 0) := by
  have haddr (w : Word) : npqOf w = Spec.fromEpc w := by
    have h : w.setWidth 32 = BitVec.ofNat 32 (w.toNat % 2 ^ 32) := by
      apply BitVec.eq_of_toNat_eq
      rw [BitVec.toNat_setWidth, BitVec.toNat_ofNat, Nat.mod_mod]
    rw [npqOf, Spec.fromEpc, h]
  rw [← haddr]
  simp [Spec.npq, Core.resumedBe, hn]

/-- The micro-sequence that MSTEP holds (R159, R160). -/
theorem resumeMicro_some {k : Core} (h : k.be.mstep.getLsbD 63 = true) : ∃ u, k.resumeMicro = some u ∧
    u.pc = k.be.mstep.setWidth 32 ∧ u.slots = k.be.mstep.extractLsb' 36 3 ∧ u.index = k.be.mstep.toNat / 2 ^ 32 % 2 ^ 4 := by
  exact ⟨_, if_neg (by simp [h]), rfl, rfl, rfl⟩

theorem resumeMicro_none {k : Core} (h : k.be.mstep.getLsbD 63 = false) : k.resumeMicro = none :=
  if_pos (by rw [h]; rfl)

/-! ### The statement -/

/-- Settles O23: either form by the engine that it leaves, or by the check that stops it. -/
theorem bundleEngineStart : Obligations.BundleEngineStart := by
  refine ⟨fun s rs1 rs2 hi ht hidle hin => ?_, fun s rs1 rs2 hi hx hidle hm ht => ?_,
    fun s rs1 rs2 hi ht hbusy => exec_calBestart_busy hi ht hbusy,
    fun s rs1 rs2 hi hx hbusy hm ht => exec_calBestartResume_busy hi hx hm ht hbusy,
    fun s rs1 rs2 ht => ⟨_, exec_calBestart_illegal ht, ccIllegal_trapTaken s⟩,
    fun s rs1 rs2 h => ⟨_, exec_calBestartResume_illegal h, ccIllegal_trapTaken s⟩⟩
  · obtain ⟨haddr, hannul⟩ := startAt_npq (Spec.be s) ((Spec.xReg s rs1).setWidth 32) (Spec.xReg s rs2).toNat
    exact ⟨_, exec_calBestart hi ht hidle hin, rfl, rfl, rfl, rfl, hidle.2, haddr, hannul, startAt_sequential⟩
  · exact ⟨_, exec_calBestartResume_idle hi hx hm ht hidle, fun n hn => resumedBe_npq _ _ hn, rfl, rfl, rfl, rfl,
      resumeMicro_none, resumeMicro_some⟩

end Sys2Proof.Machine
end

section
/-! A frequency request that stops the clock of links (R398): their routes lose V (R385), and the store of a route entry ends
the reservation of a control core on its line (R182). -/

open Sys2Proof Sys2Proof.Machine

namespace Sys2Proof.Machine

variable {s t u : State}

/-! ### Reservations that have ended -/

/-- A control core without a reservation is still without one. -/
def KeepsNoResv (s t : State) : Prop := ∀ c, (s.core c).cc.resv = none → (t.core c).cc.resv = none

theorem KeepsNoResv.refl (s : State) : KeepsNoResv s s := fun _ h => h

theorem KeepsNoResv.trans (h : KeepsNoResv s t) (k : KeepsNoResv t u) : KeepsNoResv s u := fun c hc => k c (h c hc)

theorem KeepsNoResv.of_memOnly (h : MemOnly s t) : KeepsNoResv s t := fun c hc => by rw [h]; exact hc

/-- A fold of steps of which none begins a reservation. -/
theorem KeepsNoResv.foldl {α : Type} {f : State → α → State} (hf : ∀ s x, KeepsNoResv s (f s x)) (l : List α) (s : State) :
    KeepsNoResv s (l.foldl f s) := by
  induction l generalizing s with
  | nil => exact .refl s
  | cons x l ih => exact (hf s x).trans (ih _)

theorem breakReservations_keepsNoResv (s : State) (by_ : Option Nat) (p ia n : Nat) :
    KeepsNoResv s (s.breakReservations by_ p ia n) := by
  intro c hc
  unfold State.breakReservations
  unfold State.core at hc ⊢
  dsimp only
  rw [sget_map (fun e => by split <;> [split; skip] <;> rfl)]
  cases h : sget s.cores c with
  | none => rfl
  | some k =>
    rw [h] at hc
    change k.cc.resv = none at hc
    simp only [Option.map_some, Option.getD_some, hc]

theorem iaStore_keepsNoResv (s : State) (p ia : Nat) (bytes : List Byte) : KeepsNoResv s (s.iaStore p ia bytes).1 := by
  unfold State.iaStore
  suffices h : ∀ (qs : List Piece) (a : State × Bool), KeepsNoResv s a.1 → KeepsNoResv s (qs.foldl _ a).1 from
    h _ (s, true) (.refl s)
  intro qs
  induction qs with
  | nil => exact fun _ h => h
  | cons q qs ih =>
    refine fun a h => ih _ ?_
    have hx {u x} (e : a.1.translateNow p (ia + q.ofs) false true = (u, x)) : KeepsNoResv s u := by
      obtain ⟨rfl, -⟩ := Prod.mk.inj e
      exact h.trans (.of_memOnly (a.1.noteWalk_memOnly ..))
    dsimp only
    split
    · rename_i e
      split
      · exact hx e
      · exact ((hx e).trans (.of_memOnly (State.memWrite_memOnly ..))).trans (breakReservations_keepsNoResv _ _ _ _ _)
    · rename_i e
      exact hx e

theorem dropRoutes_keepsNoResv (s : State) (link p : Nat) : KeepsNoResv s (s.dropRoutes link p) := by
  unfold State.dropRoutes
  split
  · exact .refl s
  · refine .foldl (fun u i => ?_) _ s
    dsimp only
    split
    · exact iaStore_keepsNoResv u _ _ _
    · exact .refl u

theorem loseRoutes_keepsNoResv (s : State) (f : Func) : KeepsNoResv s (s.loseRoutes f) := by
  cases f with
  | link n => exact .foldl (fun u p => dropRoutes_keepsNoResv u n p) _ s
  | _ => exact .refl s

/-- The clock of a function stops: the ready bit and the routes touch no core but to end its reservation. -/
theorem stopClock_keepsNoResv (s : State) (f : Func) : KeepsNoResv s ((s.setReady f false).loseRoutes f) :=
  KeepsNoResv.trans (t := s.setReady f false) (fun _ hc => hc) (loseRoutes_keepsNoResv _ f)

/-- `dropRoutes` of a partition whose table is present, by its first entry. -/
theorem dropRoutes_core_resv {s : State} {link p c : Nat} (hv : bitOf (s.partWord p 0) 63 = true)
    (hu : routeUses (s.iaWord p (s.partWord p 5 % 2 ^ 50)) link = true)
    (hr : ((s.iaStore p (s.partWord p 5 % 2 ^ 50)
      (bytesOf (s.iaWord p (s.partWord p 5 % 2 ^ 50) - 2 ^ 63) 8)).1.core c).cc.resv = none) :
    ((s.dropRoutes link p).core c).cc.resv = none := by
  unfold State.dropRoutes
  rw [if_neg (by simp [hv]), show List.range 4096 = 0 :: (List.range 4095).map Nat.succ from List.range_succ_eq_map,
    List.foldl_cons]
  refine KeepsNoResv.foldl (fun u i => ?_) _ _ c ?_
  · dsimp only
    split
    · exact iaStore_keepsNoResv u _ _ _
    · exact .refl u
  · dsimp only
    rw [Nat.mul_zero, Nat.add_zero, if_pos hu]
    exact hr

/-- A reservation that the routes of partition 0 end stays ended while the other partitions lose theirs. -/
theorem loseRoutes_core_resv {s : State} {link c : Nat} (h : ((s.dropRoutes link 0).core c).cc.resv = none) :
    ((s.loseRoutes (.link link)).core c).cc.resv = none := by
  unfold State.loseRoutes
  dsimp only
  rw [show List.range 4 = [0, 1, 2, 3] from rfl, List.foldl_cons]
  exact KeepsNoResv.foldl (fun u p => dropRoutes_keepsNoResv u link p) _ _ c h

/-! ### The state of the refutation -/

/-- Partition 0 has its table, whose first route (at IA 0) is valid and uses link 0, and core 0 holds a reservation on the
line of that route. -/
def reservingCore : State :=
  let s := (State.reset.modPart 0 fun p => { p with words := p.words.set 0 0x8001000000000000 }).setCore 0
    { Core.reset with cc := { Cc.reset with resv := some 0 } }
  { s with
    ready := { s.ready with stack := 1 }
    mem := { s.mem with
      hbm := [(7, 0xC0)]
      tlb := [{ stack := 0, part := 0, block := 0, leaf := 0xF000000000000000, size := 0, pins := [] }] } }

/-- An island with its clock stopped and the ready bit of its function `f` clear (R398). -/
def stopped (s : State) (n : Nat) (f : Func) : State :=
  { s with islands := sinsert s.islands n { (sget s.islands n).getD ⟨false, 0⟩ with freq := 4 } }.setReady f false

/-- A stopped clock takes the routes of the island's functions in turn (R398, R385). -/
theorem frequency_stop {s : State} {n : Nat} {f : Func} {fs : List Func} (ht : s.islandTimed n = false)
    (hi : islandFuncs n = f :: fs) :
    s.frequency n 4 = fs.foldl (fun s f => (s.setReady f false).loseRoutes f) ((stopped s n f).loseRoutes f) := by
  unfold State.frequency
  rw [hi, ht]
  rfl

theorem exec_frequencyRequest {s : State} {n : Nat} (freq : BitVec 4) (hn : n < 256) :
    exec (.frequencyRequest n freq) s = .next (s.frequency n freq) :=
  if_pos (show unitsOk (.frequencyRequest n freq) = true from decide_eq_true hn)

theorem stopped_dropRoutes_resv : (((stopped reservingCore 241 (.link 0)).dropRoutes 0 0).core 0).cc.resv = none :=
  dropRoutes_core_resv (by decide +kernel) (by decide +kernel) (by decide +kernel)

/-- The frequency request ends the reservation of core 0. -/
theorem frequency_reservingCore_resv : ((reservingCore.frequency 241 4).core 0).cc.resv = none := by
  rw [frequency_stop (f := .link 0) (fs := [.link 1, .link 2, .link 3]) (by decide +kernel) rfl]
  exact KeepsNoResv.foldl stopClock_keepsNoResv _ _ 0 (loseRoutes_core_resv stopped_dropRoutes_resv)

/-- Refutes O28: a frequency request that stops the clock of links changes a core. The routes over those links lose V (R385),
which are stores to partition memory, and such a store ends a control core's reservation on its line (R182). -/
theorem not_firmwareRequests : ¬ Obligations.FirmwareRequests := by
  unfold Obligations.FirmwareRequests
  rintro ⟨-, -, -, -, -, -, hfreq⟩
  obtain ⟨-, haccept⟩ := hfreq reservingCore 241 4 (by decide)
  obtain ⟨t, ht, -, -, -, hcores, -⟩ := haccept (by decide +kernel) (by decide)
  obtain rfl := Host.Outcome.next.inj ((exec_frequencyRequest 4 (by decide)).symm.trans ht)
  have hresv : ((reservingCore.frequency 241 4).core 0).cc.resv = some 0 := by
    rw [show (reservingCore.frequency 241 4).core 0 = reservingCore.core 0 from by unfold State.core; rw [hcores]]
    rfl
  exact absurd (frequency_reservingCore_resv.symm.trans hresv) (by decide)

end Sys2Proof.Machine
end
